-- ==== Sys2Proof/Word.lean ====
section
/-! DEFINITION. The part's byte, its 32-bit words, and the shape of sparse tables. -/

namespace Sys2Proof

/-- A byte of a link frame, a stored block, a command record or the configuration image. -/
abbrev Byte := BitVec 8

/-- A 32-bit check value (R1). -/
abbrev Check := BitVec 32

/-- A table held sparsely: (number, item) pairs, numbers strictly rising. Catalogue entries, chunk map
entries, job records and store blocks are held so. -/
abbrev SMap (α : Type) := List (Nat × α)

end Sys2Proof
end

