-- ==== Sys2Proof/Syntax.lean ====
section
/-! DEFINITION. The commands of the part: one constructor of `Instr` for each row of the opcode table. -/

namespace Sys2Proof

/-- What bytes the store hands over with a read's reply (R41): the ones it holds for that block, or others
(a store that has lost or altered the block). -/
inductive ReplyData where
  | asStored
  | bytes (b : List Byte)
  deriving DecidableEq, Repr

/-- A hold-off record (R89): the plain record, or an answer record by its creation order. -/
inductive RecordId where
  | plain
  | answer (order : Nat)
  deriving DecidableEq, Repr

/-- The commands. `params` are the parameter bytes of a command record (R194); `job` is a job record number 0..7. -/
inductive Instr where
  /-- `landed`: whether the write in progress at the reset has left its new contents (R40). -/
  | hardwareReset (landed : Bool)
  /-- `image`: the bytes read, or none when the EEPROM gives no acknowledge (R186, R195). -/
  | configImageRead (image : Option (List Byte))
  | capacityReport (blocks : Nat)
  | capacityTimeout
  | storeReady
  | status (params : List Byte)
  | inquire (params : List Byte)
  | arm (params : List Byte)
  | start (params : List Byte)
  | stop (params : List Byte)
  | abort (params : List Byte)
  | retrieve (params : List Byte)
  | cancel (params : List Byte)
  | labelWrite (params : List Byte)
  | labelRead (params : List Byte)
  | entryRead (params : List Byte)
  | withdraw (params : List Byte)
  | repair (params : List Byte)
  | eventRead (params : List Byte)
  | markInventory (params : List Byte)
  | softReset (params : List Byte)
  | commandWriteIgnored
  | responseRead
  /-- `readable`: the store did not report the block unreadable (R41). -/
  | mediaReadComplete (readable : Bool) (data : ReplyData)
  | mediaReadTimeout
  /-- `ok`: the store did not report the write failed (R42). -/
  | mediaWriteComplete (ok : Bool)
  | mediaWriteTimeout
  | storeLateReply
  /-- `whole`: the period began after the port's owner took it; `high`, `low`: the bits taken while the frame
  clock was high and low, first bit first (R49). -/
  | sampleFrameIn (whole : Bool) (high low : List Bool)
  /-- `edges` of the bit clock in each half of the period (R153). -/
  | sampleFrameOut (whole : Bool) (highEdges lowEdges : Nat)
  | carrierAppears
  /-- `bytes`: what the carrier period held, preamble included (R192). -/
  | carrierEnds (bytes : List Byte)
  | idleGapElapsed
  | slotPhaseEnd (record : RecordId)
  | holdoffRelease (record : RecordId)
  | burstGapEnd
  | frameSent
  | collision
  | badFrame
  | malformedFrame
  | duplicateAddress
  | seekReceived
  | haveReceived
  | grantReceived
  | placeReceived
  | bidReceived
  | assignReceived
  | dataReceived
  | stepReceived
  | doneReceived
  | noticeReceived
  | abandonReceived
  | placementStart
  | automaticRepairStart
  | noticeListFlush
  | frameReoffer (job : Nat)
  | bidWindowClose
  | pledgedTimeout (job : Nat)
  | closeWaitTimeout
  | progressTimeout (job : Nat) (member : Nat)
  | stepTimerExpiry (job : Nat)
  | inactivityTimeout (job : Nat)
  | answerWindowExpiry (job : Nat)
  | grantWaitExpiry (job : Nat)
  | haveExpiry (order : Nat)
  /-- `note`: place in the answer-note list, counted from 0. -/
  | answerNoteLapse (note : Nat)
  | activityTimerExpiry
  | wakeTimerExpiry
  /-- `record`: the bytes of the record from the command code on, as far as they were clocked in (R194): a code above 16
  or 0, or a record cut short. -/
  | unknownCommandCode (record : List Byte)
  deriving DecidableEq, Repr

end Sys2Proof
end

