-- ==== Sys2Proof/Machine/Bytes.lean ====
section
/-! DEFINITION. Byte order (R191) and check values (R1). -/

namespace Sys2Proof.Machine

/-- `v` in `w` bytes, most significant byte first (R191). -/
def beBytes : (w : Nat) → (v : Nat) → List Byte
  | 0, _ => []
  | w + 1, v => beBytes w (v / 256) ++ [BitVec.ofNat 8 v]

/-- The number a field of bytes holds, most significant byte first (R191). -/
def beNat (l : List Byte) : Nat := l.foldl (fun a b => a * 256 + b.toNat) 0

/-- Field of `w` bytes at place `i` of a layout. -/
def fieldAt (l : List Byte) (i w : Nat) : Nat := beNat ((l.drop i).take w)

/-- Byte `i` of a layout. -/
def byteAt (l : List Byte) (i : Nat) : Byte := (l.drop i).headD 0

/-- A layout brought to `n` bytes: cut, or filled with zeros (R191: unused bytes are written as zero). -/
def fitBytes (n : Nat) (l : List Byte) : List Byte := l.take n ++ List.replicate (n - l.length) 0

/-- `l` with `new` written over it from place `i` on. -/
def patch (l : List Byte) (i : Nat) (new : List Byte) : List Byte := l.take i ++ new ++ l.drop (i + new.length)

def crc32Bits : Nat → BitVec 32 → BitVec 32
  | 0, c => c
  | n + 1, c => crc32Bits n (if c.getLsbD 0 then (c >>> 1) ^^^ 0xEDB88320#32 else c >>> 1)

/-- One byte into the reflected CRC-32 register (R1: 04C11DB7H, reflected input and output). -/
def crc32Byte (c : BitVec 32) (b : Byte) : BitVec 32 := crc32Bits 8 (c ^^^ b.setWidth 32)

/-- A take check value carried on over more bytes (R1, R56): the register is the complement of the value. -/
def crc32On (v : Check) (l : List Byte) : Check := ~~~ (l.foldl crc32Byte (~~~ v))

/-- The check value of no bytes (R4). -/
def crcEmpty : Check := 0

/-- CRC-32 of a byte string (R1: take check value, frame check). -/
def crc32 (l : List Byte) : Check := crc32On crcEmpty l

def crc16Bits : Nat → BitVec 16 → BitVec 16
  | 0, c => c
  | n + 1, c => crc16Bits n (if c.getLsbD 15 then (c <<< 1) ^^^ 0x1021#16 else c <<< 1)

/-- CRC-16 of a byte string (R1: 1021H, initial FFFFH, not reflected, not complemented). -/
def crc16 (l : List Byte) : BitVec 16 :=
  l.foldl (fun (c : BitVec 16) (b : Byte) => crc16Bits 8 (c ^^^ ((b.setWidth 16 : BitVec 16) <<< (8 : Nat)))) 0xFFFF#16

end Sys2Proof.Machine
end

