-- ==== Sys2Proof/Machine/Sparse.lean ====
section
/-! DEFINITION. Sparse tables: reading, writing and removing an item, and the canonical form they keep. -/

namespace Sys2Proof.Machine

/-- The item numbered `n`, if there is one. -/
def smapGet {α : Type} : SMap α → Nat → Option α
  | [], _ => none
  | (k, a) :: t, n => if n = k then some a else smapGet t n

/-- The table with item `n` set to `a`, in order. -/
def smapSet {α : Type} : SMap α → Nat → α → SMap α
  | [], n, a => [(n, a)]
  | (k, b) :: t, n, a =>
    if n < k then (n, a) :: (k, b) :: t
    else if n = k then (n, a) :: t
    else (k, b) :: smapSet t n a

/-- The table without item `n`. -/
def smapDel {α : Type} : SMap α → Nat → SMap α
  | [], _ => []
  | (k, b) :: t, n => if n = k then t else (k, b) :: smapDel t n

/-- The lowest number at or above `from_` that the (rising) table does not list. -/
def smapLeastFree {α : Type} : SMap α → Nat → Nat
  | [], n => n
  | (k, _) :: t, n => if k < n then smapLeastFree t n else if k = n then smapLeastFree t (n + 1) else n

/-- Numbers strictly rising: the canonical form. -/
def smapRising {α : Type} : SMap α → Bool
  | [] => true
  | [_] => true
  | (k, _) :: (k', b) :: t => k < k' && smapRising ((k', b) :: t)

/-- The numbers the table lists. -/
def smapKeys {α : Type} (m : SMap α) : List Nat := m.map (·.1)

end Sys2Proof.Machine
end

