-- ==== Sys2Proof/Machine/Types.lean ====
section
/-! DEFINITION. The records the part works with: take numbers, catalogue entries, frames, jobs, events. -/

namespace Sys2Proof.Machine

/-- A take number: origin node 0..31 and origin sequence 1..134,217,727 (3.4). -/
structure TakeNo where
  node : Nat
  seq : Nat
  deriving DecidableEq, Repr

inductive Width where
  | w16
  | w24
  deriving DecidableEq, Repr

inductive Channels where
  | mono
  | stereo
  deriving DecidableEq, Repr

inductive Rate where
  | unstated
  | r44
  | r48
  | r88
  | r96
  deriving DecidableEq, Repr

/-- What the format byte carries (R191). -/
structure Format where
  width : Width
  channels : Channels
  rate : Rate
  deriving DecidableEq, Repr

/-- A stretch of the timeline that was not stored (R12). -/
structure Gap where
  start : Nat
  length : Nat
  deriving DecidableEq, Repr

inductive Role where
  | origin
  | copy
  deriving DecidableEq, Repr

inductive EntryState where
  | capturing
  | held
  | receiving
  | incomplete
  deriving DecidableEq, Repr

inductive EndCause where
  | normal
  | overrun
  | mediaFull
  | mediaFault
  | reset
  deriving DecidableEq, Repr

inductive PlacementStatus where
  | notNeeded
  | queued
  | inProgress
  | satisfied
  deriving DecidableEq, Repr

/-- A live catalogue entry: the fields of Table 1-1, and the repair hold of R168 (CAT's memory alone). -/
structure Entry where
  take : TakeNo
  role : Role
  state : EntryState
  format : Format
  timelineLength : Nat
  storedFrames : Nat
  storedBlocks : Nat
  check : Check
  gaps : List Gap
  clips : Nat
  endCause : Option EndCause
  label : Option (List Byte)
  holders : List Nat
  copiesWanted : Nat
  placement : PlacementStatus
  attempts : Nat
  damaged : List Nat
  damagedCount : Nat
  overflow : Bool
  firstChunk : Nat
  chunkCount : Nat
  jobRefs : Nat
  repairHold : Option Nat
  deriving DecidableEq, Repr

inductive ChunkOwner where
  | reserved
  | free
  | entry (index : Nat)
  | bad
  deriving DecidableEq, Repr

/-- A chunk map entry (R31). `next = none` is END. -/
structure Chunk where
  owner : ChunkOwner
  next : Option Nat
  used : Nat
  deriving DecidableEq, Repr

inductive Purpose where
  | play
  | repair
  deriving DecidableEq, Repr

inductive NoticeReason where
  | holds
  | dropped
  deriving DecidableEq, Repr

inductive AbandonReason where
  | stalled
  | checkFailed
  | mediaFull
  | mediaFault
  | cancelled
  | reset
  deriving DecidableEq, Repr

inductive Direction where
  | out
  | back
  deriving DecidableEq, Repr

/-- The payloads of the eleven frame kinds (R192). A HAVE's `incomplete` is its state byte: 4 when true, 2 when not. -/
inductive Payload where
  | seek (start frames : Nat) (purpose : Purpose) (first count : Nat) (exclusion : List Nat)
  | haveTake (incomplete : Bool) (role : Role) (damaged storedBlocks : Nat) (check : Check)
  | grant (holder : Nat)
  | place (storedBlocks : Nat) (format : Format) (copies wanted : Nat) (exclusion : List Nat)
  | bid (freeChunks : Nat)
  | assign (addresses : List Nat)
  | data (sequence : Nat) (damaged : Bool) (block : List Byte)
  | step (sequence credit : Nat)
  | done (total : Nat) (check : Check)
  | notice (reason : NoticeReason)
  | abandon (reason : AbandonReason)
  deriving DecidableEq, Repr

/-- A link frame (R192). -/
structure Frame where
  src : Nat
  dst : Nat
  dir : Direction
  tag : Nat
  take : TakeNo
  payload : Payload
  deriving DecidableEq, Repr

/-- How LIF classes a carrier period (R73). -/
inductive FrameClass where
  | good (f : Frame)
  | bad
  | malformed
  deriving DecidableEq, Repr

/-- Outcomes of commands and jobs, in the order of their codes (R194). -/
inductive Result where
  | ok
  | notReady
  | noSlot
  | badParam
  | notFound
  | locked
  | streamBusy
  | mediaFull
  | catalogueFull
  | noHolder
  | stalled
  | linkCongested
  | checkFailed
  | cancelled
  | mediaFault
  deriving DecidableEq, Repr

/-- Job kinds, in the order of their codes (R194). -/
inductive JobKind where
  | capture
  | play
  | replicate
  | receive
  | serve
  | repair
  deriving DecidableEq, Repr

inductive GapCause where
  | discard
  | writeFault
  deriving DecidableEq, Repr

inductive MuteCause where
  | duplicateAddress
  | configuration
  deriving DecidableEq, Repr

inductive DefaultReason where
  | absent
  | checkFailed
  deriving DecidableEq, Repr

/-- The eight kinds of event record (R184). `doneJob` is JOB_DONE with the items A, B, C of its kind (R194). -/
inductive Event where
  | doneJob (tag : Nat) (kind : JobKind) (result : Result) (take : Option TakeNo) (a b c : Nat)
  | captureGap (take : TakeNo) (start length : Nat) (cause : GapCause)
  /-- `finder`: the kind of job that read the block, or none for HEAD_WRITE. -/
  | damageFound (take : TakeNo) (sequence count : Nat) (overflow : Bool) (finder : Option JobKind)
  | underrun (tag : Nat) (take : TakeNo) (offset : Nat)
  | copiesShort (take : TakeNo) (holders wanted attempts : Nat)
  | linkMute (cause : MuteCause)
  | startupDone (live madeIncomplete freed : Nat) (prepared fault : Bool)
  | configDefaulted (reason : DefaultReason)
  deriving DecidableEq, Repr

/-- A block held in a stream buffer slot during a capture (R50, R55): `start` is the timeline offset of its first
frame, `bytes` its filled bytes. In the ring (R52) no timeline offset is counted and `start` is 0. -/
structure SoundBlock where
  start : Nat
  frames : Nat
  clips : Nat
  bytes : List Byte
  deriving DecidableEq, Repr

inductive CaptureState where
  | armed
  | running
  | draining
  deriving DecidableEq, Repr

/-- Where the head-block write of a capture stands (R65, R66, R68). -/
inductive HeadPhase where
  | none
  | queued
  | issued
  deriving DecidableEq, Repr

/-- Why a capture is being wound up without sealing (R67, R68): `abort` waits for an issued write and then frees the
entry; `softReset` waits for an issued write; `softHead` writes the INCOMPLETE entry's head block. -/
inductive CaptureEnding where
  | abort
  | softReset
  | softHead
  deriving DecidableEq, Repr

/-- The CAPTURE job's record and CAP's working state (R50). `lastEnd` is the timeline offset just after the last
frame of the last sound block written OK, the timeline length of a chunk boundary (R27). -/
structure CaptureJob where
  state : CaptureState
  format : Format
  preRoll : Nat
  ring : List SoundBlock
  filling : Option SoundBlock
  closed : List SoundBlock
  offset : Nat
  discard : Option (Nat × Nat)
  gaps : List Gap
  storedFrames : Nat
  soundBlocks : Nat
  check : Check
  clips : Nat
  lastEnd : Nat
  cut : Option (Nat × EndCause)
  head : HeadPhase
  headFaults : Nat
  headAgain : Bool
  ending : Option CaptureEnding
  deriving DecidableEq, Repr

/-- A list of block sequences a transfer carries (R123): the head block first if `head`, then `count` sequences
from `first` on. -/
structure Run where
  head : Bool
  first : Nat
  count : Nat
  deriving DecidableEq, Repr

inductive MemberStatus where
  | sending
  | left
  | awaiting
  | confirmed
  | failed
  deriving DecidableEq, Repr

/-- A sender's member record (R106, R124). `progress = none`: the progress timer is stopped. `bidFree`: the
free-chunk count its BID reported. -/
structure Member where
  address : Nat
  status : MemberStatus
  expected : Nat
  credit : Nat
  progress : Option Nat
  goBacks : Nat
  bidFree : Nat
  deriving DecidableEq, Repr

/-- The sender side of a transfer (R124). -/
structure Sender where
  run : Run
  next : Nat
  members : List Member
  doneGiven : Bool
  deriving DecidableEq, Repr

/-- The receiver side of a transfer (R130). `run = none`: a retrieval receiver that has not accepted the head
block. `damaged`: the positions accepted with the damaged flag set. -/
structure Receiver where
  run : Option Run
  expected : Nat
  accepted : Nat
  gapReported : Bool
  stepTimer : Option Nat
  inactivity : Option Nat
  check : Check
  damaged : List Nat
  deriving DecidableEq, Repr

inductive DamagePolicy where
  | deliver
  | silence
  deriving DecidableEq, Repr

inductive PlayState where
  | localStore
  | seeking
  | awaitingData
  | playing
  | draining
  deriving DecidableEq, Repr

/-- The description of a take that a PLAY job takes from its entry or its head block (R142, R143, R151). -/
structure TakeShape where
  format : Format
  timelineLength : Nat
  storedFrames : Nat
  gaps : List Gap
  deriving DecidableEq, Repr

/-- A stream buffer slot of a PLAY job: taken by a read or by an accepted block (R151, R152). -/
structure Slot where
  seq : Nat
  ready : Bool
  damaged : Bool
  bytes : List Byte
  deriving DecidableEq, Repr

/-- The PLAY job's record (R140). `holder` is the granted holder; `grantSent` says the GRANT has been reported SENT.
`nextRead` and `lastRead` bound the local reads still to be requested (R152). -/
structure PlayJob where
  state : PlayState
  start : Nat
  frames : Nat
  policy : DamagePolicy
  holder : Option Nat
  exclusion : Option Nat
  reseekUsed : Bool
  grantedBlocks : Option Nat
  answerWindow : Option Nat
  grantWait : Option Nat
  grantSent : Bool
  shape : Option TakeShape
  endOffset : Nat
  firstBlock : Nat
  blockCount : Nat
  cursor : Nat
  started : Bool
  underruns : Nat
  inUnderrun : Bool
  pendingResult : Option Result
  slots : List Slot
  nextRead : Nat
  lastRead : Nat
  deriving DecidableEq, Repr

inductive ReplicateState where
  | offering
  | assigning
  | sending
  | closing
  deriving DecidableEq, Repr

/-- The REPLICATE job's record (R106). `bids`: (address, free-chunk count) in the order heard. `group`: the addresses
of the ASSIGN with the counts their BIDs reported, to which the bid list is cut (R109); while the transfer state does not exist yet, `left` holds the
members set LEFT (R110). -/
structure ReplicateJob where
  state : ReplicateState
  wanted : Nat
  exclusion : List Nat
  bids : List (Nat × Nat)
  group : List (Nat × Nat)
  left : List Nat
  timer : Option Nat
  deriving DecidableEq, Repr

inductive BidState where
  | pending
  | sent
  deriving DecidableEq, Repr

/-- The RECEIVE job's record (R117, R119). `pledge` is the pledge remainder (R34). `receiving = false` is PLEDGED.
`matched`: the check value of a DONE that matched (R137). -/
structure ReceiveJob where
  receiving : Bool
  storedBlocks : Nat
  format : Format
  copiesWanted : Nat
  wanted : Nat
  exclusion : List Nat
  pledge : Nat
  timer : Option Nat
  bid : BidState
  assigned : List Nat
  matched : Option Check
  deriving DecidableEq, Repr

/-- The SERVE job's record (R149): purpose and stretch or range of the answer note. -/
structure ServeJob where
  purpose : Purpose
  start : Nat
  frames : Nat
  first : Nat
  count : Nat
  deriving DecidableEq, Repr

inductive RepairState where
  | verifying
  | head
  | seeking
  | awaitingData
  | receiving
  | finishing
  deriving DecidableEq, Repr

/-- The REPAIR job's record (R162, R163). `todo`: sequences still to be read when the overflow flag was clear;
`scan`, `scanNext`, `scanEnd`: the scan of every sequence otherwise. `recorded`: the outcome of a transfer that
ended early (R167). -/
structure RepairJob where
  state : RepairState
  scan : Bool
  todo : List Nat
  scanNext : Nat
  scanEnd : Nat
  tally : Nat
  cleared : Nat
  first : Nat
  count : Nat
  holder : Option Nat
  grantSent : Bool
  answerWindow : Option Nat
  grantWait : Option Nat
  recorded : Option Result
  deriving DecidableEq, Repr

inductive JobBody where
  | capture (c : CaptureJob)
  | play (p : PlayJob)
  | replicate (r : ReplicateJob)
  | receive (r : ReceiveJob)
  | serve (s : ServeJob)
  | repair (r : RepairJob)
  deriving DecidableEq, Repr

/-- A job's media request (R37, R38). `sound` and `head` are the CAPTURE job's append write of its oldest closed
block and its head-block write; every other write carries its block. -/
inductive JobReq where
  | read (seq : Nat)
  | append (block : List Byte)
  | inPlace (seq : Nat) (block : List Byte)
  | sound
  | head
  deriving DecidableEq, Repr

/-- A job record (JT). `exTag`: the job tag of the job's exchange (R74). `entry`: the entry it holds a reference on
(R15). `outbox`: frames the transmit queue has refused, oldest first. -/
structure Job where
  tag : Nat
  opener : Nat
  exTag : Option Nat
  take : Option TakeNo
  entry : Option Nat
  body : JobBody
  reqs : List JobReq
  outbox : List Frame
  snd : Option Sender
  rcv : Option Receiver
  deriving DecidableEq, Repr

/-- An item of CAT's write-through queue (R26). `emptied`: an entry item fixed by a creation to write the record as
empty. `head` carries the label the rewritten head block takes (R19). -/
inductive WtItem where
  | entry (index : Nat)
  | emptied (index : Nat)
  | head (index : Nat) (label : Option (List Byte))
  | counter
  deriving DecidableEq, Repr

/-- SUL's operations on the store (R187, R188), each with the faults in a row it has met. -/
inductive SulOp where
  | readBlock (offset : Nat)
  | prepare (offset : Nat) (faults : Nat)
  | head (index : Nat) (faults : Nat)
  deriving DecidableEq, Repr

/-- Who asked for a media operation (R38). `faults`: the write faults in a row this item has met. -/
inductive Requester where
  | job (record : Nat) (req : JobReq)
  | wt (item : WtItem) (faults : Nat)
  | map (block : Nat) (faults : Nat)
  | sul (op : SulOp)
  deriving DecidableEq, Repr

/-- The operation the store carries (R38). `chunk`: the chunk written when the target lies in a take's chain,
with the offset in it. `since`: the node tick of its issue. `wanted`: its outcome goes to its requester (R40). -/
structure Issued where
  who : Requester
  write : Bool
  addr : Nat
  data : List Byte
  chunk : Option Nat
  offset : Nat
  since : Nat
  wanted : Bool
  deriving DecidableEq, Repr

/-- What a media operation ends in (R36, R41, R42, R62). -/
inductive ReadEnd where
  | ok
  | uncorrectable
  | notPresent
  deriving DecidableEq, Repr

inductive WriteEnd where
  | ok
  | fault
  | notPresent
  | full
  deriving DecidableEq, Repr

/-- A frame in the transmit queue with its producer: a job record, or none (CAT, or a job that has ended; R78). -/
structure TxFrame where
  frame : Frame
  owner : Option Nat
  deriving DecidableEq, Repr

inductive Medium where
  | busy
  | settling
  | idle
  deriving DecidableEq, Repr

/-- Where the frame being sent came from: an answer record, the front of the transmit queue, or a frame whose
place in the queue is gone (R84). -/
inductive SendSource where
  | answer (order : Nat)
  | front
  | orphan
  deriving DecidableEq, Repr

structure Sending where
  frame : Frame
  source : SendSource
  deriving DecidableEq, Repr

/-- The class of a carrier period that has ended, waiting for its row (R73, R85). -/
inductive Heard where
  | good (f : Frame)
  | bad
  | malformed
  | duplicate
  deriving DecidableEq, Repr

inductive HoldPhase where
  | slot
  | offset
  | released
  deriving DecidableEq, Repr

/-- What a BID record keeps of the PLACE and of the bidders heard (R89, R104). -/
structure BidCount where
  wanted : Nat
  exclusion : List Nat
  heard : List Nat
  deriving DecidableEq, Repr

/-- A hold-off record (R89). `progress` is counted in bit times in both phases. `bids` is given for a BID, `expiry`
for a HAVE. `doomed`: removed while its frame was being sent (R101). -/
structure HoldRec where
  frame : Frame
  owner : Option Nat
  opener : Nat
  base : Nat
  collisions : Nat
  slots : Nat
  offset : Nat
  phase : HoldPhase
  progress : Nat
  order : Nat
  bids : Option BidCount
  expiry : Option Nat
  doomed : Bool
  deriving DecidableEq, Repr

/-- An answer note (R148). -/
structure AnswerNote where
  requester : Nat
  tag : Nat
  take : TakeNo
  purpose : Purpose
  start : Nat
  frames : Nat
  first : Nat
  count : Nat
  lapse : Nat
  deriving DecidableEq, Repr

inductive Activity where
  | active
  | doze
  | sleep
  | waking
  deriving DecidableEq, Repr

/-- The activity timer (R171): stopped, or running with its expiry, if it has one. -/
inductive ActTimer where
  | stopped
  | running (expiry : Option Nat)
  deriving DecidableEq, Repr

inductive MediaPort where
  | idle
  | busy
  | lowPower
  | off
  | powering
  deriving DecidableEq, Repr

inductive PortStatus where
  | notReady
  | ready
  | busy
  | responseWaiting
  deriving DecidableEq, Repr

/-- The command the port is BUSY with (R180). A START keeps the job tag and the take number its response will carry (R54):
its capture can have ended before its counter write does. -/
inductive Current where
  | start (tag : Nat) (take : TakeNo)
  | labelWrite
  | abort
  | cancel (tag : Nat)
  | softReset
  deriving DecidableEq, Repr

/-- A response record (R194). -/
structure Response where
  result : Result
  code : Nat
  tag : Nat
  data : List Byte
  deriving DecidableEq, Repr

/-- The settings of the configuration image (R186, R195). `linkRate` in Mbit/s; delays in milliseconds. -/
structure Settings where
  address : Nat
  linkRate : Nat
  copiesWanted : Nat
  burstLimit : Nat
  knots : List Nat
  dozeDelay : Nat
  sleepDelay : Nat
  autoRepair : Bool
  eventMask : Byte
  deriving DecidableEq, Repr

/-- Where start-up stands (R186 to R189, R29). -/
inductive SulPhase where
  | image
  | capacity (asked : Nat)
  | counter
  | records (index : Nat)
  | maps (block : Nat)
  | prepare (offset : Nat) (faults : Nat)
  | heads (todo : List Nat) (faults : Nat)
  | complete
  | unusable
  deriving DecidableEq, Repr

end Sys2Proof.Machine
end

