-- ==== Sys2Proof/Machine/Formats.lean ====
section
/-! DEFINITION. The layouts of Chapter 12: take numbers, format byte, frames, stored blocks, records, events. -/

namespace Sys2Proof.Machine

/-! ## Take numbers and formats (R191, 3.3, 3.4) -/

/-- A take number as its 32-bit value: node times 134,217,728 plus sequence (R191). -/
def TakeNo.value (t : TakeNo) : Nat := t.node * 134217728 + t.seq

def takeOfValue (v : Nat) : TakeNo := { node := v / 134217728, seq := v % 134217728 }

def TakeNo.bytes (t : TakeNo) : List Byte := beBytes 4 t.value

/-- A valid take number: node 0..31, sequence 1..134,217,727 (R7). -/
def TakeNo.valid (t : TakeNo) : Bool := t.node ≤ 31 && 1 ≤ t.seq && t.seq ≤ 134217727

/-- The value of an optional take number in a record: 0 where none exists (R194). -/
def takeValue : Option TakeNo → Nat
  | some t => t.value
  | none => 0

def Width.bytes : Width → Nat
  | .w16 => 2
  | .w24 => 3

def Channels.count : Channels → Nat
  | .mono => 1
  | .stereo => 2

/-- Bytes per frame: 2, 3, 4 or 6 (3.3). -/
def Format.frameBytes (f : Format) : Nat := f.width.bytes * f.channels.count

/-- Frames per block F (3.3): 240, 160, 120 or 80. -/
def Format.perBlock (f : Format) : Nat := 480 / f.frameBytes

def Rate.code : Rate → Nat
  | .unstated => 0
  | .r44 => 1
  | .r48 => 2
  | .r88 => 3
  | .r96 => 4

def rateOfCode : Nat → Option Rate
  | 0 => some .unstated
  | 1 => some .r44
  | 2 => some .r48
  | 3 => some .r88
  | 4 => some .r96
  | _ => none

/-- The format byte (R191): bit 0 width, bit 1 channels, bits 4..6 rate code. -/
def Format.byte (f : Format) : Byte :=
  BitVec.ofNat 8 ((match f.width with | .w16 => 0 | .w24 => 1) + (match f.channels with | .mono => 0 | .stereo => 2)
    + 16 * f.rate.code)

/-- Reading a format byte: none for a rate code outside its list. Unused bits are not examined (log 16). -/
def formatOfByte (b : Byte) : Option Format :=
  (rateOfCode (b.toNat / 16 % 8)).map fun r =>
    { width := if b.getLsbD 0 then .w24 else .w16, channels := if b.getLsbD 1 then .stereo else .mono, rate := r }

/-! ## Codes -/

def Role.code : Role → Nat
  | .origin => 0
  | .copy => 1

def roleOfCode : Nat → Option Role
  | 0 => some .origin
  | 1 => some .copy
  | _ => none

def EntryState.code : EntryState → Nat
  | .capturing => 1
  | .held => 2
  | .receiving => 3
  | .incomplete => 4

def entryStateOfCode : Nat → Option EntryState
  | 1 => some .capturing
  | 2 => some .held
  | 3 => some .receiving
  | 4 => some .incomplete
  | _ => none

def EndCause.code : EndCause → Nat
  | .normal => 1
  | .overrun => 2
  | .mediaFull => 3
  | .mediaFault => 4
  | .reset => 5

def endCauseOfCode : Nat → Option EndCause
  | 1 => some .normal
  | 2 => some .overrun
  | 3 => some .mediaFull
  | 4 => some .mediaFault
  | 5 => some .reset
  | _ => none

def PlacementStatus.code : PlacementStatus → Nat
  | .notNeeded => 0
  | .queued => 1
  | .inProgress => 2
  | .satisfied => 3

def placementOfCode : Nat → PlacementStatus
  | 1 => .queued
  | 2 => .inProgress
  | 3 => .satisfied
  | _ => .notNeeded

def AbandonReason.code : AbandonReason → Nat
  | .stalled => 1
  | .checkFailed => 2
  | .mediaFull => 3
  | .mediaFault => 4
  | .cancelled => 6
  | .reset => 7

def abandonOfCode : Nat → Option AbandonReason
  | 1 => some .stalled
  | 2 => some .checkFailed
  | 3 => some .mediaFull
  | 4 => some .mediaFault
  | 6 => some .cancelled
  | 7 => some .reset
  | _ => none

/-- Outcome codes (R194). -/
def Result.code : Result → Nat
  | .ok => 0
  | .notReady => 1
  | .noSlot => 2
  | .badParam => 3
  | .notFound => 4
  | .locked => 5
  | .streamBusy => 6
  | .mediaFull => 7
  | .catalogueFull => 8
  | .noHolder => 9
  | .stalled => 10
  | .linkCongested => 11
  | .checkFailed => 12
  | .cancelled => 13
  | .mediaFault => 14

/-- Job kind codes (R194). -/
def JobKind.code : JobKind → Nat
  | .capture => 1
  | .play => 2
  | .replicate => 3
  | .receive => 4
  | .serve => 5
  | .repair => 6

def Purpose.code : Purpose → Nat
  | .play => 0
  | .repair => 1

/-! ## Frames (R192) -/

def Payload.kindCode : Payload → Nat
  | .seek .. => 1
  | .haveTake .. => 2
  | .grant .. => 3
  | .place .. => 4
  | .bid .. => 5
  | .assign .. => 6
  | .data .. => 7
  | .step .. => 8
  | .done .. => 9
  | .notice .. => 10
  | .abandon .. => 11

def addressBytes (l : List Nat) : List Byte := l.map (BitVec.ofNat 8 ·)

/-- The payload in order (R192). -/
def Payload.bytes : Payload → List Byte
  | .seek start frames purpose first count exclusion =>
    beBytes 4 start ++ beBytes 4 frames ++ beBytes 1 purpose.code ++ beBytes 4 first ++ beBytes 1 count
      ++ beBytes 1 exclusion.length ++ addressBytes exclusion
  | .haveTake incomplete role damaged storedBlocks check =>
    beBytes 1 (if incomplete then 4 else 2) ++ beBytes 1 role.code ++ beBytes 1 damaged ++ beBytes 4 storedBlocks
      ++ beBytes 4 check.toNat
  | .grant holder => beBytes 1 holder
  | .place storedBlocks format copies wanted exclusion =>
    beBytes 4 storedBlocks ++ [format.byte] ++ beBytes 1 copies ++ beBytes 1 wanted ++ beBytes 1 exclusion.length
      ++ addressBytes exclusion
  | .bid freeChunks => beBytes 2 freeChunks
  | .assign addresses => beBytes 1 addresses.length ++ addressBytes addresses
  | .data sequence damaged block => beBytes 4 sequence ++ beBytes 1 (if damaged then 1 else 0) ++ block
  | .step sequence credit => beBytes 4 sequence ++ beBytes 1 credit
  | .done total check => beBytes 4 total ++ beBytes 4 check.toNat
  | .notice reason => beBytes 1 (match reason with | .holds => 1 | .dropped => 2)
  | .abandon reason => beBytes 1 reason.code

/-- Header and payload: what the frame check covers (R1, R192). -/
def Frame.body (f : Frame) : List Byte :=
  beBytes 1 f.payload.kindCode ++ beBytes 1 f.src ++ beBytes 1 f.dst
    ++ beBytes 1 (match f.dir with | .out => 0 | .back => 1) ++ beBytes 1 f.tag ++ f.take.bytes
    ++ beBytes 2 f.payload.bytes.length ++ f.payload.bytes

/-- The preamble: 16 bit times of alternating ones and zeros, a one first (R192). -/
def preamble : List Byte := [0xAA, 0xAA]

/-- A frame as it stands on the medium (R192). -/
def Frame.bytes (f : Frame) : List Byte := preamble ++ f.body ++ beBytes 4 (crc32 f.body).toNat

/-- Bit times a frame takes (R192): 16 + (11 + payload + 4) × 8. -/
def Frame.bits (f : Frame) : Nat := 16 + (11 + f.payload.bytes.length + 4) * 8

/-- Addresses of a list: each 0..31, none repeated (R192). -/
def addressesOk (l : List Nat) : Bool := l.all (· ≤ 31) && l.eraseDups.length == l.length

/-- The address list of a count byte at place `i` that holds `lo`..`hi`, filling the payload to its end. -/
def addressList (p : List Byte) (i lo hi : Nat) : Option (List Nat) :=
  let n := (byteAt p i).toNat
  let l := ((p.drop (i + 1)).map (·.toNat))
  if lo ≤ n && n ≤ hi && l.length == n && addressesOk l then some l else none

/-- A payload read by its kind code (R192): none where the length, a coded field, a list or a count is wrong. -/
def payloadOf (kind : Nat) (p : List Byte) : Option Payload :=
  match kind with
  | 1 =>
    if p.length < 15 then none else
    match addressList p 14 0 3, (byteAt p 8).toNat with
    | some ex, 0 => some (.seek (fieldAt p 0 4) (fieldAt p 4 4) .play (fieldAt p 9 4) (byteAt p 13).toNat ex)
    | some ex, 1 =>
      let count := (byteAt p 13).toNat
      if 1 ≤ count && count ≤ 64 && fieldAt p 9 4 ≠ 0 then
        some (.seek (fieldAt p 0 4) (fieldAt p 4 4) .repair (fieldAt p 9 4) count ex)
      else none
    | _, _ => none
  | 2 =>
    if p.length ≠ 11 then none else
    match (byteAt p 0).toNat, roleOfCode (byteAt p 1).toNat with
    | 2, some r => some (.haveTake false r (byteAt p 2).toNat (fieldAt p 3 4) (BitVec.ofNat 32 (fieldAt p 7 4)))
    | 4, some r => some (.haveTake true r (byteAt p 2).toNat (fieldAt p 3 4) (BitVec.ofNat 32 (fieldAt p 7 4)))
    | _, _ => none
  | 3 => if p.length ≠ 1 then none else some (.grant (byteAt p 0).toNat)
  | 4 =>
    if p.length < 8 then none else
    match addressList p 7 1 3, formatOfByte (byteAt p 4) with
    | some ex, some f =>
      let copies := (byteAt p 5).toNat
      let wanted := (byteAt p 6).toNat
      if 1 ≤ copies && copies ≤ 4 && 1 ≤ wanted && wanted ≤ 3 then some (.place (fieldAt p 0 4) f copies wanted ex)
      else none
    | _, _ => none
  | 5 => if p.length ≠ 2 then none else some (.bid (fieldAt p 0 2))
  | 6 => (addressList p 0 1 3).map .assign
  | 7 => if p.length ≠ 517 then none else some (.data (fieldAt p 0 4) ((byteAt p 4).getLsbD 0) (p.drop 5))
  | 8 => if p.length ≠ 5 || 8 < (byteAt p 4).toNat then none else some (.step (fieldAt p 0 4) (byteAt p 4).toNat)
  | 9 => if p.length ≠ 8 then none else some (.done (fieldAt p 0 4) (BitVec.ofNat 32 (fieldAt p 4 4)))
  | 10 =>
    if p.length ≠ 1 then none else
    match (byteAt p 0).toNat with
    | 1 => some (.notice .holds)
    | 2 => some (.notice .dropped)
    | _ => none
  | 11 => if p.length ≠ 1 then none else (abandonOfCode (byteAt p 0).toNat).map .abandon
  | _ => none

/-- Header and payload read against R192: none is malformed. -/
def frameOfBody (b : List Byte) : Option Frame :=
  let src := (byteAt b 1).toNat
  let dst := (byteAt b 2).toNat
  let dir := (byteAt b 3).toNat
  let take := takeOfValue (fieldAt b 5 4)
  if b.length < 11 || 31 < src || (31 < dst && dst ≠ 63) || 1 < dir || take.seq = 0
      || fieldAt b 9 2 ≠ b.length - 11 then none
  else (payloadOf (byteAt b 0).toNat (b.drop 11)).map fun p =>
    { src := src, dst := dst, dir := if dir = 0 then .out else .back, tag := (byteAt b 4).toNat, take := take, payload := p }

/-- LIF's test at the end of a carrier period (R73): bad where it holds no whole frame or the frame check disagrees,
malformed where R192 rejects the header or payload. The longest frame has 11 + 517 + 4 bytes after the preamble.
DESIGN CHOICE (log 61): the frame check is the period's last 4 bytes, so a frame with bytes behind it is bad. -/
def classify (period : List Byte) : FrameClass :=
  let rest := period.drop 2
  let body := rest.take (rest.length - 4)
  if period.take 2 ≠ preamble || rest.length < 16 || 532 < rest.length
      || rest.drop (rest.length - 4) ≠ beBytes 4 (crc32 body).toNat then .bad
  else match frameOfBody body with
    | some f => .good f
    | none => .malformed

/-! ## Stored blocks (R193) -/

/-- A stored block: 32-byte header, then the payload brought to 480 bytes, with its block check (R1, R193). -/
def makeBlock (take : Option TakeNo) (sequence offset frames type : Nat) (format : Byte) (payload : List Byte) : List Byte :=
  let p := fitBytes 480 payload
  beBytes 4 (takeValue take) ++ beBytes 4 sequence ++ beBytes 4 offset ++ beBytes 2 frames ++ beBytes 1 type
    ++ [format] ++ beBytes 2 (crc16 p).toNat ++ List.replicate 14 0 ++ p

def blockPayload (b : List Byte) : List Byte := (b.drop 32).take 480

/-- Whether the block check in the header agrees with the payload (R41, R131). -/
def blockGood (b : List Byte) : Bool := fieldAt b 16 2 == (crc16 (blockPayload b)).toNat

def blockFrames (b : List Byte) : Nat := fieldAt b 12 2

/-- MED writes the sequence into the block header when it issues the write (R37). DESIGN CHOICE (log 67): the unused header
bytes of a received block stay as they were received. -/
def withSequence (b : List Byte) (seq : Nat) : List Byte := patch b 4 (beBytes 4 seq)

/-- The filled bytes of a sound block: frame count times bytes per frame (R55). DESIGN CHOICE (log 47): where a block's header
gives more than its 480-byte payload holds, they are the whole payload. -/
def filledBytes (f : Format) (b : List Byte) : List Byte := (blockPayload b).take (blockFrames b * f.frameBytes)

def gapBytes (l : List Gap) : List Byte :=
  fitBytes 128 (l.flatMap fun g => beBytes 4 g.start ++ beBytes 4 g.length)

def gapsFrom : Nat → List Byte → List Gap
  | 0, _ => []
  | n + 1, l => { start := fieldAt l 0 4, length := fieldAt l 4 4 } :: gapsFrom n (l.drop 8)

/-- Ascending, none empty, none touching the next (R12). DESIGN CHOICE (log 73): R193 rejects a list out of order; an empty gap
and one that touches the next are taken for out of order too. -/
def gapsOk : List Gap → Bool
  | [] => true
  | [g] => 1 ≤ g.length
  | g :: h :: t => 1 ≤ g.length && g.start + g.length < h.start && gapsOk (h :: t)

def gapTotal (l : List Gap) : Nat := (l.map (·.length)).sum

def labelBytes (l : Option (List Byte)) : List Byte :=
  beBytes 1 (if l.isSome then 1 else 0) ++ fitBytes 64 (l.getD [])

/-- What a head block carries of a take (R193). -/
structure HeadInfo where
  take : TakeNo
  format : Format
  endCause : EndCause
  timelineLength : Nat
  storedFrames : Nat
  storedBlocks : Nat
  check : Check
  clips : Nat
  copiesWanted : Nat
  label : Option (List Byte)
  gaps : List Gap
  deriving DecidableEq, Repr

def HeadInfo.payload (h : HeadInfo) : List Byte :=
  h.take.bytes ++ [h.format.byte] ++ beBytes 1 h.endCause.code ++ beBytes 4 h.timelineLength ++ beBytes 4 h.storedFrames
    ++ beBytes 4 h.storedBlocks ++ beBytes 4 h.check.toNat ++ beBytes 2 h.clips ++ beBytes 1 h.copiesWanted
    ++ labelBytes h.label ++ beBytes 1 h.gaps.length ++ gapBytes h.gaps

/-- A head block as MED writes it: block sequence 0, type 2 (R193). -/
def HeadInfo.block (h : HeadInfo) : List Byte := makeBlock (some h.take) 0 0 0 2 h.format.byte h.payload

/-- Reading a head block payload; none where a code or the gap count lies outside its list (log 15). -/
def headOfPayload (p : List Byte) : Option HeadInfo :=
  match formatOfByte (byteAt p 4), endCauseOfCode (byteAt p 5).toNat with
  | some f, some c =>
    if 16 < (byteAt p 90).toNat || 1 < (byteAt p 25).toNat then none
    else some
      { take := takeOfValue (fieldAt p 0 4), format := f, endCause := c, timelineLength := fieldAt p 6 4,
        storedFrames := fieldAt p 10 4, storedBlocks := fieldAt p 14 4, check := BitVec.ofNat 32 (fieldAt p 18 4),
        clips := fieldAt p 22 2, copiesWanted := (byteAt p 24).toNat,
        label := if (byteAt p 25).toNat = 1 then some ((p.drop 26).take 64) else none,
        gaps := gapsFrom (byteAt p 90).toNat (p.drop 91) }
  | _, _ => none

/-- The counter block's format mark (R193). -/
def formatMark : List Byte := [0xA5, 0x5A, 0xC3, 0x3C]

def counterBlock (counter : Nat) : List Byte := makeBlock none 0 0 0 3 0 (formatMark ++ beBytes 4 counter)

def ChunkOwner.code : ChunkOwner → Nat
  | .reserved => 0xFFFE
  | .free => 0xFFFF
  | .bad => 0xFFFD
  | .entry i => i

def Chunk.bytes (c : Chunk) : List Byte := beBytes 2 c.owner.code ++ beBytes 2 (c.next.getD 0xFFFF) ++ beBytes 2 c.used

/-- A chunk map entry that is FREE, END, 0 (R31): what an unlisted chunk is. -/
def freeChunk : Chunk := { owner := .free, next := none, used := 0 }

def reservedChunk : Chunk := { owner := .reserved, next := none, used := 4096 }

/-- BAD, END, 0 (R187). -/
def lostChunk : Chunk := { owner := .bad, next := none, used := 0 }

/-- A loaded chunk entry (R187): owner 2048..FFFCH, RESERVED for another chunk than 0, or a next chunk neither END nor
below the total is none. DESIGN CHOICE (log 63): a count of blocks used above 4096 is not among these and loads as it
stands. -/
def chunkOfBytes (total number : Nat) (b : List Byte) : Option Chunk :=
  let owner := fieldAt b 0 2
  let next := fieldAt b 2 2
  if (2048 ≤ owner && owner ≤ 0xFFFC) || (owner = 0xFFFE && number ≠ 0) || (next ≠ 0xFFFF && total ≤ next) then none
  else some
    { owner := if owner = 0xFFFF then .free else if owner = 0xFFFE then .reserved else if owner = 0xFFFD then .bad
               else .entry owner,
      next := if next = 0xFFFF then none else some next, used := fieldAt b 4 2 }

/-- An entry's record, 256 bytes (R193). -/
def Entry.record (e : Entry) : List Byte :=
  beBytes 1 e.state.code ++ beBytes 1 e.role.code ++ e.take.bytes ++ [e.format.byte]
    ++ beBytes 1 (match e.endCause with | none => 0 | some c => c.code) ++ beBytes 4 e.timelineLength
    ++ beBytes 4 e.check.toNat ++ beBytes 2 e.clips ++ beBytes 1 (e.copiesWanted + 16 * e.placement.code)
    ++ beBytes 1 e.attempts ++ beBytes 1 e.damagedCount
    ++ beBytes 1 (e.damaged.length + if e.overflow then 128 else 0)
    ++ fitBytes 32 (e.damaged.flatMap (beBytes 4 ·))
    ++ (e.holders.map (BitVec.ofNat 8 ·) ++ List.replicate (4 - e.holders.length) 0xFF)
    ++ beBytes 1 e.gaps.length ++ gapBytes e.gaps ++ beBytes 2 e.firstChunk ++ beBytes 2 e.chunkCount
    ++ labelBytes e.label

/-- The record of an entry or of an empty place: every byte zero (R193). -/
def recordOf : Option Entry → List Byte
  | some e => e.record
  | none => List.replicate 256 0

/-- The block at offset 1 + i of the reserved chunk (R30, R193). -/
def recordBlock (index : Nat) (e : Option Entry) : List Byte := makeBlock none (1 + index) 0 0 4 0 (recordOf e)

/-- What a catalogue record read OK gives (R187, R193). -/
inductive Loaded where
  | empty
  | live (e : Entry)
  | invalid
  deriving DecidableEq, Repr

def wordsFrom : Nat → List Byte → List Nat
  | 0, _ => []
  | n + 1, l => fieldAt l 0 4 :: wordsFrom n (l.drop 4)

/-- SUL's reading of a record (R193): stored frames and stored blocks are derived; codes or lengths outside their
lists, a negative count of stored frames or gaps out of order make it invalid. DESIGN CHOICES: a label-present byte other
than 0 and 1 is none of these tests, and reads as present (log 48); a record of state 0 is empty whatever its other bytes hold, and
they are not tested (log 54); a damaged list out of order or with repeats, and a damaged count below its length, are kept as
they stand (log 66), and so are a placement status that the role or state rules out (log 68), holder addresses that repeat, are no
node's or stand behind an FFH (log 69), and the values of the other fields that R193 does not test (log 70). -/
def entryOfRecord (r : List Byte) : Loaded :=
  let state := (byteAt r 0).toNat
  let causeCode := (byteAt r 7).toNat
  let listLength := (byteAt r 21).toNat % 16
  let gapCount := (byteAt r 58).toNat
  let gaps := gapsFrom gapCount (r.drop 59)
  let length := fieldAt r 8 4
  if state = 0 then .empty
  else match entryStateOfCode state, roleOfCode (byteAt r 1).toNat, formatOfByte (byteAt r 6) with
    | some st, some role, some f =>
      if 5 < causeCode || 8 < listLength || 16 < gapCount || length < gapTotal gaps || !gapsOk gaps then .invalid
      else
        let stored := length - gapTotal gaps
        .live
          { take := takeOfValue (fieldAt r 2 4), role := role, state := st, format := f, timelineLength := length,
            storedFrames := stored, storedBlocks := (stored + f.perBlock - 1) / f.perBlock + 1,
            check := BitVec.ofNat 32 (fieldAt r 12 4), gaps := gaps, clips := fieldAt r 16 2,
            endCause := endCauseOfCode causeCode,
            label := if (byteAt r 191).toNat = 0 then none else some ((r.drop 192).take 64),
            holders := (((r.drop 54).take 4).filter (· ≠ 0xFF)).map (·.toNat),
            copiesWanted := (byteAt r 18).toNat % 8, placement := placementOfCode ((byteAt r 18).toNat / 16 % 4),
            attempts := (byteAt r 19).toNat, damaged := wordsFrom listLength (r.drop 22),
            damagedCount := (byteAt r 20).toNat, overflow := (byteAt r 21).getLsbD 7,
            firstChunk := fieldAt r 187 2, chunkCount := fieldAt r 189 2, jobRefs := 0, repairHold := none }
    | _, _, _ => .invalid

/-! ## Event and response records (R194) -/

def Event.code : Event → Nat
  | .doneJob .. => 1
  | .captureGap .. => 2
  | .damageFound .. => 3
  | .underrun .. => 4
  | .copiesShort .. => 5
  | .linkMute .. => 6
  | .startupDone .. => 7
  | .configDefaulted .. => 8

def MuteCause.code : MuteCause → Nat
  | .duplicateAddress => 1
  | .configuration => 2

def eventRecord (kind tag jobKind outcome take a b c : Nat) : List Byte :=
  beBytes 1 kind ++ beBytes 1 tag ++ beBytes 1 jobKind ++ beBytes 1 outcome ++ beBytes 4 take ++ beBytes 4 a
    ++ beBytes 4 b ++ beBytes 4 c

/-- The 20-byte event record (R194). -/
def Event.bytes (e : Event) : List Byte :=
  match e with
  | .doneJob tag kind result take a b c => eventRecord e.code tag kind.code result.code (takeValue take) a b c
  | .captureGap take start length cause =>
    eventRecord e.code 0 0 0 take.value start length (match cause with | .discard => 1 | .writeFault => 2)
  | .damageFound take sequence count overflow finder =>
    eventRecord e.code 0 0 0 take.value sequence count
      ((match finder with | some k => k.code | none => 0) + if overflow then 256 else 0)
  | .underrun tag take offset => eventRecord e.code tag 0 0 take.value offset 0 0
  | .copiesShort take holders wanted attempts => eventRecord e.code 0 0 0 take.value holders wanted attempts
  | .linkMute cause => eventRecord e.code 0 0 0 0 cause.code 0 0
  | .startupDone live madeIncomplete freed prepared fault =>
    eventRecord e.code 0 (if prepared then 1 else 0) (if fault then 1 else 0) 0 live madeIncomplete freed
  | .configDefaulted reason => eventRecord e.code 0 0 0 0 (match reason with | .absent => 1 | .checkFailed => 2) 0 0

/-- The response record on the port (R194). -/
def Response.bytes (r : Response) : List Byte :=
  beBytes 1 r.result.code ++ beBytes 1 r.code ++ beBytes 1 r.tag ++ beBytes 2 r.data.length ++ r.data

end Sys2Proof.Machine
end

