-- ==== Sys2Proof/Config.lean ====
section
/-! DEFINITION. What the spec leaves open as a value: constants with no body. A statement holds whatever they are. -/

namespace Sys2Proof

/-- INQUIRE's revision number (R181, R194): the spec gives no value. Log 9. -/
opaque Config.revision : Byte

/-- What store block `addr` holds when no write of this node has left it contents (R187 names only what the part
does with it). Log 9. -/
opaque Config.unwrittenBlock : (addr : Nat) → List Byte

/-- What a store block holds after its `n`th faulted or timed-out write (R42, R43 give the outcome, not the
contents). Log 9. -/
opaque Config.blockAfterFault : (n : Nat) → List Byte

end Sys2Proof
end

