-- ==== Sys2Proof/Machine/State.lean ====
section
/-! DEFINITION. The machine's state, its reset value, and the reasons a step can stop. -/

namespace Sys2Proof.Machine

/-- CAT: catalogue, placement queue, write-through queue, notices, inventory mark (Chapter 1). -/
structure Cat where
  entries : SMap Entry
  reserved : Nat
  counter : Nat
  mark : Bool
  fault : Bool
  notices : List Frame
  queue : List (Nat × Nat)
  wt : List WtItem
  wtRetry : Option (WtItem × Nat)
  deriving DecidableEq, Repr

/-- MED: chunk map, counts, arbiter, map-write list; and the store as writes have left it (Chapter 2). -/
structure Med where
  capacity : Nat
  total : Nat
  chunks : SMap Chunk
  free : Nat
  pledged : Nat
  bad : Nat
  issued : Option Issued
  mapList : List Nat
  mapRetry : Option (Nat × Nat)
  rrLast : Nat
  store : SMap (List Byte)
  deriving DecidableEq, Repr

/-- JT: eight job records and the rotation of job tags (R189). -/
structure Jt where
  jobs : SMap Job
  nextTag : Nat
  deriving DecidableEq, Repr

/-- How the sample port's data line stands (R48, R141, R153). -/
inductive LineDirection where
  | released
  | input
  | output
  deriving DecidableEq, Repr

/-- The sample port (R48, R141, R153): its owner, its data line's direction and the bits driven in the last period. -/
structure SamplePort where
  owner : Option Nat
  line : LineDirection
  lineHigh : List Bool
  lineLow : List Bool
  deriving DecidableEq, Repr

/-- LIF (Chapter 4). -/
structure Lif where
  listening : Bool
  carrier : Bool
  medium : Medium
  absent : Nat
  rxOpen : Bool
  heard : Option Heard
  lastSource : Nat
  queue : List TxFrame
  sending : Option Sending
  sentBits : Nat
  burst : Nat
  gap : Bool
  endBurst : Bool
  collisions : Nat
  errors : Nat
  lfsr : BitVec 16
  mute : Option MuteCause
  deriving DecidableEq, Repr

/-- HOU (Chapter 5). -/
structure Hou where
  answers : List HoldRec
  plain : Option HoldRec
  nextOrder : Nat
  deriving DecidableEq, Repr

/-- ACT (R171). -/
structure Act where
  state : Activity
  timer : ActTimer
  wakeAt : Option Nat
  dozeDue : Bool
  deriving DecidableEq, Repr

/-- CPE (R179, R184). `out` is what the last response read returned. -/
structure Cpe where
  port : PortStatus
  current : Option Current
  response : Option Response
  events : List Event
  seen : List Nat
  lost : Nat
  refused : Nat
  out : List Byte
  deriving DecidableEq, Repr

/-- SUL (R186 to R189). -/
structure Sul where
  phase : SulPhase
  cfg : Settings
  defaulted : Bool
  clamped : Byte
  madeIncomplete : Nat
  freed : Nat
  prepared : Bool
  deriving DecidableEq, Repr

/-- The machine. `pending` is the queue of waiting commands; `clock` counts units of 125 ns (log 1); `freeIx` counts
the free values taken (log 9). -/
structure State where
  pending : List Instr
  clock : Nat
  freeIx : Nat
  cat : Cat
  med : Med
  jt : Jt
  port : SamplePort
  lif : Lif
  hou : Hou
  notes : List AnswerNote
  act : Act
  cpe : Cpe
  sul : Sul
  deriving DecidableEq, Repr

/-- Why a step stops: the command names an event that cannot occur in this state, so the spec gives it no effect
(log 5). All are safe: the part goes on without the event, the model stops. -/
inductive Fault where
  /-- An expiry of a timer, window, wait, note or record that is not running or not there. Raised by the expiry
  commands. Safe. -/
  | noSuchTimer
  /-- A job record that is not live, or of another kind. Raised by FRAME_REOFFER. Safe. -/
  | noSuchJob
  /-- A store reply with no operation of its kind issued. Raised by the MEDIA commands. Safe. -/
  | nothingIssued
  /-- A frame's end, collision or short gap while none is under way. Raised by FRAME_SENT, COLLISION,
  BURST_GAP_END. Safe. -/
  | notSending
  /-- No carrier period of that class waits to be taken. Raised by the rows of R73, R75 and R85. Safe. -/
  | notHeard
  /-- The medium is not in the state the event starts from. Raised by CARRIER_APPEARS, CARRIER_ENDS,
  IDLE_GAP_ELAPSED, SLOT_PHASE_END, HOLDOFF_RELEASE. Safe. -/
  | mediumState
  /-- Start-up does not wait for this event. Raised by CONFIG_IMAGE_READ, CAPACITY_REPORT, CAPACITY_TIMEOUT,
  STORE_READY. Safe. -/
  | notAwaited
  /-- A command write in READY is not ignored, or the record is one of a known command. Raised by
  COMMAND_WRITE_IGNORED, UNKNOWN_COMMAND_CODE. Safe. -/
  | notThisRow
  deriving DecidableEq, Repr

/-- Why a command has no meaning. -/
inductive Refusal where
  /-- Raised by exec's arm of a command whose meaning is not written yet. Safe. -/
  | notModelled (mnemonic : String)
  deriving DecidableEq, Repr

/-- The defaults of R186's table: also the settings in effect before SUL has loaded any (log 8). -/
def defaultSettings : Settings where
  address := 31
  linkRate := 2
  copiesWanted := 2
  burstLimit := 4
  knots := [0, 4, 8, 16, 32, 64, 128, 192, 255]
  dozeDelay := 0
  sleepDelay := 0
  autoRepair := false
  eventMask := 0xFF

/-- The LFSR's seed (R94). -/
def lfsrSeed (address : Nat) : BitVec 16 := BitVec.ofNat 16 (address * 2053 + 1)

/-- Right after a hardware reset (Chapters 1 to 11; R69, R88, R178, R179, R184, R189): SUL waits for the configuration
image. What SUL loads later stands at the values of log 8. -/
def State.reset : State where
  pending := []
  clock := 0
  freeIx := 0
  cat := { entries := [], reserved := 0, counter := 0, mark := true, fault := false, notices := [], queue := [],
           wt := [], wtRetry := none }
  med := { capacity := 0, total := 0, chunks := [], free := 0, pledged := 0, bad := 0, issued := none, mapList := [],
           mapRetry := none, rrLast := 7, store := [] }
  jt := { jobs := [], nextTag := 0 }
  port := { owner := none, line := .released, lineHigh := [], lineLow := [] }
  lif := { listening := false, carrier := false, medium := .settling, absent := 0, rxOpen := false, heard := none,
           lastSource := 31, queue := [], sending := none, sentBits := 0, burst := 0, gap := false, endBurst := false,
           collisions := 0, errors := 0, lfsr := lfsrSeed 31, mute := none }
  hou := { answers := [], plain := none, nextOrder := 0 }
  notes := []
  act := { state := .waking, timer := .stopped, wakeAt := none, dozeDue := false }
  cpe := { port := .notReady, current := none, response := none, events := [], seen := [0, 0, 0, 0, 0, 0, 0, 0],
           lost := 0, refused := 0, out := [] }
  sul := { phase := .image, cfg := defaultSettings, defaulted := false, clamped := 0, madeIncomplete := 0, freed := 0,
           prepared := false }

end Sys2Proof.Machine
end

