-- ==== Sys2Proof/Machine/Ops.lean ====
section
/-! DEFINITION. The operations every block uses: time, saturating counters, events, entries, job records, responses. -/

namespace Sys2Proof.Machine

/-! ## Time (3.2) -/

/-- Node ticks of 1 ms: 8000 units of 125 ns. -/
def State.now (s : State) : Nat := s.clock / 8000

/-- Units of 125 ns in one bit time at the link rate in effect (R71: 500, 250 or 125 ns). -/
def State.bitUnits (s : State) : Nat := 8 / s.sul.cfg.linkRate

/-! ## Who the node is and whether it may act -/

/-- The own address (R186). -/
def State.own (s : State) : Nat := s.sul.cfg.address

/-- LINK_MUTE (R86). -/
def State.muted (s : State) : Bool := s.lif.mute.isSome

/-- Start-up has completed (R189). -/
def State.complete (s : State) : Bool := s.sul.phase == .complete

/-- The node may send frames and answer them (R87, R116, R148). -/
def State.linkStanding (s : State) : Bool := s.complete && !s.muted

/-! ## Saturating counters (3.1) -/

/-- `a + n`, holding at `max`. -/
def satAdd (max a n : Nat) : Nat := min max (a + n)

/-- The list with item `i` raised by 1, holding at `max`. -/
def bumpAt (max : Nat) : (i : Nat) → List Nat → List Nat
  | _, [] => []
  | 0, a :: t => satAdd max a 1 :: t
  | i + 1, a :: t => a :: bumpAt max i t

/-! ## Events (R184, R185) -/

/-- CPE takes an event record: counts it, and queues it unless its kind is masked or the queue holds 32. -/
def raise (e : Event) (s : State) : State :=
  let s := { s with cpe.seen := bumpAt 65535 (e.code - 1) s.cpe.seen }
  if !s.sul.cfg.eventMask.getLsbD (e.code - 1) then s
  else if s.cpe.events.length < 32 then { s with cpe.events := s.cpe.events ++ [e] }
  else { s with cpe.lost := satAdd 255 s.cpe.lost 1 }

/-! ## Responses (R179, R180) -/

/-- The response record is built: the port waits for it to be read. -/
def respond (result : Result) (code tag : Nat) (data : List Byte) (s : State) : State :=
  { s with cpe.port := .responseWaiting, cpe.current := none,
           cpe.response := some { result := result, code := code, tag := tag, data := data } }

/-- The port stays BUSY with a command whose response is built later. -/
def busyWith (c : Current) (s : State) : State := { s with cpe.port := .busy, cpe.current := some c, cpe.response := none }

/-! ## Catalogue entries (R7, R21, R26) -/

def State.entryAt (s : State) (i : Nat) : Option Entry := smapGet s.cat.entries i

/-- The live entry that holds a take, with its index (R7). DESIGN CHOICE (log 53): of two loaded with one take number, the lowest. -/
def State.findTake (s : State) (t : TakeNo) : Option (Nat × Entry) := s.cat.entries.find? (fun p => p.2.take == t)

def setMark (s : State) : State := { s with cat.mark := true }

/-- An entry's fields change in CAT's memory. -/
def modEntry (i : Nat) (f : Entry → Entry) (s : State) : State :=
  match s.entryAt i with
  | some e => { s with cat.entries := smapSet s.cat.entries i (f e) }
  | none => s

/-- An entry item joins the write-through queue unless one for the index waits there (R26). -/
def queueEntry (i : Nat) (s : State) : State :=
  if s.cat.wt.contains (.entry i) then s else { s with cat.wt := s.cat.wt ++ [.entry i] }

/-- An entry's fields change and the change is written through (R26). -/
def changeEntry (i : Nat) (f : Entry → Entry) (s : State) : State := queueEntry i (modEntry i f s)

/-- As `changeEntry`, setting the inventory mark (R21). -/
def changeEntryMarked (i : Nat) (f : Entry → Entry) (s : State) : State := setMark (changeEntry i f s)

/-- A job takes a reference on an entry (R15). -/
def addRef (i : Nat) (s : State) : State := modEntry i (fun e => { e with jobRefs := e.jobRefs + 1 }) s

/-- A job's reference on an entry is released (R15). -/
def dropRef (i : Nat) (s : State) : State := modEntry i (fun e => { e with jobRefs := e.jobRefs - 1 }) s

def Entry.playable (e : Entry) : Bool := e.state == .held || e.state == .incomplete

/-! ## Job records (JT) -/

def State.jobAt (s : State) (j : Nat) : Option Job := smapGet s.jt.jobs j

def putJob (j : Nat) (job : Job) (s : State) : State := { s with jt.jobs := smapSet s.jt.jobs j job }

def modJob (j : Nat) (f : Job → Job) (s : State) : State :=
  match s.jobAt j with
  | some job => putJob j (f job) s
  | none => s

/-- Live job records (R91). -/
def State.liveJobs (s : State) : Nat := s.jt.jobs.length

/-- JT has a free job record (R51, R116): 8 records. -/
def State.jobFree (s : State) : Bool := s.liveJobs < 8

def JobBody.kind : JobBody → JobKind
  | .capture _ => .capture
  | .play _ => .play
  | .replicate _ => .replicate
  | .receive _ => .receive
  | .serve _ => .serve
  | .repair _ => .repair

def Job.kind (job : Job) : JobKind := job.body.kind

def State.findJob (s : State) (p : Job → Bool) : Option (Nat × Job) := s.jt.jobs.find? (fun q => p q.2)

def State.countJobs (s : State) (p : Job → Bool) : Nat := s.jt.jobs.countP (fun q => p q.2)

def State.findKind (s : State) (k : JobKind) : Option (Nat × Job) := s.findJob (fun job => job.kind == k)

def State.countKind (s : State) (k : JobKind) : Nat := s.countJobs (fun job => job.kind == k)

def Job.pledged (job : Job) : Bool :=
  match job.body with
  | .receive r => !r.receiving
  | _ => false

/-- The job holds the tag as its job tag or as its exchange tag (R140, R189): the exchange tag of an answering job is its
opener's job tag (R74). -/
def Job.holdsTag (job : Job) (t : Nat) : Bool := job.tag == t || job.exTag == some t

/-- The next tag in rotation that no live job holds, from `t` on (R189). -/
def nextFreeTag (s : State) : (fuel t : Nat) → Nat
  | 0, t => t
  | fuel + 1, t => if s.jt.jobs.any (fun p => p.2.holdsTag t) then nextFreeTag s fuel ((t + 1) % 256) else t

/-- Draw a tag from the rotation. -/
def drawTag (s : State) : Nat × State :=
  let t := nextFreeTag s 256 s.jt.nextTag
  (t, { s with jt.nextTag := (t + 1) % 256 })

/-- Whether the operation the store carries is one of job `j` whose outcome is wanted (R38, R133). -/
def State.issuedBy (s : State) (j : Nat) : Bool :=
  match s.med.issued with
  | some { who := .job k _, wanted := w, .. } => k == j && w
  | _ => false

/-- The job's requests waiting or issued at the media arbiter (R133, R152). -/
def State.outstanding (s : State) (j : Nat) (job : Job) : Nat := job.reqs.length + if s.issuedBy j then 1 else 0

/-! ## Free values (log 9) -/

/-- The contents of a block after a faulted write; each use takes the next free value. -/
def takeFaultBlock (s : State) : List Byte × State :=
  (fitBytes 512 (Config.blockAfterFault s.freeIx), { s with freeIx := s.freeIx + 1 })

end Sys2Proof.Machine
end

