-- ==== Sys2Proof/Machine/Flags.lean ====
section
/-! DEFINITION. Values that follow from the state: interrupt line, media port state, media work pending, catalogue
full, repair condition, fill fraction. -/

namespace Sys2Proof.Machine

/-- The interrupt line: asserted while the event queue holds a record (R185). -/
def State.irq (s : State) : Bool := !s.cpe.events.isEmpty

/-- The media port state follows ACT (R45). -/
def State.portState (s : State) : MediaPort :=
  match s.act.state with
  | .active => if s.med.issued.isSome then .busy else .idle
  | .doze => .lowPower
  | .sleep => .off
  | .waking => .powering

/-- The sample port is powered (R171): in SLEEP it is off and carries no frames in either direction. -/
def State.samplePowered (s : State) : Bool := s.act.state != .sleep

/-- The catalogue is full: live entries plus reservations equal 2048 (R3). -/
def State.catalogueFull (s : State) : Bool := 2048 ≤ s.cat.entries.length + s.cat.reserved

/-- Chunks a capture may allocate from: free minus pledged (R33). -/
def State.unpledged (s : State) : Nat := s.med.free - s.med.pledged

/-- The owned count (R32): total, minus 1, minus free, minus bad. -/
def State.owned (s : State) : Nat := s.med.total - 1 - s.med.free - s.med.bad

/-- The fill fraction (R47): floor of 256 × (owned + pledged + bad) ÷ (total − 1), clamped to 0..256. -/
def State.fillFraction (s : State) : Nat :=
  min 256 (256 * (s.owned + s.med.pledged + s.med.bad) / (s.med.total - 1))

/-- The CAPTURE job's oldest request not yet issued (R38, R55, R65): none while it waits for an issued write. -/
def CaptureJob.waiting (c : CaptureJob) : Option JobReq :=
  if c.ending = some .abort ∨ c.ending = some .softReset then none
  else if c.closed ≠ [] then some .sound
  else if c.head = .queued then some .head
  else none

/-- A job has a request waiting at the arbiter (R38). -/
def Job.hasRequest (job : Job) : Bool :=
  match job.body with
  | .capture c => c.waiting.isSome
  | _ => !job.reqs.isEmpty

/-- Media work pending (R46): an operation issued or any request waiting in any request list. -/
def State.mediaWork (s : State) : Bool :=
  s.med.issued.isSome || s.med.mapRetry.isSome || !s.med.mapList.isEmpty || s.cat.wtRetry.isSome
    || !s.cat.wt.isEmpty || s.jt.jobs.any (fun p => p.2.hasRequest)

/-- The repair condition (R161): 0 CLEAN, 1 DAMAGED, 2 DAMAGE_REMAINS (codes of R194). -/
inductive RepairCondition where
  | clean
  | damaged
  | damageRemains
  deriving DecidableEq, Repr

def Entry.repairCondition (e : Entry) : RepairCondition :=
  if e.damaged ≠ [] then .damaged
  else if e.damagedCount = 0 ∧ e.overflow = false then .clean
  else .damageRemains

def RepairCondition.code : RepairCondition → Nat
  | .clean => 0
  | .damaged => 1
  | .damageRemains => 2

end Sys2Proof.Machine
end

