-- ==== Sys2Proof/Machine/Activity.lean ====
section
/-! DEFINITION. ACT (Chapter 10): the activity timer, reloads, wakes, and dozing when the work is done. -/

namespace Sys2Proof.Machine

/-- A delay of 0 gives no expiry (R172). -/
def delayExpiry (now delay : Nat) : Option Nat := if delay = 0 then none else some (now + delay)

/-- What a load of the activity timer gives in the present state (R172). -/
def State.loadedTimer (s : State) : ActTimer :=
  match s.act.state with
  | .active => .running (delayExpiry s.now s.sul.cfg.dozeDelay)
  | .doze => .running (delayExpiry s.now s.sul.cfg.sleepDelay)
  | .sleep => .stopped
  | .waking => .stopped

/-- A reload event (R173): the running timer is loaded afresh; the doze-due flag is cleared. -/
def reload (s : State) : State :=
  match s.act.timer with
  | .stopped => s
  | .running _ => { s with act.timer := s.loadedTimer, act.dozeDue := false }

/-- Stopping the timer clears the doze-due flag (R172). -/
def stopTimer (s : State) : State := { s with act.timer := .stopped, act.dozeDue := false }

/-- Entering WAKING with the wake timer `ms` ahead; the activity timer stops (R175). -/
def beginWake (ms : Nat) (s : State) : State :=
  stopTimer { s with act.state := .waking, act.wakeAt := some (s.now + ms) }

/-- A wake event (R175): 20 ms from DOZE, 150 ms from SLEEP. -/
def wake (s : State) : State :=
  match s.act.state with
  | .active => { s with act.dozeDue := false }
  | .doze => beginWake 20 s
  | .sleep => beginWake 150 s
  | .waking => s

/-- The three conditions under which the activity timer runs (R172). -/
def State.idleConditions (s : State) : Bool := s.complete && s.jt.jobs.isEmpty && s.port.owner.isNone

/-- The timer is loaded when the conditions begin to hold and stopped when one ceases to (R172). -/
def followConditions (s : State) : State :=
  if s.idleConditions then
    match s.act.timer with
    | .stopped => { s with act.timer := s.loadedTimer }
    | .running _ => s
  else stopTimer s

/-- Entering DOZE: the timer is loaded with the sleep delay (R172, R174). -/
def enterDoze (s : State) : State :=
  let s := { s with act.state := .doze, act.dozeDue := false }
  { s with act.timer := s.loadedTimer }

/-- With the doze-due flag set, DOZE is entered when no media work is pending (R174). -/
def dozeIfDrained (s : State) : State := if s.act.dozeDue && !s.mediaWork then enterDoze s else s

/-- MED asks for a wake when a request waits while the port is LOW_POWER or OFF (R45, R175). -/
def wakeForWork (s : State) : State :=
  if s.mediaWork && (s.act.state == .doze || s.act.state == .sleep) then wake s else s

end Sys2Proof.Machine
end

