-- ==== Sys2Proof/Machine/HoldOff.lean ====
section
/-! DEFINITION. HOU (Chapter 5): base slots, offsets, the collision extra, counting, freezing and removal of records. -/

namespace Sys2Proof.Machine

/-! ## The slot part (R92, R93) -/

/-- The bid curve (R92): between knots i and i + 1, floor((Ki × (32 − r) + Ki+1 × r) ÷ 32). -/
def bidCurve (knots : List Nat) (f : Nat) : Nat :=
  let i := min (f / 32) 7
  let r := f - 32 * i
  (knots.getD i 0 * (32 - r) + knots.getD (i + 1) 0 * r) / 32

/-- Wake penalty (R93). -/
def wakePenalty : Activity → Nat
  | .active => 0
  | .doze => 16
  | .sleep => 64
  | .waking => 64

/-- The slot part is clamped to 0..1023 (R93, R95). -/
def clampSlots (n : Nat) : Nat := min 1023 n

/-- Base slots of a BID (R93): curve, load and wake, `act` being the activity state before the PLACE's wake (R91). -/
def State.bidBase (s : State) (act : Activity) : Nat :=
  clampSlots (bidCurve s.sul.cfg.knots s.fillFraction + 6 * s.liveJobs + wakePenalty act)

/-- Base slots of a HAVE for entry `e` (R93). -/
def State.haveBase (s : State) (act : Activity) (e : Entry) : Nat :=
  clampSlots (6 * s.liveJobs + wakePenalty act + min (4 * e.damagedCount) 64
    + (if e.role = .copy then 2 else 0) + (if e.state = .incomplete then 32 else 0))

/-! ## The LFSR and the collision extra (R94, R95) -/

/-- One step: the exclusive-or of bits 0, 2, 3 and 5 enters at bit 15 as the register shifts toward bit 0 (R94). -/
def lfsrStep (r : BitVec 16) : BitVec 16 :=
  let feedback := (r.getLsbD 0 ^^ r.getLsbD 2) ^^ (r.getLsbD 3 ^^ r.getLsbD 5)
  (r >>> 1) ||| (if feedback then 0x8000#16 else 0#16)

/-- `n` draws: the sum of their values and the register after them (R94, R95). -/
def lfsrDraws : Nat → BitVec 16 → Nat × BitVec 16
  | 0, r => (0, r)
  | n + 1, r =>
    let r' := lfsrStep r
    let rest := lfsrDraws n r'
    (r'.toNat % 32 + rest.1, rest.2)

/-! ## Offset and phases (R96, R98 to R101) -/

/-- The offset (R96): (own address − last-source − 1) mod 32. -/
def State.holdOffset (s : State) : Nat := (s.own + 63 - s.lif.lastSource) % 32

/-- The offset phase begins, from the last-source as it stands (R96, R98, R100). -/
def HoldRec.beginOffset (off : Nat) (r : HoldRec) : HoldRec := { r with phase := .offset, offset := off, progress := 0 }

/-- Counting begins or resumes at IDLE (R98, R100). -/
def HoldRec.resume (off : Nat) (r : HoldRec) : HoldRec :=
  match r.phase with
  | .slot => if r.slots = 0 then r.beginOffset off else r
  | .offset => r.beginOffset off
  | .released => r

/-- The medium leaves IDLE: the progress in the current slot or offset is lost (R100). -/
def HoldRec.freeze (r : HoldRec) : HoldRec :=
  match r.phase with
  | .released => r
  | _ => { r with progress := 0 }

/-- A released frame that was not started returns to its offset phase (R101). -/
def HoldRec.unrelease (r : HoldRec) : HoldRec :=
  match r.phase with
  | .released => { r with phase := .offset, progress := 0 }
  | _ => r

/-- `bits` bit times of IDLE (R98: 128 complete a slot; R99: 4 complete a sub-slot). A phase that is complete counts
no further. -/
def HoldRec.count (bits : Nat) (r : HoldRec) : HoldRec :=
  match r.phase with
  | .slot =>
    let t := r.progress + bits
    if t / 128 < r.slots then { r with slots := r.slots - t / 128, progress := t % 128 }
    else { r with slots := 0, progress := 0 }
  | .offset => { r with progress := min (4 * r.offset) (r.progress + bits) }
  | .released => r

/-- Bit times of IDLE until the record's phase is complete. -/
def HoldRec.bitsLeft (r : HoldRec) : Nat :=
  match r.phase with
  | .slot => 128 * r.slots - r.progress
  | .offset => 4 * r.offset - r.progress
  | .released => 0

/-- The end of the slot phase (R98). -/
def HoldRec.endSlots (off : Nat) (r : HoldRec) : HoldRec :=
  if r.phase = .slot ∧ r.slots = 0 then r.beginOffset off else r

/-- The end of the offset phase (R99). -/
def HoldRec.release (r : HoldRec) : HoldRec :=
  if r.phase = .offset ∧ 4 * r.offset ≤ r.progress then { r with phase := .released } else r

/-- A collision that leaves the count below 8 (R95): slots remaining become base plus extra, phase SLOT. -/
def HoldRec.collided (extra : Nat) (r : HoldRec) : HoldRec :=
  { r with collisions := r.collisions + 1, slots := clampSlots (r.base + extra), phase := .slot, progress := 0 }

/-- Every record of HOU. -/
def Hou.mapAll (f : HoldRec → HoldRec) (h : Hou) : Hou := { h with answers := h.answers.map f, plain := h.plain.map f }

def onRecords (f : HoldRec → HoldRec) (s : State) : State := { s with hou := s.hou.mapAll f }

/-! ## Time passing on the medium -/

/-- `bits` bit times pass: of the frame being sent, of absent carrier in SETTLING (R72), of HOU's counts in IDLE. -/
def passBits (bits : Nat) (s : State) : State :=
  let s := { s with lif.sentBits := if s.lif.sending.isSome then s.lif.sentBits + bits else s.lif.sentBits,
                    lif.absent := if s.lif.medium = .settling then s.lif.absent + bits else s.lif.absent }
  if s.lif.medium = .idle then onRecords (HoldRec.count bits) s else s

/-- `n` units of 125 ns pass. -/
def passUnits (n : Nat) (s : State) : State :=
  let bits := (s.clock + n) / s.bitUnits - s.clock / s.bitUnits
  passBits bits { s with clock := s.clock + n }

/-- Exactly `bits` bit times pass. -/
def passBitTimes (bits : Nat) (s : State) : State := passUnits (bits * s.bitUnits) s

/-- Time passes to node tick `t`, if it lies ahead (log 2). -/
def passTo (t : Nat) (s : State) : State := passUnits (t * 8000 - s.clock) s

/-! ## Creation and removal (R89, R90, R102 to R105) -/

/-- Counting begins at once if the medium is IDLE (R90, R102). -/
def State.begun (s : State) (r : HoldRec) : HoldRec := if s.lif.medium = .idle then r.resume s.holdOffset else r

/-- A new record (R90, R102). -/
def State.newRecord (s : State) (f : Frame) (owner : Option Nat) (opener base : Nat) (bids : Option BidCount)
    (expiry : Option Nat) (order : Nat) : HoldRec :=
  s.begun { frame := f, owner := owner, opener := opener, base := base, collisions := 0, slots := base,
            offset := s.holdOffset, phase := .slot, progress := 0, order := order, bids := bids, expiry := expiry,
            doomed := false }

def HoldRec.isHave (r : HoldRec) : Bool := r.bids.isNone

/-- Whether the record answers the exchange (opener, tag, take). -/
def HoldRec.answers (r : HoldRec) (opener tag : Nat) (take : TakeNo) : Bool :=
  r.opener == opener && r.frame.tag == tag && r.frame.take == take

/-- HOU's tests when it is given an answer (R90). -/
def State.houTakes (s : State) (isHave : Bool) (opener tag : Nat) (take : TakeNo) : Bool :=
  s.linkStanding && !s.hou.answers.any (fun r => r.isHave == isHave && r.answers opener tag take)
    && !(isHave && 6 ≤ s.hou.answers.countP HoldRec.isHave)

/-- HOU takes an answer frame (R90). -/
def addAnswer (f : Frame) (owner : Option Nat) (opener base : Nat) (bids : Option BidCount) (expiry : Option Nat)
    (s : State) : State :=
  { s with hou.answers := s.hou.answers ++ [s.newRecord f owner opener base bids expiry s.hou.nextOrder],
           hou.nextOrder := s.hou.nextOrder + 1 }

/-- The answer record whose frame is being sent. -/
def State.sendingAnswer (s : State) : Option Nat :=
  match s.lif.sending with
  | some { source := .answer o, .. } => some o
  | _ => none

/-- Answer records are removed unsent; one whose frame is being sent goes when the frame ends (R101, R103 to R105). -/
def removeAnswers (p : HoldRec → Bool) (s : State) : State :=
  let sent := s.sendingAnswer
  { s with hou.answers := (s.hou.answers.filter fun r => !p r || sent == some r.order).map
             fun r => if p r then { r with doomed := true } else r }

end Sys2Proof.Machine
end

