-- ==== Sys2Proof/Machine/Link.lean ====
section
/-! DEFINITION. LIF (Chapter 4): the transmit queue with the plain record that follows its front, and starting frames. -/

namespace Sys2Proof.Machine

/-- LIF takes a plain frame: the node may send and the queue holds fewer than 16 (R78, R87). -/
def State.txTakes (s : State) : Bool := s.linkStanding && s.lif.queue.length < 16

/-- The plain record of the present front, made anew (R102). -/
def refreshPlain (s : State) : State :=
  { s with hou.plain := s.lif.queue.head?.map fun t => s.newRecord t.frame none t.frame.src 0 none none 0 }

/-- A frame is appended at the back (R78); the first frame of an empty queue gets its record (R102). -/
def txPush (t : TxFrame) (s : State) : State :=
  let s' := { s with lif.queue := s.lif.queue ++ [t] }
  if s.lif.queue.isEmpty then refreshPlain s' else s'

/-- The front is removed; the new front gets its record (R78, R102). -/
def txPop (s : State) : State := refreshPlain { s with lif.queue := s.lif.queue.tail }

def Payload.staysUnowned : Payload → Bool
  | .abandon _ => true
  | .notice _ => true
  | _ => false

/-- What becomes of a queued frame when job `j` ends (R78): ABANDON and NOTICE stay with no owner, its other frames go. -/
def TxFrame.afterEnd (j : Nat) (t : TxFrame) : Option TxFrame :=
  if t.owner = some j then (if t.frame.payload.staysUnowned then some { t with owner := none } else none) else some t

/-- Whether the front frame goes when job `j` ends. -/
def State.frontGoes (s : State) (j : Nat) : Bool :=
  match s.lif.queue.head? with
  | some t => (t.afterEnd j).isNone
  | none => false

/-- A frame whose place in the queue is gone is sent to its end and reported to no one (R84). -/
def orphanFront (s : State) : State :=
  match s.lif.sending with
  | some { frame := f, source := .front } => { s with lif.sending := some { frame := f, source := .orphan } }
  | _ => s

/-- Job `j` ends: its frames leave the queue (R78). DESIGN CHOICE (log 75): where the front goes while it is on the medium, the
plain record is that of the new front at once (R78, R89, R102), where R101 removes the old one at the frame's end. -/
def txRemoveJob (j : Nat) (s : State) : State :=
  let s' := { s with lif.queue := s.lif.queue.filterMap (TxFrame.afterEnd j) }
  if s.frontGoes j then refreshPlain (orphanFront s') else s'

/-- The queue is emptied (R86, R88), and the plain record goes at once, also while its frame is on the medium (log 75). -/
def txEmpty (s : State) : State := refreshPlain (orphanFront { s with lif.queue := [] })

/-- A parting frame: appended if there is room, otherwise dropped (R78). -/
def giveParting (f : Frame) (s : State) : State := if s.txTakes then txPush { frame := f, owner := none } s else s

/-- Frames offered in order until the queue refuses one: the ones that stay with the producer, and the state. -/
def offerFrames (owner : Option Nat) : List Frame → State → List Frame × State
  | [], s => ([], s)
  | f :: rest, s =>
    if s.txTakes then offerFrames owner rest (txPush { frame := f, owner := owner } s) else (f :: rest, s)

/-- Job `j` offers the frames it holds (R78, R107, R126). In LINK_MUTE they stay with the job: a PLAY job in LOCAL that holds
one goes on (log 37). -/
def flushOutbox (j : Nat) (s : State) : State :=
  match s.jobAt j with
  | some job =>
    let r := offerFrames (some j) job.outbox s
    modJob j (fun job => { job with outbox := r.1 }) r.2
  | none => s

/-- Job `j` gives a frame (R78): behind the frames it already holds, which are offered again before it (log 38). -/
def giveFrame (j : Nat) (f : Frame) (s : State) : State :=
  flushOutbox j (modJob j (fun job => { job with outbox := job.outbox ++ [f] }) s)

/-- The frame starts (R79, R80): the medium is BUSY with it and every count freezes (R100). -/
def startFrame (f : Frame) (source : SendSource) (s : State) : State :=
  onRecords HoldRec.freeze
    { s with lif.sending := some { frame := f, source := source }, lif.sentBits := 0, lif.medium := .busy,
             lif.absent := 0, lif.rxOpen := false, lif.gap := false, lif.burst := s.lif.burst + 1 }

/-- The first released answer in creation order (R79, R80). -/
def State.releasedAnswer (s : State) : Option HoldRec := s.hou.answers.find? (fun r => r.phase == .released && !r.doomed)

/-- LIF starts one of its released frames: answers first, then the front of the queue (R79). -/
def startReleased (s : State) : State :=
  match s.releasedAnswer with
  | some r => startFrame r.frame (.answer r.order) s
  | none =>
    match s.hou.plain, s.lif.queue.head? with
    | some p, some t => if p.phase = .released then startFrame t.frame .front s else s
    | _, _ => s

/-- Released frames that were not taken return to their offset phase (R101). -/
def unreleaseAll (s : State) : State := onRecords HoldRec.unrelease s

/-- The burst ends (R80). -/
def endBurst (s : State) : State := unreleaseAll { s with lif.burst := 0, lif.gap := false, lif.endBurst := false }

/-- At the end of the short gap: the next frame, or the end of the burst (R80). -/
def continueBurst (s : State) : State :=
  if s.lif.burst < s.sul.cfg.burstLimit then
    match s.releasedAnswer with
    | some r => startFrame r.frame (.answer r.order) s
    | none =>
      match s.lif.queue.head? with
      | some t => startFrame t.frame .front s
      | none => endBurst s
  else endBurst s

/-- The medium after the own transmitter has stopped (R72, R80, R81). -/
def stopSending (s : State) : State :=
  { s with lif.sending := none, lif.sentBits := 0, lif.absent := 0,
           lif.medium := if s.lif.carrier then .busy else .settling }

/-- CAT moves pending notices into the queue while it has room, oldest first; in LINK_MUTE or before start-up has
completed it discards them (R17). -/
def flushNotices (s : State) : State :=
  if s.linkStanding then
    let r := offerFrames none s.cat.notices s
    { r.2 with cat.notices := r.1 }
  else { s with cat.notices := [] }

/-- A withdrawal's NOTICE joins the list; a full list drops its oldest (R17). -/
def addNotice (f : Frame) (s : State) : State :=
  flushNotices { s with cat.notices := (if 8 ≤ s.cat.notices.length then s.cat.notices.tail else s.cat.notices) ++ [f] }

end Sys2Proof.Machine
end

