-- ==== Sys2Proof/Machine/Chunks.lean ====
section
/-! DEFINITION. MED's chunk map (Chapter 2): chains, allocation, pledges, freeing, translation, BAD chunks. -/

namespace Sys2Proof.Machine

/-- The map entry of chunk `c` (R31): an unlisted chunk is FREE, END, 0. -/
def chunkIn (m : SMap Chunk) (c : Nat) : Chunk := (smapGet m c).getD freeChunk

def State.chunkAt (s : State) (c : Nat) : Chunk := chunkIn s.med.chunks c

/-- The map with entry `c` set, in canonical form: no FREE, END, 0 entry is listed. -/
def chunkMapSet (m : SMap Chunk) (c : Nat) (ch : Chunk) : SMap Chunk :=
  if ch = freeChunk then smapDel m c else smapSet m c ch

/-- A map item joins the map-write list unless it is there (R44): map block c div 80. -/
def queueMap (c : Nat) (s : State) : State :=
  if s.med.mapList.contains (c / 80) then s else { s with med.mapList := s.med.mapList ++ [c / 80] }

/-- A change to a map entry that queues its map item (R44). -/
def setChunk (c : Nat) (ch : Chunk) (s : State) : State :=
  queueMap c { s with med.chunks := chunkMapSet s.med.chunks c ch }

/-- A change of a blocks-used count, which queues no map item (R44 names allocation, freeing and BAD). -/
def setUsed (c n : Nat) (s : State) : State :=
  { s with med.chunks := chunkMapSet s.med.chunks c { s.chunkAt c with used := n } }

/-- The chain from a chunk on, following next chunks to END (R31). -/
def chainFrom (m : SMap Chunk) : (fuel : Nat) → Option Nat → List Nat
  | 0, _ => []
  | _, none => []
  | fuel + 1, some c => c :: chainFrom m fuel (chunkIn m c).next

/-- The chain of an entry (R31). -/
def State.chain (s : State) (e : Entry) : List Nat := chainFrom s.med.chunks s.med.total (some e.firstChunk)

/-- Total blocks used over a chain (R36). -/
def State.blocksUsed (s : State) (chain : List Nat) : Nat := (chain.map (fun c => (s.chunkAt c).used)).sum

/-- R36: the chunk and offset of sequence `seq` along a chain. -/
def locateIn (m : SMap Chunk) : List Nat → (seq : Nat) → Option (Nat × Nat)
  | [], _ => none
  | c :: rest, seq =>
    if seq < (chunkIn m c).used then some (c, seq) else locateIn m rest (seq - (chunkIn m c).used)

def State.locate (s : State) (e : Entry) (seq : Nat) : Option (Nat × Nat) := locateIn s.med.chunks (s.chain e) seq

/-- The chunks listed under an owner other than FREE. -/
def takenChunks (m : SMap Chunk) : SMap Chunk := m.filter fun p => p.2.owner != .free

/-- The lowest-numbered FREE chunk (R33), chunk 0 apart, which is the reserved chunk (R30). -/
def State.lowestFree (s : State) : Option Nat :=
  let c := smapLeastFree (takenChunks s.med.chunks) 1
  if c < s.med.total then some c else none

/-- Chunk `c` is given to entry `i` (R33): owner, END, blocks used `used`; the free count falls by one (R32). -/
def takeChunk (c i used : Nat) (s : State) : State :=
  setChunk c { owner := .entry i, next := none, used := used } { s with med.free := s.med.free - 1 }

/-- The chunk is appended to the chain of entry `i` (R33): the last chunk's next is set; the chunk count rises unless
the entry is CAPTURING. -/
def appendChunk (i c : Nat) (s : State) : State :=
  match s.entryAt i with
  | some e =>
    let s1 := takeChunk c i 0 s
    let s2 := match (s.chain e).getLast? with
      | some l => setChunk l { s1.chunkAt l with next := some c } s1
      | none => s1
    if e.state = .capturing then s2 else modEntry i (fun e => { e with chunkCount := e.chunkCount + 1 }) s2
  | none => s

/-- MED takes a pledge (R34). -/
def takePledge (n : Nat) (s : State) : State := { s with med.pledged := s.med.pledged + n }

/-- A pledge's remainder is released (R34). -/
def releasePledge (n : Nat) (s : State) : State := { s with med.pledged := s.med.pledged - n }

/-- Chunks a take of `blocks` stored blocks needs (R34): the ceiling of blocks ÷ 4096. -/
def chunksNeeded (blocks : Nat) : Nat := (blocks + 4095) / 4096

/-- One chunk of a freed chain (R35): owned by the entry's index, it becomes FREE; BAD, it stays BAD, unlinked. -/
def freeOne (i : Nat) (s : State) (c : Nat) : State :=
  let ch := s.chunkAt c
  if ch.owner = .entry i then setChunk c freeChunk { s with med.free := s.med.free + 1 }
  else if ch.owner = .bad ∧ ch ≠ lostChunk then setChunk c lostChunk s
  else s

/-- A list of chunks of entry `i` is freed (R35, R68). -/
def freeChunks (i : Nat) (l : List Nat) (s : State) : State := l.foldl (freeOne i) s

/-- The chunk belongs to an entry, so that a write fault in it turns it BAD (R43). -/
def State.ownedChunk (s : State) (c : Nat) : Bool :=
  match (s.chunkAt c).owner with
  | .entry _ => true
  | _ => false

/-- A write to a block of a chunk has faulted (R43): owned by an entry, it turns BAD, the bad count rises, a map item is queued.
A chunk freed since the write was issued is marked BAD all the same (R40): it leaves the free chunks, unlinked, and the pledges
stand, so that the pledged count may exceed the free count by one (R32 does not foresee it; log 45). -/
def markBad (c : Nat) (s : State) : State :=
  let ch := s.chunkAt c
  match ch.owner with
  | .entry _ => setChunk c { ch with owner := .bad } { s with med.bad := s.med.bad + 1 }
  | .free => setChunk c lostChunk { s with med.bad := s.med.bad + 1, med.free := s.med.free - 1 }
  | .reserved | .bad => s

end Sys2Proof.Machine
end

