-- ==== Sys2Proof/Machine/Catalogue.lean ====
section
/-! DEFINITION. CAT (Chapters 1 and 9): gap, damage and holder lists, creating and freeing entries, placement standing. -/

namespace Sys2Proof.Machine

/-! ## Gap list (R12) -/

/-- R12: the list with a gap recorded, merged with the neighbours it touches or overlaps; none where 16 gaps are
listed and it merges with none. -/
def insertGap (g : Gap) (l : List Gap) : Option (List Gap) :=
  let before := l.filter fun x => x.start + x.length < g.start
  let after := l.filter fun x => g.start + g.length < x.start
  let touching := l.filter fun x => g.start ≤ x.start + x.length && x.start ≤ g.start + g.length
  if touching.isEmpty then
    if 16 ≤ l.length then none else some (before ++ [g] ++ after)
  else
    let first := touching.foldl (fun a x => min a x.start) g.start
    let last := touching.foldl (fun a x => max a (x.start + x.length)) (g.start + g.length)
    some (before ++ [{ start := first, length := last - first }] ++ after)

/-! ## Damage (R13, R160) -/

/-- `n` in ascending order in a list that does not hold it. -/
def insertSorted (n : Nat) : List Nat → List Nat
  | [] => [n]
  | a :: t => if n < a then n :: a :: t else a :: insertSorted n t

/-- The damage fields after sequence `seq` is found damaged and not listed (R160). -/
def Entry.withDamage (seq : Nat) (e : Entry) : Entry :=
  if e.damaged.length < 8 then
    { e with damaged := insertSorted seq e.damaged, damagedCount := satAdd 255 e.damagedCount 1 }
  else { e with overflow := true, damagedCount := satAdd 255 e.damagedCount 1 }

/-- CAT is told that block `seq` of entry `i` is damaged (R160). -/
def recordDamage (i seq : Nat) (finder : Option JobKind) (s : State) : State :=
  match s.entryAt i with
  | some e =>
    if e.damaged.contains seq then s
    else
      let e' := e.withDamage seq
      raise (.damageFound e.take seq e'.damagedCount e'.overflow finder) (changeEntryMarked i (fun _ => e') s)
  | none => s

/-- A listed sequence leaves the damaged list and the count falls by 1 (R163, R164, R167). DESIGN CHOICE (log 66): a loaded
count below the list's length stops at 0, and a sequence listed twice leaves at both places. -/
def Entry.cleared (seq : Nat) (e : Entry) : Entry :=
  { e with damaged := e.damaged.filter (· ≠ seq), damagedCount := e.damagedCount - 1 }

def clearDamage (i seq : Nat) (s : State) : State := changeEntryMarked i (Entry.cleared seq) s

/-! ## Placement standing (R22, R24, R25) -/

/-- The entry joins the back of the placement queue (R22, R24, R25). -/
def joinQueue (i notBefore : Nat) (s : State) : State := { s with cat.queue := s.cat.queue ++ [(i, notBefore)] }

def setPlacement (i : Nat) (p : PlacementStatus) (s : State) : State := changeEntry i (fun e => { e with placement := p }) s

/-- COPIES_SHORT for an entry as it stands (R24, R25). -/
def raiseShort (i : Nat) (s : State) : State :=
  match s.entryAt i with
  | some e => raise (.copiesShort e.take e.holders.length e.copiesWanted e.attempts) s
  | none => s

/-- A SATISFIED entry whose holder list has fallen short is queued again (R25). -/
def requeueIfShort (i : Nat) (s : State) : State :=
  match s.entryAt i with
  | some e =>
    if e.placement = .satisfied ∧ e.holders.length < e.copiesWanted then
      raiseShort i (joinQueue i s.now (setPlacement i .queued s))
    else s
  | none => s

/-- A REPLICATE job has ended (R24): SATISFIED, or QUEUED with one more attempt, 60,000 ms ahead, and COPIES_SHORT. -/
def settlePlacement (i : Nat) (s : State) : State :=
  match s.entryAt i with
  | some e =>
    if e.copiesWanted ≤ e.holders.length then setPlacement i .satisfied s
    else
      raiseShort i (joinQueue i (s.now + 60000)
        (changeEntry i (fun e => { e with placement := .queued, attempts := satAdd 255 e.attempts 1 }) s))
  | none => s

/-- SOFT_RESET ends a REPLICATE job (R25): QUEUED 60,000 ms ahead, attempts unchanged, no event. -/
def requeueAfterReset (i : Nat) (s : State) : State := joinQueue i (s.now + 60000) (setPlacement i .queued s)

/-! ## Holder list (R14, R170) -/

def addAddress (a : Nat) (l : List Nat) : List Nat := if l.contains a || 4 ≤ l.length then l else l ++ [a]

def removeAddress (a : Nat) (l : List Nat) : List Nat := l.filter (· ≠ a)

/-- Adding the own address at HELD (R14): a list of 4 others loses its last-learned one first. -/
def addOwnAddress (own : Nat) (l : List Nat) : List Nat :=
  if l.contains own then l else (if 4 ≤ l.length then l.dropLast else l) ++ [own]

/-- An operation on an entry's holder list; a change sets the mark and is written through (R14). -/
def changeHolders (i : Nat) (f : List Nat → List Nat) (s : State) : State :=
  match s.entryAt i with
  | some e => if f e.holders = e.holders then s else changeEntryMarked i (fun e => { e with holders := f e.holders }) s
  | none => s

def addHolder (i a : Nat) (s : State) : State := changeHolders i (addAddress a) s

/-- A removal that leaves a SATISFIED entry short re-queues it (R14, R25, R170). -/
def removeHolder (i a : Nat) (s : State) : State :=
  match s.entryAt i with
  | some e => if e.holders.contains a then requeueIfShort i (changeHolders i (removeAddress a) s) else s
  | none => s

/-- R170: the source of a HAVE, a DONE or a NOTICE HOLDS is added to the list of a take held here. -/
def learnHolder (t : TakeNo) (a : Nat) (s : State) : State :=
  match s.findTake t with
  | some (i, _) => addHolder i a s
  | none => s

def forgetHolder (t : TakeNo) (a : Nat) (s : State) : State :=
  match s.findTake t with
  | some (i, _) => removeHolder i a s
  | none => s

/-- The entry becomes INCOMPLETE with end cause RESET (R10). DESIGN CHOICE (log 62): R10 calls its holder list empty, R170 lets
an entry in any state learn holders and leaves the lists as they were: what the list has learned stays. -/
def Entry.cutShort (e : Entry) : Entry := { e with state := .incomplete, endCause := some .reset }

/-! ## Creation and freeing (R4, R11) -/

/-- The lowest-numbered empty index (R4). -/
def State.lowestIndex (s : State) : Nat := smapLeastFree s.cat.entries 0

/-- An item waiting for the index is fixed to write the record as empty (R26). -/
def WtItem.fixed (i : Nat) (w : WtItem) : WtItem := if w = .entry i then .emptied i else w

/-- CAT creates an entry at an empty index (R4): the mark is set; a new entry item stands at the back of the
write-through queue, behind `before` (the counter item of a START, R6). A faulted item of the index that waits to be issued
again is fixed as a waiting one is (log 34). -/
def createEntry (i : Nat) (e : Entry) (before : List WtItem) (s : State) : State :=
  setMark { s with cat.entries := smapSet s.cat.entries i e,
                   cat.wt := s.cat.wt.map (WtItem.fixed i) ++ before ++ [.entry i],
                   cat.wtRetry := s.cat.wtRetry.map fun r => (r.1.fixed i, r.2) }

/-- Items of the index leave the write-through queue (R11). DESIGN CHOICE (log 56): an item that a creation has fixed to write
the record as empty (R26) stays. -/
def dropItems (i : Nat) (l : List WtItem) : List WtItem :=
  l.filter fun w => match w with
    | .entry k => k ≠ i
    | .head k _ => k ≠ i
    | _ => true

/-- Freeing an entry (R11), with the pending HAVEs (R105) and answer notes (R148) of its take. -/
def freeEntry (i : Nat) (s : State) : State :=
  match s.entryAt i with
  | some e =>
    let s := freeChunks i (s.chain e) s
    let s := { s with cat.queue := s.cat.queue.filter (fun q => q.1 ≠ i), cat.wt := dropItems i s.cat.wt,
                      cat.entries := smapDel s.cat.entries i }
    let s := setMark (queueEntry i s)
    let s := removeAnswers (fun r => r.isHave && r.frame.take == e.take) s
    { s with notes := s.notes.filter (fun n => n.take ≠ e.take) }
  | none => s

/-- The head block of an entry, from its fields and a label (R19, R65, R164, R193). DESIGN CHOICE (log 52): an entry whose end
cause is absent, loaded so from its record, is given NORMAL, since R193 has no code for absent in a head block. -/
def Entry.headInfo (e : Entry) (label : Option (List Byte)) : HeadInfo :=
  { take := e.take, format := e.format, endCause := e.endCause.getD .normal, timelineLength := e.timelineLength,
    storedFrames := e.storedFrames, storedBlocks := e.storedBlocks, check := e.check, clips := e.clips,
    copiesWanted := e.copiesWanted, label := label, gaps := e.gaps }

end Sys2Proof.Machine
end

