-- ==== Sys2Proof/Machine/Jobs.lean ====
section
/-! DEFINITION. JT: creating a job, its frames, and ending it: what every end does and what each kind adds (Chapters 3 to 9). -/

namespace Sys2Proof.Machine

/-! ## Creation (R15, R172, R175, R189) -/

/-- The lowest-numbered free job record (log 7). -/
def State.freeRecord (s : State) : Nat := smapLeastFree s.jt.jobs 0

/-- A job record before its chapter fills it. -/
def freshJob (tag opener : Nat) (exTag : Option Nat) (take : Option TakeNo) (body : JobBody) : Job :=
  { tag := tag, opener := opener, exTag := exTag, take := take, entry := none, body := body, reqs := [], outbox := [],
    snd := none, rcv := none }

/-- JT creates a job with the next job tag: the activity timer stops, and the creation is a wake event (R172, R175).
`make` gives the record from the tag. -/
def createJob (make : Nat → Job) (s : State) : State :=
  let d := drawTag s
  wake (stopTimer (putJob d.2.freeRecord (make d.1) d.2))

/-- The tag the next job takes. -/
def State.nextJobTag (s : State) : Nat := (drawTag s).1

/-- The job takes a reference on an entry (R15). -/
def holdEntry (j i : Nat) (s : State) : State := addRef i (modJob j (fun job => { job with entry := some i }) s)

/-- The job no longer holds its reference. -/
def releaseEntry (j : Nat) (s : State) : State :=
  match s.jobAt j with
  | some { entry := some i, .. } => dropRef i (modJob j (fun job => { job with entry := none }) s)
  | _ => s

/-! ## The kinds of record -/

def Job.captureOf (job : Job) : Option CaptureJob :=
  match job.body with
  | .capture c => some c
  | _ => none

def Job.playOf (job : Job) : Option PlayJob :=
  match job.body with
  | .play p => some p
  | _ => none

def Job.replicateOf (job : Job) : Option ReplicateJob :=
  match job.body with
  | .replicate r => some r
  | _ => none

def Job.receiveOf (job : Job) : Option ReceiveJob :=
  match job.body with
  | .receive r => some r
  | _ => none

def Job.repairOf (job : Job) : Option RepairJob :=
  match job.body with
  | .repair r => some r
  | _ => none

def modCapture (j : Nat) (f : CaptureJob → CaptureJob) (s : State) : State :=
  modJob j (fun job => { job with body := match job.body with
                                          | .capture c => .capture (f c)
                                          | b => b }) s

def modPlay (j : Nat) (f : PlayJob → PlayJob) (s : State) : State :=
  modJob j (fun job => { job with body := match job.body with
                                          | .play p => .play (f p)
                                          | b => b }) s

def modReplicate (j : Nat) (f : ReplicateJob → ReplicateJob) (s : State) : State :=
  modJob j (fun job => { job with body := match job.body with
                                          | .replicate r => .replicate (f r)
                                          | b => b }) s

def modReceive (j : Nat) (f : ReceiveJob → ReceiveJob) (s : State) : State :=
  modJob j (fun job => { job with body := match job.body with
                                          | .receive r => .receive (f r)
                                          | b => b }) s

def modRepair (j : Nat) (f : RepairJob → RepairJob) (s : State) : State :=
  modJob j (fun job => { job with body := match job.body with
                                          | .repair r => .repair (f r)
                                          | b => b }) s

/-- The live CAPTURE job, with its record number (R50: at most one). -/
def State.captureJob (s : State) : Option (Nat × Job × CaptureJob) :=
  match s.findKind .capture with
  | some (j, job) => job.captureOf.map fun c => (j, job, c)
  | none => none

/-! ## Frames of a job (R74) -/

/-- A frame of the job's exchange. -/
def State.jobFrame (s : State) (job : Job) (dst : Nat) (dir : Direction) (p : Payload) : Frame :=
  { src := s.own, dst := dst, dir := dir, tag := job.exTag.getD job.tag,
    take := job.take.getD { node := 0, seq := 0 }, payload := p }

/-- Whether a frame is a DATA or a STEP. -/
def Payload.isData : Payload → Bool
  | .data .. => true
  | _ => false

def Payload.isStep : Payload → Bool
  | .step .. => true
  | _ => false

/-- The granted holder that a PLAY or REPAIR job tells of its end. A PLAY job tells it once the GRANT is SENT, while the transfer
with it lives (R157, R158). A REPAIR job tells it on CANCEL once the GRANT is SENT, and at SOFT_RESET from the HAVE that fixes it
on (R165, R168). DEDUCED (log 71): R168 names no end of this, so a REPAIR job whose transfer has ended tells it too. -/
def Job.grantedHolder (reason : AbandonReason) (job : Job) : Option Nat :=
  match job.body with
  | .play p =>
    match p.state with
    | .awaitingData | .playing => if p.grantSent then p.holder else none
    | _ => none
  | .repair r => if reason = .reset ∨ r.grantSent = true then r.holder else none
  | _ => none

/-- The parting ABANDON of a job that CANCEL or SOFT_RESET ends (R114, R120, R138, R150, R157, R158, R168). -/
def State.parting (s : State) (job : Job) (reason : AbandonReason) : Option Frame :=
  match job.body with
  | .capture _ => none
  | .replicate _ => some (s.jobFrame job 63 .out (.abandon reason))
  | .receive _ => some (s.jobFrame job job.opener .back (.abandon reason))
  | .serve _ => some (s.jobFrame job job.opener .back (.abandon reason))
  | .play _ | .repair _ => (job.grantedHolder reason).map fun h => s.jobFrame job h .out (.abandon reason)

/-! ## The end of a job -/

/-- The job's issued operation runs on, but its outcome is discarded (R40). -/
def unwant (j : Nat) (s : State) : State :=
  match s.med.issued with
  | some op =>
    match op.who with
    | .job k _ => if k = j then { s with med.issued := some { op with wanted := false } } else s
    | _ => s
  | none => s

/-- What a RECEIVE job gives back: its reservation while PLEDGED (R3) and its pledge remainder (R34). -/
def releaseSpace (job : Job) (s : State) : State :=
  match job.body with
  | .receive r =>
    let s := releasePledge r.pledge s
    if r.receiving then s else { s with cat.reserved := s.cat.reserved - 1 }
  | _ => s

/-- A job takes the sample port: its data line is set as an input (R48) or as an output (R141), and nothing is driven yet. -/
def takePort (j : Nat) (line : LineDirection) (s : State) : State :=
  { s with port := { owner := some j, line := line, lineHigh := [], lineLow := [] } }

/-- The port of a job that ends is unowned (R48), and its data line is released with it (R153). DESIGN CHOICE (log 55): R153 says so
of a PLAY job; the line of a CAPTURE job is released too. The period in progress is completed: its bits stand. -/
def freePort (j : Nat) (s : State) : State :=
  { s with
    port.owner := if s.port.owner = some j then none else s.port.owner
    port.line := if s.port.owner = some j then .released else s.port.line }

/-- What every end of a job does: its frames, answer record, requests, reference, pledge and port go, and the record is
released (R15, R34, R40, R48, R78, R105). -/
def closeJob (j : Nat) (s : State) : State :=
  match s.jobAt j with
  | some job =>
    let s := removeAnswers (fun r => r.owner == some j) (txRemoveJob j s)
    let s := releaseSpace job (unwant j s)
    let s := match job.entry with
      | some i => dropRef i s
      | none => s
    freePort j { s with jt.jobs := smapDel s.jt.jobs j }
  | none => s

/-- The source JOB_DONE and STATUS give for a PLAY job (R159, R194): FFH for none. -/
def State.playSource (s : State) (p : PlayJob) : Nat :=
  match p.state with
  | .localStore => s.own
  | _ => p.holder.getD 0xFF

/-- The CONFIRMED members of a REPLICATE job. -/
def Job.confirmed (job : Job) : List Member :=
  match job.snd with
  | some t => t.members.filter (fun m => m.status == .confirmed)
  | none => []

/-- The items A, B and C of the job's JOB_DONE (R194), as the job stands. -/
def State.doneItems (s : State) (job : Job) : Nat × Nat × Nat :=
  match job.body with
  | .capture _ =>
    match job.entry.bind s.entryAt with
    | some e => ((e.endCause.map EndCause.code).getD 0, 0, 0)
    | none => (0, 0, 0)
  | .replicate _ =>
    (job.confirmed.length, job.confirmed.foldl (fun a m => min a m.bidFree) 0xFFFFFFFF, 0)
  | .play p => (s.playSource p, p.underruns, 0)
  | .repair r =>
    (r.holder.getD 0xFF, r.cleared, ((job.entry.bind s.entryAt).map (fun e => e.damaged.length)).getD 0)
  | .receive _ | .serve _ => (0, 0, 0)

/-- R168: an end other than OK, or one that leaves sequence 0 or a sequence of the repair range listed, holds the entry
back for 60,000 ms. -/
def holdRepair (i : Nat) (r : RepairJob) (result : Result) (s : State) : State :=
  match s.entryAt i with
  | some e =>
    if result ≠ .ok ∨ e.damaged.any (fun q => q == 0 || (r.first ≤ q && q < r.first + r.count)) = true then
      modEntry i (fun e => { e with repairHold := some (s.now + 60000) }) s
    else s
  | none => s

/-- What the end of a job means for its entry (R9, R24, R168). -/
def settleEntry (job : Job) (result : Result) (s : State) : State :=
  match job.entry with
  | none => s
  | some i =>
    match job.body with
    | .receive _ => if result = .ok then s else freeEntry i s
    | .replicate _ => settlePlacement i s
    | .repair r => holdRepair i r result s
    | .capture _ | .play _ | .serve _ => s

/-- A job ends with an outcome: its record is released, its parting frame is given, its entry is settled, and JOB_DONE is
raised (R78, R113, R120, R136, R159, R168). DEDUCED (log 77): CAT's COPIES_SHORT comes before the JOB_DONE, as R113 names them. -/
def endJob (j : Nat) (result : Result) (parting : Option Frame) (s : State) : State :=
  match s.jobAt j with
  | some job =>
    let items := s.doneItems job
    let s := closeJob j s
    let s := match parting with
      | some f => giveParting f s
      | none => s
    raise (.doneJob job.tag job.kind result job.take items.1 items.2.1 items.2.2) (settleEntry job result s)
  | none => s

/-- SOFT_RESET ends a job (R9, R25, R190): no event, no attempt counted, no repair hold. -/
def endJobSoftly (j : Nat) (s : State) : State :=
  match s.jobAt j with
  | some job =>
    let s := closeJob j s
    match job.entry, job.body with
    | some i, .receive _ => freeEntry i s
    | some i, .replicate _ => requeueAfterReset i s
    | _, _ => s
  | none => s

/-- Jobs end as SOFT_RESET ends them (R190). DESIGN CHOICE (log 58): in record order. -/
def endJobsSoftly : List (Nat × Job) → State → State
  | [], s => s
  | (j, _) :: rest, s => endJobsSoftly rest (endJobSoftly j s)

/-- Parting frames are given, in record order (R78, R88). -/
def givePartings (partings : List Frame) (s : State) : State := partings.foldl (fun s f => giveParting f s) s

/-- The parting ABANDON RESET of each live job that gives one (R190). -/
def State.resetPartings (s : State) : List Frame := s.jt.jobs.filterMap fun p => s.parting p.2 .reset

/-- Every repair hold is forgotten (R168). -/
def forgetHolds (s : State) : State :=
  { s with cat.entries := s.cat.entries.map fun p => (p.1, { p.2 with repairHold := none }) }

/-- DEDUCED (log 43): no job outlives a SOFT_RESET (R3, R15, R162, R190). A job that a PLACE, a GRANT or a node tick created
while it waited for a capture ends as the others did when it was taken, and HOU and the notes lose what joined them. -/
def endLateJobs (s : State) : State :=
  let partings := s.resetPartings
  givePartings partings (removeAnswers (fun _ => true) (endJobsSoftly s.jt.jobs { s with notes := [] }))

/-- The outcome an ABANDON's reason names, RESET giving CANCELLED (R138, R139). -/
def AbandonReason.result : AbandonReason → Result
  | .stalled => .stalled
  | .checkFailed => .checkFailed
  | .mediaFull => .mediaFull
  | .mediaFault => .mediaFault
  | .cancelled => .cancelled
  | .reset => .cancelled

/-! ## LINK_MUTE (R86) -/

/-- The job is a link job: every kind but CAPTURE, and PLAY outside LOCAL (R86, R140). -/
def Job.isLink (job : Job) : Bool :=
  match job.body with
  | .capture _ => false
  | .play p => p.state != .localStore
  | _ => true

/-- Every link job ends LINK_CONGESTED without a frame (R86). DESIGN CHOICE (log 58): in record order. -/
def endLinkJobs : List (Nat × Job) → State → State
  | [], s => s
  | (j, job) :: rest, s => endLinkJobs rest (if job.isLink then endJob j .linkCongested none s else s)

/-- Entry to LINK_MUTE (R86, R148). DESIGN CHOICE (log 58): the LINK_MUTE event comes after the jobs' records. -/
def enterMute (cause : MuteCause) (s : State) : State :=
  let s := { s with lif.mute := some cause, cat.notices := [], notes := [] }
  let s := removeAnswers (fun _ => true) (txEmpty s)
  let s := if s.lif.sending.isSome then { s with lif.endBurst := true } else endBurst s
  raise (.linkMute cause) (endLinkJobs s.jt.jobs s)

end Sys2Proof.Machine
end

