-- ==== Sys2Proof/Machine/Capture.lean ====
section
/-! DEFINITION. CAP (Chapter 3): packing frames, the ring, discard runs, cuts, gaps, boundaries, sealing, abort. -/

namespace Sys2Proof.Machine

/-! ## Samples (R49, R55) -/

def Width.bits (w : Width) : Nat := 8 * w.bytes

/-- The sample a half period carries (R49): its first bits up to the width, the missing low bits zero. -/
def sampleOf (w : Width) (bits : List Bool) : Nat :=
  (bits.take w.bits ++ List.replicate (w.bits - bits.length) false).foldl (fun a b => 2 * a + b.toNat) 0

/-- Full scale (R49): 32,767 or -32,768 at width 16, 8,388,607 or -8,388,608 at width 24. -/
def fullScale (w : Width) (v : Nat) : Bool := v == 2 ^ (w.bits - 1) - 1 || v == 2 ^ (w.bits - 1)

/-- The samples of one frame, channel 1 first; the low half is ignored for a 1-channel take (R49). -/
def frameSamples (f : Format) (high low : List Bool) : List Nat :=
  match f.channels with
  | .mono => [sampleOf f.width high]
  | .stereo => [sampleOf f.width high, sampleOf f.width low]

/-- The bytes of one frame (R55). -/
def frameBytesOf (f : Format) (samples : List Nat) : List Byte := samples.flatMap (beBytes f.width.bytes ·)

def frameClips (f : Format) (samples : List Nat) : Nat := samples.countP (fullScale f.width ·)

/-! ## Blocks being filled (R52, R55, R58) -/

def emptyBlock (start : Nat) : SoundBlock := { start := start, frames := 0, clips := 0, bytes := [] }

def SoundBlock.add (f : Format) (samples : List Nat) (b : SoundBlock) : SoundBlock :=
  { b with frames := b.frames + 1, clips := b.clips + frameClips f samples, bytes := b.bytes ++ frameBytesOf f samples }

/-- The newest `p` whole blocks of a ring (R52). -/
def trimRing (p : Nat) (l : List SoundBlock) : List SoundBlock := l.drop (l.length - p)

/-- A frame arrives in ARMED (R52). -/
def CaptureJob.ringFrame (samples : List Nat) (c : CaptureJob) : CaptureJob :=
  let b := (c.filling.getD (emptyBlock 0)).add c.format samples
  if b.frames = c.format.perBlock then { c with ring := trimRing c.preRoll (c.ring ++ [b]), filling := none }
  else { c with filling := some b }

/-- A frame arrives in RUNNING (R55, R58): appended, starting a block in a free slot, or discarded. -/
def CaptureJob.takeFrame (samples : List Nat) (c : CaptureJob) : CaptureJob :=
  let c' := { c with offset := c.offset + 1 }
  match c.filling, decide (c.closed.length < 96) with
  | none, false =>
    { c' with discard := match c.discard with
                         | none => some (c.offset, 1)
                         | some (start, n) => some (start, n + 1) }
  | filling, _ =>
    let b := (filling.getD (emptyBlock c.offset)).add c.format samples
    if b.frames = c.format.perBlock then { c' with closed := c.closed ++ [b], filling := none }
    else { c' with filling := some b }

/-! ## Cuts (R59) and STOP (R64) -/

/-- The lower of two cuts stands (R59). -/
def lowerCut (new : Nat × EndCause) : Option (Nat × EndCause) → Nat × EndCause
  | none => new
  | some old => if new.1 < old.1 then new else old

/-- A cut at offset `at_` (R59). STOP keeps the block being filled. -/
def CaptureJob.cutAt (at_ : Nat) (cause : EndCause) (keepFilling : Bool) (c : CaptureJob) : CaptureJob :=
  { c with state := .draining, filling := if keepFilling then c.filling else none,
           closed := c.closed.filter (fun b => b.start < at_), discard := none,
           gaps := c.gaps.filter (fun g => g.start < at_), cut := some (lowerCut (at_, cause) c.cut) }

/-- STOP in RUNNING (R64): cut with NORMAL; a block being filled that holds a frame is closed as a padded block. -/
def CaptureJob.stopped (c : CaptureJob) : CaptureJob :=
  let at_ := match c.discard with
    | some (start, _) => start
    | none => c.offset
  let c := c.cutAt at_ .normal true
  { c with closed := match c.filling with
                     | some b => if b.frames = 0 then c.closed else c.closed ++ [b]
                     | none => c.closed,
           filling := none }

/-- The drain is complete: the head block is queued (R65). -/
def CaptureJob.drained (c : CaptureJob) : CaptureJob :=
  if c.state = .draining ∧ c.closed = [] ∧ c.head = .none ∧ c.ending = none then { c with head := .queued } else c

/-! ## Gaps (R60, R61) -/

/-- CAP records a gap (R60, R61): CAPTURE_GAP when the list takes it, otherwise a cut with OVERRUN where it starts. -/
def recordGap (j : Nat) (g : Gap) (cause : GapCause) (s : State) : State :=
  match s.jobAt j with
  | some job =>
    match job.captureOf, job.take with
    | some c, some take =>
      match insertGap g c.gaps with
      | some l => raise (.captureGap take g.start g.length cause) (modCapture j (fun c => { c with gaps := l }) s)
      | none => modCapture j (CaptureJob.cutAt g.start .overrun false) s
    | _, _ => s
  | none => s

/-- A slot frees while a discard run is open (R60). -/
def closeRun (j : Nat) (s : State) : State :=
  match (s.jobAt j).bind Job.captureOf with
  | some c =>
    match c.discard with
    | some (start, n) =>
      recordGap j { start := start, length := n } .discard (modCapture j (fun c => { c with discard := none }) s)
    | none => s
  | none => s

/-! ## Chunk boundaries (R27, R57) -/

/-- The values CAP hands over at a boundary (R27): `chunks` of the chain up to and including the chunk. -/
def CaptureJob.boundary (c : CaptureJob) (chunks : Nat) (e : Entry) : Entry :=
  { e with timelineLength := c.lastEnd, storedFrames := c.storedFrames, storedBlocks := c.soundBlocks + 1,
           check := c.check, gaps := c.gaps.filter (fun g => g.start + g.length ≤ c.lastEnd), clips := c.clips,
           chunkCount := chunks }

/-- CAP hands CAT the values of a boundary; `chunks` counts the chunks of the chain they cover. -/
def takeBoundaryOf (j : Nat) (chunks : List Nat → Nat) (s : State) : State :=
  match s.jobAt j with
  | some job =>
    match job.captureOf, job.entry with
    | some c, some i =>
      match s.entryAt i with
      | some e => changeEntry i (c.boundary (chunks (s.chain e))) s
      | none => s
    | _, _ => s
  | none => s

/-- The boundary at a sound block's completion in `chunk`. -/
def takeBoundary (j chunk : Nat) (s : State) : State := takeBoundaryOf j (fun chain => chain.idxOf chunk + 1) s

/-- The boundary of a head-block write that turned its chunk BAD (R57). Every chunk of the chain is written by then, and the
values cover them all: the chunk count is the chain's length (log 46). -/
def headBoundary (j : Nat) (turned : Bool) (s : State) : State := if turned then takeBoundaryOf j List.length s else s

/-! ## Sound block completions (R56, R57) -/

/-- The running values after the oldest closed block is written OK (R56). -/
def CaptureJob.written (c : CaptureJob) : CaptureJob :=
  match c.closed with
  | b :: rest =>
    { c with closed := rest, storedFrames := c.storedFrames + b.frames, soundBlocks := c.soundBlocks + 1,
             check := crc32On c.check b.bytes, clips := satAdd 65535 c.clips b.clips, lastEnd := b.start + b.frames }
  | [] => c

/-- After a slot has freed: an open run is closed (R60), and the drain may be complete (R65). -/
def afterSlot (j : Nat) (s : State) : State := modCapture j CaptureJob.drained (closeRun j s)

/-- R56's completion OK of the oldest closed block, written at `offset` of `chunk` (R57). -/
def takeWritten (j chunk offset : Nat) (s : State) : State :=
  let s := modCapture j CaptureJob.written s
  if offset = 4095 then takeBoundary j chunk s else s

/-- R56's completion WRITE_FAULT of the oldest closed block: the boundary (R57), and its frames become a gap (R61). -/
def takeFaulted (j chunk : Nat) (s : State) : State :=
  match (s.jobAt j).bind Job.captureOf with
  | some c =>
    match c.closed with
    | b :: rest =>
      recordGap j { start := b.start, length := b.frames } .writeFault
        (takeBoundary j chunk (modCapture j (fun c => { c with closed := rest }) s))
    | [] => s
  | none => s

/-- The write of a sound block has completed while the capture runs or drains (R56 to R58, R60, R61). -/
def soundDone (j : Nat) (ok : Bool) (chunk offset : Nat) (s : State) : State :=
  afterSlot j (if ok then takeWritten j chunk offset s else takeFaulted j chunk s)

/-- MEDIA_FULL for the oldest closed block (R62). -/
def soundFull (j : Nat) (s : State) : State :=
  match (s.jobAt j).bind Job.captureOf with
  | some c =>
    match c.closed with
    | b :: _ => modCapture j (fun c => (c.cutAt b.start .mediaFull false).drained) s
    | [] => s
  | none => s

/-! ## Sealing (R8, R65, R66) -/

/-- The head block of the take CAP is about to seal (R65), with the entry's label as CAT holds it now. -/
def CaptureJob.headInfo (c : CaptureJob) (take : TakeNo) (copies : Nat) (label : Option (List Byte)) : HeadInfo :=
  { take := take, format := c.format, endCause := (c.cut.map (·.2)).getD .normal,
    timelineLength := (c.cut.map (·.1)).getD c.offset, storedFrames := c.storedFrames, storedBlocks := c.soundBlocks + 1,
    check := c.check, clips := c.clips, copiesWanted := copies, label := label, gaps := c.gaps }

/-- The entry at sealing (R8). -/
def CaptureJob.sealed (c : CaptureJob) (own copies chunks : Nat) (cause : EndCause) (e : Entry) : Entry :=
  { e with state := .held, timelineLength := (c.cut.map (·.1)).getD c.offset, storedFrames := c.storedFrames,
           storedBlocks := c.soundBlocks + 1, check := c.check, gaps := c.gaps, clips := c.clips, endCause := some cause,
           chunkCount := chunks, holders := addOwnAddress own e.holders, copiesWanted := copies,
           placement := if 1 < copies then .queued else .notNeeded, attempts := 0 }

/-- Sealing (R8, R22, R65, R66): `lost` when the third attempt at the head block faulted. DESIGN CHOICE (log 77): CAT's DAMAGE_FOUND
for sequence 0 comes before the capture's JOB_DONE, where R184 lets the records of different blocks come in either order. -/
def sealTake (j : Nat) (lost : Bool) (s : State) : State :=
  match s.jobAt j with
  | some job =>
    match job.captureOf, job.entry with
    | some c, some i =>
      match s.entryAt i with
      | some e =>
        let copies := s.sul.cfg.copiesWanted
        let cause := if lost then .mediaFault else (c.cut.map (·.2)).getD .normal
        let s := changeEntryMarked i (c.sealed s.own copies (s.chain e).length cause) s
        let s := if 1 < copies then joinQueue i s.now s else s
        endJob j .ok none (if lost then recordDamage i 0 none s else s)
      | none => s
    | _, _ => s
  | none => s

/-- The head-block write of a drain completed OK (R65, R66): once more if the label changed meanwhile. -/
def headWritten (j : Nat) (s : State) : State :=
  match (s.jobAt j).bind Job.captureOf with
  | some c =>
    if c.headAgain then modCapture j (fun c => { c with head := .queued, headAgain := false, headFaults := 0 }) s
    else sealTake j false s
  | none => s

/-- The head-block write of a drain completed WRITE_FAULT (R66): up to three attempts. -/
def headFaulted (j : Nat) (s : State) : State :=
  match (s.jobAt j).bind Job.captureOf with
  | some c =>
    if 2 ≤ c.headFaults then sealTake j true s
    else modCapture j (fun c => { c with head := .queued, headAgain := false, headFaults := c.headFaults + 1 }) s
  | none => s

/-! ## Abort (R67) and SOFT_RESET (R68) -/

/-- A command the port is BUSY with is answered OK when its capture has ended (R180, R183). -/
def answerEnding (s : State) : State :=
  match s.cpe.current with
  | some .abort => respond .ok 6 0 [] s
  | some (.cancel tag) => respond .ok 8 tag [] s
  | _ => s

/-- The capture's entry is freed and its job ends CANCELLED (R67). -/
def finishAbort (j : Nat) (s : State) : State :=
  let s := match (s.jobAt j).bind (·.entry) with
    | some i => freeEntry i s
    | none => s
  answerEnding (endJob j .cancelled none s)

/-- CAP stops and empties what it holds (R67, R68); the block of an issued write stays until it completes. -/
def CaptureJob.emptied (issued : Bool) (ending : CaptureEnding) (c : CaptureJob) : CaptureJob :=
  { c with state := .draining, ring := [], filling := none, discard := none, cut := none, headAgain := false,
           closed := if issued && c.head != .issued then c.closed.take 1 else [],
           head := if c.head = .issued then .issued else .none, ending := some ending }

/-- ABORT in RUNNING or DRAINING (R67): at once, or when the issued write has completed. -/
def abortCapture (j : Nat) (s : State) : State :=
  let issued := s.issuedBy j
  let s := modCapture j (CaptureJob.emptied issued .abort) s
  if issued then s else finishAbort j s

/-- The chain of an entry cut back to its chunk count (R68): the chunks beyond are freed, and the last kept chunk holds
the blocks the boundary counts in it. -/
def trimChain (i : Nat) (s : State) : State :=
  match s.entryAt i with
  | some e =>
    let chain := s.chain e
    let kept := chain.take e.chunkCount
    let s := freeChunks i (chain.drop e.chunkCount) s
    match kept.getLast? with
    | some l =>
      let new := { s.chunkAt l with next := none, used := e.storedBlocks - s.blocksUsed kept.dropLast }
      if new = s.chunkAt l then s else setChunk l new s
    | none => s
  | none => s

/-- SOFT_RESET: no write of the capture is issued any more (R68). The entry becomes INCOMPLETE with the values of its last chunk
boundary, whatever a gap taken after it has done to the running values, and its head block is queued. -/
def softIncomplete (j : Nat) (s : State) : State :=
  match (s.jobAt j).bind (·.entry) with
  | some i =>
    modCapture j (fun c => { c with closed := [], head := .queued, headFaults := 0, ending := some .softHead })
      (trimChain i (changeEntryMarked i Entry.cutShort s))
  | none => s

/-- SOFT_RESET is complete once no capture holds it up (R168, R190): repair holds are forgotten, events and counters are
emptied, and OK is answered. -/
def finishSoftReset (s : State) : State :=
  respond .ok 16 0 []
    { forgetHolds s with cpe.events := [], cpe.seen := [0, 0, 0, 0, 0, 0, 0, 0], cpe.lost := 0, cpe.refused := 0 }

/-- The INCOMPLETE entry's head block has been written, or has faulted three times (R66, R68, R190): the capture ends, and with
it every job created since SOFT_RESET was taken (log 43). -/
def softHeadDone (j : Nat) (lost : Bool) (s : State) : State :=
  let s := match (s.jobAt j).bind (·.entry), lost with
    | some i, true => recordDamage i 0 none s
    | _, _ => s
  finishSoftReset (endLateJobs (endJobSoftly j s))

/-- The end of a write of the CAPTURE job (R56, R57, R65 to R68): `ok`, at `offset` of `chunk`; `turned` says that its fault has
turned the chunk BAD. SOFT_RESET takes the completion it waited for as R56 states, a fault's gap and CAPTURE_GAP included. -/
def captureWritten (j : Nat) (req : JobReq) (ok turned : Bool) (chunk offset : Nat) (s : State) : State :=
  match (s.jobAt j).bind Job.captureOf with
  | some c =>
    match c.ending with
    | some .abort => finishAbort j s
    | some .softReset =>
      softIncomplete j
        (match req, ok with
         | .sound, true => takeWritten j chunk offset s
         | .sound, false => takeFaulted j chunk s
         | _, _ => headBoundary j turned s)
    | some .softHead =>
      if ok then softHeadDone j false s
      else if 2 ≤ c.headFaults then softHeadDone j true s
      else modCapture j (fun c => { c with head := .queued, headFaults := c.headFaults + 1 }) s
    | none =>
      match req, ok with
      | .sound, _ => soundDone j ok chunk offset s
      | _, true => headWritten j s
      | _, false => headFaulted j (headBoundary j turned s)
  | none => s

/-- SOFT_RESET reaches a capture in RUNNING or DRAINING (R68). -/
def softResetCapture (j : Nat) (s : State) : State :=
  let issued := s.issuedBy j
  let s := modCapture j (CaptureJob.emptied issued .softReset) s
  if issued then s else softIncomplete j s

end Sys2Proof.Machine
end

