-- ==== Sys2Proof/Machine/Transfer.lean ====
section
/-! DEFINITION. Block transfer (Chapter 7): runs, the sender's window, go-backs and drops, the receiver's STEPs. -/

namespace Sys2Proof.Machine

/-! ## Runs and positions (R123) -/

/-- The run count. -/
def Run.total (r : Run) : Nat := r.count + if r.head then 1 else 0

/-- The sequence of a position; the position one past the last gives the sequence one above the last. -/
def Run.seqAt (r : Run) (p : Nat) : Nat :=
  if r.head then (if p = 0 then 0 else r.first + (p - 1)) else r.first + p

/-- The position of a sequence, the one past the last included. -/
def Run.posOf (r : Run) (seq : Nat) : Option Nat :=
  if r.head then
    if seq = 0 then some 0
    else if r.first ≤ seq ∧ seq ≤ r.first + r.count then some (seq - r.first + 1) else none
  else if r.first ≤ seq ∧ seq ≤ r.first + r.count then some (seq - r.first) else none

/-- The run of a placement: every block of the take (R123). -/
def placementRun (storedBlocks : Nat) : Run := { head := false, first := 0, count := storedBlocks }

/-- What a retrieval receiver knows before it has accepted the head block: position 0 alone (R123). -/
def headRun : Run := { head := true, first := 1, count := 0 }

/-! ## The sender (R124 to R129) -/

def newMember (now address bidFree : Nat) (status : MemberStatus) : Member :=
  { address := address, status := status, expected := 0, credit := 8,
    progress := if status = .sending then some (now + 50) else none, goBacks := 0, bidFree := bidFree }

def newSender (run : Run) (members : List Member) : Sender :=
  { run := run, next := 0, members := members, doneGiven := false }

/-- The member has receipted the run (R124). -/
def Sender.receipted (t : Sender) (m : Member) : Bool := m.expected == t.run.total

/-- The members the window waits for (R125). -/
def Sender.waitedFor (t : Sender) : List Member := t.members.filter fun m => m.status == .sending && !t.receipted m

/-- The first position the window does not allow (R125): the lowest E + C of the members waited for, inside the run. -/
def Sender.limit (t : Sender) : Nat :=
  match t.waitedFor with
  | [] => t.next
  | ms => ms.foldl (fun a m => min a (m.expected + m.credit)) t.run.total

/-- The positions that are committed now. -/
def Sender.committable (t : Sender) : List Nat := List.range' t.next (t.limit - t.next)

/-- Commits every block the window allows and requests its read (R125). DESIGN CHOICE (log 76): the commit test alone decides,
also where reads requested again by a go-back still wait for positions below E (R127, R128), so that the request list can hold more
than the 8 reads R125 speaks of. -/
def commit (job : Job) : Job :=
  match job.snd with
  | some t =>
    { job with snd := some { t with next := max t.next t.limit },
               reqs := job.reqs ++ t.committable.map (fun p => .read (t.run.seqAt p)) }
  | none => job

def Sender.modMember (address : Nat) (f : Member → Member) (t : Sender) : Sender :=
  { t with members := t.members.map fun m => if m.address = address then f m else m }

def Sender.member (t : Sender) (address : Nat) : Option Member := t.members.find? (fun m => m.address == address)

/-- Progress of a member (R127): its timer restarts, or stops when it has receipted the run. -/
def Sender.progressed (now : Nat) (t : Sender) (m : Member) : Member :=
  { m with progress := if t.receipted m then none else some (now + 50), goBacks := 0 }

/-- What a STEP from a member in SENDING does to the transfer (R127). -/
def Sender.takeStep (now address seq credit : Nat) (t : Sender) : Sender :=
  match t.member address, t.run.posOf seq with
  | some m, some p =>
    if m.status ≠ .sending ∨ p < m.expected then t
    else if m.expected < p ∨ t.next ≤ m.expected then
      t.modMember address fun m => t.progressed now { m with expected := p, credit := credit }
    else t.modMember address fun m => { m with credit := credit }
  | _, _ => t

/-- DATA goes to the whole copy group, or back to the requester (R122). -/
def Job.dataTo (job : Job) : Nat × Direction :=
  match job.body with
  | .serve _ => (job.opener, .back)
  | _ => (63, .out)

/-- A read of the transfer has given a block: its DATA frame goes to the list of built frames (R125, R126). -/
def giveData (j seq : Nat) (damaged : Bool) (block : List Byte) (s : State) : State :=
  match s.jobAt j with
  | some job => giveFrame j (s.jobFrame job job.dataTo.1 job.dataTo.2 (.data seq damaged block)) s
  | none => s

/-- The check value of the entry the job sends. -/
def State.jobCheck (s : State) (job : Job) : Check :=
  match job.entry.bind s.entryAt with
  | some e => e.check
  | none => crcEmpty

/-- Every member still SENDING has receipted the run: the DONE is given (R111, R112, R136). -/
def giveDone (j : Nat) (s : State) : State :=
  match s.jobAt j with
  | some job =>
    match job.snd with
    | some t =>
      let done := s.jobFrame job job.dataTo.1 job.dataTo.2 (.done t.run.total (s.jobCheck job))
      giveFrame j done (modJob j (fun job =>
        { job with snd := some { t with doneGiven := true },
                   body := match job.body with
                     | .replicate r => .replicate { r with state := .closing }
                     | b => b }) s)
    | none => s
  | none => s

/-- The sender goes on (R111, R125, R127, R129): with every member LEFT the job ends STALLED, with every one receipted the
DONE is given, and otherwise the window's blocks are committed. `parting`: the ABANDON of a SERVE job's end. -/
def advanceSender (j : Nat) (parting : Option Frame) (s : State) : State :=
  match s.jobAt j with
  | some job =>
    match job.snd with
    | some t =>
      if t.members.all (fun m => m.status == .left) then endJob j .stalled parting s
      else if t.doneGiven then s
      else if t.waitedFor.isEmpty then giveDone j s
      else modJob j commit s
    | none => s
  | none => s

/-- Going back for a member (R128). -/
def goBack (j address : Nat) (s : State) : State :=
  modJob j (fun job =>
    match job.snd with
    | some t =>
      let back := match t.member address with
        | some m => min t.next m.expected
        | none => t.next
      let t := { t with next := back }
      let t := t.modMember address fun m => { m with goBacks := m.goBacks + 1, progress := some (s.now + 50) }
      commit { job with snd := some t, reqs := [], outbox := job.outbox.filter (fun f => !f.payload.isData) }
    | none => job) (unwant j s)

def modSnd (j : Nat) (f : Sender → Sender) (s : State) : State :=
  modJob j (fun job => { job with snd := job.snd.map f }) s

def Member.asLeft (m : Member) : Member := { m with status := .left, progress := none }

/-- A member leaves the transfer (R106, R111, R129). -/
def leaveMember (j address : Nat) (s : State) : State := modSnd j (Sender.modMember address Member.asLeft) s

/-- Dropping a member (R129): ABANDON STALLED to it alone; a SERVE job's is its parting frame. A REPLICATE job's is offered
before the job goes on, also when it drops its last member and ends (log 41). -/
def dropMember (j address : Nat) (s : State) : State :=
  match s.jobAt j with
  | some job =>
    let f := s.jobFrame job address job.dataTo.2 (.abandon .stalled)
    match job.body with
    | .serve _ => advanceSender j (some f) (leaveMember j address s)
    | _ => advanceSender j none (giveFrame j f (leaveMember j address s))
  | none => s

/-- A STEP reaches the sender (R127). -/
def senderStep (j address seq credit : Nat) (s : State) : State :=
  advanceSender j none
    (modSnd j (Sender.takeStep s.now address seq credit) s)

/-! ## The receiver (R130 to R135) -/

def newReceiver (now : Nat) (run : Option Run) (inactivity : Bool) : Receiver :=
  { run := run, expected := 0, accepted := 0, gapReported := false, stepTimer := some (now + 20),
    inactivity := if inactivity then some (now + 500) else none, check := crcEmpty, damaged := [] }

/-- The run as the receiver knows it. -/
def Receiver.knownRun (r : Receiver) : Run := r.run.getD headRun

/-- Blocks are owed (R130). -/
def Receiver.owed (r : Receiver) : Bool := r.run.isNone || r.expected < r.knownRun.total

def modRcv (j : Nat) (f : Receiver → Receiver) (s : State) : State :=
  modJob j (fun job => { job with rcv := job.rcv.map f }) s

/-- The room of a receiver (R133): 8 minus its writes waiting or issued, or the free slots of the stream buffer. -/
def State.room (s : State) (j : Nat) (job : Job) : Nat :=
  match job.body with
  | .play p => 96 - p.slots.length
  | _ => 8 - s.outstanding j job

/-- The credit a receiver reports (R133). An acceptance does not test it (R131; log 30). -/
def State.credit (s : State) (j : Nat) (job : Job) : Nat := min 8 (s.room j job)

/-- Where a receiver's STEPs go (R122). -/
def Job.stepTo (job : Job) : Nat × Direction :=
  match job.body with
  | .play p => (p.holder.getD 0, .out)
  | .repair r => (r.holder.getD 0, .out)
  | _ => (job.opener, .back)

/-- A STEP still waiting outside the queue is given up (R134). -/
def dropWaitingStep (j : Nat) (s : State) : State :=
  modJob j (fun job => { job with outbox := job.outbox.filter (fun f => !f.payload.isStep) }) s

/-- Giving a STEP (R134): it replaces one still waiting; the count of acceptances and the STEP timer start again. -/
def giveStep (j : Nat) (s : State) : State :=
  match s.jobAt j with
  | some job =>
    match job.rcv with
    | some r =>
      let f := s.jobFrame job job.stepTo.1 job.stepTo.2 (.step (r.knownRun.seqAt r.expected) (s.credit j job))
      let s := modRcv j (fun r =>
        { r with accepted := 0, stepTimer := if r.owed then some (s.now + 20) else none }) s
      giveFrame j f (dropWaitingStep j s)
    | none => s
  | none => s

/-- What a receiver makes of a DATA frame (R131). -/
inductive DataClass where
  | accept
  | outOfOrder
  | duplicate
  deriving DecidableEq, Repr

def Receiver.classify (r : Receiver) (seq : Nat) (damaged : Bool) (block : List Byte) : DataClass :=
  match r.knownRun.posOf seq with
  | some p =>
    if p < r.knownRun.total then
      if p = r.expected then (if blockGood block || damaged then .accept else .outOfOrder)
      else if r.expected < p then .outOfOrder
      else .duplicate
    else .outOfOrder
  | none => .outOfOrder

/-- An acceptance (R131): E and the count rise by one, the gap-reported flag is cleared. -/
def Receiver.accepting (damaged : Bool) (r : Receiver) : Receiver :=
  { r with expected := r.expected + 1, accepted := r.accepted + 1, gapReported := false,
           damaged := if damaged then r.damaged ++ [r.expected] else r.damaged }

/-- The STEP an acceptance causes (R134). -/
def stepAfterAccept (j : Nat) (s : State) : State :=
  match (s.jobAt j).bind (·.rcv) with
  | some r => if r.accepted = 8 ∨ r.owed = false then giveStep j s else s
  | none => s

/-- A discard (R131, R134). -/
def discardData (j : Nat) (outOfOrder : Bool) (s : State) : State :=
  match (s.jobAt j).bind (·.rcv) with
  | some r =>
    if outOfOrder then
      if r.gapReported then s else giveStep j (modRcv j (fun r => { r with gapReported := true }) s)
    else if r.owed then s
    else giveStep j s
  | none => s

end Sys2Proof.Machine
end

