-- ==== Sys2Proof/Machine/Placement.lean ====
section
/-! DEFINITION. REPLICATE and RECEIVE jobs (Chapter 6; 7.4): attempts, bids, the bidder's test, the copy. -/

namespace Sys2Proof.Machine

/-! ## The placement queue at a node tick (R23) -/

/-- A head-block item of entry `i` is queued or being written (R19). -/
def State.headItemAt (s : State) (i : Nat) : Bool :=
  let isHead : WtItem → Bool := fun w => match w with
    | .head k _ => k == i
    | _ => false
  s.cat.wt.any isHead || (match s.med.issued with
    | some { who := .wt w _, .. } => isHead w
    | _ => false)

/-- The REPLICATE job of an attempt: PLACE given, OFFERING (R106, R107). -/
def startAttempt (i : Nat) (e : Entry) (s : State) : State :=
  let s := setPlacement i .inProgress { s with cat.queue := s.cat.queue.tail }
  let wanted := e.copiesWanted - e.holders.length
  let r : ReplicateJob :=
    { state := .offering, wanted := wanted, exclusion := e.holders, bids := [], group := [], left := [], timer := none }
  let j := s.freeRecord
  let s := holdEntry j i (createJob (fun tag => freshJob tag s.own (some tag) (some e.take) (.replicate r)) s)
  match s.jobAt j with
  | some job => giveFrame j (s.jobFrame job 63 .out (.place e.storedBlocks e.format e.copiesWanted wanted e.holders)) s
  | none => s

/-- The attempt for the front item may start (R23): its not-before time has passed, so the tick that falls on it is not yet
due (1.10's worked sequence: not-before 62,300, start at tick 62,301). -/
def State.attemptMayStart (s : State) (i notBefore : Nat) : Bool :=
  notBefore < s.now && s.countKind .replicate == 0 && s.jobFree && !s.headItemAt i && !s.muted

/-- CAT's look at the placement queue at a node tick (R23); the fuel is the queue's length. An attempt may start while a
SOFT_RESET waits for a capture, and its job ends with that reset (log 43). -/
def placementTick : (fuel : Nat) → State → State
  | 0, s => s
  | fuel + 1, s =>
    match s.cat.queue with
    | [] => s
    | (i, notBefore) :: rest =>
      match s.entryAt i with
      | none => s
      | some e =>
        if e.copiesWanted ≤ e.holders.length then
          placementTick fuel (setPlacement i .satisfied { s with cat.queue := rest })
        else if s.attemptMayStart i notBefore then startAttempt i e s
        else s

/-! ## The attempt (R108 to R112) -/

/-- The bid window closes (R109): the bid list is cut to the addresses that form the copy group. -/
def closeWindow (j : Nat) (s : State) : State :=
  match s.jobAt j with
  | some job =>
    match job.replicateOf, job.entry.bind s.entryAt with
    | some r, some e =>
      let still := e.copiesWanted - e.holders.length
      if still = 0 then endJob j .ok none s
      else if r.bids = [] then endJob j .noHolder none s
      else
        let group := r.bids.take still
        giveFrame j (s.jobFrame job 63 .out (.assign (group.map (·.1))))
          (modReplicate j (fun r => { r with state := .assigning, bids := group, group := group, timer := none }) s)
    | _, _ => s
  | none => s

/-- A BID reaches the job in OFFERING (R108). -/
def takeBid (j src freeChunks : Nat) (s : State) : State :=
  match (s.jobAt j).bind Job.replicateOf with
  | some r =>
    if r.state ≠ .offering ∨ r.exclusion.contains src ∨ r.bids.any (fun b => b.1 == src) = true then s
    else
      let s := modReplicate j (fun r => { r with bids := r.bids ++ [(src, freeChunks)] }) s
      if r.wanted ≤ r.bids.length + 1 then closeWindow j s else s
  | none => s

/-- The ASSIGN is reported SENT: the transfer of the members still SENDING begins (R110, R122). -/
def assignSent (j : Nat) (s : State) : State :=
  match s.jobAt j with
  | some job =>
    match job.replicateOf, job.entry.bind s.entryAt with
    | some r, some e =>
      let members := r.group.map fun b =>
        newMember s.now b.1 b.2 (if r.left.contains b.1 then .left else .sending)
      let s := modReplicate j (fun r => { r with state := .sending, group := [], left := [] })
        (modJob j (fun job => { job with snd := some (newSender (placementRun e.storedBlocks) members) }) s)
      advanceSender j none s
    | _, _ => s
  | none => s

/-- No member is AWAITING: the attempt has come to its end (R112). -/
def endIfAnswered (j : Nat) (s : State) : State :=
  match (s.jobAt j).bind (·.snd) with
  | some t => if t.members.any (fun m => m.status == .awaiting) then s else endJob j .ok none s
  | none => s

/-- The DONE is reported SENT (R112). -/
def replicateDoneSent (j : Nat) (s : State) : State :=
  endIfAnswered j
    (modReplicate j (fun r => { r with timer := some (s.now + 250) })
      (modSnd j (fun t => { t with members := t.members.map fun m =>
                              if m.status = .sending then { m with status := .awaiting, progress := none } else m }) s))

/-- An AWAITING member answers (R112). -/
def memberAnswers (j src : Nat) (status : MemberStatus) (s : State) : State :=
  match ((s.jobAt j).bind (·.snd)).bind (fun t => t.member src) with
  | some m =>
    if m.status = .awaiting then
      let s := modSnd j (Sender.modMember src fun m => { m with status := status }) s
      endIfAnswered j
        (if status = .confirmed then
          (match (s.jobAt j).bind (·.entry) with
           | some i => addHolder i src s
           | none => s)
         else s)
    else s
  | none => s

/-- An ABANDON of the exchange from `src` reaches the REPLICATE job (R108, R110, R111, R112, R139). -/
def replicateAbandoned (j src : Nat) (s : State) : State :=
  match s.jobAt j with
  | some job =>
    match job.replicateOf with
    | some r =>
      match r.state with
      | .offering => modReplicate j (fun r => { r with bids := r.bids.filter (fun b => b.1 ≠ src) }) s
      | .assigning =>
        if r.group.any (fun b => b.1 == src) && !r.left.contains src then
          modReplicate j (fun r => { r with left := r.left ++ [src] }) s
        else s
      | .sending | .closing =>
        match job.snd.bind (fun t => t.member src) with
        | some m =>
          if m.status = .sending then advanceSender j none (leaveMember j src s) else memberAnswers j src .failed s
        | none => s
    | none => s
  | none => s

/-! ## The bidder (R116 to R120) -/

/-- The bidder's test (R116). That a SOFT_RESET waits for a capture is no part of it (log 43). -/
def State.bidderPasses (s : State) (take : TakeNo) (storedBlocks : Nat) (exclusion : List Nat) : Bool :=
  s.linkStanding && !exclusion.contains s.own && (s.findTake take).isNone && !s.catalogueFull && s.jobFree
    && s.countKind .receive < 2 && !s.jt.jobs.any (fun p => p.2.kind == .receive && p.2.take == some take)
    && s.med.pledged + chunksNeeded storedBlocks + 8 ≤ s.med.free

/-- The node bids (R117): the job, the reservation, the pledge, the timer and the BID, whose hold-off takes the activity
state from before the PLACE (R91) and the fill fraction with the pledge made (R47, R91, R117; DEDUCED, log 59: the worked sequence
of Chapter 6 has it from before the pledge). A job created while a SOFT_RESET waits for a capture ends with that reset, its reservation
and its pledge with it (R3, R34; log 43). -/
def makeBid (f : Frame) (storedBlocks : Nat) (format : Format) (copies wanted : Nat) (exclusion : List Nat) (s : State) : State :=
  let needed := chunksNeeded storedBlocks
  let act := s.act.state
  let j := s.freeRecord
  let r : ReceiveJob :=
    { receiving := false, storedBlocks := storedBlocks, format := format, copiesWanted := copies, wanted := wanted,
      exclusion := exclusion, pledge := needed, timer := some (s.now + 300), bid := .pending, assigned := [],
      matched := none }
  let s := createJob (fun tag => freshJob tag f.src (some f.tag) (some f.take) (.receive r)) s
  let s := takePledge needed { s with cat.reserved := s.cat.reserved + 1 }
  let bid : Frame := { src := s.own, dst := f.src, dir := .back, tag := f.tag, take := f.take,
                       payload := .bid (s.med.free - s.med.pledged) }
  if s.houTakes false f.src f.tag f.take then
    addAnswer bid (some j) f.src (s.bidBase act) (some { wanted := wanted, exclusion := exclusion, heard := [] }) none s
  else endJob j .linkCongested none s

/-- A RECEIVE job ends and tells the origin why (R138). -/
def failReceive (j : Nat) (result : Result) (reason : AbandonReason) (s : State) : State :=
  match s.jobAt j with
  | some job => endJob j result (some (s.jobFrame job job.opener .back (.abandon reason))) s
  | none => s

/-- The chunk a RECEIVE job's allocation takes (R34): against its pledge, or from the free count minus the pledged count. -/
def State.receiveChunk (s : State) (r : ReceiveJob) : Option Nat :=
  if 0 < r.pledge ∨ 0 < s.unpledged then s.lowestFree else none

/-- The ASSIGN names this node (R119): the RECEIVING entry, its first chunk against the pledge, the job RECEIVING.
DESIGN CHOICE (log 57): also where a live entry has come to hold the take since the PLACE (R7). -/
def acceptAssign (j : Nat) (addresses : List Nat) (s : State) : State :=
  match s.jobAt j with
  | some job =>
    match job.receiveOf, job.take with
    | some r, some take =>
      match s.receiveChunk r with
      | none => failReceive j .mediaFull .mediaFull s
      | some c =>
      let i := s.lowestIndex
      let e : Entry :=
        { take := take, role := .copy, state := .receiving, format := r.format, timelineLength := 0, storedFrames := 0,
          storedBlocks := r.storedBlocks, check := 0, gaps := [], clips := 0, endCause := none, label := none,
          holders := [], copiesWanted := r.copiesWanted, placement := .notNeeded, attempts := 0, damaged := [],
          damagedCount := 0, overflow := false, firstChunk := c, chunkCount := 1, jobRefs := 0, repairHold := none }
      let s := takeChunk c i 0 (createEntry i e [] s)
      let spent := min 1 r.pledge
      let s := { releasePledge spent s with cat.reserved := s.cat.reserved - 1 }
      let s := modReceive j (fun r =>
        { r with receiving := true, pledge := r.pledge - spent, timer := none, assigned := addresses }) s
      holdEntry j i (modJob j (fun job =>
        { job with rcv := some (newReceiver s.now (some (placementRun r.storedBlocks)) true) }) s)
    | _, _ => s
  | none => s

/-- An ASSIGN of the exchange reaches a RECEIVE job (R119). -/
def receiveAssign (j : Nat) (addresses : List Nat) (s : State) : State :=
  match (s.jobAt j).bind Job.receiveOf with
  | some r =>
    if r.receiving then s
    else if addresses.contains s.own then acceptAssign j addresses s
    else endJob j .cancelled none s
  | none => s

/-! ## Receiving a copy (R132, R137) -/

/-- The description a RECEIVING entry takes from its head block (R4, R132). -/
def Entry.described (h : HeadInfo) (e : Entry) : Entry :=
  { e with timelineLength := h.timelineLength, storedFrames := h.storedFrames, gaps := h.gaps, clips := h.clips,
           endCause := some h.endCause, label := h.label }

/-- An accepted block is queued as an append write (R132, R134). -/
def receiveAppend (j : Nat) (block : List Byte) (f : Receiver → Receiver) (s : State) : State :=
  stepAfterAccept j (modRcv j (fun r => (f r).accepting false)
    (modJob j (fun job => { job with reqs := job.reqs ++ [.append block] }) s))

/-- An accepted block of a RECEIVE job (R132). -/
def receiveAccept (j seq : Nat) (damaged : Bool) (block : List Byte) (s : State) : State :=
  match s.jobAt j with
  | some job =>
    match job.receiveOf, job.entry with
    | some r, some i =>
      if damaged then failReceive j .checkFailed .checkFailed s
      else if seq = 0 then
        match headOfPayload (blockPayload block) with
        | some h =>
          if some h.take = job.take ∧ h.storedBlocks = r.storedBlocks then
            receiveAppend j block id (changeEntry i (Entry.described h) s)
          else failReceive j .checkFailed .checkFailed s
        | none => failReceive j .checkFailed .checkFailed s
      else receiveAppend j block (fun v => { v with check := crc32On v.check (filledBytes r.format block) }) s
    | _, _ => s
  | none => s

/-- The holder list of a received copy (R137). -/
def copyHolders (own : Nat) (exclusion assigned : List Nat) : List Nat :=
  let l := exclusion.foldl (fun l a => addAddress a l) []
  addOwnAddress own ((assigned.filter (· ≠ own)).foldl (fun l a => addAddress a l) l)

/-- A matched copy whose writes have all completed becomes HELD and the job ends OK (R9, R137). -/
def finishReceive (j : Nat) (s : State) : State :=
  match s.jobAt j with
  | some job =>
    match job.receiveOf, job.entry with
    | some r, some i =>
      match r.matched with
      | some check =>
        if s.outstanding j job = 0 then
          let s := changeEntryMarked i (fun e =>
            { e with state := .held, check := check, storedBlocks := (placementRun r.storedBlocks).total,
                     holders := copyHolders s.own r.exclusion r.assigned }) s
          endJob j .ok (some (s.jobFrame job 63 .out (.notice .holds))) s
        else s
      | none => s
    | _, _ => s
  | none => s

/-- A DONE of the exchange reaches a RECEIVE job in RECEIVING (R135, R137). One that comes after a match, while the job waits
for its writes, is not tested again (log 40). -/
def receiveDone (j total : Nat) (check : Check) (s : State) : State :=
  match s.jobAt j with
  | some job =>
    match job.receiveOf, job.rcv with
    | some r, some v =>
      if r.matched.isSome then s
      else if v.owed ∨ total ≠ v.knownRun.total ∨ check ≠ v.check then failReceive j .checkFailed .checkFailed s
      else
        finishReceive j (modReceive j (fun r => { r with matched := some check })
          (modRcv j (fun v => { v with inactivity := none }) s))
    | _, _ => s
  | none => s

end Sys2Proof.Machine
end

