-- ==== Sys2Proof/Machine/Retrieval.lean ====
section
/-! DEFINITION. PLAY and SERVE jobs (Chapter 8): mapping a stretch, choosing a source, seeking, output, ending. -/

namespace Sys2Proof.Machine

/-! ## From timeline to blocks (R143) -/

/-- Gap frames below a timeline offset (R143). -/
def gapFramesBelow (gaps : List Gap) (t : Nat) : Nat := (gaps.map fun g => min g.length (t - g.start)).sum

/-- The count of stored frames before a timeline offset (R143). -/
def storedBefore (gaps : List Gap) (t : Nat) : Nat := t - gapFramesBelow gaps t

/-- The end offset u of a stretch (R143). -/
def stretchEnd (length start frames : Nat) : Nat :=
  if frames = 0 ∨ length < start + frames then length else start + frames

/-- The sound blocks first .. last of a stretch, as (first, count) (R143): count 0 where it lies wholly in gaps. -/
def stretchBlocks (f : Format) (gaps : List Gap) (start stop : Nat) : Nat × Nat :=
  let kf := storedBefore gaps start
  let ke := storedBefore gaps stop
  if kf < ke then
    let first := kf / f.perBlock + 1
    (first, (ke - 1) / f.perBlock + 1 + 1 - first)
  else (1, 0)

/-- The offset lies in a gap. -/
def inGap (gaps : List Gap) (t : Nat) : Bool := gaps.any fun g => g.start ≤ t && t < g.start + g.length

def Entry.shape (e : Entry) : TakeShape :=
  { format := e.format, timelineLength := e.timelineLength, storedFrames := e.storedFrames, gaps := e.gaps }

def HeadInfo.shape (h : HeadInfo) : TakeShape :=
  { format := h.format, timelineLength := h.timelineLength, storedFrames := h.storedFrames, gaps := h.gaps }

/-- The sound blocks a PLAY of (start, frames) needs of a take. -/
def TakeShape.blocks (t : TakeShape) (start frames : Nat) : Nat × Nat :=
  stretchBlocks t.format t.gaps start (stretchEnd t.timelineLength start frames)

/-- The run of a retrieval (R123, R143). -/
def TakeShape.run (t : TakeShape) (start frames : Nat) : Run :=
  { head := true, first := (t.blocks start frames).1, count := (t.blocks start frames).2 }

/-- The PLAY job knows the take it plays (R143, R151, R152). -/
def PlayJob.withShape (t : TakeShape) (p : PlayJob) : PlayJob :=
  { p with shape := some t, endOffset := stretchEnd t.timelineLength p.start p.frames,
           firstBlock := (t.blocks p.start p.frames).1, blockCount := (t.blocks p.start p.frames).2 }

/-! ## LOCAL (R142, R152) -/

/-- The reads a PLAY job in LOCAL requests now (R152): while a slot is free and fewer than 8 are waiting or issued. -/
def requestReads (j : Nat) (s : State) : State :=
  match s.jobAt j with
  | some job =>
    match job.playOf with
    | some p =>
      if p.state ≠ .localStore ∨ p.pendingResult.isSome then s
      else
        let n := min (min (96 - p.slots.length) (8 - s.outstanding j job)) (p.lastRead + 1 - p.nextRead)
        let seqs := List.range' p.nextRead n
        modJob j (fun job => { job with reqs := job.reqs ++ seqs.map .read })
          (modPlay j (fun p =>
            { p with nextRead := p.nextRead + n,
                     slots := p.slots ++ seqs.map fun q => { seq := q, ready := false, damaged := false, bytes := [] } }) s)
    | none => s
  | none => s

/-- The job enters LOCAL and plays its own copy (R142, R152). -/
def enterLocal (j i : Nat) (e : Entry) (s : State) : State :=
  requestReads j (holdEntry j i (modPlay j (fun p =>
    let p := p.withShape e.shape
    { p with state := .localStore, answerWindow := none, grantWait := none, slots := [], cursor := p.start,
             nextRead := p.firstBlock, lastRead := p.firstBlock + p.blockCount - 1 })
      (dropWaitingStep j (modJob j (fun job => { job with rcv := none }) s))))

/-- The live entry of a take that is HELD or INCOMPLETE. -/
def State.playableEntry (s : State) (t : TakeNo) : Option (Nat × Entry) :=
  match s.findTake t with
  | some (i, e) => if e.playable then some (i, e) else none
  | none => none

/-- The entry serves the stretch cleanly (R142): no overflow, and no listed damage among its sound blocks. The flag is tested
for a stretch that lies wholly in gaps too (log 42). -/
def Entry.cleanFor (e : Entry) (start frames : Nat) : Bool :=
  let b := e.shape.blocks start frames
  !e.overflow && !e.damaged.any (fun q => b.1 ≤ q && q < b.1 + b.2)

/-- A job that has gone to the link falls back to its own store, or ends (R142, R145, R147). -/
def fallBack (j : Nat) (otherwise : Result) (s : State) : State :=
  match (s.jobAt j).bind (·.take) with
  | some t =>
    match s.playableEntry t with
    | some (i, e) => enterLocal j i e s
    | none => endJob j otherwise none s
  | none => s

/-! ## Seeking and granting (R145, R146, R147) -/

/-- The SEEK of a PLAY job (R145). -/
def givePlaySeek (j : Nat) (s : State) : State :=
  match s.jobAt j with
  | some job =>
    match job.playOf with
    | some p =>
      if s.linkStanding then
        giveFrame j (s.jobFrame job 63 .out (.seek p.start p.frames .play 0 0 p.exclusion.toList))
          (modPlay j (fun p => { p with state := .seeking, answerWindow := none }) s)
      else endJob j .linkCongested none s
    | none => s
  | none => s

/-- The source of a new PLAY job (R142): its own store, or a SEEK. -/
def chooseSource (j : Nat) (t : TakeNo) (start frames : Nat) (s : State) : State :=
  match s.playableEntry t with
  | some (i, e) => if e.cleanFor start frames || s.muted then enterLocal j i e s else givePlaySeek j s
  | none => givePlaySeek j s

/-- The GRANT naming the holder (R145, R165). -/
def giveGrant (j holder : Nat) (s : State) : State :=
  match s.jobAt j with
  | some job => giveFrame j (s.jobFrame job 63 .out (.grant holder)) s
  | none => s

/-- A job draws a new exchange tag (R140, R165). -/
def drawExchange (j : Nat) (s : State) : State :=
  let d := drawTag s
  modJob j (fun job => { job with exTag := some d.1 }) d.2

/-- The granted holder has failed before the head block was accepted (R147). -/
def holderFailed (j : Nat) (s : State) : State :=
  match (s.jobAt j).bind Job.playOf with
  | some p =>
    if p.reseekUsed then fallBack j .stalled s
    else
      givePlaySeek j (drawExchange j (dropWaitingStep j (modJob j (fun job => { job with rcv := none })
        (modPlay j (fun p => { p with reseekUsed := true, exclusion := p.holder, grantWait := none, grantSent := false,
                                      grantedBlocks := none }) s))))
  | none => s

/-- The job has accepted the head block of its take: it knows the take's description (R151). -/
def PlayJob.headAccepted (p : PlayJob) : Bool := p.shape.isSome

/-- The transfer of a PLAY job ends early after the head block (R156): the outcome is kept for playout to reach.
DESIGN CHOICE (log 60): an outcome recorded before stands. -/
def pendPlay (j : Nat) (result : Result) (s : State) : State :=
  modPlay j (fun p => { p with state := .draining, pendingResult := some (p.pendingResult.getD result) })
    (dropWaitingStep j (modJob j (fun job => { job with rcv := none }) s))

/-! ## Receiving for playout (R132, R151) -/

/-- The head block fits the exchange (R151). -/
def PlayJob.headFits (p : PlayJob) (take : Option TakeNo) (h : HeadInfo) : Bool :=
  take == some h.take && p.grantedBlocks == some h.storedBlocks && p.start < h.timelineLength

/-- The PLAY job has accepted the last position of its run: DRAINING, and the inactivity timer stops (R135, R151). -/
def drainIfWhole (j : Nat) (s : State) : State :=
  match (s.jobAt j).bind (·.rcv) with
  | some r =>
    if r.owed then s
    else modPlay j (fun p => { p with state := .draining }) (modRcv j (fun r => { r with inactivity := none }) s)
  | none => s

/-- CHECK_FAILED at the head block (R132, R138, R151). -/
def playCheckFailed (j : Nat) (s : State) : State :=
  match s.jobAt j with
  | some job => endJob j .checkFailed (some (s.jobFrame job job.stepTo.1 .out (.abandon .checkFailed))) s
  | none => s

/-- An accepted block of a PLAY job (R132, R151). -/
def playAccept (j seq : Nat) (damaged : Bool) (block : List Byte) (s : State) : State :=
  match s.jobAt j with
  | some job =>
    match job.playOf with
    | some p =>
      if seq = 0 then
        match headOfPayload (blockPayload block) with
        | some h =>
          if damaged || !p.headFits job.take h then playCheckFailed j s
          else
            drainIfWhole j (stepAfterAccept j
              (modRcv j (fun r => { r.accepting false with run := some (h.shape.run p.start p.frames) })
                (modPlay j (PlayJob.withShape h.shape) s)))
        | none => playCheckFailed j s
      else
        drainIfWhole j (stepAfterAccept j (modRcv j (Receiver.accepting damaged)
          (modPlay j (fun p =>
            { p with slots := p.slots ++ [{ seq := seq, ready := true, damaged := damaged, bytes := block }] }) s)))
    | none => s
  | none => s

/-! ## Local reads (R152) -/

/-- A read of a PLAY job in LOCAL has ended. DESIGN CHOICE (log 60): a pending outcome recorded before stands at NOT_PRESENT. -/
def playRead (j i seq : Nat) (outcome : ReadEnd) (block : List Byte) (s : State) : State :=
  match outcome with
  | .notPresent =>
    modPlay j (fun p => { p with slots := p.slots.filter (fun x => x.seq ≠ seq),
                                 pendingResult := some (p.pendingResult.getD .mediaFault) }) s
  | outcome =>
    let bad := outcome == .uncorrectable
    let s := if bad then recordDamage i seq (some .play) s else s
    requestReads j (modPlay j (fun p =>
      { p with slots := p.slots.map fun x =>
                 if x.seq = seq then { x with ready := true, damaged := bad, bytes := block } else x }) s)

/-! ## Output (R144, R153, R154, R155, R156) -/

/-- Output can start (R154). -/
def PlayJob.mayStart (p : PlayJob) : Bool :=
  let ready := p.slots.countP (fun x => x.ready)
  match p.state with
  | .localStore =>
    16 ≤ ready || (p.lastRead < p.nextRead && p.slots.all (fun x => x.ready)) || p.blockCount == 0 || p.pendingResult.isSome
  | .playing => 16 ≤ ready
  | .draining => true
  | _ => false

/-- What the cursor finds (R144, R155). -/
inductive CursorFrame where
  | atEnd
  | silence
  | stored (block position : Nat) (slot : Slot)
  | missing
  deriving DecidableEq, Repr

def PlayJob.find (p : PlayJob) (t : TakeShape) : CursorFrame :=
  if p.endOffset ≤ p.cursor then .atEnd
  else if inGap t.gaps p.cursor then .silence
  else
    let k := storedBefore t.gaps p.cursor
    let block := k / t.format.perBlock + 1
    match p.slots.find? (fun x => x.seq == block && x.ready) with
    | some slot => .stored block (k % t.format.perBlock) slot
    | none => .missing

/-- The bits of one sample, most significant first (R153). -/
def bytesBits (l : List Byte) : List Bool :=
  l.flatMap fun b => (List.range 8).map fun i => b.getLsbD (7 - i)

/-- A half period of `edges` bit clock edges (R153): the sample's bits, then zeros. -/
def halfBits (edges : Nat) (bits : List Bool) : List Bool :=
  bits.take edges ++ List.replicate (edges - bits.length) false

/-- Drives one period (R153): channel 1 while the frame clock is high, channel 2, or channel 1 again, while it is low. -/
def drive (f : Format) (frame : List Byte) (highEdges lowEdges : Nat) (s : State) : State :=
  let one := frame.take f.width.bytes
  let two := match f.channels with
    | .mono => one
    | .stereo => frame.drop f.width.bytes
  { s with port.lineHigh := halfBits highEdges (bytesBits one), port.lineLow := halfBits lowEdges (bytesBits two) }

/-- A frame of zero samples. -/
def driveZeros (highEdges lowEdges : Nat) (s : State) : State :=
  { s with port.lineHigh := halfBits highEdges [], port.lineLow := halfBits lowEdges [] }

/-- The frame at a position of a block, under the damaged policy (R154). -/
def PlayJob.frameAt (p : PlayJob) (f : Format) (position : Nat) (slot : Slot) : List Byte :=
  if slot.damaged && p.policy == .silence then List.replicate f.frameBytes 0
  else ((blockPayload slot.bytes).drop (position * f.frameBytes)).take f.frameBytes

/-- The slot of a block frees when the cursor has given the block's last needed frame (R144). -/
def PlayJob.freeGiven (t : TakeShape) (block position : Nat) (p : PlayJob) : PlayJob :=
  let k := (block - 1) * t.format.perBlock + position
  if position + 1 = t.format.perBlock ∨ k + 1 = storedBefore t.gaps p.endOffset then
    { p with slots := p.slots.filter (fun x => x.seq ≠ block) }
  else p

/-- The cursor moves on, and a run of underruns is over (R144, R155). -/
def PlayJob.moveOn (p : PlayJob) : PlayJob := { p with cursor := p.cursor + 1, inUnderrun := false }

/-- The job ends OK when its cursor has reached u (R156). -/
def endAtU (j : Nat) (s : State) : State :=
  match (s.jobAt j).bind Job.playOf with
  | some p =>
    match p.state with
    | .localStore | .draining => if p.endOffset ≤ p.cursor then endJob j .ok none s else s
    | _ => s
  | none => s

/-- A period at which the frame's block is not ready (R155, R156). What the port carries in the period in which the job ends
with its pending outcome is the model's choice: zeros (log 65). -/
def underrun (j : Nat) (job : Job) (p : PlayJob) (s : State) : State :=
  match p.pendingResult with
  | some r => endJob j r none s
  | none =>
    let s := modPlay j (fun p => { p with underruns := satAdd 65535 p.underruns 1, inUnderrun := true }) s
    match p.inUnderrun, job.take with
    | false, some t => raise (.underrun job.tag t p.cursor) s
    | _, _ => s

/-- One period after output has started (R144, R153 to R156). DESIGN CHOICE (log 65): a period that ends the job with its
pending outcome carries zeros. -/
def playFrame (j highEdges lowEdges : Nat) (job : Job) (p : PlayJob) (t : TakeShape) (s : State) : State :=
  match p.find t with
  | .atEnd => endAtU j (driveZeros highEdges lowEdges s)
  | .silence => endAtU j (modPlay j PlayJob.moveOn (driveZeros highEdges lowEdges s))
  | .stored block position slot =>
    endAtU j (requestReads j (modPlay j (fun p => (p.freeGiven t block position).moveOn)
      (drive t.format (p.frameAt t.format position slot) highEdges lowEdges s)))
  | .missing => underrun j job p (driveZeros highEdges lowEdges s)

/-- One frame-clock period of an owning PLAY job (R153, R154). -/
def playPeriod (j highEdges lowEdges : Nat) (job : Job) (p : PlayJob) (s : State) : State :=
  match p.shape with
  | some t =>
    if p.started || p.mayStart then
      playFrame j highEdges lowEdges job p t (modPlay j (fun p => { p with started := true }) s)
    else driveZeros highEdges lowEdges s
  | none => driveZeros highEdges lowEdges s

/-! ## SERVE (R149, R150) -/

/-- The run a SERVE job sends (R123, R150). -/
def ServeJob.run (v : ServeJob) (e : Entry) : Run :=
  match v.purpose with
  | .play => e.shape.run v.start v.frames
  | .repair => { head := false, first := v.first, count := v.count }

/-- A SERVE job for a note whose GRANT names this node (R149). -/
def createServe (n : AnswerNote) (i : Nat) (e : Entry) (s : State) : State :=
  let v : ServeJob := { purpose := n.purpose, start := n.start, frames := n.frames, first := n.first, count := n.count }
  let snd := newSender (v.run e) [newMember s.now n.requester 0 .sending]
  let j := s.freeRecord
  let s := createJob (fun tag =>
    { freshJob tag n.requester (some n.tag) (some n.take) (.serve v) with snd := some snd }) s
  modJob j commit (holdEntry j i s)

/-- A read of a sending job has ended (R125, R150): DATA, or the end of the transfer with MEDIA_FAULT. -/
def sendRead (j i seq : Nat) (outcome : ReadEnd) (block : List Byte) (s : State) : State :=
  match s.jobAt j with
  | some job =>
    match outcome with
    | .ok => giveData j seq false block s
    | .uncorrectable => giveData j seq true block (recordDamage i seq (some job.kind) s)
    | .notPresent => endJob j .mediaFault (some (s.jobFrame job job.dataTo.1 job.dataTo.2 (.abandon .mediaFault))) s
  | none => s

end Sys2Proof.Machine
end

