-- ==== Sys2Proof/Machine/Repair.lean ====
section
/-! DEFINITION. REPAIR jobs (9.2, 9.4): verifying, the head block, the range, the transfer, finishing. -/

namespace Sys2Proof.Machine

/-- The sound sequences of a damaged list. -/
def soundDamage (e : Entry) : List Nat := e.damaged.filter (· ≠ 0)

/-- The repair range (R165): from the lowest listed sound sequence to the highest not above it plus 63. -/
def repairRange (l : List Nat) : Nat × Nat :=
  match l with
  | [] => (0, 0)
  | a :: rest =>
    let first := rest.foldl min a
    let last := (l.filter (· ≤ first + 63)).foldl max first
    (first, last - first + 1)

/-- SEEKING (R165): the range, a new exchange tag and the SEEK; in LINK_MUTE the job ends LINK_CONGESTED. -/
def repairSeek (j : Nat) (e : Entry) (s : State) : State :=
  let range := repairRange (soundDamage e)
  let s := drawExchange j (modRepair j (fun r => { r with state := .seeking, first := range.1, count := range.2 }) s)
  match s.jobAt j with
  | some job =>
    if s.linkStanding then giveFrame j (s.jobFrame job 63 .out (.seek 0 0 .repair range.1 range.2 [])) s
    else endJob j .linkCongested none s
  | none => s

/-- After VERIFYING or HEAD (R163, R164): SEEKING with a sound sequence listed, otherwise the end, OK. -/
def repairGoOn (j : Nat) (s : State) : State :=
  match ((s.jobAt j).bind (·.entry)).bind s.entryAt with
  | some e => if (soundDamage e).isEmpty then endJob j .ok none s else repairSeek j e s
  | none => s

/-- A scan's last read (R163): the count and the flag describe what the scan found. -/
def Entry.scanned (tally : Nat) (e : Entry) : Entry :=
  { e with damagedCount := min 255 (e.damaged.length + tally), overflow := decide (0 < tally) }

def closeScan (i : Nat) (r : RepairJob) (s : State) : State :=
  match s.entryAt i with
  | some e => if r.scan && e.scanned r.tally ≠ e then changeEntryMarked i (Entry.scanned r.tally) s else s
  | none => s

/-- The reads are done (R163): HEAD if sequence 0 is listed, with the head block built now and queued (R164), and on. -/
def verified (j : Nat) (s : State) : State :=
  match s.jobAt j with
  | some job =>
    match job.repairOf, job.entry with
    | some r, some i =>
      let s := closeScan i r s
      match s.entryAt i with
      | some e =>
        if e.damaged.contains 0 then
          modJob j (fun job => { job with reqs := [.inPlace 0 (e.headInfo e.label).block] })
            (modRepair j (fun r => { r with state := .head }) s)
        else repairGoOn j s
      | none => s
    | _, _ => s
  | none => s

/-- The sequences VERIFYING has still to read. -/
def RepairJob.left (r : RepairJob) : Nat := if r.scan then r.scanEnd - r.scanNext else r.todo.length

/-- The next `n` sequences to read, and the record after they are requested. -/
def RepairJob.request (n : Nat) (r : RepairJob) : List Nat × RepairJob :=
  if r.scan then
    let k := min n (r.scanEnd - r.scanNext)
    (List.range' r.scanNext k, { r with scanNext := r.scanNext + k })
  else (r.todo.take n, { r with todo := r.todo.drop n })

/-- VERIFYING requests its reads, at most 8 waiting or issued; with none left, it is done (R163). -/
def verify (j : Nat) (s : State) : State :=
  match s.jobAt j with
  | some job =>
    match job.repairOf with
    | some r =>
      if r.state ≠ .verifying then s
      else
        let q := r.request (8 - s.outstanding j job)
        if s.outstanding j job = 0 ∧ q.1 = [] then verified j s
        else
          modJob j (fun job => { job with body := .repair q.2, reqs := job.reqs ++ q.1.map .read }) s
    | none => s
  | none => s

/-- A read of VERIFYING has ended (R163). DESIGN CHOICE (log 77): where the job ends at its last read, CAT's DAMAGE_FOUND comes before
the JOB_DONE (R184). -/
def repairRead (j i seq : Nat) (outcome : ReadEnd) (s : State) : State :=
  match s.entryAt i with
  | some e =>
    let listed := e.damaged.contains seq
    let s := match outcome with
      | .ok =>
        if listed then modRepair j (fun r => { r with cleared := r.cleared + 1 }) (clearDamage i seq s) else s
      | .uncorrectable =>
        recordDamage i seq (some .repair)
          (modRepair j (fun r =>
            { r with tally := if r.scan && !listed && 8 ≤ e.damaged.length then r.tally + 1 else r.tally }) s)
      | .notPresent => if listed then clearDamage i seq s else s
    verify j s
  | none => s

/-- A new REPAIR job on entry `i`, VERIFYING (R162, R163, R169). -/
def createRepair (i : Nat) (e : Entry) (s : State) : State :=
  let r : RepairJob :=
    { state := .verifying, scan := e.overflow, todo := if e.overflow then [] else e.damaged, scanNext := 0,
      scanEnd := e.storedBlocks, tally := 0, cleared := 0, first := 0, count := 0, holder := none, grantSent := false,
      answerWindow := none, grantWait := none, recorded := none }
  let j := s.freeRecord
  verify j (holdEntry j i (createJob (fun tag => freshJob tag s.own none (some e.take) (.repair r)) s))

/-- FINISHING (R167): with no write left the job ends, OK or with the outcome it recorded. -/
def finishRepair (j : Nat) (s : State) : State :=
  match s.jobAt j with
  | some job =>
    match job.repairOf with
    | some r =>
      if r.state = .finishing ∧ s.outstanding j job = 0 then endJob j (r.recorded.getD .ok) none s else s
    | none => s
  | none => s

/-- The transfer ends early (R167): the outcome is recorded and the job finishes its writes. DESIGN CHOICE (log 60): an outcome
recorded before stands. -/
def stopRepair (j : Nat) (result : Result) (s : State) : State :=
  finishRepair j (dropWaitingStep j (modJob j (fun job => { job with rcv := none })
    (modRepair j (fun r => { r with state := .finishing, recorded := some (r.recorded.getD result) }) s)))

/-- A write of the job has ended (R164, R167). -/
def repairWritten (j i seq : Nat) (ok : Bool) (s : State) : State :=
  match s.entryAt i with
  | some e =>
    let s := if ok && e.damaged.contains seq then
        modRepair j (fun r => { r with cleared := r.cleared + 1 }) (clearDamage i seq s)
      else s
    match ((s.jobAt j).bind Job.repairOf).map RepairJob.state with
    | some .head => repairGoOn j s
    | _ => finishRepair j s
  | none => s

/-- An accepted block of a REPAIR job (R132, R167). -/
def repairAccept (j seq : Nat) (damaged : Bool) (block : List Byte) (s : State) : State :=
  match ((s.jobAt j).bind (·.entry)).bind s.entryAt with
  | some e =>
    let write := !damaged && (e.damaged.contains seq || e.overflow)
    let s := if write then modJob j (fun job => { job with reqs := job.reqs ++ [.inPlace seq block] }) s else s
    let s := stepAfterAccept j (modRcv j (Receiver.accepting damaged) s)
    match (s.jobAt j).bind (·.rcv) with
    | some v =>
      if v.owed then s
      else
        finishRepair j (modRepair j (fun r => { r with state := .finishing })
          (modRcv j (fun v => { v with inactivity := none }) s))
    | none => s
  | none => s

/-- The live entry AUTOMATIC_REPAIR_START picks (R169): the lowest index that is HELD or INCOMPLETE, damaged, and free of
a hold. A hold has passed as a not-before time has (R23): not yet at its own tick (log 36). -/
def State.repairCandidate (s : State) : Option (Nat × Entry) :=
  s.cat.entries.find? fun p =>
    p.2.playable && (!p.2.damaged.isEmpty || p.2.overflow)
      && (match p.2.repairHold with
          | some t => decide (t < s.now)
          | none => true)

end Sys2Proof.Machine
end

