-- ==== Sys2Proof/Machine/StartUp.lean ====
section
/-! DEFINITION. SUL (Chapter 11; R29, R195): settings, loading, preparing a blank store, reconciliation, completion. -/

namespace Sys2Proof.Machine

/-! ## Configuration (R186, R195) -/

/-- The settings of a good image, with the clamps of R186, and the clamped fields (INQUIRE's bits, R194). -/
def loadSettings (b : List Byte) : Settings × Byte :=
  let address := fieldAt b 0 1
  let rate := fieldAt b 1 1
  let copies := fieldAt b 2 1
  let burst := fieldAt b 3 1
  let doze := fieldAt b 13 2
  let sleep := fieldAt b 15 2
  let rateOk := rate == 2 || rate == 4 || rate == 8
  let bit := fun (c : Bool) (n : Nat) => if c then n else 0
  ({ address := min 31 address, linkRate := if rateOk then rate else 2, copiesWanted := max 1 (min 4 copies),
     burstLimit := max 1 (min 16 burst), knots := ((b.drop 4).take 9).map (·.toNat), dozeDelay := min 60000 doze,
     sleepDelay := min 60000 sleep, autoRepair := fieldAt b 17 1 ≠ 0, eventMask := byteAt b 18 },
   BitVec.ofNat 8 (bit (31 < address) 1 + bit (!rateOk) 2 + bit (copies = 0 || 4 < copies) 4
     + bit (burst = 0 || 16 < burst) 8 + bit (60000 < doze) 16 + bit (60000 < sleep) 32))

/-- The image's check agrees with its contents (R195). -/
def imageGood (b : List Byte) : Bool := b.length == 21 && fieldAt b 19 2 == (crc16 (b.take 19)).toNat

/-- The settings take effect; the LFSR is seeded from the address in effect (R94, R186). -/
def takeSettings (cfg : Settings) (defaulted : Bool) (clamped : Byte) (s : State) : State :=
  { s with sul.cfg := cfg, sul.defaulted := defaulted, sul.clamped := clamped, lif.lfsr := lfsrSeed cfg.address }

/-- An absent or failing image (R186). DEDUCED (log 77): SUL's CONFIG_DEFAULTED comes before LIF's LINK_MUTE, as R186 names them. -/
def defaultConfig (reason : DefaultReason) (s : State) : State :=
  enterMute .configuration (raise (.configDefaulted reason) (takeSettings defaultSettings true 0 s))

/-- SUL has read the image, and has MED ask the store for its capacity (R29, R187). -/
def readImage (image : Option (List Byte)) (s : State) : State :=
  let s := match image with
    | none => defaultConfig .absent s
    | some b =>
      if imageGood b then takeSettings (loadSettings b).1 false (loadSettings b).2 s else defaultConfig .checkFailed s
  { s with sul.phase := .capacity s.now }

/-- The capacity report (R29): the total chunk count, or a store too small to use. -/
def takeCapacity (blocks : Nat) (s : State) : State :=
  if blocks < 32768 then { s with sul.phase := .unusable }
  else
    { s with sul.phase := .counter, med.capacity := blocks, med.total := min (blocks / 4096) 16384,
             med.chunks := [(0, reservedChunk)] }

/-! ## Loading (R187) -/

def State.mapBlocks (s : State) : Nat := (s.med.total + 79) / 80

/-- The operation SUL wants next (R187, R188). -/
def State.sulWants (s : State) : Option SulOp :=
  match s.sul.phase with
  | .counter => some (.readBlock 0)
  | .records i => some (.readBlock (1 + i))
  | .maps b => some (.readBlock (2049 + b))
  | .prepare offset faults => some (.prepare offset faults)
  | .heads (i :: _) faults => some (.head i faults)
  | _ => none

def setFault (s : State) : State := { s with cat.fault := true }

/-- A chunk entry as it is loaded (R187): as the block gives it, chunk 0 included, or BAD where R187 rejects it (log 29). -/
def loadChunk (total number : Nat) (b : List Byte) (s : State) : State :=
  match chunkOfBytes total number b with
  | none => setFault { s with med.chunks := chunkMapSet s.med.chunks number lostChunk }
  | some c => { s with med.chunks := chunkMapSet s.med.chunks number c }

/-- The chunk entries of a map block read OK. -/
def loadMap (p : List Byte) (block : Nat) (s : State) : State :=
  (List.range (min 80 (s.med.total - 80 * block))).foldl
    (fun s k => loadChunk s.med.total (80 * block + k) ((p.drop (6 * k)).take 6) s) s

/-- The chunks of a map block that cannot be read (R187). -/
def loseMap (block : Nat) (s : State) : State :=
  setFault ((List.range (min 80 (s.med.total - 80 * block))).foldl
    (fun s k => if 80 * block + k = 0 then s
                else { s with med.chunks := chunkMapSet s.med.chunks (80 * block + k) lostChunk }) s)

/-- A catalogue record read OK (R187, R193). DESIGN CHOICE (log 53): two live records with one take number are both kept. -/
def loadRecord (i : Nat) (p : List Byte) (s : State) : State :=
  match entryOfRecord p with
  | .empty => s
  | .live e => { s with cat.entries := smapSet s.cat.entries i e }
  | .invalid => setFault s

/-! ## Reconciliation (R188) -/

/-- The chain walk of step 2: the chunks walked, or none where the walk breaks; and every chunk reached so far. -/
def walkChain (m : SMap Chunk) (total i : Nat) : (count : Nat) → (at_ : Option Nat) → (reached : List Nat) →
    Option (List Nat) × List Nat
  | 0, _, reached => (some [], reached)
  | _ + 1, none, reached => (none, reached)
  | count + 1, some c, reached =>
    let ch := chunkIn m c
    if total ≤ c ∨ reached.contains c ∨ ¬ (ch.owner = .entry i ∨ ch.owner = .bad) then (none, reached)
    else
      let r := walkChain m total i count ch.next (c :: reached)
      (r.1.map (c :: ·), r.2)

/-- The walk of an entry (step 2): a first chunk or a chunk count of 0 breaks it. -/
def walkEntry (m : SMap Chunk) (total i : Nat) (e : Entry) (reached : List Nat) : Option (List Nat) × List Nat :=
  if e.firstChunk = 0 ∨ e.chunkCount = 0 then (none, reached)
  else walkChain m total i e.chunkCount (some e.firstChunk) reached

/-- Steps 1 and 2 over the entries in ascending order: each entry that is kept, with its chain. -/
def walkAll (m : SMap Chunk) (total : Nat) : SMap Entry → (reached : List Nat) → List (Nat × Entry × Option (List Nat))
  | [], _ => []
  | (i, e) :: rest, reached =>
    if e.state = .receiving then walkAll m total rest reached
    else
      let e' := if e.state = .capturing then e.cutShort else e
      let w := walkEntry m total i e' reached
      (i, e', w.1) :: walkAll m total rest w.2

/-- Step 3: the blocks used along a walked chain, or none where the entry's stored blocks do not fit it. -/
def chainUsed (m : SMap Chunk) (stored : Nat) : (chain : List Nat) → (before : Nat) → Option (List (Nat × Nat))
  | [], _ => none
  | [c], before =>
    let ch := chunkIn m c
    if ch.owner = .bad then (if before + ch.used = stored then some [(c, ch.used)] else none)
    else if before < stored ∧ stored ≤ before + 4096 then some [(c, stored - before)]
    else none
  | c :: rest, before =>
    let ch := chunkIn m c
    let used := if ch.owner = .bad then ch.used else 4096
    (chainUsed m stored rest (before + used)).map ((c, used) :: ·)

/-- The map after steps 3 and 4: the kept chains with their blocks used, the last chunk of each ending in END; off the chains,
BAD chunks unlinked and chunks of an index FREE, a RESERVED or FREE chunk as it was. -/
def settledChunk (kept : List (List (Nat × Nat))) (c : Nat) (ch : Chunk) : Chunk :=
  match kept.find? (fun l => l.any (fun p => p.1 == c)) with
  | some l =>
    match l.find? (fun p => p.1 == c) with
    | some p => { ch with used := p.2, next := if (l.getLast?.map (·.1)) = some c then none else ch.next }
    | none => ch
  | none =>
    match ch.owner with
    | .bad => lostChunk
    | .entry _ => freeChunk
    | .reserved | .free => ch

/-- What reconciliation makes of the entries and the map. -/
structure Reconciled where
  entries : SMap Entry
  chunks : SMap Chunk
  made : List Nat
  deriving DecidableEq, Repr

/-- Steps 1 to 5. `made`: the entries made INCOMPLETE and kept through steps 2 and 3; one that is freed after step 1 is
counted as freed alone (log 20); their head blocks are written in ascending index order, a DESIGN CHOICE (log 50). -/
def reconciled (m : SMap Chunk) (total : Nat) (entries : SMap Entry) : Reconciled :=
  let kept := (walkAll m total entries []).filterMap fun (i, e, chain) =>
    (chain.bind fun l => chainUsed m e.storedBlocks l 0).map fun used => (i, e, used)
  let chains := kept.map (·.2.2)
  { entries := kept.map fun (i, e, _) =>
      (i, if e.placement = .inProgress then { e with placement := .queued } else e),
    chunks := (m.map fun (c, ch) => (c, settledChunk chains c ch)).filter (fun p => p.2 ≠ freeChunk),
    made := entries.filterMap fun (i, e) =>
      if e.state = .capturing && kept.any (fun k => k.1 == i) then some i else none }

/-- The entries a broken walk or a misfit freed, RECEIVING ones apart: they set the catalogue fault flag. -/
def anyBroken (before : SMap Entry) (after : SMap Entry) : Bool :=
  before.any fun p => p.2.state != .receiving && !after.any (fun q => q.1 == p.1)

/-- The numbers at which two tables differ, ascending: the order in which reconciliation lists them is a DESIGN CHOICE (log 50). -/
def changedKeys {α : Type} [DecidableEq α] (before after : SMap α) : List Nat :=
  (smapKeys before).filter (fun n => smapGet after n ≠ smapGet before n)

/-- Reconciliation (R188): it ends with the head blocks of the entries made INCOMPLETE. DESIGN CHOICE (log 50): the entries that all
steps together change join the write-through queue, and the map blocks the map-write list, in ascending number order. -/
def reconcile (s : State) : State :=
  let r := reconciled s.med.chunks s.med.total s.cat.entries
  { s with
    cat.entries := r.entries
    cat.wt := (changedKeys s.cat.entries r.entries).map .entry
    cat.fault := s.cat.fault || anyBroken s.cat.entries r.entries
    cat.reserved := 0
    med.chunks := r.chunks
    med.mapList := ((changedKeys s.med.chunks r.chunks).map (· / 80)).eraseDups
    med.free := s.med.total - (takenChunks r.chunks).length
    med.bad := r.chunks.countP (fun p => p.2.owner == .bad)
    med.pledged := 0
    sul.phase := .heads r.made 0
    sul.madeIncomplete := r.made.length
    sul.freed := s.cat.entries.length - r.entries.length }

/-! ## Completion (R189) -/

/-- Start-up completes (R71, R72, R178, R188 step 5, R189). DESIGN CHOICE (log 68): every entry in QUEUED joins the placement
queue, a COPY or INCOMPLETE one loaded so too. -/
def completeStartUp (s : State) : State :=
  let s := setMark { s with
    sul.phase := .complete
    cat.queue := (s.cat.entries.filter (fun p => p.2.placement = .queued)).map (fun p => (p.1, s.now))
    jt.nextTag := 0
    cpe.port := .ready
    cpe.current := none
    cpe.response := none
    lif.listening := true
    lif.medium := if s.lif.carrier then .busy else .settling
    lif.absent := 0
    lif.rxOpen := false }
  raise (.startupDone s.cat.entries.length s.sul.madeIncomplete s.sul.freed s.sul.prepared s.cat.fault)
    (followConditions s)

/-- SUL moves on when a stage holds no more work. -/
def sulAdvance (s : State) : State :=
  match s.sul.phase with
  | .records i => if i < 2048 then s else { s with sul.phase := .maps 0 }
  | .maps b => if b < s.mapBlocks then s else reconcile s
  | .prepare offset _ => if offset < 2049 + s.mapBlocks then s else reconcile s
  | _ => s

/-- With reconciliation and its head blocks done, start-up completes. -/
def sulSettle (s : State) : State :=
  let s := sulAdvance s
  match s.sul.phase with
  | .heads [] _ => completeStartUp s
  | _ => s

/-- A read of SUL has ended (R187). DESIGN CHOICE (log 49): a counter above 134,217,727 is loaded as it stands. -/
def sulReadDone (ok : Bool) (block : List Byte) (s : State) : State :=
  let p := blockPayload block
  sulSettle (match s.sul.phase with
    | .counter =>
      if !ok then setFault { s with cat.counter := 134217727, sul.phase := .records 0 }
      else if p.take 4 = formatMark then { s with cat.counter := fieldAt p 4 4, sul.phase := .records 0 }
      else { s with cat.counter := 0, sul.phase := .prepare 0 0, sul.prepared := true }
    | .records i =>
      let s := if ok then loadRecord i p s else setFault s
      { s with sul.phase := .records (i + 1) }
    | .maps b =>
      let s := if ok then loadMap p b s else loseMap b s
      { s with sul.phase := .maps (b + 1) }
    | _ => s)

/-- A write of SUL has ended (R187, R188): three attempts each. DESIGN CHOICE (log 72): a blank store is prepared in ascending
offset, the counter block with its format mark first. -/
def sulWriteDone (ok : Bool) (s : State) : State :=
  sulSettle (match s.sul.phase with
    | .prepare offset faults =>
      if ok then { s with sul.phase := .prepare (offset + 1) 0 }
      else if 2 ≤ faults then setFault { s with sul.phase := .prepare (offset + 1) 0 }
      else { s with sul.phase := .prepare offset (faults + 1) }
    | .heads (i :: rest) faults =>
      if ok then { s with sul.phase := .heads rest 0 }
      else if 2 ≤ faults then { recordDamage i 0 none s with sul.phase := .heads rest 0 }
      else { s with sul.phase := .heads (i :: rest) (faults + 1) }
    | _ => s)

end Sys2Proof.Machine
end

