-- ==== Sys2Proof/Machine/Media.lean ====
section
/-! DEFINITION. The media arbiter (Chapter 2): choosing and issuing a request, ending an operation, and what follows a
command that can give MED work. -/

namespace Sys2Proof.Machine

/-! ## Choosing (R38, R39) -/

/-- The job served next in tier 3: the first after the record last served, wrapping (R39). -/
def State.nextJob (s : State) : Option (Nat × Job) :=
  let waiting := s.jt.jobs.filter (fun p => p.2.kind != .capture && p.2.hasRequest)
  match waiting.find? (fun p => s.med.rrLast < p.1) with
  | some p => some p
  | none => waiting.head?

/-- The CAPTURE job's oldest request (tier 1). -/
def State.captureRequest (s : State) : Option Requester :=
  match s.captureJob with
  | some (j, _, c) => c.waiting.map (.job j ·)
  | none => none

/-- Tier 2: a map write, then a catalogue write; an item whose write faulted comes first in its list (R28, R39, R44). -/
def State.writeThrough (s : State) : Option Requester :=
  match s.med.mapRetry, s.med.mapList, s.cat.wtRetry, s.cat.wt with
  | some (b, n), _, _, _ => some (.map b n)
  | none, b :: _, _, _ => some (.map b 0)
  | none, [], some (w, n), _ => some (.wt w n)
  | none, [], none, w :: _ => some (.wt w 0)
  | none, [], none, [] => none

def State.jobRequest (s : State) : Option Requester :=
  match s.nextJob with
  | some (j, job) => job.reqs.head?.map (.job j ·)
  | none => none

/-- The request the arbiter takes (R39, R40): until start-up has completed, SUL's alone. -/
def State.chosen (s : State) : Option Requester :=
  if s.complete then (s.captureRequest.orElse fun _ => s.writeThrough.orElse fun _ => s.jobRequest)
  else s.sulWants.map .sul

/-- The chosen request leaves its list (R26, R38, R44); tier 3 keeps the record it served (R39). -/
def takeRequest (r : Requester) (s : State) : State :=
  match r with
  | .job _ .sound => s
  | .job j .head => modCapture j (fun c => { c with head := .issued }) s
  | .job j _ => { modJob j (fun job => { job with reqs := job.reqs.tail }) s with med.rrLast := j }
  | .wt _ _ =>
    match s.cat.wtRetry with
    | some _ => { s with cat.wtRetry := none }
    | none => { s with cat.wt := s.cat.wt.tail }
  | .map _ _ =>
    match s.med.mapRetry with
    | some _ => { s with med.mapRetry := none }
    | none => { s with med.mapList := s.med.mapList.tail }
  | .sul _ => s

/-! ## Where an operation goes (R36, R37) -/

/-- A block of a chain as a store address. -/
def storeAddress (chunk offset : Nat) : Nat := 4096 * chunk + offset

/-- An operation on the reserved chunk. -/
def reservedOp (who : Requester) (write : Bool) (offset : Nat) (data : List Byte) (now : Nat) : Issued :=
  { who := who, write := write, addr := offset, data := data, chunk := none, offset := offset, since := now, wanted := true }

/-- An operation on a block of a chain. -/
def chainOp (who : Requester) (write : Bool) (place : Nat × Nat) (data : List Byte) (now : Nat) : Issued :=
  { who := who, write := write, addr := storeAddress place.1 place.2, data := data, chunk := some place.1,
    offset := place.2, since := now, wanted := true }

/-- The entry a job works on. -/
def State.jobEntry (s : State) (j : Nat) : Option (Nat × Entry) :=
  match (s.jobAt j).bind (·.entry) with
  | some i => (s.entryAt i).map fun e => (i, e)
  | none => none

/-- Whether the chain's last chunk has no offset left (R33): full, or BAD. -/
def State.lastIsFull (s : State) (e : Entry) : Bool :=
  match (s.chain e).getLast? with
  | some c => (s.chunkAt c).owner == .bad || 4096 ≤ (s.chunkAt c).used
  | none => true

/-- The chunk an append write may allocate (R33, R34): none is MEDIA_FULL. -/
def State.appendSource (s : State) (j : Nat) : Option Nat :=
  match (s.jobAt j).bind Job.receiveOf with
  | some r => s.receiveChunk r
  | none => if 0 < s.unpledged then s.lowestFree else none

/-- A RECEIVE allocation against its pledge lowers the remainder and the pledged count (R34). -/
def spendPledge (j : Nat) (s : State) : State :=
  match (s.jobAt j).bind Job.receiveOf with
  | some r => if 0 < r.pledge then releasePledge 1 (modReceive j (fun r => { r with pledge := r.pledge - 1 }) s) else s
  | none => s

/-- An append write is placed (R33, R37): the chunk and offset it goes to, allocating a chunk first if the last has no
offset left; none where the allocation fails. -/
def placeAppend (j i : Nat) (e : Entry) (s : State) : Option (Nat × Nat) × State :=
  let s' :=
    if s.lastIsFull e then
      match s.appendSource j with
      | some c => some (spendPledge j (appendChunk i c s))
      | none => none
    else some s
  match s' with
  | some s' =>
    match (s'.chain e).getLast? with
    | some c => (some (c, (s'.chunkAt c).used), s')
    | none => (none, s)
  | none => (none, s)

/-- The sequence an append write of entry `e` takes (R37). -/
def State.nextSequence (s : State) (e : Entry) : Nat := s.blocksUsed (s.chain e)

/-- A sound block as it is stored (R55, R193). -/
def SoundBlock.stored (b : SoundBlock) (take : TakeNo) (f : Format) (seq : Nat) : List Byte :=
  makeBlock (some take) seq b.start b.frames 1 f.byte b.bytes

/-- The map block as MED holds it (R44, R193). -/
def State.mapBlock (s : State) (b : Nat) : List Byte :=
  makeBlock none (2049 + b) 0 0 5 0
    ((List.range (min 80 (s.med.total - 80 * b))).flatMap fun k => (s.chunkAt (80 * b + k)).bytes)

/-- The block SUL writes at an offset of the reserved chunk of a blank store (R187). -/
def State.blankBlock (s : State) (offset : Nat) : List Byte :=
  if offset = 0 then counterBlock 0
  else if offset < 2049 then recordBlock (offset - 1) none
  else s.mapBlock (offset - 2049)

/-! ## Outcomes without access to the store (R36, R62) -/

/-- A job's request ends NOT_PRESENT. -/
def notPresent (j i : Nat) (req : JobReq) (s : State) : State :=
  match (s.jobAt j).map Job.body, req with
  | some (.play _), .read q => playRead j i q .notPresent [] s
  | some (.repair _), .read q => repairRead j i q .notPresent s
  | some (.repair _), .inPlace q _ => repairWritten j i q false s
  | some (.capture _), .head => captureWritten j .head false false 0 0 s
  | some (.replicate _), .read q => sendRead j i q .notPresent [] s
  | some (.serve _), .read q => sendRead j i q .notPresent [] s
  | _, _ => s

/-- MEDIA_FULL for an append write (R62, R132). -/
def appendFull (j : Nat) (req : JobReq) (s : State) : State :=
  match req with
  | .sound => soundFull j s
  | _ => failReceive j .mediaFull .mediaFull s

/-! ## Issuing (R26, R37, R38) -/

def issueOp (op : Issued) (s : State) : State := { s with med.issued := some op }

/-- An append write is issued, or completes MEDIA_FULL. -/
def issueAppend (j i : Nat) (e : Entry) (req : JobReq) (block : Nat → List Byte) (s : State) : State :=
  let seq := s.nextSequence e
  let p := placeAppend j i e s
  match p.1 with
  | some place => issueOp (chainOp (.job j req) true place (block seq) s.now) p.2
  | none => appendFull j req s

/-- A read or an in-place write of sequence `seq` is issued, or completes NOT_PRESENT. -/
def issueAt (j i : Nat) (e : Entry) (req : JobReq) (write : Bool) (seq : Nat) (data : List Byte) (s : State) : State :=
  match s.locate e seq with
  | some place => issueOp (chainOp (.job j req) write place data s.now) s
  | none => notPresent j i req s

/-- The head block a capture writes, with the label as CAT holds it now (R65, R68). -/
def State.jobHead (s : State) (job : Job) (e : Entry) : List Byte :=
  match job.body with
  | .capture c =>
    if c.ending = none then (c.headInfo e.take s.sul.cfg.copiesWanted e.label).block else (e.headInfo e.label).block
  | _ => (e.headInfo e.label).block

def issueJob (j : Nat) (req : JobReq) (s : State) : State :=
  match s.jobAt j, s.jobEntry j with
  | some job, some (i, e) =>
    match req with
    | .read q => issueAt j i e req false q [] s
    | .append b => issueAppend j i e req (withSequence b) s
    | .inPlace q b => issueAt j i e req true q (withSequence b q) s
    | .sound =>
      match (job.captureOf.map (·.closed)).getD [] with
      | b :: _ => issueAppend j i e req (b.stored e.take e.format) s
      | [] => s
    | .head => issueAt j i e req true 0 (s.jobHead job e) s
  | _, _ => s

/-- A write-through item is issued, built from the catalogue as it stands (R19, R26). -/
def issueWt (w : WtItem) (faults : Nat) (s : State) : State :=
  let who : Requester := .wt w faults
  match w with
  | .entry i => issueOp (reservedOp who true (1 + i) (recordBlock i (s.entryAt i)) s.now) s
  | .emptied i => issueOp (reservedOp who true (1 + i) (recordBlock i none) s.now) s
  | .counter => issueOp (reservedOp who true 0 (counterBlock s.cat.counter) s.now) s
  | .head i label =>
    match s.entryAt i with
    | some e =>
      match s.locate e 0 with
      | some place => issueOp (chainOp who true place (e.headInfo label).block s.now) s
      | none => if s.cpe.current = some .labelWrite then respond .mediaFault 9 0 [] s else s
    | none => s

def issueSul (op : SulOp) (s : State) : State :=
  match op with
  | .readBlock offset => issueOp (reservedOp (.sul op) false offset [] s.now) s
  | .prepare offset _ => issueOp (reservedOp (.sul op) true offset (s.blankBlock offset) s.now) s
  | .head i _ =>
    match s.entryAt i with
    | some e =>
      match s.locate e 0 with
      | some place => issueOp (chainOp (.sul op) true place (e.headInfo e.label).block s.now) s
      | none => sulWriteDone true s
    | none => sulWriteDone true s

/-- The arbiter issues a request. -/
def issue (r : Requester) (s : State) : State :=
  let s := takeRequest r s
  match r with
  | .job j req => issueJob j req s
  | .wt w faults => issueWt w faults s
  | .map b faults => issueOp (reservedOp (.map b faults) true (2049 + b) (s.mapBlock b) s.now) s
  | .sul op => issueSul op s

/-- The requests that can complete without access to the store, one after another: a bound on the arbiter's choices. -/
def State.workBound (s : State) : Nat :=
  16 + s.cat.wt.length + (s.jt.jobs.map fun p => p.2.reqs.length + ((p.2.repairOf.map RepairJob.left).getD 0)).sum

/-- The arbiter chooses while the media port is IDLE (R38, R45). -/
def arbitrate : (fuel : Nat) → State → State
  | 0, s => s
  | fuel + 1, s =>
    if s.portState = .idle then
      match s.chosen with
      | some r => arbitrate fuel (issue r s)
      | none => s
    else s

/-- What follows a command that can give MED work or end one: a wake for waiting requests (R45), the arbiter (R38), ACT's
timer (R172) and DOZE once the work is drained (R174). -/
def settle (s : State) : State :=
  let s := wakeForWork s
  dozeIfDrained (followConditions (arbitrate s.workBound s))

/-! ## Operation outcomes (R41, R42, R43) -/

/-- What store block `addr` holds: what writes have left, or the free value of a block never written (log 9). -/
def State.storeBlock (s : State) (addr : Nat) : List Byte :=
  (smapGet s.med.store addr).getD (fitBytes 512 (Config.unwrittenBlock addr))

def setStore (addr : Nat) (b : List Byte) (s : State) : State := { s with med.store := smapSet s.med.store addr b }

/-- The outcome of a read is handed to its requester (R38, R41). -/
def readEnded (op : Issued) (outcome : ReadEnd) (block : List Byte) (s : State) : State :=
  match op.who with
  | .sul _ => sulReadDone (outcome == .ok) block s
  | .job j (.read q) =>
    match op.wanted, (s.jobAt j).map Job.body, s.jobEntry j with
    | true, some (.play _), some (i, _) => playRead j i q outcome block s
    | true, some (.repair _), some (i, _) => repairRead j i q outcome s
    | true, some _, some (i, _) => sendRead j i q outcome block s
    | _, _, _ => s
  | _ => s

/-- A write-through item completed OK (R6, R19, R28). -/
def wtWritten (w : WtItem) (s : State) : State :=
  match w with
  | .counter =>
    match s.cpe.current with
    | some (.start tag take) => respond .ok 4 tag take.bytes s
    | _ => s
  | .head i label =>
    let s := changeEntry i (fun e => { e with label := label }) s
    if s.cpe.current = some .labelWrite then respond .ok 9 0 [] s else s
  | _ => s

/-- The catalogue fault flag is set (R28): a START that waits is answered MEDIA_FAULT and its capture, if it has not ended,
ends as ABORT ends it (R54, log 13). -/
def catalogueFault (s : State) : State :=
  let s := setFault s
  match s.cpe.current with
  | some (.start _ _) =>
    let s := respond .mediaFault 4 0 [] s
    match s.captureJob with
    | some (j, _, _) => abortCapture j s
    | none => s
  | _ => s

/-- A write-through item completed WRITE_FAULT (R19, R28): issued again, dropped after the third fault in a row; a
head-block item is not issued again. An entry item in progress whose index was freed and created anew meanwhile is rebuilt as
any other, from the new entry, ahead of the counter item that waits (log 34). -/
def wtFaulted (w : WtItem) (faults : Nat) (s : State) : State :=
  match w with
  | .head _ _ => if s.cpe.current = some .labelWrite then respond .mediaFault 9 0 [] s else s
  | _ => if 2 ≤ faults then catalogueFault s else { s with cat.wtRetry := some (w, faults + 1) }

/-- A map write completed WRITE_FAULT (R44). -/
def mapFaulted (b faults : Nat) (s : State) : State :=
  if 2 ≤ faults then catalogueFault s else { s with med.mapRetry := some (b, faults + 1) }

/-- The blocks used of an append's chunk rises (R37). -/
def countAppend (op : Issued) (ok : Bool) (s : State) : State :=
  let append := match op.who with
    | .job _ (.append _) => true
    | .job _ .sound => true
    | _ => false
  match append && ok && op.wanted, op.chunk with
  | true, some c => setUsed c ((s.chunkAt c).used + 1) s
  | _, _ => s

/-- A write of a job has ended (R56, R132, R164, R167). A RECEIVE job's append that faulted stands at the front of the job's
list again and waits for the job's next turn (R43, log 35). -/
def jobWritten (j : Nat) (req : JobReq) (ok turned : Bool) (op : Issued) (s : State) : State :=
  match (s.jobAt j).map Job.body, req with
  | some (.capture _), _ => captureWritten j req ok turned (op.chunk.getD 0) op.offset s
  | some (.receive _), .append b =>
    if ok then finishReceive j s else modJob j (fun job => { job with reqs := .append b :: job.reqs }) s
  | some (.repair _), .inPlace q _ =>
    match s.jobEntry j with
    | some (i, _) => repairWritten j i q ok s
    | none => s
  | _, _ => s

/-- The outcome of a write is handed to its requester (R38, R42). -/
def writeEnded (op : Issued) (ok turned : Bool) (s : State) : State :=
  match op.who with
  | .sul _ => sulWriteDone ok s
  | .wt w faults => if ok then wtWritten w s else wtFaulted w faults s
  | .map b faults => if ok then s else mapFaulted b faults s
  | .job j req => if op.wanted then jobWritten j req ok turned op s else s

/-- The store after a write: its new contents, or after a fault a free value (log 9). -/
def storeAfter (op : Issued) (ok : Bool) (s : State) : State :=
  if ok then setStore op.addr op.data s
  else
    let b := takeFaultBlock s
    setStore op.addr b.1 b.2

/-- A fault in a chunk of a chain marks it BAD (R43). -/
def markFault (op : Issued) (ok : Bool) (s : State) : State :=
  match ok, op.chunk with
  | false, some c => markBad c s
  | _, _ => s

/-- The outcome turns the chunk written BAD (R43). -/
def State.turnsBad (s : State) (op : Issued) (ok : Bool) : Bool := !ok && op.chunk.any s.ownedChunk

/-- A write completes (R42, R43). -/
def finishWrite (op : Issued) (ok : Bool) (s : State) : State :=
  let s := storeAfter op ok { s with med.issued := none }
  settle (writeEnded op ok (s.turnsBad op ok) (countAppend op ok (markFault op ok s)))

/-- A read completes (R41). -/
def finishRead (op : Issued) (ok : Bool) (block : List Byte) (s : State) : State :=
  settle (readEnded op (if ok then .ok else .uncorrectable) block { s with med.issued := none })

end Sys2Proof.Machine
end

