-- ==== Sys2Proof/Machine/Operands.lean ====
section
/-! DEFINITION. Command records: taking them, their parameters, and the STATUS, INQUIRE and ENTRY_READ data (R179 to R182, R194). -/

namespace Sys2Proof.Machine

open Host

/-! ## Taking a command (R173, R179, R180) -/

/-- A command write outside READY (R179). -/
def ignoreWrite (s : State) : State := { s with cpe.refused := satAdd 65535 s.cpe.refused 1 }

/-- A command record with code `code` (R179, R180): outside READY it is ignored; in READY it is a reload event (R173), and
a parameter length other than `length` is answered BAD_PARAM. -/
def takeCommand (code length : Nat) (params : List Byte) (act : State → State) (s : State) :
    Outcome State Fault Refusal :=
  if s.cpe.port = .ready then
    .next (if params.length = length then act (reload s) else respond .badParam code 0 [] (reload s))
  else .next (ignoreWrite s)

/-! ## Parameters (R194) -/

/-- The take number in the first four parameter bytes. -/
def takeParam (params : List Byte) : TakeNo := takeOfValue (fieldAt params 0 4)

/-- What a command that names a take finds (R7). -/
inductive Named where
  | bad
  | absent
  | entry (index : Nat) (e : Entry)
  deriving DecidableEq, Repr

def State.named (s : State) (t : TakeNo) : Named :=
  if !t.valid then .bad
  else match s.findTake t with
    | some (i, e) => .entry i e
    | none => .absent

/-- ENTRY_READ's selector and value (R7, R182). -/
def State.selected (s : State) (params : List Byte) : Named :=
  let value := fieldAt params 1 4
  match (byteAt params 0).toNat with
  | 0 =>
    if 2047 < value then .bad
    else match s.entryAt value with
      | some e => .entry value e
      | none => .absent
  | 1 => s.named (takeOfValue value)
  | _ => .bad

/-- RETRIEVE's damaged policy. -/
def policyOf : Nat → Option DamagePolicy
  | 0 => some .deliver
  | 1 => some .silence
  | _ => none

/-- LABEL_WRITE's label: absent, or 64 bytes; another indication is out of range. -/
def labelParam (params : List Byte) : Option (Option (List Byte)) :=
  match (byteAt params 4).toNat with
  | 0 => some none
  | 1 => some (some ((params.drop 5).take 64))
  | _ => none

/-! ## Transactions of the command port (R194) and the read of the configuration image (R195) -/

/-- A record that ended before its code, its length byte and as many parameters as that byte says were clocked in. -/
def recordCut (record : List Byte) : Bool := record.length < 2 || record.length < 2 + (byteAt record 1).toNat

/-- The command a command write's bytes make (R194): bytes past the parameter length are not read. -/
def commandOfRecord (record : List Byte) : Instr :=
  let params := (record.drop 2).take (byteAt record 1).toNat
  if recordCut record then .unknownCommandCode record
  else match (byteAt record 0).toNat with
    | 1 => .status params
    | 2 => .inquire params
    | 3 => .arm params
    | 4 => .start params
    | 5 => .stop params
    | 6 => .abort params
    | 7 => .retrieve params
    | 8 => .cancel params
    | 9 => .labelWrite params
    | 10 => .labelRead params
    | 11 => .entryRead params
    | 12 => .withdraw params
    | 13 => .repair params
    | 14 => .eventRead params
    | 15 => .markInventory params
    | 16 => .softReset params
    | _ => .unknownCommandCode record

/-- What a transaction on the command port is, by its first byte (R194). Another first byte is none of these. -/
inductive Transaction where
  | statusRead
  | commandWrite (c : Instr)
  | responseRead
  | neither
  deriving DecidableEq, Repr

def transactionOf : List Byte → Transaction
  | [] => .neither
  | b :: rest =>
    match b.toNat with
    | 1 => .statusRead
    | 2 => .commandWrite (commandOfRecord rest)
    | 3 => .responseRead
    | _ => .neither

/-- A step of the two-wire line: SUL writes a byte, or reads one and acknowledges it or not (R195). -/
inductive WireStep where
  | start
  | write (b : Byte)
  | read (acknowledged : Bool)
  | stop
  deriving DecidableEq, Repr

/-- The sequential read of the image (R195): device address 50H with the write bit, word address 0, a repeated start, the
device address with the read bit, 21 bytes, the last not acknowledged. CONFIG_IMAGE_READ is its end. -/
def configImageSequence : List WireStep :=
  [.start, .write 0xA0, .write 0, .start, .write 0xA1] ++ List.replicate 20 (.read true) ++ [.read false, .stop]

/-! ## STATUS (R181, R194) -/

def PortStatus.code : PortStatus → Nat
  | .notReady => 0
  | .ready => 1
  | .busy => 2
  | .responseWaiting => 3

/-- What a status read returns (R194). -/
def State.portStatusBytes (s : State) : List Byte := beBytes 1 s.cpe.port.code ++ beBytes 1 s.cpe.events.length

def CaptureState.code : CaptureState → Nat
  | .armed => 1
  | .running => 2
  | .draining => 3

def ReplicateState.code : ReplicateState → Nat
  | .offering => 1
  | .assigning => 2
  | .sending => 3
  | .closing => 4

def PlayState.code : PlayState → Nat
  | .localStore => 1
  | .seeking => 2
  | .awaitingData => 3
  | .playing => 4
  | .draining => 5

def RepairState.code : RepairState → Nat
  | .verifying => 1
  | .head => 2
  | .seeking => 3
  | .awaitingData => 4
  | .receiving => 5
  | .finishing => 6

def Activity.code : Activity → Nat
  | .active => 0
  | .doze => 1
  | .sleep => 2
  | .waking => 3

/-- Stream buffer slots in use (R58, R70, R151, R159). -/
def Job.slotsInUse (job : Job) : Nat :=
  match job.body with
  | .capture c => c.ring.length + c.closed.length + if c.filling.isSome then 1 else 0
  | .play p => p.slots.length
  | _ => 0

/-- State, job tag and take number of a job, or zeros. -/
def jobItem (state : Nat) (job : Job) : List Byte := beBytes 1 state ++ beBytes 1 job.tag ++ beBytes 4 (takeValue job.take)

def State.captureItem (s : State) : List Byte :=
  match s.captureJob with
  | some (_, job, c) => jobItem c.state.code job
  | none => List.replicate 6 0

def State.replicateItem (s : State) : List Byte :=
  match (s.findKind .replicate).bind (fun p => p.2.replicateOf.map fun r => (p.2, r)) with
  | some (job, r) => jobItem r.state.code job
  | none => List.replicate 6 0

def State.playItem (s : State) : List Byte :=
  match (s.findKind .play).bind (fun p => p.2.playOf.map fun r => (p.2, r)) with
  | some (job, p) =>
    jobItem p.state.code job ++ beBytes 1 (match p.state with
                                           | .seeking => 0xFF
                                           | _ => s.playSource p)
      ++ beBytes 1 p.started.toNat ++ beBytes 2 p.underruns
  | none => List.replicate 10 0

def State.repairItem (s : State) : List Byte :=
  match (s.findKind .repair).bind (fun p => p.2.repairOf.map fun r => (p.2, r)) with
  | some (job, r) => jobItem r.state.code job
  | none => List.replicate 6 0

/-- The 78 bytes of STATUS (R194). -/
def State.statusData (s : State) : List Byte :=
  beBytes 1 s.cat.mark.toNat ++ beBytes 1 s.cat.fault.toNat ++ s.captureItem
    ++ beBytes 2 (s.jt.jobs.map fun p => p.2.slotsInUse).sum ++ s.replicateItem ++ s.playItem ++ s.repairItem
    ++ beBytes 2 (s.countKind .serve) ++ beBytes 2 (s.countJobs fun job => job.kind == .receive && !job.pledged)
    ++ beBytes 2 (s.countJobs Job.pledged) ++ beBytes 2 s.med.free ++ beBytes 2 s.med.pledged ++ beBytes 2 s.med.bad
    ++ beBytes 2 s.lif.errors ++ beBytes 2 s.lif.collisions ++ beBytes 2 s.lif.queue.length ++ beBytes 1 s.lif.lastSource
    ++ beBytes 2 s.hou.answers.length ++ beBytes 1 ((s.lif.mute.map MuteCause.code).getD 0) ++ beBytes 1 s.act.state.code
    ++ beBytes 1 s.act.dozeDue.toNat ++ beBytes 2 s.cpe.refused ++ beBytes 2 s.cpe.lost ++ beBytes 2 s.cpe.events.length
    ++ s.cpe.seen.flatMap (beBytes 2 ·)

/-- The 49 bytes of INQUIRE (R194): "Coldesta", "GN320", the revision (log 9), the settings, the capacities. -/
def State.inquireData (s : State) : List Byte :=
  let c := s.sul.cfg
  [0x43, 0x6F, 0x6C, 0x64, 0x65, 0x73, 0x74, 0x61] ++ [0x47, 0x4E, 0x33, 0x32, 0x30] ++ [Config.revision]
    ++ beBytes 1 c.address ++ beBytes 1 c.linkRate ++ beBytes 1 c.copiesWanted ++ beBytes 1 c.burstLimit
    ++ fitBytes 9 (c.knots.map (BitVec.ofNat 8 ·)) ++ beBytes 2 c.dozeDelay ++ beBytes 2 c.sleepDelay
    ++ beBytes 1 c.autoRepair.toNat ++ [c.eventMask] ++ beBytes 1 s.sul.defaulted.toNat ++ [s.sul.clamped]
    ++ beBytes 4 (min 0xFFFFFFFF s.med.capacity) ++ beBytes 2 s.med.total ++ beBytes 2 2048 ++ beBytes 2 8 ++ beBytes 2 96
    ++ beBytes 2 32

/-- The data of ENTRY_READ (R182, R194). -/
def State.entryData (s : State) (e : Entry) : List Byte :=
  e.record ++ beBytes 4 e.storedFrames ++ beBytes 4 e.storedBlocks ++ beBytes 1 e.jobRefs
    ++ beBytes 1 e.repairCondition.code ++ beBytes 1 s.cat.mark.toNat

end Sys2Proof.Machine
end

