-- ==== Sys2Proof/Machine/CommandRows.lean ====
section
/-! DEFINITION. The rows of the command port: the sixteen commands, the unknown ones, the ignored write and the response
read (Chapters 1, 3, 8, 9, 11). -/

namespace Sys2Proof.Machine

open Host

/-- A refusal: the outcome, and nothing else changes. -/
def refuse (result : Result) (code : Nat) (s : State) : State := respond result code 0 [] s

/-- STATUS (R181). -/
def execStatus (params : List Byte) (s : State) : Outcome State Fault Refusal :=
  takeCommand 1 0 params (fun s => respond .ok 1 0 s.statusData s) s

/-- INQUIRE (R181). -/
def execInquire (params : List Byte) (s : State) : Outcome State Fault Refusal :=
  takeCommand 2 0 params (fun s => respond .ok 2 0 s.inquireData s) s

/-! ## Capture (Chapter 3) -/

/-- A CAPTURE job in ARMED (R50, R51). -/
def armedCapture (f : Format) (preRoll : Nat) : CaptureJob :=
  { state := .armed, format := f, preRoll := preRoll, ring := [], filling := none, closed := [], offset := 0,
    discard := none, gaps := [], storedFrames := 0, soundBlocks := 0, check := crcEmpty, clips := 0, lastEnd := 0,
    cut := none, head := .none, headFaults := 0, headAgain := false, ending := none }

/-- ARM's tests and effect (R51). -/
def armCapture (params : List Byte) (s : State) : State :=
  match formatOfByte (byteAt params 0) with
  | none => refuse .badParam 3 s
  | some f =>
    if s.port.owner.isSome then refuse .streamBusy 3 s
    else if !s.jobFree then refuse .noSlot 3 s
    else
      let preRoll := min 64 (byteAt params 1).toNat
      let j := s.freeRecord
      let tag := s.nextJobTag
      let s := createJob (fun tag => freshJob tag s.own none none (.capture (armedCapture f preRoll))) s
      respond .ok 3 tag (beBytes 1 preRoll) (settle (takePort j .input s))

/-- ARM (R48, R51). -/
def execArm (params : List Byte) (s : State) : Outcome State Fault Refusal :=
  takeCommand 3 2 params (armCapture params) s

/-- Ring blocks take their timeline offsets, the oldest frame 0 (R54). -/
def placeRing : (at_ : Nat) → List SoundBlock → List SoundBlock
  | _, [] => []
  | n, b :: rest => { b with start := n } :: placeRing (n + b.frames) rest

/-- The ring becomes the take's first closed blocks (R54). -/
def CaptureJob.started (c : CaptureJob) : CaptureJob :=
  let n := (c.ring.map (·.frames)).sum
  { c with state := .running, ring := [], closed := placeRing 0 c.ring,
           filling := c.filling.map fun b => { b with start := n },
           offset := n + (c.filling.map (·.frames)).getD 0, discard := none, gaps := [], storedFrames := 0,
           soundBlocks := 0, check := crcEmpty, clips := 0, lastEnd := 0, cut := none }

/-- The CAPTURING entry (R4). -/
def newCapturing (take : TakeNo) (f : Format) (copies chunk : Nat) : Entry :=
  { take := take, role := .origin, state := .capturing, format := f, timelineLength := 0, storedFrames := 0,
    storedBlocks := 1, check := crcEmpty, gaps := [], clips := 0, endCause := none, label := none, holders := [],
    copiesWanted := copies, placement := .notNeeded, attempts := 0, damaged := [], damagedCount := 0, overflow := false,
    firstChunk := chunk, chunkCount := 1, jobRefs := 0, repairHold := none }

/-- An accepted START (R5, R6, R26, R33, R54). DESIGN CHOICE (log 57): also where a live entry holds the number issued (R7). -/
def startTake (j tag : Nat) (c : CaptureJob) (chunk : Nat) (s : State) : State :=
  let take : TakeNo := { node := s.own, seq := s.cat.counter + 1 }
  let i := s.lowestIndex
  let s := { s with cat.counter := s.cat.counter + 1 }
  let s := takeChunk chunk i 1 (createEntry i (newCapturing take c.format s.sul.cfg.copiesWanted chunk) [.counter] s)
  let s := modCapture j CaptureJob.started (modJob j (fun job => { job with take := some take }) s)
  settle (busyWith (.start tag take) (holdEntry j i s))

/-- START's tests (R5, R53). DESIGN CHOICE (log 49): a loaded counter above 134,217,727 refuses as that value does. -/
def startCapture (s : State) : State :=
  match s.captureJob with
  | none => refuse .locked 4 s
  | some (j, job, c) =>
    if c.state ≠ .armed then refuse .locked 4 s
    else if s.cat.fault then refuse .mediaFault 4 s
    else if s.catalogueFull then refuse .catalogueFull 4 s
    else if s.unpledged < 1 then refuse .mediaFull 4 s
    else if 134217727 ≤ s.cat.counter then refuse .mediaFault 4 s
    else
      match s.lowestFree with
      | some chunk => startTake j job.tag c chunk s
      | none => refuse .mediaFull 4 s

/-- START (R53, R54). -/
def execStart (params : List Byte) (s : State) : Outcome State Fault Refusal :=
  takeCommand 4 0 params (fun s => startCapture s) s

/-- STOP by the capture's state (R64). -/
def stopCapture (s : State) : State :=
  match s.captureJob with
  | none => refuse .locked 5 s
  | some (j, _, c) =>
    match c.state with
    | .armed => respond .ok 5 0 [] (settle (endJob j .ok none s))
    | .running => respond .ok 5 0 [] (settle (modCapture j (fun c => c.stopped.drained) s))
    | .draining => respond .ok 5 0 [] s

/-- STOP (R64). -/
def execStop (params : List Byte) (s : State) : Outcome State Fault Refusal :=
  takeCommand 5 0 params (fun s => stopCapture s) s

/-- ABORT by the capture's state (R67). -/
def abortTake (s : State) : State :=
  match s.captureJob with
  | none => refuse .locked 6 s
  | some (j, _, c) =>
    match c.state with
    | .armed => respond .ok 6 0 [] (settle (endJob j .ok none s))
    | .running | .draining => settle (abortCapture j (busyWith .abort s))

/-- ABORT (R67). -/
def execAbort (params : List Byte) (s : State) : Outcome State Fault Refusal :=
  takeCommand 6 0 params (fun s => abortTake s) s

/-! ## Retrieval (Chapter 8) -/

/-- A new PLAY job, before it has chosen its source (R140). -/
def newPlay (start frames : Nat) (policy : DamagePolicy) : PlayJob :=
  { state := .seeking, start := start, frames := frames, policy := policy, holder := none, exclusion := none,
    reseekUsed := false, grantedBlocks := none, answerWindow := none, grantWait := none, grantSent := false, shape := none,
    endOffset := 0, firstBlock := 1, blockCount := 0, cursor := start, started := false, underruns := 0,
    inUnderrun := false, pendingResult := none, slots := [], nextRead := 1, lastRead := 0 }

/-- The source a new PLAY job will choose (R142, R194): 0 LOCAL, 1 LINK. -/
def State.sourceOf (s : State) (t : TakeNo) (start frames : Nat) : Nat :=
  match s.playableEntry t with
  | some (_, e) => if e.cleanFor start frames || s.muted then 0 else 1
  | none => 1

/-- RETRIEVE's tests and effect (R141, R142). -/
def retrieveTake (params : List Byte) (s : State) : State :=
  let t := takeParam params
  let start := fieldAt params 4 4
  let frames := fieldAt params 8 4
  match t.valid, policyOf (byteAt params 12).toNat with
  | true, some policy =>
    if s.port.owner.isSome then refuse .streamBusy 7 s
    else if !s.jobFree then refuse .noSlot 7 s
    else if ((s.playableEntry t).map fun p => decide (p.2.timelineLength ≤ start)) = some true then refuse .badParam 7 s
    else
      let j := s.freeRecord
      let tag := s.nextJobTag
      let source := s.sourceOf t start frames
      let s := createJob (fun tag => freshJob tag s.own (some tag) (some t) (.play (newPlay start frames policy))) s
      respond .ok 7 tag (beBytes 1 source) (settle (chooseSource j t start frames (takePort j .output s)))
  | _, _ => refuse .badParam 7 s

/-- RETRIEVE (R141). -/
def execRetrieve (params : List Byte) (s : State) : Outcome State Fault Refusal :=
  takeCommand 7 13 params (retrieveTake params) s

/-- CANCEL ends the live job that holds the tag (R183). -/
def cancelJob (params : List Byte) (s : State) : State :=
  let tag := (byteAt params 0).toNat
  match s.findJob (fun job => job.tag == tag) with
  | none => respond .notFound 8 tag [] s
  | some (j, job) =>
    match job.captureOf with
    | some c =>
      match c.state with
      | .armed => respond .ok 8 tag [] (settle (endJob j .ok none s))
      | .running | .draining => settle (abortCapture j (busyWith (.cancel tag) s))
    | none => respond .ok 8 tag [] (settle (endJob j .cancelled (s.parting job .cancelled) s))

/-- CANCEL (R67, R114, R120, R150, R157, R168, R183). -/
def execCancel (params : List Byte) (s : State) : Outcome State Fault Refusal :=
  takeCommand 8 1 params (cancelJob params) s

/-! ## The catalogue (Chapters 1, 9, 11) -/

/-- The label of a CAPTURING entry (R18, R66): a head block being written is written once more. -/
def labelCapturing (i : Nat) (label : Option (List Byte)) (s : State) : State :=
  let s := changeEntry i (fun e => { e with label := label }) s
  let s := match s.captureJob with
    | some (j, job, _) =>
      if job.entry = some i then
        modCapture j (fun c => if c.head = .issued then { c with headAgain := true } else c) s
      else s
    | none => s
  respond .ok 9 0 [] (settle s)

/-- A HELD origin entry whose label may change (R18). -/
def Entry.labelFree (own : Nat) (e : Entry) : Bool :=
  e.state == .held && e.role == .origin && e.holders.all (· == own)
    && (e.placement == .notNeeded || (e.placement == .queued && e.attempts == 0))

/-- LABEL_WRITE's tests and effect (R18, R19). -/
def writeLabel (params : List Byte) (s : State) : State :=
  match labelParam params, s.named (takeParam params) with
  | none, _ => refuse .badParam 9 s
  | some _, .bad => refuse .badParam 9 s
  | some _, .absent => refuse .notFound 9 s
  | some label, .entry i e =>
    if e.state = .capturing then labelCapturing i label s
    else if e.labelFree s.own then settle (busyWith .labelWrite { s with cat.wt := s.cat.wt ++ [.head i label] })
    else refuse .locked 9 s

/-- LABEL_WRITE (R18). -/
def execLabelWrite (params : List Byte) (s : State) : Outcome State Fault Refusal :=
  takeCommand 9 69 params (writeLabel params) s

/-- LABEL_READ's answer (R20). -/
def readLabel (params : List Byte) (s : State) : State :=
  match s.named (takeParam params) with
  | .bad => refuse .badParam 10 s
  | .absent => refuse .notFound 10 s
  | .entry _ e => respond .ok 10 0 (labelBytes e.label) s

/-- LABEL_READ (R20). -/
def execLabelRead (params : List Byte) (s : State) : Outcome State Fault Refusal :=
  takeCommand 10 4 params (readLabel params) s

/-- ENTRY_READ's answer (R182). -/
def readEntry (params : List Byte) (s : State) : State :=
  match s.selected params with
  | .bad => refuse .badParam 11 s
  | .absent => refuse .notFound 11 s
  | .entry _ e => respond .ok 11 0 (s.entryData e) s

/-- ENTRY_READ (R182). -/
def execEntryRead (params : List Byte) (s : State) : Outcome State Fault Refusal :=
  takeCommand 11 5 params (readEntry params) s

/-- The NOTICE of a withdrawal (R16, R74): destination 63, job tag 0. -/
def State.droppedNotice (s : State) (t : TakeNo) : Frame :=
  { src := s.own, dst := 63, dir := .out, tag := 0, take := t, payload := .notice .dropped }

/-- WITHDRAW's tests and effect (R16). -/
def withdrawTake (params : List Byte) (s : State) : State :=
  match s.named (takeParam params) with
  | .bad => refuse .badParam 12 s
  | .absent => refuse .notFound 12 s
  | .entry i e =>
    if e.playable && e.jobRefs == 0 then
      respond .ok 12 0 [] (settle (addNotice (s.droppedNotice e.take) (freeEntry i s)))
    else refuse .locked 12 s

/-- WITHDRAW (R16). -/
def execWithdraw (params : List Byte) (s : State) : Outcome State Fault Refusal :=
  takeCommand 12 4 params (withdrawTake params) s

/-- REPAIR's tests and effect (R162). -/
def repairTake (params : List Byte) (s : State) : State :=
  match s.named (takeParam params) with
  | .bad => refuse .badParam 13 s
  | .absent => refuse .notFound 13 s
  | .entry i e =>
    if !e.playable then refuse .locked 13 s
    else if e.repairCondition = .clean then refuse .notFound 13 s
    else if s.countKind .repair ≠ 0 ∨ !s.jobFree then refuse .noSlot 13 s
    else respond .ok 13 s.nextJobTag [] (settle (createRepair i e s))

/-- REPAIR (R162). -/
def execRepair (params : List Byte) (s : State) : Outcome State Fault Refusal :=
  takeCommand 13 4 params (repairTake params) s

/-- EVENT_READ's answer (R185). -/
def readEvent (s : State) : State :=
  match s.cpe.events with
  | [] => refuse .notFound 14 s
  | e :: rest => respond .ok 14 0 e.bytes { s with cpe.events := rest }

/-- EVENT_READ (R185). -/
def execEventRead (params : List Byte) (s : State) : Outcome State Fault Refusal :=
  takeCommand 14 0 params (fun s => readEvent s) s

/-- MARK_INVENTORY (R21). -/
def execMarkInventory (params : List Byte) (s : State) : Outcome State Fault Refusal :=
  takeCommand 15 0 params (fun s => respond .ok 15 0 [] { s with cat.mark := false }) s

/-! ## SOFT_RESET (R88, R190) -/

/-- Every job ends (R190); a capture with a take is wound up by R68. DESIGN CHOICE (log 58): in record order. -/
def softEndJobs : List (Nat × Job) → State → State
  | [], s => s
  | (j, job) :: rest, s =>
    softEndJobs rest
      (match job.captureOf with
       | some c => if c.state = .armed then endJobSoftly j s else softResetCapture j s
       | none => endJobSoftly j s)

/-- The link after SOFT_RESET (R88): HOU, the notes and the queue are emptied, then the ABANDON frames are taken. -/
def softResetLink (partings : List Frame) (s : State) : State :=
  let s := txEmpty (removeAnswers (fun _ => true) { s with notes := [], lif.errors := 0, lif.collisions := 0 })
  let s := if s.lif.sending.isSome then { s with lif.endBurst := true } else endBurst s
  givePartings partings s

/-- SOFT_RESET's effect (R190): answered OK at once, or by `softHeadDone` when it waits for a capture (log 19). -/
def softReset (s : State) : State :=
  let t := softResetLink s.resetPartings (softEndJobs s.jt.jobs (busyWith .softReset s))
  settle (if t.jt.jobs.isEmpty then finishSoftReset t else t)

/-- SOFT_RESET (R190). -/
def execSoftReset (params : List Byte) (s : State) : Outcome State Fault Refusal :=
  takeCommand 16 0 params (fun s => softReset s) s

/-! ## The port itself (R179, R180) -/

/-- COMMAND_WRITE_IGNORED (R179): outside READY. -/
def execCommandWriteIgnored (s : State) : Outcome State Fault Refusal :=
  if s.cpe.port = .ready then .fault .notThisRow else .next (ignoreWrite s)

/-- RESPONSE_READ (R179, R194). -/
def execResponseRead (s : State) : Outcome State Fault Refusal :=
  match s.cpe.port with
  | .notReady => .next { s with cpe.out := Response.bytes { result := .notReady, code := 0, tag := 0, data := [] } }
  | .ready | .busy => .next { s with cpe.out := [0xFF] }
  | .responseWaiting =>
    .next { s with cpe.port := .ready, cpe.response := none, cpe.out := (s.cpe.response.map Response.bytes).getD [0xFF] }

/-- UNKNOWN_COMMAND_CODE (R180, R194): an unknown code, or a record cut short of its parameter length (log 6). -/
def execUnknownCommandCode (record : List Byte) (s : State) : Outcome State Fault Refusal :=
  let code := (byteAt record 0).toNat
  if recordCut record = false ∧ 1 ≤ code ∧ code ≤ 16 then .fault .notThisRow
  else if s.cpe.port = .ready then .next (respond .badParam code 0 [] (reload s))
  else .next (ignoreWrite s)

end Sys2Proof.Machine
end

