-- ==== Sys2Proof/Machine/Reports.lean ====
section
/-! DEFINITION. LIF's reports to the owner of a frame (R82, R84): what each kind of job does when its frame is SENT or DROPPED. -/

namespace Sys2Proof.Machine

/-- The GRANT is reported SENT: the receiver side begins and the grant wait runs (R122, R130, R146, R165). -/
def grantReportedSent (j : Nat) (s : State) : State :=
  match (s.jobAt j).map Job.body with
  | some (.play p) =>
    if p.state = .awaitingData then
      modPlay j (fun p => { p with grantSent := true, grantWait := some (s.now + 500) })
        (modJob j (fun job => { job with rcv := some (newReceiver s.now none false) }) s)
    else s
  | some (.repair r) =>
    if r.state = .awaitingData then
      modRepair j (fun r => { r with grantSent := true, grantWait := some (s.now + 500) })
        (modJob j (fun job => { job with
          rcv := some (newReceiver s.now (some { head := false, first := r.first, count := r.count }) false) }) s)
    else s
  | _ => s

/-- The SEEK is reported SENT: the answer window runs (R145, R165). -/
def seekReportedSent (j : Nat) (s : State) : State :=
  match (s.jobAt j).map Job.body with
  | some (.play p) =>
    if p.state = .seeking then modPlay j (fun p => { p with answerWindow := some (s.now + 250) }) s else s
  | some (.repair r) =>
    if r.state = .seeking then modRepair j (fun r => { r with answerWindow := some (s.now + 250) }) s else s
  | _ => s

/-- The DONE is reported SENT (R112, R136). -/
def doneReportedSent (j : Nat) (s : State) : State :=
  match (s.jobAt j).map Job.body with
  | some (.replicate _) => replicateDoneSent j s
  | some (.serve _) => endJob j .ok none s
  | _ => s

/-- SENT is reported to job `j` (R84). -/
def reportSent (j : Nat) (f : Frame) (s : State) : State :=
  match f.payload with
  | .place .. => modReplicate j (fun r => { r with timer := some (s.now + 250) }) s
  | .assign _ => assignSent j s
  | .done .. => doneReportedSent j s
  | .seek .. => seekReportedSent j s
  | .grant _ => grantReportedSent j s
  | .bid _ => modReceive j (fun r => { r with bid := .sent }) s
  | .data .. | .step .. | .notice _ | .abandon _ | .haveTake .. => s

/-- DROPPED is reported to job `j` (R82): LINK_CONGESTED; a STEP ends the transfer of a PLAY job past its head block, and
of a REPAIR job that is receiving, as R156 and R167 state (log 26). -/
def reportDropped (j : Nat) (f : Frame) (s : State) : State :=
  match (s.jobAt j).map Job.body, f.payload.isStep with
  | some (.play p), true =>
    if p.headAccepted && (p.state == .playing || p.state == .draining) then pendPlay j .linkCongested s
    else endJob j .linkCongested none s
  | some (.repair r), true =>
    if r.state = .receiving ∨ r.state = .finishing then stopRepair j .linkCongested s
    else endJob j .linkCongested none s
  | _, _ => endJob j .linkCongested none s

/-- A report to the owner, if the frame has one. -/
def reportTo (owner : Option Nat) (report : Nat → State → State) (s : State) : State :=
  match owner with
  | some j => report j s
  | none => s

/-- The producer of the front frame. -/
def State.frontOwner (s : State) : Option Nat := s.lif.queue.head?.bind TxFrame.owner

/-- An answer record by its creation order. -/
def State.answerRecord (s : State) (order : Nat) : Option HoldRec := s.hou.answers.find? (fun r => r.order == order)

/-- An answer record is gone from HOU. -/
def dropAnswer (order : Nat) (s : State) : State :=
  { s with hou.answers := s.hou.answers.filter (fun r => r.order ≠ order) }

/-- The owner an answer record reports to: none once it is doomed (R101). -/
def HoldRec.reportsTo (r : HoldRec) : Option Nat := if r.doomed then none else r.owner

/-- The frame is removed and SENT is reported (R84, R99, R101, R102). -/
def frameGone (x : Sending) (s : State) : State :=
  match x.source with
  | .answer o => reportTo ((s.answerRecord o).bind HoldRec.reportsTo) (fun j s => reportSent j x.frame s) (dropAnswer o s)
  | .front => reportTo s.frontOwner (fun j s => reportSent j x.frame s) (txPop s)
  | .orphan => s

/-- After the medium's state is the sender's again: the short gap, or the burst's end (R80, R88). -/
def afterFrame (s : State) : State :=
  if s.lif.endBurst || s.lif.carrier then endBurst s else { s with lif.gap := true }

/-- The draws of a collision (R94, R95). -/
def drawExtra (count : Nat) (s : State) : Nat × State :=
  let d := lfsrDraws count s.lif.lfsr
  (d.1, { s with lif.lfsr := d.2 })

/-- An answer frame has collided (R81, R82, R95, R101). -/
def answerCollided (r : HoldRec) (f : Frame) (s : State) : State :=
  if r.doomed then dropAnswer r.order s
  else if 7 ≤ r.collisions then reportTo r.owner (fun j s => reportDropped j f s) (dropAnswer r.order s)
  else
    let d := drawExtra (r.collisions + 1) s
    { d.2 with hou.answers := d.2.hou.answers.map fun x => if x.order = r.order then x.collided d.1 else x }

/-- The front frame has collided (R78, R81, R82, R95). -/
def frontCollided (r : HoldRec) (f : Frame) (s : State) : State :=
  if 7 ≤ r.collisions then reportTo s.frontOwner (fun j s => reportDropped j f s) (txPop s)
  else
    let d := drawExtra (r.collisions + 1) s
    { d.2 with hou.plain := some (r.collided d.1) }

/-- What a collision does to the frame that was cut. -/
def frameCut (x : Sending) (s : State) : State :=
  match x.source with
  | .answer o =>
    match s.answerRecord o with
    | some r => answerCollided r x.frame s
    | none => s
  | .front =>
    match s.hou.plain with
    | some r => frontCollided r x.frame s
    | none => s
  | .orphan => s

end Sys2Proof.Machine
end

