-- ==== Sys2Proof/Machine/FrameRows.lean ====
section
/-! DEFINITION. The rows of a heard carrier period: bad, malformed, duplicate address, and the eleven kinds of frame (R73 to R75). -/

namespace Sys2Proof.Machine

open Host

/-! ## Taking what was heard (R73, R75, R173; log 4) -/

/-- The link error counter rises (R83). -/
def countError (s : State) : State := { s with lif.errors := satAdd 65535 s.lif.errors 1 }

def clearHeard (s : State) : State := { s with lif.heard := none }

/-- A good frame of kind `kind` is taken: addressed to the node it is a reload event (R75, R173), then its uses follow. -/
def takeFrameOf (kind : Nat) (use : Frame → State → State) (s : State) : Outcome State Fault Refusal :=
  match s.lif.heard with
  | some (.good f) =>
    if f.payload.kindCode = kind then
      let s := clearHeard s
      .next (settle (use f (if f.dst = s.own then reload s else s)))
    else .fault .notHeard
  | _ => .fault .notHeard

/-- BAD_FRAME (R73, R83). -/
def execBadFrame (s : State) : Outcome State Fault Refusal :=
  match s.lif.heard with
  | some .bad => .next (countError (clearHeard s))
  | _ => .fault .notHeard

/-- MALFORMED_FRAME (R73, R83, R192). -/
def execMalformedFrame (s : State) : Outcome State Fault Refusal :=
  match s.lif.heard with
  | some .malformed => .next (countError (clearHeard s))
  | _ => .fault .notHeard

/-- DUPLICATE_ADDRESS (R85, R86). -/
def execDuplicateAddress (s : State) : Outcome State Fault Refusal :=
  match s.lif.heard with
  | some .duplicate =>
    let s := clearHeard s
    .next (if s.muted then s else settle (enterMute .duplicateAddress s))
  | _ => .fault .notHeard

/-! ## Matching a job (R74) -/

/-- A job this node opened takes the frame. -/
def Job.opened (own : Nat) (f : Frame) (job : Job) : Bool :=
  (job.kind == .replicate || job.kind == .play || job.kind == .repair) && f.dir == .back && f.dst == own
    && job.exTag == some f.tag && job.take == some f.take

/-- An answering job takes the frame. The destination is tested for an ASSIGN to a PLEDGED job too (log 39). -/
def Job.answering (own : Nat) (f : Frame) (job : Job) : Bool :=
  (job.kind == .receive || job.kind == .serve) && f.dir == .out && f.src == job.opener
    && job.exTag == some f.tag && job.take == some f.take && (f.dst == own || f.dst == 63)

/-- The live job that takes the frame (R74). DESIGN CHOICE (log 51): of two SERVE jobs of one exchange the lowest-numbered record
takes it alone. -/
def State.jobFor (s : State) (f : Frame) : Option (Nat × Job) :=
  s.findJob fun job => job.opened s.own f || job.answering s.own f

/-! ## HOU's uses (R103, R104) -/

/-- A HAVE or GRANT of the exchange cancels pending HAVEs (R103). -/
def cancelHaves (requester : Nat) (f : Frame) (s : State) : State :=
  removeAnswers (fun r => r.isHave && r.answers requester f.tag f.take) s

/-- A BID record is cancelled, and CANCELLED is reported to its PLEDGED job (R104, R118). -/
def cancelBid (r : HoldRec) (s : State) : State :=
  let s := removeAnswers (fun x => x.order == r.order) s
  match r.owner with
  | some j =>
    match s.jobAt j with
    | some job => if job.pledged then endJob j .cancelled none s else s
    | none => s
  | none => s

/-- A pending BID record of the exchange. -/
def State.bidRecord (s : State) (opener : Nat) (f : Frame) : Option HoldRec :=
  s.hou.answers.find? (fun r => !r.isHave && r.answers opener f.tag f.take)

/-- A bidder is counted (R104). -/
def BidCount.count (src : Nat) (b : BidCount) : BidCount :=
  if b.exclusion.contains src || b.heard.contains src then b else { b with heard := b.heard ++ [src] }

/-- The counts of the BID records of an exchange change. -/
def modBids (opener : Nat) (f : Frame) (g : BidCount → BidCount) (s : State) : State :=
  { s with hou.answers := s.hou.answers.map fun r =>
      if !r.isHave && r.answers opener f.tag f.take then { r with bids := r.bids.map g } else r }

/-- A BID heard reaches HOU (R104). -/
def houBid (f : Frame) (s : State) : State :=
  if f.dir = .back then
    let s := modBids f.dst f (BidCount.count f.src) s
    match s.bidRecord f.dst f with
    | some r =>
      match r.bids with
      | some b => if b.wanted ≤ b.heard.length then cancelBid r s else s
      | none => s
    | none => s
  else s

/-- An ASSIGN heard reaches HOU (R104). -/
def houAssign (f : Frame) (s : State) : State :=
  if f.dir = .out then
    match s.bidRecord f.src f with
    | some r => cancelBid r s
    | none => s
  else s

/-- An ABANDON heard reaches HOU (R104). -/
def houAbandon (f : Frame) (s : State) : State :=
  if f.dir = .back then modBids f.dst f (fun b => { b with heard := b.heard.filter (· ≠ f.src) }) s else s

/-! ## SEEK (R148, R166) -/

/-- The tests of R148 and R166 that both purposes share, on the entry found. -/
def State.holderMay (s : State) (exclusion : List Nat) : Bool :=
  s.linkStanding && !exclusion.contains s.own && s.countKind .serve < 3 && s.jobFree && s.notes.length < 6

/-- The stretch test (R148), or the range and clean-range tests (R166). -/
def Entry.answersSeek (e : Entry) (start : Nat) (purpose : Purpose) (first count : Nat) : Bool :=
  match purpose with
  | .play => start < e.timelineLength
  | .repair =>
    first ≠ 0 && first + count - 1 < e.storedBlocks && !e.overflow
      && !e.damaged.any (fun q => first ≤ q && q < first + count)

/-- The HAVE for entry `e` (R148, R192). DESIGN CHOICE (log 78): R166 has a REPAIR exchange's HAVE record the first block and the
count too, but neither R192's payload nor R89's record has a field for them; the answer note alone keeps them. -/
def State.haveFrame (s : State) (f : Frame) (e : Entry) : Frame :=
  { src := s.own, dst := f.src, dir := .back, tag := f.tag, take := f.take,
    payload := .haveTake (e.state == .incomplete) e.role e.damagedCount e.storedBlocks e.check }

/-- The note is of the exchange (requester, tag, take). -/
def AnswerNote.of (requester tag : Nat) (take : TakeNo) (n : AnswerNote) : Bool :=
  n.requester == requester && n.tag == tag && n.take == take

/-- A note is appended; the list keeps one for each exchange (R148), the newest (log 44). -/
def keepNote (n : AnswerNote) (s : State) : State :=
  { s with notes := s.notes.filter (fun x => !x.of n.requester n.tag n.take) ++ [n] }

/-- The node answers a SEEK (R91, R148, R175): a reload and a wake event whether or not HOU takes the HAVE; a note if it
does. -/
def answerSeek (f : Frame) (e : Entry) (purpose : Purpose) (start frames first count : Nat) (s : State) : State :=
  let base := s.haveBase s.act.state e
  let s := wake (reload s)
  if s.houTakes true f.src f.tag f.take then
    addAnswer (s.haveFrame f e) none f.src base none (some (s.now + 250))
      (keepNote { requester := f.src, tag := f.tag, take := f.take, purpose := purpose, start := start, frames := frames,
                  first := first, count := count, lapse := s.now + 1000 } s)
  else s

/-- A SEEK reaches the holder-side test (R75, R148, R166). -/
def useSeek (f : Frame) (s : State) : State :=
  match f.payload with
  | .seek start frames purpose first count exclusion =>
    match s.playableEntry f.take with
    | some (_, e) =>
      if s.holderMay exclusion && e.answersSeek start purpose first count then
        answerSeek f e purpose start frames first count s
      else s
    | none => s
  | _ => s

/-- SEEK_RECEIVED (R75, R148, R166). -/
def execSeekReceived (s : State) : Outcome State Fault Refusal := takeFrameOf 1 useSeek s

/-! ## HAVE (R145, R165) -/

/-- A PLAY job takes a HAVE (R145). -/
def playHave (j src storedBlocks : Nat) (s : State) : State :=
  match (s.jobAt j).bind Job.playOf with
  | some p =>
    if p.state = .seeking ∧ p.exclusion ≠ some src then
      giveGrant j src (modPlay j (fun p =>
        { p with state := .awaitingData, holder := some src, grantedBlocks := some storedBlocks, answerWindow := none,
                 grantSent := false }) s)
    else s
  | none => s

/-- A REPAIR job takes a HAVE that carries its entry's stored blocks and check value (R165). -/
def repairHave (j src storedBlocks : Nat) (check : Check) (s : State) : State :=
  match (s.jobAt j).bind Job.repairOf, s.jobEntry j with
  | some r, some (_, e) =>
    if r.state = .seeking ∧ storedBlocks = e.storedBlocks ∧ check = e.check then
      giveGrant j src (modRepair j (fun r =>
        { r with state := .awaitingData, holder := some src, answerWindow := none, grantSent := false }) s)
    else s
  | _, _ => s

/-- A HAVE's uses (R75): CAT, the job, HOU. -/
def useHave (f : Frame) (s : State) : State :=
  match f.payload with
  | .haveTake _ _ _ storedBlocks check =>
    let s := learnHolder f.take f.src s
    let s := match s.jobFor f with
      | some (j, job) =>
        match job.body with
        | .play _ => playHave j f.src storedBlocks s
        | .repair _ => repairHave j f.src storedBlocks check s
        | _ => s
      | none => s
    if f.dir = .back then cancelHaves f.dst f s else s
  | _ => s

/-- HAVE_RECEIVED (R103, R145, R165, R170). -/
def execHaveReceived (s : State) : Outcome State Fault Refusal := takeFrameOf 2 useHave s

/-! ## GRANT (R149) -/

/-- The note of an exchange. -/
def State.noteFor (s : State) (f : Frame) : Option AnswerNote :=
  s.notes.find? (AnswerNote.of f.src f.tag f.take)

/-- The tests of R149 when the GRANT names the own address. That a SOFT_RESET waits for a capture is none of them: a SERVE job
created then ends with that reset (log 43). -/
def serveIfFree (n : AnswerNote) (s : State) : State :=
  match s.playableEntry n.take with
  | some (i, e) =>
    if s.linkStanding && s.countKind .serve < 3 && s.jobFree then createServe n i e s else s
  | none => s

/-- A GRANT's uses (R75, R103, R149). -/
def useGrant (f : Frame) (s : State) : State :=
  match f.payload with
  | .grant holder =>
    if f.dir = .out then
      let s := cancelHaves f.src f s
      match s.noteFor f with
      | some n =>
        let s := { s with notes := s.notes.filter (fun x => x ≠ n) }
        if holder = s.own then serveIfFree n s else s
      | none => s
    else s
  | _ => s

/-- GRANT_RECEIVED (R103, R149). -/
def execGrantReceived (s : State) : Outcome State Fault Refusal := takeFrameOf 3 useGrant s

/-! ## PLACE, BID, ASSIGN (R108, R116, R119) -/

/-- A PLACE reaches the bidder's test (R116, R117, R173). -/
def usePlace (f : Frame) (s : State) : State :=
  match f.payload with
  | .place storedBlocks format copies wanted exclusion =>
    if s.bidderPasses f.take storedBlocks exclusion then
      makeBid f storedBlocks format copies wanted exclusion (reload s)
    else s
  | _ => s

/-- PLACE_RECEIVED (R116, R117). -/
def execPlaceReceived (s : State) : Outcome State Fault Refusal := takeFrameOf 4 usePlace s

/-- A BID's uses (R75, R104, R108). -/
def useBid (f : Frame) (s : State) : State :=
  match f.payload with
  | .bid freeChunks =>
    houBid f (match s.jobFor f with
      | some (j, _) => takeBid j f.src freeChunks s
      | none => s)
  | _ => s

/-- BID_RECEIVED (R104, R108). -/
def execBidReceived (s : State) : Outcome State Fault Refusal := takeFrameOf 5 useBid s

/-- An ASSIGN's uses (R75, R104, R119): the job takes it before HOU cancels the BID. -/
def useAssign (f : Frame) (s : State) : State :=
  match f.payload with
  | .assign addresses =>
    houAssign f (match s.jobFor f with
      | some (j, _) => receiveAssign j addresses s
      | none => s)
  | _ => s

/-- ASSIGN_RECEIVED (R104, R119). -/
def execAssignReceived (s : State) : Outcome State Fault Refusal := takeFrameOf 6 useAssign s

/-! ## DATA, STEP, DONE (Chapter 7) -/

/-- A good DATA restarts the inactivity timer (R131, R135); a completed transfer keeps it stopped. -/
def touchReceiver (now : Nat) (running : Bool) (r : Receiver) : Receiver :=
  if running then { r with inactivity := some (now + 500) } else r

/-- A DATA frame after its job's own tests (R131): `accept` hands on an accepted block. -/
def receiveData (j seq : Nat) (damaged : Bool) (block : List Byte) (accept : State → State) (s : State) : State :=
  match (s.jobAt j).bind (·.rcv) with
  | some r =>
    match r.classify seq damaged block with
    | .accept => accept s
    | .outOfOrder => discardData j true s
    | .duplicate => discardData j false s
  | none => s

/-- A receiver whose transfer is not complete restarts its inactivity timer. -/
def touchOwed (j : Nat) (s : State) : State := modRcv j (fun r => touchReceiver s.now r.owed r) s

/-- DATA reaches a PLAY job from its granted holder (R122, R131, R146). -/
def playData (j seq : Nat) (damaged : Bool) (block : List Byte) (s : State) : State :=
  receiveData j seq damaged block (playAccept j seq damaged block)
    (touchOwed j (modPlay j (fun p =>
      if p.state = .awaitingData then { p with state := .playing, grantWait := none } else p) s))

/-- DATA reaches a REPAIR job from its granted holder (R122, R131, R165). -/
def repairData (j seq : Nat) (damaged : Bool) (block : List Byte) (s : State) : State :=
  receiveData j seq damaged block (repairAccept j seq damaged block)
    (touchOwed j (modRepair j (fun r =>
      if r.state = .awaitingData then { r with state := .receiving, grantWait := none } else r) s))

/-- DATA reaches a RECEIVE job in RECEIVING (R131); its timer stays stopped once a DONE has matched (R137). -/
def copyData (j seq : Nat) (damaged : Bool) (block : List Byte) (r : ReceiveJob) (s : State) : State :=
  receiveData j seq damaged block (receiveAccept j seq damaged block)
    (modRcv j (touchReceiver s.now r.matched.isNone) s)

/-- A DATA frame's use (R75, R131). -/
def useData (f : Frame) (s : State) : State :=
  match f.payload with
  | .data seq damaged block =>
    match s.jobFor f with
    | some (j, job) =>
      if job.rcv.isNone then s
      else match job.body with
        | .play p => if p.holder = some f.src then playData j seq damaged block s else s
        | .repair r => if r.holder = some f.src then repairData j seq damaged block s else s
        | .receive r => copyData j seq damaged block r s
        | _ => s
    | none => s
  | _ => s

/-- DATA_RECEIVED (R131, R132). -/
def execDataReceived (s : State) : Outcome State Fault Refusal := takeFrameOf 7 useData s

/-- A STEP's use (R75, R127). -/
def useStep (f : Frame) (s : State) : State :=
  match f.payload with
  | .step seq credit =>
    match s.jobFor f with
    | some (j, _) => senderStep j f.src seq credit s
    | none => s
  | _ => s

/-- STEP_RECEIVED (R127). -/
def execStepReceived (s : State) : Outcome State Fault Refusal := takeFrameOf 8 useStep s

/-- A DONE restarts the inactivity timer of a PLAY or REPAIR job if it runs (R136). -/
def touchRunning (j : Nat) (s : State) : State :=
  modRcv j (fun r => touchReceiver s.now r.inactivity.isSome r) s

/-- A DONE's uses (R75, R136, R137, R170). -/
def useDone (f : Frame) (s : State) : State :=
  match f.payload with
  | .done total check =>
    let s := learnHolder f.take f.src s
    match s.jobFor f with
    | some (j, job) =>
      match job.body with
      | .receive _ => receiveDone j total check s
      | .play p => if p.holder = some f.src then touchRunning j s else s
      | .repair r => if r.holder = some f.src then touchRunning j s else s
      | _ => s
    | none => s
  | _ => s

/-- DONE_RECEIVED (R136, R137, R170). -/
def execDoneReceived (s : State) : Outcome State Fault Refusal := takeFrameOf 9 useDone s

/-! ## NOTICE and ABANDON (R112, R139, R170) -/

/-- The REPLICATE job in CLOSING takes a NOTICE by its take number (R74, R112). -/
def placementNotice (f : Frame) (status : MemberStatus) (s : State) : State :=
  match s.findKind .replicate with
  | some (j, job) => if job.take = some f.take then memberAnswers j f.src status s else s
  | none => s

/-- A NOTICE's uses (R75, R112, R170). -/
def useNotice (f : Frame) (s : State) : State :=
  match f.payload with
  | .notice .holds => placementNotice f .confirmed (learnHolder f.take f.src s)
  | .notice .dropped => placementNotice f .failed (forgetHolder f.take f.src s)
  | _ => s

/-- NOTICE_RECEIVED (R112, R170). -/
def execNoticeReceived (s : State) : Outcome State Fault Refusal := takeFrameOf 10 useNotice s

/-- The granted holder abandons a PLAY job (R139, R147, R156). -/
def playAbandoned (j : Nat) (reason : AbandonReason) (p : PlayJob) (s : State) : State :=
  match p.state with
  | .awaitingData => holderFailed j s
  | .playing => if p.headAccepted then pendPlay j reason.result s else holderFailed j s
  | _ => s

/-- The granted holder abandons a REPAIR job (R139, R165, R167). -/
def repairAbandoned (j : Nat) (reason : AbandonReason) (r : RepairJob) (s : State) : State :=
  match r.state with
  | .awaitingData => endJob j reason.result none s
  | .receiving => stopRepair j reason.result s
  | _ => s

/-- An ABANDON's uses (R75, R104, R139). -/
def useAbandon (f : Frame) (s : State) : State :=
  match f.payload with
  | .abandon reason =>
    let s := houAbandon f s
    match s.jobFor f with
    | some (j, job) =>
      match job.body with
      | .replicate _ => replicateAbandoned j f.src s
      | .receive r => endJob j (if r.receiving then reason.result else .cancelled) none s
      | .serve _ => endJob j reason.result none s
      | .play p => if p.holder = some f.src then playAbandoned j reason p s else s
      | .repair r => if r.holder = some f.src then repairAbandoned j reason r s else s
      | .capture _ => s
    | none => s
  | _ => s

/-- ABANDON_RECEIVED (R104, R108, R139). -/
def execAbandonReceived (s : State) : Outcome State Fault Refusal := takeFrameOf 11 useAbandon s

end Sys2Proof.Machine
end

