-- ==== Sys2Proof/Machine/LinkRows.lean ====
section
/-! DEFINITION. The rows of the medium: carrier, the idle gap, hold-off phases, bursts, frames sent and cut (Chapters 4, 5). -/

namespace Sys2Proof.Machine

open Host

/-- The node hears a carrier period that begins now (R72, R79, R80, R100, R101): the medium is BUSY, counts freeze, frames
released and not started return to their offset phase, and a burst waiting in its short gap ends (log 22). -/
def hearCarrier (s : State) : State :=
  let s := if s.lif.gap then endBurst s else s
  onRecords HoldRec.freeze (unreleaseAll { s with lif.medium := .busy, lif.absent := 0, lif.rxOpen := true })

/-- CARRIER_APPEARS (R71, R72, R73). -/
def execCarrierAppears (s : State) : Outcome State Fault Refusal :=
  if s.lif.carrier then .fault .mediumState
  else
    let s := { s with lif.carrier := true }
    if s.lif.listening && s.lif.sending.isNone then .next (hearCarrier s)
    else .next { s with lif.rxOpen := false }

/-- The class of a carrier period that has ended, waiting for its row (R73, R85). -/
def State.heardAs (s : State) (c : FrameClass) : Heard :=
  match c with
  | .good f => if f.src = s.own then .duplicate else .good f
  | .bad => .bad
  | .malformed => .malformed

/-- The carrier period is tested and classed; a good frame sets last-source (R73, R76, R85; log 4). -/
def hearPeriod (bytes : List Byte) (s : State) : State :=
  let c := classify bytes
  let last := match c with
    | .good f => f.src
    | _ => s.lif.lastSource
  { s with lif.heard := some (s.heardAs c), lif.lastSource := last, lif.rxOpen := false }

/-- CARRIER_ENDS (R72, R73). -/
def execCarrierEnds (bytes : List Byte) (s : State) : Outcome State Fault Refusal :=
  if s.lif.carrier = false then .fault .mediumState
  else
    let s := { s with lif.carrier := false }
    if s.lif.listening && s.lif.sending.isNone then
      let s := { s with lif.medium := .settling, lif.absent := 0 }
      .next (if s.lif.rxOpen then hearPeriod bytes s else s)
    else .next { s with lif.rxOpen := false }

/-- IDLE_GAP_ELAPSED (R72, R98, R100): counts begin or resume. -/
def execIdleGapElapsed (s : State) : Outcome State Fault Refusal :=
  if s.lif.listening && s.lif.medium == .settling && !s.lif.gap && !s.lif.carrier then
    let s := passBitTimes (48 - s.lif.absent) s
    .next (onRecords (HoldRec.resume s.holdOffset) { s with lif.medium := .idle })
  else .fault .mediumState

/-- The hold-off record an event names (R89). -/
def State.record (s : State) : RecordId → Option HoldRec
  | .plain => s.hou.plain
  | .answer o => s.hou.answers.find? (fun r => r.order == o)

/-- SLOT_PHASE_END (R98): the slots remaining reach 0, and the offset is computed anew. -/
def execSlotPhaseEnd (record : RecordId) (s : State) : Outcome State Fault Refusal :=
  match s.record record with
  | some r =>
    if s.lif.medium = .idle ∧ r.phase = .slot then
      let s := passBitTimes r.bitsLeft s
      .next (onRecords (HoldRec.endSlots s.holdOffset) s)
    else .fault .mediumState
  | none => .fault .mediumState

/-- HOLDOFF_RELEASE (R79, R99): the frame is released and LIF starts one of its released frames. -/
def execHoldoffRelease (record : RecordId) (s : State) : Outcome State Fault Refusal :=
  match s.record record with
  | some r =>
    if s.lif.medium = .idle ∧ r.phase = .offset then
      .next (startReleased (onRecords HoldRec.release (passBitTimes r.bitsLeft s)))
    else .fault .mediumState
  | none => .fault .mediumState

/-- BURST_GAP_END (R80): after 12 bit times the next frame of the burst starts, or the burst ends. -/
def execBurstGapEnd (s : State) : Outcome State Fault Refusal :=
  if s.lif.gap && s.lif.sending.isNone then
    .next (continueBurst { passBitTimes (12 - s.lif.absent) s with lif.gap := false })
  else .fault .notSending

/-- FRAME_SENT (R76, R80, R84). -/
def execFrameSent (s : State) : Outcome State Fault Refusal :=
  match s.lif.sending with
  | some x =>
    let s := passBitTimes (x.frame.bits - s.lif.sentBits) s
    let s := stopSending { s with lif.lastSource := s.own }
    .next (settle (afterFrame (frameGone x s)))
  | none => .fault .notSending

/-- COLLISION (R81, R82, R95). -/
def execCollision (s : State) : Outcome State Fault Refusal :=
  match s.lif.sending with
  | some x =>
    let s := endBurst (stopSending { s with lif.collisions := satAdd 65535 s.lif.collisions 1 })
    .next (settle (frameCut x s))
  | none => .fault .notSending

end Sys2Proof.Machine
end

