-- ==== Sys2Proof/Machine/MediaRows.lean ====
section
/-! DEFINITION. The rows of the media port: the store's replies and the 250 ms limits (R41, R42). -/

namespace Sys2Proof.Machine

open Host

/-- The bytes the store hands over (R41, log 11). -/
def State.replyBytes (s : State) (addr : Nat) : ReplyData → List Byte
  | .asStored => s.storeBlock addr
  | .bytes b => fitBytes 512 b

/-- MEDIA_READ_COMPLETE (R41): UNCORRECTABLE when the store reports the block unreadable or the block check disagrees. -/
def execMediaReadComplete (readable : Bool) (data : ReplyData) (s : State) : Outcome State Fault Refusal :=
  match s.med.issued with
  | some op =>
    if op.write then .fault .nothingIssued
    else
      let block := s.replyBytes op.addr data
      .next (finishRead op (readable && blockGood block) block s)
  | none => .fault .nothingIssued

/-- MEDIA_READ_TIMEOUT (R41): 250 ms after its issue the read completes UNCORRECTABLE with 512 bytes of zero. -/
def execMediaReadTimeout (s : State) : Outcome State Fault Refusal :=
  match s.med.issued with
  | some op =>
    if op.write then .fault .nothingIssued
    else .next (finishRead op false (List.replicate 512 0) (passTo (op.since + 250) s))
  | none => .fault .nothingIssued

/-- MEDIA_WRITE_COMPLETE (R42). -/
def execMediaWriteComplete (ok : Bool) (s : State) : Outcome State Fault Refusal :=
  match s.med.issued with
  | some op => if op.write then .next (finishWrite op ok s) else .fault .nothingIssued
  | none => .fault .nothingIssued

/-- MEDIA_WRITE_TIMEOUT (R42): 250 ms after its issue the write completes WRITE_FAULT. -/
def execMediaWriteTimeout (s : State) : Outcome State Fault Refusal :=
  match s.med.issued with
  | some op =>
    if op.write then .next (finishWrite op false (passTo (op.since + 250) s)) else .fault .nothingIssued
  | none => .fault .nothingIssued

/-- STORE_LATE_REPLY (R41, R42): discarded. -/
def execStoreLateReply (s : State) : Outcome State Fault Refusal := .next s

end Sys2Proof.Machine
end

