-- ==== Sys2Proof/Machine/SampleRows.lean ====
section
/-! DEFINITION. The rows of the sample port: SAMPLE_FRAME_IN, SAMPLE_FRAME_OUT (R49, R153). -/

namespace Sys2Proof.Machine

open Host

/-- The frame at timeline offset 4,294,967,294 has been taken: the capture ends as a STOP does (R63). -/
def limitTimeline (before : Nat) (c : CaptureJob) : CaptureJob :=
  if before = 4294967294 then c.stopped.drained else c

/-- A frame reaches CAP (R48, R52, R55, R63). -/
def CaptureJob.frameIn (high low : List Bool) (c : CaptureJob) : CaptureJob :=
  let samples := frameSamples c.format high low
  match c.state with
  | .armed => c.ringFrame samples
  | .running => limitTimeline c.offset (c.takeFrame samples)
  | .draining => c

/-- The record number, if its job is a CAPTURE job. -/
def State.captureAt (s : State) (j : Nat) : Option Nat := ((s.jobAt j).bind Job.captureOf).map fun _ => j

/-- The record of a PLAY job. -/
def State.playAt (s : State) (j : Nat) : Option (Nat × Job × PlayJob) :=
  (s.jobAt j).bind fun job => job.playOf.map fun p => (j, job, p)

/-- SAMPLE_FRAME_IN (R48, R49): taken in ARMED and RUNNING by the CAPTURE job that owns the port, while the port is powered
(R171); a period begun before the port was taken is not taken (log 24). -/
def execSampleFrameIn (whole : Bool) (high low : List Bool) (s : State) : Outcome State Fault Refusal :=
  match s.port.owner.bind (fun j => s.captureAt j) with
  | some j => .next (if whole && s.samplePowered then settle (modCapture j (CaptureJob.frameIn high low) s) else s)
  | none => .next s

/-- SAMPLE_FRAME_OUT (R153): driven while a PLAY job owns the port and the port is powered (R171); a period begun before the
port was taken is not driven (log 24). -/
def execSampleFrameOut (whole : Bool) (highEdges lowEdges : Nat) (s : State) : Outcome State Fault Refusal :=
  match whole && s.samplePowered, s.port.owner.bind (fun j => s.playAt j) with
  | true, some (j, job, p) => .next (settle (playPeriod j highEdges lowEdges job p s))
  | _, _ => .next { s with port.lineHigh := [], port.lineLow := [] }

end Sys2Proof.Machine
end

