-- ==== Sys2Proof/Machine/StartUpRows.lean ====
section
/-! DEFINITION. The rows of start-up: HARDWARE_RESET, CONFIG_IMAGE_READ, CAPACITY_REPORT, CAPACITY_TIMEOUT, STORE_READY. -/

namespace Sys2Proof.Machine

open Host

/-- The store at a hardware reset: a write in progress has left its former or its new contents (R28, R40, log 10). -/
def State.storeAtReset (s : State) (landed : Bool) : SMap (List Byte) :=
  match s.med.issued, landed with
  | some op, true => if op.write then smapSet s.med.store op.addr op.data else s.med.store
  | _, _ => s.med.store

/-- HARDWARE_RESET (R69, R88, R178, R179, R184, R186): every block in its reset state; what stands outside the part goes
on: the store, time, the waiting commands and the carrier on the medium. -/
def execHardwareReset (landed : Bool) (s : State) : Outcome State Fault Refusal :=
  .next
    { State.reset with
      pending := s.pending
      clock := s.clock
      freeIx := s.freeIx
      lif := { State.reset.lif with carrier := s.lif.carrier }
      med := { State.reset.med with store := s.storeAtReset landed } }

/-- CONFIG_IMAGE_READ (R186, R195). -/
def execConfigImageRead (image : Option (List Byte)) (s : State) : Outcome State Fault Refusal :=
  match s.sul.phase with
  | .image => .next (readImage image s)
  | _ => .fault .notAwaited

/-- CAPACITY_REPORT (R29). -/
def execCapacityReport (blocks : Nat) (s : State) : Outcome State Fault Refusal :=
  match s.sul.phase with
  | .capacity _ => .next (settle (takeCapacity blocks s))
  | _ => .fault .notAwaited

/-- CAPACITY_TIMEOUT (R29): 250 ms after the request the store is unusable. -/
def execCapacityTimeout (s : State) : Outcome State Fault Refusal :=
  match s.sul.phase with
  | .capacity asked => .next { passTo (asked + 250) s with sul.phase := .unusable }
  | _ => .fault .notAwaited

/-- STORE_READY (R45, R178): ACTIVE, and the media port IDLE for SUL's reads. -/
def execStoreReady (s : State) : Outcome State Fault Refusal :=
  if s.complete = false ∧ s.act.state = .waking then .next (settle { s with act.state := .active })
  else .fault .notAwaited

end Sys2Proof.Machine
end

