-- ==== Sys2Proof/Machine/TimerRows.lean ====
section
/-! DEFINITION. The rows of node ticks and timers: what CAT and the jobs do at a tick, and each expiry (3.2; log 2). -/

namespace Sys2Proof.Machine

open Host

/-! ## Node ticks -/

/-- PLACEMENT_START (R23): CAT looks at the placement queue, once start-up has completed, also while a SOFT_RESET waits for a
capture (log 43). -/
def execPlacementStart (s : State) : Outcome State Fault Refusal :=
  .next (if s.complete then settle (placementTick s.cat.queue.length s) else s)

/-- AUTOMATIC_REPAIR_START (R169): its conditions alone are tested, also while a SOFT_RESET waits for a capture; the job
created then ends with that reset, so that none exists after it (R162; log 43). -/
def execAutomaticRepairStart (s : State) : Outcome State Fault Refusal :=
  if s.sul.cfg.autoRepair && s.linkStanding && s.countKind .repair == 0 && s.jobFree then
    match s.repairCandidate with
    | some (i, e) => .next (settle (createRepair i e s))
    | none => .next s
  else .next s

/-- NOTICE_LIST_FLUSH (R17). -/
def execNoticeListFlush (s : State) : Outcome State Fault Refusal := .next (flushNotices s)

/-- FRAME_REOFFER (R78): the job offers the frames the queue has refused. -/
def execFrameReoffer (job : Nat) (s : State) : Outcome State Fault Refusal :=
  match s.jobAt job with
  | some _ => .next (flushOutbox job s)
  | none => .fault .noSuchJob

/-! ## Placement (R109, R112, R120) -/

/-- BID_WINDOW_CLOSE (R107, R109). -/
def execBidWindowClose (s : State) : Outcome State Fault Refusal :=
  match (s.findKind .replicate).bind (fun p => p.2.replicateOf.map fun r => (p.1, r)) with
  | some (j, r) =>
    match r.state, r.timer with
    | .offering, some t => .next (settle (closeWindow j (passTo t s)))
    | _, _ => .fault .noSuchTimer
  | none => .fault .noSuchTimer

/-- PLEDGED_TIMEOUT (R120). -/
def execPledgedTimeout (job : Nat) (s : State) : Outcome State Fault Refusal :=
  match (s.jobAt job).bind Job.receiveOf with
  | some r =>
    match r.receiving, r.timer with
    | false, some t => .next (settle (endJob job .stalled none (passTo t s)))
    | _, _ => .fault .noSuchTimer
  | none => .fault .noSuchTimer

/-- The members still AWAITING become FAILED (R112). -/
def failAwaiting (j : Nat) (s : State) : State :=
  modSnd j (fun t => { t with members := t.members.map fun m =>
    if m.status = .awaiting then { m with status := .failed } else m }) s

/-- CLOSE_WAIT_TIMEOUT (R112). -/
def execCloseWaitTimeout (s : State) : Outcome State Fault Refusal :=
  match (s.findKind .replicate).bind (fun p => p.2.replicateOf.map fun r => (p.1, r)) with
  | some (j, r) =>
    match r.state, r.timer with
    | .closing, some t => .next (settle (endJob j .ok none (failAwaiting j (passTo t s))))
    | _, _ => .fault .noSuchTimer
  | none => .fault .noSuchTimer

/-! ## Transfers (R128, R129, R134, R135) -/

/-- A member's progress timer has passed (R128, R129). -/
def progressPassed (j : Nat) (m : Member) (s : State) : State :=
  if m.goBacks < 4 then goBack j m.address s else dropMember j m.address s

/-- PROGRESS_TIMEOUT (R128, R129). -/
def execProgressTimeout (job member : Nat) (s : State) : Outcome State Fault Refusal :=
  match ((s.jobAt job).bind (·.snd)).bind (fun t => t.member member) with
  | some m =>
    match m.status, m.progress with
    | .sending, some t => .next (settle (progressPassed job m (passTo t s)))
    | _, _ => .fault .noSuchTimer
  | none => .fault .noSuchTimer

/-- STEP_TIMER_EXPIRY (R134). -/
def execStepTimerExpiry (job : Nat) (s : State) : Outcome State Fault Refusal :=
  match (s.jobAt job).bind (·.rcv) with
  | some r =>
    match r.owed, r.stepTimer with
    | true, some t => .next (settle (giveStep job (passTo t s)))
    | _, _ => .fault .noSuchTimer
  | none => .fault .noSuchTimer

/-- A receiver has heard nothing for 500 ms (R135, R147, R156, R167). R135 calls its ABANDON parting, and R78 speaks of parting
frames of jobs that end alone: a PLAY or REPAIR job that goes on gives it all the same as a parting frame, once and with no owner,
so that it is lost without a report where the queue is full (log 32). DESIGN CHOICE (log 64): the same where the job ends
STALLED at its second failure: the ABANDON is offered before the job's own frames leave the queue. DESIGN CHOICE (log 74): the same
for a REPAIR job that has no write left, which ends in this step (R167). -/
def inactive (j : Nat) (job : Job) (s : State) : State :=
  let f := s.jobFrame job job.stepTo.1 job.stepTo.2 (.abandon .stalled)
  match job.body with
  | .receive _ => endJob j .stalled (some f) s
  | .play p => if p.headAccepted then pendPlay j .stalled (giveParting f s) else holderFailed j (giveParting f s)
  | .repair _ => stopRepair j .stalled (giveParting f s)
  | _ => s

/-- INACTIVITY_TIMEOUT (R135). -/
def execInactivityTimeout (job : Nat) (s : State) : Outcome State Fault Refusal :=
  match (s.jobAt job).bind fun x => x.rcv.bind fun r => r.inactivity.map fun t => (x, t) with
  | some (x, t) => .next (settle (inactive job x (passTo t s)))
  | none => .fault .noSuchTimer

/-! ## Seeking (R145, R147, R165) -/

/-- The answer window of a PLAY or REPAIR job in SEEKING. -/
def Job.answerWindow (job : Job) : Option Nat :=
  match job.body with
  | .play p => if p.state = .seeking then p.answerWindow else none
  | .repair r => if r.state = .seeking then r.answerWindow else none
  | _ => none

/-- The grant wait of a PLAY or REPAIR job in AWAITING_DATA. -/
def Job.grantWait (job : Job) : Option Nat :=
  match job.body with
  | .play p => if p.state = .awaitingData then p.grantWait else none
  | .repair r => if r.state = .awaitingData then r.grantWait else none
  | _ => none

/-- No HAVE was taken (R145, R165). -/
def windowPassed (j : Nat) (job : Job) (s : State) : State :=
  match job.body with
  | .play _ => fallBack j .noHolder s
  | _ => endJob j .noHolder none s

/-- ANSWER_WINDOW_EXPIRY (R145, R165). -/
def execAnswerWindowExpiry (job : Nat) (s : State) : Outcome State Fault Refusal :=
  match (s.jobAt job).bind fun x => x.answerWindow.map fun t => (x, t) with
  | some (x, t) => .next (settle (windowPassed job x (passTo t s)))
  | none => .fault .noSuchTimer

/-- No DATA came from the granted holder (R147, R165). DESIGN CHOICE (log 64): a PLAY job's ABANDON is offered before the job
acts on the failure, also where it ends STALLED. -/
def grantFailed (j : Nat) (job : Job) (s : State) : State :=
  let f := s.jobFrame job job.stepTo.1 .out (.abandon .stalled)
  match job.body with
  | .play _ => holderFailed j (giveFrame j f s)
  | _ => endJob j .stalled (some f) s

/-- GRANT_WAIT_EXPIRY (R147, R165). -/
def execGrantWaitExpiry (job : Nat) (s : State) : Outcome State Fault Refusal :=
  match (s.jobAt job).bind fun x => x.grantWait.map fun t => (x, t) with
  | some (x, t) => .next (settle (grantFailed job x (passTo t s)))
  | none => .fault .noSuchTimer

/-! ## Answers and notes (R105, R148) -/

/-- HAVE_EXPIRY (R105): the record is removed unsent. -/
def execHaveExpiry (order : Nat) (s : State) : Outcome State Fault Refusal :=
  match (s.answerRecord order).bind HoldRec.expiry with
  | some t => .next (removeAnswers (fun r => r.order == order) (passTo t s))
  | none => .fault .noSuchTimer

/-- ANSWER_NOTE_LAPSE (R148): the note at a place of the list is removed. -/
def execAnswerNoteLapse (note : Nat) (s : State) : Outcome State Fault Refusal :=
  match s.notes[note]? with
  | some n =>
    let s := passTo n.lapse s
    .next { s with notes := s.notes.eraseIdx note }
  | none => .fault .noSuchTimer

/-! ## ACT (R174, R176) -/

/-- The activity timer has expired (R174). -/
def activityExpired (s : State) : State :=
  match s.act.state with
  | .active => if s.mediaWork then { s with act.dozeDue := true, act.timer := .running none } else enterDoze s
  | .doze => { s with act.state := .sleep, act.timer := .stopped, act.dozeDue := false }
  | .sleep | .waking => s

/-- ACTIVITY_TIMER_EXPIRY (R174). -/
def execActivityTimerExpiry (s : State) : Outcome State Fault Refusal :=
  match s.act.timer with
  | .running (some t) => .next (activityExpired (passTo t s))
  | _ => .fault .noSuchTimer

/-- WAKE_TIMER_EXPIRY (R45, R176): ACTIVE, and the arbiter chooses at once. -/
def execWakeTimerExpiry (s : State) : Outcome State Fault Refusal :=
  match s.act.wakeAt with
  | some t =>
    let s := passTo t s
    .next (settle { s with act.state := .active, act.wakeAt := none })
  | none => .fault .noSuchTimer

end Sys2Proof.Machine
end

