-- ==== Sys2Proof/Machine/Dispatch.lean ====
section
/-! DEFINITION. The command's meaning, one arm for each row of the opcode table. -/

namespace Sys2Proof.Machine

open Host

/-- The effect of a command on everything but the queue of waiting commands. -/
def exec (i : Instr) (s : State) : Host.Outcome State Fault Refusal :=
  match i with
  | .hardwareReset landed => Sys2Proof.Machine.execHardwareReset landed s
  | .configImageRead image => Sys2Proof.Machine.execConfigImageRead image s
  | .capacityReport blocks => Sys2Proof.Machine.execCapacityReport blocks s
  | .capacityTimeout => Sys2Proof.Machine.execCapacityTimeout s
  | .storeReady => Sys2Proof.Machine.execStoreReady s
  | .status params => Sys2Proof.Machine.execStatus params s
  | .inquire params => Sys2Proof.Machine.execInquire params s
  | .arm params => Sys2Proof.Machine.execArm params s
  | .start params => Sys2Proof.Machine.execStart params s
  | .stop params => Sys2Proof.Machine.execStop params s
  | .abort params => Sys2Proof.Machine.execAbort params s
  | .retrieve params => Sys2Proof.Machine.execRetrieve params s
  | .cancel params => Sys2Proof.Machine.execCancel params s
  | .labelWrite params => Sys2Proof.Machine.execLabelWrite params s
  | .labelRead params => Sys2Proof.Machine.execLabelRead params s
  | .entryRead params => Sys2Proof.Machine.execEntryRead params s
  | .withdraw params => Sys2Proof.Machine.execWithdraw params s
  | .repair params => Sys2Proof.Machine.execRepair params s
  | .eventRead params => Sys2Proof.Machine.execEventRead params s
  | .markInventory params => Sys2Proof.Machine.execMarkInventory params s
  | .softReset params => Sys2Proof.Machine.execSoftReset params s
  | .commandWriteIgnored => Sys2Proof.Machine.execCommandWriteIgnored s
  | .responseRead => Sys2Proof.Machine.execResponseRead s
  | .mediaReadComplete readable data => Sys2Proof.Machine.execMediaReadComplete readable data s
  | .mediaReadTimeout => Sys2Proof.Machine.execMediaReadTimeout s
  | .mediaWriteComplete ok => Sys2Proof.Machine.execMediaWriteComplete ok s
  | .mediaWriteTimeout => Sys2Proof.Machine.execMediaWriteTimeout s
  | .storeLateReply => Sys2Proof.Machine.execStoreLateReply s
  | .sampleFrameIn whole high low => Sys2Proof.Machine.execSampleFrameIn whole high low s
  | .sampleFrameOut whole highEdges lowEdges => Sys2Proof.Machine.execSampleFrameOut whole highEdges lowEdges s
  | .carrierAppears => Sys2Proof.Machine.execCarrierAppears s
  | .carrierEnds bytes => Sys2Proof.Machine.execCarrierEnds bytes s
  | .idleGapElapsed => Sys2Proof.Machine.execIdleGapElapsed s
  | .slotPhaseEnd record => Sys2Proof.Machine.execSlotPhaseEnd record s
  | .holdoffRelease record => Sys2Proof.Machine.execHoldoffRelease record s
  | .burstGapEnd => Sys2Proof.Machine.execBurstGapEnd s
  | .frameSent => Sys2Proof.Machine.execFrameSent s
  | .collision => Sys2Proof.Machine.execCollision s
  | .badFrame => Sys2Proof.Machine.execBadFrame s
  | .malformedFrame => Sys2Proof.Machine.execMalformedFrame s
  | .duplicateAddress => Sys2Proof.Machine.execDuplicateAddress s
  | .seekReceived => Sys2Proof.Machine.execSeekReceived s
  | .haveReceived => Sys2Proof.Machine.execHaveReceived s
  | .grantReceived => Sys2Proof.Machine.execGrantReceived s
  | .placeReceived => Sys2Proof.Machine.execPlaceReceived s
  | .bidReceived => Sys2Proof.Machine.execBidReceived s
  | .assignReceived => Sys2Proof.Machine.execAssignReceived s
  | .dataReceived => Sys2Proof.Machine.execDataReceived s
  | .stepReceived => Sys2Proof.Machine.execStepReceived s
  | .doneReceived => Sys2Proof.Machine.execDoneReceived s
  | .noticeReceived => Sys2Proof.Machine.execNoticeReceived s
  | .abandonReceived => Sys2Proof.Machine.execAbandonReceived s
  | .placementStart => Sys2Proof.Machine.execPlacementStart s
  | .automaticRepairStart => Sys2Proof.Machine.execAutomaticRepairStart s
  | .noticeListFlush => Sys2Proof.Machine.execNoticeListFlush s
  | .frameReoffer job => Sys2Proof.Machine.execFrameReoffer job s
  | .bidWindowClose => Sys2Proof.Machine.execBidWindowClose s
  | .pledgedTimeout job => Sys2Proof.Machine.execPledgedTimeout job s
  | .closeWaitTimeout => Sys2Proof.Machine.execCloseWaitTimeout s
  | .progressTimeout job member => Sys2Proof.Machine.execProgressTimeout job member s
  | .stepTimerExpiry job => Sys2Proof.Machine.execStepTimerExpiry job s
  | .inactivityTimeout job => Sys2Proof.Machine.execInactivityTimeout job s
  | .answerWindowExpiry job => Sys2Proof.Machine.execAnswerWindowExpiry job s
  | .grantWaitExpiry job => Sys2Proof.Machine.execGrantWaitExpiry job s
  | .haveExpiry order => Sys2Proof.Machine.execHaveExpiry order s
  | .answerNoteLapse note => Sys2Proof.Machine.execAnswerNoteLapse note s
  | .activityTimerExpiry => Sys2Proof.Machine.execActivityTimerExpiry s
  | .wakeTimerExpiry => Sys2Proof.Machine.execWakeTimerExpiry s
  | .unknownCommandCode record => Sys2Proof.Machine.execUnknownCommandCode record s

end Sys2Proof.Machine
end

