-- ==== Sys2Proof/Machine/Step.lean ====
section
/-! DEFINITION. One step: the command at the front of the queue, or 125 ns of idle time. -/

namespace Sys2Proof.Machine

/-- One step: the command at the front of the queue takes its effect on the state with the queue's rest; with
nothing waiting, one unit of 125 ns passes (log 1). -/
def step (s : State) : Host.Outcome State Fault Refusal :=
  match s.pending with
  | [] => .next (passUnits 1 s)
  | c :: rest => exec c { s with pending := rest }

/-- The command a word spells, put at the front of the queue. The table gives no row any bits, so no word spells one. -/
def State.withFetchWord (s : State) (nbits w : Nat) : State :=
  match Sys2Proof.decodeTableWord nbits w with
  | some c => { s with pending := c :: s.pending }
  | none => s

end Sys2Proof.Machine
end

