-- ==== Sys2Proof/Safety.lean ====
section
/-! DEFINITION. What a safe run keeps: the bounds and forms the spec gives the part's tables, queues, counters and port. -/

namespace Sys2Proof.Machine

/-- JT holds at most 8 job records, numbered 0..7, each number once (R50, 1.2). -/
def jobsOk (jobs : SMap Job) : Prop := smapRising jobs = true ∧ ∀ p ∈ jobs, p.1 < 8

/-- The sparse tables are in canonical form: numbers strictly rising, each once. -/
def tablesOk (entries : SMap Entry) (chunks : SMap Chunk) (store : SMap (List Byte)) : Prop :=
  smapRising entries = true ∧ smapRising chunks = true ∧ smapRising store = true

/-- The port waits for a response to be read exactly while a response record stands, and is BUSY exactly while it keeps
the command it answers (R179, R180). -/
def portOk (c : Cpe) : Prop :=
  (c.port = .responseWaiting ↔ c.response.isSome = true) ∧ (c.port = .busy ↔ c.current.isSome = true)

/-- The event queue holds at most 32 records, and the saturating counters stand inside their ranges (R179, R184, R185). -/
def countsOk (c : Cpe) : Prop :=
  c.events.length ≤ 32 ∧ c.lost ≤ 255 ∧ c.refused ≤ 65535 ∧ c.seen.length = 8 ∧ ∀ n ∈ c.seen, n ≤ 65535

/-- HOU holds at most 6 HAVE records (R90). -/
def havesOk (answers : List HoldRec) : Prop := answers.countP HoldRec.isHave ≤ 6

/-- The transmit queue holds at most 16 frames (R78). -/
def queueOk (queue : List TxFrame) : Prop := queue.length ≤ 16

/-- At most 6 answer notes (R148). -/
def notesOk (notes : List AnswerNote) : Prop := notes.length ≤ 6

/-- The forms and bounds together, each over the part of the state it speaks of. -/
def soundParts (jobs : SMap Job) (entries : SMap Entry) (chunks : SMap Chunk) (store : SMap (List Byte)) (cpe : Cpe)
    (answers : List HoldRec) (queue : List TxFrame) (notes : List AnswerNote) : Prop :=
  jobsOk jobs ∧ tablesOk entries chunks store ∧ portOk cpe ∧ countsOk cpe ∧ havesOk answers ∧ queueOk queue ∧ notesOk notes

/-- A sound state. -/
def State.Sound (s : State) : Prop :=
  soundParts s.jt.jobs s.cat.entries s.med.chunks s.med.store s.cpe s.hou.answers s.lif.queue s.notes

/-- The link counters stand inside their ranges (R81, R83), the LFSR is not 0 (R94), the own address is one of 0..31 and
so is last-source (R76). -/
def State.LinkSound (s : State) : Prop :=
  s.lif.errors ≤ 65535 ∧ s.lif.collisions ≤ 65535 ∧ s.lif.lfsr ≠ 0#16 ∧ s.sul.cfg.address ≤ 31 ∧ s.lif.lastSource ≤ 31

/-- The settings as R186's clamps leave them. -/
def Settings.inRange (c : Settings) : Prop :=
  c.address ≤ 31 ∧ (c.linkRate = 2 ∨ c.linkRate = 4 ∨ c.linkRate = 8) ∧ (1 ≤ c.copiesWanted ∧ c.copiesWanted ≤ 4)
    ∧ (1 ≤ c.burstLimit ∧ c.burstLimit ≤ 16) ∧ c.dozeDelay ≤ 60000 ∧ c.sleepDelay ≤ 60000
    ∧ c.knots.length = 9 ∧ ∀ k ∈ c.knots, k ≤ 255

/-- A list of distinct addresses 0..31, `lo` to `hi` of them (R192). -/
def addressesInRange (lo hi : Nat) (l : List Nat) : Prop := l.Nodup ∧ (∀ a ∈ l, a ≤ 31) ∧ lo ≤ l.length ∧ l.length ≤ hi

/-- A payload whose fields lie in the ranges of R192. -/
def Payload.inRange : Payload → Prop
  | .seek start frames purpose first count exclusion =>
    start < 4294967296 ∧ frames < 4294967296 ∧ first < 4294967296 ∧ count < 256 ∧ addressesInRange 0 3 exclusion
      ∧ (purpose = .repair → first ≠ 0 ∧ 1 ≤ count ∧ count ≤ 64)
  | .haveTake _ _ damaged storedBlocks _ => damaged < 256 ∧ storedBlocks < 4294967296
  | .grant holder => holder < 256
  | .place storedBlocks _ copies wanted exclusion =>
    storedBlocks < 4294967296 ∧ 1 ≤ copies ∧ copies ≤ 4 ∧ 1 ≤ wanted ∧ wanted ≤ 3 ∧ addressesInRange 1 3 exclusion
  | .bid freeChunks => freeChunks < 65536
  | .assign addresses => addressesInRange 1 3 addresses
  | .data sequence _ block => sequence < 4294967296 ∧ block.length = 512
  | .step sequence credit => sequence < 4294967296 ∧ credit ≤ 8
  | .done total _ => total < 4294967296
  | .notice _ => True
  | .abandon _ => True

/-- A frame whose fields lie in the ranges of R192. -/
def Frame.inRange (f : Frame) : Prop :=
  f.src ≤ 31 ∧ (f.dst ≤ 31 ∨ f.dst = 63) ∧ f.tag < 256 ∧ f.take.valid = true ∧ f.payload.inRange

/-- The record of a host command (R194): its code, the length its parameters must have, and its parameters. -/
def commandRecord : Instr → Option (Nat × Nat × List Byte)
  | .status p => some (1, 0, p)
  | .inquire p => some (2, 0, p)
  | .arm p => some (3, 2, p)
  | .start p => some (4, 0, p)
  | .stop p => some (5, 0, p)
  | .abort p => some (6, 0, p)
  | .retrieve p => some (7, 13, p)
  | .cancel p => some (8, 1, p)
  | .labelWrite p => some (9, 69, p)
  | .labelRead p => some (10, 4, p)
  | .entryRead p => some (11, 5, p)
  | .withdraw p => some (12, 4, p)
  | .repair p => some (13, 4, p)
  | .eventRead p => some (14, 0, p)
  | .markInventory p => some (15, 0, p)
  | .softReset p => some (16, 0, p)
  | _ => none

end Sys2Proof.Machine
end

