-- ==== Sys2Proof/Certificates/Slice0/Obligations.lean ====
section
/-! DEFINITION. The statements for the provers: what the spec's rules say the commands and the machine do. -/

open Sys2Proof Sys2Proof.Machine Host

/-! ## The whole machine -/

/-- One step with a command at the front of the queue is `exec` of that command on the state with the queue's rest. -/
def Obligations.StepRunsFrontCommand : Prop :=
  ∀ (c : Instr) (rest : List Instr) (s : State), step { s with pending := c :: rest } = exec c { s with pending := rest }

/-- With nothing waiting, one unit of 125 ns passes and nothing else happens: of the rest of the state, only the bits sent of a
frame under way, the bits of absent carrier, and the slots and progress of hold-off records move (DESIGN CHOICE, log 1). -/
def Obligations.EmptyQueueLetsTimePass : Prop :=
  ∀ s : State, s.pending = [] →
    ∃ t, step s = .next t ∧ t.clock = s.clock + 1
      ∧ { t with clock := s.clock, lif.sentBits := s.lif.sentBits, lif.absent := s.lif.absent, hou := s.hou } = s
      ∧ t.hou.nextOrder = s.hou.nextOrder
      ∧ t.hou.answers.map (fun r => { r with slots := 0, progress := 0 })
          = s.hou.answers.map (fun r => { r with slots := 0, progress := 0 })
      ∧ t.hou.plain.map (fun r => { r with slots := 0, progress := 0 })
          = s.hou.plain.map (fun r => { r with slots := 0, progress := 0 })

/-- No command touches the commands that wait; none but a hardware reset and the reading of the image changes a setting; and
a node in LINK_MUTE leaves it at a hardware reset alone, keeping its cause once start-up has completed, while only a duplicate
address or the reading of the image puts a node into it. -/
def Obligations.QueueSettingsAndMuteStand : Prop :=
  ∀ (c : Instr) (s t : State), exec c s = .next t →
    t.pending = s.pending
      ∧ ((∀ landed, c ≠ .hardwareReset landed) → (∀ image, c ≠ .configImageRead image) → t.sul.cfg = s.sul.cfg)
      ∧ ((∀ landed, c ≠ .hardwareReset landed) →
          (s.muted = true → t.muted = true ∧ (s.complete = true → t.lif.mute = s.lif.mute))
            ∧ (s.muted = false → t.muted = true → c = .duplicateAddress ∨ ∃ image, c = .configImageRead image))

/-- Every block of the store reads as before, except the block of an issued write that ends with this command. -/
def Obligations.StoreChangesOnlyByWrites : Prop :=
  ∀ (c : Instr) (s t : State), exec c s = .next t → ∀ a : Nat,
    ((c ≠ .mediaWriteTimeout ∧ (∀ ok, c ≠ .mediaWriteComplete ok) ∧ ∀ landed, c ≠ .hardwareReset landed)
      ∨ ∀ op, s.med.issued = some op → op.write = true → op.addr ≠ a) →
    t.storeBlock a = s.storeBlock a

/-- The state after a hardware reset is sound, and so are its link counters and its settings. What the spec gives no reset
value for is the model's choice (log 8). -/
def Obligations.ResetIsSound : Prop := State.reset.Sound ∧ State.reset.LinkSound ∧ State.reset.sul.cfg.inRange

/-- Every step keeps a sound state sound: at most 8 job records, numbered 0..7; the catalogue, the chunk map and the
store in canonical form; the port in step with its response and its command; the event queue, the transmit queue, the HAVE
records and the answer notes within their room; the saturating counters within their ranges. -/
def Obligations.SoundKeptByEveryStep : Prop :=
  ∀ s t : State, s.Sound → step s = .next t → t.Sound

/-- Every step keeps the link's bounds: the link counters at most 65,535, the LFSR never 0, the own address and last-source
in 0..31; and the settings inside the ranges of R186's table. -/
def Obligations.BoundsKeptByEveryStep : Prop :=
  ∀ s t : State, step s = .next t → (s.LinkSound → t.LinkSound) ∧ (s.sul.cfg.inRange → t.sul.cfg.inRange)

/-- Once start-up has completed, it stays complete until a hardware reset, and the origin sequence counter stands or, at an
accepted START, rises by one and stays within 134,217,727. MARK_INVENTORY alone, taken in READY, clears the inventory mark,
and a hardware reset alone the catalogue fault flag. -/
def Obligations.CounterMarkAndFaultFlag : Prop :=
  ∀ (c : Instr) (s t : State), exec c s = .next t →
    ((∀ landed, c ≠ .hardwareReset landed) → s.complete = true →
      t.complete = true
        ∧ (t.cat.counter = s.cat.counter
          ∨ ((∃ params, c = .start params) ∧ s.cat.counter < 134217727 ∧ t.cat.counter = s.cat.counter + 1)))
      ∧ (s.cat.mark = true → t.cat.mark = true ∨ (∃ params, c = .markInventory params) ∧ s.cpe.port = .ready)
      ∧ ((∀ landed, c ≠ .hardwareReset landed) → s.cat.fault = true → t.cat.fault = true)

/-- The arbiter's tiers: CAPTURE first, then the map-write list before CAT's queue, then job traffic in round-robin after the record
last served. An issued operation is never interrupted or replaced. `settle`, the look that follows a command, changes ACT alone
where the media port is not IDLE or nothing waits; where a map item, a catalogue item or a job's read of a block present is chosen,
it issues that at its place in the store, and beyond the item's list, the record last served and ACT nothing changes. A CAPTURE
write that waits goes before a faulted item that is to be issued again, which is the model's reading of "again at once" (log 12).
Whatever request is issued, `settle` issues it and changes ACT alone beyond that. An append, a sound block of a capture or a
received block, goes behind the chain's last block, at the offset of the blocks used of its last chunk; where that is full or BAD
the lowest FREE chunk joins the chain first, the free count falling by one, a RECEIVE job's pledge with it, both map items queued
and the chunk count rising unless the entry is CAPTURING (R33, R34). It takes the next sequence (R37), and the bytes are those of
R55 and R193, a received block's unused header bytes as received (the model's choice, log 67). An in-place write and a head block go
to the place of their sequence, a capture's head block with its final values (R65), or with the INCOMPLETE entry's (R68); one of an
entry without an end cause carries NORMAL (the model's choice, log 52). -/
def Obligations.ArbiterServesTiersInOrder : Prop :=
  let stored := fun (take : TakeNo) (seq start frames type : Nat) (format : Byte) (payload : List Byte) =>
    beBytes 4 (takeValue (some take)) ++ beBytes 4 seq ++ beBytes 4 start ++ beBytes 2 frames ++ beBytes 1 type ++ [format]
      ++ beBytes 2 (crc16 (fitBytes 480 payload)).toNat ++ List.replicate 14 0 ++ fitBytes 480 payload
  let head := fun (take : TakeNo) (f : Format) (cause : EndCause) (length frames blocks : Nat) (check : Check) (clips copies : Nat)
      (label : Option (List Byte)) (gaps : List Gap) =>
    stored take 0 0 0 2 f.byte (beBytes 4 (takeValue (some take)) ++ [f.byte] ++ beBytes 1 cause.code ++ beBytes 4 length
      ++ beBytes 4 frames ++ beBytes 4 blocks ++ beBytes 4 check.toNat ++ beBytes 2 clips ++ beBytes 1 copies
      ++ beBytes 1 (if label.isSome then 1 else 0) ++ fitBytes 64 (label.getD []) ++ beBytes 1 gaps.length
      ++ fitBytes 128 (gaps.flatMap fun g => beBytes 4 g.start ++ beBytes 4 g.length))
  let headOf := fun (e : Entry) (label : Option (List Byte)) =>
    head e.take e.format (e.endCause.getD .normal) e.timelineLength e.storedFrames e.storedBlocks e.check e.clips e.copiesWanted
      label e.gaps
  let issued := fun (s : State) (who : Requester) (x offset : Nat) (data : List Byte) (u : State) =>
    u = issue who s ∧ u.med.issued = some { who := who, write := true, addr := 4096 * x + offset, data := data,
                                            chunk := some x, offset := offset, since := s.now, wanted := true }
  (∀ s : State,
    (s.portState ≠ .idle ∨ s.chosen = none → { settle s with act := s.act } = s)
      ∧ (∀ w n, s.portState = .idle → s.chosen = some (.wt w n) → (∀ i label, w ≠ .head i label) →
          ∃ op, (settle s).med.issued = some op ∧ op.who = .wt w n ∧ op.write = true
            ∧ (∀ i, w = .entry i → op.addr = 1 + i ∧ op.data = recordBlock i (s.entryAt i))
            ∧ (w = .counter → op.addr = 0 ∧ op.data = counterBlock s.cat.counter)
            ∧ { settle s with act := s.act, med.issued := s.med.issued, cat.wt := s.cat.wt, cat.wtRetry := s.cat.wtRetry } = s)
      ∧ (∀ b n, s.portState = .idle → s.chosen = some (.map b n) →
          ∃ op, (settle s).med.issued = some op ∧ op.who = .map b n ∧ op.write = true ∧ op.addr = 2049 + b
            ∧ op.data = s.mapBlock b
            ∧ { settle s with act := s.act, med.issued := s.med.issued, med.mapList := s.med.mapList,
                              med.mapRetry := s.med.mapRetry } = s)
      ∧ (∀ j job q i e c o, s.portState = .idle → s.chosen = some (.job j (.read q)) → s.jobAt j = some job →
          job.entry = some i → s.entryAt i = some e → s.locate e q = some (c, o) →
          ∃ op, (settle s).med.issued = some op ∧ op.who = .job j (.read q) ∧ op.write = false ∧ op.addr = 4096 * c + o
            ∧ (settle s).med.rrLast = j
            ∧ { settle s with act := s.act, med.issued := s.med.issued, med.rrLast := s.med.rrLast,
                              jt.jobs := smapSet (settle s).jt.jobs j job }
                = { s with jt.jobs := smapSet s.jt.jobs j job })
      ∧ (s.complete = true →
        (∀ op, s.med.issued = some op → (∀ fuel, arbitrate fuel s = s) ∧ (settle s).med.issued = some op)
        ∧ (∀ r, s.captureRequest = some r → s.chosen = some r)
        ∧ (s.captureRequest = none → s.med.mapRetry = none → ∀ b rest, s.med.mapList = b :: rest →
            s.chosen = some (.map b 0))
        ∧ (s.captureRequest = none → s.med.mapRetry = none → s.med.mapList = [] → s.cat.wtRetry = none →
            ∀ w rest, s.cat.wt = w :: rest → s.chosen = some (.wt w 0))
        ∧ (jobsOk s.jt.jobs → s.captureRequest = none → s.writeThrough = none → ∀ j job, s.nextJob = some (j, job) →
            s.chosen = job.reqs.head?.map (.job j ·)
              ∧ ∀ k other, smapGet s.jt.jobs k = some other → other.kind ≠ .capture → other.reqs ≠ [] →
                  (s.med.rrLast < j → s.med.rrLast < k → j ≤ k) ∧ (j ≤ s.med.rrLast → k ≤ s.med.rrLast ∧ j ≤ k))))
  ∧ (∀ (s : State) (r : Requester) (op : Issued), s.portState = .idle → s.chosen = some r → (issue r s).med.issued = some op →
      { settle s with act := s.act } = { issue r s with act := s.act })
  ∧ (∀ (s : State) (i n x offset : Nat) (e : Entry) (label : Option (List Byte)), s.entryAt i = some e →
      s.locate e 0 = some (x, offset) →
      (∃ u, issued s (.wt (.head i label) n) x offset (headOf e label) u)
        ∧ ∃ u, issued s (.sul (.head i n)) x offset (headOf e e.label) u ∧ u = { s with med.issued := u.med.issued })
  ∧ ∀ (s : State) (j i : Nat) (job : Job) (e : Entry), s.Sound → s.jobAt j = some job → job.entry = some i →
      s.entryAt i = some e →
      (∀ (req : JobReq) (block : Nat → List Byte),
        ((∃ b, req = .append b ∧ ∀ seq, block seq = b.take 4 ++ beBytes 4 seq ++ b.drop 8)
          ∨ (∃ c b rest, req = .sound ∧ job.body = .capture c ∧ c.closed = b :: rest
              ∧ ∀ seq, block seq = stored e.take seq b.start b.frames 1 e.format.byte b.bytes)) →
        let seq := s.blocksUsed (s.chain e)
        let pledge := match job.body with
          | .receive r => r.pledge
          | _ => 0
        let requested := fun (spent : Nat) (u : State) =>
          (∀ k, k ≠ j → u.jobAt k = s.jobAt k) ∧ (req = .sound → u.jobAt j = some job)
            ∧ (∀ r, job.body = .receive r →
                u.jobAt j = some { job with body := .receive { r with pledge := r.pledge - spent }, reqs := job.reqs.tail })
        (∀ l, (s.chain e).getLast? = some l → (s.chunkAt l).owner ≠ .bad → (s.chunkAt l).used < 4096 →
          ∃ u, issued s (.job j req) l (s.chunkAt l).used (block seq) u ∧ requested 0 u ∧ u.med.chunks = s.med.chunks
            ∧ u.med.free = s.med.free ∧ u.med.pledged = s.med.pledged ∧ u.med.mapList = s.med.mapList ∧ u.cat = s.cat
            ∧ u.cpe = s.cpe)
        ∧ (∀ l x, (s.chain e).getLast? = some l → (s.chunkAt l).owner = .bad ∨ 4096 ≤ (s.chunkAt l).used →
            (s.chain e).Nodup → (s.chain e).length < s.med.total → x ∉ s.chain e →
            1 ≤ x → x < s.med.total → (s.chunkAt x).owner = .free → (∀ y, 1 ≤ y → y < x → (s.chunkAt y).owner ≠ .free) →
            0 < pledge ∨ s.med.pledged < s.med.free →
            ∃ u, issued s (.job j req) x 0 (block seq) u ∧ requested (min 1 pledge) u
              ∧ u.chunkAt x = { owner := .entry i, next := none, used := 0 }
              ∧ u.chunkAt l = { s.chunkAt l with next := some x } ∧ (∀ y, y ≠ x → y ≠ l → u.chunkAt y = s.chunkAt y)
              ∧ u.med.free = s.med.free - 1 ∧ u.med.pledged = s.med.pledged - min 1 pledge
              ∧ x / 80 ∈ u.med.mapList ∧ l / 80 ∈ u.med.mapList
              ∧ u.entryAt i = some { e with chunkCount := if e.state = .capturing then e.chunkCount else e.chunkCount + 1 }
              ∧ (∀ k, k ≠ i → u.entryAt k = s.entryAt k) ∧ u.cpe = s.cpe))
      ∧ (∀ q b x offset, s.locate e q = some (x, offset) →
          ∃ u, issued s (.job j (.inPlace q b)) x offset (b.take 4 ++ beBytes 4 q ++ b.drop 8) u
            ∧ u.jobAt j = some { job with reqs := job.reqs.tail } ∧ u.cat = s.cat ∧ u.cpe = s.cpe)
      ∧ (∀ c x offset, job.body = .capture c → s.locate e 0 = some (x, offset) →
          ∃ u, issued s (.job j .head) x offset
              (if c.ending = none then
                head e.take c.format ((c.cut.map (·.2)).getD .normal) ((c.cut.map (·.1)).getD c.offset) c.storedFrames
                  (c.soundBlocks + 1) c.check c.clips s.sul.cfg.copiesWanted e.label c.gaps
              else headOf e e.label) u
            ∧ u.jobAt j = some { job with body := .capture { c with head := .issued } } ∧ u.cat = s.cat ∧ u.cpe = s.cpe)

/-! ## The command port -/

/-- A command write outside READY (one of the sixteen commands, a record with an unknown code or cut short, or the ignored
write of the table) changes the refused-write counter alone: it rises by one, holding at 65,535. In READY a record
with a length wrong for its command, an unknown code, or one cut short is answered BAD_PARAM; beyond the response it
is a reload event and changes nothing. A record cut short as an unknown code, and LABEL_WRITE's length of 69, are the
model's reading (logs 6, 17). -/
def Obligations.RecordsNotTakenOrWrong : Prop :=
  ∀ (c : Instr) (s : State),
    (s.cpe.port ≠ .ready →
      ((commandRecord c).isSome = true ∨ c = .commandWriteIgnored
        ∨ ∃ r, c = .unknownCommandCode r ∧ (r.length < 2 + (byteAt r 1).toNat ∨ (byteAt r 0).toNat = 0 ∨ 16 < (byteAt r 0).toNat)) →
      exec c s = .next { s with cpe.refused := min 65535 (s.cpe.refused + 1) })
      ∧ (∀ code length params, s.cpe.port = .ready → commandRecord c = some (code, length, params) →
          params.length ≠ length → exec c s = .next (respond .badParam code 0 [] (reload s)))
      ∧ (∀ r : List Byte, s.cpe.port = .ready → c = .unknownCommandCode r →
          r.length < 2 + (byteAt r 1).toNat ∨ (byteAt r 0).toNat = 0 ∨ 16 < (byteAt r 0).toNat →
          exec c s = .next (respond .badParam (byteAt r 0).toNat 0 [] (reload s)))

/-- Building a response leaves the port in RESPONSE_WAITING with its record and changes nothing else. A response record
waits in RESPONSE_WAITING; the response read returns its bytes (outcome, code, tag, data length, data) and leaves the
port READY. In NOT_READY a read returns the outcome NOT_READY with no data, in READY and BUSY the single byte FFH, and
the port stands. The code and tag 0 of the NOT_READY record are the model's choice (log 23). -/
def Obligations.ResponseReadReturnsTheRecord : Prop :=
  ∀ s : State,
    (∀ (r : Result) (code tag : Nat) (data : List Byte),
      respond r code tag data s =
        { s with cpe.port := .responseWaiting, cpe.current := none,
                 cpe.response := some { result := r, code := code, tag := tag, data := data } })
      ∧ (∀ r, s.cpe.port = .responseWaiting → s.cpe.response = some r →
      ∃ t, exec .responseRead s = .next t ∧ t = { s with cpe.port := .ready, cpe.response := none, cpe.out := t.cpe.out }
        ∧ t.cpe.out = beBytes 1 r.result.code ++ beBytes 1 r.code ++ beBytes 1 r.tag ++ beBytes 2 r.data.length ++ r.data)
      ∧ (s.cpe.port = .notReady → exec .responseRead s = .next { s with cpe.out := [1, 0, 0, 0, 0] })
      ∧ (s.cpe.port = .ready ∨ s.cpe.port = .busy → exec .responseRead s = .next { s with cpe.out := [0xFF] })

/-- STATUS answers 78 bytes with each item of R194's table at its place, and changes nothing beyond the response and the
reload. A PLAY job in SEEKING has source FFH (log 30). -/
def Obligations.StatusAnswersTheTable : Prop :=
  ∀ s : State, s.cpe.port = .ready → s.cpe.seen.length = 8 →
    ∃ d, exec (.status []) s = .next (respond .ok 1 0 d (reload s)) ∧ d.length = 78
      ∧ fieldAt d 0 1 = s.cat.mark.toNat ∧ fieldAt d 1 1 = s.cat.fault.toNat
      ∧ (s.findKind .capture = none → fieldAt d 2 1 = 0 ∧ fieldAt d 3 1 = 0 ∧ fieldAt d 4 4 = 0)
      ∧ (∀ j job c, s.captureJob = some (j, job, c) → fieldAt d 2 1 = c.state.code ∧ fieldAt d 3 1 = job.tag % 256
          ∧ fieldAt d 4 4 = takeValue job.take % 4294967296)
      ∧ fieldAt d 8 2 = (s.jt.jobs.map fun p =>
          match p.2.body with
          | .capture c => c.ring.length + c.closed.length + (if c.filling.isSome then 1 else 0)
          | .play p => p.slots.length
          | _ => 0).sum % 65536
      ∧ (∀ j job r, s.findKind .replicate = some (j, job) → job.body = .replicate r →
          fieldAt d 10 1 = (match r.state with
                            | .offering => 1
                            | .assigning => 2
                            | .sending => 3
                            | .closing => 4)
            ∧ fieldAt d 11 1 = job.tag % 256 ∧ fieldAt d 12 4 = takeValue job.take % 4294967296)
      ∧ (s.findKind .replicate = none → fieldAt d 10 1 = 0 ∧ fieldAt d 11 1 = 0 ∧ fieldAt d 12 4 = 0)
      ∧ (s.findKind .play = none → fieldAt d 16 1 = 0 ∧ fieldAt d 17 1 = 0 ∧ fieldAt d 18 4 = 0 ∧ fieldAt d 22 1 = 0
          ∧ fieldAt d 23 1 = 0 ∧ fieldAt d 24 2 = 0)
      ∧ (∀ j job p, s.findKind .play = some (j, job) → job.body = .play p →
          fieldAt d 16 1 = (match p.state with
                            | .localStore => 1
                            | .seeking => 2
                            | .awaitingData => 3
                            | .playing => 4
                            | .draining => 5)
            ∧ fieldAt d 17 1 = job.tag % 256 ∧ fieldAt d 18 4 = takeValue job.take % 4294967296
            ∧ fieldAt d 22 1 = (match p.state with
                                | .localStore => s.own
                                | .seeking => 255
                                | _ => p.holder.getD 255) % 256
            ∧ fieldAt d 23 1 = p.started.toNat ∧ fieldAt d 24 2 = p.underruns % 65536)
      ∧ (∀ j job r, s.findKind .repair = some (j, job) → job.body = .repair r →
          fieldAt d 26 1 = (match r.state with
                            | .verifying => 1
                            | .head => 2
                            | .seeking => 3
                            | .awaitingData => 4
                            | .receiving => 5
                            | .finishing => 6)
            ∧ fieldAt d 27 1 = job.tag % 256 ∧ fieldAt d 28 4 = takeValue job.take % 4294967296)
      ∧ (s.findKind .repair = none → fieldAt d 26 1 = 0 ∧ fieldAt d 27 1 = 0 ∧ fieldAt d 28 4 = 0)
      ∧ fieldAt d 32 2 = s.countKind .serve % 65536
      ∧ fieldAt d 34 2 = s.countJobs (fun job => match job.body with
                                                 | .receive r => r.receiving
                                                 | _ => false) % 65536
      ∧ fieldAt d 36 2 = s.countJobs (fun job => match job.body with
                                                 | .receive r => !r.receiving
                                                 | _ => false) % 65536
      ∧ fieldAt d 38 2 = s.med.free % 65536 ∧ fieldAt d 40 2 = s.med.pledged % 65536 ∧ fieldAt d 42 2 = s.med.bad % 65536
      ∧ fieldAt d 44 2 = s.lif.errors % 65536 ∧ fieldAt d 46 2 = s.lif.collisions % 65536
      ∧ fieldAt d 48 2 = s.lif.queue.length % 65536 ∧ fieldAt d 50 1 = s.lif.lastSource % 256
      ∧ fieldAt d 51 2 = s.hou.answers.length % 65536
      ∧ fieldAt d 53 1 = (match s.lif.mute with
                          | none => 0
                          | some .duplicateAddress => 1
                          | some .configuration => 2)
      ∧ fieldAt d 54 1 = (match s.act.state with
                          | .active => 0
                          | .doze => 1
                          | .sleep => 2
                          | .waking => 3)
      ∧ fieldAt d 55 1 = (reload s).act.dozeDue.toNat
      ∧ fieldAt d 56 2 = s.cpe.refused % 65536 ∧ fieldAt d 58 2 = s.cpe.lost % 65536
      ∧ fieldAt d 60 2 = s.cpe.events.length % 65536
      ∧ ∀ k n, k < 8 → s.cpe.seen[k]? = some n → fieldAt d (62 + 2 * k) 2 = n % 65536

/-- INQUIRE answers 49 bytes: vendor, part, the revision the spec leaves open (log 9), the settings in effect, where they
come from, and the capacities. -/
def Obligations.InquireAnswersTheTable : Prop :=
  ∀ s : State, s.cpe.port = .ready →
    ∃ d, exec (.inquire []) s = .next (respond .ok 2 0 d (reload s)) ∧ d.length = 49
      ∧ d.take 13 = [0x43, 0x6F, 0x6C, 0x64, 0x65, 0x73, 0x74, 0x61, 0x47, 0x4E, 0x33, 0x32, 0x30]
      ∧ fieldAt d 14 1 = s.sul.cfg.address % 256 ∧ fieldAt d 15 1 = s.sul.cfg.linkRate % 256
      ∧ fieldAt d 16 1 = s.sul.cfg.copiesWanted % 256 ∧ fieldAt d 17 1 = s.sul.cfg.burstLimit % 256
      ∧ (∀ k n, k < 9 → s.sul.cfg.knots[k]? = some n → fieldAt d (18 + k) 1 = n % 256)
      ∧ fieldAt d 27 2 = s.sul.cfg.dozeDelay % 65536 ∧ fieldAt d 29 2 = s.sul.cfg.sleepDelay % 65536
      ∧ fieldAt d 31 1 = s.sul.cfg.autoRepair.toNat ∧ fieldAt d 32 1 = s.sul.cfg.eventMask.toNat
      ∧ fieldAt d 33 1 = s.sul.defaulted.toNat ∧ fieldAt d 34 1 = s.sul.clamped.toNat
      ∧ fieldAt d 35 4 = min 0xFFFFFFFF s.med.capacity ∧ fieldAt d 39 2 = s.med.total % 65536
      ∧ fieldAt d 41 2 = 2048 ∧ fieldAt d 43 2 = 8 ∧ fieldAt d 45 2 = 96 ∧ fieldAt d 47 2 = 32

/-- EVENT_READ removes the record at the front of the queue and returns its 20 bytes with OK; on an empty queue it returns
NOT_FOUND and changes nothing. The interrupt line stands while the queue holds a record. MARK_INVENTORY clears the
inventory mark and returns OK. -/
def Obligations.EventReadAndMarkInventory : Prop :=
  ∀ s : State, s.cpe.port = .ready →
    (s.cpe.events = [] → exec (.eventRead []) s = .next (respond .notFound 14 0 [] (reload s)))
      ∧ (∀ e rest, s.cpe.events = e :: rest →
          exec (.eventRead []) s = .next (respond .ok 14 0 e.bytes { reload s with cpe.events := rest })
            ∧ e.bytes.length = 20 ∧ s.irq = true)
      ∧ (s.irq = true ↔ s.cpe.events ≠ [])
      ∧ exec (.markInventory []) s = .next (respond .ok 15 0 [] { reload s with cat.mark := false })

/-- Raising an event counts its kind, holding at 65,535; the record joins the queue if its kind is enabled and fewer than 32
wait; with 32 waiting it is lost and the lost-event counter rises, holding at 255. Nothing else changes. -/
def Obligations.RaiseCountsThenQueues : Prop :=
  ∀ (e : Event) (s : State), s.cpe.seen.length = 8 →
    { raise e s with cpe.seen := s.cpe.seen, cpe.events := s.cpe.events, cpe.lost := s.cpe.lost } = s
      ∧ (∀ n, s.cpe.seen[e.code - 1]? = some n → (raise e s).cpe.seen = s.cpe.seen.set (e.code - 1) (min 65535 (n + 1)))
      ∧ (s.sul.cfg.eventMask.getLsbD (e.code - 1) = true → s.cpe.events.length < 32 →
          (raise e s).cpe.events = s.cpe.events ++ [e] ∧ (raise e s).cpe.lost = s.cpe.lost)
      ∧ (s.sul.cfg.eventMask.getLsbD (e.code - 1) = true → 32 ≤ s.cpe.events.length →
          (raise e s).cpe.events = s.cpe.events ∧ (raise e s).cpe.lost = min 255 (s.cpe.lost + 1))
      ∧ (s.sul.cfg.eventMask.getLsbD (e.code - 1) = false →
          (raise e s).cpe.events = s.cpe.events ∧ (raise e s).cpe.lost = s.cpe.lost)

/-! ## The catalogue -/

/-- LABEL_READ of a take a live entry holds, in any state, returns OK with the 64 bytes of the label, or with the indication
that it is absent; the lookups that fail are answered as R7 says. -/
def Obligations.LabelReadReturnsTheLabel : Prop :=
  ∀ (s : State) (p : List Byte), s.cpe.port = .ready → p.length = 4 →
    ((takeParam p).valid = false → exec (.labelRead p) s = .next (respond .badParam 10 0 [] (reload s)))
      ∧ ((takeParam p).valid = true → s.findTake (takeParam p) = none →
          exec (.labelRead p) s = .next (respond .notFound 10 0 [] (reload s)))
      ∧ (∀ i e, (takeParam p).valid = true → s.findTake (takeParam p) = some (i, e) →
          (∀ l, e.label = some l → l.length = 64 →
            exec (.labelRead p) s = .next (respond .ok 10 0 (1 :: l) (reload s)))
          ∧ (e.label = none →
            exec (.labelRead p) s = .next (respond .ok 10 0 (0 :: List.replicate 64 0) (reload s))))

/-- ENTRY_READ's lookups that fail (R7): a selector above 1, an index above 2047 or an invalid take number BAD_PARAM; an
empty entry or a take no live entry holds NOT_FOUND. Otherwise it returns the record of the entry it names, by index
or by take number: the 256 bytes of the record with each field at its place (R193: state 0, role 1, take number 2, format byte 6,
end cause 7, timeline length 8, check value 12, clip count 16, copies wanted and placement status 18, attempts 19, damaged count 20,
list length and overflow flag 21, damaged list 22, holders 54, gap count 58, gaps 59, first chunk 187, chunk count 189, label 191),
and behind them the fields of R182: stored frames, stored blocks, job references, the repair condition (R161) and the inventory
mark as they stand. Nothing else changes beyond the reload. -/
def Obligations.EntryReadReturnsTheEntry : Prop :=
  ∀ (s : State) (p : List Byte), s.cpe.port = .ready → p.length = 5 →
    ((byteAt p 0).toNat = 0 ∧ 2047 < fieldAt p 1 4 ∨ 1 < (byteAt p 0).toNat
        ∨ (byteAt p 0).toNat = 1 ∧ (takeOfValue (fieldAt p 1 4)).valid = false →
      exec (.entryRead p) s = .next (respond .badParam 11 0 [] (reload s)))
    ∧ ((byteAt p 0).toNat = 0 ∧ fieldAt p 1 4 ≤ 2047 ∧ s.entryAt (fieldAt p 1 4) = none
        ∨ (byteAt p 0).toNat = 1 ∧ (takeOfValue (fieldAt p 1 4)).valid = true
            ∧ s.findTake (takeOfValue (fieldAt p 1 4)) = none →
      exec (.entryRead p) s = .next (respond .notFound 11 0 [] (reload s)))
    ∧ ∀ (i : Nat) (e : Entry), ((byteAt p 0).toNat = 0 ∧ fieldAt p 1 4 = i ∧ i ≤ 2047 ∧ s.entryAt i = some e
      ∨ (byteAt p 0).toNat = 1 ∧ (takeOfValue (fieldAt p 1 4)).valid = true
          ∧ s.findTake (takeOfValue (fieldAt p 1 4)) = some (i, e)) →
    let state := match e.state with
      | .capturing => 1
      | .held => 2
      | .receiving => 3
      | .incomplete => 4
    let width := match e.format.width with
      | .w16 => 0
      | .w24 => 1
    let channels := match e.format.channels with
      | .mono => 0
      | .stereo => 2
    let rate := match e.format.rate with
      | .unstated => 0
      | .r44 => 1
      | .r48 => 2
      | .r88 => 3
      | .r96 => 4
    let cause := match e.endCause with
      | none => 0
      | some .normal => 1
      | some .overrun => 2
      | some .mediaFull => 3
      | some .mediaFault => 4
      | some .reset => 5
    let placement := match e.placement with
      | .notNeeded => 0
      | .queued => 1
      | .inProgress => 2
      | .satisfied => 3
    let record : List Byte :=
      beBytes 1 state ++ beBytes 1 (match e.role with
                                    | .origin => 0
                                    | .copy => 1)
        ++ beBytes 4 (e.take.node * 134217728 + e.take.seq) ++ beBytes 1 (width + channels + 16 * rate) ++ beBytes 1 cause
        ++ beBytes 4 e.timelineLength ++ beBytes 4 e.check.toNat ++ beBytes 2 e.clips ++ beBytes 1 (e.copiesWanted + 16 * placement)
        ++ beBytes 1 e.attempts ++ beBytes 1 e.damagedCount ++ beBytes 1 (e.damaged.length + if e.overflow then 128 else 0)
        ++ fitBytes 32 (e.damaged.flatMap (beBytes 4 ·))
        ++ (e.holders.map (BitVec.ofNat 8 ·) ++ List.replicate (4 - e.holders.length) 0xFF) ++ beBytes 1 e.gaps.length
        ++ fitBytes 128 (e.gaps.flatMap fun g => beBytes 4 g.start ++ beBytes 4 g.length) ++ beBytes 2 e.firstChunk
        ++ beBytes 2 e.chunkCount ++ (beBytes 1 (if e.label.isSome then 1 else 0) ++ fitBytes 64 (e.label.getD []))
    ∃ condition : Nat,
      exec (.entryRead p) s = .next (respond .ok 11 0
          (record ++ beBytes 4 e.storedFrames ++ beBytes 4 e.storedBlocks ++ beBytes 1 e.jobRefs ++ beBytes 1 condition
            ++ beBytes 1 s.cat.mark.toNat) (reload s))
        ∧ (condition = 0 ↔ e.damaged = [] ∧ e.damagedCount = 0 ∧ e.overflow = false)
        ∧ (condition = 1 ↔ e.damaged ≠ [])
        ∧ (condition = 2 ↔ e.damaged = [] ∧ (e.damagedCount ≠ 0 ∨ e.overflow = true))

/-- WITHDRAW's tests in R16's order, and its effect: the entry is freed as R11 says and a NOTICE DROPPED to destination 63
is produced; a refused WITHDRAW changes nothing. Of the chain, the entry's own chunks become FREE, the free count rising by one
for each, BAD ones stay BAD and unlinked, and each chunk changed queues its map item (R35). `settle` is the arbiter's look that
follows. -/
def Obligations.WithdrawFreesTheEntry : Prop :=
  ∀ (s : State) (p : List Byte), s.Sound → s.cpe.port = .ready → p.length = 4 →
    ((takeParam p).valid = false → exec (.withdraw p) s = .next (respond .badParam 12 0 [] (reload s)))
      ∧ ((takeParam p).valid = true → s.findTake (takeParam p) = none →
          exec (.withdraw p) s = .next (respond .notFound 12 0 [] (reload s)))
      ∧ (∀ i e, (takeParam p).valid = true → s.findTake (takeParam p) = some (i, e) →
          (e.state = .capturing ∨ e.state = .receiving ∨ 0 < e.jobRefs →
            exec (.withdraw p) s = .next (respond .locked 12 0 [] (reload s)))
          ∧ (e.state = .held ∨ e.state = .incomplete → e.jobRefs = 0 →
            ∃ u, exec (.withdraw p) s = .next (respond .ok 12 0 [] (settle u))
              ∧ u.entryAt i = none ∧ (∀ k, k ≠ i → u.entryAt k = s.entryAt k)
              ∧ (∀ c ∈ s.chain e, (s.chunkAt c).owner = .entry i → u.chunkAt c = freeChunk)
              ∧ (∀ c ∈ s.chain e, (s.chunkAt c).owner = .bad → u.chunkAt c = { owner := .bad, next := none, used := 0 })
              ∧ (∀ c ∈ s.chain e, u.chunkAt c ≠ s.chunkAt c → c / 80 ∈ u.med.mapList)
              ∧ ((s.chain e).Nodup → u.med.free
                  = s.med.free + ((s.chain e).filter (fun c => (s.chunkAt c).owner == .entry i)).length)
              ∧ (∀ c, c ∉ s.chain e → u.chunkAt c = s.chunkAt c)
              ∧ u.med.bad = s.med.bad ∧ u.med.pledged = s.med.pledged ∧ u.med.store = s.med.store
              ∧ u.cat.queue = s.cat.queue.filter (fun q => q.1 ≠ i)
              ∧ (∃ l, u.cat.wt = l ++ [.entry i] ∧ l.Sublist s.cat.wt ∧ .entry i ∉ l ∧ ∀ label, .head i label ∉ l)
              ∧ u.cat.mark = true ∧ u.cat.counter = s.cat.counter ∧ u.jt = s.jt ∧ u.cpe = s.cpe ∧ u.port = s.port
              ∧ (s.linkStanding = true →
                  .some { src := s.own, dst := 63, dir := .out, tag := 0, take := e.take, payload := .notice .dropped }
                    = (u.cat.notices.getLast?.orElse fun _ => (u.lif.queue.getLast?.map (·.frame))))))

/-- LABEL_WRITE, after R7's checks: on a CAPTURING entry the label is set at once, queued for write-through, and the
response is OK; on a HELD origin entry not yet offered to a peer the head block is rewritten, the port BUSY meanwhile;
in any other case LOCKED, the label as it was. The 69 parameter bytes are the model's reading (log 17). -/
def Obligations.LabelWriteByEntryState : Prop :=
  ∀ (s : State) (p : List Byte), s.Sound → s.cpe.port = .ready → p.length = 69 →
    (1 < (byteAt p 4).toNat ∨ (takeParam p).valid = false →
      exec (.labelWrite p) s = .next (respond .badParam 9 0 [] (reload s)))
    ∧ ((byteAt p 4).toNat ≤ 1 → (takeParam p).valid = true → s.findTake (takeParam p) = none →
      exec (.labelWrite p) s = .next (respond .notFound 9 0 [] (reload s)))
    ∧ ∀ (i : Nat) (e : Entry) (label : Option (List Byte)),
    (takeParam p).valid = true → s.findTake (takeParam p) = some (i, e) →
    ((byteAt p 4).toNat = 0 ∧ label = none ∨ (byteAt p 4).toNat = 1 ∧ label = some (p.drop 5)) →
    (e.state = .capturing →
      ∃ u, exec (.labelWrite p) s = .next (respond .ok 9 0 [] (settle u))
        ∧ u.entryAt i = some { e with label := label } ∧ (∀ k, k ≠ i → u.entryAt k = s.entryAt k)
        ∧ .entry i ∈ u.cat.wt ∧ u.cat.mark = s.cat.mark ∧ u.med = s.med ∧ u.lif = s.lif ∧ u.hou = s.hou ∧ u.port = s.port)
      ∧ ((e.state = .held ∧ e.role = .origin ∧ (∀ a ∈ e.holders, a = s.own)
            ∧ (e.placement = .notNeeded ∨ e.placement = .queued ∧ e.attempts = 0)) →
          exec (.labelWrite p) s = .next (settle
            { reload s with cpe.port := .busy, cpe.current := some .labelWrite, cpe.response := none,
                            cat.wt := s.cat.wt ++ [.head i label] }))
      ∧ (¬ e.state = .capturing →
          ¬ (e.state = .held ∧ e.role = .origin ∧ (∀ a ∈ e.holders, a = s.own)
              ∧ (e.placement = .notNeeded ∨ e.placement = .queued ∧ e.attempts = 0)) →
          exec (.labelWrite p) s = .next (respond .locked 9 0 [] (reload s)))

/-- REPAIR's tests in R162's order; on OK a job is created, it takes a reference on the entry, and the response carries its tag. The
job is VERIFYING and has requested its first 8 reads: those of the damaged list, in the list's own order (the model's choice for one
loaded out of order, log 66), or, with the overflow flag set, of every sequence from 0 up (R163). With a count but neither a list
nor the flag there is nothing to read: the job ends OK at once. -/
def Obligations.RepairCommandTests : Prop :=
  ∀ (s : State) (p : List Byte), s.Sound → s.cpe.port = .ready → p.length = 4 →
    ((takeParam p).valid = false → exec (.repair p) s = .next (respond .badParam 13 0 [] (reload s)))
    ∧ ((takeParam p).valid = true → s.findTake (takeParam p) = none →
      exec (.repair p) s = .next (respond .notFound 13 0 [] (reload s)))
    ∧ ∀ (i : Nat) (e : Entry), (takeParam p).valid = true → s.findTake (takeParam p) = some (i, e) →
    (e.state = .capturing ∨ e.state = .receiving → exec (.repair p) s = .next (respond .locked 13 0 [] (reload s)))
      ∧ (e.state = .held ∨ e.state = .incomplete →
          (e.damaged = [] → e.damagedCount = 0 → e.overflow = false →
            exec (.repair p) s = .next (respond .notFound 13 0 [] (reload s)))
          ∧ (e.damaged ≠ [] ∨ e.damagedCount ≠ 0 ∨ e.overflow = true →
              ((∃ j job, s.jobAt j = some job ∧ job.kind = .repair) ∨ 8 ≤ s.jt.jobs.length →
                exec (.repair p) s = .next (respond .noSlot 13 0 [] (reload s)))
              ∧ ((∀ j job, s.jobAt j = some job → job.kind ≠ .repair) → s.jt.jobs.length < 8 →
                ∃ u, exec (.repair p) s = .next (respond .ok 13 s.nextJobTag [] (settle u))
                  ∧ (e.overflow = true ∧ 0 < e.storedBlocks ∨ e.overflow = false ∧ e.damaged ≠ [] →
                      ∃ j job r, s.jobAt j = none ∧ u.jobAt j = some job
                      ∧ job.body = .repair r ∧ r.state = .verifying ∧ r.scan = e.overflow ∧ r.cleared = 0 ∧ r.tally = 0
                      ∧ job.tag = s.nextJobTag ∧ job.take = some e.take ∧ job.entry = some i
                      ∧ (∃ n, 1 ≤ n ∧ (s.issuedBy j = false → n = 8)
                          ∧ (e.overflow = false → job.reqs = (e.damaged.take n).map .read ∧ r.todo = e.damaged.drop n)
                          ∧ (e.overflow = true → job.reqs = (List.range (min n e.storedBlocks)).map .read
                              ∧ r.scanNext = min n e.storedBlocks ∧ r.scanEnd = e.storedBlocks))
                      ∧ u.entryAt i = some { e with jobRefs := e.jobRefs + 1 }
                      ∧ (∀ k, k ≠ i → u.entryAt k = s.entryAt k) ∧ (∀ k, k ≠ j → u.jobAt k = s.jobAt k)
                      ∧ u.med = s.med ∧ u.lif = s.lif ∧ u.hou = s.hou ∧ u.port = s.port)
                  ∧ (e.overflow = false → e.damaged = [] → s.issuedBy s.freeRecord = false →
                      (∀ k, u.entryAt k = s.entryAt k) ∧ (∀ k, u.jobAt k = s.jobAt k)
                        ∧ u.cpe = (raise (.doneJob s.nextJobTag .repair .ok (some e.take) 0xFF 0 0) s).cpe))))

/-! ## Capture -/

/-- ARM's tests in R51's order; on OK a CAPTURE job in ARMED is created with the format and the pre-roll, clamped to 64,
takes the sample port with its data line as an input (R48), and the response carries its tag and the pre-roll in effect. -/
def Obligations.ArmTests : Prop :=
  ∀ (s : State) (b p : Byte), s.Sound → s.cpe.port = .ready →
    (4 < b.toNat / 16 % 8 → exec (.arm [b, p]) s = .next (respond .badParam 3 0 [] (reload s)))
      ∧ (∀ f, formatOfByte b = some f →
          (s.port.owner ≠ none → exec (.arm [b, p]) s = .next (respond .streamBusy 3 0 [] (reload s)))
          ∧ (s.port.owner = none → 8 ≤ s.jt.jobs.length →
              exec (.arm [b, p]) s = .next (respond .noSlot 3 0 [] (reload s)))
          ∧ (s.port.owner = none → s.jt.jobs.length < 8 →
              ∃ u j job c, exec (.arm [b, p]) s = .next (respond .ok 3 s.nextJobTag [BitVec.ofNat 8 (min 64 p.toNat)] (settle u))
                ∧ j < 8 ∧ s.jobAt j = none ∧ u.jobAt j = some job ∧ job.body = .capture c ∧ c.state = .armed ∧ c.format = f
                ∧ c.preRoll = min 64 p.toNat ∧ c.ring = [] ∧ job.tag = s.nextJobTag ∧ job.take = none
                ∧ (∀ k, k ≠ j → u.jobAt k = s.jobAt k)
                ∧ u.port = { owner := some j, line := .input, lineHigh := [], lineLow := [] }
                ∧ { u with jt := s.jt, act := s.act, port := s.port } = s))

/-- The tag of a new job is the next in rotation, from the rotation's place on, that no live job holds as its job tag or as
its exchange tag; an answering job's exchange tag is its opener's job tag (log 18). -/
def Obligations.TagsPassOverLiveJobs : Prop :=
  ∀ s : State, s.jt.nextTag < 256 → (∃ t < 256, ∀ p ∈ s.jt.jobs, p.2.holdsTag t = false) →
    s.nextJobTag < 256 ∧ (∀ p ∈ s.jt.jobs, p.2.tag ≠ s.nextJobTag ∧ p.2.exTag ≠ some s.nextJobTag)
      ∧ ∃ k < 256, s.nextJobTag = (s.jt.nextTag + k) % 256
        ∧ ∀ n < k, ∃ p ∈ s.jt.jobs, p.2.holdsTag ((s.jt.nextTag + n) % 256) = true

/-- START's tests in R53's order, each refusal leaving the capture as it was. Accepted (R54): the counter rises by one,
the CAPTURING entry stands at the lowest empty index with its head block's chunk, the ring becomes the take's first
blocks with the oldest frame at offset 0, the capture is RUNNING, the counter item stands before the entry item, and
the port is BUSY. The tag 0 of a refusal is the model's reading (log 17); that a number some live entry holds is issued all the
same is its choice (log 57), and so is the refusal of a counter above 134,217,727, to which R5 and R53 give no meaning (log 49). -/
def Obligations.StartTestsAndEffect : Prop :=
  ∀ s : State, s.cpe.port = .ready →
    (s.findKind .capture = none → exec (.start []) s = .next (respond .locked 4 0 [] (reload s)))
      ∧ (∀ j job c, s.captureJob = some (j, job, c) →
          (c.state ≠ .armed → exec (.start []) s = .next (respond .locked 4 0 [] (reload s)))
          ∧ (c.state = .armed → s.cat.fault = true → exec (.start []) s = .next (respond .mediaFault 4 0 [] (reload s)))
          ∧ (c.state = .armed → s.cat.fault = false → 2048 ≤ s.cat.entries.length + s.cat.reserved →
              exec (.start []) s = .next (respond .catalogueFull 4 0 [] (reload s)))
          ∧ (c.state = .armed → s.cat.fault = false → s.cat.entries.length + s.cat.reserved < 2048 →
              s.med.free - s.med.pledged < 1 → exec (.start []) s = .next (respond .mediaFull 4 0 [] (reload s)))
          ∧ (c.state = .armed → s.cat.fault = false → s.cat.entries.length + s.cat.reserved < 2048 →
              1 ≤ s.med.free - s.med.pledged → 134217727 ≤ s.cat.counter →
              exec (.start []) s = .next (respond .mediaFault 4 0 [] (reload s))))
      ∧ (∀ (j : Nat) (job : Job) (c : CaptureJob) (chunk : Nat), s.Sound → s.captureJob = some (j, job, c) → c.state = .armed → s.cat.fault = false →
          s.cat.entries.length + s.cat.reserved < 2048 → 1 ≤ s.med.free - s.med.pledged → s.cat.counter < 134217727 →
          s.lowestFree = some chunk →
          ∃ u i e job' c', exec (.start []) s = .next (settle u)
            ∧ u.cat.counter = s.cat.counter + 1
            ∧ s.entryAt i = none ∧ (∀ k < i, s.entryAt k ≠ none) ∧ u.entryAt i = some e ∧ (∀ k, k ≠ i → u.entryAt k = s.entryAt k)
            ∧ e.take = { node := s.own, seq := s.cat.counter + 1 } ∧ e.role = .origin ∧ e.state = .capturing
            ∧ e.format = c.format ∧ e.storedBlocks = 1 ∧ e.storedFrames = 0 ∧ e.check = crcEmpty ∧ e.gaps = [] ∧ e.label = none
            ∧ e.endCause = none ∧ e.holders = [] ∧ e.placement = .notNeeded ∧ e.firstChunk = chunk ∧ e.chunkCount = 1
            ∧ e.jobRefs = 1
            ∧ u.chunkAt chunk = { owner := .entry i, next := none, used := 1 } ∧ u.med.free = s.med.free - 1
            ∧ (∀ k, k ≠ chunk → u.chunkAt k = s.chunkAt k)
            ∧ (∃ l, u.cat.wt = l ++ [.counter, .entry i]) ∧ u.cat.mark = true
            ∧ u.jobAt j = some job' ∧ job'.take = some e.take ∧ job'.entry = some i ∧ job'.tag = job.tag ∧ job'.body = .capture c'
            ∧ (∀ k, k ≠ j → u.jobAt k = s.jobAt k)
            ∧ c'.state = .running ∧ c'.ring = [] ∧ c'.closed.map (·.bytes) = c.ring.map (·.bytes)
            ∧ (∀ b, c'.closed.head? = some b → b.start = 0)
            ∧ c'.offset = (c.ring.map (·.frames)).sum + (c.filling.map (·.frames)).getD 0
            ∧ c'.gaps = [] ∧ c'.storedFrames = 0 ∧ c'.check = crcEmpty ∧ c'.clips = 0
            ∧ u.cpe.port = .busy ∧ u.cpe.current = some (.start job.tag e.take)
            ∧ u.lif = s.lif ∧ u.hou = s.hou ∧ u.port = s.port ∧ u.notes = s.notes)

/-- STOP by the capture's state (R64): LOCKED in IDLE; in ARMED the job ends OK with no entry; in RUNNING the take is cut
with NORMAL at the open discard run's start or at the current offset, a block being filled that holds a frame is kept, and
the capture is DRAINING; in DRAINING no effect. The job tag 0 of an OK is the model's reading (log 17). -/
def Obligations.StopByCaptureState : Prop :=
  ∀ s : State, s.Sound → s.cpe.port = .ready →
    (s.findKind .capture = none → exec (.stop []) s = .next (respond .locked 5 0 [] (reload s)))
      ∧ (∀ j job c, s.captureJob = some (j, job, c) →
          (c.state = .armed → job.entry = none →
            ∃ u, exec (.stop []) s = .next (respond .ok 5 0 [] (settle u)) ∧ u.jobAt j = none
              ∧ (∀ k, k ≠ j → u.jobAt k = s.jobAt k) ∧ u.port.owner ≠ some j ∧ u.cat = s.cat
              ∧ u.cpe = (raise (.doneJob job.tag .capture .ok job.take 0 0 0) s).cpe)
          ∧ (c.state = .running → c.cut = none →
            ∃ u job' c', exec (.stop []) s = .next (respond .ok 5 0 [] (settle u))
              ∧ u.jobAt j = some job' ∧ job'.body = .capture c' ∧ (∀ k, k ≠ j → u.jobAt k = s.jobAt k)
              ∧ { u with jt := s.jt, act := s.act } = s
              ∧ c'.state = .draining ∧ c'.filling = none ∧ c'.discard = none
              ∧ c'.cut = some ((match c.discard with
                                | some (start, _) => start
                                | none => c.offset), .normal)
              ∧ (c.discard = none → (∀ b ∈ c.closed, b.start < c.offset) →
                  c'.closed = c.closed ++ (match c.filling with
                                           | some b => if b.frames = 0 then [] else [b]
                                           | none => [])))
          ∧ (c.state = .draining → exec (.stop []) s = .next (respond .ok 5 0 [] (reload s))))

/-- ABORT by the capture's state (R67): LOCKED in IDLE; ARMED as STOP; in RUNNING or DRAINING with no write issued the entry
is freed, the job ends CANCELLED and OK is answered; with a write issued the port stays BUSY and the capture holds nothing
but the block of that write. The job tag 0 of an OK is the model's reading (log 17). -/
def Obligations.AbortByCaptureState : Prop :=
  ∀ s : State, s.Sound → s.cpe.port = .ready →
    (s.findKind .capture = none → exec (.abort []) s = .next (respond .locked 6 0 [] (reload s)))
      ∧ (∀ j job c, s.captureJob = some (j, job, c) →
          (c.state = .armed → job.entry = none →
            ∃ u, exec (.abort []) s = .next (respond .ok 6 0 [] (settle u)) ∧ u.jobAt j = none ∧ u.cat = s.cat
              ∧ u.cpe = (raise (.doneJob job.tag .capture .ok job.take 0 0 0) s).cpe)
          ∧ (∀ i e, c.state ≠ .armed → s.issuedBy j = false → job.entry = some i → s.entryAt i = some e →
            ∃ u v, exec (.abort []) s = .next (settle (respond .ok 6 0 [] u)) ∧ u.jobAt j = none
              ∧ (∀ k, k ≠ j → u.jobAt k = s.jobAt k) ∧ u.entryAt i = none ∧ (∀ k, k ≠ i → u.entryAt k = s.entryAt k)
              ∧ (∀ x ∈ s.chain e, (s.chunkAt x).owner = .entry i → u.chunkAt x = freeChunk)
              ∧ u.port.owner ≠ some j ∧ u.cat.counter = s.cat.counter ∧ u.cat.mark = true
              ∧ u = raise (.doneJob job.tag .capture .cancelled job.take 0 0 0) v)
          ∧ (c.state ≠ .armed → s.issuedBy j = true →
            ∃ u job' c', exec (.abort []) s = .next (settle u) ∧ u.cpe.port = .busy ∧ u.cpe.current = some .abort
              ∧ u.jobAt j = some job' ∧ job'.body = .capture c' ∧ c'.ending = some .abort ∧ c'.state = .draining
              ∧ c'.filling = none ∧ c'.discard = none ∧ c'.closed.length ≤ 1 ∧ c'.ring = [] ∧ c'.waiting = none
              ∧ u.cat = s.cat ∧ u.med = s.med))

/-! ## Retrieval and the sample port -/

/-- RETRIEVE's tests in R141's order, and the source R142 chooses: LOCAL where the take's local entry serves the stretch
cleanly or the node is in LINK_MUTE, otherwise LINK, with a SEEK for the transmit queue, or, on a node that may not send, the end
LINK_CONGESTED at once. That a stretch lying wholly in gaps goes to the link where the entry's overflow flag is set, as
`Entry.cleanFor` has it, is the model's reading (log 42). The job takes the port with its data line as an output (R141). -/
def Obligations.RetrieveTestsAndSource : Prop :=
  ∀ (s : State) (p : List Byte), s.Sound → s.cpe.port = .ready → p.length = 13 →
    ((takeParam p).valid = false ∨ 1 < (byteAt p 12).toNat →
      exec (.retrieve p) s = .next (respond .badParam 7 0 [] (reload s)))
      ∧ ((takeParam p).valid = true → (byteAt p 12).toNat ≤ 1 →
          (s.port.owner ≠ none → exec (.retrieve p) s = .next (respond .streamBusy 7 0 [] (reload s)))
          ∧ (s.port.owner = none → 8 ≤ s.jt.jobs.length →
              exec (.retrieve p) s = .next (respond .noSlot 7 0 [] (reload s)))
          ∧ (s.port.owner = none → s.jt.jobs.length < 8 →
              (∀ i e, s.playableEntry (takeParam p) = some (i, e) → e.timelineLength ≤ fieldAt p 4 4 →
                exec (.retrieve p) s = .next (respond .badParam 7 0 [] (reload s)))
              ∧ (∀ i e, s.playableEntry (takeParam p) = some (i, e) → fieldAt p 4 4 < e.timelineLength →
                  e.cleanFor (fieldAt p 4 4) (fieldAt p 8 4) = true ∨ s.muted = true →
                  ∃ u j job pl, exec (.retrieve p) s = .next (respond .ok 7 s.nextJobTag [0] (settle u))
                    ∧ s.jobAt j = none ∧ u.jobAt j = some job ∧ job.tag = s.nextJobTag ∧ job.take = some (takeParam p)
                    ∧ job.entry = some i ∧ job.body = .play pl ∧ pl.state = .localStore ∧ pl.cursor = fieldAt p 4 4
                    ∧ pl.started = false ∧ u.port = { owner := some j, line := .output, lineHigh := [], lineLow := [] }
                    ∧ u.entryAt i = some { e with jobRefs := e.jobRefs + 1 }
                    ∧ (∀ k, k ≠ i → u.entryAt k = s.entryAt k) ∧ (∀ k, k ≠ j → u.jobAt k = s.jobAt k)
                    ∧ u.med = s.med ∧ u.lif = s.lif ∧ u.cpe = s.cpe)
              ∧ ((s.playableEntry (takeParam p) = none
                    ∨ ∃ i e, s.playableEntry (takeParam p) = some (i, e) ∧ fieldAt p 4 4 < e.timelineLength
                        ∧ e.cleanFor (fieldAt p 4 4) (fieldAt p 8 4) = false) → s.linkStanding = true →
                  ∃ u j job pl seek, exec (.retrieve p) s = .next (respond .ok 7 s.nextJobTag [1] (settle u))
                    ∧ s.jobAt j = none ∧ u.jobAt j = some job ∧ job.tag = s.nextJobTag ∧ job.take = some (takeParam p)
                    ∧ job.entry = none ∧ job.body = .play pl ∧ pl.state = .seeking
                    ∧ u.port = { owner := some j, line := .output, lineHigh := [], lineLow := [] }
                    ∧ seek = { src := s.own, dst := 63, dir := .out, tag := s.nextJobTag, take := takeParam p,
                               payload := .seek (fieldAt p 4 4) (fieldAt p 8 4) .play 0 0 [] }
                    ∧ (s.lif.queue.length < 16 →
                        u.lif.queue = s.lif.queue ++ [{ frame := seek, owner := some j }] ∧ job.outbox = [])
                    ∧ (16 ≤ s.lif.queue.length → u.lif = s.lif ∧ job.outbox = [seek])
                    ∧ u.cat = s.cat ∧ (∀ k, k ≠ j → u.jobAt k = s.jobAt k) ∧ u.med = s.med ∧ u.cpe = s.cpe)
              ∧ ((s.playableEntry (takeParam p) = none
                    ∨ ∃ i e, s.playableEntry (takeParam p) = some (i, e) ∧ fieldAt p 4 4 < e.timelineLength
                        ∧ e.cleanFor (fieldAt p 4 4) (fieldAt p 8 4) = false ∧ s.muted = false) → s.linkStanding = false →
                  ∃ u, exec (.retrieve p) s = .next (respond .ok 7 s.nextJobTag [1] (settle u))
                    ∧ (∀ k, u.jobAt k = s.jobAt k) ∧ u.port.owner = none ∧ u.port.line = .released ∧ u.cat = s.cat
                    ∧ u.cpe = (raise (.doneJob s.nextJobTag .play .linkCongested (some (takeParam p)) 0xFF 0 0) s).cpe)))

/-- CANCEL: a tag that no live job holds as its own job tag is answered NOT_FOUND; a job that is no capture ends CANCELLED
at once, with the parting ABANDON CANCELLED of its kind where the queue has room: REPLICATE to 63 (R114), RECEIVE and SERVE to the
opener (R120, R150), PLAY and REPAIR to the granted holder once the GRANT is sent and while the transfer lives (R157, R168), and
none otherwise; a capture in ARMED ends as a STOP does; one that has a take keeps the port BUSY while a write of it is
issued. The tag that the response carries at NOT_FOUND, that a repair in FINISHING tells its holder, and that the JOB_DONE comes
after the COPIES_SHORT of a placement is the model's reading (logs 17, 71, 77). -/
def Obligations.CancelEndsTheNamedJob : Prop :=
  ∀ (s : State) (b : Byte), s.Sound → s.cpe.port = .ready →
    ((∀ k job, s.jobAt k = some job → job.tag ≠ b.toNat) →
      exec (.cancel [b]) s = .next (respond .notFound 8 b.toNat [] (reload s)))
      ∧ (∀ j job, s.findJob (fun job => job.tag == b.toNat) = some (j, job) →
          (job.kind ≠ .capture →
            ∃ u v x y z, exec (.cancel [b]) s = .next (respond .ok 8 b.toNat [] (settle u)) ∧ u.jobAt j = none
              ∧ (∀ k, k ≠ j → u.jobAt k = s.jobAt k) ∧ u.port.owner ≠ some j
              ∧ (s.port.owner = some j → u.port.line = .released)
              ∧ u = raise (.doneJob job.tag job.kind .cancelled job.take x y z) v
              ∧ (∀ tag take, job.exTag = some tag → job.take = some take → s.linkStanding = true → s.lif.queue.length < 16 →
                  let told := fun (dst : Nat) (dir : Direction) =>
                    u.lif.queue.getLast? = some { frame := { src := s.own, dst := dst, dir := dir, tag := tag, take := take,
                                                             payload := .abandon .cancelled }, owner := none }
                  let silent := ∀ q ∈ u.lif.queue, ∃ q' ∈ s.lif.queue, q'.frame = q.frame
                  (∀ r, job.body = .replicate r → told 63 .out)
                    ∧ (∀ r, job.body = .receive r → told job.opener .back)
                    ∧ (∀ r, job.body = .serve r → told job.opener .back)
                    ∧ (∀ p h, job.body = .play p → p.holder = some h →
                        ((p.state = .awaitingData ∨ p.state = .playing) ∧ p.grantSent = true → told h .out)
                          ∧ ((p.state ≠ .awaitingData ∧ p.state ≠ .playing) ∨ p.grantSent = false → silent))
                    ∧ (∀ r h, job.body = .repair r → r.holder = some h →
                        (r.grantSent = true → told h .out) ∧ (r.grantSent = false → silent))))
          ∧ (∀ c, job.body = .capture c → c.state = .armed →
            ∃ u v x y z, exec (.cancel [b]) s = .next (respond .ok 8 b.toNat [] (settle u)) ∧ u.jobAt j = none
              ∧ u = raise (.doneJob job.tag .capture .ok job.take x y z) v)
          ∧ (∀ c, job.body = .capture c → c.state ≠ .armed → s.issuedBy j = false →
            ∃ u v x y z, exec (.cancel [b]) s = .next (settle (respond .ok 8 b.toNat [] u)) ∧ u.jobAt j = none
              ∧ u = raise (.doneJob job.tag .capture .cancelled job.take x y z) v)
          ∧ (∀ c, job.body = .capture c → c.state ≠ .armed → s.issuedBy j = true →
            ∃ u, exec (.cancel [b]) s = .next (settle u) ∧ u.cpe.port = .busy ∧ u.cpe.current = some (.cancel b.toNat)
              ∧ u.med = s.med ∧ u.cat = s.cat))

/-- SOFT_RESET with no take being captured: every job is gone without an event, the queue holds ABANDON frames alone, the
notes, the records and the counters are emptied, OK is answered. The queue is that of R88: in job record order an ABANDON RESET of
each link job that has one to give, and none in LINK_MUTE; a placement tells 63 (R114), a RECEIVE or SERVE job its opener (R120,
R158), a PLAY job its holder once the GRANT is SENT and while the transfer lives (R158), a REPAIR job its granted holder, whether or
not the GRANT is SENT (R168; that one in FINISHING does so too is the model's reading, log 71). What R190 lists as kept is kept: each entry no job holds, but
for its repair hold (R168), and where no RECEIVE job holds an entry, which its end frees, the chunk map, the free and bad
counts, the map-write list and the mark, with the placement and write-through queues as they were but for what the end of
REPLICATE jobs adds. The sample port is unowned and its line released (for a CAPTURE job's line that is the model's choice, log 55).
With a take being captured the port stays BUSY. -/
def Obligations.SoftResetEndsEveryJob : Prop :=
  ∀ s : State, s.Sound → s.cpe.port = .ready →
    ((∀ j job c, s.jobAt j = some job → job.body = .capture c → c.state = .armed) →
      ∃ u, exec (.softReset []) s = .next (settle u) ∧ u.jt.jobs = [] ∧ u.jt.nextTag = s.jt.nextTag
        ∧ u.cpe = { s.cpe with port := .responseWaiting, current := none,
                               response := some { result := .ok, code := 16, tag := 0, data := [] }, events := [],
                               seen := [0, 0, 0, 0, 0, 0, 0, 0], lost := 0, refused := 0 }
        ∧ u.irq = false ∧ u.notes = [] ∧ (∀ r ∈ u.hou.answers, r.doomed = true)
        ∧ (∀ t ∈ u.lif.queue, t.owner = none ∧ t.frame.payload = .abandon .reset)
        ∧ (s.linkStanding = false → u.lif.queue = [])
        ∧ (s.linkStanding = true → u.lif.queue.map (·.frame) = s.jt.jobs.filterMap fun p =>
            let abandon := fun (dst : Nat) (dir : Direction) => s.jobFrame p.2 dst dir (.abandon .reset)
            match p.2.body with
            | .capture _ => none
            | .replicate _ => some (abandon 63 .out)
            | .receive _ | .serve _ => some (abandon p.2.opener .back)
            | .play v => if (v.state = .awaitingData ∨ v.state = .playing) ∧ v.grantSent = true
                then v.holder.map (abandon · .out) else none
            | .repair v => v.holder.map (abandon · .out))
        ∧ u.lif.errors = 0 ∧ u.lif.collisions = 0 ∧ u.lif.lastSource = s.lif.lastSource ∧ u.lif.lfsr = s.lif.lfsr
        ∧ u.lif.mute = s.lif.mute ∧ u.lif.medium = s.lif.medium ∧ u.cat.counter = s.cat.counter
        ∧ u.cat.notices = s.cat.notices ∧ u.cat.fault = s.cat.fault ∧ u.sul = s.sul ∧ u.act.state = s.act.state
        ∧ u.med.store = s.med.store ∧ u.med.total = s.med.total
        ∧ (∀ i e, s.entryAt i = some e → (∀ k job, s.jobAt k = some job → job.entry ≠ some i) →
            u.entryAt i = some { e with repairHold := none })
        ∧ ((∀ k job, s.jobAt k = some job → job.kind = .receive → job.entry = none) →
            u.med.chunks = s.med.chunks ∧ u.med.free = s.med.free ∧ u.med.bad = s.med.bad ∧ u.med.mapList = s.med.mapList
              ∧ u.cat.mark = s.cat.mark ∧ s.cat.queue <+: u.cat.queue ∧ s.cat.wt <+: u.cat.wt
              ∧ ((∀ k job, s.jobAt k = some job → job.kind = .replicate → job.entry = none) →
                  u.cat.queue = s.cat.queue ∧ u.cat.wt = s.cat.wt))
        ∧ (∀ j, s.port.owner = some j → (s.jobAt j).isSome = true → u.port.owner = none ∧ u.port.line = .released))
      ∧ (∀ j job c, s.jobAt j = some job → job.body = .capture c → c.state ≠ .armed →
          ∃ u, exec (.softReset []) s = .next (settle u) ∧ u.cpe.port = .busy ∧ u.cpe.current = some .softReset
            ∧ (u.jobAt j).isSome = true)

/-- SAMPLE_FRAME_IN: a whole period reaches the CAPTURE job that owns the port. In ARMED its bytes join the ring, which
keeps the newest pre-roll blocks; in RUNNING they join the block being filled, or the frame joins the discard run when
no slot is free, and the offset rises by one; the frame at the timeline's last offset cuts the take with NORMAL. In SLEEP the
port carries no frame (R171). A period that is not whole is an operand, the model's choice (log 24). -/
def Obligations.SampleFrameInFillsBlocks : Prop :=
  ∀ (s : State) (j : Nat) (job : Job) (c : CaptureJob) (high low : List Bool),
    s.port.owner = some j → s.jobAt j = some job → job.body = .capture c →
    exec (.sampleFrameIn false high low) s = .next s
      ∧ (s.act.state = .sleep → exec (.sampleFrameIn true high low) s = .next s)
      ∧ (s.act.state ≠ .sleep → ∃ u c', exec (.sampleFrameIn true high low) s = .next (settle u)
        ∧ u = { s with jt.jobs := smapSet s.jt.jobs j { job with body := .capture c' } }
        ∧ (c.state = .draining → c' = c)
        ∧ (c.state = .armed → ∀ b, b = (c.filling.getD (emptyBlock 0)).add c.format (frameSamples c.format high low) →
            (b.frames ≠ c.format.perBlock → c' = { c with filling := some b })
            ∧ (b.frames = c.format.perBlock → c' = { c with filling := none, ring := c'.ring }
                ∧ c'.ring <:+ c.ring ++ [b] ∧ c'.ring.length = min c.preRoll (c.ring.length + 1)))
        ∧ (c.state = .running → c.offset ≠ 4294967294 →
            c'.offset = c.offset + 1
            ∧ ((c.filling.isSome = true ∨ c.closed.length < 96) → c'.discard = c.discard
                ∧ (c'.filling.elim c'.closed (fun b => c'.closed ++ [b])).flatMap (·.bytes)
                    = (c.filling.elim c.closed (fun b => c.closed ++ [b])).flatMap (·.bytes)
                        ++ frameBytesOf c.format (frameSamples c.format high low))
            ∧ (c.filling = none → 96 ≤ c.closed.length → c'.closed = c.closed ∧ c'.filling = none
                ∧ c'.discard = some (match c.discard with
                                     | none => (c.offset, 1)
                                     | some (start, n) => (start, n + 1))))
        ∧ (c.state = .running → c.offset = 4294967294 → c.cut = none → c.discard = none → c'.state = .draining
            ∧ (c.filling.isSome = true ∨ c.closed.length < 96 → c'.cut = some (4294967295, .normal))))

/-- SAMPLE_FRAME_OUT with a PLAY job owning the port: zeros until output starts; then the frame the cursor finds, channel 1 in the
high half and channel 2, or channel 1 again, in the low half, the cursor moving on by one; in a gap zeros, the cursor moving on too
(R144); where the frame's block is not ready, zeros, one underrun more and the cursor as it was, or the job's end where its transfer
had ended early (R156; that this period too carries zeros is the model's choice, log 65). In LOCAL and DRAINING the frame before the
end offset ends the job OK (R156). Without an owning PLAY job, and in SLEEP (R171), nothing is driven. A period that is not whole is
an operand, the model's choice (log 24). -/
def Obligations.SampleFrameOutPlaysTheCursor : Prop :=
  ∀ (s : State) (highEdges lowEdges : Nat),
    (s.port.owner = none → ∀ whole, exec (.sampleFrameOut whole highEdges lowEdges) s
        = .next { s with port.lineHigh := [], port.lineLow := [] })
      ∧ (∀ j job p, s.port.owner = some j → s.jobAt j = some job → job.body = .play p →
          let frame := fun (t : TakeShape) (position : Nat) (slot : Slot) =>
            if slot.damaged && p.policy == .silence then List.replicate t.format.frameBytes 0
            else ((blockPayload slot.bytes).drop (position * t.format.frameBytes)).take t.format.frameBytes
          let drives := fun (t : TakeShape) (frame : List Byte) (u : State) =>
            u.port.lineHigh = halfBits highEdges (bytesBits (frame.take t.format.width.bytes))
              ∧ u.port.lineLow = halfBits lowEdges (bytesBits (match t.format.channels with
                                                               | .mono => frame.take t.format.width.bytes
                                                               | .stereo => frame.drop t.format.width.bytes))
          let silent := fun (u : State) =>
            u.port.lineHigh = List.replicate highEdges false ∧ u.port.lineLow = List.replicate lowEdges false
          let ends := fun (result : Result) (u : State) =>
            u.jobAt j = none ∧ (∀ k, k ≠ j → u.jobAt k = s.jobAt k) ∧ u.port.owner = none ∧ u.port.line = .released
              ∧ (∀ i e, job.entry = some i → s.entryAt i = some e → u.entryAt i = some { e with jobRefs := e.jobRefs - 1 })
              ∧ u.cpe = (raise (.doneJob job.tag .play result job.take
                  (if p.state = .localStore then s.own else p.holder.getD 0xFF) p.underruns 0) s).cpe
          exec (.sampleFrameOut false highEdges lowEdges) s = .next { s with port.lineHigh := [], port.lineLow := [] }
          ∧ (s.act.state = .sleep →
              exec (.sampleFrameOut true highEdges lowEdges) s = .next { s with port.lineHigh := [], port.lineLow := [] })
          ∧ (s.act.state ≠ .sleep → p.shape = none ∨ p.started = false ∧ p.mayStart = false →
              exec (.sampleFrameOut true highEdges lowEdges) s = .next (settle
                { s with port.lineHigh := List.replicate highEdges false, port.lineLow := List.replicate lowEdges false }))
          ∧ (∀ t block position slot, s.act.state ≠ .sleep → p.shape = some t → p.started = true ∨ p.mayStart = true →
              p.find t = .stored block position slot → p.cursor + 1 < p.endOffset →
              ∃ u job' p', exec (.sampleFrameOut true highEdges lowEdges) s = .next (settle u)
                ∧ drives t (frame t position slot) u
                ∧ u.jobAt j = some job' ∧ job'.body = .play p' ∧ p'.cursor = p.cursor + 1 ∧ p'.started = true
                ∧ p'.inUnderrun = false ∧ p'.underruns = p.underruns ∧ (∀ k, k ≠ j → u.jobAt k = s.jobAt k)
                ∧ u.cat = s.cat ∧ u.med = s.med ∧ u.cpe = s.cpe)
          ∧ (∀ t, s.act.state ≠ .sleep → p.shape = some t → p.started = true ∨ p.mayStart = true →
              inGap t.gaps p.cursor = true → p.cursor + 1 < p.endOffset →
              ∃ u, exec (.sampleFrameOut true highEdges lowEdges) s = .next (settle u) ∧ silent u
                ∧ u.jobAt j = some
                    { job with body := .play { p with cursor := p.cursor + 1, started := true, inUnderrun := false } }
                ∧ (∀ k, k ≠ j → u.jobAt k = s.jobAt k) ∧ u.cat = s.cat ∧ u.med = s.med ∧ u.cpe = s.cpe)
          ∧ (∀ t, s.Sound → s.act.state ≠ .sleep → p.shape = some t → p.started = true ∨ p.mayStart = true →
              p.state = .localStore ∨ p.state = .draining → p.cursor + 1 = p.endOffset →
              (inGap t.gaps p.cursor = true →
                ∃ u, exec (.sampleFrameOut true highEdges lowEdges) s = .next (settle u) ∧ silent u ∧ ends .ok u)
              ∧ (∀ block position slot, p.find t = .stored block position slot →
                ∃ u, exec (.sampleFrameOut true highEdges lowEdges) s = .next (settle u)
                  ∧ drives t (frame t position slot) u ∧ ends .ok u))
          ∧ (∀ t result, s.Sound → s.act.state ≠ .sleep → p.shape = some t → p.started = true ∨ p.mayStart = true →
              p.find t = .missing → p.pendingResult = some result →
              ∃ u, exec (.sampleFrameOut true highEdges lowEdges) s = .next (settle u) ∧ silent u ∧ ends result u)
          ∧ (∀ t, s.act.state ≠ .sleep → p.shape = some t → p.started = true ∨ p.mayStart = true →
              p.find t = .missing → p.pendingResult = none →
              ∃ u job' p', exec (.sampleFrameOut true highEdges lowEdges) s = .next (settle u) ∧ silent u
                ∧ u.jobAt j = some job' ∧ job'.body = .play p' ∧ p'.cursor = p.cursor
                ∧ p'.underruns = min 65535 (p.underruns + 1) ∧ p'.inUnderrun = true
                ∧ u.cat = s.cat ∧ u.med = s.med
                ∧ (p.inUnderrun = true → u.cpe = s.cpe)
                ∧ (∀ take, p.inUnderrun = false → job.take = some take →
                    u.cpe = (raise (.underrun job.tag take p.cursor) s).cpe)))

/-! ## Reset, start-up and the store -/

/-- HARDWARE_RESET puts every block in its reset state: start-up begins, the port is NOT_READY, the mark is set, the rest
is as `State.reset`. What stands outside the part goes on: the waiting commands, time, the carrier, and the store,
whose write in progress has left its former or its new contents (R28, R40). Which of the two is an operand (log 10);
that the queue and the clock stand is the model's choice (log 8). -/
def Obligations.HardwareResetRestoresReset : Prop :=
  ∀ (landed : Bool) (s : State),
    ∃ t, exec (.hardwareReset landed) s = .next t
      ∧ { t with pending := [], clock := 0, freeIx := 0, lif.carrier := false, med.store := [] } = State.reset
      ∧ t.pending = s.pending ∧ t.clock = s.clock ∧ t.freeIx = s.freeIx ∧ t.lif.carrier = s.lif.carrier
      ∧ t.sul.phase = .image ∧ t.cpe.port = .notReady ∧ t.irq = false ∧ t.cat.mark = true ∧ t.cat.fault = false
      ∧ t.lif.lastSource = 31 ∧ t.lif.errors = 0 ∧ t.lif.collisions = 0 ∧ t.lif.mute = none ∧ t.act.state = .waking
      ∧ t.jt.jobs = [] ∧ t.notes = [] ∧ t.med.issued = none
      ∧ (∀ a, (∀ op, s.med.issued = some op → op.write = true → op.addr ≠ a) → t.storeBlock a = s.storeBlock a)
      ∧ (∀ op, s.med.issued = some op → op.write = true →
          t.storeBlock op.addr = if landed then op.data else s.storeBlock op.addr)

/-- CONFIG_IMAGE_READ while start-up waits for it: a good image's values are taken with the clamps of R186; an absent or failing
image gives the defaults, CONFIG_DEFAULTED and LINK_MUTE with cause CONFIGURATION (in this order, the model's reading, log 77). The
clamped fields are kept as INQUIRE's bits 0 to 5 (R194), address, link rate, copies wanted, burst limit, doze delay and sleep delay.
The LFSR is seeded from the address in effect, and MED asks for the capacity. -/
def Obligations.ConfigImageSetsTheSettings : Prop :=
  ∀ s : State, s.sul.phase = .image →
    (∀ b : List Byte, b.length = 21 → fieldAt b 19 2 = (crc16 (b.take 19)).toNat →
      ∃ t, exec (.configImageRead (some b)) s = .next t
        ∧ t.sul.cfg.address = min 31 (fieldAt b 0 1)
        ∧ t.sul.cfg.linkRate = (if fieldAt b 1 1 = 2 ∨ fieldAt b 1 1 = 4 ∨ fieldAt b 1 1 = 8 then fieldAt b 1 1 else 2)
        ∧ t.sul.cfg.copiesWanted = (if fieldAt b 2 1 = 0 then 1 else min 4 (fieldAt b 2 1))
        ∧ t.sul.cfg.burstLimit = (if fieldAt b 3 1 = 0 then 1 else min 16 (fieldAt b 3 1))
        ∧ t.sul.cfg.knots = ((b.drop 4).take 9).map (·.toNat)
        ∧ t.sul.cfg.dozeDelay = min 60000 (fieldAt b 13 2) ∧ t.sul.cfg.sleepDelay = min 60000 (fieldAt b 15 2)
        ∧ (t.sul.cfg.autoRepair = true ↔ fieldAt b 17 1 ≠ 0) ∧ t.sul.cfg.eventMask = byteAt b 18
        ∧ t.sul.defaulted = false ∧ t.sul.phase = .capacity s.now
        ∧ (t.sul.clamped.getLsbD 0 = true ↔ 31 < fieldAt b 0 1)
        ∧ (t.sul.clamped.getLsbD 1 = true ↔ fieldAt b 1 1 ≠ 2 ∧ fieldAt b 1 1 ≠ 4 ∧ fieldAt b 1 1 ≠ 8)
        ∧ (t.sul.clamped.getLsbD 2 = true ↔ fieldAt b 2 1 = 0 ∨ 4 < fieldAt b 2 1)
        ∧ (t.sul.clamped.getLsbD 3 = true ↔ fieldAt b 3 1 = 0 ∨ 16 < fieldAt b 3 1)
        ∧ (t.sul.clamped.getLsbD 4 = true ↔ 60000 < fieldAt b 13 2)
        ∧ (t.sul.clamped.getLsbD 5 = true ↔ 60000 < fieldAt b 15 2)
        ∧ t.sul.clamped.getLsbD 6 = false ∧ t.sul.clamped.getLsbD 7 = false
        ∧ t.lif.lfsr = BitVec.ofNat 16 (t.sul.cfg.address * 2053 + 1)
        ∧ { t with sul := s.sul, lif.lfsr := s.lif.lfsr } = s)
      ∧ (∀ image : Option (List Byte),
          (∀ b, image = some b → b.length ≠ 21 ∨ fieldAt b 19 2 ≠ (crc16 (b.take 19)).toNat) →
          ∃ t, exec (.configImageRead image) s = .next t
            ∧ t.sul.cfg = { address := 31, linkRate := 2, copiesWanted := 2, burstLimit := 4,
                            knots := [0, 4, 8, 16, 32, 64, 128, 192, 255], dozeDelay := 0, sleepDelay := 0,
                            autoRepair := false, eventMask := 0xFF }
            ∧ t.sul.defaulted = true ∧ t.lif.mute = some .configuration ∧ t.sul.phase = .capacity s.now
            ∧ t.lif.lfsr = BitVec.ofNat 16 (31 * 2053 + 1) ∧ t.cat.notices = [] ∧ t.notes = [] ∧ t.lif.queue = []
            ∧ (s.jt.jobs = [] → s.cpe.events = [] →
                t.cpe.events = [.configDefaulted (if image = none then .absent else .checkFailed), .linkMute .configuration]))

/-- The capacity (R29): the total chunk count is the smaller of capacity div 4096 and 16,384; a store below 32,768 blocks,
or one that has not answered 250 ms after the request, is unusable, and start-up goes no further. The timeout carries
time to its expiry (the model's choice, log 2). -/
def Obligations.CapacitySetsTheChunkCount : Prop :=
  ∀ (s : State) (asked : Nat), s.sul.phase = .capacity asked →
    (∀ blocks, 32768 ≤ blocks →
      ∃ u, exec (.capacityReport blocks) s = .next (settle u) ∧ u.sul.phase = .counter ∧ u.med.capacity = blocks
        ∧ u.med.total = min (blocks / 4096) 16384 ∧ 8 ≤ u.med.total
        ∧ { u with sul.phase := s.sul.phase, med := s.med } = s)
      ∧ (∀ blocks, blocks < 32768 →
          exec (.capacityReport blocks) s = .next (settle { s with sul.phase := .unusable }))
      ∧ (∃ t, exec .capacityTimeout s = .next t ∧ t.sul.phase = .unusable ∧ t.clock = max s.clock ((asked + 250) * 8000)
          ∧ t.cpe = s.cpe ∧ t.med = s.med ∧ t.cat = s.cat ∧ t.act = s.act)

/-- STORE_READY while the node starts up makes ACT ACTIVE and the media port IDLE, and with the capacity known SUL reads the counter
block, at offset 0 (R187): OK with the format mark it gives the counter as it stands; without it the store is blank and is prepared;
UNCORRECTABLE sets the counter to 134,217,727 and the catalogue fault flag. A record read OK loads its entry: empty for state 0;
empty with the flag where a code, a list length, the stored frames or the gaps break R193; live otherwise, its fields as they stand,
the stored frames and blocks derived. One that cannot be read is empty, with the flag. A map block read OK loads its 80 chunk
entries, those R187 rejects as BAD with the flag; one that cannot be read makes its chunks so, chunk 0 apart. The last is followed
by reconciliation (R188): RECEIVING entries, those without a chain, those whose walk breaks and those whose stored blocks do not fit
the chain are freed, with the flag but for RECEIVING; a kept chain has its blocks used set and ends in END, BAD chunks in it keeping
their count. What is kept changes as steps 1 and 5 say, no chunk keeps the index of an empty entry, the counts are taken anew, what
changed waits to be written. A blank store's blocks are those of R187 and R193; the last, written or given up, completes start-up
with an empty catalogue, as the last head block does (R189); one of these writes that faults is made three times in all. `settle`
issues SUL's next operation. Model choices, by log: a timeout's time (2), unused bits are ignored (16), any label byte but 0 is present
(48), the counter's range is not tested (49), nor a state 0 record's other bytes (54); learned holders stay (62); a count above 4096
loads (63), and so do a damaged list out of order and a low count (66), a status (68), holder bytes (69) and fields (70) that R193
does not test; a blank store is written in ascending order (72); an empty or touching gap breaks the list (73); map entries stay as
loaded (29). -/
def Obligations.StoreReadyThenTheCounter : Prop :=
  (∀ s : State, s.sul.phase ≠ .complete → s.act.state = .waking →
    exec .storeReady s = .next (settle { s with act.state := .active })
      ∧ (s.sul.phase = .counter → s.med.issued = none →
          ∃ t op, exec .storeReady s = .next t ∧ t.med.issued = some op ∧ op.write = false ∧ op.addr = 0
            ∧ op.since = s.now ∧ op.who = .sul (.readBlock 0) ∧ t.act.state = .active))
  ∧ (∀ (s : State) (op : Issued) (b : List Byte), s.sul.phase = .counter → s.med.issued = some op → op.write = false →
    op.who = .sul (.readBlock 0) → b.length = 512 →
    (fieldAt b 16 2 = (crc16 ((b.drop 32).take 480)).toNat → ((b.drop 32).take 480).take 4 = [0xA5, 0x5A, 0xC3, 0x3C] →
      exec (.mediaReadComplete true (.bytes b)) s = .next (settle
        { s with med.issued := none, cat.counter := fieldAt ((b.drop 32).take 480) 4 4, sul.phase := .records 0 }))
      ∧ (fieldAt b 16 2 = (crc16 ((b.drop 32).take 480)).toNat → ((b.drop 32).take 480).take 4 ≠ [0xA5, 0x5A, 0xC3, 0x3C] →
          exec (.mediaReadComplete true (.bytes b)) s = .next (settle
            { s with med.issued := none, cat.counter := 0, sul.phase := .prepare 0 0, sul.prepared := true }))
      ∧ (exec (.mediaReadComplete false (.bytes b)) s = .next (settle
          { s with med.issued := none, cat.counter := 134217727, cat.fault := true, sul.phase := .records 0 }))
      ∧ (∃ u, exec .mediaReadTimeout s = .next (settle u) ∧ u.cat.counter = 134217727 ∧ u.cat.fault = true
          ∧ u.sul.phase = .records 0 ∧ u.clock = max s.clock ((op.since + 250) * 8000)))
  ∧ (∀ (s : State) (op : Issued) (so : SulOp) (b : List Byte) (i : Nat) (readable : Bool), s.Sound → s.sul.phase = .records i →
      i < 2048 → s.med.issued = some op → op.write = false → op.who = .sul so → b.length = 512 →
      ∃ u, exec (.mediaReadComplete readable (.bytes b)) s = .next (settle u) ∧ u.med = { s.med with issued := none }
        ∧ u.sul.phase = (if i = 2047 then .maps 0 else .records (i + 1)) ∧ (∀ k, k ≠ i → u.entryAt k = s.entryAt k)
        ∧ (readable = true → fieldAt b 16 2 = (crc16 ((b.drop 32).take 480)).toNat →
            let p := (b.drop 32).take 480
            let state := (byteAt p 0).toNat
            let rate := (byteAt p 6).toNat / 16 % 8
            let cause := (byteAt p 7).toNat
            let listed := (byteAt p 21).toNat % 16
            let count := (byteAt p 58).toNat
            let gap := fun (g : Nat) => fieldAt p (59 + 8 * g) 4
            let long := fun (g : Nat) => fieldAt p (63 + 8 * g) 4
            let gone := ((List.range count).map long).sum
            let placement := (byteAt p 18).toNat / 16 % 4
            let wide := (byteAt p 6).getLsbD 0 = true
            let stereo := (byteAt p 6).getLsbD 1 = true
            let perBlock := 480 / ((if wide then 3 else 2) * (if stereo then 2 else 1))
            let broken := 4 < state ∨ 1 < (byteAt p 1).toNat ∨ 4 < rate ∨ 5 < cause ∨ 8 < listed ∨ 16 < count
              ∨ fieldAt p 8 4 < gone ∨ (∃ g < count, long g = 0) ∨ ∃ g, g + 1 < count ∧ gap (g + 1) ≤ gap g + long g
            (state = 0 → u.cat = s.cat)
              ∧ (state ≠ 0 → broken → u.cat = { s.cat with fault := true })
              ∧ (state ≠ 0 → ¬ broken → u.cat.fault = s.cat.fault ∧ u.entryAt i = some
                  { take := { node := fieldAt p 2 4 / 134217728, seq := fieldAt p 2 4 % 134217728 },
                    role := if (byteAt p 1).toNat = 0 then .origin else .copy,
                    state := if state = 1 then .capturing else if state = 2 then .held else if state = 3 then .receiving
                             else .incomplete,
                    format := { width := if wide then .w24 else .w16, channels := if stereo then .stereo else .mono,
                                rate := if rate = 0 then .unstated else if rate = 1 then .r44 else if rate = 2 then .r48
                                        else if rate = 3 then .r88 else .r96 },
                    timelineLength := fieldAt p 8 4, storedFrames := fieldAt p 8 4 - gone,
                    storedBlocks := (fieldAt p 8 4 - gone + perBlock - 1) / perBlock + 1, check := BitVec.ofNat 32 (fieldAt p 12 4),
                    gaps := (List.range count).map fun g => { start := gap g, length := long g }, clips := fieldAt p 16 2,
                    endCause := if cause = 0 then none else if cause = 1 then some .normal else if cause = 2 then some .overrun
                                else if cause = 3 then some .mediaFull else if cause = 4 then some .mediaFault else some .reset,
                    label := if (byteAt p 191).toNat = 0 then none else some ((p.drop 192).take 64),
                    holders := (((p.drop 54).take 4).filter (· ≠ 0xFF)).map (·.toNat),
                    copiesWanted := (byteAt p 18).toNat % 8,
                    placement := if placement = 0 then .notNeeded else if placement = 1 then .queued
                                 else if placement = 2 then .inProgress else .satisfied,
                    attempts := (byteAt p 19).toNat, damaged := (List.range listed).map fun q => fieldAt p (22 + 4 * q) 4,
                    damagedCount := (byteAt p 20).toNat, overflow := (byteAt p 21).getLsbD 7, firstChunk := fieldAt p 187 2,
                    chunkCount := fieldAt p 189 2, jobRefs := 0, repairHold := none }))
        ∧ (readable = false ∨ fieldAt b 16 2 ≠ (crc16 ((b.drop 32).take 480)).toNat → u.cat = { s.cat with fault := true }))
  ∧ (∀ (s : State) (op : Issued) (so : SulOp) (b : List Byte) (k : Nat) (readable : Bool), s.Sound → s.sul.phase = .maps k →
      k + 1 < (s.med.total + 79) / 80 → s.med.issued = some op → op.write = false → op.who = .sul so → b.length = 512 →
      let q := fun c => (((b.drop 32).take 480).drop (6 * (c % 80))).take 6
      let rejected := fun c => (2048 ≤ fieldAt (q c) 0 2 ∧ fieldAt (q c) 0 2 ≤ 0xFFFC) ∨ (fieldAt (q c) 0 2 = 0xFFFE ∧ c ≠ 0)
        ∨ (fieldAt (q c) 2 2 ≠ 0xFFFF ∧ s.med.total ≤ fieldAt (q c) 2 2)
      ∃ u, exec (.mediaReadComplete readable (.bytes b)) s = .next (settle u) ∧ u.sul.phase = .maps (k + 1)
        ∧ u.cat.entries = s.cat.entries ∧ (∀ c, c / 80 ≠ k → u.chunkAt c = s.chunkAt c)
        ∧ (readable = true → fieldAt b 16 2 = (crc16 ((b.drop 32).take 480)).toNat →
            (∀ c, c / 80 = k → rejected c →
              u.chunkAt c = { owner := .bad, next := none, used := 0 } ∧ u.cat.fault = true)
              ∧ (∀ c, c / 80 = k → ¬ rejected c → (u.chunkAt c).bytes = q c)
              ∧ ((∀ c, c / 80 = k → ¬ rejected c) → u.cat = s.cat))
        ∧ (readable = false ∨ fieldAt b 16 2 ≠ (crc16 ((b.drop 32).take 480)).toNat → u.cat = { s.cat with fault := true }
            ∧ u.chunkAt 0 = s.chunkAt 0 ∧ ∀ c, c ≠ 0 → c / 80 = k → u.chunkAt c = { owner := .bad, next := none, used := 0 }))
  ∧ (∀ (s : State) (op : Issued) (so : SulOp) (b : List Byte) (k : Nat) (readable : Bool), s.Sound → s.sul.phase = .maps k →
      k + 1 = (s.med.total + 79) / 80 → s.med.issued = some op → op.write = false → op.who = .sul so → b.length = 512 →
      let q := fun c => (((b.drop 32).take 480).drop (6 * (c % 80))).take 6
      let rejected := fun c => (2048 ≤ fieldAt (q c) 0 2 ∧ fieldAt (q c) 0 2 ≤ 0xFFFC) ∨ (fieldAt (q c) 0 2 = 0xFFFE ∧ c ≠ 0)
        ∨ (fieldAt (q c) 2 2 ≠ 0xFFFF ∧ s.med.total ≤ fieldAt (q c) 2 2)
      let whole := readable = true ∧ fieldAt b 16 2 = (crc16 ((b.drop 32).take 480)).toNat
      let lost : Chunk := { owner := .bad, next := none, used := 0 }
      let loaded := fun (v : State) => v.cat.entries = s.cat.entries ∧ (∀ c, c / 80 ≠ k → v.chunkAt c = s.chunkAt c)
        ∧ (whole → ∀ c, c / 80 = k → c < s.med.total → (rejected c → v.chunkAt c = lost)
            ∧ (¬ rejected c → (v.chunkAt c).bytes = q c))
        ∧ (¬ whole → ∀ c, c / 80 = k → c < s.med.total → v.chunkAt c = if c = 0 then s.chunkAt 0 else lost)
      let bad := fun (v : State) c => (v.chunkAt c).owner = .bad
      let mine := fun (v : State) i c => c < s.med.total ∧ ((v.chunkAt c).owner = .entry i ∨ bad v c)
      let walked := fun (v : State) (i : Nat) (e : Entry) (l : List Nat) =>
        l.Nodup ∧ (∀ c, l[0]? = some c → c = e.firstChunk) ∧ (∀ n c, l[n + 1]? = some c → (v.chunkAt (l.getD n 0)).next = some c)
          ∧ ∀ c ∈ l, mine v i c ∧ (bad v c → (∀ d, (v.chunkAt d).next = some c → d ∈ l ∨ ∀ i', i' < i → ¬ mine v i' d)
              ∧ ∀ i' e', i' < i → s.entryAt i' = some e' → e'.state ≠ .receiving → e'.firstChunk ≠ c)
      ∃ u v, exec (.mediaReadComplete readable (.bytes b)) s = .next (settle u) ∧ loaded v
        ∧ (∀ i e l, s.entryAt i = some e → e.state ≠ .receiving → e.firstChunk ≠ 0 → walked v i e l →
            let freed := u.entryAt i = none ∧ u.cat.fault = true ∧ ∀ c ∈ l, u.chunkAt c = if bad v c then lost else freeChunk
            (l.length < e.chunkCount →
                (∀ c, (match l.getLast? with
                       | some d => (v.chunkAt d).next
                       | none => some e.firstChunk) = some c →
                  c ∈ l ∨ ¬ mine v i c ∨ ∃ i' e' l', i' < i ∧ s.entryAt i' = some e' ∧ e'.state ≠ .receiving
                    ∧ e'.firstChunk ≠ 0 ∧ walked v i' e' l' ∧ l'.length ≤ e'.chunkCount ∧ c ∈ l') → freed)
              ∧ (∀ last, l.length = e.chunkCount → l.getLast? = some last →
                  let used := fun c => if bad v c then (v.chunkAt c).used else 4096
                  let before := (l.dropLast.map used).sum
                  let fits := if bad v last then before + (v.chunkAt last).used = e.storedBlocks
                    else before < e.storedBlocks ∧ e.storedBlocks ≤ before + 4096
                  (fits → u.entryAt i ≠ none ∧ (∀ c ∈ l.dropLast, u.chunkAt c = { v.chunkAt c with used := used c })
                      ∧ u.chunkAt last = { v.chunkAt last with next := none, used := e.storedBlocks - before })
                    ∧ (¬ fits → freed)))
        ∧ u.cat.reserved = 0 ∧ u.med.pledged = 0
        ∧ u.med.bad = u.med.chunks.countP (fun p => p.2.owner == .bad)
        ∧ u.med.free = s.med.total - u.med.chunks.countP (fun p => p.2.owner != .free)
        ∧ (∀ i e, s.entryAt i = some e → e.state = .receiving ∨ e.firstChunk = 0 ∨ e.chunkCount = 0 → u.entryAt i = none)
        ∧ (∀ i e, s.entryAt i = some e → e.state ≠ .receiving → e.chunkCount = 1 → e.firstChunk ≠ 0 →
            e.firstChunk < s.med.total → e.firstChunk / 80 ≠ k → (s.chunkAt e.firstChunk).owner = .entry i →
            1 ≤ e.storedBlocks → e.storedBlocks ≤ 4096 →
            u.entryAt i ≠ none ∧ u.chunkAt e.firstChunk = { owner := .entry i, next := none, used := e.storedBlocks })
        ∧ (∀ i e', u.entryAt i = some e' → ∃ e, s.entryAt i = some e
            ∧ e' = { (if e.state = .capturing then { e with state := .incomplete, endCause := some .reset } else e) with
                     placement := if e.placement = .inProgress then .queued else e.placement })
        ∧ (∀ i e, s.entryAt i = some e → e.state ≠ .receiving → u.entryAt i = none → u.cat.fault = true)
        ∧ (∀ i, .entry i ∈ u.cat.wt ↔ u.entryAt i ≠ s.entryAt i)
        ∧ (∀ c i, (u.chunkAt c).owner = .entry i → u.entryAt i ≠ none)
        ∧ (u.sul.phase = .complete
            ∨ ∃ i rest e, u.sul.phase = .heads (i :: rest) 0 ∧ u.entryAt i = some e ∧ e.state = .incomplete))
  ∧ (∀ (s : State) (op : Issued) (so : SulOp) (i : Nat) (rest : List Nat) (faults : Nat), s.sul.phase = .heads (i :: rest) faults →
      s.med.issued = some op → op.write = true → op.who = .sul so →
      (rest = [] → ∃ u, exec (.mediaWriteComplete true) s = .next (settle u) ∧ u.sul.phase = .complete ∧ u.cpe.port = .ready
          ∧ u.lif.listening = true ∧ u.cat.mark = true ∧ u.jt.nextTag = 0 ∧ u.cat.entries = s.cat.entries
          ∧ u.cat.queue = (s.cat.entries.filter (fun p => p.2.placement = .queued)).map (fun p => (p.1, s.now))
          ∧ (s.sul.cfg.eventMask.getLsbD 6 = true → s.cpe.events.length < 32 → u.cpe.events = s.cpe.events ++
              [.startupDone s.cat.entries.length s.sul.madeIncomplete s.sul.freed s.sul.prepared s.cat.fault]))
        ∧ (rest ≠ [] → ∃ u, exec (.mediaWriteComplete true) s = .next (settle u) ∧ u.sul.phase = .heads rest 0 ∧ u.cat = s.cat)
        ∧ (faults < 2 → ∃ u, exec (.mediaWriteComplete false) s = .next (settle u)
            ∧ u.sul.phase = .heads (i :: rest) (faults + 1) ∧ u.cat = s.cat)
        ∧ (∀ e, 2 ≤ faults → rest ≠ [] → s.entryAt i = some e → 0 ∉ e.damaged → e.damaged.length < 8 →
            ∃ u e', exec (.mediaWriteComplete false) s = .next (settle u) ∧ u.sul.phase = .heads rest 0
              ∧ u.entryAt i = some e' ∧ e'.damaged = 0 :: e.damaged ∧ e'.damagedCount = min 255 (e.damagedCount + 1)))
  ∧ (∀ (s : State) (offset faults : Nat), s.sul.phase = .prepare offset faults → s.portState = .idle →
      s.med.chunks = [(0, { owner := .reserved, next := none, used := 4096 })] → offset < 2049 + (s.med.total + 79) / 80 →
      let header := fun (type : Nat) (payload : List Byte) =>
        beBytes 4 0 ++ beBytes 4 offset ++ beBytes 4 0 ++ beBytes 2 0 ++ beBytes 1 type ++ [0]
          ++ beBytes 2 (crc16 payload).toNat ++ List.replicate 14 0 ++ payload
      let block :=
        if offset = 0 then header 3 ([0xA5, 0x5A, 0xC3, 0x3C] ++ List.replicate 476 0)
        else if offset < 2049 then header 4 (List.replicate 480 0)
        else header 5 (fitBytes 480 ((List.range (min 80 (s.med.total - 80 * (offset - 2049)))).flatMap fun k =>
          if offset = 2049 ∧ k = 0 then [0xFF, 0xFE, 0xFF, 0xFF, 0x10, 0x00] else [0xFF, 0xFF, 0xFF, 0xFF, 0x00, 0x00]))
      { settle s with act := s.act } =
        { s with med.issued := some { who := .sul (.prepare offset faults), write := true, addr := offset, data := block,
                                      chunk := none, offset := offset, since := s.now, wanted := true } })
  ∧ (∀ (s : State) (op : Issued) (so : SulOp) (offset faults : Nat) (ok : Bool), s.sul.phase = .prepare offset faults →
      offset + 1 = 2049 + (s.med.total + 79) / 80 → s.med.issued = some op → op.write = true → op.who = .sul so →
      op.chunk = none → s.med.chunks = [(0, { owner := .reserved, next := none, used := 4096 })] → s.cat.entries = [] →
      (ok = true ∨ 2 ≤ faults → ∃ u, exec (.mediaWriteComplete ok) s = .next (settle u) ∧ u.sul.phase = .complete
          ∧ u.cat.entries = [] ∧ u.cat.wt = [] ∧ u.cat.queue = [] ∧ u.cat.reserved = 0 ∧ u.cat.counter = s.cat.counter
          ∧ u.cat.fault = (s.cat.fault || !ok) ∧ u.cat.mark = true ∧ u.med.chunks = s.med.chunks ∧ u.med.mapList = []
          ∧ u.med.free = s.med.total - 1 ∧ u.med.bad = 0 ∧ u.med.pledged = 0 ∧ u.cpe.port = .ready ∧ u.lif.listening = true
          ∧ u.jt.nextTag = 0
          ∧ (s.sul.cfg.eventMask.getLsbD 6 = true → s.cpe.events.length < 32 → u.cpe.events = s.cpe.events ++
              [.startupDone 0 0 0 s.sul.prepared (s.cat.fault || !ok)]))
        ∧ (ok = false → faults < 2 → ∃ u, exec (.mediaWriteComplete ok) s = .next (settle u)
            ∧ u.sul.phase = .prepare offset (faults + 1) ∧ u.cat = s.cat ∧ u.med.chunks = s.med.chunks))
  ∧ ∀ (s : State) (op : Issued) (so : SulOp) (offset faults : Nat), s.sul.phase = .prepare offset faults →
      offset + 1 < 2049 + (s.med.total + 79) / 80 → s.med.issued = some op → op.write = true → op.who = .sul so →
      (∃ u, exec (.mediaWriteComplete true) s = .next (settle u) ∧ u.sul.phase = .prepare (offset + 1) 0 ∧ u.cat = s.cat)
        ∧ ∃ u, exec (.mediaWriteComplete false) s = .next (settle u)
            ∧ u.sul.phase = (if faults < 2 then .prepare offset (faults + 1) else .prepare (offset + 1) 0)
            ∧ u.cat = { s.cat with fault := s.cat.fault || decide (2 ≤ faults) }

/-- A take's blocks (R41): a read is OK when the store says so and the block check agrees; otherwise, and after 250 ms, where 512
bytes of zero are delivered, it is UNCORRECTABLE, and the sequence, if not listed yet, joins the damaged list while that holds
fewer than 8, or sets the overflow flag, and raises the count, with DAMAGE_FOUND (R13, R160). The read of a PLAY job in LOCAL
makes its slot ready (R152). The read of a SERVE or REPLICATE job gives its DATA frame, with the damaged flag of an UNCORRECTABLE
one (R125), to the transmit queue, or keeps it while that takes none (R126). A read of a REPAIR job in VERIFYING clears a listed
sequence or counts for the scan (R163); the next reads are requested, and after the last the scan's findings are set and the job
goes on to HEAD with the head block, to SEEKING, or to its end, OK (R163, R164). A read whose sequence the chain does not hold ends
NOT_PRESENT as it is issued, without access to the store (R36): a sender ends MEDIA_FAULT with an ABANDON (R125), a PLAY job in
LOCAL gives up its slot and keeps MEDIA_FAULT for playout to reach (R152), and a REPAIR job takes a listed sequence off the list
without counting it (R163). That an outcome recorded before stands, that the timeout carries time to its expiry, that a low
damaged count stops at 0, that the head block rebuilt from a HELD entry loaded without an end cause carries NORMAL, and that the
JOB_DONE comes after the COPIES_SHORT of a placement, is the model's (logs 60, 2, 66, 52, 77). -/
def Obligations.LocalReadFillsItsSlot : Prop :=
  let goesOn := fun (s : State) (j i : Nat) (job : Job) (r : RepairJob) (read : Entry) (cleared tally : Nat) (reqs : List JobReq)
      (more last : State → Prop) =>
    let room := 8 - reqs.length
    let next := if r.scan then List.range' r.scanNext (min room (r.scanEnd - r.scanNext)) else r.todo.take room
    let scanned := if r.scan then { read with damagedCount := min 255 (read.damaged.length + tally),
                                              overflow := decide (0 < tally) } else read
    ((if r.scan then r.scanNext < r.scanEnd else r.todo ≠ []) →
      ∃ u r', more u ∧ u.entryAt i = some read
        ∧ u.jobAt j = some { job with body := .repair r', reqs := reqs ++ next.map .read }
        ∧ r'.state = .verifying ∧ r'.cleared = cleared ∧ r'.tally = tally)
    ∧ ((if r.scan then r.scanEnd ≤ r.scanNext else r.todo = []) → reqs = [] →
        (0 ∈ scanned.damaged → ∃ u r', last u ∧ u.entryAt i = some scanned
          ∧ u.jobAt j = some { job with body := .repair r', reqs := [.inPlace 0 (scanned.headInfo scanned.label).block] }
          ∧ r'.state = .head ∧ r'.cleared = cleared)
        ∧ (0 ∉ scanned.damaged → scanned.damaged ≠ [] → s.linkStanding = true → job.outbox = [] →
            ∃ u r' job' seek, last u ∧ u.entryAt i = some scanned ∧ u.jobAt j = some job' ∧ job'.body = .repair r'
              ∧ r'.state = .seeking ∧ r'.cleared = cleared ∧ r'.first ∈ scanned.damaged
              ∧ (∀ x ∈ scanned.damaged, r'.first ≤ x) ∧ 1 ≤ r'.count ∧ r'.count ≤ 64
              ∧ r'.first + r'.count - 1 ∈ scanned.damaged
              ∧ (∀ x ∈ scanned.damaged, x ≤ r'.first + 63 → x ≤ r'.first + r'.count - 1)
              ∧ seek = { src := s.own, dst := 63, dir := .out, tag := s.nextJobTag,
                         take := job.take.getD { node := 0, seq := 0 },
                         payload := .seek 0 0 .repair r'.first r'.count [] }
              ∧ (s.lif.queue.length < 16 → u.lif.queue = s.lif.queue ++ [{ frame := seek, owner := some j }])
              ∧ (16 ≤ s.lif.queue.length → job'.outbox = [seek]))
        ∧ (scanned.damaged = [] → ∃ u v, last u ∧ u.jobAt j = none
            ∧ u.entryAt i = some { scanned with jobRefs := scanned.jobRefs - 1 }
            ∧ u = raise (.doneJob job.tag .repair .ok job.take (r.holder.getD 0xFF) cleared 0) v))
  (∀ (s : State) (op : Issued) (j q i : Nat) (job : Job) (e : Entry) (c : Instr) (b : List Byte) (good : Bool),
    s.med.issued = some op → op.write = false → op.wanted = true → op.who = .job j (.read q) →
    s.jobAt j = some job → job.entry = some i → s.entryAt i = some e →
    ((∃ ready, c = .mediaReadComplete ready (.bytes b) ∧ b.length = 512
        ∧ good = (ready && decide (fieldAt b 16 2 = (crc16 ((b.drop 32).take 480)).toNat)))
      ∨ (c = .mediaReadTimeout ∧ b = List.replicate 512 0 ∧ good = false)) →
    let found := if q ∈ e.damaged then e
      else { e with damaged := if e.damaged.length < 8 then insertSorted q e.damaged else e.damaged,
                    overflow := e.overflow || decide (8 ≤ e.damaged.length), damagedCount := min 255 (e.damagedCount + 1) }
    let recorded := fun (u : State) =>
      u.entryAt i = some found ∧ (∀ k, k ≠ i → u.entryAt k = s.entryAt k) ∧ (q ∈ e.damaged → u.cat = s.cat ∧ u.cpe = s.cpe)
        ∧ (q ∉ e.damaged → .entry i ∈ u.cat.wt ∧ u.cat.mark = true
            ∧ u.cpe = (raise (.damageFound e.take q found.damagedCount found.overflow (some job.kind)) s).cpe)
    let replied := fun (u : State) =>
      exec c s = .next (settle u) ∧ u.med.issued = none
        ∧ u.clock = (if c = .mediaReadTimeout then max s.clock ((op.since + 250) * 8000) else s.clock)
        ∧ ∀ k, k ≠ j → u.jobAt k = s.jobAt k
    (∀ p, job.body = .play p → p.state = .localStore →
      ∃ u job' p', replied u ∧ u.jobAt j = some job' ∧ job'.body = .play p'
        ∧ (∀ x ∈ p.slots, x.seq = q → ∃ y ∈ p'.slots, y.seq = q ∧ y.ready = true ∧ y.bytes = b ∧ y.damaged = !good)
        ∧ (good = true → u.cat = s.cat ∧ u.cpe = s.cpe) ∧ (good = false → recorded u))
      ∧ (∀ dst dir, ((∃ v, job.body = .serve v) ∧ dst = job.opener ∧ dir = .back)
            ∨ ((∃ r, job.body = .replicate r) ∧ dst = 63 ∧ dir = .out) → job.outbox = [] →
          let data : Frame := { src := s.own, dst := dst, dir := dir, tag := job.exTag.getD job.tag,
                                take := job.take.getD { node := 0, seq := 0 }, payload := .data q (!good) b }
          ∃ u, replied u ∧ (good = true → u.cat = s.cat ∧ u.cpe = s.cpe) ∧ (good = false → recorded u)
            ∧ (s.linkStanding = true → s.lif.queue.length < 16 →
                u.lif.queue = s.lif.queue ++ [{ frame := data, owner := some j }] ∧ u.jobAt j = some job)
            ∧ (s.linkStanding = false ∨ 16 ≤ s.lif.queue.length →
                u.lif.queue = s.lif.queue ∧ u.jobAt j = some { job with outbox := [data] }))
      ∧ ∀ r, s.Sound → job.body = .repair r → r.state = .verifying →
          let read := if good = false then found
            else if q ∈ e.damaged then
              { e with damaged := e.damaged.filter (· ≠ q), damagedCount := e.damagedCount - 1 }
            else e
          goesOn s j i job r read (if good = true ∧ q ∈ e.damaged then r.cleared + 1 else r.cleared)
            (if good = false ∧ r.scan = true ∧ q ∉ e.damaged ∧ 8 ≤ e.damaged.length then r.tally + 1 else r.tally)
            job.reqs (fun u => replied u ∧ (good = false → recorded u)) replied)
  ∧ ∀ (s : State) (j q i : Nat) (job : Job) (e : Entry) (rest : List JobReq), s.Sound → s.med.issued = none →
      s.jobAt j = some job → job.reqs = .read q :: rest → job.entry = some i → s.entryAt i = some e → s.locate e q = none →
      let reached := fun (u : State) => u = issue (.job j (.read q)) s ∧ ∀ k, k ≠ j → u.jobAt k = s.jobAt k
      (∀ p, job.body = .play p →
        ∃ u, reached u ∧ u.cat = s.cat ∧ u.cpe = s.cpe ∧ u.lif = s.lif ∧ u.med = { s.med with rrLast := j }
          ∧ u.jobAt j = some
            { job with
              body := .play { p with slots := p.slots.filter (fun x => x.seq ≠ q),
                                     pendingResult := some (p.pendingResult.getD .mediaFault) },
              reqs := rest })
      ∧ (∀ dst dir, ((∃ v, job.body = .serve v) ∧ dst = job.opener ∧ dir = .back)
            ∨ ((∃ r, job.body = .replicate r) ∧ dst = 63 ∧ dir = .out) →
          let abandon : Frame := { src := s.own, dst := dst, dir := dir, tag := job.exTag.getD job.tag,
                                   take := job.take.getD { node := 0, seq := 0 }, payload := .abandon .mediaFault }
          ∃ u v x y, reached u ∧ u.jobAt j = none ∧ u = raise (.doneJob job.tag job.kind .mediaFault job.take x y 0) v
            ∧ (s.linkStanding = true → s.lif.queue.length < 16 → { frame := abandon, owner := none } ∈ u.lif.queue)
            ∧ ((∃ v, job.body = .serve v) → x = 0 ∧ y = 0 ∧ u.entryAt i = some { e with jobRefs := e.jobRefs - 1 }))
      ∧ ∀ r, job.body = .repair r → r.state = .verifying →
          goesOn s j i job r
            (if q ∈ e.damaged then { e with damaged := e.damaged.filter (· ≠ q), damagedCount := e.damagedCount - 1 } else e)
            r.cleared r.tally rest reached reached

/-- A write's end and the store: OK leaves the data written, a fault or 250 ms without a reply leaves a value the spec does not give
(a fresh free value, log 9); no other block changes; and a late reply changes nothing at all. A timeout carries time to its expiry
(the model's choice, log 2). An append write of a RECEIVE job (R37, R43, R132): OK it raises its chunk's blocks used and frees one
unit of the job's room, and the last one of a matched copy makes it HELD, with a parting NOTICE HOLDS (R137); a fault turns the
chunk BAD and the write stands at the front of the job's list again, for a new chunk (that it takes the job's next turn is the
model's reading, log 35); where that finds no chunk the job ends MEDIA_FULL and its entry is freed (R138). An in-place write of a
REPAIR job (R164, R167): OK it takes a listed sequence off the list and counts it; a fault turns the chunk BAD; a job that receives
goes on, one in FINISHING with no write left ends OK or with the outcome it recorded, one in HEAD goes on to SEEKING or ends OK, and
an end sets the repair hold by R168; a damaged count below the list's length stops at 0 (the model's choice, log 66). A
write-through item or a map item whose write faults marks no chunk BAD and is the next of its list to be issued, built afresh (R28,
R44; that the rest of the list waits is the model's reading, log 12); after the third fault in a row it is dropped and the catalogue
fault flag set, and a START that waits is answered MEDIA_FAULT and its capture ended as ABORT ends it (R6, R67), or, where it has
ended by then, answered alone (the model's reading, log 13). -/
def Obligations.WritesReachTheStore : Prop :=
  (∀ (s : State) (op : Issued), s.med.issued = some op → op.write = true →
    (∃ t, exec (.mediaWriteComplete true) s = .next t ∧ t.storeBlock op.addr = op.data ∧ t.freeIx = s.freeIx
      ∧ t.clock = s.clock ∧ ∀ a, a ≠ op.addr → t.storeBlock a = s.storeBlock a)
      ∧ (∃ t, exec (.mediaWriteComplete false) s = .next t ∧ t.freeIx = s.freeIx + 1
          ∧ t.storeBlock op.addr = fitBytes 512 (Config.blockAfterFault s.freeIx)
          ∧ t.clock = s.clock ∧ ∀ a, a ≠ op.addr → t.storeBlock a = s.storeBlock a)
      ∧ (∃ t, exec .mediaWriteTimeout s = .next t ∧ t.freeIx = s.freeIx + 1
          ∧ t.storeBlock op.addr = fitBytes 512 (Config.blockAfterFault s.freeIx)
          ∧ t.clock = max s.clock ((op.since + 250) * 8000) ∧ ∀ a, a ≠ op.addr → t.storeBlock a = s.storeBlock a)
      ∧ exec .storeLateReply s = .next s)
  ∧ (∀ (s : State) (op : Issued) (c : Instr) (n : Nat), s.Sound → s.med.issued = some op → op.write = true → op.chunk = none →
      c = .mediaWriteComplete false ∨ c = .mediaWriteTimeout →
      (∃ w, op.who = .wt w n ∧ ∀ i label, w ≠ .head i label) ∨ (∃ b, op.who = .map b n) →
      (n < 2 → ∃ u, exec c s = .next (settle u) ∧ u.cpe = s.cpe ∧ u.jt = s.jt ∧ u.med.chunks = s.med.chunks
          ∧ u.med.mapList = s.med.mapList
          ∧ (∀ w, op.who = .wt w n → u.cat = { s.cat with wtRetry := some (w, n + 1) } ∧ u.med.mapRetry = s.med.mapRetry
              ∧ (s.complete = true → s.captureRequest = none → s.med.mapRetry = none → s.med.mapList = [] →
                  u.chosen = some (.wt w (n + 1))))
          ∧ (∀ b, op.who = .map b n → u.cat = s.cat ∧ u.med.mapRetry = some (b, n + 1)
              ∧ (s.complete = true → s.captureRequest = none → u.chosen = some (.map b (n + 1)))))
        ∧ (2 ≤ n → ∃ u, exec c s = .next (settle u) ∧ u.cat.fault = true ∧ u.cat.wtRetry = s.cat.wtRetry
            ∧ u.med.mapRetry = s.med.mapRetry
            ∧ ((∀ tag take, s.cpe.current ≠ some (.start tag take)) → u.cat = { s.cat with fault := true } ∧ u.cpe = s.cpe
                ∧ u.jt = s.jt ∧ u.med.chunks = s.med.chunks ∧ u.med.mapList = s.med.mapList)
            ∧ (∀ tag take, s.cpe.current = some (.start tag take) →
                (s.captureJob = none → u.cat = { s.cat with fault := true } ∧ u.jt = s.jt ∧ u.med.chunks = s.med.chunks
                  ∧ u.cpe = (respond .mediaFault 4 0 [] s).cpe)
                ∧ (∀ j job c i e, s.captureJob = some (j, job, c) → job.entry = some i → s.entryAt i = some e →
                    u.jobAt j = none ∧ (∀ k, k ≠ j → u.jobAt k = s.jobAt k) ∧ u.entryAt i = none
                    ∧ (∀ k, k ≠ i → u.entryAt k = s.entryAt k) ∧ u.port.owner ≠ some j ∧ u.cat.mark = true
                    ∧ (∀ y ∈ s.chain e, (s.chunkAt y).owner = .entry i →
                        u.chunkAt y = { owner := .free, next := none, used := 0 })
                    ∧ u.cpe = (raise (.doneJob job.tag .capture .cancelled job.take 0 0 0)
                        (respond .mediaFault 4 0 [] s)).cpe))))
  ∧ (∀ (s : State) (op : Issued) (j i x : Nat) (job : Job) (r : ReceiveJob) (e : Entry) (b : List Byte), s.Sound →
      s.med.issued = some op → op.write = true → op.wanted = true → op.who = .job j (.append b) → op.chunk = some x →
      s.jobAt j = some job → job.body = .receive r → job.entry = some i → s.entryAt i = some e →
      (s.chunkAt x).owner = .entry i →
      (∃ u, exec (.mediaWriteComplete true) s = .next (settle u)
          ∧ u.chunkAt x = { s.chunkAt x with used := (s.chunkAt x).used + 1 } ∧ (∀ y, y ≠ x → u.chunkAt y = s.chunkAt y)
          ∧ (r.matched = none ∨ job.reqs ≠ [] → u.jt = s.jt ∧ u.cat = s.cat ∧ u.cpe = s.cpe
              ∧ s.room j job = 8 - (job.reqs.length + 1) ∧ u.room j job = 8 - job.reqs.length)
          ∧ (∀ check, r.matched = some check → job.reqs = [] → u.jobAt j = none ∧ u.cat.mark = true ∧ .entry i ∈ u.cat.wt
              ∧ u.entryAt i = some { e with state := .held, check := check, storedBlocks := r.storedBlocks,
                                            holders := copyHolders s.own r.exclusion r.assigned, jobRefs := e.jobRefs - 1 }
              ∧ u.cpe = (raise (.doneJob job.tag .receive .ok job.take 0 0 0) s).cpe
              ∧ (∀ tag take, job.exTag = some tag → job.take = some take → s.linkStanding = true → s.lif.queue.length < 16 →
                  u.lif.queue.getLast? = some { frame := { src := s.own, dst := 63, dir := .out, tag := tag, take := take,
                                                           payload := .notice .holds }, owner := none })))
        ∧ (∃ u, exec (.mediaWriteComplete false) s = .next (settle u)
            ∧ u.jobAt j = some { job with reqs := .append b :: job.reqs } ∧ (∀ k, k ≠ j → u.jobAt k = s.jobAt k)
            ∧ u.chunkAt x = { s.chunkAt x with owner := .bad } ∧ u.med.bad = s.med.bad + 1 ∧ x / 80 ∈ u.med.mapList
            ∧ (∀ y, y ≠ x → u.chunkAt y = s.chunkAt y) ∧ u.cat = s.cat ∧ u.cpe = s.cpe))
  ∧ (∀ (s : State) (j i : Nat) (job : Job) (r : ReceiveJob) (e : Entry) (b : List Byte) (rest : List JobReq), s.Sound →
      s.jobAt j = some job → job.body = .receive r → job.entry = some i → s.entryAt i = some e →
      job.reqs = .append b :: rest → s.lastIsFull e = true → s.receiveChunk r = none →
      ∃ u, u = issue (.job j (.append b)) s ∧ u.jobAt j = none ∧ u.entryAt i = none
        ∧ u.cpe = (raise (.doneJob job.tag .receive .mediaFull job.take 0 0 0) s).cpe
        ∧ (s.linkStanding = true → s.lif.queue.length < 16 → { frame := s.jobFrame job job.opener .back (.abandon .mediaFull),
                                                               owner := none } ∈ u.lif.queue))
  ∧ ∀ (s : State) (op : Issued) (j i x q : Nat) (job : Job) (r : RepairJob) (e : Entry) (b : List Byte) (ok : Bool), s.Sound →
      s.med.issued = some op → op.write = true → op.wanted = true → op.who = .job j (.inPlace q b) → op.chunk = some x →
      s.jobAt j = some job → job.body = .repair r → job.entry = some i → s.entryAt i = some e →
      let clears := ok && e.damaged.contains q
      let written := if clears then { e with damaged := e.damaged.filter (· ≠ q), damagedCount := e.damagedCount - 1 } else e
      let cleared := if clears then r.cleared + 1 else r.cleared
      let chunks := fun (u : State) =>
        (ok = true → ∀ y, u.chunkAt y = s.chunkAt y)
          ∧ (ok = false → (s.chunkAt x).owner = .entry i → u.chunkAt x = { s.chunkAt x with owner := .bad }
              ∧ u.med.bad = s.med.bad + 1 ∧ ∀ y, y ≠ x → u.chunkAt y = s.chunkAt y)
      let ends := fun (result : Result) (u : State) =>
        u.jobAt j = none ∧ chunks u ∧ (∃ v, u = raise (.doneJob job.tag .repair result job.take (r.holder.getD 0xFF) cleared
            written.damaged.length) v)
          ∧ u.entryAt i = some
            { written with
              jobRefs := e.jobRefs - 1,
              repairHold := if result ≠ .ok ∨ ∃ y ∈ written.damaged, y = 0 ∨ (r.first ≤ y ∧ y < r.first + r.count)
                then some (s.now + 60000) else e.repairHold }
      (r.state ≠ .head → r.state ≠ .finishing ∨ job.reqs ≠ [] →
        ∃ u, exec (.mediaWriteComplete ok) s = .next (settle u) ∧ chunks u ∧ u.entryAt i = some written
          ∧ u.jobAt j = some { job with body := .repair { r with cleared := cleared } }
          ∧ (clears = true → u.cat.mark = true ∧ .entry i ∈ u.cat.wt))
        ∧ (r.state = .finishing → job.reqs = [] →
            ∃ u, exec (.mediaWriteComplete ok) s = .next (settle u) ∧ ends (r.recorded.getD .ok) u)
        ∧ (r.state = .head → (∀ y ∈ written.damaged, y = 0) →
            ∃ u, exec (.mediaWriteComplete ok) s = .next (settle u) ∧ ends .ok u)
        ∧ (r.state = .head → (∃ y ∈ written.damaged, y ≠ 0) → s.linkStanding = true →
            ∃ u job' r', exec (.mediaWriteComplete ok) s = .next (settle u) ∧ chunks u ∧ u.entryAt i = some written
              ∧ u.jobAt j = some job' ∧ job'.body = .repair r' ∧ r'.state = .seeking ∧ r'.cleared = cleared
              ∧ job'.exTag = some s.nextJobTag)

/-- A START's counter write (R6, R54): OK answers the START with the take number and the job's tag, also where the capture has ended
by then (the model's reading, log 13); a label's head-block write (R19): OK changes the label and answers OK, a fault marks the
chunk BAD and answers MEDIA_FAULT. A capture's sound block (R56, R57): written OK it frees its slot and brings the running values
up, with a boundary at offset 4095 alone; a fault turns the chunk BAD, which is a boundary, and its frames are a gap. The timeline
length of a boundary is the end of the last sound block written OK, and 0 while none has been, which is the model's reading (log
14). A discard run that is open when the slot frees is recorded as a gap, after the fault's (R60, R61); where the gap list does not
take a gap, and where the block finds no chunk (R62), the take is cut, OVERRUN or MEDIA_FULL. Its head block (R65, R66): written OK
it seals the take (R8) and ends the job OK, or is issued once more after a label change; a fault is followed by two more attempts,
and after the third the take is sealed MEDIA_FAULT with sequence 0 listed as damaged, JOB_DONE after DAMAGE_FOUND (the model's choice,
log 77). The chunk count of a boundary at a head block
is the model's choice (log 46). The write an ABORT or a CANCEL waits for frees the entry and ends the job CANCELLED, and the command
is answered (R67; the tags as log 17 reads them). The write a SOFT_RESET waits for is taken as R56 states, a fault's CAPTURE_GAP
included; it makes the entry INCOMPLETE with the values of its last boundary and its chain cut back to it (the holders it has
learned stay, the model's choice, log 62), and queues its head block; that written, or faulted three times, every job is gone
without an event, the events are emptied and OK is answered (R68, R162, R190); a job created in the wait ends then with its ABANDON,
which is the model's reading (log 43), a REPAIR job to its granted holder (R168; in FINISHING too, log 71). -/
def Obligations.WaitingCommandsAreAnswered : Prop :=
  (∀ (s : State) (op : Issued), s.med.issued = some op → op.write = true →
    (∀ n tag take, op.who = .wt .counter n → op.chunk = none → s.cpe.current = some (.start tag take) →
        ∃ u, exec (.mediaWriteComplete true) s = .next (settle (respond .ok 4 tag take.bytes u))
          ∧ u = { s with med.issued := none, med.store := u.med.store })
      ∧ (∀ n i label e, op.who = .wt (.head i label) n → s.cpe.current = some .labelWrite → s.entryAt i = some e →
          ∃ u, exec (.mediaWriteComplete true) s = .next (settle (respond .ok 9 0 [] u))
            ∧ u.entryAt i = some { e with label := label } ∧ .entry i ∈ u.cat.wt ∧ u.cat.mark = s.cat.mark
            ∧ ∀ k, k ≠ i → u.entryAt k = s.entryAt k)
      ∧ (∀ n i label x k, op.who = .wt (.head i label) n → s.cpe.current = some .labelWrite → op.chunk = some x →
          (s.chunkAt x).owner = .entry k →
          ∃ u, exec (.mediaWriteComplete false) s = .next (settle (respond .mediaFault 9 0 [] u)) ∧ u.cat = s.cat
            ∧ u.chunkAt x = { s.chunkAt x with owner := .bad } ∧ u.med.bad = s.med.bad + 1
            ∧ (∀ y, y ≠ x → u.chunkAt y = s.chunkAt y) ∧ x / 80 ∈ u.med.mapList))
  ∧ (∀ (s : State) (op : Issued) (j i x : Nat) (job : Job) (c : CaptureJob) (e : Entry) (take : TakeNo) (b : SoundBlock)
        (rest : List SoundBlock), s.Sound → s.med.issued = some op → op.write = true → op.wanted = true →
      op.who = .job j .sound → op.chunk = some x → s.jobAt j = some job → job.body = .capture c → c.ending = none →
      c.discard = none → c.closed = b :: rest → job.entry = some i → job.take = some take → s.entryAt i = some e →
      (s.chunkAt x).owner = .entry i →
      (∃ u c', exec (.mediaWriteComplete true) s = .next (settle u) ∧ u.jobAt j = some { job with body := .capture c' }
          ∧ c'.closed = rest ∧ c'.storedFrames = c.storedFrames + b.frames ∧ c'.soundBlocks = c.soundBlocks + 1
          ∧ c'.check = crc32On c.check b.bytes ∧ c'.clips = min 65535 (c.clips + b.clips) ∧ c'.gaps = c.gaps ∧ c'.state = c.state
          ∧ c'.lastEnd = b.start + b.frames ∧ c'.cut = c.cut ∧ c'.discard = none
          ∧ c'.head = (if c.state = .draining ∧ rest = [] ∧ c.head = .none then .queued else c.head)
          ∧ u.chunkAt x = { s.chunkAt x with used := (s.chunkAt x).used + 1 } ∧ (∀ y, y ≠ x → u.chunkAt y = s.chunkAt y)
          ∧ (op.offset ≠ 4095 → u.cat = s.cat)
          ∧ (op.offset = 4095 → .entry i ∈ u.cat.wt ∧ u.entryAt i = some
              { e with timelineLength := b.start + b.frames, storedFrames := c.storedFrames + b.frames,
                       storedBlocks := c.soundBlocks + 2, check := crc32On c.check b.bytes,
                       gaps := c.gaps.filter (fun g => g.start + g.length ≤ b.start + b.frames),
                       clips := min 65535 (c.clips + b.clips), chunkCount := (s.chain e).idxOf x + 1 }))
        ∧ ∀ gaps, insertGap { start := b.start, length := b.frames } c.gaps = some gaps →
            ∃ u c', exec (.mediaWriteComplete false) s = .next (settle u) ∧ u.jobAt j = some { job with body := .capture c' }
              ∧ c'.closed = rest ∧ c'.gaps = gaps ∧ c'.storedFrames = c.storedFrames ∧ c'.soundBlocks = c.soundBlocks
              ∧ c'.check = c.check ∧ c'.clips = c.clips ∧ c'.state = c.state ∧ c'.lastEnd = c.lastEnd
              ∧ c'.head = (if c.state = .draining ∧ rest = [] ∧ c.head = .none then .queued else c.head)
              ∧ u.chunkAt x = { s.chunkAt x with owner := .bad } ∧ u.med.bad = s.med.bad + 1 ∧ .entry i ∈ u.cat.wt
              ∧ u.entryAt i = some
                { e with timelineLength := c.lastEnd, storedFrames := c.storedFrames, storedBlocks := c.soundBlocks + 1,
                         check := c.check, gaps := c.gaps.filter (fun g => g.start + g.length ≤ c.lastEnd),
                         clips := c.clips, chunkCount := (s.chain e).idxOf x + 1 }
              ∧ (s.sul.cfg.eventMask.getLsbD 1 = true → s.cpe.events.length < 32 →
                  u.cpe.events = s.cpe.events ++ [.captureGap take b.start b.frames .writeFault]))
  ∧ (∀ (s : State) (op : Issued) (j i x : Nat) (job : Job) (c : CaptureJob) (e : Entry) (take : TakeNo) (b : SoundBlock)
        (rest : List SoundBlock), s.Sound → s.jobAt j = some job → job.body = .capture c → c.ending = none →
      c.closed = b :: rest → job.entry = some i → job.take = some take → s.entryAt i = some e →
      let cutAs := fun (at_ : Nat) (cause : EndCause) (closed : List SoundBlock) (u : State) =>
        ∃ c', u.jobAt j = some { job with body := .capture c' } ∧ c'.state = .draining ∧ c'.filling = none ∧ c'.discard = none
          ∧ c'.closed = closed.filter (fun b => b.start < at_) ∧ c'.gaps = c.gaps.filter (fun g => g.start < at_)
          ∧ c'.cut = some (match c.cut with
                           | some old => if at_ < old.1 then (at_, cause) else old
                           | none => (at_, cause))
          ∧ c'.head = (if closed.filter (fun b => b.start < at_) = [] ∧ c.head = .none then .queued else c.head)
      (s.med.issued = some op → op.write = true → op.wanted = true → op.who = .job j .sound → op.chunk = some x →
          (s.chunkAt x).owner = .entry i →
          (∀ start n, c.discard = some (start, n) →
            (∀ gaps, insertGap { start := start, length := n } c.gaps = some gaps →
              ∃ u c', exec (.mediaWriteComplete true) s = .next (settle u) ∧ u.jobAt j = some { job with body := .capture c' }
                ∧ c'.closed = rest ∧ c'.discard = none ∧ c'.gaps = gaps ∧ c'.state = c.state ∧ c'.cut = c.cut
                ∧ c'.lastEnd = b.start + b.frames ∧ u.cpe = (raise (.captureGap take start n .discard) s).cpe)
            ∧ (insertGap { start := start, length := n } c.gaps = none →
              ∃ u, exec (.mediaWriteComplete true) s = .next (settle u) ∧ cutAs start .overrun rest u ∧ u.cpe = s.cpe)
            ∧ (∀ gaps gaps', insertGap { start := b.start, length := b.frames } c.gaps = some gaps →
                insertGap { start := start, length := n } gaps = some gaps' →
                ∃ u c', exec (.mediaWriteComplete false) s = .next (settle u)
                  ∧ u.jobAt j = some { job with body := .capture c' } ∧ c'.closed = rest ∧ c'.discard = none
                  ∧ c'.gaps = gaps' ∧ c'.state = c.state ∧ c'.cut = c.cut
                  ∧ u.cpe = (raise (.captureGap take start n .discard)
                      (raise (.captureGap take b.start b.frames .writeFault) s)).cpe))
          ∧ (insertGap { start := b.start, length := b.frames } c.gaps = none →
              ∃ u, exec (.mediaWriteComplete false) s = .next (settle u) ∧ cutAs b.start .overrun rest u ∧ u.cpe = s.cpe
                ∧ u.chunkAt x = { s.chunkAt x with owner := .bad }))
        ∧ (s.lastIsFull e = true → s.med.free ≤ s.med.pledged ∨ s.lowestFree = none →
            ∃ u, u = issue (.job j .sound) s ∧ cutAs b.start .mediaFull c.closed u ∧ u.med = s.med ∧ u.cat = s.cat
              ∧ u.cpe = s.cpe))
  ∧ (∀ (s : State) (op : Issued) (j i x : Nat) (job : Job) (c : CaptureJob) (e : Entry), s.Sound →
      s.med.issued = some op → op.write = true → op.wanted = true → op.who = .job j .head → op.chunk = some x →
      s.jobAt j = some job → job.body = .capture c → c.ending = none → c.headAgain = true →
      job.entry = some i → s.entryAt i = some e →
      (∃ u, exec (.mediaWriteComplete true) s = .next (settle u) ∧ u.cat = s.cat ∧ u.cpe = s.cpe
          ∧ u.jobAt j = some { job with body := .capture { c with head := .queued, headAgain := false, headFaults := 0 } })
        ∧ (c.headFaults < 2 → ∃ u, exec (.mediaWriteComplete false) s = .next (settle u)
            ∧ u.jobAt j = some
                { job with body := .capture { c with head := .queued, headAgain := false, headFaults := c.headFaults + 1 } }))
  ∧ (∀ (s : State) (op : Issued) (j i x : Nat) (req : JobReq) (job : Job) (c : CaptureJob) (e : Entry) (b : SoundBlock)
        (rest : List SoundBlock) (ok : Bool), s.Sound →
      s.med.issued = some op → op.write = true → op.wanted = true → op.who = .job j req → op.chunk = some x →
      s.jobAt j = some job → job.body = .capture c → job.entry = some i → s.entryAt i = some e →
      (s.chunkAt x).owner = .entry i →
      (∀ code tag, c.ending = some .abort →
          (s.cpe.current = some .abort ∧ code = 6 ∧ tag = 0) ∨ (s.cpe.current = some (.cancel tag) ∧ code = 8) →
          ∃ u, exec (.mediaWriteComplete ok) s = .next (settle u) ∧ u.jobAt j = none ∧ u.entryAt i = none
            ∧ u.port.owner ≠ some j ∧ u.cat.mark = true
            ∧ (∀ y ∈ s.chain e, y ≠ x → (s.chunkAt y).owner = .entry i → u.chunkAt y = freeChunk)
            ∧ (x ∈ s.chain e → u.chunkAt x = if ok then freeChunk else { owner := .bad, next := none, used := 0 })
            ∧ u.cpe = (respond .ok code tag [] (raise (.doneJob job.tag .capture .cancelled job.take 0 0 0) s)).cpe)
        ∧ (c.ending = some .softReset → (req = .sound ∧ c.closed = b :: rest) ∨ (req = .head ∧ ok = true) →
            let atBoundary :=
              if req = .head then e
              else if ok = true then
                (if op.offset = 4095 then
                  { e with timelineLength := b.start + b.frames, storedFrames := c.storedFrames + b.frames,
                           storedBlocks := c.soundBlocks + 2, check := crc32On c.check b.bytes,
                           gaps := c.gaps.filter (fun g => g.start + g.length ≤ b.start + b.frames),
                           clips := min 65535 (c.clips + b.clips), chunkCount := (s.chain e).idxOf x + 1 }
                else e)
              else
                { e with timelineLength := c.lastEnd, storedFrames := c.storedFrames, storedBlocks := c.soundBlocks + 1,
                         check := c.check, gaps := c.gaps.filter (fun g => g.start + g.length ≤ c.lastEnd), clips := c.clips,
                         chunkCount := (s.chain e).idxOf x + 1 }
            let kept := (s.chain e).take atBoundary.chunkCount
            ∃ u c', exec (.mediaWriteComplete ok) s = .next (settle u) ∧ u.jobAt j = some { job with body := .capture c' }
              ∧ c'.ending = some .softHead ∧ c'.head = .queued ∧ c'.headFaults = 0 ∧ c'.closed = []
              ∧ u.cpe = (match req, ok, job.take, insertGap { start := b.start, length := b.frames } c.gaps with
                         | .sound, false, some take, some _ => (raise (.captureGap take b.start b.frames .writeFault) s).cpe
                         | _, _, _, _ => s.cpe)
              ∧ u.entryAt i = some { atBoundary with state := .incomplete, endCause := some .reset }
              ∧ u.cat.mark = true ∧ .entry i ∈ u.cat.wt
              ∧ ((s.chain e).Nodup →
                  (∀ y ∈ (s.chain e).drop atBoundary.chunkCount, (s.chunkAt y).owner = .entry i → ok = true ∨ y ≠ x →
                    u.chunkAt y = freeChunk)
                  ∧ (∀ l, kept.getLast? = some l → x ∉ kept.dropLast →
                      (u.chunkAt l).next = none ∧ (u.chunkAt l).used = atBoundary.storedBlocks - s.blocksUsed kept.dropLast)))
        ∧ (c.ending = some .softHead →
            let done := fun (e' : Entry) (u : State) =>
              u.jt.jobs = [] ∧ u.port.owner ≠ some j ∧ u.notes = [] ∧ (∀ r ∈ u.hou.answers, r.doomed = true)
                ∧ u.cpe = { s.cpe with port := .responseWaiting, current := none,
                                       response := some { result := .ok, code := 16, tag := 0, data := [] }, events := [],
                                       seen := [0, 0, 0, 0, 0, 0, 0, 0], lost := 0, refused := 0 }
                ∧ ((∀ k job', k ≠ j → s.jobAt k = some job' → job'.entry ≠ some i) →
                    u.entryAt i = some { e' with jobRefs := e.jobRefs - 1, repairHold := none })
                ∧ (s.linkStanding = true → s.lif.queue.length + s.resetPartings.length ≤ 16 →
                    ∀ f ∈ s.resetPartings, { frame := f, owner := none } ∈ u.lif.queue)
            (ok = true → ∃ u, exec (.mediaWriteComplete ok) s = .next (settle u) ∧ done e u)
              ∧ (ok = false → c.headFaults < 2 → ∃ u, exec (.mediaWriteComplete ok) s = .next (settle u)
                  ∧ u.jobAt j = some
                      { job with body := .capture { c with head := .queued, headFaults := c.headFaults + 1 } }
                  ∧ u.cat = s.cat ∧ u.cpe = s.cpe)
              ∧ (ok = false → 2 ≤ c.headFaults → 0 ∉ e.damaged → e.damaged.length < 8 →
                  ∃ u, exec (.mediaWriteComplete ok) s = .next (settle u)
                    ∧ done { e with damaged := 0 :: e.damaged, damagedCount := min 255 (e.damagedCount + 1) } u)))
  ∧ ∀ (s : State) (op : Issued) (j i x at_ : Nat) (cause : EndCause) (job : Job) (c : CaptureJob) (e : Entry), s.Sound →
      s.med.issued = some op → op.write = true → op.wanted = true → op.who = .job j .head → op.chunk = some x →
      s.jobAt j = some job → job.body = .capture c → c.ending = none → c.cut = some (at_, cause) → c.headAgain = false →
      job.entry = some i → s.entryAt i = some e →
      let sealedAs := fun (cause : EndCause) (u : State) (e' : Entry) =>
        u.jobAt j = none ∧ u.port.owner ≠ some j ∧ u.cat.mark = true ∧ .entry i ∈ u.cat.wt ∧ u.entryAt i = some e'
          ∧ e'.take = e.take ∧ e'.state = .held ∧ e'.timelineLength = at_ ∧ e'.storedFrames = c.storedFrames
          ∧ e'.storedBlocks = c.soundBlocks + 1 ∧ e'.check = c.check ∧ e'.gaps = c.gaps ∧ e'.clips = c.clips
          ∧ e'.endCause = some cause ∧ e'.chunkCount = (s.chain e).length ∧ e'.holders = addOwnAddress s.own e.holders
          ∧ e'.copiesWanted = s.sul.cfg.copiesWanted ∧ e'.jobRefs = e.jobRefs - 1
          ∧ e'.placement = (if 1 < s.sul.cfg.copiesWanted then .queued else .notNeeded)
          ∧ u.cat.queue = (if 1 < s.sul.cfg.copiesWanted then s.cat.queue ++ [(i, s.now)] else s.cat.queue)
          ∧ (s.sul.cfg.eventMask.getLsbD 0 = true → u.cpe.events.getLast? = some (.doneJob job.tag .capture .ok job.take
              (match cause with
               | .normal => 1
               | .overrun => 2
               | .mediaFull => 3
               | .mediaFault => 4
               | .reset => 5) 0 0)
              ∨ 32 ≤ s.cpe.events.length + 1)
      (∃ u e', exec (.mediaWriteComplete true) s = .next (settle u) ∧ sealedAs cause u e' ∧ e'.damaged = e.damaged)
        ∧ (c.headFaults < 2 → ∃ u c', exec (.mediaWriteComplete false) s = .next (settle u)
            ∧ u.jobAt j = some { job with body := .capture c' } ∧ c' = { c with head := .queued, headFaults := c.headFaults + 1 })
        ∧ (2 ≤ c.headFaults → 0 ∉ e.damaged → e.damaged.length < 8 →
            ∃ u e', exec (.mediaWriteComplete false) s = .next (settle u) ∧ sealedAs .mediaFault u e'
              ∧ e'.damaged = 0 :: e.damaged ∧ e'.damagedCount = min 255 (e.damagedCount + 1))
        ∧ (∀ k, (s.chunkAt x).owner = .entry k → ∃ u, exec (.mediaWriteComplete false) s = .next (settle u)
            ∧ u.chunkAt x = { s.chunkAt x with owner := .bad } ∧ u.med.bad = s.med.bad + 1
            ∧ (c.headFaults < 2 → .entry i ∈ u.cat.wt ∧ u.entryAt i = some
                { e with timelineLength := c.lastEnd, storedFrames := c.storedFrames, storedBlocks := c.soundBlocks + 1,
                         check := c.check, gaps := c.gaps.filter (fun g => g.start + g.length ≤ c.lastEnd),
                         clips := c.clips, chunkCount := (s.chain e).length }))

/-! ## The medium and the hold-off -/

/-- The medium and what is heard (R72, R73, R76): carrier makes it BUSY, freezes every count and returns released frames
to their offset phase; at its end the medium is SETTLING and the period, if the node heard it begin, is classed: a
good frame sets last-source to its source, and is a duplicate when that is the own address; bad and malformed ones
change nothing else. That the classed period waits in `heard` for its row is the model's choice (log 4), and so is
`classify`'s place of the frame check in a period that goes on past its frame (log 61). -/
def Obligations.CarrierPeriodsAreClassed : Prop :=
  ∀ s : State,
    (s.lif.carrier = false → s.lif.listening = true → s.lif.sending = none →
      ∃ t, exec .carrierAppears s = .next t ∧ t.lif.carrier = true ∧ t.lif.medium = .busy ∧ t.lif.rxOpen = true
        ∧ t.hou.answers = s.hou.answers.map (fun r =>
            { r with progress := 0, phase := if r.phase = .released then .offset else r.phase })
        ∧ t.hou.plain = s.hou.plain.map (fun r =>
            { r with progress := 0, phase := if r.phase = .released then .offset else r.phase })
        ∧ t.lif.queue = s.lif.queue ∧ t.lif.lastSource = s.lif.lastSource ∧ { t with lif := s.lif, hou := s.hou } = s)
      ∧ (s.lif.carrier = false → s.lif.listening = false ∨ s.lif.sending ≠ none →
          exec .carrierAppears s = .next { s with lif.carrier := true, lif.rxOpen := false })
      ∧ (∀ period, s.lif.carrier = true → s.lif.listening = true → s.lif.sending = none → s.lif.rxOpen = true →
          (∀ f, classify period = .good f →
            exec (.carrierEnds period) s = .next
              { s with lif.carrier := false, lif.medium := .settling, lif.absent := 0, lif.rxOpen := false,
                       lif.lastSource := f.src, lif.heard := some (if f.src = s.own then .duplicate else .good f) })
          ∧ (classify period = .bad →
            exec (.carrierEnds period) s = .next
              { s with lif.carrier := false, lif.medium := .settling, lif.absent := 0, lif.rxOpen := false,
                       lif.heard := some .bad })
          ∧ (classify period = .malformed →
            exec (.carrierEnds period) s = .next
              { s with lif.carrier := false, lif.medium := .settling, lif.absent := 0, lif.rxOpen := false,
                       lif.heard := some .malformed }))
      ∧ (∀ period, s.lif.carrier = true → s.lif.listening = true → s.lif.sending = none → s.lif.rxOpen = false →
          exec (.carrierEnds period) s = .next
            { s with lif.carrier := false, lif.medium := .settling, lif.absent := 0 })

/-- Counting in IDLE (R96, R98, R99): IDLE_GAP_ELAPSED makes the medium IDLE, and a record with no slots left or in its
offset phase begins that phase with the offset (own - last-source - 1) mod 32; SLOT_PHASE_END does so when the slots
have run out; HOLDOFF_RELEASE releases the frame after 4 bit times for each sub-slot, and LIF starts one. Each carries
time over the bit times that remain (the model's choice, log 2). -/
def Obligations.HoldoffCountsRunInIdle : Prop :=
  ∀ s : State, s.sul.cfg.inRange → s.lif.lastSource ≤ 31 →
    (s.lif.listening = true → s.lif.medium = .settling → s.lif.gap = false → s.lif.carrier = false →
      ∃ t, exec .idleGapElapsed s = .next t ∧ t.lif.medium = .idle
        ∧ t.clock = s.clock + (48 - s.lif.absent) * (8 / s.sul.cfg.linkRate)
        ∧ t.hou.answers = s.hou.answers.map (fun r =>
            if r.phase = .offset ∨ r.phase = .slot ∧ r.slots = 0 then
              { r with phase := .offset, offset := (s.own + 63 - s.lif.lastSource) % 32, progress := 0 }
            else r)
        ∧ t.lif.queue = s.lif.queue ∧ t.jt = s.jt ∧ t.cat = s.cat ∧ t.med = s.med ∧ t.cpe = s.cpe)
      ∧ (∀ o r, s.hou.answers.find? (fun r => r.order == o) = some r → s.lif.medium = .idle → r.phase = .slot →
          ∃ t, exec (.slotPhaseEnd (.answer o)) s = .next t
            ∧ t.clock = s.clock + (128 * r.slots - r.progress) * (8 / s.sul.cfg.linkRate)
            ∧ t.hou.answers.find? (fun r => r.order == o) = some
                { r with phase := .offset, slots := 0, progress := 0, offset := (s.own + 63 - s.lif.lastSource) % 32 }
            ∧ t.lif.queue = s.lif.queue ∧ t.jt = s.jt ∧ t.cat = s.cat ∧ t.med = s.med ∧ t.cpe = s.cpe)
      ∧ (∀ r, s.hou.plain = some r → s.lif.medium = .idle → r.phase = .slot →
          ∃ t, exec (.slotPhaseEnd .plain) s = .next t
            ∧ t.hou.plain = some
                { r with phase := .offset, slots := 0, progress := 0, offset := (s.own + 63 - s.lif.lastSource) % 32 })
      ∧ (∀ o r, s.hou.answers = [r] → r.order = o → r.doomed = false → s.lif.medium = .idle → r.phase = .offset →
          ∃ t, exec (.holdoffRelease (.answer o)) s = .next t
            ∧ t.clock = s.clock + (4 * r.offset - r.progress) * (8 / s.sul.cfg.linkRate)
            ∧ t.lif.sending = some { frame := r.frame, source := .answer o } ∧ t.lif.medium = .busy
            ∧ t.lif.burst = s.lif.burst + 1 ∧ t.lif.queue = s.lif.queue ∧ t.jt = s.jt ∧ t.cat = s.cat ∧ t.cpe = s.cpe)
      ∧ (∀ r x rest, s.hou.answers = [] → s.hou.plain = some r → s.lif.queue = x :: rest → s.lif.medium = .idle →
          r.phase = .offset →
          ∃ t, exec (.holdoffRelease .plain) s = .next t
            ∧ t.lif.sending = some { frame := x.frame, source := .front } ∧ t.lif.medium = .busy
            ∧ t.lif.burst = s.lif.burst + 1 ∧ t.lif.queue = s.lif.queue)

/-- FRAME_SENT (R76, R84): last-source becomes the own address and the frame leaves the queue, or HOU; the SEEK of a PLAY or
REPAIR job starts its answer window of 250 ms (R145, R165), a PLACE the bid window of 250 ms (R107), an ASSIGN the transfer to its
members (R111), a GRANT the receiver and the grant wait of 500 ms (R146, R165), a REPLICATE job's DONE the wait of 250 ms for its
members (R112); a SERVE job's DONE ends it OK, and a BID notes that it is sent (R117). BURST_GAP_END (R80): after 12 bit times the
next frame starts while the burst count is below the limit, otherwise the burst ends; no short gap follows a frame that ends
under another carrier (the model's reading, log 22). Each carries time over the bit
times that remain (the model's choice, log 2). -/
def Obligations.SentFramesLeaveTheQueue : Prop :=
  ∀ s : State,
    (∀ x y rest, s.lif.sending = some x → x.source = .front → s.lif.queue = y :: rest → y.owner = none →
      ∃ u, exec .frameSent s = .next (settle u) ∧ u.lif.queue = rest ∧ u.lif.lastSource = s.own ∧ u.lif.sending = none
        ∧ u.clock = s.clock + (x.frame.bits - s.lif.sentBits) * (8 / s.sul.cfg.linkRate)
        ∧ (u.lif.gap = true ↔ s.lif.endBurst = false ∧ s.lif.carrier = false)
        ∧ u.jt = s.jt ∧ u.cat = s.cat ∧ u.med = s.med ∧ u.cpe = s.cpe ∧ u.port = s.port ∧ u.notes = s.notes)
      ∧ (∀ x y rest j job p, s.lif.sending = some x → x.source = .front → s.lif.queue = y :: rest → y.owner = some j →
          x.frame.payload.kindCode = 1 → s.jobAt j = some job → job.body = .play p → p.state = .seeking →
          ∃ u, exec .frameSent s = .next (settle u) ∧ u.lif.queue = rest ∧ u.lif.lastSource = s.own
            ∧ u.jobAt j = some { job with body := .play { p with answerWindow := some (u.now + 250) } }
            ∧ ∀ k, k ≠ j → u.jobAt k = s.jobAt k)
      ∧ (∀ x y rest j job v, s.lif.sending = some x → x.source = .front → s.lif.queue = y :: rest → y.owner = some j →
          x.frame.payload.kindCode = 9 → s.Sound → s.jobAt j = some job → job.body = .serve v →
          ∃ u, exec .frameSent s = .next (settle u) ∧ u.jobAt j = none ∧ u.lif.lastSource = s.own
            ∧ u.cpe = (raise (.doneJob job.tag .serve .ok job.take 0 0 0) s).cpe)
      ∧ (∀ x y rest j job, s.lif.sending = some x → x.source = .front → s.lif.queue = y :: rest → y.owner = some j →
          s.jobAt j = some job →
          let sent := fun (job' : Job) (u : State) =>
            exec .frameSent s = .next (settle u) ∧ u.lif.queue = rest ∧ u.lif.lastSource = s.own ∧ u.jobAt j = some job'
              ∧ (∀ k, k ≠ j → u.jobAt k = s.jobAt k) ∧ u.cat = s.cat ∧ u.med = s.med ∧ u.cpe = s.cpe
          (∀ r, job.body = .repair r → r.state = .seeking → x.frame.payload.kindCode = 1 →
              ∃ u, sent { job with body := .repair { r with answerWindow := some (u.now + 250) } } u)
            ∧ (∀ r a b c d l, job.body = .replicate r → x.frame.payload = .place a b c d l →
                ∃ u, sent { job with body := .replicate { r with timer := some (u.now + 250) } } u)
            ∧ (∀ p holder, job.body = .play p → p.state = .awaitingData → x.frame.payload = .grant holder →
                ∃ u v, sent { job with body := .play { p with grantSent := true, grantWait := some (u.now + 500) },
                                       rcv := some v } u
                  ∧ v.run = none ∧ v.expected = 0 ∧ v.stepTimer = some (u.now + 20) ∧ v.inactivity = none)
            ∧ (∀ r holder, job.body = .repair r → r.state = .awaitingData → x.frame.payload = .grant holder →
                ∃ u v, sent { job with body := .repair { r with grantSent := true, grantWait := some (u.now + 500) },
                                       rcv := some v } u
                  ∧ v.run = some { head := false, first := r.first, count := r.count } ∧ v.expected = 0
                  ∧ v.stepTimer = some (u.now + 20) ∧ v.inactivity = none)
            ∧ (∀ r snd total check, job.body = .replicate r → job.snd = some snd → x.frame.payload = .done total check →
                (∃ m ∈ snd.members, m.status = .sending ∨ m.status = .awaiting) →
                ∃ u, sent { job with
                    body := .replicate { r with timer := some (u.now + 250) },
                    snd := some { snd with members := snd.members.map fun m =>
                      if m.status = .sending then { m with status := .awaiting, progress := none } else m } } u)
            ∧ (∀ r i e addresses, job.body = .replicate r → job.entry = some i → s.entryAt i = some e →
                x.frame.payload = .assign addresses → 1 ≤ e.storedBlocks → (∃ m ∈ r.group, m.1 ∉ r.left) →
                ∃ u snd, sent { job with body := .replicate { r with state := .sending, group := [], left := [] },
                                         snd := some snd,
                                         reqs := job.reqs ++ (List.range (min e.storedBlocks 8)).map .read } u
                  ∧ snd.run = { head := false, first := 0, count := e.storedBlocks } ∧ snd.next = min e.storedBlocks 8
                  ∧ snd.members.map (·.address) = r.group.map (·.1)
                  ∧ (∀ m ∈ snd.members, m.expected = 0 ∧ m.credit = 8 ∧ m.goBacks = 0
                      ∧ m.status = (if m.address ∈ r.left then .left else .sending)
                      ∧ m.progress = (if m.address ∈ r.left then none else some (u.now + 50)))))
      ∧ (∀ x o r j job v d, s.lif.sending = some x → x.source = .answer o → s.answerRecord o = some r → r.owner = some j →
          r.doomed = false → s.jobAt j = some job → job.body = .receive v → x.frame.payload = .bid d →
          ∃ u, exec .frameSent s = .next (settle u) ∧ u.answerRecord o = none ∧ u.lif.lastSource = s.own
            ∧ u.lif.queue = s.lif.queue ∧ u.jobAt j = some { job with body := .receive { v with bid := .sent } }
            ∧ ∀ k, k ≠ j → u.jobAt k = s.jobAt k)
      ∧ (∀ x o r, s.lif.sending = some x → x.source = .answer o → s.answerRecord o = some r → r.owner = none →
          ∃ u, exec .frameSent s = .next (settle u) ∧ u.answerRecord o = none ∧ u.lif.lastSource = s.own
            ∧ u.lif.queue = s.lif.queue ∧ u.jt = s.jt)
      ∧ (s.lif.gap = true → s.lif.sending = none → s.releasedAnswer = none →
          (∀ x rest, s.lif.queue = x :: rest → s.lif.burst < s.sul.cfg.burstLimit →
            ∃ t, exec .burstGapEnd s = .next t ∧ t.lif.sending = some { frame := x.frame, source := .front }
              ∧ t.lif.burst = s.lif.burst + 1 ∧ t.lif.medium = .busy ∧ t.lif.gap = false
              ∧ t.clock = s.clock + (12 - s.lif.absent) * (8 / s.sul.cfg.linkRate) ∧ t.lif.queue = s.lif.queue)
          ∧ (s.lif.queue = [] ∨ s.sul.cfg.burstLimit ≤ s.lif.burst →
            ∃ t, exec .burstGapEnd s = .next t ∧ t.lif.sending = none ∧ t.lif.burst = 0 ∧ t.lif.gap = false
              ∧ t.lif.queue = s.lif.queue))

/-- COLLISION (R81, R82, R95): the collision total rises by one, holding at 65,535, last-source stands and the burst ends.
Below eight collisions the record waits again in its slot phase with its base slots plus as many LFSR draws as collisions,
at most 1023; at the eighth the frame is gone, and the job it belongs to ends LINK_CONGESTED (R82); where it is a STEP of a PLAY
job past its head block, or of a REPAIR job that receives, the transfer ends early with that outcome instead (R156, R167; which
states those are is the model's reading, log 26; that an outcome recorded before stands is its choice, log 60). The JOB_DONE comes
after the COPIES_SHORT of a placement, the model's reading (log 77). -/
def Obligations.CollisionWaitsAgain : Prop :=
  ∀ (s : State) (x : Sending), s.lif.sending = some x →
    (∀ o r, x.source = .answer o → s.answerRecord o = some r → r.doomed = false →
      (r.collisions < 7 →
        ∃ u, exec .collision s = .next (settle u) ∧ u.lif.collisions = min 65535 (s.lif.collisions + 1)
          ∧ u.lif.lastSource = s.lif.lastSource ∧ u.lif.burst = 0 ∧ u.lif.sending = none
          ∧ u.lif.lfsr = (lfsrDraws (r.collisions + 1) s.lif.lfsr).2
          ∧ (∃ r', u.answerRecord o = some r' ∧ r'.collisions = r.collisions + 1 ∧ r'.phase = .slot ∧ r'.progress = 0
              ∧ r'.slots = min 1023 (r.base + (lfsrDraws (r.collisions + 1) s.lif.lfsr).1) ∧ r'.frame = r.frame
              ∧ r'.base = r.base ∧ r'.order = r.order)
          ∧ u.lif.queue = s.lif.queue ∧ u.jt = s.jt ∧ u.cat = s.cat)
      ∧ (7 ≤ r.collisions → r.owner = none →
          ∃ u, exec .collision s = .next (settle u) ∧ u.lif.collisions = min 65535 (s.lif.collisions + 1)
            ∧ u.lif.lastSource = s.lif.lastSource ∧ u.answerRecord o = none ∧ u.lif.lfsr = s.lif.lfsr
            ∧ u.lif.queue = s.lif.queue ∧ u.jt = s.jt)
      ∧ (∀ j job v, 7 ≤ r.collisions → r.owner = some j → s.Sound → s.jobAt j = some job → job.body = .receive v →
          ∃ u w, exec .collision s = .next (settle u) ∧ u.jobAt j = none ∧ (∀ k, k ≠ j → u.jobAt k = s.jobAt k)
            ∧ u.lif.lastSource = s.lif.lastSource ∧ u.answerRecord o = none ∧ u.lif.lfsr = s.lif.lfsr
            ∧ u.med.pledged = s.med.pledged - v.pledge
            ∧ u = raise (.doneJob job.tag .receive .linkCongested job.take 0 0 0) w))
      ∧ (∀ r y rest, x.source = .front → s.hou.plain = some r → s.lif.queue = y :: rest →
          (r.collisions < 7 →
            ∃ u r', exec .collision s = .next (settle u) ∧ u.lif.collisions = min 65535 (s.lif.collisions + 1)
              ∧ u.lif.lastSource = s.lif.lastSource ∧ u.lif.queue = s.lif.queue ∧ u.hou.plain = some r'
              ∧ r'.collisions = r.collisions + 1 ∧ r'.phase = .slot
              ∧ r'.slots = min 1023 (r.base + (lfsrDraws (r.collisions + 1) s.lif.lfsr).1))
          ∧ (7 ≤ r.collisions → y.owner = none →
            ∃ u, exec .collision s = .next (settle u) ∧ u.lif.queue = rest ∧ u.lif.lastSource = s.lif.lastSource
              ∧ u.jt = s.jt)
          ∧ (∀ j job, 7 ≤ r.collisions → y.owner = some j → s.Sound → s.jobAt j = some job →
            (x.frame.payload.isStep = false ∨ (∀ p, job.body ≠ .play p) ∧ (∀ v, job.body ≠ .repair v)
                ∨ (∃ p, job.body = .play p ∧ (p.shape = none ∨ p.state ≠ .playing ∧ p.state ≠ .draining))
                ∨ (∃ v, job.body = .repair v ∧ v.state ≠ .receiving ∧ v.state ≠ .finishing) →
              ∃ u v a b c, exec .collision s = .next (settle u) ∧ u.jobAt j = none ∧ (∀ k, k ≠ j → u.jobAt k = s.jobAt k)
                ∧ u.lif.lastSource = s.lif.lastSource ∧ u.lif.lfsr = s.lif.lfsr
                ∧ u.lif.collisions = min 65535 (s.lif.collisions + 1)
                ∧ u = raise (.doneJob job.tag job.kind .linkCongested job.take a b c) v)
            ∧ (∀ p t, x.frame.payload.isStep = true → job.body = .play p → p.shape = some t →
                p.state = .playing ∨ p.state = .draining →
                ∃ u job', exec .collision s = .next (settle u) ∧ u.lif.queue = rest ∧ u.jobAt j = some job'
                  ∧ job'.body = .play { p with state := .draining,
                                               pendingResult := some (p.pendingResult.getD .linkCongested) }
                  ∧ job'.rcv = none ∧ u.cpe = s.cpe)
            ∧ (∀ v, x.frame.payload.isStep = true → job.body = .repair v → v.state = .receiving ∨ v.state = .finishing →
                (s.outstanding j job ≠ 0 → ∃ u job', exec .collision s = .next (settle u) ∧ u.lif.queue = rest
                    ∧ u.jobAt j = some job' ∧ job'.rcv = none ∧ job'.reqs = job.reqs
                    ∧ job'.body = .repair { v with state := .finishing, recorded := some (v.recorded.getD .linkCongested) })
                  ∧ (s.outstanding j job = 0 → ∃ u w a b c, exec .collision s = .next (settle u) ∧ u.jobAt j = none
                      ∧ u = raise (.doneJob job.tag .repair (v.recorded.getD .linkCongested) job.take a b c) w))))

/-- A bad or malformed frame changes the link error counter alone, by one, holding at 65,535 (R73, R83). A duplicate address
puts the node into LINK_MUTE (R86): the transmit queue, the notes and the notice list are emptied, every link job ends, and
LINK_MUTE is raised last (the order is the model's choice, log 58); a node already in it does nothing. -/
def Obligations.RejectedFramesAndDuplicates : Prop :=
  ∀ s : State,
    (s.lif.heard = some .bad →
      exec .badFrame s = .next { s with lif.heard := none, lif.errors := min 65535 (s.lif.errors + 1) })
      ∧ (s.lif.heard = some .malformed →
          exec .malformedFrame s = .next { s with lif.heard := none, lif.errors := min 65535 (s.lif.errors + 1) })
      ∧ (s.lif.heard = some .duplicate → s.muted = true →
          exec .duplicateAddress s = .next { s with lif.heard := none })
      ∧ (s.lif.heard = some .duplicate → s.muted = false → s.Sound →
          ∃ u v, exec .duplicateAddress s = .next (settle u) ∧ u = raise (.linkMute .duplicateAddress) v
            ∧ u.lif.mute = some .duplicateAddress ∧ u.lif.queue = [] ∧ u.notes = [] ∧ u.cat.notices = []
            ∧ (∀ r ∈ u.hou.answers, r.doomed = true) ∧ u.lif.heard = none
            ∧ (∀ j job, u.jobAt j = some job → job.isLink = false ∧ s.jobAt j = some job)
            ∧ (∀ j job, s.jobAt j = some job → job.isLink = false → u.jobAt j = some job)
            ∧ u.lif.lastSource = s.lif.lastSource ∧ u.cat.counter = s.cat.counter)

/-! ## Link frames -/

/-- A good SEEK of a take held here draws a HAVE when the tests of R148 (PLAY) or R166 (REPAIR) pass: a hold-off record with
the base slots of R93, expiring in 250 ms; an answer note for 1,000 ms, in place of one of the same exchange (the model's
choice of which of the two stays, log 44); and a wake. The HAVE is R192's for both purposes: the first block and the count that R166
has it record stand in the note alone (the model's choice, log 78). Where no entry is found nothing follows. -/
def Obligations.SeekDrawsAHave : Prop :=
  ∀ (s : State) (f : Frame) (start frames first count : Nat) (purpose : Purpose) (exclusion : List Nat),
    s.lif.heard = some (.good f) → f.payload = .seek start frames purpose first count exclusion →
    (∀ i e, s.playableEntry f.take = some (i, e) → s.linkStanding = true → s.own ∉ exclusion → s.countKind .serve < 3 →
      s.jt.jobs.length < 8 → s.notes.length < 6 →
      (purpose = .play ∧ start < e.timelineLength
        ∨ purpose = .repair ∧ first ≠ 0 ∧ first + count - 1 < e.storedBlocks ∧ e.overflow = false
            ∧ ∀ q ∈ e.damaged, ¬ (first ≤ q ∧ q < first + count)) →
      (∀ r ∈ s.hou.answers, r.isHave = true → r.answers f.src f.tag f.take = false) →
      s.hou.answers.countP HoldRec.isHave < 6 →
      ∃ u r, exec .seekReceived s = .next (settle u)
        ∧ u.hou.answers = s.hou.answers ++ [r] ∧ u.hou.plain = s.hou.plain
        ∧ r.frame = { src := s.own, dst := f.src, dir := .back, tag := f.tag, take := f.take,
                      payload := .haveTake (e.state == .incomplete) e.role e.damagedCount e.storedBlocks e.check }
        ∧ r.owner = none ∧ r.collisions = 0 ∧ r.expiry = some (s.now + 250) ∧ r.slots = r.base
        ∧ r.base = min 1023 (6 * s.jt.jobs.length
            + (match s.act.state with
               | .active => 0
               | .doze => 16
               | .sleep => 64
               | .waking => 64)
            + min (4 * e.damagedCount) 64 + (if e.role = .copy then 2 else 0) + (if e.state = .incomplete then 32 else 0))
        ∧ u.notes = s.notes.filter (fun n => !(n.requester == f.src && n.tag == f.tag && n.take == f.take))
            ++ [{ requester := f.src, tag := f.tag, take := f.take, purpose := purpose, start := start,
                  frames := frames, first := first, count := count, lapse := s.now + 1000 }]
        ∧ (s.act.state = .doze → u.act.state = .waking ∧ u.act.wakeAt = some (s.now + 20))
        ∧ (s.act.state = .sleep → u.act.state = .waking ∧ u.act.wakeAt = some (s.now + 150))
        ∧ (s.act.state = .active ∨ s.act.state = .waking → u.act.state = s.act.state ∧ u.act.wakeAt = s.act.wakeAt)
        ∧ { u with hou := s.hou, notes := s.notes, act := s.act, lif.heard := s.lif.heard } = s)
      ∧ (s.findTake f.take = none → f.dst ≠ s.own →
          exec .seekReceived s = .next (settle { s with lif.heard := none }))

/-- A good GRANT (R103, R149) removes the note of its exchange and cancels its pending HAVE; where it names this node and
the tests pass, a SERVE job is created with the requester as its member, a reference on the entry, and its first blocks
read, also while a SOFT_RESET waits for a capture (the model's reading, log 43). For purpose PLAY the run is the head block and
the sound blocks of R143: those of the first and of the last stored frame of the stretch, each at its count of stored frames before
it div F, plus 1; the head block alone where the stretch lies wholly in gaps. -/
def Obligations.GrantStartsServing : Prop :=
  let perBlock := fun (e : Entry) => 480 / ((match e.format.width with
                                             | .w16 => 2
                                             | .w24 => 3) * (match e.format.channels with
                                                             | .mono => 1
                                                             | .stereo => 2))
  let before := fun (e : Entry) (t : Nat) =>
    t - (e.gaps.map fun g => if g.start < t then min g.length (t - g.start) else 0).sum
  let stop := fun (e : Entry) (n : AnswerNote) =>
    if n.frames = 0 ∨ e.timelineLength < n.start + n.frames then e.timelineLength else n.start + n.frames
  ∀ (s : State) (f : Frame) (holder : Nat) (n : AnswerNote), s.Sound → s.lif.heard = some (.good f) →
    f.payload = .grant holder → f.dir = .out → s.noteFor f = some n →
    (holder ≠ s.own →
      ∃ u, exec .grantReceived s = .next (settle u) ∧ u.notes = s.notes.filter (· ≠ n) ∧ u.jt = s.jt ∧ u.cat = s.cat
        ∧ u.med = s.med ∧ (∀ r ∈ u.hou.answers, r.isHave = true → r.answers f.src f.tag f.take = true → r.doomed = true))
      ∧ (∀ i e, holder = s.own → s.playableEntry f.take = some (i, e) → s.linkStanding = true → s.countKind .serve < 3 →
          s.jt.jobs.length < 8 →
          ∃ u j job v t, exec .grantReceived s = .next (settle u) ∧ u.notes = s.notes.filter (· ≠ n)
            ∧ s.jobAt j = none ∧ u.jobAt j = some job ∧ job.body = .serve v ∧ v.purpose = n.purpose ∧ job.opener = f.src
            ∧ job.exTag = some f.tag ∧ job.take = some f.take ∧ job.tag = s.nextJobTag ∧ job.entry = some i
            ∧ u.entryAt i = some { e with jobRefs := e.jobRefs + 1 } ∧ job.snd = some t ∧ t.members.map (·.address) = [f.src]
            ∧ t.run = (match n.purpose with
                       | .play =>
                         if before e n.start < before e (stop e n) then
                           { head := true, first := before e n.start / perBlock e + 1,
                             count := ((before e (stop e n) - 1) / perBlock e + 1) - (before e n.start / perBlock e + 1) + 1 }
                         else { head := true, first := 1, count := 0 }
                       | .repair => { head := false, first := n.first, count := n.count })
            ∧ t.next = min 8 t.run.total ∧ job.reqs = (List.range (min 8 t.run.total)).map (fun p => .read (t.run.seqAt p))
            ∧ (∀ k, k ≠ i → u.entryAt k = s.entryAt k) ∧ (∀ k, k ≠ j → u.jobAt k = s.jobAt k) ∧ u.med = s.med
            ∧ (∀ r ∈ u.hou.answers, r.isHave = true → r.answers f.src f.tag f.take = true → r.doomed = true))

/-- A good HAVE of its exchange is taken by a PLAY job in SEEKING: its source becomes the granted holder, its stored blocks are
kept, the answer window stops, and a GRANT naming the holder is given (R145). A REPAIR job in SEEKING takes it in the same way if
it carries the stored blocks and the check value of the job's entry, and ignores it otherwise (R165). A job past SEEKING, and
a PLAY job that excludes the source, stays as it was. A live entry of the take learns the source (R170). Whether or not a job takes
it, the HAVE cancels this node's HAVE records of its exchange, unsent, but for one whose frame has started, and leaves every other
answer (R103). -/
def Obligations.HaveIsGranted : Prop :=
  ∀ (s : State) (f : Frame) (incomplete : Bool) (role : Role) (damaged stored : Nat) (check : Check),
    s.Sound → s.lif.heard = some (.good f) → f.payload = .haveTake incomplete role damaged stored check →
    (f.dir = .back →
      let mine := fun (x : HoldRec) => x.bids = none ∧ x.opener = f.dst ∧ x.frame.tag = f.tag ∧ x.frame.take = f.take
      ∃ u, exec .haveReceived s = .next (settle u)
        ∧ (∀ x ∈ u.hou.answers, mine x → x.doomed = true ∧ s.sendingAnswer = some x.order)
        ∧ ∀ x, ¬ mine x → (x ∈ u.hou.answers ↔ x ∈ s.hou.answers))
    ∧ ∀ (j : Nat) (job : Job), s.jobFor f = some (j, job) →
    let granted := fun (body : JobBody) (u : State) =>
      (∃ job', u.jobAt j = some job' ∧ job'.body = body ∧ job'.entry = job.entry ∧ job'.exTag = job.exTag)
        ∧ (s.linkStanding = true → s.lif.queue.length < 16 → job.outbox = [] →
            u.lif.queue = s.lif.queue ++
              [{ frame := { src := s.own, dst := 63, dir := .out, tag := f.tag, take := f.take, payload := .grant f.src },
                 owner := some j }])
    let learned := fun (u : State) =>
      (∀ k, k ≠ j → u.jobAt k = s.jobAt k) ∧ u.med = s.med
        ∧ (∀ i e, s.findTake f.take = some (i, e) →
            ∃ e', u.entryAt i = some e' ∧ e' = { e with holders := e'.holders }
              ∧ e'.holders = (if f.src ∈ e.holders ∨ 4 ≤ e.holders.length then e.holders else e.holders ++ [f.src])
              ∧ (e' ≠ e → u.cat.mark = true ∧ .entry i ∈ u.cat.wt))
        ∧ (∀ k, (∀ i e, s.findTake f.take = some (i, e) → k ≠ i) → u.entryAt k = s.entryAt k)
    (∀ p, job.body = .play p →
      ∃ u, exec .haveReceived s = .next (settle u) ∧ learned u
        ∧ (p.state = .seeking → p.exclusion ≠ some f.src →
            granted (.play { p with state := .awaitingData, holder := some f.src, grantedBlocks := some stored,
                                    answerWindow := none, grantSent := false }) u)
        ∧ (p.state ≠ .seeking ∨ p.exclusion = some f.src → u.jobAt j = some job ∧ u.lif.queue = s.lif.queue))
      ∧ ∀ r i e, job.body = .repair r → job.entry = some i → s.entryAt i = some e →
          ∃ u, exec .haveReceived s = .next (settle u) ∧ learned u
            ∧ (r.state = .seeking → stored = e.storedBlocks → check = e.check →
                granted (.repair { r with state := .awaitingData, holder := some f.src, answerWindow := none,
                                          grantSent := false }) u)
            ∧ (r.state ≠ .seeking ∨ stored ≠ e.storedBlocks ∨ check ≠ e.check →
                u.jobAt j = some job ∧ u.lif.queue = s.lif.queue)

/-- A PLACE that passes the bidder's test (R116) makes the changes of R117: a RECEIVE job in PLEDGED, the reservation, the
pledge, the 300 ms timer, a BID in HOU with the base slots of R93, and a wake, also while a SOFT_RESET waits for a capture
(the model's reading, log 43). The fill fraction is that with the pledge made, the rules' reading against Chapter 6's worked sequence
(log 59). One whose exclusion list names this node, or whose take is held here, creates nothing. -/
def Obligations.PlaceDrawsABid : Prop :=
  ∀ (s : State) (f : Frame) (stored copies wanted : Nat) (format : Format) (exclusion : List Nat), s.Sound →
    s.lif.heard = some (.good f) → f.payload = .place stored format copies wanted exclusion →
    (s.linkStanding = true → s.own ∉ exclusion → s.findTake f.take = none → s.cat.entries.length + s.cat.reserved < 2048 →
      s.jt.jobs.length < 8 → s.countKind .receive < 2 →
      (∀ k job, s.jobAt k = some job → job.kind = .receive → job.take ≠ some f.take) →
      s.med.pledged + (stored + 4095) / 4096 + 8 ≤ s.med.free →
      (∀ r ∈ s.hou.answers, r.isHave = false → r.answers f.src f.tag f.take = false) →
      ∃ u j job r b, exec .placeReceived s = .next (settle u)
        ∧ s.jobAt j = none ∧ u.jobAt j = some job ∧ job.body = .receive r ∧ r.receiving = false
        ∧ r.pledge = (stored + 4095) / 4096 ∧ r.timer = some (s.now + 300) ∧ r.wanted = wanted ∧ r.exclusion = exclusion
        ∧ r.storedBlocks = stored ∧ r.format = format ∧ r.copiesWanted = copies ∧ r.bid = .pending
        ∧ job.opener = f.src ∧ job.exTag = some f.tag ∧ job.take = some f.take ∧ job.entry = none ∧ job.tag = s.nextJobTag
        ∧ (∀ k, k ≠ j → u.jobAt k = s.jobAt k)
        ∧ u.cat = { s.cat with reserved := s.cat.reserved + 1 }
        ∧ u.med = { s.med with pledged := s.med.pledged + (stored + 4095) / 4096 }
        ∧ u.hou.answers = s.hou.answers ++ [b] ∧ b.owner = some j ∧ b.slots = b.base ∧ b.expiry = none
        ∧ b.frame = { src := s.own, dst := f.src, dir := .back, tag := f.tag, take := f.take,
                      payload := .bid (s.med.free - (s.med.pledged + (stored + 4095) / 4096)) }
        ∧ b.base = min 1023 (bidCurve s.sul.cfg.knots u.fillFraction + 6 * (s.jt.jobs.length + 1)
            + (match s.act.state with
               | .active => 0
               | .doze => 16
               | .sleep => 64
               | .waking => 64))
        ∧ (s.act.state = .doze → u.act.state = .waking ∧ u.act.wakeAt = some (s.now + 20)))
      ∧ (s.own ∈ exclusion ∨ s.findTake f.take ≠ none ∨ s.linkStanding = false → f.dst ≠ s.own →
          exec .placeReceived s = .next (settle { s with lif.heard := none }))

/-- A BID of its exchange joins the bid list of a REPLICATE job in OFFERING, unless its source is excluded or listed; when
the list is full the window closes, and the list is cut to its first addresses still wanted, the copy group (R108, R109). A bidder
that hears another node's BID of the exchange of its own BID record counts the source, unless it is excluded or counted already;
when the count reaches the wanted count the record is cancelled, unsent, but for one whose frame has started, and its PLEDGED job
ends CANCELLED, its reservation and its pledge given back (R104, R118). -/
def Obligations.BidJoinsTheList : Prop :=
  let mine := fun (f : Frame) (x : HoldRec) =>
    x.bids ≠ none ∧ x.opener = f.dst ∧ x.frame.tag = f.tag ∧ x.frame.take = f.take
  (∀ (s : State) (f : Frame) (free j i : Nat) (job : Job) (r : ReplicateJob) (e : Entry), s.Sound →
    s.lif.heard = some (.good f) → f.payload = .bid free → s.jobFor f = some (j, job) → job.body = .replicate r →
    r.state = .offering → (∀ x ∈ s.hou.answers, ¬ mine f x) → job.entry = some i → s.entryAt i = some e →
    (f.src ∈ r.exclusion ∨ (∃ b ∈ r.bids, b.1 = f.src) →
      ∃ u, exec .bidReceived s = .next (settle u) ∧ u.jt = s.jt ∧ u.cat = s.cat)
      ∧ (f.src ∉ r.exclusion → (∀ b ∈ r.bids, b.1 ≠ f.src) →
          (r.bids.length + 1 < r.wanted →
            ∃ u, exec .bidReceived s = .next (settle u) ∧ u.cat = s.cat ∧ (∀ k, k ≠ j → u.jobAt k = s.jobAt k)
              ∧ u.jobAt j = some { job with body := .replicate { r with bids := r.bids ++ [(f.src, free)] } })
          ∧ (r.wanted ≤ r.bids.length + 1 → e.holders.length < e.copiesWanted →
            ∃ u job' r', exec .bidReceived s = .next (settle u) ∧ u.jobAt j = some job' ∧ job'.body = .replicate r'
              ∧ r'.state = .assigning ∧ r'.timer = none
              ∧ r'.group = (r.bids ++ [(f.src, free)]).take (e.copiesWanted - e.holders.length) ∧ r'.bids = r'.group
              ∧ (s.linkStanding = true → s.lif.queue.length < 16 → job.outbox = [] →
                  u.lif.queue = s.lif.queue ++
                    [{ frame := { src := s.own, dst := 63, dir := .out, tag := f.tag, take := f.take,
                                  payload := .assign (r'.group.map (·.1)) }, owner := some j }]))))
  ∧ ∀ (s : State) (f : Frame) (free : Nat) (own : HoldRec) (b : BidCount), s.Sound →
      s.lif.heard = some (.good f) → f.payload = .bid free → f.dir = .back → f.dst ≠ s.own →
      own ∈ s.hou.answers → mine f own → (∀ x ∈ s.hou.answers, mine f x → x = own) → own.bids = some b →
      b.heard.length < b.wanted →
      (f.src ∈ b.exclusion ∨ f.src ∈ b.heard →
        exec .bidReceived s = .next (settle { s with lif.heard := none }))
      ∧ (f.src ∉ b.exclusion → f.src ∉ b.heard → b.heard.length + 1 < b.wanted →
          exec .bidReceived s = .next (settle { s with
            lif.heard := none
            hou.answers := s.hou.answers.map fun x =>
              if x = own then { x with bids := some { b with heard := b.heard ++ [f.src] } } else x }))
      ∧ (∀ j job r, f.src ∉ b.exclusion → f.src ∉ b.heard → b.wanted = b.heard.length + 1 → own.owner = some j →
          s.jobAt j = some job → job.body = .receive r → r.receiving = false → job.entry = none →
          ∃ u v, exec .bidReceived s = .next (settle u) ∧ u.jobAt j = none ∧ (∀ k, k ≠ j → u.jobAt k = s.jobAt k)
            ∧ u.cat = { s.cat with reserved := s.cat.reserved - 1 } ∧ u.med.pledged = s.med.pledged - r.pledge
            ∧ u = raise (.doneJob job.tag .receive .cancelled job.take 0 0 0) v
            ∧ ∀ x ∈ u.hou.answers, mine f x → x.doomed = true ∧ s.sendingAnswer = some x.order)

/-- An ASSIGN of its exchange reaches a PLEDGED job (R119): not named, the job ends CANCELLED; named, the RECEIVING entry is
created with its first chunk against the pledge, the reservation falls, and the receiver side begins, also where a live entry has
come to hold the take (the model's choice, log 57). Either way the job's BID record, if HOU still holds it, is cancelled, unsent, but
for one whose frame has started (R104). -/
def Obligations.AssignStartsTheCopy : Prop :=
  ∀ (s : State) (f : Frame) (addresses : List Nat) (j : Nat) (job : Job) (r : ReceiveJob), s.Sound →
    let mine := fun (x : HoldRec) => x.bids ≠ none ∧ x.opener = f.src ∧ x.frame.tag = f.tag ∧ x.frame.take = f.take
    let cancelled := fun (u : State) => ∀ x ∈ u.hou.answers, mine x → x.doomed = true ∧ s.sendingAnswer = some x.order
    s.lif.heard = some (.good f) → f.payload = .assign addresses → s.jobFor f = some (j, job) → job.body = .receive r →
    r.receiving = false → (∀ x ∈ s.hou.answers, mine x → x.owner = some j ∧ ∀ y ∈ s.hou.answers, mine y → y = x) →
    job.entry = none →
    (s.own ∉ addresses →
      ∃ u v, exec .assignReceived s = .next (settle u) ∧ u.jobAt j = none ∧ u.cat.reserved = s.cat.reserved - 1
        ∧ u.med.pledged = s.med.pledged - r.pledge ∧ u = raise (.doneJob job.tag .receive .cancelled job.take 0 0 0) v
        ∧ cancelled u)
      ∧ (∀ c, s.own ∈ addresses → 0 < r.pledge → s.lowestFree = some c →
          ∃ u i e job' r' v, exec .assignReceived s = .next (settle u) ∧ s.entryAt i = none ∧ u.entryAt i = some e
            ∧ (∀ k, k ≠ i → u.entryAt k = s.entryAt k)
            ∧ e.take = f.take ∧ e.role = .copy ∧ e.state = .receiving ∧ e.format = r.format
            ∧ e.storedBlocks = r.storedBlocks ∧ e.copiesWanted = r.copiesWanted ∧ e.firstChunk = c ∧ e.chunkCount = 1
            ∧ e.jobRefs = 1 ∧ e.holders = [] ∧ e.placement = .notNeeded ∧ e.label = none
            ∧ u.chunkAt c = { owner := .entry i, next := none, used := 0 } ∧ u.med.free = s.med.free - 1
            ∧ u.med.pledged = s.med.pledged - 1 ∧ u.cat.reserved = s.cat.reserved - 1 ∧ u.cat.mark = true
            ∧ u.jobAt j = some job' ∧ job'.entry = some i ∧ job'.body = .receive r' ∧ r'.receiving = true
            ∧ r'.pledge = r.pledge - 1 ∧ r'.timer = none ∧ r'.assigned = addresses ∧ job'.rcv = some v ∧ v.expected = 0
            ∧ v.run = some { head := false, first := 0, count := r.storedBlocks } ∧ v.inactivity = some (s.now + 500)
            ∧ v.stepTimer = some (s.now + 20) ∧ (∀ k, k ≠ j → u.jobAt k = s.jobAt k) ∧ cancelled u)

/-- A DATA frame reaches its receiver (R131, R132); each restarts the inactivity timer while blocks are owed, and the first takes
a PLAY or REPAIR job out of AWAITING_DATA (R146, R165). A block out of order (above the expected position E, not in the run, or at E
with a disagreeing check and the damaged flag clear) is discarded, and the first such gap gives a STEP naming E; one below E is
discarded as a duplicate, which gives a STEP only once the whole run is accepted; a discard changes nothing else (R131, R134). A PLAY
job knows position 0 alone before its head block (R123). At E a RECEIVE job queues a good block as an append, the head block
describing the entry; damaged, or a head block that does not fit the exchange, ends the job CHECK_FAILED. A PLAY job takes an accepted
sound block into a slot (R151), a REPAIR job queues it in place where the sequence is listed or the overflow flag set; with the last
position of its run it is FINISHING, and ends where it has no write left (R167). A PLAY job's head block stops the grant wait; where
it fits the exchange the job takes the format, the length, the gaps and the run from it and is PLAYING, or DRAINING with no block to
come (R151); damaged, or not fitting, or not to be decoded (the last is the model's reading, log 15), it ends the job CHECK_FAILED
with an ABANDON (R132, R138). That the entry's fields are set at the acceptance is the model's reading (log 27), that a block whose
header gives more bytes than its payload holds adds 480 to the check value its choice (log 47). There is no premise on the room: that
a block at E is accepted also beyond the credit, which R133 calls the number of further blocks the receiver will accept, so that a
PLAY job can hold more than 96 slots and a RECEIVE or REPAIR job more than 8 writes, is the model's reading (log 30). -/
def Obligations.DataIsAcceptedInOrder : Prop :=
  (∀ (s : State) (f : Frame) (seq j i : Nat) (damaged : Bool) (block : List Byte) (job : Job) (e : Entry) (v : Receiver) (run : Run),
    s.Sound → s.lif.heard = some (.good f) → f.payload = .data seq damaged block → s.jobFor f = some (j, job) →
    job.rcv = some v → v.run = some run → v.expected < run.total →
    (∀ r, job.body = .receive r → r.matched = none → job.entry = some i → s.entryAt i = some e → run.head = false →
      run.first = 0 →
      (damaged = false → seq = v.expected → seq ≠ 0 → fieldAt block 16 2 = (crc16 ((block.drop 32).take 480)).toNat →
        ∃ u job' v', exec .dataReceived s = .next (settle u) ∧ u.jobAt j = some job' ∧ job'.rcv = some v'
          ∧ v'.expected = v.expected + 1 ∧ v'.gapReported = false ∧ v'.inactivity = some (s.now + 500)
          ∧ v'.check = crc32On v.check (filledBytes r.format block) ∧ job'.reqs = job.reqs ++ [.append block]
          ∧ job'.body = job.body ∧ (v.accepted < 7 → v.expected + 1 < run.count → v'.accepted = v.accepted + 1)
          ∧ (v.accepted = 7 ∨ v.expected + 1 = run.count → v'.accepted = 0)
          ∧ u.cat = s.cat ∧ u.med = s.med ∧ (∀ k, k ≠ j → u.jobAt k = s.jobAt k))
        ∧ (∀ h, damaged = false → seq = 0 → v.expected = 0 → fieldAt block 16 2 = (crc16 ((block.drop 32).take 480)).toNat →
            headOfPayload ((block.drop 32).take 480) = some h →
            (some h.take = job.take → h.storedBlocks = r.storedBlocks →
              ∃ u job' v', exec .dataReceived s = .next (settle u) ∧ u.jobAt j = some job' ∧ job'.rcv = some v'
                ∧ v'.expected = 1 ∧ v'.check = v.check ∧ job'.reqs = job.reqs ++ [.append block]
                ∧ u.entryAt i = some { e with timelineLength := h.timelineLength, storedFrames := h.storedFrames,
                                              gaps := h.gaps, clips := h.clips, endCause := some h.endCause,
                                              label := h.label }
                ∧ .entry i ∈ u.cat.wt ∧ (∀ k, k ≠ i → u.entryAt k = s.entryAt k) ∧ u.med = s.med)
            ∧ (some h.take ≠ job.take ∨ h.storedBlocks ≠ r.storedBlocks →
              ∃ u w, exec .dataReceived s = .next (settle u) ∧ u.jobAt j = none ∧ u.entryAt i = none
                ∧ u = raise (.doneJob job.tag .receive .checkFailed job.take 0 0 0) w))
        ∧ (damaged = true → seq = v.expected →
            ∃ u w, exec .dataReceived s = .next (settle u) ∧ u.jobAt j = none ∧ u.entryAt i = none
              ∧ u = raise (.doneJob job.tag .receive .checkFailed job.take 0 0 0) w))
      ∧ (∀ p, job.body = .play p → p.holder = some f.src → p.state = .playing → run.posOf seq = some v.expected → seq ≠ 0 →
          damaged = true ∨ fieldAt block 16 2 = (crc16 ((block.drop 32).take 480)).toNat →
          ∃ u job' p' v', exec .dataReceived s = .next (settle u) ∧ u.jobAt j = some job' ∧ job'.body = .play p'
            ∧ p'.slots = p.slots ++ [{ seq := seq, ready := true, damaged := damaged, bytes := block }]
            ∧ p'.cursor = p.cursor ∧ job'.rcv = some v' ∧ v'.expected = v.expected + 1
            ∧ (v.expected + 1 < run.total → p'.state = .playing ∧ v'.inactivity = some (s.now + 500))
            ∧ (v.expected + 1 = run.total → p'.state = .draining ∧ v'.inactivity = none)
            ∧ u.cat = s.cat ∧ u.med = s.med ∧ (∀ k, k ≠ j → u.jobAt k = s.jobAt k))
      ∧ (∀ r, job.body = .repair r → r.holder = some f.src → r.state = .receiving ∨ r.state = .awaitingData →
          job.entry = some i → s.entryAt i = some e → run.posOf seq = some v.expected →
          damaged = true ∨ fieldAt block 16 2 = (crc16 ((block.drop 32).take 480)).toNat →
          (v.expected + 1 < run.total →
            ∃ u job' v', exec .dataReceived s = .next (settle u) ∧ u.jobAt j = some job' ∧ job'.rcv = some v'
            ∧ v'.expected = v.expected + 1 ∧ v'.inactivity = some (s.now + 500)
            ∧ (damaged = false → seq ∈ e.damaged ∨ e.overflow = true → job'.reqs = job.reqs ++ [.inPlace seq block])
            ∧ (damaged = true ∨ seq ∉ e.damaged ∧ e.overflow = false → job'.reqs = job.reqs)
            ∧ job'.body = .repair (if r.state = .awaitingData then { r with state := .receiving, grantWait := none } else r)
            ∧ u.cat = s.cat ∧ u.med = s.med)
          ∧ (v.expected + 1 = run.total →
            let writes := !damaged && (decide (seq ∈ e.damaged) || e.overflow)
            (writes = true ∨ job.reqs ≠ [] ∨ s.issuedBy j = true →
              ∃ u job' r' v', exec .dataReceived s = .next (settle u) ∧ u.jobAt j = some job' ∧ job'.body = .repair r'
                ∧ r'.state = .finishing ∧ r'.recorded = r.recorded ∧ r'.cleared = r.cleared ∧ job'.rcv = some v'
                ∧ v'.expected = run.total ∧ v'.inactivity = none
                ∧ job'.reqs = job.reqs ++ (if writes then [.inPlace seq block] else []) ∧ u.cat = s.cat ∧ u.med = s.med)
            ∧ (writes = false → job.reqs = [] → s.issuedBy j = false →
              ∃ u w, exec .dataReceived s = .next (settle u) ∧ u.jobAt j = none
                ∧ u = raise (.doneJob job.tag .repair (r.recorded.getD .ok) job.take f.src r.cleared e.damaged.length) w))))
  ∧ (∀ (s : State) (f : Frame) (seq j : Nat) (damaged : Bool) (block : List Byte) (job : Job) (v : Receiver) (body : JobBody)
      (dir : Direction) (timed : Prop), s.Sound → s.lif.heard = some (.good f) → f.payload = .data seq damaged block →
      s.jobFor f = some (j, job) → job.rcv = some v →
      let run := v.run.getD { head := true, first := 1, count := 0 }
      let owed := v.run = none ∨ v.expected < run.total
      ((∃ p, job.body = .play p ∧ p.holder = some f.src ∧ dir = .out ∧ (timed ↔ owed)
            ∧ body = .play (if p.state = .awaitingData then { p with state := .playing, grantWait := none } else p))
          ∨ (∃ r, job.body = .repair r ∧ r.holder = some f.src ∧ dir = .out ∧ (timed ↔ owed)
            ∧ body = .repair (if r.state = .awaitingData then { r with state := .receiving, grantWait := none } else r))
          ∨ (∃ r, job.body = .receive r ∧ body = job.body ∧ dir = .back ∧ (timed ↔ r.matched = none))) →
      ∀ x : Option Nat, (timed → x = some (s.now + 500)) → (¬ timed → x = v.inactivity) →
      let outOfOrder := (∀ p, run.posOf seq = some p → p < run.total → v.expected < p)
        ∨ run.posOf seq = some v.expected ∧ v.expected < run.total ∧ damaged = false
            ∧ fieldAt block 16 2 ≠ (crc16 ((block.drop 32).take 480)).toNat
      let duplicate := ∃ p, run.posOf seq = some p ∧ p < run.total ∧ p < v.expected
      let step : Frame := { src := s.own, dst := f.src, dir := dir, tag := f.tag, take := f.take,
                            payload := .step (run.seqAt v.expected) (min 8 (s.room j job)) }
      (outOfOrder ∧ v.gapReported = true ∨ duplicate ∧ owed →
        exec .dataReceived s = .next (settle
          { (if f.dst = s.own then reload { s with lif.heard := none } else { s with lif.heard := none }) with
            jt.jobs := smapSet s.jt.jobs j { job with body := body, rcv := some { v with inactivity := x } } }))
      ∧ (outOfOrder ∧ v.gapReported = false ∨ duplicate ∧ ¬ owed →
        ∃ u job' v', exec .dataReceived s = .next (settle u) ∧ u.jobAt j = some job' ∧ job'.rcv = some v'
          ∧ { v' with stepTimer := v.stepTimer } =
              { v with accepted := 0, inactivity := x, gapReported := v'.gapReported }
          ∧ (outOfOrder → v'.gapReported = true) ∧ (duplicate → v'.gapReported = v.gapReported)
          ∧ (owed → v'.stepTimer = some (s.now + 20)) ∧ (¬ owed → v'.stepTimer = none)
          ∧ job'.body = body ∧ job'.reqs = job.reqs ∧ u.cat = s.cat ∧ u.med = s.med ∧ u.port = s.port
          ∧ (∀ k, k ≠ j → u.jobAt k = s.jobAt k)
          ∧ ((∀ y ∈ job.outbox, y.payload.isStep = true) →
            (s.linkStanding = true → s.lif.queue.length < 16 →
              u.lif.queue = s.lif.queue ++ [{ frame := step, owner := some j }] ∧ job'.outbox = [])
            ∧ (s.linkStanding = false ∨ 16 ≤ s.lif.queue.length → u.lif.queue = s.lif.queue ∧ job'.outbox = [step]))))
  ∧ ∀ (s : State) (f : Frame) (j : Nat) (damaged : Bool) (block : List Byte) (job : Job) (p : PlayJob) (v : Receiver),
      s.Sound → s.lif.heard = some (.good f) → f.payload = .data 0 damaged block → s.jobFor f = some (j, job) →
      job.body = .play p → p.holder = some f.src → p.state = .awaitingData ∨ p.state = .playing →
      job.rcv = some v → v.run = none → v.expected = 0 →
      let whole := fieldAt block 16 2 = (crc16 ((block.drop 32).take 480)).toNat
      let fits := fun (h : HeadInfo) =>
        some h.take = job.take ∧ p.grantedBlocks = some h.storedBlocks ∧ p.start < h.timelineLength
      let give := fun (u : State) (payload : Payload) (owner : Option Nat) =>
        u.lif.queue = s.lif.queue ++
          [{ frame := { src := s.own, dst := f.src, dir := .out, tag := f.tag, take := f.take, payload := payload }, owner := owner }]
      (∀ h, damaged = false → whole → headOfPayload ((block.drop 32).take 480) = some h → fits h →
        let stop := if p.frames = 0 ∨ h.timelineLength < p.start + p.frames then h.timelineLength else p.start + p.frames
        let blocks := stretchBlocks h.format h.gaps p.start stop
        ∃ u job' p' v', exec .dataReceived s = .next (settle u) ∧ u.jobAt j = some job' ∧ job'.body = .play p'
          ∧ job'.rcv = some v'
          ∧ p'.shape = some { format := h.format, timelineLength := h.timelineLength, storedFrames := h.storedFrames, gaps := h.gaps }
          ∧ p'.endOffset = stop ∧ p'.firstBlock = blocks.1 ∧ p'.blockCount = blocks.2 ∧ p'.slots = p.slots ∧ p'.cursor = p.cursor
          ∧ (p.state = .awaitingData → p'.grantWait = none)
          ∧ v'.run = some { head := true, first := blocks.1, count := blocks.2 } ∧ v'.expected = 1
          ∧ (0 < blocks.2 → p'.state = .playing ∧ v'.inactivity = some (s.now + 500))
          ∧ (blocks.2 = 0 → p'.state = .draining ∧ v'.inactivity = none
              ∧ (s.linkStanding = true → s.lif.queue.length < 16 → job.outbox = [] →
                  give u (.step blocks.1 (min 8 (96 - p.slots.length))) (some j)))
          ∧ u.cat = s.cat ∧ u.med = s.med ∧ u.port = s.port ∧ ∀ k, k ≠ j → u.jobAt k = s.jobAt k)
      ∧ (damaged = true ∨ whole ∧ (∀ h, headOfPayload ((block.drop 32).take 480) = some h → ¬ fits h) →
          ∃ u w, exec .dataReceived s = .next (settle u) ∧ u.jobAt j = none ∧ (∀ k, k ≠ j → u.jobAt k = s.jobAt k)
            ∧ u = raise (.doneJob job.tag .play .checkFailed job.take f.src p.underruns 0) w
            ∧ (s.port.owner = some j → u.port.owner = none ∧ u.port.line = .released)
            ∧ (s.linkStanding = true → (∀ x ∈ s.lif.queue, x.owner ≠ some j) → s.lif.queue.length < 16 →
                give u (.abandon .checkFailed) none))

/-- A STEP from a member in SENDING (R127), with `P` the position of the sequence it names: below the member's E it is stale;
above, E becomes P with progress; equal with nothing unreceipted, progress; equal otherwise, the credit alone. Then the sender goes
on: while a member still SENDING has not receipted the run, every block from the sender's position up to the lowest E + C of those
members, inside the run, is committed and its read requested in order (R125); once all have, the DONE is given, with the run count
and the entry's check value, and a REPLICATE job enters CLOSING (R111, R112, R136). After the DONE nothing more is sent. That the
window is committed also behind reads that wait from a go-back, the list then holding more than 8, is the model's choice (log 76). -/
def Obligations.StepMovesTheMember : Prop :=
  ∀ (s : State) (f : Frame) (seq credit j P : Nat) (job : Job) (t : Sender) (m : Member), s.Sound →
    s.lif.heard = some (.good f) → f.payload = .step seq credit → s.jobFor f = some (j, job) → job.snd = some t →
    t.member f.src = some m → m.status = .sending → t.run.posOf seq = some P →
    let moved := fun (x : Member) =>
      if P < m.expected then x
      else if m.expected < P ∨ t.next ≤ m.expected then
        { x with expected := P, credit := credit, goBacks := 0,
                 progress := if P = t.run.total then none else some (s.now + 50) }
      else { x with credit := credit }
    let members := t.members.map fun x => if x.address = f.src then moved x else x
    let owed := members.filter fun x => x.status = .sending ∧ x.expected ≠ t.run.total
    let last := owed.foldl (fun a x => min a (x.expected + x.credit)) t.run.total
    ∃ u job' t', exec .stepReceived s = .next (settle u) ∧ u.jobAt j = some job' ∧ job'.snd = some t'
      ∧ t'.member f.src = some (moved m) ∧ (∀ a, a ≠ f.src → t'.member a = t.member a) ∧ t'.members = members ∧ t'.run = t.run
      ∧ u.cat = s.cat ∧ u.med = s.med ∧ (∀ k, k ≠ j → u.jobAt k = s.jobAt k)
      ∧ (t.doneGiven = true → job' = { job with snd := some { t with members := members } })
      ∧ (t.doneGiven = false → owed ≠ [] →
          job' = { job with
            snd := some { t with members := members, next := max t.next last }
            reqs := job.reqs ++ (List.range' t.next (last - t.next)).map fun p => .read (t.run.seqAt p) })
      ∧ (t.doneGiven = false → owed = [] →
          t' = { t with members := members, doneGiven := true } ∧ job'.reqs = job.reqs
            ∧ (∀ v, job.body = .serve v → job'.body = job.body)
            ∧ (∀ r, job.body = .replicate r → job'.body = .replicate { r with state := .closing })
            ∧ ∀ i e dst dir, job.entry = some i → s.entryAt i = some e →
                ((∃ v, job.body = .serve v) ∧ dst = f.src ∧ dir = .back)
                  ∨ ((∃ r, job.body = .replicate r) ∧ dst = 63 ∧ dir = .out) →
                job.outbox = [] → s.linkStanding = true → s.lif.queue.length < 16 →
                u.lif.queue = s.lif.queue ++
                  [{ frame := { src := s.own, dst := dst, dir := dir, tag := f.tag, take := f.take,
                                payload := .done t.run.total e.check }, owner := some j }])

/-- What a copy's DONE does (R9, R137): with every block accepted, the total and the check value as computed and no write left, the
entry becomes HELD with the check value and the holders of the exclusion list, the ASSIGN and the own address, and the job ends OK
with a parting NOTICE HOLDS to 63, with the exchange's tag and the take number; with writes left the job waits for them, its
inactivity timer stopped; with another total or check value the entry is freed and the job ends CHECK_FAILED, with a parting ABANDON
CHECK_FAILED to the origin (R138). -/
def Obligations.DoneCompletesTheCopy : Prop :=
  ∀ (s : State) (f : Frame) (total j i : Nat) (check : Check) (job : Job) (r : ReceiveJob) (v : Receiver) (e : Entry),
    s.Sound → s.lif.heard = some (.good f) → f.payload = .done total check → s.jobFor f = some (j, job) →
    job.body = .receive r → r.matched = none → job.entry = some i → s.entryAt i = some e → e.take = f.take →
    job.rcv = some v → v.run = some { head := false, first := 0, count := r.storedBlocks } → s.findTake f.take = some (i, e) →
    (v.expected = r.storedBlocks → total = r.storedBlocks → check = v.check → job.reqs = [] → s.issuedBy j = false →
      ∃ u e' w, exec .doneReceived s = .next (settle u) ∧ u.jobAt j = none ∧ u.entryAt i = some e' ∧ e'.state = .held
        ∧ e'.check = check ∧ e'.storedBlocks = r.storedBlocks ∧ e'.take = e.take ∧ e'.jobRefs = e.jobRefs - 1
        ∧ e'.holders = copyHolders s.own r.exclusion r.assigned ∧ u.cat.mark = true ∧ .entry i ∈ u.cat.wt
        ∧ (∀ k, k ≠ i → u.entryAt k = s.entryAt k) ∧ u = raise (.doneJob job.tag .receive .ok job.take 0 0 0) w
        ∧ (s.linkStanding = true → s.lif.queue.length < 16 →
            u.lif.queue.getLast? = some { frame := { src := s.own, dst := 63, dir := .out, tag := f.tag, take := f.take,
                                                     payload := .notice .holds }, owner := none }))
      ∧ (v.expected = r.storedBlocks → total = r.storedBlocks → check = v.check → job.reqs ≠ [] ∨ s.issuedBy j = true →
          ∃ u, exec .doneReceived s = .next (settle u) ∧ u.med = s.med ∧ u.lif.queue = s.lif.queue
            ∧ (∀ k, k ≠ j → u.jobAt k = s.jobAt k)
            ∧ u.jobAt j = some { job with body := .receive { r with matched := some check },
                                          rcv := some { v with inactivity := none } }
            ∧ (∃ e', u.entryAt i = some e' ∧ { e' with holders := e.holders } = e) ∧ ∀ k, k ≠ i → u.entryAt k = s.entryAt k)
      ∧ (v.expected < r.storedBlocks ∨ total ≠ r.storedBlocks ∨ check ≠ v.check →
          ∃ u w, exec .doneReceived s = .next (settle u) ∧ u.jobAt j = none ∧ u.entryAt i = none ∧ u.cat.mark = true
            ∧ (∀ k, k ≠ i → u.entryAt k = s.entryAt k)
            ∧ u = raise (.doneJob job.tag .receive .checkFailed job.take 0 0 0) w
            ∧ (s.linkStanding = true → s.lif.queue.length < 16 →
                u.lif.queue.getLast? = some { frame := { src := s.own, dst := f.src, dir := .back, tag := f.tag, take := f.take,
                                                         payload := .abandon .checkFailed }, owner := none }))

/-- NOTICE (R170, R25): HOLDS adds the source to the holder list of a take held here, DROPPED removes it, and a SATISFIED entry that
falls short is QUEUED with COPIES_SHORT; from an address that is not listed DROPPED changes nothing (the model's reading, log 30). A
NOTICE of the take of a REPLICATE job is also the answer of a member that is AWAITING (R112): HOLDS makes it CONFIRMED, DROPPED
FAILED, and with none FAILED, and with none AWAITING left the job ends OK and the entry is SATISFIED or QUEUED again (R24), with COPIES_SHORT before
JOB_DONE (an order that is the model's reading, log 77). ABANDON (R139): it ends a
RECEIVE job in RECEIVING, freeing its entry, and a SERVE job, with the outcome its reason names, and a PLEDGED job CANCELLED with
its pledge and reservation given back (R120). A REPLICATE job drops the bid or the member, which is LEFT, or FAILED where it is
AWAITING, and goes on without it, to its DONE, or to its end (R108, R110, R111, R112). From the granted holder alone, a PLAY job
that has its head block keeps the outcome for playout to reach (R156), one that has not seeks once more, falls back to its own copy
or ends STALLED (R147), and a REPAIR job ends or finishes its writes (R165, R167); that an outcome recorded before stands, and that
a COPY loaded SATISFIED is QUEUED so too, is the model's choice (logs 60, 68). A bidder that hears another bidder's ABANDON of the
exchange of its own BID record takes the source off the bidders it has counted (R104). -/
def Obligations.NoticesAndAbandons : Prop :=
  ∀ (s : State) (f : Frame), s.Sound → s.lif.heard = some (.good f) →
    let gone := fun (j : Nat) (job : Job) (result : Result) (x y z : Nat) (u : State) =>
      exec .abandonReceived s = .next (settle u) ∧ u.jobAt j = none ∧ (∀ k, k ≠ j → u.jobAt k = s.jobAt k)
        ∧ ∃ v, u = raise (.doneJob job.tag job.kind result job.take x y z) v
    let answered := fun (c : Instr) (status : MemberStatus) (j i : Nat) (job : Job) (t : Sender) (e : Entry) =>
      let members := t.members.map fun m => if m.address = f.src then { m with status := status } else m
      let confirmed := members.filter (fun m => m.status == .confirmed)
      let done : Event := .doneJob job.tag .replicate .ok job.take confirmed.length
        (confirmed.foldl (fun a m => min a m.bidFree) 0xFFFFFFFF) 0
      let attempts := min 255 (e.attempts + 1)
      ((∃ m ∈ t.members, m.address ≠ f.src ∧ m.status = .awaiting) →
        ∃ u, exec c s = .next (settle u) ∧ u.jobAt j = some { job with snd := some { t with members := members } }
          ∧ u.entryAt i = some e ∧ u.cpe = s.cpe)
      ∧ ((∀ m ∈ t.members, m.address ≠ f.src → m.status ≠ .awaiting) →
        ∃ u, exec c s = .next (settle u) ∧ u.jobAt j = none ∧ (∀ k, k ≠ j → u.jobAt k = s.jobAt k)
          ∧ (e.copiesWanted ≤ e.holders.length →
              u.entryAt i = some { e with placement := .satisfied, jobRefs := e.jobRefs - 1 } ∧ u.cat.queue = s.cat.queue
                ∧ u.cpe = (raise done s).cpe)
          ∧ (e.holders.length < e.copiesWanted →
              u.entryAt i = some { e with placement := .queued, attempts := attempts, jobRefs := e.jobRefs - 1 }
                ∧ u.cat.queue = s.cat.queue ++ [(i, s.now + 60000)]
                ∧ u.cpe = (raise done (raise (.copiesShort e.take e.holders.length e.copiesWanted attempts) s)).cpe))
    (∀ i e, (∀ j job, s.findKind .replicate = some (j, job) → job.take ≠ some f.take) → s.findTake f.take = some (i, e) →
      (f.payload = .notice .holds →
        ∃ u, exec .noticeReceived s = .next (settle u) ∧ (∀ k, k ≠ i → u.entryAt k = s.entryAt k) ∧ u.jt = s.jt
          ∧ u.entryAt i = some { e with holders :=
              if f.src ∈ e.holders ∨ 4 ≤ e.holders.length then e.holders else e.holders ++ [f.src] }
          ∧ (f.src ∉ e.holders → e.holders.length < 4 → u.cat.mark = true ∧ .entry i ∈ u.cat.wt))
      ∧ (f.payload = .notice .dropped →
        ∃ u, exec .noticeReceived s = .next (settle u) ∧ (∀ k, k ≠ i → u.entryAt k = s.entryAt k) ∧ u.jt = s.jt
          ∧ (f.src ∉ e.holders ∨ e.placement ≠ .satisfied ∨ e.copiesWanted ≤ (e.holders.filter (· ≠ f.src)).length →
              u.entryAt i = some { e with holders := e.holders.filter (· ≠ f.src) } ∧ u.cat.queue = s.cat.queue)
          ∧ (f.src ∈ e.holders → e.placement = .satisfied → (e.holders.filter (· ≠ f.src)).length < e.copiesWanted →
              u.entryAt i = some { e with holders := e.holders.filter (· ≠ f.src), placement := .queued }
                ∧ u.cat.queue = s.cat.queue ++ [(i, s.now)]
                ∧ u.cpe = (raise (.copiesShort e.take (e.holders.filter (· ≠ f.src)).length e.copiesWanted e.attempts)
                            s).cpe)))
      ∧ (∀ j i job t m e, s.findKind .replicate = some (j, job) → job.take = some f.take → job.entry = some i →
          job.snd = some t → t.member f.src = some m → m.status = .awaiting → s.findTake f.take = some (i, e) →
          (f.payload = .notice .holds → answered .noticeReceived .confirmed j i job t
            { e with holders := if f.src ∈ e.holders ∨ 4 ≤ e.holders.length then e.holders else e.holders ++ [f.src] })
          ∧ (f.payload = .notice .dropped → e.placement ≠ .satisfied →
              answered .noticeReceived .failed j i job t { e with holders := e.holders.filter (· ≠ f.src) }))
      ∧ (∀ reason, f.payload = .abandon reason → f.dir = .back → f.dst ≠ s.own →
          exec .abandonReceived s = .next (settle { s with
            lif.heard := none
            hou.answers := s.hou.answers.map fun x =>
              if x.bids ≠ none ∧ x.opener = f.dst ∧ x.frame.tag = f.tag ∧ x.frame.take = f.take then
                { x with bids := x.bids.map fun b => { b with heard := b.heard.filter (· ≠ f.src) } }
              else x }))
      ∧ (∀ reason j job, f.payload = .abandon reason → s.jobFor f = some (j, job) →
          (∀ r i, job.body = .receive r → r.receiving = true → job.entry = some i → (s.entryAt i).isSome = true →
            ∃ u v, exec .abandonReceived s = .next (settle u) ∧ u.jobAt j = none ∧ u.entryAt i = none
              ∧ u = raise (.doneJob job.tag .receive reason.result job.take 0 0 0) v)
          ∧ (∀ v i e, job.body = .serve v → job.entry = some i → s.entryAt i = some e →
            ∃ u w, exec .abandonReceived s = .next (settle u) ∧ u.jobAt j = none
              ∧ u.entryAt i = some { e with jobRefs := e.jobRefs - 1 }
              ∧ u = raise (.doneJob job.tag .serve reason.result job.take 0 0 0) w)
          ∧ (∀ r, job.body = .receive r → r.receiving = false → job.entry = none →
            ∃ u, gone j job .cancelled 0 0 0 u ∧ u.med.pledged = s.med.pledged - r.pledge
              ∧ u.cat = { s.cat with reserved := s.cat.reserved - 1 })
          ∧ (∀ r, job.body = .replicate r →
            (r.state = .offering → ∃ u, exec .abandonReceived s = .next (settle u) ∧ u.cat = s.cat ∧ u.jobAt j = some
              { job with body := .replicate { r with bids := r.bids.filter (fun b => b.1 ≠ f.src) } })
            ∧ (r.state = .assigning → ∃ u, exec .abandonReceived s = .next (settle u) ∧ u.cat = s.cat ∧ u.jobAt j = some
              { job with
                body := .replicate
                  { r with left := if (∃ b ∈ r.group, b.1 = f.src) ∧ f.src ∉ r.left then r.left ++ [f.src] else r.left } })
            ∧ (∀ i e t m, r.state = .sending ∨ r.state = .closing → job.entry = some i → s.entryAt i = some e →
              job.snd = some t → t.member f.src = some m →
              (m.status = .awaiting → answered .abandonReceived .failed j i job t e)
              ∧ (m.status = .sending →
                let left := t.members.map fun m => if m.address = f.src then { m with status := .left, progress := none } else m
                let owed := ∃ m ∈ left, m.status = .sending ∧ m.expected ≠ t.run.total
                ((∀ m ∈ left, m.status = .left) → ∃ u x y, gone j job .stalled x y 0 u)
                ∧ (t.doneGiven = true → (∃ m ∈ left, m.status ≠ .left) →
                    ∃ u, exec .abandonReceived s = .next (settle u) ∧ u.cat = s.cat
                      ∧ u.jobAt j = some { job with snd := some { t with members := left } })
                ∧ (t.doneGiven = false → owed →
                    ∃ u job' t', exec .abandonReceived s = .next (settle u) ∧ u.cat = s.cat ∧ u.jobAt j = some job'
                      ∧ job'.body = job.body ∧ job'.snd = some t' ∧ t'.members = left ∧ t'.doneGiven = false ∧ t.next ≤ t'.next)
                ∧ (t.doneGiven = false → ¬ owed → (∃ m ∈ left, m.status ≠ .left) → s.linkStanding = true → job.outbox = [] →
                    s.lif.queue.length < 16 →
                    ∃ u, exec .abandonReceived s = .next (settle u) ∧ u.cat = s.cat
                      ∧ u.jobAt j = some { job with snd := some { t with members := left, doneGiven := true },
                                                    body := .replicate { r with state := .closing } }
                      ∧ u.lif.queue = s.lif.queue ++
                        [{ frame := { src := s.own, dst := 63, dir := .out, tag := f.tag, take := f.take,
                                      payload := .done t.run.total e.check }, owner := some j }]))))
          ∧ (∀ p, job.body = .play p →
            (p.holder ≠ some f.src ∨ p.state = .seeking ∨ p.state = .localStore ∨ p.state = .draining →
              ∃ u, exec .abandonReceived s = .next (settle u) ∧ u.jt = s.jt ∧ u.cat = s.cat ∧ u.cpe = s.cpe)
            ∧ (p.holder = some f.src → p.state = .playing → p.shape.isSome = true →
              ∃ u, exec .abandonReceived s = .next (settle u) ∧ u.cat = s.cat ∧ u.port = s.port ∧ u.jobAt j = some
                { job with
                  body := .play { p with state := .draining, pendingResult := some (p.pendingResult.getD reason.result) }
                  rcv := none
                  outbox := job.outbox.filter (fun f => !f.payload.isStep) })
            ∧ (p.holder = some f.src → p.state = .awaitingData ∨ p.state = .playing ∧ p.shape = none →
              (p.reseekUsed = false → s.linkStanding = true → s.lif.queue.length < 16 → job.outbox = [] →
                ∃ u job' p', exec .abandonReceived s = .next (settle u) ∧ u.cat = s.cat ∧ u.jobAt j = some job'
                  ∧ job'.body = .play p' ∧ p'.state = .seeking ∧ p'.reseekUsed = true ∧ p'.exclusion = some f.src
                  ∧ job'.rcv = none ∧ job'.exTag = some s.nextJobTag
                  ∧ u.lif.queue = s.lif.queue ++
                    [{ frame := { src := s.own, dst := 63, dir := .out, tag := s.nextJobTag, take := f.take,
                                  payload := .seek p.start p.frames .play 0 0 [f.src] }, owner := some j }])
              ∧ (p.reseekUsed = true → s.playableEntry f.take = none → ∃ u, gone j job .stalled f.src p.underruns 0 u)
              ∧ (∀ i e, p.reseekUsed = true → s.playableEntry f.take = some (i, e) →
                ∃ u job' p', exec .abandonReceived s = .next (settle u) ∧ u.jobAt j = some job' ∧ job'.body = .play p'
                  ∧ p'.state = .localStore ∧ p'.cursor = p.start ∧ job'.entry = some i ∧ job'.rcv = none
                  ∧ u.entryAt i = some { e with jobRefs := e.jobRefs + 1 })))
          ∧ (∀ r i e, job.body = .repair r → job.entry = some i → s.entryAt i = some e →
            let ends := fun (result : Result) =>
              ∃ u, gone j job result f.src r.cleared e.damaged.length u
                ∧ (result ≠ .ok → u.entryAt i = some { e with jobRefs := e.jobRefs - 1, repairHold := some (s.now + 60000) })
            (r.holder ≠ some f.src → ∃ u, exec .abandonReceived s = .next (settle u) ∧ u.jt = s.jt ∧ u.cat = s.cat ∧ u.cpe = s.cpe)
            ∧ (r.holder = some f.src → r.state = .awaitingData → ends reason.result)
            ∧ (r.holder = some f.src → r.state = .receiving →
              (job.reqs ≠ [] ∨ s.issuedBy j = true →
                ∃ u, exec .abandonReceived s = .next (settle u) ∧ u.cat = s.cat ∧ u.jobAt j = some
                  { job with
                    body := .repair { r with state := .finishing, recorded := some (r.recorded.getD reason.result) }
                    rcv := none
                    outbox := job.outbox.filter (fun f => !f.payload.isStep) })
              ∧ (job.reqs = [] → s.issuedBy j = false → ends (r.recorded.getD reason.result)))))

/-! ## Node ticks and timers -/

/-- What a node tick may do: CAT looks at the front of the placement queue (R23) and starts an attempt once its not-before
time has passed, or finds it satisfied; an automatic repair starts on the lowest-numbered candidate (R169; that a repair
hold passes as a not-before time does is the model's reading, log 36); pending notices move into the transmit queue (R17);
and a job offers again the frames the queue refused (R78). That a placement or a repair starts also while a SOFT_RESET waits
for a capture is the model's reading (log 43), that a COPY or INCOMPLETE entry loaded in QUEUED is placed too its choice (log 68). -/
def Obligations.NodeTicksStartWork : Prop :=
  ∀ s : State, s.Sound →
    (∀ i notBefore rest e, s.complete = true → s.cat.queue = (i, notBefore) :: rest → s.entryAt i = some e →
      (e.copiesWanted ≤ e.holders.length → rest = [] →
        ∃ u, exec .placementStart s = .next (settle u) ∧ u.cat.queue = [] ∧ u.jt = s.jt
          ∧ u.entryAt i = some { e with placement := .satisfied } ∧ .entry i ∈ u.cat.wt)
      ∧ (e.holders.length < e.copiesWanted → s.now ≤ notBefore → exec .placementStart s = .next (settle s))
      ∧ (e.holders.length < e.copiesWanted → notBefore < s.now → (∀ k job, s.jobAt k = some job → job.kind ≠ .replicate) →
          s.jt.jobs.length < 8 → s.headItemAt i = false → s.muted = false →
          ∃ u j job r place, exec .placementStart s = .next (settle u) ∧ u.cat.queue = rest
            ∧ u.entryAt i = some { e with placement := .inProgress, jobRefs := e.jobRefs + 1 }
            ∧ s.jobAt j = none ∧ u.jobAt j = some job ∧ job.body = .replicate r ∧ r.state = .offering
            ∧ r.wanted = e.copiesWanted - e.holders.length ∧ r.exclusion = e.holders ∧ r.bids = []
            ∧ job.tag = s.nextJobTag ∧ job.take = some e.take ∧ job.entry = some i
            ∧ place = { src := s.own, dst := 63, dir := .out, tag := s.nextJobTag, take := e.take,
                        payload := .place e.storedBlocks e.format e.copiesWanted (e.copiesWanted - e.holders.length)
                          e.holders }
            ∧ (s.lif.queue.length < 16 → u.lif.queue = s.lif.queue ++ [{ frame := place, owner := some j }])
            ∧ (16 ≤ s.lif.queue.length → job.outbox = [place])
            ∧ (∀ k, k ≠ j → u.jobAt k = s.jobAt k) ∧ u.med = s.med))
      ∧ ((s.sul.cfg.autoRepair = false ∨ s.linkStanding = false) → exec .automaticRepairStart s = .next s)
      ∧ (∀ i e, s.sul.cfg.autoRepair = true → s.linkStanding = true →
          (∀ k job, s.jobAt k = some job → job.kind ≠ .repair) → s.jt.jobs.length < 8 → s.entryAt i = some e →
          (e.state = .held ∨ e.state = .incomplete) → e.damaged ≠ [] → e.overflow = false →
          (∀ t, e.repairHold = some t → t < s.now) →
          (∀ k e', s.entryAt k = some e' → k < i → e'.damaged = [] ∧ e'.overflow = false) →
          ∃ u j job, exec .automaticRepairStart s = .next (settle u) ∧ s.jobAt j = none ∧ u.jobAt j = some job
            ∧ job.kind = .repair ∧ job.take = some e.take ∧ job.entry = some i ∧ job.tag = s.nextJobTag
            ∧ u.entryAt i = some { e with jobRefs := e.jobRefs + 1 } ∧ u.lif = s.lif ∧ u.med = s.med)
      ∧ (s.linkStanding = true → s.lif.queue.length + s.cat.notices.length ≤ 16 →
          ∃ t, exec .noticeListFlush s = .next t ∧ t.cat.notices = []
            ∧ t.lif.queue = s.lif.queue ++ s.cat.notices.map (fun f => { frame := f, owner := none }) ∧ t.jt = s.jt
            ∧ t.med = s.med ∧ t.cpe = s.cpe)
      ∧ (s.linkStanding = false → exec .noticeListFlush s = .next { s with cat.notices := [] })
      ∧ (∀ j job, s.jobAt j = some job → s.linkStanding = true →
          (s.lif.queue.length + job.outbox.length ≤ 16 →
            ∃ t, exec (.frameReoffer j) s = .next t ∧ t.jobAt j = some { job with outbox := [] }
              ∧ t.lif.queue = s.lif.queue ++ job.outbox.map (fun f => { frame := f, owner := some j })
              ∧ (∀ k, k ≠ j → t.jobAt k = s.jobAt k) ∧ t.cat = s.cat ∧ t.med = s.med)
          ∧ (16 ≤ s.lif.queue.length →
            ∃ t, exec (.frameReoffer j) s = .next t ∧ t.jobAt j = some job ∧ t.lif = s.lif))

/-- The waits of placement: the bid window ends a REPLICATE job OK when the holders suffice, NO_HOLDER with no bid, and otherwise
names the copy group in an ASSIGN to 63 (R109); a PLEDGED job ends STALLED and its pledge is released (R120); a CLOSING job ends OK
(R112). The JOB_DONE comes after the COPIES_SHORT of a placement, the model's reading (log 77). Time has passed to the expiry (the
model's choice, log 2). -/
def Obligations.PlacementTimersExpire : Prop :=
  ∀ (s : State) (j t : Nat) (job : Job), s.Sound →
    (∀ r i e, s.findKind .replicate = some (j, job) → job.body = .replicate r → r.state = .offering → r.timer = some t →
      job.entry = some i → s.entryAt i = some e →
      (e.copiesWanted ≤ e.holders.length →
        ∃ u v x y z, exec .bidWindowClose s = .next (settle u) ∧ u.jobAt j = none ∧ u.clock = max s.clock (t * 8000)
          ∧ u = raise (.doneJob job.tag .replicate .ok job.take x y z) v)
      ∧ (e.holders.length < e.copiesWanted → r.bids = [] →
        ∃ u v x y z, exec .bidWindowClose s = .next (settle u) ∧ u.jobAt j = none ∧ u.clock = max s.clock (t * 8000)
          ∧ u = raise (.doneJob job.tag .replicate .noHolder job.take x y z) v)
      ∧ (e.holders.length < e.copiesWanted → r.bids ≠ [] →
        ∃ u job' r', exec .bidWindowClose s = .next (settle u) ∧ u.jobAt j = some job' ∧ job'.body = .replicate r'
          ∧ r'.state = .assigning ∧ r'.group = r.bids.take (e.copiesWanted - e.holders.length) ∧ r'.bids = r'.group
          ∧ u.clock = max s.clock (t * 8000) ∧ u.cat = s.cat
          ∧ (∀ tag take, job.exTag = some tag → job.take = some take → s.linkStanding = true → s.lif.queue.length < 16 →
              job.outbox = [] →
              u.lif.queue = s.lif.queue ++
                [{ frame := { src := s.own, dst := 63, dir := .out, tag := tag, take := take,
                              payload := .assign ((r.bids.take (e.copiesWanted - e.holders.length)).map (·.1)) },
                   owner := some j }])))
      ∧ (∀ r, s.jobAt j = some job → job.body = .receive r → r.receiving = false → r.timer = some t → job.entry = none →
          ∃ u v, exec (.pledgedTimeout j) s = .next (settle u) ∧ u.jobAt j = none ∧ u.clock = max s.clock (t * 8000)
            ∧ u.med.pledged = s.med.pledged - r.pledge ∧ u.cat.reserved = s.cat.reserved - 1
            ∧ u = raise (.doneJob job.tag .receive .stalled job.take 0 0 0) v)
      ∧ (∀ r, s.findKind .replicate = some (j, job) → job.body = .replicate r → r.state = .closing → r.timer = some t →
          ∃ u v x y z, exec .closeWaitTimeout s = .next (settle u) ∧ u.jobAt j = none ∧ u.clock = max s.clock (t * 8000)
            ∧ u = raise (.doneJob job.tag .replicate .ok job.take x y z) v)

/-- The timers of a transfer: a member silent for 50 ms sends the window back to its E, at most four times (R128); after that a
SERVE job ends STALLED with an ABANDON to the requester, and a REPLICATE job sets the member LEFT and gives it an ABANDON, going on
while another member is SENDING and ending STALLED when none is left (R111, R129; the ABANDON to the last member is offered before
the job's frames leave the queue, which is the model's reading, log 41); the STEP timer gives a STEP naming E and restarts (R134). A
RECEIVE job that has heard nothing for 500 ms ends STALLED with an ABANDON to the origin and its entry freed; a PLAY job past its
head block keeps STALLED for playout to reach, and a REPAIR job finishes its writes with it (R135, R156, R167; how those two give
their ABANDON is the model's reading, log 32). The JOB_DONE comes after the COPIES_SHORT of a placement, the model's reading (log 77).
That an outcome recorded before stands, and that time has passed to the expiry, is the model's choice (logs 60, 2). -/
def Obligations.TransferTimersExpire : Prop :=
  ∀ (s : State) (j t : Nat) (job : Job), s.Sound → s.jobAt j = some job →
    (∀ x m, job.snd = some x → x.member m.address = some m → m.status = .sending → m.progress = some t →
      (m.goBacks < 4 →
        ∃ u job' x' m', exec (.progressTimeout j m.address) s = .next (settle u) ∧ u.jobAt j = some job'
          ∧ job'.snd = some x' ∧ x'.member m.address = some m' ∧ m'.goBacks = m.goBacks + 1 ∧ m'.expected = m.expected
          ∧ m'.progress = some (u.now + 50) ∧ m'.status = .sending ∧ min x.next m.expected ≤ x'.next ∧ x'.run = x.run
          ∧ (job'.outbox.all (fun f => !f.payload.isData)) = true
          ∧ job'.reqs = (List.range' (min x.next m.expected) (x'.next - min x.next m.expected)).map
              (fun p => .read (x.run.seqAt p))
          ∧ u.clock = max s.clock (t * 8000) ∧ u.cat = s.cat)
      ∧ (∀ v, 4 ≤ m.goBacks → job.body = .serve v → x.members = [m] →
        ∃ u w, exec (.progressTimeout j m.address) s = .next (settle u) ∧ u.jobAt j = none
          ∧ u.clock = max s.clock (t * 8000) ∧ u = raise (.doneJob job.tag .serve .stalled job.take 0 0 0) w
          ∧ (s.linkStanding = true → s.lif.queue.length < 16 →
              u.lif.queue.getLast? = some { frame := s.jobFrame job m.address .back (.abandon .stalled), owner := none }))
      ∧ (∀ r n, 4 ≤ m.goBacks → job.body = .replicate r → n ∈ x.members → n.address ≠ m.address → n.status = .sending →
          n.expected ≠ x.run.total → x.doneGiven = false →
        ∃ u job' x' m', exec (.progressTimeout j m.address) s = .next (settle u) ∧ u.jobAt j = some job'
          ∧ job'.body = job.body ∧ job'.snd = some x' ∧ x'.member m.address = some m' ∧ m'.status = .left ∧ m'.progress = none
          ∧ (∀ a, a ≠ m.address → x'.member a = x.member a) ∧ x.next ≤ x'.next ∧ u.clock = max s.clock (t * 8000)
          ∧ (s.linkStanding = true → s.lif.queue.length < 16 → job.outbox = [] →
              u.lif.queue = s.lif.queue ++
                [{ frame := s.jobFrame job m.address .out (.abandon .stalled), owner := some j }]))
      ∧ (∀ r, 4 ≤ m.goBacks → job.body = .replicate r → (∀ n ∈ x.members, n.address ≠ m.address → n.status = .left) →
        ∃ u v a b c, exec (.progressTimeout j m.address) s = .next (settle u) ∧ u.jobAt j = none
          ∧ (∀ k, k ≠ j → u.jobAt k = s.jobAt k) ∧ u.clock = max s.clock (t * 8000)
          ∧ u = raise (.doneJob job.tag .replicate .stalled job.take a b c) v
          ∧ (∀ tag take, job.exTag = some tag → job.take = some take → s.linkStanding = true → s.lif.queue.length < 16 →
              job.outbox = [] →
              u.lif.queue.getLast? = some { frame := { src := s.own, dst := m.address, dir := .out, tag := tag, take := take,
                                                       payload := .abandon .stalled }, owner := none })))
      ∧ (∀ v, job.rcv = some v → v.owed = true → v.stepTimer = some t →
          ∃ u job' v' f, exec (.stepTimerExpiry j) s = .next (settle u) ∧ u.jobAt j = some job' ∧ job'.rcv = some v'
            ∧ v'.expected = v.expected ∧ v'.accepted = 0 ∧ v'.stepTimer = some (u.now + 20) ∧ job'.body = job.body
            ∧ f.src = s.own ∧ f.payload = .step (v.knownRun.seqAt v.expected) (min 8 (s.room j job))
            ∧ (s.linkStanding = true → s.lif.queue.length < 16 → job.outbox = [] →
                u.lif.queue = s.lif.queue ++ [{ frame := f, owner := some j }])
            ∧ u.clock = max s.clock (t * 8000) ∧ u.cat = s.cat ∧ u.med = s.med)
      ∧ (∀ r v i, job.body = .receive r → job.rcv = some v → v.inactivity = some t → job.entry = some i →
          (s.entryAt i).isSome = true →
          ∃ u w, exec (.inactivityTimeout j) s = .next (settle u) ∧ u.jobAt j = none ∧ u.entryAt i = none
            ∧ u.clock = max s.clock (t * 8000) ∧ u = raise (.doneJob job.tag .receive .stalled job.take 0 0 0) w
            ∧ (s.linkStanding = true → s.lif.queue.length < 16 →
                u.lif.queue.getLast? = some { frame := s.jobFrame job job.opener .back (.abandon .stalled), owner := none }))
      ∧ (∀ p v h, job.body = .play p → job.rcv = some v → v.inactivity = some t → p.holder = some h → p.shape ≠ none →
          ∃ u job', exec (.inactivityTimeout j) s = .next (settle u) ∧ u.jobAt j = some job' ∧ job'.rcv = none
            ∧ job'.body = .play { p with state := .draining, pendingResult := some (p.pendingResult.getD .stalled) }
            ∧ u.clock = max s.clock (t * 8000)
            ∧ (s.linkStanding = true → s.lif.queue.length < 16 →
                u.lif.queue = s.lif.queue ++ [{ frame := s.jobFrame job h .out (.abandon .stalled), owner := none }]))
      ∧ (∀ r v h, job.body = .repair r → job.rcv = some v → v.inactivity = some t → r.holder = some h →
          0 < s.outstanding j job →
          ∃ u job', exec (.inactivityTimeout j) s = .next (settle u) ∧ u.jobAt j = some job' ∧ job'.rcv = none
            ∧ job'.body = .repair { r with state := .finishing, recorded := some (r.recorded.getD .stalled) }
            ∧ job'.reqs = job.reqs ∧ u.clock = max s.clock (t * 8000)
            ∧ (s.linkStanding = true → s.lif.queue.length < 16 →
                u.lif.queue = s.lif.queue ++ [{ frame := s.jobFrame job h .out (.abandon .stalled), owner := none }]))

/-- The waits of a retrieval: an answer window with no HAVE falls back to the local entry, or ends the job NO_HOLDER (R145); a
grant wait that passes, or an inactivity timer that passes before the head block is accepted, gives the holder an ABANDON STALLED
with the exchange's tag and sends a PLAY job to its one re-seek: a new SEEK with a new tag and the holder excluded; with the
re-seek used the job falls back to the local entry or ends STALLED (R135, R147; the ABANDON is offered before the job acts on the
failure, as the inactivity timer's goes out without an owner, which is the model's, logs 32 and 64). A grant wait ends a REPAIR job
STALLED, with its ABANDON (R165). Time has passed to the expiry (the model's choice, log 2). -/
def Obligations.SeekTimersExpire : Prop :=
  ∀ (s : State) (j t : Nat) (job : Job), s.Sound → s.jobAt j = some job →
    (∀ p take, job.body = .play p → p.state = .seeking → p.answerWindow = some t → job.take = some take →
      (s.playableEntry take = none →
        ∃ u v x y z, exec (.answerWindowExpiry j) s = .next (settle u) ∧ u.jobAt j = none
          ∧ u.clock = max s.clock (t * 8000) ∧ u = raise (.doneJob job.tag .play .noHolder (some take) x y z) v)
      ∧ (∀ i e, s.playableEntry take = some (i, e) →
        ∃ u job' p', exec (.answerWindowExpiry j) s = .next (settle u) ∧ u.jobAt j = some job' ∧ job'.entry = some i
          ∧ job'.body = .play p' ∧ p'.state = .localStore ∧ u.entryAt i = some { e with jobRefs := e.jobRefs + 1 }
          ∧ u.clock = max s.clock (t * 8000)))
      ∧ (∀ r, job.body = .repair r → r.state = .seeking → r.answerWindow = some t →
          ∃ u v x y z, exec (.answerWindowExpiry j) s = .next (settle u) ∧ u.jobAt j = none
            ∧ u.clock = max s.clock (t * 8000) ∧ u = raise (.doneJob job.tag .repair .noHolder job.take x y z) v)
      ∧ (∀ p h old take (c : Instr) (owner : Option Nat), job.body = .play p → p.holder = some h → job.exTag = some old →
          job.take = some take → s.linkStanding = true →
          (c = .grantWaitExpiry j ∧ p.state = .awaitingData ∧ p.grantWait = some t ∧ owner = some j)
            ∨ (c = .inactivityTimeout j ∧ p.shape = none ∧ (∃ v, job.rcv = some v ∧ v.inactivity = some t) ∧ owner = none) →
          let told : Frame := { src := s.own, dst := h, dir := .out, tag := old, take := take, payload := .abandon .stalled }
          (p.reseekUsed = false →
            ∃ u job' p' tag, exec c s = .next (settle u) ∧ u.jobAt j = some job' ∧ job'.body = .play p'
              ∧ p'.state = .seeking ∧ p'.reseekUsed = true ∧ p'.exclusion = some h ∧ p'.grantWait = none ∧ job'.rcv = none
              ∧ job'.exTag = some tag ∧ tag = s.nextJobTag ∧ (∀ k, k ≠ j → u.jobAt k = s.jobAt k)
              ∧ u.clock = max s.clock (t * 8000)
              ∧ (s.lif.queue.length < 15 → job.outbox = [] →
                  u.lif.queue = s.lif.queue ++
                    [{ frame := told, owner := owner },
                     { frame := { src := s.own, dst := 63, dir := .out, tag := tag, take := take,
                                  payload := .seek p.start p.frames .play 0 0 [h] }, owner := some j }]))
          ∧ (p.reseekUsed = true → s.playableEntry take = none →
            ∃ u v x y z, exec c s = .next (settle u) ∧ u.jobAt j = none ∧ (∀ k, k ≠ j → u.jobAt k = s.jobAt k)
              ∧ u.clock = max s.clock (t * 8000) ∧ u = raise (.doneJob job.tag .play .stalled (some take) x y z) v
              ∧ (s.lif.queue.length < 16 → job.outbox = [] → u.lif.queue.getLast? = some { frame := told, owner := none }))
          ∧ (∀ i e, p.reseekUsed = true → s.playableEntry take = some (i, e) →
            ∃ u job' p', exec c s = .next (settle u) ∧ u.jobAt j = some job' ∧ job'.entry = some i ∧ job'.rcv = none
              ∧ job'.body = .play p' ∧ p'.state = .localStore ∧ u.entryAt i = some { e with jobRefs := e.jobRefs + 1 }
              ∧ u.clock = max s.clock (t * 8000)
              ∧ (s.lif.queue.length < 16 → job.outbox = [] →
                  u.lif.queue = s.lif.queue ++ [{ frame := told, owner := owner }])))
      ∧ (∀ r, job.body = .repair r → r.state = .awaitingData → r.grantWait = some t →
          ∃ u v x y z, exec (.grantWaitExpiry j) s = .next (settle u) ∧ u.jobAt j = none
            ∧ u.clock = max s.clock (t * 8000) ∧ u = raise (.doneJob job.tag .repair .stalled job.take x y z) v
            ∧ (∀ h tag take, r.holder = some h → job.exTag = some tag → job.take = some take → s.linkStanding = true →
                s.lif.queue.length < 16 →
                u.lif.queue.getLast? = some { frame := { src := s.own, dst := h, dir := .out, tag := tag, take := take,
                                                         payload := .abandon .stalled }, owner := none }))

/-- Answers, notes and ACT: a reload event loads the running timer afresh for the present state and clears the doze-due flag,
changing nothing else (R172, R173); an expired HAVE leaves HOU unsent (R105) and a lapsed note its list (R148); the activity timer
takes ACTIVE to DOZE, or sets the doze-due flag while media work is pending, and DOZE to SLEEP (R174); the wake timer takes ACT
to ACTIVE (R176). Time has passed to the expiry (the model's choice, log 2). What `settle` makes of ACT, after any command: media
work that waits in DOZE or SLEEP wakes it, 20 or 150 ms ahead (R45, R175); otherwise, once the arbiter has nothing to issue, the
timer is stopped, and the doze-due flag cleared, where one of the three conditions fails, and loaded where all hold and it stands
stopped (R172), and with doze-due set ACTIVE goes to DOZE when no media work is pending (R46, R174). -/
def Obligations.AnswersNotesAndActivity : Prop :=
  ∀ (s : State) (t : Nat),
    (s.act.timer = .stopped → reload s = s)
      ∧ (∀ x, s.act.timer = .running x →
          reload s = { s with act.dozeDue := false, act.timer := (reload s).act.timer }
            ∧ (s.act.state = .active → (reload s).act.timer =
                .running (if s.sul.cfg.dozeDelay = 0 then none else some (s.now + s.sul.cfg.dozeDelay)))
            ∧ (s.act.state = .doze → (reload s).act.timer =
                .running (if s.sul.cfg.sleepDelay = 0 then none else some (s.now + s.sul.cfg.sleepDelay)))
            ∧ (s.act.state = .sleep ∨ s.act.state = .waking → (reload s).act.timer = .stopped))
      ∧ (∀ o r, s.answerRecord o = some r → r.expiry = some t → s.sendingAnswer ≠ some o →
      ∃ v, exec (.haveExpiry o) s = .next v ∧ v.answerRecord o = none ∧ v.clock = max s.clock (t * 8000)
        ∧ v.hou.answers.map (·.order) = (s.hou.answers.map (·.order)).filter (· ≠ o) ∧ v.jt = s.jt ∧ v.cat = s.cat
        ∧ v.notes = s.notes ∧ v.lif.queue = s.lif.queue)
      ∧ (∀ k n, s.notes[k]? = some n → n.lapse = t →
          ∃ v, exec (.answerNoteLapse k) s = .next v ∧ v.notes = s.notes.eraseIdx k ∧ v.clock = max s.clock (t * 8000)
            ∧ v.jt = s.jt ∧ v.cat = s.cat ∧ v.med = s.med)
      ∧ (s.act.timer = .running (some t) → s.act.state = .active → s.mediaWork = false →
          ∃ v, exec .activityTimerExpiry s = .next v ∧ v.act.state = .doze ∧ v.clock = max s.clock (t * 8000)
            ∧ v.act.timer = .running (if s.sul.cfg.sleepDelay = 0 then none else some (v.now + s.sul.cfg.sleepDelay))
            ∧ v.portState = .lowPower ∧ v.jt = s.jt ∧ v.cat = s.cat ∧ v.med = s.med)
      ∧ (s.act.timer = .running (some t) → s.act.state = .active → s.mediaWork = true →
          ∃ v, exec .activityTimerExpiry s = .next v ∧ v.act.state = .active ∧ v.act.dozeDue = true
            ∧ v.act.timer = .running none ∧ v.jt = s.jt ∧ v.cat = s.cat ∧ v.med = s.med)
      ∧ (s.act.timer = .running (some t) → s.act.state = .doze →
          ∃ v, exec .activityTimerExpiry s = .next v ∧ v.act.state = .sleep ∧ v.act.timer = .stopped
            ∧ v.portState = .off ∧ v.jt = s.jt ∧ v.cat = s.cat ∧ v.med = s.med)
      ∧ (s.act.wakeAt = some t →
          ∃ u, exec .wakeTimerExpiry s = .next (settle u) ∧ u.act = { s.act with state := .active, wakeAt := none }
            ∧ u.clock = max s.clock (t * 8000) ∧ u.jt = s.jt ∧ u.cat = s.cat ∧ u.med = s.med)
      ∧ (let after := fun (delay : Nat) => ActTimer.running (if delay = 0 then none else some (s.now + delay))
        let idle := s.complete = true ∧ s.jt.jobs = [] ∧ s.port.owner = none
        (s.mediaWork = true ↔ s.med.issued ≠ none ∨ s.med.mapRetry ≠ none ∨ s.med.mapList ≠ [] ∨ s.cat.wtRetry ≠ none
            ∨ s.cat.wt ≠ [] ∨ ∃ p ∈ s.jt.jobs, (∃ c, p.2.body = .capture c ∧ c.waiting ≠ none)
              ∨ p.2.kind ≠ .capture ∧ p.2.reqs ≠ [])
        ∧ (s.act.state = .doze ∨ s.act.state = .sleep → s.mediaWork = true →
            settle s = { s with act := { state := .waking, timer := .stopped, dozeDue := false,
                                         wakeAt := some (s.now + if s.act.state = .doze then 20 else 150) } })
        ∧ (∀ r op, s.portState = .idle → s.chosen = some r → (issue r s).med.issued = some op → settle s = settle (issue r s))
        ∧ (s.act.state = .active ∨ s.act.state = .waking ∨ s.mediaWork = false → s.portState ≠ .idle ∨ s.chosen = none →
            (¬ idle → settle s = { s with act := { s.act with timer := .stopped, dozeDue := false } })
            ∧ (idle → s.act.timer = .stopped → s.act.dozeDue = false →
                settle s = { s with act.timer := match s.act.state with
                                                 | .active => after s.sul.cfg.dozeDelay
                                                 | .doze => after s.sul.cfg.sleepDelay
                                                 | .sleep | .waking => .stopped })
            ∧ (∀ x, idle → s.act.timer = .running x → s.act.dozeDue = false ∨ s.mediaWork = true → settle s = s)
            ∧ (∀ x, idle → s.act.timer = .running x → s.act.dozeDue = true → s.act.state = .active → s.mediaWork = false →
                settle s = { s with act := { s.act with state := .doze, dozeDue := false,
                                                        timer := after s.sul.cfg.sleepDelay } })))

/-! ## Rules of computation -/

/-- The bid curve (R92): for a fill fraction 0..256 the segment is min(f div 32, 7), the value the weighted floor, which lies
between the segment's knots and so within 0..255; the default knots are R92's. -/
def Obligations.BidCurveFollowsTheKnots : Prop :=
  (∀ (knots : List Nat) (f : Nat), knots.length = 9 → (∀ k ∈ knots, k ≤ 255) → f ≤ 256 →
    ∃ i r a b, i = min (f / 32) 7 ∧ r = f - 32 * i ∧ r ≤ 32 ∧ knots[i]? = some a ∧ knots[i + 1]? = some b
      ∧ bidCurve knots f = (a * (32 - r) + b * r) / 32
      ∧ min a b ≤ bidCurve knots f ∧ bidCurve knots f ≤ max a b ∧ bidCurve knots f ≤ 255
      ∧ (f = 256 → knots[8]? = some (bidCurve knots f)))
    ∧ defaultSettings.knots = [0, 4, 8, 16, 32, 64, 128, 192, 255]

/-- The holder list's operations (R14): on a list of at most 4 distinct addresses each keeps it so; adding appends an address
not listed while there is room; removing closes up; adding the own address drops the last-learned of 4 others first. A change
sets the inventory mark and queues the entry for write-through. -/
def Obligations.HolderListOperations : Prop :=
  (∀ (l : List Nat) (a : Nat), l.Nodup → l.length ≤ 4 →
    (addAddress a l).Nodup ∧ (addAddress a l).length ≤ 4
      ∧ (a ∈ l ∨ l.length = 4 → addAddress a l = l) ∧ (a ∉ l → l.length < 4 → addAddress a l = l ++ [a])
      ∧ (removeAddress a l).Nodup ∧ (removeAddress a l).length ≤ 4 ∧ a ∉ removeAddress a l
      ∧ (∀ b, b ≠ a → (b ∈ removeAddress a l ↔ b ∈ l)) ∧ (removeAddress a l).Sublist l ∧ (a ∉ l → removeAddress a l = l)
      ∧ (addOwnAddress a l).Nodup ∧ (addOwnAddress a l).length ≤ 4 ∧ a ∈ addOwnAddress a l
      ∧ (a ∈ l → addOwnAddress a l = l) ∧ (a ∉ l → l.length < 4 → addOwnAddress a l = l ++ [a])
      ∧ (a ∉ l → l.length = 4 → addOwnAddress a l = l.take 3 ++ [a]))
    ∧ ∀ (s : State) (i : Nat) (e : Entry) (f : List Nat → List Nat), s.entryAt i = some e →
        (changeHolders i f s).entryAt i = some { e with holders := f e.holders }
          ∧ (f e.holders ≠ e.holders → (changeHolders i f s).cat.mark = true ∧ .entry i ∈ (changeHolders i f s).cat.wt)
          ∧ (f e.holders = e.holders → changeHolders i f s = s)

/-- A frame as R192 lays it out is heard as it was sent: for every frame whose fields lie in their ranges, the bytes on the
medium are classed a good frame with every field as it was. -/
def Obligations.FramesAreHeardAsSent : Prop :=
  ∀ f : Frame, f.inRange → classify f.bytes = .good f
end

