-- ==== Sys2Proof/Laws/Sparse.lean ====
section
/-! SUPPORT. Laws of the sparse tables: what is read after a write or a removal, and that every operation keeps the
canonical form. -/

namespace Sys2Proof.Machine

variable {α β : Type}

/-- Reading after a write: the item written, and every other as before. -/
@[simp] theorem smapGet_smapSet (m : SMap α) (n k : Nat) (a : α) :
    smapGet (smapSet m n a) k = if k = n then some a else smapGet m k := by
  induction m with
  | nil => simp [smapSet, smapGet]
  | cons p t ih =>
    obtain ⟨q, b⟩ := p
    simp only [smapSet]
    split
    · simp [smapGet]
    · split
      · subst_vars; by_cases h : k = q <;> simp [smapGet, h]
      · simp only [smapGet, ih]
        by_cases h : k = q
        · subst h; have : ¬ k = n := by omega
          simp [this]
        · simp [h]

/-- The later of two writes to one item stands. -/
@[simp] theorem smapSet_smapSet (m : SMap α) (n : Nat) (a b : α) : smapSet (smapSet m n a) n b = smapSet m n b := by
  induction m with
  | nil => simp [smapSet]
  | cons p t ih =>
    obtain ⟨q, c⟩ := p
    simp only [smapSet]
    split
    · simp [smapSet]
    · split
      · simp [smapSet]
      · simp [smapSet, *]

theorem smapGet_smapSet_self (m : SMap α) (n : Nat) (a : α) : smapGet (smapSet m n a) n = some a := by simp

theorem smapGet_smapSet_ne (m : SMap α) {n k : Nat} (a : α) (h : k ≠ n) : smapGet (smapSet m n a) k = smapGet m k := by
  simp [h]

/-- A removal leaves every other item. -/
theorem smapGet_smapDel_ne (m : SMap α) {n k : Nat} (h : k ≠ n) : smapGet (smapDel m n) k = smapGet m k := by
  induction m with
  | nil => rfl
  | cons p t ih =>
    obtain ⟨q, b⟩ := p
    simp only [smapDel]
    split
    · subst_vars; simp [smapGet, h]
    · simp only [smapGet, ih]

/-- The canonical form says that the numbers are strictly rising. -/
theorem smapRising_iff (m : SMap α) : smapRising m = true ↔ m.Pairwise (fun p q => p.1 < q.1) := by
  induction m with
  | nil => simp [smapRising]
  | cons p t ih =>
    cases t with
    | nil => simp [smapRising]
    | cons q u =>
      simp only [smapRising, Bool.and_eq_true, decide_eq_true_eq, ih]
      constructor
      · rintro ⟨h, hp⟩
        refine List.pairwise_cons.2 ⟨?_, hp⟩
        intro r hr
        rcases List.mem_cons.1 hr with rfl | hr
        · exact h
        · exact Nat.lt_trans h (List.rel_of_pairwise_cons hp hr)
      · intro h
        exact ⟨List.rel_of_pairwise_cons h List.mem_cons_self, (List.pairwise_cons.1 h).2⟩

theorem smapRising_tail {p : Nat × α} {t : SMap α} (h : smapRising (p :: t) = true) : smapRising t = true := by
  rw [smapRising_iff] at h ⊢; exact (List.pairwise_cons.1 h).2

/-- An item set is the only new member. -/
theorem mem_smapSet {m : SMap α} {n : Nat} {a : α} {p : Nat × α} (h : p ∈ smapSet m n a) : p = (n, a) ∨ p ∈ m := by
  induction m with
  | nil => simpa [smapSet] using h
  | cons q t ih =>
    obtain ⟨k, b⟩ := q
    simp only [smapSet] at h
    split at h
    · rcases List.mem_cons.1 h with h | h <;> simp [h]
    · split at h
      · rcases List.mem_cons.1 h with h | h
        · exact .inl h
        · exact .inr (List.mem_cons_of_mem _ h)
      · rcases List.mem_cons.1 h with h | h
        · exact .inr (h ▸ List.mem_cons_self)
        · rcases ih h with h | h
          · exact .inl h
          · exact .inr (List.mem_cons_of_mem _ h)

theorem mem_of_mem_smapDel {m : SMap α} {n : Nat} {p : Nat × α} (h : p ∈ smapDel m n) : p ∈ m := by
  induction m with
  | nil => simp [smapDel] at h
  | cons q t ih =>
    obtain ⟨k, b⟩ := q
    simp only [smapDel] at h
    split at h
    · exact List.mem_cons_of_mem _ h
    · rcases List.mem_cons.1 h with h | h
      · exact h ▸ List.mem_cons_self
      · exact List.mem_cons_of_mem _ (ih h)

/-- Writing keeps the canonical form. -/
theorem smapRising_smapSet {m : SMap α} (n : Nat) (a : α) (h : smapRising m = true) :
    smapRising (smapSet m n a) = true := by
  rw [smapRising_iff] at h ⊢
  induction m with
  | nil => simp [smapSet]
  | cons q t ih =>
    obtain ⟨k, b⟩ := q
    obtain ⟨h1, h2⟩ := List.pairwise_cons.1 h
    simp only [smapSet]
    split
    · rename_i hlt
      refine List.pairwise_cons.2 ⟨?_, h⟩
      intro r hr
      rcases List.mem_cons.1 hr with rfl | hr
      · exact hlt
      · exact Nat.lt_trans hlt (h1 r hr)
    · split
      · rename_i heq; subst heq
        exact List.pairwise_cons.2 ⟨h1, h2⟩
      · refine List.pairwise_cons.2 ⟨?_, ih h2⟩
        intro r hr
        rcases mem_smapSet hr with rfl | hr
        · simp; omega
        · exact h1 r hr

/-- Removing keeps the canonical form. -/
theorem smapRising_smapDel {m : SMap α} (n : Nat) (h : smapRising m = true) : smapRising (smapDel m n) = true := by
  rw [smapRising_iff] at h ⊢
  induction m with
  | nil => simp [smapDel]
  | cons q t ih =>
    obtain ⟨k, b⟩ := q
    obtain ⟨h1, h2⟩ := List.pairwise_cons.1 h
    simp only [smapDel]
    split
    · exact h2
    · exact List.pairwise_cons.2 ⟨fun r hr => h1 r (mem_of_mem_smapDel hr), ih h2⟩

/-- A removed item is gone from a table in canonical form. -/
theorem smapGet_smapDel_self {m : SMap α} (n : Nat) (h : smapRising m = true) : smapGet (smapDel m n) n = none := by
  rw [smapRising_iff] at h
  induction m with
  | nil => rfl
  | cons q t ih =>
    obtain ⟨k, b⟩ := q
    obtain ⟨h1, h2⟩ := List.pairwise_cons.1 h
    simp only [smapDel]
    split
    · rename_i heq; subst heq
      clear ih h h2
      induction t with
      | nil => rfl
      | cons r u ih =>
        obtain ⟨k, c⟩ := r
        have := h1 (k, c) List.mem_cons_self
        simp only at this
        simp only [smapGet]
        rw [if_neg (by omega)]
        exact ih fun r hr => h1 r (List.mem_cons_of_mem _ hr)
    · rename_i hne
      simp only [smapGet, hne, if_false]
      exact ih h2

/-- A table keeps the canonical form when its items change and its numbers stay. -/
theorem smapRising_map (f : Nat × α → Nat × β) (hf : ∀ p, (f p).1 = p.1) {m : SMap α} (h : smapRising m = true) :
    smapRising (m.map f) = true := by
  rw [smapRising_iff] at h ⊢
  rw [List.pairwise_map]
  exact h.imp (fun {a b} hab => by rw [hf, hf]; exact hab)

theorem smapRising_sublist {m n : SMap α} (hs : n.Sublist m) (h : smapRising m = true) : smapRising n = true := by
  rw [smapRising_iff] at h ⊢; exact h.sublist hs

theorem smapGet_some_mem {m : SMap α} {n : Nat} {a : α} (h : smapGet m n = some a) : (n, a) ∈ m := by
  induction m with
  | nil => simp [smapGet] at h
  | cons q t ih =>
    obtain ⟨k, b⟩ := q
    simp only [smapGet] at h
    split at h
    · subst_vars; cases h; exact List.mem_cons_self
    · exact List.mem_cons_of_mem _ (ih h)

/-- The lowest free number lies at most as many above the start as the table has items. -/
theorem smapLeastFree_le (m : SMap α) (n : Nat) : smapLeastFree m n ≤ n + m.length := by
  induction m generalizing n with
  | nil => simp [smapLeastFree]
  | cons q t ih =>
    obtain ⟨k, b⟩ := q
    simp only [smapLeastFree, List.length_cons]
    split
    · have := ih n; omega
    · split
      · have := ih (n + 1); omega
      · omega

theorem smapLeastFree_ge (m : SMap α) (n : Nat) : n ≤ smapLeastFree m n := by
  induction m generalizing n with
  | nil => simp [smapLeastFree]
  | cons q t ih =>
    obtain ⟨k, b⟩ := q
    simp only [smapLeastFree]
    split
    · exact ih n
    · split
      · have := ih (n + 1); omega
      · omega

/-- The lowest free number is free in a table in canonical form. -/
theorem smapGet_smapLeastFree {m : SMap α} (n : Nat) (h : smapRising m = true) : smapGet m (smapLeastFree m n) = none := by
  rw [smapRising_iff] at h
  induction m generalizing n with
  | nil => rfl
  | cons q t ih =>
    obtain ⟨k, b⟩ := q
    obtain ⟨h1, h2⟩ := List.pairwise_cons.1 h
    have hnone : ∀ x, x < k → smapGet t x = none := by
      intro x hx
      cases hc : smapGet t x with
      | none => rfl
      | some c => have := h1 _ (smapGet_some_mem hc); simp at this; omega
    simp only [smapLeastFree]
    split
    · rename_i hlt
      have := smapLeastFree_ge t n
      simp only [smapGet]
      rw [if_neg (by omega)]
      exact ih n h2
    · split
      · have := smapLeastFree_ge t (n + 1)
        simp only [smapGet]
        rw [if_neg (by omega)]
        exact ih (n + 1) h2
      · simp only [smapGet]
        rw [if_neg (by omega)]
        exact hnone n (by omega)

end Sys2Proof.Machine
end

