-- ==== Sys2Proof/Laws/Keeps.lean ====
section
/-! SUPPORT. `Keeps a b`: what every operation inside a command leaves alone or keeps sound; one lemma per shared
operation, each in the form "what keeps up to here is kept after the operation too". -/

namespace Sys2Proof.Machine

/-- What no operation inside a command touches: the queue of commands, time, the free values, the settings, the size and
contents of the store, what LIF has counted and heard, and what the sample port drives. -/
def SameCore (a b : State) : Prop :=
  b.pending = a.pending ∧ b.clock = a.clock ∧ b.freeIx = a.freeIx ∧ b.sul.cfg = a.sul.cfg ∧ b.med.capacity = a.med.capacity
    ∧ b.med.total = a.med.total ∧ b.med.store = a.med.store ∧ b.lif.carrier = a.lif.carrier ∧ b.lif.heard = a.lif.heard
    ∧ b.lif.lastSource = a.lif.lastSource ∧ b.lif.lfsr = a.lif.lfsr ∧ b.lif.errors = a.lif.errors
    ∧ b.lif.collisions = a.lif.collisions ∧ b.lif.mute = a.lif.mute
    ∧ b.port.lineHigh = a.port.lineHigh ∧ b.port.lineLow = a.port.lineLow

/-- What an operation may set and not clear, and the sequence counter, which stands once start-up has completed. -/
def Upward (a b : State) : Prop :=
  (a.sul.phase = .complete → b.sul.phase = .complete ∧ b.cat.counter = a.cat.counter)
    ∧ (a.cat.mark = true → b.cat.mark = true) ∧ (a.cat.fault = true → b.cat.fault = true)

/-- `b` follows from `a` by operations inside a command. -/
def Keeps (a b : State) : Prop := SameCore a b ∧ Upward a b ∧ (a.Sound → b.Sound)

theorem Keeps.refl (a : State) : Keeps a a := by
  refine ⟨?_, ?_, id⟩
  · simp [SameCore]
  · simp [Upward]

theorem Keeps.trans {a b c : State} (h : Keeps a b) (g : Keeps b c) : Keeps a c := by
  obtain ⟨hc, hu, hs⟩ := h
  obtain ⟨gc, gu, gs⟩ := g
  refine ⟨?_, ?_, gs ∘ hs⟩
  · simp_all [SameCore]
  · obtain ⟨h1, h2, h3⟩ := hu
    obtain ⟨g1, g2, g3⟩ := gu
    exact ⟨fun hp => ⟨(g1 (h1 hp).1).1, (g1 (h1 hp).1).2.trans (h1 hp).2⟩, g2 ∘ h2, g3 ∘ h3⟩

/-- A change inside the sound part: only what `Sound` speaks of. -/
theorem Keeps.of_sound {a b : State} (hc : SameCore a b) (hu : Upward a b) (hs : a.Sound → b.Sound) : Keeps a b :=
  ⟨hc, hu, hs⟩

variable {s₀ s : State}

/-! ## Tables -/

theorem Keeps.entries (h : Keeps s₀ s) (m : SMap Entry) (hm : smapRising s.cat.entries = true → smapRising m = true) :
    Keeps s₀ { s with cat.entries := m } :=
  h.trans ⟨by simp [SameCore], by simp [Upward], fun ⟨hj, ht, hr⟩ => ⟨hj, ⟨hm ht.1, ht.2⟩, hr⟩⟩

theorem Keeps.chunks (h : Keeps s₀ s) (m : SMap Chunk) (hm : smapRising s.med.chunks = true → smapRising m = true) :
    Keeps s₀ { s with med.chunks := m } :=
  h.trans ⟨by simp [SameCore], by simp [Upward], fun ⟨hj, ht, hr⟩ => ⟨hj, ⟨ht.1, hm ht.2.1, ht.2.2⟩, hr⟩⟩

theorem Keeps.jobs (h : Keeps s₀ s) (m : SMap Job) (hm : jobsOk s.jt.jobs → jobsOk m) :
    Keeps s₀ { s with jt.jobs := m } :=
  h.trans ⟨by simp [SameCore], by simp [Upward], fun ⟨hj, hr⟩ => ⟨hm hj, hr⟩⟩

theorem Keeps.cpe (h : Keeps s₀ s) (c : Cpe) (hp : portOk s.cpe → portOk c) (hc : countsOk s.cpe → countsOk c) :
    Keeps s₀ { s with cpe := c } :=
  h.trans ⟨by simp [SameCore], by simp [Upward], fun ⟨hj, ht, h1, h2, hr⟩ => ⟨hj, ht, hp h1, hc h2, hr⟩⟩

theorem Keeps.answers (h : Keeps s₀ s) (l : List HoldRec) (hl : havesOk s.hou.answers → havesOk l) :
    Keeps s₀ { s with hou.answers := l } :=
  h.trans ⟨by simp [SameCore], by simp [Upward], fun ⟨hj, ht, h1, h2, h3, hr⟩ => ⟨hj, ht, h1, h2, hl h3, hr⟩⟩

theorem Keeps.queue (h : Keeps s₀ s) (l : List TxFrame) (hl : queueOk s.lif.queue → queueOk l) :
    Keeps s₀ { s with lif.queue := l } :=
  h.trans ⟨by simp [SameCore], by simp [Upward],
    fun ⟨hj, ht, h1, h2, h3, h4, hr⟩ => ⟨hj, ht, h1, h2, h3, hl h4, hr⟩⟩

theorem Keeps.notes (h : Keeps s₀ s) (l : List AnswerNote) (hl : notesOk s.notes → notesOk l) :
    Keeps s₀ { s with notes := l } :=
  h.trans ⟨by simp [SameCore], by simp [Upward],
    fun ⟨hj, ht, h1, h2, h3, h4, hr⟩ => ⟨hj, ht, h1, h2, h3, h4, hl hr⟩⟩

/-! ## Jobs -/

theorem jobsOk_set_of_get {m : SMap Job} {j : Nat} {old : Job} (hg : smapGet m j = some old) (new : Job)
    (h : jobsOk m) : jobsOk (smapSet m j new) := by
  refine ⟨smapRising_smapSet _ _ h.1, fun p hp => ?_⟩
  rcases mem_smapSet hp with rfl | hp
  · exact h.2 (j, old) (smapGet_some_mem hg)
  · exact h.2 _ hp

theorem jobsOk_set_free {m : SMap Job} (hf : m.length < 8) (new : Job) (h : jobsOk m) :
    jobsOk (smapSet m (smapLeastFree m 0) new) := by
  refine ⟨smapRising_smapSet _ _ h.1, fun p hp => ?_⟩
  rcases mem_smapSet hp with rfl | hp
  · have := smapLeastFree_le m 0; simp; omega
  · exact h.2 _ hp

theorem jobsOk_del {m : SMap Job} (j : Nat) (h : jobsOk m) : jobsOk (smapDel m j) :=
  ⟨smapRising_smapDel _ h.1, fun _ hp => h.2 _ (mem_of_mem_smapDel hp)⟩

theorem modJob_keeps (h : Keeps s₀ s) (j : Nat) (f : Job → Job) : Keeps s₀ (modJob j f s) := by
  unfold modJob
  split
  · rename_i job hg
    exact h.jobs _ (jobsOk_set_of_get hg _)
  · exact h

theorem createJob_keeps_put (h : Keeps s₀ s) (make : Nat → Job) (hf : s.jobFree = true) :
    Keeps s₀ (putJob (drawTag s).2.freeRecord (make (drawTag s).1) (drawTag s).2) := by
  have hf' : s.jt.jobs.length < 8 := of_decide_eq_true hf
  exact h.jobs _ (jobsOk_set_free hf' _)

/-! ## Events and responses -/

theorem mem_bumpAt {max i n : Nat} {l : List Nat} (hl : ∀ x ∈ l, x ≤ max) (h : n ∈ bumpAt max i l) : n ≤ max := by
  induction l generalizing i with
  | nil => cases i <;> simp [bumpAt] at h
  | cons a t ih =>
    cases i with
    | zero =>
      rcases List.mem_cons.1 h with rfl | h
      · simp [satAdd]
      · exact hl _ (List.mem_cons_of_mem _ h)
    | succ i =>
      rcases List.mem_cons.1 h with rfl | h
      · exact hl _ List.mem_cons_self
      · exact ih (fun x hx => hl x (List.mem_cons_of_mem _ hx)) h

@[simp] theorem length_bumpAt (max i : Nat) (l : List Nat) : (bumpAt max i l).length = l.length := by
  induction l generalizing i with
  | nil => cases i <;> rfl
  | cons a t ih => cases i <;> simp [bumpAt, ih]

theorem countsOk_raise (e : Event) (s : State) (h : countsOk s.cpe) : countsOk (raise e s).cpe := by
  obtain ⟨h1, h2, h3, h4, h5⟩ := h
  have hs : ∀ n ∈ bumpAt 65535 (e.code - 1) s.cpe.seen, n ≤ 65535 := fun n hn => mem_bumpAt h5 hn
  unfold raise
  dsimp only
  split
  · exact ⟨h1, h2, h3, by simpa using h4, hs⟩
  · split
    · rename_i hlt
      exact ⟨by simp at hlt ⊢; omega, h2, h3, by simpa using h4, hs⟩
    · exact ⟨h1, by simp [satAdd], h3, by simpa using h4, hs⟩

theorem raise_keeps (h : Keeps s₀ s) (e : Event) : Keeps s₀ (raise e s) := by
  have hr : raise e s = { s with cpe := (raise e s).cpe } := by
    unfold raise; dsimp only; split
    · rfl
    · split <;> rfl
  rw [hr]
  refine h.cpe _ (fun hp => ?_) (countsOk_raise e s)
  unfold raise; dsimp only; split
  · exact hp
  · split <;> exact hp

theorem respond_keeps (h : Keeps s₀ s) (r : Result) (code tag : Nat) (data : List Byte) :
    Keeps s₀ (respond r code tag data s) :=
  h.cpe _ (fun _ => by simp [portOk]) id

theorem busyWith_keeps (h : Keeps s₀ s) (c : Current) : Keeps s₀ (busyWith c s) :=
  h.cpe _ (fun _ => by simp [portOk]) id

/-! ## Entries -/

theorem setMark_keeps (h : Keeps s₀ s) : Keeps s₀ (setMark s) :=
  h.trans ⟨by simp [SameCore, setMark], by simp [Upward, setMark], id⟩

theorem setFault_keeps (h : Keeps s₀ s) : Keeps s₀ (setFault s) :=
  h.trans ⟨by simp [SameCore, setFault], by simp [Upward, setFault], id⟩

theorem modEntry_keeps (h : Keeps s₀ s) (i : Nat) (f : Entry → Entry) : Keeps s₀ (modEntry i f s) := by
  unfold modEntry
  split
  · exact h.entries _ (smapRising_smapSet _ _)
  · exact h

theorem queueEntry_keeps (h : Keeps s₀ s) (i : Nat) : Keeps s₀ (queueEntry i s) := by
  unfold queueEntry
  split <;> exact h

theorem changeEntry_keeps (h : Keeps s₀ s) (i : Nat) (f : Entry → Entry) : Keeps s₀ (changeEntry i f s) :=
  queueEntry_keeps (modEntry_keeps h i f) i

theorem changeEntryMarked_keeps (h : Keeps s₀ s) (i : Nat) (f : Entry → Entry) : Keeps s₀ (changeEntryMarked i f s) :=
  setMark_keeps (changeEntry_keeps h i f)

theorem addRef_keeps (h : Keeps s₀ s) (i : Nat) : Keeps s₀ (addRef i s) := modEntry_keeps h i _

theorem dropRef_keeps (h : Keeps s₀ s) (i : Nat) : Keeps s₀ (dropRef i s) := modEntry_keeps h i _

/-! ## Activity -/

theorem reload_keeps (h : Keeps s₀ s) : Keeps s₀ (reload s) := by unfold reload; split <;> exact h

theorem stopTimer_keeps (h : Keeps s₀ s) : Keeps s₀ (stopTimer s) := h

theorem wake_keeps (h : Keeps s₀ s) : Keeps s₀ (wake s) := by unfold wake; split <;> exact h

theorem followConditions_keeps (h : Keeps s₀ s) : Keeps s₀ (followConditions s) := by
  unfold followConditions
  split
  · split <;> exact h
  · exact h

theorem dozeIfDrained_keeps (h : Keeps s₀ s) : Keeps s₀ (dozeIfDrained s) := by
  unfold dozeIfDrained enterDoze; split <;> exact h

theorem wakeForWork_keeps (h : Keeps s₀ s) : Keeps s₀ (wakeForWork s) := by
  unfold wakeForWork
  split
  · exact wake_keeps h
  · exact h

/-! ## HOU's records -/

theorem havesOk_sub {l m : List HoldRec} (hs : m.Sublist l) (h : havesOk l) : havesOk m :=
  Nat.le_trans (hs.countP_le) h

theorem havesOk_map {l : List HoldRec} (f : HoldRec → HoldRec) (hf : ∀ r, (f r).isHave = r.isHave) (h : havesOk l) :
    havesOk (l.map f) := by
  unfold havesOk at *
  rw [List.countP_map]
  have : HoldRec.isHave ∘ f = HoldRec.isHave := funext hf
  rwa [this]

theorem onRecords_keeps (h : Keeps s₀ s) (f : HoldRec → HoldRec) (hf : ∀ r, (f r).isHave = r.isHave) :
    Keeps s₀ (onRecords f s) :=
  h.answers _ (havesOk_map f hf)

theorem removeAnswers_keeps (h : Keeps s₀ s) (p : HoldRec → Bool) : Keeps s₀ (removeAnswers p s) := by
  refine h.answers _ fun hl => havesOk_map _ (fun r => ?_) (havesOk_sub List.filter_sublist hl)
  split <;> rfl

@[simp] theorem freeze_isHave (r : HoldRec) : r.freeze.isHave = r.isHave := by
  unfold HoldRec.freeze; split <;> rfl

@[simp] theorem unrelease_isHave (r : HoldRec) : r.unrelease.isHave = r.isHave := by
  unfold HoldRec.unrelease; split <;> rfl

@[simp] theorem beginOffset_isHave (off : Nat) (r : HoldRec) : (r.beginOffset off).isHave = r.isHave := rfl

@[simp] theorem resume_isHave (off : Nat) (r : HoldRec) : (r.resume off).isHave = r.isHave := by
  unfold HoldRec.resume; split
  · split <;> rfl
  · rfl
  · rfl

@[simp] theorem count_isHave (bits : Nat) (r : HoldRec) : (r.count bits).isHave = r.isHave := by
  unfold HoldRec.count; split
  · dsimp only; split <;> rfl
  · rfl
  · rfl

@[simp] theorem endSlots_isHave (off : Nat) (r : HoldRec) : (r.endSlots off).isHave = r.isHave := by
  unfold HoldRec.endSlots; split <;> rfl

@[simp] theorem release_isHave (r : HoldRec) : r.release.isHave = r.isHave := by
  unfold HoldRec.release; split <;> rfl

@[simp] theorem collided_isHave (extra : Nat) (r : HoldRec) : (r.collided extra).isHave = r.isHave := rfl

/-- HOU takes an answer its tests let through (R90). -/
theorem addAnswer_keeps (h : Keeps s₀ s) (f : Frame) (owner : Option Nat) (opener base : Nat) (bids : Option BidCount)
    (expiry : Option Nat) (hn : bids = none → s.hou.answers.countP HoldRec.isHave < 6) :
    Keeps s₀ (addAnswer f owner opener base bids expiry s) := by
  refine h.answers _ fun hl => ?_
  unfold havesOk at *
  show List.countP _ (s.hou.answers ++ [_]) ≤ 6
  rw [List.countP_append]
  have hb : (s.newRecord f owner opener base bids expiry s.hou.nextOrder).isHave = bids.isNone := by
    unfold State.newRecord State.begun; split
    · rw [resume_isHave]; rfl
    · rfl
  cases bids with
  | none => have := hn rfl; simp [hb]; omega
  | some b => simp [hb]; omega

end Sys2Proof.Machine
end

