-- ==== Sys2Proof/Laws/KeepsJobs.lean ====
section
/-! SUPPORT. What the operations of LIF, the chunk map, the catalogue and the job table keep. -/

namespace Sys2Proof.Machine

variable {s₀ s : State}


theorem Keeps.plain (h : Keeps s₀ s) (p : Option HoldRec) : Keeps s₀ { s with hou.plain := p } := h

/-! ## Link -/

theorem refreshPlain_keeps (h : Keeps s₀ s) : Keeps s₀ (refreshPlain s) := h

theorem txPush_keeps (h : Keeps s₀ s) (t : TxFrame) (ht : s.txTakes = true) : Keeps s₀ (txPush t s) := by
  have hl : s.lif.queue.length < 16 := by
    simp [State.txTakes] at ht; exact ht.2
  have hq : Keeps s₀ { s with lif.queue := s.lif.queue ++ [t] } :=
    h.queue _ fun _ => by simp [queueOk]; omega
  unfold txPush
  dsimp only
  split <;> exact hq

theorem txPop_keeps (h : Keeps s₀ s) : Keeps s₀ (txPop s) :=
  h.queue s.lif.queue.tail fun hq => by unfold queueOk at *; simp; omega

theorem orphanFront_keeps (h : Keeps s₀ s) : Keeps s₀ (orphanFront s) := by
  unfold orphanFront; split <;> exact h

theorem txRemoveJob_keeps (h : Keeps s₀ s) (j : Nat) : Keeps s₀ (txRemoveJob j s) := by
  have hq : Keeps s₀ { s with lif.queue := s.lif.queue.filterMap (TxFrame.afterEnd j) } :=
    h.queue _ fun hq => Nat.le_trans (List.length_filterMap_le _ _) hq
  unfold txRemoveJob
  dsimp only
  split
  · exact refreshPlain_keeps (orphanFront_keeps hq)
  · exact hq

theorem txEmpty_keeps (h : Keeps s₀ s) : Keeps s₀ (txEmpty s) :=
  refreshPlain_keeps (orphanFront_keeps (h.queue [] fun _ => by simp [queueOk]))

theorem giveParting_keeps (h : Keeps s₀ s) (f : Frame) : Keeps s₀ (giveParting f s) := by
  unfold giveParting
  split
  · exact txPush_keeps h _ (by assumption)
  · exact h

theorem offerFrames_keeps (owner : Option Nat) (l : List Frame) (h : Keeps s₀ s) : Keeps s₀ (offerFrames owner l s).2 := by
  induction l generalizing s with
  | nil => exact h
  | cons f rest ih =>
    unfold offerFrames
    split
    · exact ih (txPush_keeps h _ (by assumption))
    · exact h

theorem flushOutbox_keeps (h : Keeps s₀ s) (j : Nat) : Keeps s₀ (flushOutbox j s) := by
  unfold flushOutbox
  split
  · exact modJob_keeps (offerFrames_keeps _ _ h) _ _
  · exact h

theorem giveFrame_keeps (h : Keeps s₀ s) (j : Nat) (f : Frame) : Keeps s₀ (giveFrame j f s) := by
  unfold giveFrame
  all_goals
    repeat (first
      | with_reducible exact h
      | with_reducible apply flushOutbox_keeps
      | with_reducible apply modJob_keeps
      | exact h
      | apply flushOutbox_keeps
      | apply modJob_keeps)

theorem unreleaseAll_keeps (h : Keeps s₀ s) : Keeps s₀ (unreleaseAll s) := onRecords_keeps h _ unrelease_isHave

theorem endBurst_keeps (h : Keeps s₀ s)  : Keeps s₀ (endBurst s) := by
  unfold endBurst
  (try dsimp only)
  all_goals
    repeat (first
      | with_reducible exact h
      | with_reducible apply unreleaseAll_keeps
      | exact h
      | apply unreleaseAll_keeps)

theorem flushNotices_keeps (h : Keeps s₀ s) : Keeps s₀ (flushNotices s) := by
  unfold flushNotices
  split
  · exact offerFrames_keeps none s.cat.notices h
  · exact h

theorem addNotice_keeps (h : Keeps s₀ s) (f : Frame) : Keeps s₀ (addNotice f s) := by
  unfold addNotice
  (try dsimp only)
  (repeat' split)
  all_goals
    repeat (first
      | with_reducible exact h
      | with_reducible apply flushNotices_keeps
      | exact h
      | apply flushNotices_keeps)

/-! ## Chunks -/

theorem queueMap_keeps (h : Keeps s₀ s) (c : Nat) : Keeps s₀ (queueMap c s) := by
  unfold queueMap; split <;> exact h

theorem smapRising_chunkMapSet {m : SMap Chunk} (c : Nat) (ch : Chunk) (h : smapRising m = true) :
    smapRising (chunkMapSet m c ch) = true := by
  unfold chunkMapSet
  split
  · exact smapRising_smapDel _ h
  · exact smapRising_smapSet _ _ h

theorem setChunk_keeps (h : Keeps s₀ s) (c : Nat) (ch : Chunk) : Keeps s₀ (setChunk c ch s) :=
  queueMap_keeps (h.chunks _ (smapRising_chunkMapSet c ch)) c

theorem setUsed_keeps (h : Keeps s₀ s) (c n : Nat) : Keeps s₀ (setUsed c n s) :=
  h.chunks _ (smapRising_chunkMapSet _ _)

theorem takeChunk_keeps (h : Keeps s₀ s) (c i used : Nat) : Keeps s₀ (takeChunk c i used s) := by
  unfold takeChunk
  (try dsimp only)
  all_goals
    repeat (first
      | with_reducible exact h
      | with_reducible apply setChunk_keeps
      | exact h
      | apply setChunk_keeps)

theorem appendChunk_keeps (h : Keeps s₀ s) (i c : Nat) : Keeps s₀ (appendChunk i c s) := by
  unfold appendChunk
  (try dsimp only)
  (repeat' split)
  all_goals
    repeat (first
      | with_reducible exact h
      | with_reducible apply takeChunk_keeps
      | with_reducible apply setChunk_keeps
      | with_reducible apply modEntry_keeps
      | exact h
      | apply takeChunk_keeps
      | apply setChunk_keeps
      | apply modEntry_keeps)

theorem takePledge_keeps (h : Keeps s₀ s) (n : Nat) : Keeps s₀ (takePledge n s) := by
  unfold takePledge
  (try dsimp only)
  all_goals
    repeat (first
      | with_reducible exact h
      | exact h)

theorem releasePledge_keeps (h : Keeps s₀ s) (n : Nat) : Keeps s₀ (releasePledge n s) := by
  unfold releasePledge
  (try dsimp only)
  all_goals
    repeat (first
      | with_reducible exact h
      | exact h)

theorem freeOne_keeps (h : Keeps s₀ s) (i c : Nat) : Keeps s₀ (freeOne i s c) := by
  unfold freeOne
  dsimp only
  split
  · exact setChunk_keeps (s := { s with med.free := s.med.free + 1 }) h _ _
  · split
    · exact setChunk_keeps h _ _
    · exact h

theorem freeChunks_keeps (h : Keeps s₀ s) (i : Nat) (l : List Nat) : Keeps s₀ (freeChunks i l s) := by
  unfold freeChunks
  induction l generalizing s with
  | nil => exact h
  | cons c t ih => exact ih (freeOne_keeps h i c)

theorem markBad_keeps (h : Keeps s₀ s) (c : Nat) : Keeps s₀ (markBad c s) := by
  unfold markBad
  (try dsimp only)
  (repeat' split)
  all_goals
    repeat (first
      | with_reducible exact h
      | with_reducible apply setChunk_keeps
      | exact h
      | apply setChunk_keeps)

/-! ## Catalogue -/

theorem recordDamage_keeps (h : Keeps s₀ s) (i seq : Nat) (finder : Option JobKind) : Keeps s₀ (recordDamage i seq finder s) := by
  unfold recordDamage
  (try dsimp only)
  (repeat' split)
  all_goals
    repeat (first
      | with_reducible exact h
      | with_reducible apply raise_keeps
      | with_reducible apply changeEntryMarked_keeps
      | exact h
      | apply raise_keeps
      | apply changeEntryMarked_keeps)

theorem clearDamage_keeps (h : Keeps s₀ s) (i seq : Nat) : Keeps s₀ (clearDamage i seq s) := by
  unfold clearDamage
  all_goals
    repeat (first
      | with_reducible exact h
      | with_reducible apply changeEntryMarked_keeps
      | exact h
      | apply changeEntryMarked_keeps)

theorem joinQueue_keeps (h : Keeps s₀ s) (i notBefore : Nat) : Keeps s₀ (joinQueue i notBefore s) := by
  unfold joinQueue
  (try dsimp only)
  all_goals
    repeat (first
      | with_reducible exact h
      | exact h)

theorem setPlacement_keeps (h : Keeps s₀ s) (i : Nat) (p : PlacementStatus) : Keeps s₀ (setPlacement i p s) := by
  unfold setPlacement
  all_goals
    repeat (first
      | with_reducible exact h
      | with_reducible apply changeEntry_keeps
      | exact h
      | apply changeEntry_keeps)

theorem raiseShort_keeps (h : Keeps s₀ s) (i : Nat) : Keeps s₀ (raiseShort i s) := by
  unfold raiseShort
  (repeat' split)
  all_goals
    repeat (first
      | with_reducible exact h
      | with_reducible apply raise_keeps
      | exact h
      | apply raise_keeps)

theorem requeueIfShort_keeps (h : Keeps s₀ s) (i : Nat) : Keeps s₀ (requeueIfShort i s) := by
  unfold requeueIfShort
  (repeat' split)
  all_goals
    repeat (first
      | with_reducible exact h
      | with_reducible apply raiseShort_keeps
      | with_reducible apply joinQueue_keeps
      | with_reducible apply setPlacement_keeps
      | exact h
      | apply raiseShort_keeps
      | apply joinQueue_keeps
      | apply setPlacement_keeps)

theorem settlePlacement_keeps (h : Keeps s₀ s) (i : Nat) : Keeps s₀ (settlePlacement i s) := by
  unfold settlePlacement
  (repeat' split)
  all_goals
    repeat (first
      | with_reducible exact h
      | with_reducible apply setPlacement_keeps
      | with_reducible apply raiseShort_keeps
      | with_reducible apply joinQueue_keeps
      | with_reducible apply changeEntry_keeps
      | exact h
      | apply setPlacement_keeps
      | apply raiseShort_keeps
      | apply joinQueue_keeps
      | apply changeEntry_keeps)

theorem requeueAfterReset_keeps (h : Keeps s₀ s) (i : Nat) : Keeps s₀ (requeueAfterReset i s) := by
  unfold requeueAfterReset
  all_goals
    repeat (first
      | with_reducible exact h
      | with_reducible apply joinQueue_keeps
      | with_reducible apply setPlacement_keeps
      | exact h
      | apply joinQueue_keeps
      | apply setPlacement_keeps)

theorem changeHolders_keeps (h : Keeps s₀ s) (i : Nat) (f : List Nat → List Nat) : Keeps s₀ (changeHolders i f s) := by
  unfold changeHolders
  (repeat' split)
  all_goals
    repeat (first
      | with_reducible exact h
      | with_reducible apply changeEntryMarked_keeps
      | exact h
      | apply changeEntryMarked_keeps)

theorem addHolder_keeps (h : Keeps s₀ s) (i a : Nat) : Keeps s₀ (addHolder i a s) := by
  unfold addHolder
  all_goals
    repeat (first
      | with_reducible exact h
      | with_reducible apply changeHolders_keeps
      | exact h
      | apply changeHolders_keeps)

theorem removeHolder_keeps (h : Keeps s₀ s) (i a : Nat) : Keeps s₀ (removeHolder i a s) := by
  unfold removeHolder
  repeat' split
  all_goals
    repeat (first
      | with_reducible exact h
      | with_reducible apply requeueIfShort_keeps
      | with_reducible apply changeHolders_keeps
      | exact h
      | apply requeueIfShort_keeps
      | apply changeHolders_keeps)

theorem learnHolder_keeps (h : Keeps s₀ s) (t : TakeNo) (a : Nat) : Keeps s₀ (learnHolder t a s) := by
  unfold learnHolder
  (repeat' split)
  all_goals
    repeat (first
      | with_reducible exact h
      | with_reducible apply addHolder_keeps
      | exact h
      | apply addHolder_keeps)

theorem forgetHolder_keeps (h : Keeps s₀ s) (t : TakeNo) (a : Nat) : Keeps s₀ (forgetHolder t a s) := by
  unfold forgetHolder
  (repeat' split)
  all_goals
    repeat (first
      | with_reducible exact h
      | with_reducible apply removeHolder_keeps
      | exact h
      | apply removeHolder_keeps)

theorem createEntry_keeps (h : Keeps s₀ s) (i : Nat) (e : Entry) (before : List WtItem) :
    Keeps s₀ (createEntry i e before s) :=
  setMark_keeps (Keeps.entries h (smapSet s.cat.entries i e) (smapRising_smapSet i e))

theorem freeEntry_keeps (h : Keeps s₀ s) (i : Nat) : Keeps s₀ (freeEntry i s) := by
  unfold freeEntry
  split
  · rename_i e _
    dsimp only
    refine Keeps.notes ?_ _ (fun hn => Nat.le_trans (List.length_filter_le _ _) hn)
    refine removeAnswers_keeps (setMark_keeps (queueEntry_keeps ?_ i)) _
    exact Keeps.entries (freeChunks_keeps h i (s.chain e)) _ (smapRising_smapDel i)
  · exact h

/-! ## Jobs -/

theorem createJob_keeps (h : Keeps s₀ s) (make : Nat → Job) (hf : s.jobFree = true) : Keeps s₀ (createJob make s) :=
  wake_keeps (stopTimer_keeps (createJob_keeps_put h make hf))

theorem holdEntry_keeps (h : Keeps s₀ s) (j i : Nat) : Keeps s₀ (holdEntry j i s) := by
  unfold holdEntry
  all_goals
    repeat (first
      | with_reducible exact h
      | with_reducible apply addRef_keeps
      | with_reducible apply modJob_keeps
      | exact h
      | apply addRef_keeps
      | apply modJob_keeps)

theorem releaseEntry_keeps (h : Keeps s₀ s) (j : Nat) : Keeps s₀ (releaseEntry j s) := by
  unfold releaseEntry
  (repeat' split)
  all_goals
    repeat (first
      | with_reducible exact h
      | with_reducible apply dropRef_keeps
      | with_reducible apply modJob_keeps
      | exact h
      | apply dropRef_keeps
      | apply modJob_keeps)

theorem modCapture_keeps (h : Keeps s₀ s) (j : Nat) (f : CaptureJob → CaptureJob) : Keeps s₀ (modCapture j f s) := by
  unfold modCapture
  all_goals
    repeat (first
      | with_reducible exact h
      | with_reducible apply modJob_keeps
      | exact h
      | apply modJob_keeps)

theorem modPlay_keeps (h : Keeps s₀ s) (j : Nat) (f : PlayJob → PlayJob) : Keeps s₀ (modPlay j f s) := by
  unfold modPlay
  all_goals
    repeat (first
      | with_reducible exact h
      | with_reducible apply modJob_keeps
      | exact h
      | apply modJob_keeps)

theorem modReplicate_keeps (h : Keeps s₀ s) (j : Nat) (f : ReplicateJob → ReplicateJob) : Keeps s₀ (modReplicate j f s) := by
  unfold modReplicate
  all_goals
    repeat (first
      | with_reducible exact h
      | with_reducible apply modJob_keeps
      | exact h
      | apply modJob_keeps)

theorem modReceive_keeps (h : Keeps s₀ s) (j : Nat) (f : ReceiveJob → ReceiveJob) : Keeps s₀ (modReceive j f s) := by
  unfold modReceive
  all_goals
    repeat (first
      | with_reducible exact h
      | with_reducible apply modJob_keeps
      | exact h
      | apply modJob_keeps)

theorem modRepair_keeps (h : Keeps s₀ s) (j : Nat) (f : RepairJob → RepairJob) : Keeps s₀ (modRepair j f s) := by
  unfold modRepair
  all_goals
    repeat (first
      | with_reducible exact h
      | with_reducible apply modJob_keeps
      | exact h
      | apply modJob_keeps)

theorem unwant_keeps (h : Keeps s₀ s) (j : Nat) : Keeps s₀ (unwant j s) := by
  unfold unwant
  (try dsimp only)
  (repeat' split)
  all_goals
    repeat (first
      | with_reducible exact h
      | exact h)

theorem releaseSpace_keeps (h : Keeps s₀ s) (job : Job) : Keeps s₀ (releaseSpace job s) := by
  unfold releaseSpace
  (try dsimp only)
  (repeat' split)
  all_goals
    repeat (first
      | with_reducible exact h
      | with_reducible apply releasePledge_keeps
      | exact h
      | apply releasePledge_keeps)

theorem closeJob_keeps (h : Keeps s₀ s) (j : Nat) : Keeps s₀ (closeJob j s) := by
  unfold closeJob
  split
  · rename_i job _
    dsimp only
    have hb : Keeps s₀ (releaseSpace job (unwant j (removeAnswers (fun r => r.owner == some j) (txRemoveJob j s)))) :=
      releaseSpace_keeps (unwant_keeps (removeAnswers_keeps (txRemoveJob_keeps h j) _) j) job
    split
    · exact Keeps.jobs (dropRef_keeps hb _) _ (jobsOk_del j)
    · exact Keeps.jobs hb _ (jobsOk_del j)
  · exact h

theorem holdRepair_keeps (h : Keeps s₀ s) (i : Nat) (r : RepairJob) (result : Result) : Keeps s₀ (holdRepair i r result s) := by
  unfold holdRepair
  (repeat' split)
  all_goals
    repeat (first
      | with_reducible exact h
      | with_reducible apply modEntry_keeps
      | exact h
      | apply modEntry_keeps)

theorem settleEntry_keeps (h : Keeps s₀ s) (job : Job) (result : Result) : Keeps s₀ (settleEntry job result s) := by
  unfold settleEntry
  (repeat' split)
  all_goals
    repeat (first
      | with_reducible exact h
      | with_reducible apply freeEntry_keeps
      | with_reducible apply settlePlacement_keeps
      | with_reducible apply holdRepair_keeps
      | exact h
      | apply freeEntry_keeps
      | apply settlePlacement_keeps
      | apply holdRepair_keeps)

theorem endJob_keeps (h : Keeps s₀ s) (j : Nat) (result : Result) (parting : Option Frame) :
    Keeps s₀ (endJob j result parting s) := by
  unfold endJob
  split
  · dsimp only
    refine raise_keeps (settleEntry_keeps ?_ _ _) _
    split
    · exact giveParting_keeps (closeJob_keeps h j) _
    · exact closeJob_keeps h j
  · exact h

theorem endJobSoftly_keeps (h : Keeps s₀ s) (j : Nat) : Keeps s₀ (endJobSoftly j s) := by
  unfold endJobSoftly
  (try dsimp only)
  (repeat' split)
  all_goals
    repeat (first
      | with_reducible exact h
      | with_reducible apply closeJob_keeps
      | with_reducible apply freeEntry_keeps
      | with_reducible apply requeueAfterReset_keeps
      | exact h
      | apply closeJob_keeps
      | apply freeEntry_keeps
      | apply requeueAfterReset_keeps)

theorem endJobsSoftly_keeps (l : List (Nat × Job)) (h : Keeps s₀ s) : Keeps s₀ (endJobsSoftly l s) := by
  induction l generalizing s with
  | nil => exact h
  | cons p rest ih => exact ih (endJobSoftly_keeps h p.1)

theorem givePartings_keeps (l : List Frame) (h : Keeps s₀ s) : Keeps s₀ (givePartings l s) := by
  unfold givePartings
  induction l generalizing s with
  | nil => exact h
  | cons f rest ih => exact ih (giveParting_keeps h f)

theorem forgetHolds_keeps (h : Keeps s₀ s) : Keeps s₀ (forgetHolds s) :=
  h.entries _ fun hm => by
    refine smapRising_map _ ?_ hm
    intro p; rfl

theorem endLateJobs_keeps (h : Keeps s₀ s) : Keeps s₀ (endLateJobs s) :=
  givePartings_keeps _ (removeAnswers_keeps (endJobsSoftly_keeps _ (h.notes [] fun _ => by simp [notesOk])) _)

theorem endLinkJobs_keeps (l : List (Nat × Job)) (h : Keeps s₀ s) : Keeps s₀ (endLinkJobs l s) := by
  induction l generalizing s with
  | nil => exact h
  | cons p rest ih =>
    obtain ⟨j, job⟩ := p
    unfold endLinkJobs
    refine ih ?_
    split
    · exact endJob_keeps h _ _ _
    · exact h

/-- Entry to LINK_MUTE keeps what follows after the mute cause has been set. -/
theorem enterMute_keeps (h : Keeps s₀ { s with lif.mute := some c, cat.notices := [], notes := [] }) :
    Keeps s₀ (enterMute c s) := by
  unfold enterMute
  dsimp only
  have h1 := removeAnswers_keeps (txEmpty_keeps h) (fun _ => true)
  refine raise_keeps (endLinkJobs_keeps _ ?_) _
  split
  · exact h1
  · exact endBurst_keeps h1

end Sys2Proof.Machine
end

