-- ==== Sys2Proof/Laws/KeepsWork.lean ====
section
/-! SUPPORT. What the operations of transfers, captures, retrievals, placements and repairs keep. -/

namespace Sys2Proof.Machine

variable {s₀ s : State}

/-! ## Transfer -/

theorem giveData_keeps (h : Keeps s₀ s) (j seq : Nat) (damaged : Bool) (block : List Byte) : Keeps s₀ (giveData j seq damaged block s) := by
  unfold giveData
  (repeat' split)
  all_goals
    repeat (first
      | with_reducible exact h
      | with_reducible apply giveFrame_keeps
      | exact h
      | apply giveFrame_keeps)

theorem giveDone_keeps (h : Keeps s₀ s) (j : Nat) : Keeps s₀ (giveDone j s) := by
  unfold giveDone
  (try dsimp only)
  (repeat' split)
  all_goals
    repeat (first
      | with_reducible exact h
      | with_reducible apply giveFrame_keeps
      | with_reducible apply modJob_keeps
      | exact h
      | apply giveFrame_keeps
      | apply modJob_keeps)

theorem advanceSender_keeps (h : Keeps s₀ s) (j : Nat) (parting : Option Frame) : Keeps s₀ (advanceSender j parting s) := by
  unfold advanceSender
  (repeat' split)
  all_goals
    repeat (first
      | with_reducible exact h
      | with_reducible apply endJob_keeps
      | with_reducible apply giveDone_keeps
      | with_reducible apply modJob_keeps
      | exact h
      | apply endJob_keeps
      | apply giveDone_keeps
      | apply modJob_keeps)

theorem goBack_keeps (h : Keeps s₀ s) (j address : Nat) : Keeps s₀ (goBack j address s) := by
  unfold goBack
  (try dsimp only)
  all_goals
    repeat (first
      | with_reducible exact h
      | with_reducible apply modJob_keeps
      | with_reducible apply unwant_keeps
      | exact h
      | apply modJob_keeps
      | apply unwant_keeps)

theorem modSnd_keeps (h : Keeps s₀ s) (j : Nat) (f : Sender → Sender) : Keeps s₀ (modSnd j f s) := by
  unfold modSnd
  all_goals
    repeat (first
      | with_reducible exact h
      | with_reducible apply modJob_keeps
      | exact h
      | apply modJob_keeps)

theorem leaveMember_keeps (h : Keeps s₀ s) (j address : Nat) : Keeps s₀ (leaveMember j address s) := by
  unfold leaveMember
  all_goals
    repeat (first
      | with_reducible exact h
      | with_reducible apply modSnd_keeps
      | exact h
      | apply modSnd_keeps)

theorem dropMember_keeps (h : Keeps s₀ s) (j address : Nat) : Keeps s₀ (dropMember j address s) := by
  unfold dropMember
  (try dsimp only)
  (repeat' split)
  all_goals
    repeat (first
      | with_reducible exact h
      | with_reducible apply advanceSender_keeps
      | with_reducible apply leaveMember_keeps
      | with_reducible apply giveFrame_keeps
      | exact h
      | apply advanceSender_keeps
      | apply leaveMember_keeps
      | apply giveFrame_keeps)

theorem senderStep_keeps (h : Keeps s₀ s) (j address seq credit : Nat) : Keeps s₀ (senderStep j address seq credit s) := by
  unfold senderStep
  all_goals
    repeat (first
      | with_reducible exact h
      | with_reducible apply advanceSender_keeps
      | with_reducible apply modSnd_keeps
      | exact h
      | apply advanceSender_keeps
      | apply modSnd_keeps)

theorem modRcv_keeps (h : Keeps s₀ s) (j : Nat) (f : Receiver → Receiver) : Keeps s₀ (modRcv j f s) := by
  unfold modRcv
  all_goals
    repeat (first
      | with_reducible exact h
      | with_reducible apply modJob_keeps
      | exact h
      | apply modJob_keeps)

theorem dropWaitingStep_keeps (h : Keeps s₀ s) (j : Nat) : Keeps s₀ (dropWaitingStep j s) := by
  unfold dropWaitingStep
  all_goals
    repeat (first
      | with_reducible exact h
      | with_reducible apply modJob_keeps
      | exact h
      | apply modJob_keeps)

theorem giveStep_keeps (h : Keeps s₀ s) (j : Nat) : Keeps s₀ (giveStep j s) := by
  unfold giveStep
  (try dsimp only)
  (repeat' split)
  all_goals
    repeat (first
      | with_reducible exact h
      | with_reducible apply modRcv_keeps
      | with_reducible apply giveFrame_keeps
      | with_reducible apply dropWaitingStep_keeps
      | exact h
      | apply modRcv_keeps
      | apply giveFrame_keeps
      | apply dropWaitingStep_keeps)

theorem stepAfterAccept_keeps (h : Keeps s₀ s) (j : Nat) : Keeps s₀ (stepAfterAccept j s) := by
  unfold stepAfterAccept
  (repeat' split)
  all_goals
    repeat (first
      | with_reducible exact h
      | with_reducible apply giveStep_keeps
      | exact h
      | apply giveStep_keeps)

theorem discardData_keeps (h : Keeps s₀ s) (j : Nat) (outOfOrder : Bool) : Keeps s₀ (discardData j outOfOrder s) := by
  unfold discardData
  (repeat' split)
  all_goals
    repeat (first
      | with_reducible exact h
      | with_reducible apply giveStep_keeps
      | with_reducible apply modRcv_keeps
      | exact h
      | apply giveStep_keeps
      | apply modRcv_keeps)

/-! ## Capture -/

theorem recordGap_keeps (h : Keeps s₀ s) (j : Nat) (g : Gap) (cause : GapCause) : Keeps s₀ (recordGap j g cause s) := by
  unfold recordGap
  (repeat' split)
  all_goals
    repeat (first
      | with_reducible exact h
      | with_reducible apply raise_keeps
      | with_reducible apply modCapture_keeps
      | exact h
      | apply raise_keeps
      | apply modCapture_keeps)

theorem closeRun_keeps (h : Keeps s₀ s) (j : Nat) : Keeps s₀ (closeRun j s) := by
  unfold closeRun
  (repeat' split)
  all_goals
    repeat (first
      | with_reducible exact h
      | with_reducible apply recordGap_keeps
      | with_reducible apply modCapture_keeps
      | exact h
      | apply recordGap_keeps
      | apply modCapture_keeps)

theorem takeBoundaryOf_keeps (h : Keeps s₀ s) (j : Nat) (chunks : List Nat → Nat) : Keeps s₀ (takeBoundaryOf j chunks s) := by
  unfold takeBoundaryOf
  (repeat' split)
  all_goals
    repeat (first
      | with_reducible exact h
      | with_reducible apply changeEntry_keeps
      | exact h
      | apply changeEntry_keeps)

theorem takeBoundary_keeps (h : Keeps s₀ s) (j chunk : Nat) : Keeps s₀ (takeBoundary j chunk s) := takeBoundaryOf_keeps h j _

theorem headBoundary_keeps (h : Keeps s₀ s) (j : Nat) (turned : Bool) : Keeps s₀ (headBoundary j turned s) := by
  unfold headBoundary
  split
  · exact takeBoundaryOf_keeps h j _
  · exact h

theorem afterSlot_keeps (h : Keeps s₀ s) (j : Nat) : Keeps s₀ (afterSlot j s) := by
  unfold afterSlot
  all_goals
    repeat (first
      | with_reducible exact h
      | with_reducible apply modCapture_keeps
      | with_reducible apply closeRun_keeps
      | exact h
      | apply modCapture_keeps
      | apply closeRun_keeps)

theorem takeWritten_keeps (h : Keeps s₀ s) (j chunk offset : Nat) : Keeps s₀ (takeWritten j chunk offset s) := by
  unfold takeWritten
  (try dsimp only)
  (repeat' split)
  all_goals
    repeat (first
      | with_reducible exact h
      | with_reducible apply modCapture_keeps
      | with_reducible apply takeBoundary_keeps
      | exact h
      | apply modCapture_keeps
      | apply takeBoundary_keeps)

theorem takeFaulted_keeps (h : Keeps s₀ s) (j chunk : Nat) : Keeps s₀ (takeFaulted j chunk s) := by
  unfold takeFaulted
  (repeat' split)
  all_goals
    repeat (first
      | with_reducible exact h
      | with_reducible apply takeBoundary_keeps
      | with_reducible apply modCapture_keeps
      | with_reducible apply recordGap_keeps
      | exact h
      | apply takeBoundary_keeps
      | apply modCapture_keeps
      | apply recordGap_keeps)

theorem soundDone_keeps (h : Keeps s₀ s) (j : Nat) (ok : Bool) (chunk offset : Nat) :
    Keeps s₀ (soundDone j ok chunk offset s) := by
  unfold soundDone
  split
  · exact afterSlot_keeps (takeWritten_keeps h _ _ _) _
  · exact afterSlot_keeps (takeFaulted_keeps h _ _) _

theorem soundFull_keeps (h : Keeps s₀ s) (j : Nat) : Keeps s₀ (soundFull j s) := by
  unfold soundFull
  (repeat' split)
  all_goals
    repeat (first
      | with_reducible exact h
      | with_reducible apply modCapture_keeps
      | exact h
      | apply modCapture_keeps)

theorem sealTake_keeps (h : Keeps s₀ s) (j : Nat) (lost : Bool) : Keeps s₀ (sealTake j lost s) := by
  unfold sealTake
  (try dsimp only)
  (repeat' split)
  all_goals
    repeat (first
      | with_reducible exact h
      | with_reducible apply changeEntryMarked_keeps
      | with_reducible apply joinQueue_keeps
      | with_reducible apply endJob_keeps
      | with_reducible apply recordDamage_keeps
      | exact h
      | apply changeEntryMarked_keeps
      | apply joinQueue_keeps
      | apply endJob_keeps
      | apply recordDamage_keeps)

theorem headWritten_keeps (h : Keeps s₀ s) (j : Nat) : Keeps s₀ (headWritten j s) := by
  unfold headWritten
  (repeat' split)
  all_goals
    repeat (first
      | with_reducible exact h
      | with_reducible apply modCapture_keeps
      | with_reducible apply sealTake_keeps
      | exact h
      | apply modCapture_keeps
      | apply sealTake_keeps)

theorem headFaulted_keeps (h : Keeps s₀ s) (j : Nat) : Keeps s₀ (headFaulted j s) := by
  unfold headFaulted
  (repeat' split)
  all_goals
    repeat (first
      | with_reducible exact h
      | with_reducible apply sealTake_keeps
      | with_reducible apply modCapture_keeps
      | exact h
      | apply sealTake_keeps
      | apply modCapture_keeps)

theorem answerEnding_keeps (h : Keeps s₀ s)  : Keeps s₀ (answerEnding s) := by
  unfold answerEnding
  (repeat' split)
  all_goals
    repeat (first
      | with_reducible exact h
      | with_reducible apply respond_keeps
      | exact h
      | apply respond_keeps)

theorem finishAbort_keeps (h : Keeps s₀ s) (j : Nat) : Keeps s₀ (finishAbort j s) := by
  unfold finishAbort
  (try dsimp only)
  (repeat' split)
  all_goals
    repeat (first
      | with_reducible exact h
      | with_reducible apply freeEntry_keeps
      | with_reducible apply answerEnding_keeps
      | with_reducible apply endJob_keeps
      | exact h
      | apply freeEntry_keeps
      | apply answerEnding_keeps
      | apply endJob_keeps)

theorem abortCapture_keeps (h : Keeps s₀ s) (j : Nat) : Keeps s₀ (abortCapture j s) := by
  unfold abortCapture
  (try dsimp only)
  (repeat' split)
  all_goals
    repeat (first
      | with_reducible exact h
      | with_reducible apply modCapture_keeps
      | with_reducible apply finishAbort_keeps
      | exact h
      | apply modCapture_keeps
      | apply finishAbort_keeps)

theorem trimChain_keeps (h : Keeps s₀ s) (i : Nat) : Keeps s₀ (trimChain i s) := by
  unfold trimChain
  (try dsimp only)
  (repeat' split)
  all_goals
    repeat (first
      | with_reducible exact h
      | with_reducible apply freeChunks_keeps
      | with_reducible apply setChunk_keeps
      | exact h
      | apply freeChunks_keeps
      | apply setChunk_keeps)

theorem softIncomplete_keeps (h : Keeps s₀ s) (j : Nat) : Keeps s₀ (softIncomplete j s) := by
  unfold softIncomplete
  (repeat' split)
  all_goals
    repeat (first
      | with_reducible exact h
      | with_reducible apply modCapture_keeps
      | with_reducible apply trimChain_keeps
      | with_reducible apply changeEntryMarked_keeps
      | exact h
      | apply modCapture_keeps
      | apply trimChain_keeps
      | apply changeEntryMarked_keeps)

theorem finishSoftReset_keeps (h : Keeps s₀ s) : Keeps s₀ (finishSoftReset s) := by
  unfold finishSoftReset
  refine respond_keeps ?_ _ _ _ _
  exact (forgetHolds_keeps h).cpe { s.cpe with events := [], seen := [0, 0, 0, 0, 0, 0, 0, 0], lost := 0, refused := 0 } id
    (fun _ => by simp [countsOk])

theorem softHeadDone_keeps (h : Keeps s₀ s) (j : Nat) (lost : Bool) : Keeps s₀ (softHeadDone j lost s) := by
  unfold softHeadDone
  (try dsimp only)
  (repeat' split)
  all_goals
    repeat (first
      | with_reducible exact h
      | with_reducible apply recordDamage_keeps
      | with_reducible apply finishSoftReset_keeps
      | with_reducible apply endLateJobs_keeps
      | with_reducible apply endJobSoftly_keeps
      | exact h
      | apply recordDamage_keeps
      | apply finishSoftReset_keeps
      | apply endLateJobs_keeps
      | apply endJobSoftly_keeps)

theorem captureWritten_keeps (h : Keeps s₀ s) (j : Nat) (req : JobReq) (ok turned : Bool) (chunk offset : Nat) : Keeps s₀ (captureWritten j req ok turned chunk offset s) := by
  unfold captureWritten
  (repeat' split)
  all_goals
    repeat (first
      | with_reducible exact h
      | with_reducible apply finishAbort_keeps
      | with_reducible apply softIncomplete_keeps
      | with_reducible apply modCapture_keeps
      | with_reducible apply takeBoundary_keeps
      | with_reducible apply headBoundary_keeps
      | with_reducible apply softHeadDone_keeps
      | with_reducible apply takeWritten_keeps
      | with_reducible apply takeFaulted_keeps
      | with_reducible apply soundDone_keeps
      | with_reducible apply headWritten_keeps
      | with_reducible apply headFaulted_keeps
      | exact h
      | apply finishAbort_keeps
      | apply softIncomplete_keeps
      | apply modCapture_keeps
      | apply takeBoundary_keeps
      | apply headBoundary_keeps
      | apply softHeadDone_keeps
      | apply takeWritten_keeps
      | apply takeFaulted_keeps
      | apply soundDone_keeps
      | apply headWritten_keeps
      | apply headFaulted_keeps)

theorem softResetCapture_keeps (h : Keeps s₀ s) (j : Nat) : Keeps s₀ (softResetCapture j s) := by
  unfold softResetCapture
  (try dsimp only)
  (repeat' split)
  all_goals
    repeat (first
      | with_reducible exact h
      | with_reducible apply modCapture_keeps
      | with_reducible apply softIncomplete_keeps
      | exact h
      | apply modCapture_keeps
      | apply softIncomplete_keeps)

/-! ## Retrieval -/

theorem requestReads_keeps (h : Keeps s₀ s) (j : Nat) : Keeps s₀ (requestReads j s) := by
  unfold requestReads
  (try dsimp only)
  (repeat' split)
  all_goals
    repeat (first
      | with_reducible exact h
      | with_reducible apply modJob_keeps
      | with_reducible apply modPlay_keeps
      | exact h
      | apply modJob_keeps
      | apply modPlay_keeps)

theorem enterLocal_keeps (h : Keeps s₀ s) (j i : Nat) (e : Entry) : Keeps s₀ (enterLocal j i e s) := by
  unfold enterLocal
  (try dsimp only)
  all_goals
    repeat (first
      | with_reducible exact h
      | with_reducible apply requestReads_keeps
      | with_reducible apply holdEntry_keeps
      | with_reducible apply modPlay_keeps
      | with_reducible apply dropWaitingStep_keeps
      | with_reducible apply modJob_keeps
      | exact h
      | apply requestReads_keeps
      | apply holdEntry_keeps
      | apply modPlay_keeps
      | apply dropWaitingStep_keeps
      | apply modJob_keeps)

theorem fallBack_keeps (h : Keeps s₀ s) (j : Nat) (otherwise : Result) : Keeps s₀ (fallBack j otherwise s) := by
  unfold fallBack
  (repeat' split)
  all_goals
    repeat (first
      | with_reducible exact h
      | with_reducible apply enterLocal_keeps
      | with_reducible apply endJob_keeps
      | exact h
      | apply enterLocal_keeps
      | apply endJob_keeps)

theorem givePlaySeek_keeps (h : Keeps s₀ s) (j : Nat) : Keeps s₀ (givePlaySeek j s) := by
  unfold givePlaySeek
  (repeat' split)
  all_goals
    repeat (first
      | with_reducible exact h
      | with_reducible apply giveFrame_keeps
      | with_reducible apply modPlay_keeps
      | with_reducible apply endJob_keeps
      | exact h
      | apply giveFrame_keeps
      | apply modPlay_keeps
      | apply endJob_keeps)

theorem chooseSource_keeps (h : Keeps s₀ s) (j : Nat) (t : TakeNo) (start frames : Nat) : Keeps s₀ (chooseSource j t start frames s) := by
  unfold chooseSource
  (repeat' split)
  all_goals
    repeat (first
      | with_reducible exact h
      | with_reducible apply enterLocal_keeps
      | with_reducible apply givePlaySeek_keeps
      | exact h
      | apply enterLocal_keeps
      | apply givePlaySeek_keeps)

theorem giveGrant_keeps (h : Keeps s₀ s) (j holder : Nat) : Keeps s₀ (giveGrant j holder s) := by
  unfold giveGrant
  (repeat' split)
  all_goals
    repeat (first
      | with_reducible exact h
      | with_reducible apply giveFrame_keeps
      | exact h
      | apply giveFrame_keeps)

theorem drawExchange_keeps (h : Keeps s₀ s) (j : Nat) : Keeps s₀ (drawExchange j s) := by
  unfold drawExchange
  (try dsimp only)
  all_goals
    repeat (first
      | with_reducible exact h
      | with_reducible apply modJob_keeps
      | exact h
      | apply modJob_keeps)

theorem holderFailed_keeps (h : Keeps s₀ s) (j : Nat) : Keeps s₀ (holderFailed j s) := by
  unfold holderFailed
  (repeat' split)
  all_goals
    repeat (first
      | with_reducible exact h
      | with_reducible apply fallBack_keeps
      | with_reducible apply givePlaySeek_keeps
      | with_reducible apply drawExchange_keeps
      | with_reducible apply dropWaitingStep_keeps
      | with_reducible apply modJob_keeps
      | with_reducible apply modPlay_keeps
      | exact h
      | apply fallBack_keeps
      | apply givePlaySeek_keeps
      | apply drawExchange_keeps
      | apply dropWaitingStep_keeps
      | apply modJob_keeps
      | apply modPlay_keeps)

theorem pendPlay_keeps (h : Keeps s₀ s) (j : Nat) (result : Result) : Keeps s₀ (pendPlay j result s) := by
  unfold pendPlay
  all_goals
    repeat (first
      | with_reducible exact h
      | with_reducible apply modPlay_keeps
      | with_reducible apply dropWaitingStep_keeps
      | with_reducible apply modJob_keeps
      | exact h
      | apply modPlay_keeps
      | apply dropWaitingStep_keeps
      | apply modJob_keeps)

theorem drainIfWhole_keeps (h : Keeps s₀ s) (j : Nat) : Keeps s₀ (drainIfWhole j s) := by
  unfold drainIfWhole
  (repeat' split)
  all_goals
    repeat (first
      | with_reducible exact h
      | with_reducible apply modPlay_keeps
      | with_reducible apply modRcv_keeps
      | exact h
      | apply modPlay_keeps
      | apply modRcv_keeps)

theorem playCheckFailed_keeps (h : Keeps s₀ s) (j : Nat) : Keeps s₀ (playCheckFailed j s) := by
  unfold playCheckFailed
  (repeat' split)
  all_goals
    repeat (first
      | with_reducible exact h
      | with_reducible apply endJob_keeps
      | exact h
      | apply endJob_keeps)

theorem playAccept_keeps (h : Keeps s₀ s) (j seq : Nat) (damaged : Bool) (block : List Byte) : Keeps s₀ (playAccept j seq damaged block s) := by
  unfold playAccept
  (try dsimp only)
  (repeat' split)
  all_goals
    repeat (first
      | with_reducible exact h
      | with_reducible apply playCheckFailed_keeps
      | with_reducible apply drainIfWhole_keeps
      | with_reducible apply stepAfterAccept_keeps
      | with_reducible apply modRcv_keeps
      | with_reducible apply modPlay_keeps
      | exact h
      | apply playCheckFailed_keeps
      | apply drainIfWhole_keeps
      | apply stepAfterAccept_keeps
      | apply modRcv_keeps
      | apply modPlay_keeps)

theorem playRead_keeps (h : Keeps s₀ s) (j i seq : Nat) (outcome : ReadEnd) (block : List Byte) : Keeps s₀ (playRead j i seq outcome block s) := by
  unfold playRead
  (try dsimp only)
  (repeat' split)
  all_goals
    repeat (first
      | with_reducible exact h
      | with_reducible apply modPlay_keeps
      | with_reducible apply recordDamage_keeps
      | with_reducible apply requestReads_keeps
      | exact h
      | apply modPlay_keeps
      | apply recordDamage_keeps
      | apply requestReads_keeps)

theorem endAtU_keeps (h : Keeps s₀ s) (j : Nat) : Keeps s₀ (endAtU j s) := by
  unfold endAtU
  (repeat' split)
  all_goals
    repeat (first
      | with_reducible exact h
      | with_reducible apply endJob_keeps
      | exact h
      | apply endJob_keeps)

theorem underrun_keeps (h : Keeps s₀ s) (j : Nat) (job : Job) (p : PlayJob) : Keeps s₀ (underrun j job p s) := by
  unfold underrun
  (try dsimp only)
  (repeat' split)
  all_goals
    repeat (first
      | with_reducible exact h
      | with_reducible apply endJob_keeps
      | with_reducible apply modPlay_keeps
      | with_reducible apply raise_keeps
      | exact h
      | apply endJob_keeps
      | apply modPlay_keeps
      | apply raise_keeps)

/-- The bits a sample port drives. -/
def State.lines (s : State) (high low : List Bool) : State := { s with port.lineHigh := high, port.lineLow := low }

/-- Driving a period changes the driven bits, and keeps the rest. -/
theorem drive_keeps (f : Format) (frame : List Byte) (highEdges lowEdges : Nat) :
    ∃ high low, Keeps (s.lines high low) (drive f frame highEdges lowEdges s) :=
  ⟨_, _, Keeps.refl _⟩

theorem playFrame_keeps (j highEdges lowEdges : Nat) (job : Job) (p : PlayJob) (t : TakeShape) :
    ∃ high low, Keeps (s.lines high low) (playFrame j highEdges lowEdges job p t s) := by
  have hz : Keeps (s.lines (halfBits highEdges []) (halfBits lowEdges [])) (driveZeros highEdges lowEdges s) :=
    Keeps.refl _
  unfold playFrame
  split
  · exact ⟨_, _, endAtU_keeps hz _⟩
  · exact ⟨_, _, endAtU_keeps (modPlay_keeps hz _ _) _⟩
  · obtain ⟨a, b, hd⟩ := drive_keeps (s := s) t.format _ highEdges lowEdges
    exact ⟨a, b, endAtU_keeps (requestReads_keeps (modPlay_keeps hd _ _) _) _⟩
  · exact ⟨_, _, underrun_keeps hz _ _ _⟩

/-- A period of an owning PLAY job keeps all but the driven bits as every operation does. -/
theorem playPeriod_keeps (j highEdges lowEdges : Nat) (job : Job) (p : PlayJob) :
    ∃ high low, Keeps (s.lines high low) (playPeriod j highEdges lowEdges job p s) := by
  have hz : Keeps (s.lines (halfBits highEdges []) (halfBits lowEdges [])) (driveZeros highEdges lowEdges s) :=
    Keeps.refl _
  unfold playPeriod
  split
  · rename_i t _
    split
    · obtain ⟨a, b, hk⟩ := playFrame_keeps (s := modPlay j (fun p => { p with started := true }) s) j highEdges lowEdges
        job p t
      refine ⟨a, b, Keeps.trans ?_ hk⟩
      have hm := modPlay_keeps (Keeps.refl s) j (fun p => { p with started := true })
      obtain ⟨hc, hu, hs⟩ := hm
      exact ⟨by simp_all [SameCore, State.lines], hu, hs⟩
    · exact ⟨_, _, hz⟩
  · exact ⟨_, _, hz⟩

theorem createServe_keeps (h : Keeps s₀ s) (n : AnswerNote) (i : Nat) (e : Entry) (hf : s.jobFree = true) :
    Keeps s₀ (createServe n i e s) :=
  modJob_keeps (holdEntry_keeps (createJob_keeps h _ hf) _ _) _ _

theorem sendRead_keeps (h : Keeps s₀ s) (j i seq : Nat) (outcome : ReadEnd) (block : List Byte) : Keeps s₀ (sendRead j i seq outcome block s) := by
  unfold sendRead
  (repeat' split)
  all_goals
    repeat (first
      | with_reducible exact h
      | with_reducible apply giveData_keeps
      | with_reducible apply recordDamage_keeps
      | with_reducible apply endJob_keeps
      | exact h
      | apply giveData_keeps
      | apply recordDamage_keeps
      | apply endJob_keeps)

/-! ## Placement -/

theorem startAttempt_keeps (h : Keeps s₀ s) (i : Nat) (e : Entry) (hf : s.jobFree = true) :
    Keeps s₀ (startAttempt i e s) := by
  have hc : Keeps s₀ (setPlacement i .inProgress { s with cat.queue := s.cat.queue.tail }) :=
    setPlacement_keeps (s := { s with cat.queue := s.cat.queue.tail }) h _ _
  have hj : (setPlacement i .inProgress { s with cat.queue := s.cat.queue.tail }).jobFree = true := by
    rw [← hf]; unfold setPlacement changeEntry queueEntry modEntry
    split <;> split <;> rfl
  unfold startAttempt
  dsimp only
  split
  · exact giveFrame_keeps (holdEntry_keeps (createJob_keeps hc _ hj) _ _) _ _
  · exact holdEntry_keeps (createJob_keeps hc _ hj) _ _

theorem placementTick_keeps (fuel : Nat) (h : Keeps s₀ s) : Keeps s₀ (placementTick fuel s) := by
  induction fuel generalizing s with
  | zero => exact h
  | succ n ih =>
    unfold placementTick
    split
    · exact h
    · rename_i i nb rest _
      split
      · exact h
      · split
        · exact ih (setPlacement_keeps (s := { s with cat.queue := rest }) h _ _)
        · split
          · rename_i hm
            refine startAttempt_keeps h _ _ ?_
            simp [State.attemptMayStart] at hm
            exact hm.1.1.2
          · exact h

theorem closeWindow_keeps (h : Keeps s₀ s) (j : Nat) : Keeps s₀ (closeWindow j s) := by
  unfold closeWindow
  (try dsimp only)
  (repeat' split)
  all_goals
    repeat (first
      | with_reducible exact h
      | with_reducible apply endJob_keeps
      | with_reducible apply giveFrame_keeps
      | with_reducible apply modReplicate_keeps
      | exact h
      | apply endJob_keeps
      | apply giveFrame_keeps
      | apply modReplicate_keeps)

theorem takeBid_keeps (h : Keeps s₀ s) (j src freeChunks : Nat) : Keeps s₀ (takeBid j src freeChunks s) := by
  unfold takeBid
  (try dsimp only)
  (repeat' split)
  all_goals
    repeat (first
      | with_reducible exact h
      | with_reducible apply modReplicate_keeps
      | with_reducible apply freeChunks_keeps
      | with_reducible apply closeWindow_keeps
      | exact h
      | apply modReplicate_keeps
      | apply freeChunks_keeps
      | apply closeWindow_keeps)

theorem assignSent_keeps (h : Keeps s₀ s) (j : Nat) : Keeps s₀ (assignSent j s) := by
  unfold assignSent
  (try dsimp only)
  (repeat' split)
  all_goals
    repeat (first
      | with_reducible exact h
      | with_reducible apply modReplicate_keeps
      | with_reducible apply modJob_keeps
      | with_reducible apply advanceSender_keeps
      | exact h
      | apply modReplicate_keeps
      | apply modJob_keeps
      | apply advanceSender_keeps)

theorem endIfAnswered_keeps (h : Keeps s₀ s) (j : Nat) : Keeps s₀ (endIfAnswered j s) := by
  unfold endIfAnswered
  (repeat' split)
  all_goals
    repeat (first
      | with_reducible exact h
      | with_reducible apply endJob_keeps
      | exact h
      | apply endJob_keeps)

theorem replicateDoneSent_keeps (h : Keeps s₀ s) (j : Nat) : Keeps s₀ (replicateDoneSent j s) := by
  unfold replicateDoneSent
  all_goals
    repeat (first
      | with_reducible exact h
      | with_reducible apply endIfAnswered_keeps
      | with_reducible apply modReplicate_keeps
      | with_reducible apply modSnd_keeps
      | exact h
      | apply endIfAnswered_keeps
      | apply modReplicate_keeps
      | apply modSnd_keeps)

theorem memberAnswers_keeps (h : Keeps s₀ s) (j src : Nat) (status : MemberStatus) : Keeps s₀ (memberAnswers j src status s) := by
  unfold memberAnswers
  (try dsimp only)
  (repeat' split)
  all_goals
    repeat (first
      | with_reducible exact h
      | with_reducible apply modSnd_keeps
      | with_reducible apply endIfAnswered_keeps
      | with_reducible apply addHolder_keeps
      | exact h
      | apply modSnd_keeps
      | apply endIfAnswered_keeps
      | apply addHolder_keeps)

theorem replicateAbandoned_keeps (h : Keeps s₀ s) (j src : Nat) : Keeps s₀ (replicateAbandoned j src s) := by
  unfold replicateAbandoned
  (repeat' split)
  all_goals
    repeat (first
      | with_reducible exact h
      | with_reducible apply modReplicate_keeps
      | with_reducible apply advanceSender_keeps
      | with_reducible apply leaveMember_keeps
      | with_reducible apply memberAnswers_keeps
      | exact h
      | apply modReplicate_keeps
      | apply advanceSender_keeps
      | apply leaveMember_keeps
      | apply memberAnswers_keeps)

theorem makeBid_keeps (h : Keeps s₀ s) (f : Frame) (storedBlocks : Nat) (format : Format) (copies wanted : Nat)
    (exclusion : List Nat) (hf : s.jobFree = true) : Keeps s₀ (makeBid f storedBlocks format copies wanted exclusion s) := by
  have hc := fun make n m => takePledge_keeps (s := { createJob make s with cat.reserved := n })
    (createJob_keeps h make hf) m
  unfold makeBid
  dsimp only
  split
  · exact addAnswer_keeps (hc _ _ _) _ _ _ _ _ _ (by simp)
  · exact endJob_keeps (hc _ _ _) _ _ _

theorem failReceive_keeps (h : Keeps s₀ s) (j : Nat) (result : Result) (reason : AbandonReason) : Keeps s₀ (failReceive j result reason s) := by
  unfold failReceive
  (repeat' split)
  all_goals
    repeat (first
      | with_reducible exact h
      | with_reducible apply endJob_keeps
      | exact h
      | apply endJob_keeps)

theorem acceptAssign_keeps (h : Keeps s₀ s) (j : Nat) (addresses : List Nat) : Keeps s₀ (acceptAssign j addresses s) := by
  unfold acceptAssign
  (try dsimp only)
  (repeat' split)
  all_goals
    repeat (first
      | with_reducible exact h
      | with_reducible apply failReceive_keeps
      | with_reducible apply takeChunk_keeps
      | with_reducible apply createEntry_keeps
      | with_reducible apply releasePledge_keeps
      | with_reducible apply modReceive_keeps
      | with_reducible apply holdEntry_keeps
      | with_reducible apply modJob_keeps
      | exact h
      | apply failReceive_keeps
      | apply takeChunk_keeps
      | apply createEntry_keeps
      | apply releasePledge_keeps
      | apply modReceive_keeps
      | apply holdEntry_keeps
      | apply modJob_keeps)

theorem receiveAssign_keeps (h : Keeps s₀ s) (j : Nat) (addresses : List Nat) : Keeps s₀ (receiveAssign j addresses s) := by
  unfold receiveAssign
  (repeat' split)
  all_goals
    repeat (first
      | with_reducible exact h
      | with_reducible apply acceptAssign_keeps
      | with_reducible apply endJob_keeps
      | exact h
      | apply acceptAssign_keeps
      | apply endJob_keeps)

theorem receiveAppend_keeps (h : Keeps s₀ s) (j : Nat) (block : List Byte) (f : Receiver → Receiver) : Keeps s₀ (receiveAppend j block f s) := by
  unfold receiveAppend
  all_goals
    repeat (first
      | with_reducible exact h
      | with_reducible apply stepAfterAccept_keeps
      | with_reducible apply modRcv_keeps
      | with_reducible apply modJob_keeps
      | exact h
      | apply stepAfterAccept_keeps
      | apply modRcv_keeps
      | apply modJob_keeps)

theorem receiveAccept_keeps (h : Keeps s₀ s) (j seq : Nat) (damaged : Bool) (block : List Byte) : Keeps s₀ (receiveAccept j seq damaged block s) := by
  unfold receiveAccept
  (repeat' split)
  all_goals
    repeat (first
      | with_reducible exact h
      | with_reducible apply failReceive_keeps
      | with_reducible apply receiveAppend_keeps
      | with_reducible apply changeEntry_keeps
      | exact h
      | apply failReceive_keeps
      | apply receiveAppend_keeps
      | apply changeEntry_keeps)

theorem finishReceive_keeps (h : Keeps s₀ s) (j : Nat) : Keeps s₀ (finishReceive j s) := by
  unfold finishReceive
  (try dsimp only)
  (repeat' split)
  all_goals
    repeat (first
      | with_reducible exact h
      | with_reducible apply changeEntryMarked_keeps
      | with_reducible apply endJob_keeps
      | exact h
      | apply changeEntryMarked_keeps
      | apply endJob_keeps)

theorem receiveDone_keeps (h : Keeps s₀ s) (j total : Nat) (check : Check) : Keeps s₀ (receiveDone j total check s) := by
  unfold receiveDone
  (repeat' split)
  all_goals
    repeat (first
      | with_reducible exact h
      | with_reducible apply failReceive_keeps
      | with_reducible apply finishReceive_keeps
      | with_reducible apply modReceive_keeps
      | with_reducible apply modRcv_keeps
      | exact h
      | apply failReceive_keeps
      | apply finishReceive_keeps
      | apply modReceive_keeps
      | apply modRcv_keeps)

/-! ## Repair -/

theorem repairSeek_keeps (h : Keeps s₀ s) (j : Nat) (e : Entry) : Keeps s₀ (repairSeek j e s) := by
  unfold repairSeek
  (try dsimp only)
  (repeat' split)
  all_goals
    repeat (first
      | with_reducible exact h
      | with_reducible apply drawExchange_keeps
      | with_reducible apply modRepair_keeps
      | with_reducible apply giveFrame_keeps
      | with_reducible apply endJob_keeps
      | exact h
      | apply drawExchange_keeps
      | apply modRepair_keeps
      | apply giveFrame_keeps
      | apply endJob_keeps)

theorem repairGoOn_keeps (h : Keeps s₀ s) (j : Nat) : Keeps s₀ (repairGoOn j s) := by
  unfold repairGoOn
  (repeat' split)
  all_goals
    repeat (first
      | with_reducible exact h
      | with_reducible apply endJob_keeps
      | with_reducible apply repairSeek_keeps
      | exact h
      | apply endJob_keeps
      | apply repairSeek_keeps)

theorem closeScan_keeps (h : Keeps s₀ s) (i : Nat) (r : RepairJob) : Keeps s₀ (closeScan i r s) := by
  unfold closeScan
  (repeat' split)
  all_goals
    repeat (first
      | with_reducible exact h
      | with_reducible apply changeEntryMarked_keeps
      | exact h
      | apply changeEntryMarked_keeps)

theorem verified_keeps (h : Keeps s₀ s) (j : Nat) : Keeps s₀ (verified j s) := by
  unfold verified
  (try dsimp only)
  (repeat' split)
  all_goals
    repeat (first
      | with_reducible exact h
      | with_reducible apply closeScan_keeps
      | with_reducible apply modJob_keeps
      | with_reducible apply modRepair_keeps
      | with_reducible apply repairGoOn_keeps
      | exact h
      | apply closeScan_keeps
      | apply modJob_keeps
      | apply modRepair_keeps
      | apply repairGoOn_keeps)

theorem verify_keeps (h : Keeps s₀ s) (j : Nat) : Keeps s₀ (verify j s) := by
  unfold verify
  (try dsimp only)
  (repeat' split)
  all_goals
    repeat (first
      | with_reducible exact h
      | with_reducible apply verified_keeps
      | with_reducible apply modJob_keeps
      | exact h
      | apply verified_keeps
      | apply modJob_keeps)

theorem repairRead_keeps (h : Keeps s₀ s) (j i seq : Nat) (outcome : ReadEnd) : Keeps s₀ (repairRead j i seq outcome s) := by
  unfold repairRead
  (try dsimp only)
  (repeat' split)
  all_goals
    repeat (first
      | with_reducible exact h
      | with_reducible apply modRepair_keeps
      | with_reducible apply clearDamage_keeps
      | with_reducible apply recordDamage_keeps
      | with_reducible apply verify_keeps
      | exact h
      | apply modRepair_keeps
      | apply clearDamage_keeps
      | apply recordDamage_keeps
      | apply verify_keeps)

theorem createRepair_keeps (h : Keeps s₀ s) (i : Nat) (e : Entry) (hf : s.jobFree = true) :
    Keeps s₀ (createRepair i e s) :=
  verify_keeps (holdEntry_keeps (createJob_keeps h _ hf) _ _) _

theorem finishRepair_keeps (h : Keeps s₀ s) (j : Nat) : Keeps s₀ (finishRepair j s) := by
  unfold finishRepair
  (repeat' split)
  all_goals
    repeat (first
      | with_reducible exact h
      | with_reducible apply endJob_keeps
      | exact h
      | apply endJob_keeps)

theorem stopRepair_keeps (h : Keeps s₀ s) (j : Nat) (result : Result) : Keeps s₀ (stopRepair j result s) := by
  unfold stopRepair
  all_goals
    repeat (first
      | with_reducible exact h
      | with_reducible apply finishRepair_keeps
      | with_reducible apply dropWaitingStep_keeps
      | with_reducible apply modJob_keeps
      | with_reducible apply modRepair_keeps
      | exact h
      | apply finishRepair_keeps
      | apply dropWaitingStep_keeps
      | apply modJob_keeps
      | apply modRepair_keeps)

theorem repairWritten_keeps (h : Keeps s₀ s) (j i seq : Nat) (ok : Bool) : Keeps s₀ (repairWritten j i seq ok s) := by
  unfold repairWritten
  (try dsimp only)
  (repeat' split)
  all_goals
    repeat (first
      | with_reducible exact h
      | with_reducible apply modRepair_keeps
      | with_reducible apply clearDamage_keeps
      | with_reducible apply repairGoOn_keeps
      | with_reducible apply finishRepair_keeps
      | exact h
      | apply modRepair_keeps
      | apply clearDamage_keeps
      | apply repairGoOn_keeps
      | apply finishRepair_keeps)

theorem repairAccept_keeps (h : Keeps s₀ s) (j seq : Nat) (damaged : Bool) (block : List Byte) : Keeps s₀ (repairAccept j seq damaged block s) := by
  unfold repairAccept
  (try dsimp only)
  (repeat' split)
  all_goals
    repeat (first
      | with_reducible exact h
      | with_reducible apply modJob_keeps
      | with_reducible apply stepAfterAccept_keeps
      | with_reducible apply modRcv_keeps
      | with_reducible apply finishRepair_keeps
      | with_reducible apply modRepair_keeps
      | exact h
      | apply modJob_keeps
      | apply stepAfterAccept_keeps
      | apply modRcv_keeps
      | apply finishRepair_keeps
      | apply modRepair_keeps)

end Sys2Proof.Machine
end

