-- ==== Sys2Proof/Laws/KeepsMedia.lean ====
section
/-! SUPPORT. What start-up's operations, the media arbiter and the end of a media operation keep; the store. -/

namespace Sys2Proof.Machine

variable {s₀ s : State}


/-- Before start-up completes, SUL's phase and the sequence counter may change. -/
theorem Keeps.loading (h : Keeps s₀ s) (hp : s.sul.phase ≠ .complete) (p : SulPhase) (n : Nat) (b : Bool) :
    Keeps s₀ { s with cat.counter := n, sul.phase := p, sul.prepared := b } :=
  h.trans ⟨by simp [SameCore], by simp [Upward, hp], id⟩

/-- Before start-up completes, SUL's phase may change. -/
theorem Keeps.phase (h : Keeps s₀ s) (hp : s.sul.phase ≠ .complete) (p : SulPhase) :
    Keeps s₀ { s with sul.phase := p } :=
  h.trans ⟨by simp [SameCore], by simp [Upward, hp], id⟩

theorem foldl_keeps {α : Type} (f : State → α → State) (hf : ∀ {t : State} (x : α), Keeps s₀ t → Keeps s₀ (f t x))
    (l : List α) (h : Keeps s₀ s) : Keeps s₀ (l.foldl f s) := by
  induction l generalizing s with
  | nil => exact h
  | cons x t ih => exact ih (hf x h)

/-- What a settling of the map leaves is in canonical form. -/
theorem smapRising_filterMap {α β : Type} {m : SMap α} (f : Nat × α → Option (Nat × β))
    (hf : ∀ p q, f p = some q → q.1 = p.1) (h : smapRising m = true) : smapRising (m.filterMap f) = true := by
  rw [smapRising_iff] at h ⊢
  rw [List.pairwise_filterMap]
  refine h.imp fun {a b} hab x hx y hy => ?_
  rw [hf _ _ hx, hf _ _ hy]; exact hab

theorem walkAll_rising (m : SMap Chunk) (total : Nat) {l : SMap Entry} (reached : List Nat) (h : smapRising l = true) :
    smapRising (walkAll m total l reached) = true ∧ ∀ p ∈ walkAll m total l reached, ∃ q ∈ l, q.1 = p.1 := by
  induction l generalizing reached with
  | nil => simp [walkAll, smapRising]
  | cons p rest ih =>
    obtain ⟨i, e⟩ := p
    have hr := smapRising_tail h
    unfold walkAll
    split
    · obtain ⟨h1, h2⟩ := ih reached hr
      exact ⟨h1, fun p hp => let ⟨q, hq, he⟩ := h2 p hp; ⟨q, List.mem_cons_of_mem _ hq, he⟩⟩
    · dsimp only
      generalize walkEntry m total i _ reached = w
      obtain ⟨h1, h2⟩ := ih w.2 hr
      refine ⟨?_, ?_⟩
      · rw [smapRising_iff] at h h1 ⊢
        refine List.pairwise_cons.2 ⟨fun q hq => ?_, h1⟩
        obtain ⟨x, hx, he⟩ := h2 q hq
        rw [← he]
        exact (List.pairwise_cons.1 h).1 x hx
      · intro p hp
        rcases List.mem_cons.1 hp with rfl | hp
        · exact ⟨_, List.mem_cons_self, rfl⟩
        · obtain ⟨q, hq, he⟩ := h2 p hp
          exact ⟨q, List.mem_cons_of_mem _ hq, he⟩

/-- Reconciliation leaves both tables in canonical form (R188). -/
theorem reconciled_rising (m : SMap Chunk) (total : Nat) (entries : SMap Entry) (hm : smapRising m = true)
    (he : smapRising entries = true) :
    smapRising (reconciled m total entries).entries = true ∧ smapRising (reconciled m total entries).chunks = true := by
  unfold reconciled
  dsimp only
  constructor
  · refine smapRising_map _ ?_ ?_
    · intro p; rfl
    refine smapRising_filterMap _ ?_ (walkAll_rising m total [] he).1
    intro p q hq
    simp only [Option.map_eq_some_iff] at hq
    obtain ⟨_, _, rfl⟩ := hq
    rfl
  · refine smapRising_sublist List.filter_sublist (smapRising_map _ ?_ hm)
    intro p; rfl

/-! ## StartUp -/

theorem loadChunk_keeps (h : Keeps s₀ s) (total number : Nat) (b : List Byte) : Keeps s₀ (loadChunk total number b s) := by
  unfold loadChunk
  split
  · exact setFault_keeps (h.chunks _ (smapRising_chunkMapSet _ _))
  · exact h.chunks _ (smapRising_chunkMapSet _ _)

theorem loadMap_keeps (h : Keeps s₀ s) (p : List Byte) (block : Nat) : Keeps s₀ (loadMap p block s) :=
  foldl_keeps _ (fun _ ht => loadChunk_keeps ht _ _ _) _ h

theorem loseMap_keeps (h : Keeps s₀ s) (block : Nat) : Keeps s₀ (loseMap block s) := by
  refine setFault_keeps (foldl_keeps _ (fun k ht => ?_) _ h)
  dsimp only
  split
  · exact ht
  · exact ht.chunks _ (smapRising_chunkMapSet _ _)

theorem loadRecord_keeps (h : Keeps s₀ s) (i : Nat) (p : List Byte) : Keeps s₀ (loadRecord i p s) := by
  unfold loadRecord
  split
  · exact h
  · exact h.entries _ (smapRising_smapSet _ _)
  · exact setFault_keeps h

theorem reconcile_keeps (h : Keeps s₀ s) (hp : s.sul.phase ≠ .complete) : Keeps s₀ (reconcile s) := by
  refine h.trans ⟨by simp [SameCore, reconcile], ?_, ?_⟩
  · refine ⟨fun hc => absurd hc hp, id, fun hf => ?_⟩
    simp [reconcile, hf]
  · rintro ⟨hj, ⟨he, hm, hs⟩, hr⟩
    have := reconciled_rising s.med.chunks s.med.total s.cat.entries hm he
    exact ⟨hj, ⟨this.1, this.2, hs⟩, hr⟩

theorem completeStartUp_keeps (h : Keeps s₀ s) : Keeps s₀ (completeStartUp s) := by
  refine h.trans (raise_keeps (followConditions_keeps (setMark_keeps ⟨by simp [SameCore], by simp [Upward], ?_⟩)) _)
  rintro ⟨hj, ht, _, hc, hr⟩
  exact ⟨hj, ht, by simp [portOk], hc, hr⟩

theorem sulAdvance_keeps (h : Keeps s₀ s) : Keeps s₀ (sulAdvance s) := by
  unfold sulAdvance
  split
  · split
    · exact h
    · exact h.phase (by simp [*]) _
  · split
    · exact h
    · exact reconcile_keeps h (by simp [*])
  · split
    · exact h
    · exact reconcile_keeps h (by simp [*])
  · exact h

theorem sulSettle_keeps (h : Keeps s₀ s) : Keeps s₀ (sulSettle s) := by
  unfold sulSettle
  dsimp only
  split
  · exact completeStartUp_keeps (sulAdvance_keeps h)
  · exact sulAdvance_keeps h

theorem sulReadDone_keeps (h : Keeps s₀ s) (ok : Bool) (block : List Byte) : Keeps s₀ (sulReadDone ok block s) := by
  unfold sulReadDone
  dsimp only
  refine sulSettle_keeps ?_
  split
  · rename_i hp
    split
    · exact setFault_keeps (h.loading (by simp [hp]) _ _ s.sul.prepared)
    · split
      · exact h.loading (by simp [hp]) _ _ s.sul.prepared
      · exact h.loading (by simp [hp]) _ _ _
  · rename_i i hp
    have hq : (if ok = true then loadRecord i (blockPayload block) s else setFault s).sul = s.sul := by
      split
      · unfold loadRecord; split <;> rfl
      · rfl
    refine Keeps.phase ?_ (by rw [hq, hp]; simp) _
    split
    · exact loadRecord_keeps h _ _
    · exact setFault_keeps h
  · rename_i b hp
    have hc : ∀ (l : List Nat) (f : State → Nat → State) (_ : ∀ t k, (f t k).sul = t.sul) (t : State),
        (l.foldl f t).sul = t.sul := by
      intro l f hf
      induction l with
      | nil => intro t; rfl
      | cons x u ih => intro t; rw [List.foldl_cons, ih, hf]
    have hq : (if ok = true then loadMap (blockPayload block) b s else loseMap b s).sul = s.sul := by
      split
      · refine hc _ _ (fun t k => ?_) s
        unfold loadChunk
        split <;> rfl
      · refine hc _ _ (fun t k => ?_) s
        split <;> rfl
    refine Keeps.phase ?_ (by rw [hq, hp]; simp) _
    split
    · exact loadMap_keeps h _ _
    · exact loseMap_keeps h _
  · exact h

theorem sulWriteDone_keeps (h : Keeps s₀ s) (ok : Bool) : Keeps s₀ (sulWriteDone ok s) := by
  unfold sulWriteDone
  refine sulSettle_keeps ?_
  split
  · rename_i hp
    split
    · exact h.phase (by simp [hp]) _
    · split
      · exact setFault_keeps (h.phase (by simp [hp]) _)
      · exact h.phase (by simp [hp]) _
  · rename_i i rest faults hp
    split
    · exact h.phase (by simp [hp]) _
    · split
      · refine Keeps.phase (recordDamage_keeps h _ _ _) ?_ _
        have : (recordDamage i 0 none s).sul = s.sul := by
          unfold recordDamage
          split
          · split
            · rfl
            · unfold raise changeEntryMarked changeEntry queueEntry modEntry setMark
              dsimp only
              repeat' split
              all_goals rfl
          · rfl
        rw [this, hp]; simp
      · exact h.phase (by simp [hp]) _
  · exact h

/-! ## Media -/

theorem takeRequest_keeps (h : Keeps s₀ s) (r : Requester) : Keeps s₀ (takeRequest r s) := by
  unfold takeRequest
  (try dsimp only)
  (repeat' split)
  all_goals
    repeat (first
      | with_reducible exact h
      | with_reducible apply modCapture_keeps
      | with_reducible apply modJob_keeps
      | exact h
      | apply modCapture_keeps
      | apply modJob_keeps)

theorem spendPledge_keeps (h : Keeps s₀ s) (j : Nat) : Keeps s₀ (spendPledge j s) := by
  unfold spendPledge
  (repeat' split)
  all_goals
    repeat (first
      | with_reducible exact h
      | with_reducible apply releasePledge_keeps
      | with_reducible apply modReceive_keeps
      | exact h
      | apply releasePledge_keeps
      | apply modReceive_keeps)

theorem placeAppend_keeps (h : Keeps s₀ s) (j i : Nat) (e : Entry) : Keeps s₀ (placeAppend j i e s).2 := by
  have hs : ∀ t, (if s.lastIsFull e then
      match s.appendSource j with
      | some c => some (spendPledge j (appendChunk i c s))
      | none => none
    else some s) = some t → Keeps s₀ t := by
    intro t ht
    split at ht
    · split at ht
      · cases ht; exact spendPledge_keeps (appendChunk_keeps h _ _) _
      · cases ht
    · cases ht; exact h
  unfold placeAppend
  dsimp only
  split
  · rename_i t ht
    split
    · exact hs t ht
    · exact h
  · exact h

theorem notPresent_keeps (h : Keeps s₀ s) (j i : Nat) (req : JobReq) : Keeps s₀ (notPresent j i req s) := by
  unfold notPresent
  (repeat' split)
  all_goals
    repeat (first
      | with_reducible exact h
      | with_reducible apply playRead_keeps
      | with_reducible apply repairRead_keeps
      | with_reducible apply repairWritten_keeps
      | with_reducible apply captureWritten_keeps
      | with_reducible apply sendRead_keeps
      | exact h
      | apply playRead_keeps
      | apply repairRead_keeps
      | apply repairWritten_keeps
      | apply captureWritten_keeps
      | apply sendRead_keeps)

theorem appendFull_keeps (h : Keeps s₀ s) (j : Nat) (req : JobReq) : Keeps s₀ (appendFull j req s) := by
  unfold appendFull
  (repeat' split)
  all_goals
    repeat (first
      | with_reducible exact h
      | with_reducible apply soundFull_keeps
      | with_reducible apply failReceive_keeps
      | exact h
      | apply soundFull_keeps
      | apply failReceive_keeps)

theorem issueOp_keeps (h : Keeps s₀ s) (op : Issued) : Keeps s₀ (issueOp op s) := by
  unfold issueOp
  (try dsimp only)
  all_goals
    repeat (first
      | with_reducible exact h
      | exact h)

theorem issueAppend_keeps (h : Keeps s₀ s) (j i : Nat) (e : Entry) (req : JobReq) (block : Nat → List Byte) :
    Keeps s₀ (issueAppend j i e req block s) := by
  unfold issueAppend
  dsimp only
  split
  · exact placeAppend_keeps h j i e
  · exact appendFull_keeps h _ _

theorem issueAt_keeps (h : Keeps s₀ s) (j i : Nat) (e : Entry) (req : JobReq) (write : Bool) (seq : Nat) (data : List Byte) : Keeps s₀ (issueAt j i e req write seq data s) := by
  unfold issueAt
  (repeat' split)
  all_goals
    repeat (first
      | with_reducible exact h
      | with_reducible apply issueOp_keeps
      | with_reducible apply notPresent_keeps
      | exact h
      | apply issueOp_keeps
      | apply notPresent_keeps)

theorem issueJob_keeps (h : Keeps s₀ s) (j : Nat) (req : JobReq) : Keeps s₀ (issueJob j req s) := by
  unfold issueJob
  (repeat' split)
  all_goals
    repeat (first
      | with_reducible exact h
      | with_reducible apply issueAt_keeps
      | with_reducible apply issueAppend_keeps
      | exact h
      | apply issueAt_keeps
      | apply issueAppend_keeps)

theorem issueWt_keeps (h : Keeps s₀ s) (w : WtItem) (faults : Nat) : Keeps s₀ (issueWt w faults s) := by
  unfold issueWt
  (try dsimp only)
  (repeat' split)
  all_goals
    repeat (first
      | with_reducible exact h
      | with_reducible apply issueOp_keeps
      | with_reducible apply respond_keeps
      | exact h
      | apply issueOp_keeps
      | apply respond_keeps)

theorem issueSul_keeps (h : Keeps s₀ s) (op : SulOp) : Keeps s₀ (issueSul op s) := by
  unfold issueSul
  (repeat' split)
  all_goals
    repeat (first
      | with_reducible exact h
      | with_reducible apply issueOp_keeps
      | with_reducible apply sulWriteDone_keeps
      | exact h
      | apply issueOp_keeps
      | apply sulWriteDone_keeps)

theorem issue_keeps (h : Keeps s₀ s) (r : Requester) : Keeps s₀ (issue r s) := by
  unfold issue
  (try dsimp only)
  (repeat' split)
  all_goals
    repeat (first
      | with_reducible exact h
      | with_reducible apply takeRequest_keeps
      | with_reducible apply issueJob_keeps
      | with_reducible apply issueWt_keeps
      | with_reducible apply issueOp_keeps
      | with_reducible apply issueSul_keeps
      | exact h
      | apply takeRequest_keeps
      | apply issueJob_keeps
      | apply issueWt_keeps
      | apply issueOp_keeps
      | apply issueSul_keeps)

theorem arbitrate_keeps (fuel : Nat) (h : Keeps s₀ s) : Keeps s₀ (arbitrate fuel s) := by
  induction fuel generalizing s with
  | zero => exact h
  | succ n ih =>
    unfold arbitrate
    split
    · split
      · exact ih (issue_keeps h _)
      · exact h
    · exact h

/-- What follows a command keeps what the command has left (R38, R45, R172, R174). -/
theorem settle_keeps (h : Keeps s₀ s) : Keeps s₀ (settle s) :=
  dozeIfDrained_keeps (followConditions_keeps (arbitrate_keeps _ (wakeForWork_keeps h)))

theorem readEnded_keeps (h : Keeps s₀ s) (op : Issued) (outcome : ReadEnd) (block : List Byte) : Keeps s₀ (readEnded op outcome block s) := by
  unfold readEnded
  (repeat' split)
  all_goals
    repeat (first
      | with_reducible exact h
      | with_reducible apply sulReadDone_keeps
      | with_reducible apply playRead_keeps
      | with_reducible apply repairRead_keeps
      | with_reducible apply sendRead_keeps
      | exact h
      | apply sulReadDone_keeps
      | apply playRead_keeps
      | apply repairRead_keeps
      | apply sendRead_keeps)

theorem wtWritten_keeps (h : Keeps s₀ s) (w : WtItem) : Keeps s₀ (wtWritten w s) := by
  unfold wtWritten
  (try dsimp only)
  (repeat' split)
  all_goals
    repeat (first
      | with_reducible exact h
      | with_reducible apply respond_keeps
      | with_reducible apply changeEntry_keeps
      | exact h
      | apply respond_keeps
      | apply changeEntry_keeps)

theorem catalogueFault_keeps (h : Keeps s₀ s)  : Keeps s₀ (catalogueFault s) := by
  unfold catalogueFault
  (try dsimp only)
  (repeat' split)
  all_goals
    repeat (first
      | with_reducible exact h
      | with_reducible apply setFault_keeps
      | with_reducible apply abortCapture_keeps
      | with_reducible apply respond_keeps
      | exact h
      | apply setFault_keeps
      | apply abortCapture_keeps
      | apply respond_keeps)

theorem wtFaulted_keeps (h : Keeps s₀ s) (w : WtItem) (faults : Nat) : Keeps s₀ (wtFaulted w faults s) := by
  unfold wtFaulted
  (try dsimp only)
  (repeat' split)
  all_goals
    repeat (first
      | with_reducible exact h
      | with_reducible apply respond_keeps
      | with_reducible apply catalogueFault_keeps
      | exact h
      | apply respond_keeps
      | apply catalogueFault_keeps)

theorem mapFaulted_keeps (h : Keeps s₀ s) (b faults : Nat) : Keeps s₀ (mapFaulted b faults s) := by
  unfold mapFaulted
  (try dsimp only)
  (repeat' split)
  all_goals
    repeat (first
      | with_reducible exact h
      | with_reducible apply catalogueFault_keeps
      | exact h
      | apply catalogueFault_keeps)

theorem countAppend_keeps (h : Keeps s₀ s) (op : Issued) (ok : Bool) : Keeps s₀ (countAppend op ok s) := by
  unfold countAppend
  (try dsimp only)
  (repeat' split)
  all_goals
    repeat (first
      | with_reducible exact h
      | with_reducible apply setUsed_keeps
      | exact h
      | apply setUsed_keeps)

theorem jobWritten_keeps (h : Keeps s₀ s) (j : Nat) (req : JobReq) (ok turned : Bool) (op : Issued) : Keeps s₀ (jobWritten j req ok turned op s) := by
  unfold jobWritten
  (repeat' split)
  all_goals
    repeat (first
      | with_reducible exact h
      | with_reducible apply captureWritten_keeps
      | with_reducible apply finishReceive_keeps
      | with_reducible apply modJob_keeps
      | with_reducible apply repairWritten_keeps
      | exact h
      | apply captureWritten_keeps
      | apply finishReceive_keeps
      | apply modJob_keeps
      | apply repairWritten_keeps)

theorem writeEnded_keeps (h : Keeps s₀ s) (op : Issued) (ok turned : Bool) : Keeps s₀ (writeEnded op ok turned s) := by
  unfold writeEnded
  (repeat' split)
  all_goals
    repeat (first
      | with_reducible exact h
      | with_reducible apply sulWriteDone_keeps
      | with_reducible apply wtWritten_keeps
      | with_reducible apply wtFaulted_keeps
      | with_reducible apply mapFaulted_keeps
      | with_reducible apply jobWritten_keeps
      | exact h
      | apply sulWriteDone_keeps
      | apply wtWritten_keeps
      | apply wtFaulted_keeps
      | apply mapFaulted_keeps
      | apply jobWritten_keeps)

theorem markFault_keeps (h : Keeps s₀ s) (op : Issued) (ok : Bool) : Keeps s₀ (markFault op ok s) := by
  unfold markFault
  (repeat' split)
  all_goals
    repeat (first
      | with_reducible exact h
      | with_reducible apply markBad_keeps
      | exact h
      | apply markBad_keeps)

theorem finishRead_keeps (h : Keeps s₀ s) (op : Issued) (ok : Bool) (block : List Byte) :
    Keeps s₀ (finishRead op ok block s) :=
  settle_keeps (readEnded_keeps (s := { s with med.issued := none }) h _ _ _)

end Sys2Proof.Machine
end

