-- ==== Sys2Proof/Laws/KeepsRows.lean ====
section
/-! SUPPORT. What the operations of the rows keep: reports of frames sent, frames heard, timers, commands. -/

namespace Sys2Proof.Machine

variable {s₀ s : State}


/-- The link counters set to 0 on both sides (R83, R190). -/
theorem Keeps.clearLink {a b : State} (h : Keeps a b) :
    Keeps { a with lif.errors := 0, lif.collisions := 0 } { b with lif.errors := 0, lif.collisions := 0 } := by
  obtain ⟨hc, hu, hs⟩ := h
  refine ⟨?_, hu, hs⟩
  simp_all [SameCore]

/-- The sequence counter raised on both sides (R5). -/
theorem Keeps.nextSequence (s : State) (h : Keeps s₀ s) : Keeps { s₀ with cat.counter := s.cat.counter + 1 }
    { s with cat.counter := s.cat.counter + 1 } := by
  obtain ⟨hc, hu, hs⟩ := h
  exact ⟨hc, ⟨fun hp => ⟨(hu.1 hp).1, rfl⟩, hu.2⟩, hs⟩

/-! ## Reports -/

theorem grantReportedSent_keeps (h : Keeps s₀ s) (j : Nat) : Keeps s₀ (grantReportedSent j s) := by
  unfold grantReportedSent
  (repeat' split)
  all_goals
    repeat (first
      | with_reducible exact h
      | with_reducible apply modPlay_keeps
      | with_reducible apply modJob_keeps
      | with_reducible apply modRepair_keeps
      | exact h
      | apply modPlay_keeps
      | apply modJob_keeps
      | apply modRepair_keeps)

theorem seekReportedSent_keeps (h : Keeps s₀ s) (j : Nat) : Keeps s₀ (seekReportedSent j s) := by
  unfold seekReportedSent
  (repeat' split)
  all_goals
    repeat (first
      | with_reducible exact h
      | with_reducible apply modPlay_keeps
      | with_reducible apply modRepair_keeps
      | exact h
      | apply modPlay_keeps
      | apply modRepair_keeps)

theorem doneReportedSent_keeps (h : Keeps s₀ s) (j : Nat) : Keeps s₀ (doneReportedSent j s) := by
  unfold doneReportedSent
  (repeat' split)
  all_goals
    repeat (first
      | with_reducible exact h
      | with_reducible apply replicateDoneSent_keeps
      | with_reducible apply endJob_keeps
      | exact h
      | apply replicateDoneSent_keeps
      | apply endJob_keeps)

theorem reportSent_keeps (h : Keeps s₀ s) (j : Nat) (f : Frame) : Keeps s₀ (reportSent j f s) := by
  unfold reportSent
  (repeat' split)
  all_goals
    repeat (first
      | with_reducible exact h
      | with_reducible apply modReplicate_keeps
      | with_reducible apply assignSent_keeps
      | with_reducible apply doneReportedSent_keeps
      | with_reducible apply seekReportedSent_keeps
      | with_reducible apply grantReportedSent_keeps
      | with_reducible apply modReceive_keeps
      | exact h
      | apply modReplicate_keeps
      | apply assignSent_keeps
      | apply doneReportedSent_keeps
      | apply seekReportedSent_keeps
      | apply grantReportedSent_keeps
      | apply modReceive_keeps)

theorem reportDropped_keeps (h : Keeps s₀ s) (j : Nat) (f : Frame) : Keeps s₀ (reportDropped j f s) := by
  unfold reportDropped
  (repeat' split)
  all_goals
    repeat (first
      | with_reducible exact h
      | with_reducible apply pendPlay_keeps
      | with_reducible apply endJob_keeps
      | with_reducible apply stopRepair_keeps
      | exact h
      | apply pendPlay_keeps
      | apply endJob_keeps
      | apply stopRepair_keeps)

theorem reportTo_keeps (h : Keeps s₀ s) (owner : Option Nat) (report : Nat → State → State)
    (hr : ∀ j, Keeps s₀ (report j s)) : Keeps s₀ (reportTo owner report s) := by
  unfold reportTo
  split
  · exact hr _
  · exact h

theorem dropAnswer_keeps (h : Keeps s₀ s) (order : Nat) : Keeps s₀ (dropAnswer order s) :=
  h.answers _ (havesOk_sub List.filter_sublist)

theorem frameGone_keeps (h : Keeps s₀ s) (x : Sending) : Keeps s₀ (frameGone x s) := by
  unfold frameGone
  split
  · exact reportTo_keeps (dropAnswer_keeps h _) _ _ fun j => reportSent_keeps (dropAnswer_keeps h _) _ _
  · exact reportTo_keeps (txPop_keeps h) _ _ fun j => reportSent_keeps (txPop_keeps h) _ _
  · exact h

theorem afterFrame_keeps (h : Keeps s₀ s)  : Keeps s₀ (afterFrame s) := by
  unfold afterFrame
  (try dsimp only)
  (repeat' split)
  all_goals
    repeat (first
      | with_reducible exact h
      | with_reducible apply endBurst_keeps
      | exact h
      | apply endBurst_keeps)

/-! ## FrameRows -/

theorem cancelHaves_keeps (h : Keeps s₀ s) (requester : Nat) (f : Frame) : Keeps s₀ (cancelHaves requester f s) := by
  unfold cancelHaves
  all_goals
    repeat (first
      | with_reducible exact h
      | with_reducible apply removeAnswers_keeps
      | exact h
      | apply removeAnswers_keeps)

theorem cancelBid_keeps (h : Keeps s₀ s) (r : HoldRec) : Keeps s₀ (cancelBid r s) := by
  unfold cancelBid
  (try dsimp only)
  (repeat' split)
  all_goals
    repeat (first
      | with_reducible exact h
      | with_reducible apply removeAnswers_keeps
      | with_reducible apply endJob_keeps
      | exact h
      | apply removeAnswers_keeps
      | apply endJob_keeps)

theorem modBids_keeps (h : Keeps s₀ s) (opener : Nat) (f : Frame) (g : BidCount → BidCount) :
    Keeps s₀ (modBids opener f g s) := by
  refine h.answers _ (havesOk_map _ fun r => ?_)
  split
  · simp [HoldRec.isHave]
  · rfl

theorem houBid_keeps (h : Keeps s₀ s) (f : Frame) : Keeps s₀ (houBid f s) := by
  unfold houBid
  (try dsimp only)
  (repeat' split)
  all_goals
    repeat (first
      | with_reducible exact h
      | with_reducible apply modBids_keeps
      | with_reducible apply cancelBid_keeps
      | exact h
      | apply modBids_keeps
      | apply cancelBid_keeps)

theorem houAssign_keeps (h : Keeps s₀ s) (f : Frame) : Keeps s₀ (houAssign f s) := by
  unfold houAssign
  (repeat' split)
  all_goals
    repeat (first
      | with_reducible exact h
      | with_reducible apply cancelBid_keeps
      | exact h
      | apply cancelBid_keeps)

theorem houAbandon_keeps (h : Keeps s₀ s) (f : Frame) : Keeps s₀ (houAbandon f s) := by
  unfold houAbandon
  (repeat' split)
  all_goals
    repeat (first
      | with_reducible exact h
      | with_reducible apply modBids_keeps
      | exact h
      | apply modBids_keeps)

theorem keepNote_keeps (h : Keeps s₀ s) (n : AnswerNote) (hn : s.notes.length < 6) : Keeps s₀ (keepNote n s) := by
  refine h.notes _ fun _ => ?_
  have := List.length_filter_le (fun x => !x.of n.requester n.tag n.take) s.notes
  simp only [notesOk, List.length_append, List.length_singleton]
  omega

theorem answerSeek_keeps (h : Keeps s₀ s) (f : Frame) (e : Entry) (purpose : Purpose) (start frames first count : Nat)
    (hn : s.notes.length < 6) : Keeps s₀ (answerSeek f e purpose start frames first count s) := by
  have hw : (wake (reload s)).notes = s.notes := by
    unfold wake reload
    repeat' split
    all_goals rfl
  unfold answerSeek
  dsimp only
  split
  · rename_i ht
    refine addAnswer_keeps ?_ _ _ _ _ _ _ fun _ => ?_
    · exact keepNote_keeps (wake_keeps (reload_keeps h)) _ (by rw [hw]; exact hn)
    · simp [State.houTakes] at ht
      exact ht.2
  · exact wake_keeps (reload_keeps h)

theorem useSeek_keeps (h : Keeps s₀ s) (f : Frame) : Keeps s₀ (useSeek f s) := by
  unfold useSeek
  split
  · split
    · split
      · rename_i hm
        refine answerSeek_keeps h _ _ _ _ _ _ _ ?_
        simp [State.holderMay] at hm
        exact hm.1.2
      · exact h
    · exact h
  · exact h

theorem playHave_keeps (h : Keeps s₀ s) (j src storedBlocks : Nat) : Keeps s₀ (playHave j src storedBlocks s) := by
  unfold playHave
  (repeat' split)
  all_goals
    repeat (first
      | with_reducible exact h
      | with_reducible apply giveGrant_keeps
      | with_reducible apply modPlay_keeps
      | exact h
      | apply giveGrant_keeps
      | apply modPlay_keeps)

theorem repairHave_keeps (h : Keeps s₀ s) (j src storedBlocks : Nat) (check : Check) : Keeps s₀ (repairHave j src storedBlocks check s) := by
  unfold repairHave
  (repeat' split)
  all_goals
    repeat (first
      | with_reducible exact h
      | with_reducible apply giveGrant_keeps
      | with_reducible apply modRepair_keeps
      | exact h
      | apply giveGrant_keeps
      | apply modRepair_keeps)

theorem useHave_keeps (h : Keeps s₀ s) (f : Frame) : Keeps s₀ (useHave f s) := by
  unfold useHave
  (try dsimp only)
  (repeat' split)
  all_goals
    repeat (first
      | with_reducible exact h
      | with_reducible apply learnHolder_keeps
      | with_reducible apply playHave_keeps
      | with_reducible apply repairHave_keeps
      | with_reducible apply cancelHaves_keeps
      | exact h
      | apply learnHolder_keeps
      | apply playHave_keeps
      | apply repairHave_keeps
      | apply cancelHaves_keeps)

theorem serveIfFree_keeps (h : Keeps s₀ s) (n : AnswerNote) : Keeps s₀ (serveIfFree n s) := by
  unfold serveIfFree
  split
  · split
    · rename_i hm
      exact createServe_keeps h _ _ _ (by simp at hm; exact hm.2)
    · exact h
  · exact h

theorem useGrant_keeps (h : Keeps s₀ s) (f : Frame) : Keeps s₀ (useGrant f s) := by
  unfold useGrant
  split
  · split
    · dsimp only
      split
      · have hn : ∀ n, Keeps s₀ { cancelHaves f.src f s with
            notes := (cancelHaves f.src f s).notes.filter (fun x => x ≠ n) } := fun n =>
          Keeps.notes (cancelHaves_keeps h f.src f) _ fun hl => Nat.le_trans (List.length_filter_le _ _) hl
        split
        · exact serveIfFree_keeps (hn _) _
        · exact hn _
      · exact cancelHaves_keeps h _ _
    · exact h
  · exact h

theorem usePlace_keeps (h : Keeps s₀ s) (f : Frame) : Keeps s₀ (usePlace f s) := by
  unfold usePlace
  split
  · split
    · rename_i hm
      refine makeBid_keeps (reload_keeps h) _ _ _ _ _ _ ?_
      have : (reload s).jobFree = s.jobFree := by unfold reload; split <;> rfl
      rw [this]
      simp [State.bidderPasses] at hm
      exact hm.1.1.1.2
    · exact h
  · exact h

theorem useBid_keeps (h : Keeps s₀ s) (f : Frame) : Keeps s₀ (useBid f s) := by
  unfold useBid
  (repeat' split)
  all_goals
    repeat (first
      | with_reducible exact h
      | with_reducible apply freeChunks_keeps
      | with_reducible apply houBid_keeps
      | with_reducible apply takeBid_keeps
      | exact h
      | apply freeChunks_keeps
      | apply houBid_keeps
      | apply takeBid_keeps)

theorem useAssign_keeps (h : Keeps s₀ s) (f : Frame) : Keeps s₀ (useAssign f s) := by
  unfold useAssign
  (repeat' split)
  all_goals
    repeat (first
      | with_reducible exact h
      | with_reducible apply houAssign_keeps
      | with_reducible apply receiveAssign_keeps
      | exact h
      | apply houAssign_keeps
      | apply receiveAssign_keeps)

theorem receiveData_keeps (h : Keeps s₀ s) (j seq : Nat) (damaged : Bool) (block : List Byte) (accept : State → State)
    (ha : Keeps s₀ (accept s)) : Keeps s₀ (receiveData j seq damaged block accept s) := by
  unfold receiveData
  split
  · split
    · exact ha
    · exact discardData_keeps h _ _
    · exact discardData_keeps h _ _
  · exact h

theorem touchOwed_keeps (h : Keeps s₀ s) (j : Nat) : Keeps s₀ (touchOwed j s) := by
  unfold touchOwed
  all_goals
    repeat (first
      | with_reducible exact h
      | with_reducible apply modRcv_keeps
      | exact h
      | apply modRcv_keeps)

theorem playData_keeps (h : Keeps s₀ s) (j seq : Nat) (damaged : Bool) (block : List Byte) :
    Keeps s₀ (playData j seq damaged block s) :=
  have ht := touchOwed_keeps (modPlay_keeps h _ _) _
  receiveData_keeps ht _ _ _ _ _ (playAccept_keeps ht _ _ _ _)

theorem repairData_keeps (h : Keeps s₀ s) (j seq : Nat) (damaged : Bool) (block : List Byte) :
    Keeps s₀ (repairData j seq damaged block s) :=
  have ht := touchOwed_keeps (modRepair_keeps h _ _) _
  receiveData_keeps ht _ _ _ _ _ (repairAccept_keeps ht _ _ _ _)

theorem copyData_keeps (h : Keeps s₀ s) (j seq : Nat) (damaged : Bool) (block : List Byte) (r : ReceiveJob) :
    Keeps s₀ (copyData j seq damaged block r s) :=
  have ht := modRcv_keeps h _ _
  receiveData_keeps ht _ _ _ _ _ (receiveAccept_keeps ht _ _ _ _)

theorem useData_keeps (h : Keeps s₀ s) (f : Frame) : Keeps s₀ (useData f s) := by
  unfold useData
  (repeat' split)
  all_goals
    repeat (first
      | with_reducible exact h
      | with_reducible apply playData_keeps
      | with_reducible apply repairData_keeps
      | with_reducible apply copyData_keeps
      | exact h
      | apply playData_keeps
      | apply repairData_keeps
      | apply copyData_keeps)

theorem useStep_keeps (h : Keeps s₀ s) (f : Frame) : Keeps s₀ (useStep f s) := by
  unfold useStep
  (repeat' split)
  all_goals
    repeat (first
      | with_reducible exact h
      | with_reducible apply senderStep_keeps
      | exact h
      | apply senderStep_keeps)

theorem touchRunning_keeps (h : Keeps s₀ s) (j : Nat) : Keeps s₀ (touchRunning j s) := by
  unfold touchRunning
  all_goals
    repeat (first
      | with_reducible exact h
      | with_reducible apply modRcv_keeps
      | exact h
      | apply modRcv_keeps)

theorem useDone_keeps (h : Keeps s₀ s) (f : Frame) : Keeps s₀ (useDone f s) := by
  unfold useDone
  (try dsimp only)
  (repeat' split)
  all_goals
    repeat (first
      | with_reducible exact h
      | with_reducible apply learnHolder_keeps
      | with_reducible apply receiveDone_keeps
      | with_reducible apply touchRunning_keeps
      | exact h
      | apply learnHolder_keeps
      | apply receiveDone_keeps
      | apply touchRunning_keeps)

theorem placementNotice_keeps (h : Keeps s₀ s) (f : Frame) (status : MemberStatus) : Keeps s₀ (placementNotice f status s) := by
  unfold placementNotice
  (repeat' split)
  all_goals
    repeat (first
      | with_reducible exact h
      | with_reducible apply memberAnswers_keeps
      | exact h
      | apply memberAnswers_keeps)

theorem useNotice_keeps (h : Keeps s₀ s) (f : Frame) : Keeps s₀ (useNotice f s) := by
  unfold useNotice
  (repeat' split)
  all_goals
    repeat (first
      | with_reducible exact h
      | with_reducible apply placementNotice_keeps
      | with_reducible apply learnHolder_keeps
      | with_reducible apply forgetHolder_keeps
      | exact h
      | apply placementNotice_keeps
      | apply learnHolder_keeps
      | apply forgetHolder_keeps)

theorem playAbandoned_keeps (h : Keeps s₀ s) (j : Nat) (reason : AbandonReason) (p : PlayJob) : Keeps s₀ (playAbandoned j reason p s) := by
  unfold playAbandoned
  (repeat' split)
  all_goals
    repeat (first
      | with_reducible exact h
      | with_reducible apply holderFailed_keeps
      | with_reducible apply pendPlay_keeps
      | exact h
      | apply holderFailed_keeps
      | apply pendPlay_keeps)

theorem repairAbandoned_keeps (h : Keeps s₀ s) (j : Nat) (reason : AbandonReason) (r : RepairJob) : Keeps s₀ (repairAbandoned j reason r s) := by
  unfold repairAbandoned
  (repeat' split)
  all_goals
    repeat (first
      | with_reducible exact h
      | with_reducible apply endJob_keeps
      | with_reducible apply stopRepair_keeps
      | exact h
      | apply endJob_keeps
      | apply stopRepair_keeps)

theorem useAbandon_keeps (h : Keeps s₀ s) (f : Frame) : Keeps s₀ (useAbandon f s) := by
  unfold useAbandon
  (try dsimp only)
  (repeat' split)
  all_goals
    repeat (first
      | with_reducible exact h
      | with_reducible apply houAbandon_keeps
      | with_reducible apply replicateAbandoned_keeps
      | with_reducible apply endJob_keeps
      | with_reducible apply playAbandoned_keeps
      | with_reducible apply repairAbandoned_keeps
      | exact h
      | apply houAbandon_keeps
      | apply replicateAbandoned_keeps
      | apply endJob_keeps
      | apply playAbandoned_keeps
      | apply repairAbandoned_keeps)

/-! ## TimerRows -/

theorem failAwaiting_keeps (h : Keeps s₀ s) (j : Nat) : Keeps s₀ (failAwaiting j s) := by
  unfold failAwaiting
  all_goals
    repeat (first
      | with_reducible exact h
      | with_reducible apply modSnd_keeps
      | exact h
      | apply modSnd_keeps)

theorem progressPassed_keeps (h : Keeps s₀ s) (j : Nat) (m : Member) : Keeps s₀ (progressPassed j m s) := by
  unfold progressPassed
  (repeat' split)
  all_goals
    repeat (first
      | with_reducible exact h
      | with_reducible apply goBack_keeps
      | with_reducible apply dropMember_keeps
      | exact h
      | apply goBack_keeps
      | apply dropMember_keeps)

theorem inactive_keeps (h : Keeps s₀ s) (j : Nat) (job : Job) : Keeps s₀ (inactive j job s) := by
  unfold inactive
  (try dsimp only)
  (repeat' split)
  all_goals
    repeat (first
      | with_reducible exact h
      | with_reducible apply endJob_keeps
      | with_reducible apply pendPlay_keeps
      | with_reducible apply giveParting_keeps
      | with_reducible apply holderFailed_keeps
      | with_reducible apply stopRepair_keeps
      | exact h
      | apply endJob_keeps
      | apply pendPlay_keeps
      | apply giveParting_keeps
      | apply holderFailed_keeps
      | apply stopRepair_keeps)

theorem windowPassed_keeps (h : Keeps s₀ s) (j : Nat) (job : Job) : Keeps s₀ (windowPassed j job s) := by
  unfold windowPassed
  (repeat' split)
  all_goals
    repeat (first
      | with_reducible exact h
      | with_reducible apply fallBack_keeps
      | with_reducible apply endJob_keeps
      | exact h
      | apply fallBack_keeps
      | apply endJob_keeps)

theorem grantFailed_keeps (h : Keeps s₀ s) (j : Nat) (job : Job) : Keeps s₀ (grantFailed j job s) := by
  unfold grantFailed
  (try dsimp only)
  (repeat' split)
  all_goals
    repeat (first
      | with_reducible exact h
      | with_reducible apply holderFailed_keeps
      | with_reducible apply giveFrame_keeps
      | with_reducible apply endJob_keeps
      | exact h
      | apply holderFailed_keeps
      | apply giveFrame_keeps
      | apply endJob_keeps)

theorem activityExpired_keeps (h : Keeps s₀ s)  : Keeps s₀ (activityExpired s) := by
  unfold activityExpired
  (try dsimp only)
  (repeat' split)
  all_goals
    repeat (first
      | with_reducible exact h
      | exact h)

/-! ## CommandRows -/

theorem refuse_keeps (h : Keeps s₀ s) (result : Result) (code : Nat) : Keeps s₀ (refuse result code s) := by
  unfold refuse
  all_goals
    repeat (first
      | with_reducible exact h
      | with_reducible apply respond_keeps
      | exact h
      | apply respond_keeps)

/-- Taking the sample port empties the driven bits, and keeps the rest. -/
theorem takePort_keeps (h : Keeps s₀ s) (j : Nat) (line : LineDirection) : Keeps (s₀.lines [] []) (takePort j line s) := by
  obtain ⟨hc, hu, hs⟩ := h
  exact ⟨by simp_all [SameCore, State.lines, takePort], hu, hs⟩

/-- ARM keeps all but the driven bits as every operation does; accepted, it empties those (R48). -/
theorem armCapture_keeps (h : Keeps s₀ s) (params : List Byte) :
    Keeps s₀ (armCapture params s) ∨ Keeps (s₀.lines [] []) (armCapture params s) := by
  unfold armCapture
  repeat' split
  all_goals first
    | with_reducible exact .inl (refuse_keeps h _ _)
    | exact .inr (respond_keeps (settle_keeps (takePort_keeps (createJob_keeps h _ (by simp_all)) _ _)) _ _ _ _)

/-- An accepted START keeps what follows once the sequence counter has risen (R5). -/
theorem startTake_keeps (j tag : Nat) (c : CaptureJob) (chunk : Nat) :
    Keeps { s with cat.counter := s.cat.counter + 1 } (startTake j tag c chunk s) := by
  unfold startTake
  dsimp only
  with_reducible refine settle_keeps (busyWith_keeps (holdEntry_keeps ?_ _ _) _)
  with_reducible refine modCapture_keeps (modJob_keeps (takeChunk_keeps ?_ _ _ _) _ _) _ _
  with_reducible refine createEntry_keeps ?_ _ _ _
  exact Keeps.refl _

theorem startCapture_keeps : Keeps s (startCapture s) ∨ Keeps { s with cat.counter := s.cat.counter + 1 } (startCapture s) := by
  have h := Keeps.refl s
  unfold startCapture
  split
  · exact .inl (refuse_keeps h _ _)
  · repeat' split
    all_goals first
      | with_reducible exact .inl (refuse_keeps h _ _)
      | with_reducible exact .inr (startTake_keeps _ _ _ _)

theorem stopCapture_keeps (h : Keeps s₀ s)  : Keeps s₀ (stopCapture s) := by
  unfold stopCapture
  (repeat' split)
  all_goals
    repeat (first
      | with_reducible exact h
      | with_reducible apply refuse_keeps
      | with_reducible apply respond_keeps
      | with_reducible apply settle_keeps
      | with_reducible apply endJob_keeps
      | with_reducible apply modCapture_keeps
      | exact h
      | apply refuse_keeps
      | apply respond_keeps
      | apply settle_keeps
      | apply endJob_keeps
      | apply modCapture_keeps)

theorem abortTake_keeps (h : Keeps s₀ s)  : Keeps s₀ (abortTake s) := by
  unfold abortTake
  (repeat' split)
  all_goals
    repeat (first
      | with_reducible exact h
      | with_reducible apply refuse_keeps
      | with_reducible apply respond_keeps
      | with_reducible apply settle_keeps
      | with_reducible apply endJob_keeps
      | with_reducible apply abortCapture_keeps
      | with_reducible apply busyWith_keeps
      | exact h
      | apply refuse_keeps
      | apply respond_keeps
      | apply settle_keeps
      | apply endJob_keeps
      | apply abortCapture_keeps
      | apply busyWith_keeps)

/-- RETRIEVE keeps all but the driven bits as every operation does; accepted, it empties those (R141). -/
theorem retrieveTake_keeps (h : Keeps s₀ s) (params : List Byte) :
    Keeps s₀ (retrieveTake params s) ∨ Keeps (s₀.lines [] []) (retrieveTake params s) := by
  unfold retrieveTake
  dsimp only
  repeat' split
  all_goals first
    | with_reducible exact .inl (refuse_keeps h _ _)
    | exact .inr (respond_keeps (settle_keeps (chooseSource_keeps
        (takePort_keeps (createJob_keeps h _ (by simp_all)) _ _) _ _ _ _)) _ _ _ _)

theorem cancelJob_keeps (h : Keeps s₀ s) (params : List Byte) : Keeps s₀ (cancelJob params s) := by
  unfold cancelJob
  (try dsimp only)
  (repeat' split)
  all_goals
    repeat (first
      | with_reducible exact h
      | with_reducible apply respond_keeps
      | with_reducible apply settle_keeps
      | with_reducible apply endJob_keeps
      | with_reducible apply abortCapture_keeps
      | with_reducible apply busyWith_keeps
      | exact h
      | apply respond_keeps
      | apply settle_keeps
      | apply endJob_keeps
      | apply abortCapture_keeps
      | apply busyWith_keeps)

theorem labelCapturing_keeps (h : Keeps s₀ s) (i : Nat) (label : Option (List Byte)) : Keeps s₀ (labelCapturing i label s) := by
  unfold labelCapturing
  (try dsimp only)
  (repeat' split)
  all_goals
    repeat (first
      | with_reducible exact h
      | with_reducible apply changeEntry_keeps
      | with_reducible apply modCapture_keeps
      | with_reducible apply respond_keeps
      | with_reducible apply settle_keeps
      | exact h
      | apply changeEntry_keeps
      | apply modCapture_keeps
      | apply respond_keeps
      | apply settle_keeps)

theorem writeLabel_keeps (h : Keeps s₀ s) (params : List Byte) : Keeps s₀ (writeLabel params s) := by
  unfold writeLabel
  (try dsimp only)
  (repeat' split)
  all_goals
    repeat (first
      | with_reducible exact h
      | with_reducible apply refuse_keeps
      | with_reducible apply labelCapturing_keeps
      | with_reducible apply settle_keeps
      | with_reducible apply busyWith_keeps
      | exact h
      | apply refuse_keeps
      | apply labelCapturing_keeps
      | apply settle_keeps
      | apply busyWith_keeps)

theorem readLabel_keeps (h : Keeps s₀ s) (params : List Byte) : Keeps s₀ (readLabel params s) := by
  unfold readLabel
  (repeat' split)
  all_goals
    repeat (first
      | with_reducible exact h
      | with_reducible apply refuse_keeps
      | with_reducible apply respond_keeps
      | exact h
      | apply refuse_keeps
      | apply respond_keeps)

theorem readEntry_keeps (h : Keeps s₀ s) (params : List Byte) : Keeps s₀ (readEntry params s) := by
  unfold readEntry
  (repeat' split)
  all_goals
    repeat (first
      | with_reducible exact h
      | with_reducible apply refuse_keeps
      | with_reducible apply respond_keeps
      | exact h
      | apply refuse_keeps
      | apply respond_keeps)

theorem withdrawTake_keeps (h : Keeps s₀ s) (params : List Byte) : Keeps s₀ (withdrawTake params s) := by
  unfold withdrawTake
  (repeat' split)
  all_goals
    repeat (first
      | with_reducible exact h
      | with_reducible apply refuse_keeps
      | with_reducible apply respond_keeps
      | with_reducible apply settle_keeps
      | with_reducible apply addNotice_keeps
      | with_reducible apply freeEntry_keeps
      | exact h
      | apply refuse_keeps
      | apply respond_keeps
      | apply settle_keeps
      | apply addNotice_keeps
      | apply freeEntry_keeps)

theorem repairTake_keeps (h : Keeps s₀ s) (params : List Byte) : Keeps s₀ (repairTake params s) := by
  unfold repairTake
  split
  · exact refuse_keeps h _ _
  · exact refuse_keeps h _ _
  · split
    · exact refuse_keeps h _ _
    · split
      · exact refuse_keeps h _ _
      · split
        · exact refuse_keeps h _ _
        · rename_i hf
          exact respond_keeps (settle_keeps (createRepair_keeps h _ _ (by simp at hf; exact hf.2))) _ _ _ _

theorem readEvent_keeps (h : Keeps s₀ s) : Keeps s₀ (readEvent s) := by
  unfold readEvent
  split
  · exact refuse_keeps h _ _
  · rename_i e rest he
    refine respond_keeps (h.cpe { s.cpe with events := rest } id fun hc => ?_) _ _ _ _
    obtain ⟨h1, hr⟩ := hc
    rw [he] at h1
    exact ⟨by simp at h1 ⊢; omega, hr⟩

theorem softEndJobs_keeps (l : List (Nat × Job)) (h : Keeps s₀ s) : Keeps s₀ (softEndJobs l s) := by
  induction l generalizing s with
  | nil => exact h
  | cons p rest ih =>
    obtain ⟨j, job⟩ := p
    unfold softEndJobs
    refine ih ?_
    split
    · split
      · exact endJobSoftly_keeps h _
      · exact softResetCapture_keeps h _
    · exact endJobSoftly_keeps h _

theorem softResetLink_keeps (h : Keeps s₀ { s with lif.errors := 0, lif.collisions := 0 }) (partings : List Frame) :
    Keeps s₀ (softResetLink partings s) := by
  have hn : Keeps s₀ { s with notes := [], lif.errors := 0, lif.collisions := 0 } :=
    h.notes [] fun _ => by simp [notesOk]
  have ht := txEmpty_keeps (removeAnswers_keeps hn fun _ => true)
  unfold softResetLink
  dsimp only
  refine givePartings_keeps _ ?_
  split
  · exact ht
  · exact endBurst_keeps ht

/-- SOFT_RESET keeps what follows once the link counters stand at 0 (R190). -/
theorem softReset_keeps : Keeps { s with lif.errors := 0, lif.collisions := 0 } (softReset s) := by
  have hl : ∀ ps, Keeps { s with lif.errors := 0, lif.collisions := 0 }
      (softResetLink ps (softEndJobs s.jt.jobs (busyWith .softReset s))) := fun ps =>
    softResetLink_keeps (Keeps.clearLink (softEndJobs_keeps _ (busyWith_keeps (Keeps.refl s) _))) ps
  unfold softReset
  dsimp only
  refine settle_keeps ?_
  split
  · exact finishSoftReset_keeps (hl _)
  · exact hl _

/-! ## SampleRows -/

end Sys2Proof.Machine
end

