-- ==== Sys2Proof/Laws/State.lean ====
section
/-! SUPPORT. The fields that each update of the state leaves as they were: one lemma per field. -/

namespace Sys2Proof.Machine

/-! ### setMark -/

@[simp] theorem setMark_pending (s : State) : (setMark s).pending = s.pending := rfl
@[simp] theorem setMark_clock (s : State) : (setMark s).clock = s.clock := rfl
@[simp] theorem setMark_freeIx (s : State) : (setMark s).freeIx = s.freeIx := rfl
@[simp] theorem setMark_med (s : State) : (setMark s).med = s.med := rfl
@[simp] theorem setMark_jt (s : State) : (setMark s).jt = s.jt := rfl
@[simp] theorem setMark_port (s : State) : (setMark s).port = s.port := rfl
@[simp] theorem setMark_lif (s : State) : (setMark s).lif = s.lif := rfl
@[simp] theorem setMark_hou (s : State) : (setMark s).hou = s.hou := rfl
@[simp] theorem setMark_notes (s : State) : (setMark s).notes = s.notes := rfl
@[simp] theorem setMark_act (s : State) : (setMark s).act = s.act := rfl
@[simp] theorem setMark_cpe (s : State) : (setMark s).cpe = s.cpe := rfl
@[simp] theorem setMark_sul (s : State) : (setMark s).sul = s.sul := rfl

/-! ### setFault -/

@[simp] theorem setFault_pending (s : State) : (setFault s).pending = s.pending := rfl
@[simp] theorem setFault_clock (s : State) : (setFault s).clock = s.clock := rfl
@[simp] theorem setFault_freeIx (s : State) : (setFault s).freeIx = s.freeIx := rfl
@[simp] theorem setFault_med (s : State) : (setFault s).med = s.med := rfl
@[simp] theorem setFault_jt (s : State) : (setFault s).jt = s.jt := rfl
@[simp] theorem setFault_port (s : State) : (setFault s).port = s.port := rfl
@[simp] theorem setFault_lif (s : State) : (setFault s).lif = s.lif := rfl
@[simp] theorem setFault_hou (s : State) : (setFault s).hou = s.hou := rfl
@[simp] theorem setFault_notes (s : State) : (setFault s).notes = s.notes := rfl
@[simp] theorem setFault_act (s : State) : (setFault s).act = s.act := rfl
@[simp] theorem setFault_cpe (s : State) : (setFault s).cpe = s.cpe := rfl
@[simp] theorem setFault_sul (s : State) : (setFault s).sul = s.sul := rfl

/-! ### respond -/

@[simp] theorem respond_pending (r : Result) (code tag : Nat) (data : List Byte) (s : State) : (respond r code tag data s).pending = s.pending := rfl
@[simp] theorem respond_clock (r : Result) (code tag : Nat) (data : List Byte) (s : State) : (respond r code tag data s).clock = s.clock := rfl
@[simp] theorem respond_freeIx (r : Result) (code tag : Nat) (data : List Byte) (s : State) : (respond r code tag data s).freeIx = s.freeIx := rfl
@[simp] theorem respond_cat (r : Result) (code tag : Nat) (data : List Byte) (s : State) : (respond r code tag data s).cat = s.cat := rfl
@[simp] theorem respond_med (r : Result) (code tag : Nat) (data : List Byte) (s : State) : (respond r code tag data s).med = s.med := rfl
@[simp] theorem respond_jt (r : Result) (code tag : Nat) (data : List Byte) (s : State) : (respond r code tag data s).jt = s.jt := rfl
@[simp] theorem respond_port (r : Result) (code tag : Nat) (data : List Byte) (s : State) : (respond r code tag data s).port = s.port := rfl
@[simp] theorem respond_lif (r : Result) (code tag : Nat) (data : List Byte) (s : State) : (respond r code tag data s).lif = s.lif := rfl
@[simp] theorem respond_hou (r : Result) (code tag : Nat) (data : List Byte) (s : State) : (respond r code tag data s).hou = s.hou := rfl
@[simp] theorem respond_notes (r : Result) (code tag : Nat) (data : List Byte) (s : State) : (respond r code tag data s).notes = s.notes := rfl
@[simp] theorem respond_act (r : Result) (code tag : Nat) (data : List Byte) (s : State) : (respond r code tag data s).act = s.act := rfl
@[simp] theorem respond_sul (r : Result) (code tag : Nat) (data : List Byte) (s : State) : (respond r code tag data s).sul = s.sul := rfl

/-! ### busyWith -/

@[simp] theorem busyWith_pending (c : Current) (s : State) : (busyWith c s).pending = s.pending := rfl
@[simp] theorem busyWith_clock (c : Current) (s : State) : (busyWith c s).clock = s.clock := rfl
@[simp] theorem busyWith_freeIx (c : Current) (s : State) : (busyWith c s).freeIx = s.freeIx := rfl
@[simp] theorem busyWith_cat (c : Current) (s : State) : (busyWith c s).cat = s.cat := rfl
@[simp] theorem busyWith_med (c : Current) (s : State) : (busyWith c s).med = s.med := rfl
@[simp] theorem busyWith_jt (c : Current) (s : State) : (busyWith c s).jt = s.jt := rfl
@[simp] theorem busyWith_port (c : Current) (s : State) : (busyWith c s).port = s.port := rfl
@[simp] theorem busyWith_lif (c : Current) (s : State) : (busyWith c s).lif = s.lif := rfl
@[simp] theorem busyWith_hou (c : Current) (s : State) : (busyWith c s).hou = s.hou := rfl
@[simp] theorem busyWith_notes (c : Current) (s : State) : (busyWith c s).notes = s.notes := rfl
@[simp] theorem busyWith_act (c : Current) (s : State) : (busyWith c s).act = s.act := rfl
@[simp] theorem busyWith_sul (c : Current) (s : State) : (busyWith c s).sul = s.sul := rfl

/-! ### putJob -/

@[simp] theorem putJob_pending (j : Nat) (job : Job) (s : State) : (putJob j job s).pending = s.pending := rfl
@[simp] theorem putJob_clock (j : Nat) (job : Job) (s : State) : (putJob j job s).clock = s.clock := rfl
@[simp] theorem putJob_freeIx (j : Nat) (job : Job) (s : State) : (putJob j job s).freeIx = s.freeIx := rfl
@[simp] theorem putJob_cat (j : Nat) (job : Job) (s : State) : (putJob j job s).cat = s.cat := rfl
@[simp] theorem putJob_med (j : Nat) (job : Job) (s : State) : (putJob j job s).med = s.med := rfl
@[simp] theorem putJob_port (j : Nat) (job : Job) (s : State) : (putJob j job s).port = s.port := rfl
@[simp] theorem putJob_lif (j : Nat) (job : Job) (s : State) : (putJob j job s).lif = s.lif := rfl
@[simp] theorem putJob_hou (j : Nat) (job : Job) (s : State) : (putJob j job s).hou = s.hou := rfl
@[simp] theorem putJob_notes (j : Nat) (job : Job) (s : State) : (putJob j job s).notes = s.notes := rfl
@[simp] theorem putJob_act (j : Nat) (job : Job) (s : State) : (putJob j job s).act = s.act := rfl
@[simp] theorem putJob_cpe (j : Nat) (job : Job) (s : State) : (putJob j job s).cpe = s.cpe := rfl
@[simp] theorem putJob_sul (j : Nat) (job : Job) (s : State) : (putJob j job s).sul = s.sul := rfl

/-! ### raise -/

@[simp] theorem raise_pending (e : Event) (s : State) : (raise e s).pending = s.pending := by unfold raise; (try dsimp only); (repeat' split) <;> rfl
@[simp] theorem raise_clock (e : Event) (s : State) : (raise e s).clock = s.clock := by unfold raise; (try dsimp only); (repeat' split) <;> rfl
@[simp] theorem raise_freeIx (e : Event) (s : State) : (raise e s).freeIx = s.freeIx := by unfold raise; (try dsimp only); (repeat' split) <;> rfl
@[simp] theorem raise_cat (e : Event) (s : State) : (raise e s).cat = s.cat := by unfold raise; (try dsimp only); (repeat' split) <;> rfl
@[simp] theorem raise_med (e : Event) (s : State) : (raise e s).med = s.med := by unfold raise; (try dsimp only); (repeat' split) <;> rfl
@[simp] theorem raise_jt (e : Event) (s : State) : (raise e s).jt = s.jt := by unfold raise; (try dsimp only); (repeat' split) <;> rfl
@[simp] theorem raise_port (e : Event) (s : State) : (raise e s).port = s.port := by unfold raise; (try dsimp only); (repeat' split) <;> rfl
@[simp] theorem raise_lif (e : Event) (s : State) : (raise e s).lif = s.lif := by unfold raise; (try dsimp only); (repeat' split) <;> rfl
@[simp] theorem raise_hou (e : Event) (s : State) : (raise e s).hou = s.hou := by unfold raise; (try dsimp only); (repeat' split) <;> rfl
@[simp] theorem raise_notes (e : Event) (s : State) : (raise e s).notes = s.notes := by unfold raise; (try dsimp only); (repeat' split) <;> rfl
@[simp] theorem raise_act (e : Event) (s : State) : (raise e s).act = s.act := by unfold raise; (try dsimp only); (repeat' split) <;> rfl
@[simp] theorem raise_sul (e : Event) (s : State) : (raise e s).sul = s.sul := by unfold raise; (try dsimp only); (repeat' split) <;> rfl

/-! ### modEntry -/

@[simp] theorem modEntry_pending (i : Nat) (f : Entry → Entry) (s : State) : (modEntry i f s).pending = s.pending := by unfold modEntry; (try dsimp only); (repeat' split) <;> rfl
@[simp] theorem modEntry_clock (i : Nat) (f : Entry → Entry) (s : State) : (modEntry i f s).clock = s.clock := by unfold modEntry; (try dsimp only); (repeat' split) <;> rfl
@[simp] theorem modEntry_freeIx (i : Nat) (f : Entry → Entry) (s : State) : (modEntry i f s).freeIx = s.freeIx := by unfold modEntry; (try dsimp only); (repeat' split) <;> rfl
@[simp] theorem modEntry_med (i : Nat) (f : Entry → Entry) (s : State) : (modEntry i f s).med = s.med := by unfold modEntry; (try dsimp only); (repeat' split) <;> rfl
@[simp] theorem modEntry_jt (i : Nat) (f : Entry → Entry) (s : State) : (modEntry i f s).jt = s.jt := by unfold modEntry; (try dsimp only); (repeat' split) <;> rfl
@[simp] theorem modEntry_port (i : Nat) (f : Entry → Entry) (s : State) : (modEntry i f s).port = s.port := by unfold modEntry; (try dsimp only); (repeat' split) <;> rfl
@[simp] theorem modEntry_lif (i : Nat) (f : Entry → Entry) (s : State) : (modEntry i f s).lif = s.lif := by unfold modEntry; (try dsimp only); (repeat' split) <;> rfl
@[simp] theorem modEntry_hou (i : Nat) (f : Entry → Entry) (s : State) : (modEntry i f s).hou = s.hou := by unfold modEntry; (try dsimp only); (repeat' split) <;> rfl
@[simp] theorem modEntry_notes (i : Nat) (f : Entry → Entry) (s : State) : (modEntry i f s).notes = s.notes := by unfold modEntry; (try dsimp only); (repeat' split) <;> rfl
@[simp] theorem modEntry_act (i : Nat) (f : Entry → Entry) (s : State) : (modEntry i f s).act = s.act := by unfold modEntry; (try dsimp only); (repeat' split) <;> rfl
@[simp] theorem modEntry_cpe (i : Nat) (f : Entry → Entry) (s : State) : (modEntry i f s).cpe = s.cpe := by unfold modEntry; (try dsimp only); (repeat' split) <;> rfl
@[simp] theorem modEntry_sul (i : Nat) (f : Entry → Entry) (s : State) : (modEntry i f s).sul = s.sul := by unfold modEntry; (try dsimp only); (repeat' split) <;> rfl

/-! ### queueEntry -/

@[simp] theorem queueEntry_pending (i : Nat) (s : State) : (queueEntry i s).pending = s.pending := by unfold queueEntry; (try dsimp only); (repeat' split) <;> rfl
@[simp] theorem queueEntry_clock (i : Nat) (s : State) : (queueEntry i s).clock = s.clock := by unfold queueEntry; (try dsimp only); (repeat' split) <;> rfl
@[simp] theorem queueEntry_freeIx (i : Nat) (s : State) : (queueEntry i s).freeIx = s.freeIx := by unfold queueEntry; (try dsimp only); (repeat' split) <;> rfl
@[simp] theorem queueEntry_med (i : Nat) (s : State) : (queueEntry i s).med = s.med := by unfold queueEntry; (try dsimp only); (repeat' split) <;> rfl
@[simp] theorem queueEntry_jt (i : Nat) (s : State) : (queueEntry i s).jt = s.jt := by unfold queueEntry; (try dsimp only); (repeat' split) <;> rfl
@[simp] theorem queueEntry_port (i : Nat) (s : State) : (queueEntry i s).port = s.port := by unfold queueEntry; (try dsimp only); (repeat' split) <;> rfl
@[simp] theorem queueEntry_lif (i : Nat) (s : State) : (queueEntry i s).lif = s.lif := by unfold queueEntry; (try dsimp only); (repeat' split) <;> rfl
@[simp] theorem queueEntry_hou (i : Nat) (s : State) : (queueEntry i s).hou = s.hou := by unfold queueEntry; (try dsimp only); (repeat' split) <;> rfl
@[simp] theorem queueEntry_notes (i : Nat) (s : State) : (queueEntry i s).notes = s.notes := by unfold queueEntry; (try dsimp only); (repeat' split) <;> rfl
@[simp] theorem queueEntry_act (i : Nat) (s : State) : (queueEntry i s).act = s.act := by unfold queueEntry; (try dsimp only); (repeat' split) <;> rfl
@[simp] theorem queueEntry_cpe (i : Nat) (s : State) : (queueEntry i s).cpe = s.cpe := by unfold queueEntry; (try dsimp only); (repeat' split) <;> rfl
@[simp] theorem queueEntry_sul (i : Nat) (s : State) : (queueEntry i s).sul = s.sul := by unfold queueEntry; (try dsimp only); (repeat' split) <;> rfl

/-! ### changeEntry -/

@[simp] theorem changeEntry_pending (i : Nat) (f : Entry → Entry) (s : State) : (changeEntry i f s).pending = s.pending := by simp [changeEntry]
@[simp] theorem changeEntry_clock (i : Nat) (f : Entry → Entry) (s : State) : (changeEntry i f s).clock = s.clock := by simp [changeEntry]
@[simp] theorem changeEntry_freeIx (i : Nat) (f : Entry → Entry) (s : State) : (changeEntry i f s).freeIx = s.freeIx := by simp [changeEntry]
@[simp] theorem changeEntry_med (i : Nat) (f : Entry → Entry) (s : State) : (changeEntry i f s).med = s.med := by simp [changeEntry]
@[simp] theorem changeEntry_jt (i : Nat) (f : Entry → Entry) (s : State) : (changeEntry i f s).jt = s.jt := by simp [changeEntry]
@[simp] theorem changeEntry_port (i : Nat) (f : Entry → Entry) (s : State) : (changeEntry i f s).port = s.port := by simp [changeEntry]
@[simp] theorem changeEntry_lif (i : Nat) (f : Entry → Entry) (s : State) : (changeEntry i f s).lif = s.lif := by simp [changeEntry]
@[simp] theorem changeEntry_hou (i : Nat) (f : Entry → Entry) (s : State) : (changeEntry i f s).hou = s.hou := by simp [changeEntry]
@[simp] theorem changeEntry_notes (i : Nat) (f : Entry → Entry) (s : State) : (changeEntry i f s).notes = s.notes := by simp [changeEntry]
@[simp] theorem changeEntry_act (i : Nat) (f : Entry → Entry) (s : State) : (changeEntry i f s).act = s.act := by simp [changeEntry]
@[simp] theorem changeEntry_cpe (i : Nat) (f : Entry → Entry) (s : State) : (changeEntry i f s).cpe = s.cpe := by simp [changeEntry]
@[simp] theorem changeEntry_sul (i : Nat) (f : Entry → Entry) (s : State) : (changeEntry i f s).sul = s.sul := by simp [changeEntry]

/-! ### changeEntryMarked -/

@[simp] theorem changeEntryMarked_pending (i : Nat) (f : Entry → Entry) (s : State) : (changeEntryMarked i f s).pending = s.pending := by simp [changeEntryMarked]
@[simp] theorem changeEntryMarked_clock (i : Nat) (f : Entry → Entry) (s : State) : (changeEntryMarked i f s).clock = s.clock := by simp [changeEntryMarked]
@[simp] theorem changeEntryMarked_freeIx (i : Nat) (f : Entry → Entry) (s : State) : (changeEntryMarked i f s).freeIx = s.freeIx := by simp [changeEntryMarked]
@[simp] theorem changeEntryMarked_med (i : Nat) (f : Entry → Entry) (s : State) : (changeEntryMarked i f s).med = s.med := by simp [changeEntryMarked]
@[simp] theorem changeEntryMarked_jt (i : Nat) (f : Entry → Entry) (s : State) : (changeEntryMarked i f s).jt = s.jt := by simp [changeEntryMarked]
@[simp] theorem changeEntryMarked_port (i : Nat) (f : Entry → Entry) (s : State) : (changeEntryMarked i f s).port = s.port := by simp [changeEntryMarked]
@[simp] theorem changeEntryMarked_lif (i : Nat) (f : Entry → Entry) (s : State) : (changeEntryMarked i f s).lif = s.lif := by simp [changeEntryMarked]
@[simp] theorem changeEntryMarked_hou (i : Nat) (f : Entry → Entry) (s : State) : (changeEntryMarked i f s).hou = s.hou := by simp [changeEntryMarked]
@[simp] theorem changeEntryMarked_notes (i : Nat) (f : Entry → Entry) (s : State) : (changeEntryMarked i f s).notes = s.notes := by simp [changeEntryMarked]
@[simp] theorem changeEntryMarked_act (i : Nat) (f : Entry → Entry) (s : State) : (changeEntryMarked i f s).act = s.act := by simp [changeEntryMarked]
@[simp] theorem changeEntryMarked_cpe (i : Nat) (f : Entry → Entry) (s : State) : (changeEntryMarked i f s).cpe = s.cpe := by simp [changeEntryMarked]
@[simp] theorem changeEntryMarked_sul (i : Nat) (f : Entry → Entry) (s : State) : (changeEntryMarked i f s).sul = s.sul := by simp [changeEntryMarked]

/-! ### modJob -/

@[simp] theorem modJob_pending (j : Nat) (f : Job → Job) (s : State) : (modJob j f s).pending = s.pending := by unfold modJob putJob; (try dsimp only); (repeat' split) <;> rfl
@[simp] theorem modJob_clock (j : Nat) (f : Job → Job) (s : State) : (modJob j f s).clock = s.clock := by unfold modJob putJob; (try dsimp only); (repeat' split) <;> rfl
@[simp] theorem modJob_freeIx (j : Nat) (f : Job → Job) (s : State) : (modJob j f s).freeIx = s.freeIx := by unfold modJob putJob; (try dsimp only); (repeat' split) <;> rfl
@[simp] theorem modJob_cat (j : Nat) (f : Job → Job) (s : State) : (modJob j f s).cat = s.cat := by unfold modJob putJob; (try dsimp only); (repeat' split) <;> rfl
@[simp] theorem modJob_med (j : Nat) (f : Job → Job) (s : State) : (modJob j f s).med = s.med := by unfold modJob putJob; (try dsimp only); (repeat' split) <;> rfl
@[simp] theorem modJob_port (j : Nat) (f : Job → Job) (s : State) : (modJob j f s).port = s.port := by unfold modJob putJob; (try dsimp only); (repeat' split) <;> rfl
@[simp] theorem modJob_lif (j : Nat) (f : Job → Job) (s : State) : (modJob j f s).lif = s.lif := by unfold modJob putJob; (try dsimp only); (repeat' split) <;> rfl
@[simp] theorem modJob_hou (j : Nat) (f : Job → Job) (s : State) : (modJob j f s).hou = s.hou := by unfold modJob putJob; (try dsimp only); (repeat' split) <;> rfl
@[simp] theorem modJob_notes (j : Nat) (f : Job → Job) (s : State) : (modJob j f s).notes = s.notes := by unfold modJob putJob; (try dsimp only); (repeat' split) <;> rfl
@[simp] theorem modJob_act (j : Nat) (f : Job → Job) (s : State) : (modJob j f s).act = s.act := by unfold modJob putJob; (try dsimp only); (repeat' split) <;> rfl
@[simp] theorem modJob_cpe (j : Nat) (f : Job → Job) (s : State) : (modJob j f s).cpe = s.cpe := by unfold modJob putJob; (try dsimp only); (repeat' split) <;> rfl
@[simp] theorem modJob_sul (j : Nat) (f : Job → Job) (s : State) : (modJob j f s).sul = s.sul := by unfold modJob putJob; (try dsimp only); (repeat' split) <;> rfl

/-! ### reload -/

@[simp] theorem reload_pending (s : State) : (reload s).pending = s.pending := by unfold reload; (try dsimp only); (repeat' split) <;> rfl
@[simp] theorem reload_clock (s : State) : (reload s).clock = s.clock := by unfold reload; (try dsimp only); (repeat' split) <;> rfl
@[simp] theorem reload_freeIx (s : State) : (reload s).freeIx = s.freeIx := by unfold reload; (try dsimp only); (repeat' split) <;> rfl
@[simp] theorem reload_cat (s : State) : (reload s).cat = s.cat := by unfold reload; (try dsimp only); (repeat' split) <;> rfl
@[simp] theorem reload_med (s : State) : (reload s).med = s.med := by unfold reload; (try dsimp only); (repeat' split) <;> rfl
@[simp] theorem reload_jt (s : State) : (reload s).jt = s.jt := by unfold reload; (try dsimp only); (repeat' split) <;> rfl
@[simp] theorem reload_port (s : State) : (reload s).port = s.port := by unfold reload; (try dsimp only); (repeat' split) <;> rfl
@[simp] theorem reload_lif (s : State) : (reload s).lif = s.lif := by unfold reload; (try dsimp only); (repeat' split) <;> rfl
@[simp] theorem reload_hou (s : State) : (reload s).hou = s.hou := by unfold reload; (try dsimp only); (repeat' split) <;> rfl
@[simp] theorem reload_notes (s : State) : (reload s).notes = s.notes := by unfold reload; (try dsimp only); (repeat' split) <;> rfl
@[simp] theorem reload_cpe (s : State) : (reload s).cpe = s.cpe := by unfold reload; (try dsimp only); (repeat' split) <;> rfl
@[simp] theorem reload_sul (s : State) : (reload s).sul = s.sul := by unfold reload; (try dsimp only); (repeat' split) <;> rfl

/-! ### stopTimer -/

@[simp] theorem stopTimer_pending (s : State) : (stopTimer s).pending = s.pending := rfl
@[simp] theorem stopTimer_clock (s : State) : (stopTimer s).clock = s.clock := rfl
@[simp] theorem stopTimer_freeIx (s : State) : (stopTimer s).freeIx = s.freeIx := rfl
@[simp] theorem stopTimer_cat (s : State) : (stopTimer s).cat = s.cat := rfl
@[simp] theorem stopTimer_med (s : State) : (stopTimer s).med = s.med := rfl
@[simp] theorem stopTimer_jt (s : State) : (stopTimer s).jt = s.jt := rfl
@[simp] theorem stopTimer_port (s : State) : (stopTimer s).port = s.port := rfl
@[simp] theorem stopTimer_lif (s : State) : (stopTimer s).lif = s.lif := rfl
@[simp] theorem stopTimer_hou (s : State) : (stopTimer s).hou = s.hou := rfl
@[simp] theorem stopTimer_notes (s : State) : (stopTimer s).notes = s.notes := rfl
@[simp] theorem stopTimer_cpe (s : State) : (stopTimer s).cpe = s.cpe := rfl
@[simp] theorem stopTimer_sul (s : State) : (stopTimer s).sul = s.sul := rfl

/-! ### wake -/

@[simp] theorem wake_pending (s : State) : (wake s).pending = s.pending := by unfold wake beginWake stopTimer; (try dsimp only); (repeat' split) <;> rfl
@[simp] theorem wake_clock (s : State) : (wake s).clock = s.clock := by unfold wake beginWake stopTimer; (try dsimp only); (repeat' split) <;> rfl
@[simp] theorem wake_freeIx (s : State) : (wake s).freeIx = s.freeIx := by unfold wake beginWake stopTimer; (try dsimp only); (repeat' split) <;> rfl
@[simp] theorem wake_cat (s : State) : (wake s).cat = s.cat := by unfold wake beginWake stopTimer; (try dsimp only); (repeat' split) <;> rfl
@[simp] theorem wake_med (s : State) : (wake s).med = s.med := by unfold wake beginWake stopTimer; (try dsimp only); (repeat' split) <;> rfl
@[simp] theorem wake_jt (s : State) : (wake s).jt = s.jt := by unfold wake beginWake stopTimer; (try dsimp only); (repeat' split) <;> rfl
@[simp] theorem wake_port (s : State) : (wake s).port = s.port := by unfold wake beginWake stopTimer; (try dsimp only); (repeat' split) <;> rfl
@[simp] theorem wake_lif (s : State) : (wake s).lif = s.lif := by unfold wake beginWake stopTimer; (try dsimp only); (repeat' split) <;> rfl
@[simp] theorem wake_hou (s : State) : (wake s).hou = s.hou := by unfold wake beginWake stopTimer; (try dsimp only); (repeat' split) <;> rfl
@[simp] theorem wake_notes (s : State) : (wake s).notes = s.notes := by unfold wake beginWake stopTimer; (try dsimp only); (repeat' split) <;> rfl
@[simp] theorem wake_cpe (s : State) : (wake s).cpe = s.cpe := by unfold wake beginWake stopTimer; (try dsimp only); (repeat' split) <;> rfl
@[simp] theorem wake_sul (s : State) : (wake s).sul = s.sul := by unfold wake beginWake stopTimer; (try dsimp only); (repeat' split) <;> rfl

/-! ### onRecords -/

@[simp] theorem onRecords_pending (f : HoldRec → HoldRec) (s : State) : (onRecords f s).pending = s.pending := rfl
@[simp] theorem onRecords_clock (f : HoldRec → HoldRec) (s : State) : (onRecords f s).clock = s.clock := rfl
@[simp] theorem onRecords_freeIx (f : HoldRec → HoldRec) (s : State) : (onRecords f s).freeIx = s.freeIx := rfl
@[simp] theorem onRecords_cat (f : HoldRec → HoldRec) (s : State) : (onRecords f s).cat = s.cat := rfl
@[simp] theorem onRecords_med (f : HoldRec → HoldRec) (s : State) : (onRecords f s).med = s.med := rfl
@[simp] theorem onRecords_jt (f : HoldRec → HoldRec) (s : State) : (onRecords f s).jt = s.jt := rfl
@[simp] theorem onRecords_port (f : HoldRec → HoldRec) (s : State) : (onRecords f s).port = s.port := rfl
@[simp] theorem onRecords_lif (f : HoldRec → HoldRec) (s : State) : (onRecords f s).lif = s.lif := rfl
@[simp] theorem onRecords_notes (f : HoldRec → HoldRec) (s : State) : (onRecords f s).notes = s.notes := rfl
@[simp] theorem onRecords_act (f : HoldRec → HoldRec) (s : State) : (onRecords f s).act = s.act := rfl
@[simp] theorem onRecords_cpe (f : HoldRec → HoldRec) (s : State) : (onRecords f s).cpe = s.cpe := rfl
@[simp] theorem onRecords_sul (f : HoldRec → HoldRec) (s : State) : (onRecords f s).sul = s.sul := rfl

/-! ### removeAnswers -/

@[simp] theorem removeAnswers_pending (p : HoldRec → Bool) (s : State) : (removeAnswers p s).pending = s.pending := rfl
@[simp] theorem removeAnswers_clock (p : HoldRec → Bool) (s : State) : (removeAnswers p s).clock = s.clock := rfl
@[simp] theorem removeAnswers_freeIx (p : HoldRec → Bool) (s : State) : (removeAnswers p s).freeIx = s.freeIx := rfl
@[simp] theorem removeAnswers_cat (p : HoldRec → Bool) (s : State) : (removeAnswers p s).cat = s.cat := rfl
@[simp] theorem removeAnswers_med (p : HoldRec → Bool) (s : State) : (removeAnswers p s).med = s.med := rfl
@[simp] theorem removeAnswers_jt (p : HoldRec → Bool) (s : State) : (removeAnswers p s).jt = s.jt := rfl
@[simp] theorem removeAnswers_port (p : HoldRec → Bool) (s : State) : (removeAnswers p s).port = s.port := rfl
@[simp] theorem removeAnswers_lif (p : HoldRec → Bool) (s : State) : (removeAnswers p s).lif = s.lif := rfl
@[simp] theorem removeAnswers_notes (p : HoldRec → Bool) (s : State) : (removeAnswers p s).notes = s.notes := rfl
@[simp] theorem removeAnswers_act (p : HoldRec → Bool) (s : State) : (removeAnswers p s).act = s.act := rfl
@[simp] theorem removeAnswers_cpe (p : HoldRec → Bool) (s : State) : (removeAnswers p s).cpe = s.cpe := rfl
@[simp] theorem removeAnswers_sul (p : HoldRec → Bool) (s : State) : (removeAnswers p s).sul = s.sul := rfl

/-! ### addAnswer -/

@[simp] theorem addAnswer_pending (f : Frame) (owner : Option Nat) (opener base : Nat) (bids : Option BidCount) (expiry : Option Nat) (s : State) : (addAnswer f owner opener base bids expiry s).pending = s.pending := rfl
@[simp] theorem addAnswer_clock (f : Frame) (owner : Option Nat) (opener base : Nat) (bids : Option BidCount) (expiry : Option Nat) (s : State) : (addAnswer f owner opener base bids expiry s).clock = s.clock := rfl
@[simp] theorem addAnswer_freeIx (f : Frame) (owner : Option Nat) (opener base : Nat) (bids : Option BidCount) (expiry : Option Nat) (s : State) : (addAnswer f owner opener base bids expiry s).freeIx = s.freeIx := rfl
@[simp] theorem addAnswer_cat (f : Frame) (owner : Option Nat) (opener base : Nat) (bids : Option BidCount) (expiry : Option Nat) (s : State) : (addAnswer f owner opener base bids expiry s).cat = s.cat := rfl
@[simp] theorem addAnswer_med (f : Frame) (owner : Option Nat) (opener base : Nat) (bids : Option BidCount) (expiry : Option Nat) (s : State) : (addAnswer f owner opener base bids expiry s).med = s.med := rfl
@[simp] theorem addAnswer_jt (f : Frame) (owner : Option Nat) (opener base : Nat) (bids : Option BidCount) (expiry : Option Nat) (s : State) : (addAnswer f owner opener base bids expiry s).jt = s.jt := rfl
@[simp] theorem addAnswer_port (f : Frame) (owner : Option Nat) (opener base : Nat) (bids : Option BidCount) (expiry : Option Nat) (s : State) : (addAnswer f owner opener base bids expiry s).port = s.port := rfl
@[simp] theorem addAnswer_lif (f : Frame) (owner : Option Nat) (opener base : Nat) (bids : Option BidCount) (expiry : Option Nat) (s : State) : (addAnswer f owner opener base bids expiry s).lif = s.lif := rfl
@[simp] theorem addAnswer_notes (f : Frame) (owner : Option Nat) (opener base : Nat) (bids : Option BidCount) (expiry : Option Nat) (s : State) : (addAnswer f owner opener base bids expiry s).notes = s.notes := rfl
@[simp] theorem addAnswer_act (f : Frame) (owner : Option Nat) (opener base : Nat) (bids : Option BidCount) (expiry : Option Nat) (s : State) : (addAnswer f owner opener base bids expiry s).act = s.act := rfl
@[simp] theorem addAnswer_cpe (f : Frame) (owner : Option Nat) (opener base : Nat) (bids : Option BidCount) (expiry : Option Nat) (s : State) : (addAnswer f owner opener base bids expiry s).cpe = s.cpe := rfl
@[simp] theorem addAnswer_sul (f : Frame) (owner : Option Nat) (opener base : Nat) (bids : Option BidCount) (expiry : Option Nat) (s : State) : (addAnswer f owner opener base bids expiry s).sul = s.sul := rfl

/-! ### refreshPlain -/

@[simp] theorem refreshPlain_pending (s : State) : (refreshPlain s).pending = s.pending := rfl
@[simp] theorem refreshPlain_clock (s : State) : (refreshPlain s).clock = s.clock := rfl
@[simp] theorem refreshPlain_freeIx (s : State) : (refreshPlain s).freeIx = s.freeIx := rfl
@[simp] theorem refreshPlain_cat (s : State) : (refreshPlain s).cat = s.cat := rfl
@[simp] theorem refreshPlain_med (s : State) : (refreshPlain s).med = s.med := rfl
@[simp] theorem refreshPlain_jt (s : State) : (refreshPlain s).jt = s.jt := rfl
@[simp] theorem refreshPlain_port (s : State) : (refreshPlain s).port = s.port := rfl
@[simp] theorem refreshPlain_lif (s : State) : (refreshPlain s).lif = s.lif := rfl
@[simp] theorem refreshPlain_notes (s : State) : (refreshPlain s).notes = s.notes := rfl
@[simp] theorem refreshPlain_act (s : State) : (refreshPlain s).act = s.act := rfl
@[simp] theorem refreshPlain_cpe (s : State) : (refreshPlain s).cpe = s.cpe := rfl
@[simp] theorem refreshPlain_sul (s : State) : (refreshPlain s).sul = s.sul := rfl

/-! ### txPush -/

@[simp] theorem txPush_pending (t : TxFrame) (s : State) : (txPush t s).pending = s.pending := by unfold txPush refreshPlain; (try dsimp only); (repeat' split) <;> rfl
@[simp] theorem txPush_clock (t : TxFrame) (s : State) : (txPush t s).clock = s.clock := by unfold txPush refreshPlain; (try dsimp only); (repeat' split) <;> rfl
@[simp] theorem txPush_freeIx (t : TxFrame) (s : State) : (txPush t s).freeIx = s.freeIx := by unfold txPush refreshPlain; (try dsimp only); (repeat' split) <;> rfl
@[simp] theorem txPush_cat (t : TxFrame) (s : State) : (txPush t s).cat = s.cat := by unfold txPush refreshPlain; (try dsimp only); (repeat' split) <;> rfl
@[simp] theorem txPush_med (t : TxFrame) (s : State) : (txPush t s).med = s.med := by unfold txPush refreshPlain; (try dsimp only); (repeat' split) <;> rfl
@[simp] theorem txPush_jt (t : TxFrame) (s : State) : (txPush t s).jt = s.jt := by unfold txPush refreshPlain; (try dsimp only); (repeat' split) <;> rfl
@[simp] theorem txPush_port (t : TxFrame) (s : State) : (txPush t s).port = s.port := by unfold txPush refreshPlain; (try dsimp only); (repeat' split) <;> rfl
@[simp] theorem txPush_notes (t : TxFrame) (s : State) : (txPush t s).notes = s.notes := by unfold txPush refreshPlain; (try dsimp only); (repeat' split) <;> rfl
@[simp] theorem txPush_act (t : TxFrame) (s : State) : (txPush t s).act = s.act := by unfold txPush refreshPlain; (try dsimp only); (repeat' split) <;> rfl
@[simp] theorem txPush_cpe (t : TxFrame) (s : State) : (txPush t s).cpe = s.cpe := by unfold txPush refreshPlain; (try dsimp only); (repeat' split) <;> rfl
@[simp] theorem txPush_sul (t : TxFrame) (s : State) : (txPush t s).sul = s.sul := by unfold txPush refreshPlain; (try dsimp only); (repeat' split) <;> rfl

/-! ### txPop -/

@[simp] theorem txPop_pending (s : State) : (txPop s).pending = s.pending := rfl
@[simp] theorem txPop_clock (s : State) : (txPop s).clock = s.clock := rfl
@[simp] theorem txPop_freeIx (s : State) : (txPop s).freeIx = s.freeIx := rfl
@[simp] theorem txPop_cat (s : State) : (txPop s).cat = s.cat := rfl
@[simp] theorem txPop_med (s : State) : (txPop s).med = s.med := rfl
@[simp] theorem txPop_jt (s : State) : (txPop s).jt = s.jt := rfl
@[simp] theorem txPop_port (s : State) : (txPop s).port = s.port := rfl
@[simp] theorem txPop_notes (s : State) : (txPop s).notes = s.notes := rfl
@[simp] theorem txPop_act (s : State) : (txPop s).act = s.act := rfl
@[simp] theorem txPop_cpe (s : State) : (txPop s).cpe = s.cpe := rfl
@[simp] theorem txPop_sul (s : State) : (txPop s).sul = s.sul := rfl

/-! ### unreleaseAll -/

@[simp] theorem unreleaseAll_pending (s : State) : (unreleaseAll s).pending = s.pending := rfl
@[simp] theorem unreleaseAll_clock (s : State) : (unreleaseAll s).clock = s.clock := rfl
@[simp] theorem unreleaseAll_freeIx (s : State) : (unreleaseAll s).freeIx = s.freeIx := rfl
@[simp] theorem unreleaseAll_cat (s : State) : (unreleaseAll s).cat = s.cat := rfl
@[simp] theorem unreleaseAll_med (s : State) : (unreleaseAll s).med = s.med := rfl
@[simp] theorem unreleaseAll_jt (s : State) : (unreleaseAll s).jt = s.jt := rfl
@[simp] theorem unreleaseAll_port (s : State) : (unreleaseAll s).port = s.port := rfl
@[simp] theorem unreleaseAll_lif (s : State) : (unreleaseAll s).lif = s.lif := rfl
@[simp] theorem unreleaseAll_notes (s : State) : (unreleaseAll s).notes = s.notes := rfl
@[simp] theorem unreleaseAll_act (s : State) : (unreleaseAll s).act = s.act := rfl
@[simp] theorem unreleaseAll_cpe (s : State) : (unreleaseAll s).cpe = s.cpe := rfl
@[simp] theorem unreleaseAll_sul (s : State) : (unreleaseAll s).sul = s.sul := rfl

/-! ### endBurst -/

@[simp] theorem endBurst_pending (s : State) : (endBurst s).pending = s.pending := rfl
@[simp] theorem endBurst_clock (s : State) : (endBurst s).clock = s.clock := rfl
@[simp] theorem endBurst_freeIx (s : State) : (endBurst s).freeIx = s.freeIx := rfl
@[simp] theorem endBurst_cat (s : State) : (endBurst s).cat = s.cat := rfl
@[simp] theorem endBurst_med (s : State) : (endBurst s).med = s.med := rfl
@[simp] theorem endBurst_jt (s : State) : (endBurst s).jt = s.jt := rfl
@[simp] theorem endBurst_port (s : State) : (endBurst s).port = s.port := rfl
@[simp] theorem endBurst_notes (s : State) : (endBurst s).notes = s.notes := rfl
@[simp] theorem endBurst_act (s : State) : (endBurst s).act = s.act := rfl
@[simp] theorem endBurst_cpe (s : State) : (endBurst s).cpe = s.cpe := rfl
@[simp] theorem endBurst_sul (s : State) : (endBurst s).sul = s.sul := rfl

/-! ### stopSending -/

@[simp] theorem stopSending_pending (s : State) : (stopSending s).pending = s.pending := rfl
@[simp] theorem stopSending_clock (s : State) : (stopSending s).clock = s.clock := rfl
@[simp] theorem stopSending_freeIx (s : State) : (stopSending s).freeIx = s.freeIx := rfl
@[simp] theorem stopSending_cat (s : State) : (stopSending s).cat = s.cat := rfl
@[simp] theorem stopSending_med (s : State) : (stopSending s).med = s.med := rfl
@[simp] theorem stopSending_jt (s : State) : (stopSending s).jt = s.jt := rfl
@[simp] theorem stopSending_port (s : State) : (stopSending s).port = s.port := rfl
@[simp] theorem stopSending_hou (s : State) : (stopSending s).hou = s.hou := rfl
@[simp] theorem stopSending_notes (s : State) : (stopSending s).notes = s.notes := rfl
@[simp] theorem stopSending_act (s : State) : (stopSending s).act = s.act := rfl
@[simp] theorem stopSending_cpe (s : State) : (stopSending s).cpe = s.cpe := rfl
@[simp] theorem stopSending_sul (s : State) : (stopSending s).sul = s.sul := rfl

/-! ### startFrame -/

@[simp] theorem startFrame_pending (f : Frame) (source : SendSource) (s : State) : (startFrame f source s).pending = s.pending := rfl
@[simp] theorem startFrame_clock (f : Frame) (source : SendSource) (s : State) : (startFrame f source s).clock = s.clock := rfl
@[simp] theorem startFrame_freeIx (f : Frame) (source : SendSource) (s : State) : (startFrame f source s).freeIx = s.freeIx := rfl
@[simp] theorem startFrame_cat (f : Frame) (source : SendSource) (s : State) : (startFrame f source s).cat = s.cat := rfl
@[simp] theorem startFrame_med (f : Frame) (source : SendSource) (s : State) : (startFrame f source s).med = s.med := rfl
@[simp] theorem startFrame_jt (f : Frame) (source : SendSource) (s : State) : (startFrame f source s).jt = s.jt := rfl
@[simp] theorem startFrame_port (f : Frame) (source : SendSource) (s : State) : (startFrame f source s).port = s.port := rfl
@[simp] theorem startFrame_notes (f : Frame) (source : SendSource) (s : State) : (startFrame f source s).notes = s.notes := rfl
@[simp] theorem startFrame_act (f : Frame) (source : SendSource) (s : State) : (startFrame f source s).act = s.act := rfl
@[simp] theorem startFrame_cpe (f : Frame) (source : SendSource) (s : State) : (startFrame f source s).cpe = s.cpe := rfl
@[simp] theorem startFrame_sul (f : Frame) (source : SendSource) (s : State) : (startFrame f source s).sul = s.sul := rfl

/-! ### setChunk -/

@[simp] theorem setChunk_pending (c : Nat) (ch : Chunk) (s : State) : (setChunk c ch s).pending = s.pending := by unfold setChunk queueMap; (try dsimp only); (repeat' split) <;> rfl
@[simp] theorem setChunk_clock (c : Nat) (ch : Chunk) (s : State) : (setChunk c ch s).clock = s.clock := by unfold setChunk queueMap; (try dsimp only); (repeat' split) <;> rfl
@[simp] theorem setChunk_freeIx (c : Nat) (ch : Chunk) (s : State) : (setChunk c ch s).freeIx = s.freeIx := by unfold setChunk queueMap; (try dsimp only); (repeat' split) <;> rfl
@[simp] theorem setChunk_cat (c : Nat) (ch : Chunk) (s : State) : (setChunk c ch s).cat = s.cat := by unfold setChunk queueMap; (try dsimp only); (repeat' split) <;> rfl
@[simp] theorem setChunk_jt (c : Nat) (ch : Chunk) (s : State) : (setChunk c ch s).jt = s.jt := by unfold setChunk queueMap; (try dsimp only); (repeat' split) <;> rfl
@[simp] theorem setChunk_port (c : Nat) (ch : Chunk) (s : State) : (setChunk c ch s).port = s.port := by unfold setChunk queueMap; (try dsimp only); (repeat' split) <;> rfl
@[simp] theorem setChunk_lif (c : Nat) (ch : Chunk) (s : State) : (setChunk c ch s).lif = s.lif := by unfold setChunk queueMap; (try dsimp only); (repeat' split) <;> rfl
@[simp] theorem setChunk_hou (c : Nat) (ch : Chunk) (s : State) : (setChunk c ch s).hou = s.hou := by unfold setChunk queueMap; (try dsimp only); (repeat' split) <;> rfl
@[simp] theorem setChunk_notes (c : Nat) (ch : Chunk) (s : State) : (setChunk c ch s).notes = s.notes := by unfold setChunk queueMap; (try dsimp only); (repeat' split) <;> rfl
@[simp] theorem setChunk_act (c : Nat) (ch : Chunk) (s : State) : (setChunk c ch s).act = s.act := by unfold setChunk queueMap; (try dsimp only); (repeat' split) <;> rfl
@[simp] theorem setChunk_cpe (c : Nat) (ch : Chunk) (s : State) : (setChunk c ch s).cpe = s.cpe := by unfold setChunk queueMap; (try dsimp only); (repeat' split) <;> rfl
@[simp] theorem setChunk_sul (c : Nat) (ch : Chunk) (s : State) : (setChunk c ch s).sul = s.sul := by unfold setChunk queueMap; (try dsimp only); (repeat' split) <;> rfl

/-! ### setUsed -/

@[simp] theorem setUsed_pending (c n : Nat) (s : State) : (setUsed c n s).pending = s.pending := rfl
@[simp] theorem setUsed_clock (c n : Nat) (s : State) : (setUsed c n s).clock = s.clock := rfl
@[simp] theorem setUsed_freeIx (c n : Nat) (s : State) : (setUsed c n s).freeIx = s.freeIx := rfl
@[simp] theorem setUsed_cat (c n : Nat) (s : State) : (setUsed c n s).cat = s.cat := rfl
@[simp] theorem setUsed_jt (c n : Nat) (s : State) : (setUsed c n s).jt = s.jt := rfl
@[simp] theorem setUsed_port (c n : Nat) (s : State) : (setUsed c n s).port = s.port := rfl
@[simp] theorem setUsed_lif (c n : Nat) (s : State) : (setUsed c n s).lif = s.lif := rfl
@[simp] theorem setUsed_hou (c n : Nat) (s : State) : (setUsed c n s).hou = s.hou := rfl
@[simp] theorem setUsed_notes (c n : Nat) (s : State) : (setUsed c n s).notes = s.notes := rfl
@[simp] theorem setUsed_act (c n : Nat) (s : State) : (setUsed c n s).act = s.act := rfl
@[simp] theorem setUsed_cpe (c n : Nat) (s : State) : (setUsed c n s).cpe = s.cpe := rfl
@[simp] theorem setUsed_sul (c n : Nat) (s : State) : (setUsed c n s).sul = s.sul := rfl

/-! ### takeChunk -/

@[simp] theorem takeChunk_pending (c i used : Nat) (s : State) : (takeChunk c i used s).pending = s.pending := by unfold takeChunk setChunk queueMap; (try dsimp only); (repeat' split) <;> rfl
@[simp] theorem takeChunk_clock (c i used : Nat) (s : State) : (takeChunk c i used s).clock = s.clock := by unfold takeChunk setChunk queueMap; (try dsimp only); (repeat' split) <;> rfl
@[simp] theorem takeChunk_freeIx (c i used : Nat) (s : State) : (takeChunk c i used s).freeIx = s.freeIx := by unfold takeChunk setChunk queueMap; (try dsimp only); (repeat' split) <;> rfl
@[simp] theorem takeChunk_cat (c i used : Nat) (s : State) : (takeChunk c i used s).cat = s.cat := by unfold takeChunk setChunk queueMap; (try dsimp only); (repeat' split) <;> rfl
@[simp] theorem takeChunk_jt (c i used : Nat) (s : State) : (takeChunk c i used s).jt = s.jt := by unfold takeChunk setChunk queueMap; (try dsimp only); (repeat' split) <;> rfl
@[simp] theorem takeChunk_port (c i used : Nat) (s : State) : (takeChunk c i used s).port = s.port := by unfold takeChunk setChunk queueMap; (try dsimp only); (repeat' split) <;> rfl
@[simp] theorem takeChunk_lif (c i used : Nat) (s : State) : (takeChunk c i used s).lif = s.lif := by unfold takeChunk setChunk queueMap; (try dsimp only); (repeat' split) <;> rfl
@[simp] theorem takeChunk_hou (c i used : Nat) (s : State) : (takeChunk c i used s).hou = s.hou := by unfold takeChunk setChunk queueMap; (try dsimp only); (repeat' split) <;> rfl
@[simp] theorem takeChunk_notes (c i used : Nat) (s : State) : (takeChunk c i used s).notes = s.notes := by unfold takeChunk setChunk queueMap; (try dsimp only); (repeat' split) <;> rfl
@[simp] theorem takeChunk_act (c i used : Nat) (s : State) : (takeChunk c i used s).act = s.act := by unfold takeChunk setChunk queueMap; (try dsimp only); (repeat' split) <;> rfl
@[simp] theorem takeChunk_cpe (c i used : Nat) (s : State) : (takeChunk c i used s).cpe = s.cpe := by unfold takeChunk setChunk queueMap; (try dsimp only); (repeat' split) <;> rfl
@[simp] theorem takeChunk_sul (c i used : Nat) (s : State) : (takeChunk c i used s).sul = s.sul := by unfold takeChunk setChunk queueMap; (try dsimp only); (repeat' split) <;> rfl

/-! ### takePledge -/

@[simp] theorem takePledge_pending (n : Nat) (s : State) : (takePledge n s).pending = s.pending := rfl
@[simp] theorem takePledge_clock (n : Nat) (s : State) : (takePledge n s).clock = s.clock := rfl
@[simp] theorem takePledge_freeIx (n : Nat) (s : State) : (takePledge n s).freeIx = s.freeIx := rfl
@[simp] theorem takePledge_cat (n : Nat) (s : State) : (takePledge n s).cat = s.cat := rfl
@[simp] theorem takePledge_jt (n : Nat) (s : State) : (takePledge n s).jt = s.jt := rfl
@[simp] theorem takePledge_port (n : Nat) (s : State) : (takePledge n s).port = s.port := rfl
@[simp] theorem takePledge_lif (n : Nat) (s : State) : (takePledge n s).lif = s.lif := rfl
@[simp] theorem takePledge_hou (n : Nat) (s : State) : (takePledge n s).hou = s.hou := rfl
@[simp] theorem takePledge_notes (n : Nat) (s : State) : (takePledge n s).notes = s.notes := rfl
@[simp] theorem takePledge_act (n : Nat) (s : State) : (takePledge n s).act = s.act := rfl
@[simp] theorem takePledge_cpe (n : Nat) (s : State) : (takePledge n s).cpe = s.cpe := rfl
@[simp] theorem takePledge_sul (n : Nat) (s : State) : (takePledge n s).sul = s.sul := rfl

/-! ### releasePledge -/

@[simp] theorem releasePledge_pending (n : Nat) (s : State) : (releasePledge n s).pending = s.pending := rfl
@[simp] theorem releasePledge_clock (n : Nat) (s : State) : (releasePledge n s).clock = s.clock := rfl
@[simp] theorem releasePledge_freeIx (n : Nat) (s : State) : (releasePledge n s).freeIx = s.freeIx := rfl
@[simp] theorem releasePledge_cat (n : Nat) (s : State) : (releasePledge n s).cat = s.cat := rfl
@[simp] theorem releasePledge_jt (n : Nat) (s : State) : (releasePledge n s).jt = s.jt := rfl
@[simp] theorem releasePledge_port (n : Nat) (s : State) : (releasePledge n s).port = s.port := rfl
@[simp] theorem releasePledge_lif (n : Nat) (s : State) : (releasePledge n s).lif = s.lif := rfl
@[simp] theorem releasePledge_hou (n : Nat) (s : State) : (releasePledge n s).hou = s.hou := rfl
@[simp] theorem releasePledge_notes (n : Nat) (s : State) : (releasePledge n s).notes = s.notes := rfl
@[simp] theorem releasePledge_act (n : Nat) (s : State) : (releasePledge n s).act = s.act := rfl
@[simp] theorem releasePledge_cpe (n : Nat) (s : State) : (releasePledge n s).cpe = s.cpe := rfl
@[simp] theorem releasePledge_sul (n : Nat) (s : State) : (releasePledge n s).sul = s.sul := rfl

/-! ### joinQueue -/

@[simp] theorem joinQueue_pending (i notBefore : Nat) (s : State) : (joinQueue i notBefore s).pending = s.pending := rfl
@[simp] theorem joinQueue_clock (i notBefore : Nat) (s : State) : (joinQueue i notBefore s).clock = s.clock := rfl
@[simp] theorem joinQueue_freeIx (i notBefore : Nat) (s : State) : (joinQueue i notBefore s).freeIx = s.freeIx := rfl
@[simp] theorem joinQueue_med (i notBefore : Nat) (s : State) : (joinQueue i notBefore s).med = s.med := rfl
@[simp] theorem joinQueue_jt (i notBefore : Nat) (s : State) : (joinQueue i notBefore s).jt = s.jt := rfl
@[simp] theorem joinQueue_port (i notBefore : Nat) (s : State) : (joinQueue i notBefore s).port = s.port := rfl
@[simp] theorem joinQueue_lif (i notBefore : Nat) (s : State) : (joinQueue i notBefore s).lif = s.lif := rfl
@[simp] theorem joinQueue_hou (i notBefore : Nat) (s : State) : (joinQueue i notBefore s).hou = s.hou := rfl
@[simp] theorem joinQueue_notes (i notBefore : Nat) (s : State) : (joinQueue i notBefore s).notes = s.notes := rfl
@[simp] theorem joinQueue_act (i notBefore : Nat) (s : State) : (joinQueue i notBefore s).act = s.act := rfl
@[simp] theorem joinQueue_cpe (i notBefore : Nat) (s : State) : (joinQueue i notBefore s).cpe = s.cpe := rfl
@[simp] theorem joinQueue_sul (i notBefore : Nat) (s : State) : (joinQueue i notBefore s).sul = s.sul := rfl

/-! ### createEntry -/

@[simp] theorem createEntry_pending (i : Nat) (e : Entry) (before : List WtItem) (s : State) : (createEntry i e before s).pending = s.pending := rfl
@[simp] theorem createEntry_clock (i : Nat) (e : Entry) (before : List WtItem) (s : State) : (createEntry i e before s).clock = s.clock := rfl
@[simp] theorem createEntry_freeIx (i : Nat) (e : Entry) (before : List WtItem) (s : State) : (createEntry i e before s).freeIx = s.freeIx := rfl
@[simp] theorem createEntry_med (i : Nat) (e : Entry) (before : List WtItem) (s : State) : (createEntry i e before s).med = s.med := rfl
@[simp] theorem createEntry_jt (i : Nat) (e : Entry) (before : List WtItem) (s : State) : (createEntry i e before s).jt = s.jt := rfl
@[simp] theorem createEntry_port (i : Nat) (e : Entry) (before : List WtItem) (s : State) : (createEntry i e before s).port = s.port := rfl
@[simp] theorem createEntry_lif (i : Nat) (e : Entry) (before : List WtItem) (s : State) : (createEntry i e before s).lif = s.lif := rfl
@[simp] theorem createEntry_hou (i : Nat) (e : Entry) (before : List WtItem) (s : State) : (createEntry i e before s).hou = s.hou := rfl
@[simp] theorem createEntry_notes (i : Nat) (e : Entry) (before : List WtItem) (s : State) : (createEntry i e before s).notes = s.notes := rfl
@[simp] theorem createEntry_act (i : Nat) (e : Entry) (before : List WtItem) (s : State) : (createEntry i e before s).act = s.act := rfl
@[simp] theorem createEntry_cpe (i : Nat) (e : Entry) (before : List WtItem) (s : State) : (createEntry i e before s).cpe = s.cpe := rfl
@[simp] theorem createEntry_sul (i : Nat) (e : Entry) (before : List WtItem) (s : State) : (createEntry i e before s).sul = s.sul := rfl

/-! ### createJob -/

@[simp] theorem createJob_pending (make : Nat → Job) (s : State) : (createJob make s).pending = s.pending := by unfold createJob wake stopTimer putJob drawTag beginWake; (try dsimp only); (repeat' split) <;> rfl
@[simp] theorem createJob_clock (make : Nat → Job) (s : State) : (createJob make s).clock = s.clock := by unfold createJob wake stopTimer putJob drawTag beginWake; (try dsimp only); (repeat' split) <;> rfl
@[simp] theorem createJob_freeIx (make : Nat → Job) (s : State) : (createJob make s).freeIx = s.freeIx := by unfold createJob wake stopTimer putJob drawTag beginWake; (try dsimp only); (repeat' split) <;> rfl
@[simp] theorem createJob_cat (make : Nat → Job) (s : State) : (createJob make s).cat = s.cat := by unfold createJob wake stopTimer putJob drawTag beginWake; (try dsimp only); (repeat' split) <;> rfl
@[simp] theorem createJob_med (make : Nat → Job) (s : State) : (createJob make s).med = s.med := by unfold createJob wake stopTimer putJob drawTag beginWake; (try dsimp only); (repeat' split) <;> rfl
@[simp] theorem createJob_port (make : Nat → Job) (s : State) : (createJob make s).port = s.port := by unfold createJob wake stopTimer putJob drawTag beginWake; (try dsimp only); (repeat' split) <;> rfl
@[simp] theorem createJob_lif (make : Nat → Job) (s : State) : (createJob make s).lif = s.lif := by unfold createJob wake stopTimer putJob drawTag beginWake; (try dsimp only); (repeat' split) <;> rfl
@[simp] theorem createJob_hou (make : Nat → Job) (s : State) : (createJob make s).hou = s.hou := by unfold createJob wake stopTimer putJob drawTag beginWake; (try dsimp only); (repeat' split) <;> rfl
@[simp] theorem createJob_notes (make : Nat → Job) (s : State) : (createJob make s).notes = s.notes := by unfold createJob wake stopTimer putJob drawTag beginWake; (try dsimp only); (repeat' split) <;> rfl
@[simp] theorem createJob_cpe (make : Nat → Job) (s : State) : (createJob make s).cpe = s.cpe := by unfold createJob wake stopTimer putJob drawTag beginWake; (try dsimp only); (repeat' split) <;> rfl
@[simp] theorem createJob_sul (make : Nat → Job) (s : State) : (createJob make s).sul = s.sul := by unfold createJob wake stopTimer putJob drawTag beginWake; (try dsimp only); (repeat' split) <;> rfl

/-! ### issueOp -/

@[simp] theorem issueOp_pending (op : Issued) (s : State) : (issueOp op s).pending = s.pending := rfl
@[simp] theorem issueOp_clock (op : Issued) (s : State) : (issueOp op s).clock = s.clock := rfl
@[simp] theorem issueOp_freeIx (op : Issued) (s : State) : (issueOp op s).freeIx = s.freeIx := rfl
@[simp] theorem issueOp_cat (op : Issued) (s : State) : (issueOp op s).cat = s.cat := rfl
@[simp] theorem issueOp_jt (op : Issued) (s : State) : (issueOp op s).jt = s.jt := rfl
@[simp] theorem issueOp_port (op : Issued) (s : State) : (issueOp op s).port = s.port := rfl
@[simp] theorem issueOp_lif (op : Issued) (s : State) : (issueOp op s).lif = s.lif := rfl
@[simp] theorem issueOp_hou (op : Issued) (s : State) : (issueOp op s).hou = s.hou := rfl
@[simp] theorem issueOp_notes (op : Issued) (s : State) : (issueOp op s).notes = s.notes := rfl
@[simp] theorem issueOp_act (op : Issued) (s : State) : (issueOp op s).act = s.act := rfl
@[simp] theorem issueOp_cpe (op : Issued) (s : State) : (issueOp op s).cpe = s.cpe := rfl
@[simp] theorem issueOp_sul (op : Issued) (s : State) : (issueOp op s).sul = s.sul := rfl

/-! ### setStore -/

@[simp] theorem setStore_pending (addr : Nat) (b : List Byte) (s : State) : (setStore addr b s).pending = s.pending := rfl
@[simp] theorem setStore_clock (addr : Nat) (b : List Byte) (s : State) : (setStore addr b s).clock = s.clock := rfl
@[simp] theorem setStore_freeIx (addr : Nat) (b : List Byte) (s : State) : (setStore addr b s).freeIx = s.freeIx := rfl
@[simp] theorem setStore_cat (addr : Nat) (b : List Byte) (s : State) : (setStore addr b s).cat = s.cat := rfl
@[simp] theorem setStore_jt (addr : Nat) (b : List Byte) (s : State) : (setStore addr b s).jt = s.jt := rfl
@[simp] theorem setStore_port (addr : Nat) (b : List Byte) (s : State) : (setStore addr b s).port = s.port := rfl
@[simp] theorem setStore_lif (addr : Nat) (b : List Byte) (s : State) : (setStore addr b s).lif = s.lif := rfl
@[simp] theorem setStore_hou (addr : Nat) (b : List Byte) (s : State) : (setStore addr b s).hou = s.hou := rfl
@[simp] theorem setStore_notes (addr : Nat) (b : List Byte) (s : State) : (setStore addr b s).notes = s.notes := rfl
@[simp] theorem setStore_act (addr : Nat) (b : List Byte) (s : State) : (setStore addr b s).act = s.act := rfl
@[simp] theorem setStore_cpe (addr : Nat) (b : List Byte) (s : State) : (setStore addr b s).cpe = s.cpe := rfl
@[simp] theorem setStore_sul (addr : Nat) (b : List Byte) (s : State) : (setStore addr b s).sul = s.sul := rfl

/-! ### dropAnswer -/

@[simp] theorem dropAnswer_pending (order : Nat) (s : State) : (dropAnswer order s).pending = s.pending := rfl
@[simp] theorem dropAnswer_clock (order : Nat) (s : State) : (dropAnswer order s).clock = s.clock := rfl
@[simp] theorem dropAnswer_freeIx (order : Nat) (s : State) : (dropAnswer order s).freeIx = s.freeIx := rfl
@[simp] theorem dropAnswer_cat (order : Nat) (s : State) : (dropAnswer order s).cat = s.cat := rfl
@[simp] theorem dropAnswer_med (order : Nat) (s : State) : (dropAnswer order s).med = s.med := rfl
@[simp] theorem dropAnswer_jt (order : Nat) (s : State) : (dropAnswer order s).jt = s.jt := rfl
@[simp] theorem dropAnswer_port (order : Nat) (s : State) : (dropAnswer order s).port = s.port := rfl
@[simp] theorem dropAnswer_lif (order : Nat) (s : State) : (dropAnswer order s).lif = s.lif := rfl
@[simp] theorem dropAnswer_notes (order : Nat) (s : State) : (dropAnswer order s).notes = s.notes := rfl
@[simp] theorem dropAnswer_act (order : Nat) (s : State) : (dropAnswer order s).act = s.act := rfl
@[simp] theorem dropAnswer_cpe (order : Nat) (s : State) : (dropAnswer order s).cpe = s.cpe := rfl
@[simp] theorem dropAnswer_sul (order : Nat) (s : State) : (dropAnswer order s).sul = s.sul := rfl

/-! ### clearHeard -/

@[simp] theorem clearHeard_pending (s : State) : (clearHeard s).pending = s.pending := rfl
@[simp] theorem clearHeard_clock (s : State) : (clearHeard s).clock = s.clock := rfl
@[simp] theorem clearHeard_freeIx (s : State) : (clearHeard s).freeIx = s.freeIx := rfl
@[simp] theorem clearHeard_cat (s : State) : (clearHeard s).cat = s.cat := rfl
@[simp] theorem clearHeard_med (s : State) : (clearHeard s).med = s.med := rfl
@[simp] theorem clearHeard_jt (s : State) : (clearHeard s).jt = s.jt := rfl
@[simp] theorem clearHeard_port (s : State) : (clearHeard s).port = s.port := rfl
@[simp] theorem clearHeard_hou (s : State) : (clearHeard s).hou = s.hou := rfl
@[simp] theorem clearHeard_notes (s : State) : (clearHeard s).notes = s.notes := rfl
@[simp] theorem clearHeard_act (s : State) : (clearHeard s).act = s.act := rfl
@[simp] theorem clearHeard_cpe (s : State) : (clearHeard s).cpe = s.cpe := rfl
@[simp] theorem clearHeard_sul (s : State) : (clearHeard s).sul = s.sul := rfl

/-! ### countError -/

@[simp] theorem countError_pending (s : State) : (countError s).pending = s.pending := rfl
@[simp] theorem countError_clock (s : State) : (countError s).clock = s.clock := rfl
@[simp] theorem countError_freeIx (s : State) : (countError s).freeIx = s.freeIx := rfl
@[simp] theorem countError_cat (s : State) : (countError s).cat = s.cat := rfl
@[simp] theorem countError_med (s : State) : (countError s).med = s.med := rfl
@[simp] theorem countError_jt (s : State) : (countError s).jt = s.jt := rfl
@[simp] theorem countError_port (s : State) : (countError s).port = s.port := rfl
@[simp] theorem countError_hou (s : State) : (countError s).hou = s.hou := rfl
@[simp] theorem countError_notes (s : State) : (countError s).notes = s.notes := rfl
@[simp] theorem countError_act (s : State) : (countError s).act = s.act := rfl
@[simp] theorem countError_cpe (s : State) : (countError s).cpe = s.cpe := rfl
@[simp] theorem countError_sul (s : State) : (countError s).sul = s.sul := rfl

/-! ### passUnits -/

@[simp] theorem passUnits_pending (n : Nat) (s : State) : (passUnits n s).pending = s.pending := by unfold passUnits passBits onRecords; (try dsimp only); (repeat' split) <;> rfl
@[simp] theorem passUnits_freeIx (n : Nat) (s : State) : (passUnits n s).freeIx = s.freeIx := by unfold passUnits passBits onRecords; (try dsimp only); (repeat' split) <;> rfl
@[simp] theorem passUnits_cat (n : Nat) (s : State) : (passUnits n s).cat = s.cat := by unfold passUnits passBits onRecords; (try dsimp only); (repeat' split) <;> rfl
@[simp] theorem passUnits_med (n : Nat) (s : State) : (passUnits n s).med = s.med := by unfold passUnits passBits onRecords; (try dsimp only); (repeat' split) <;> rfl
@[simp] theorem passUnits_jt (n : Nat) (s : State) : (passUnits n s).jt = s.jt := by unfold passUnits passBits onRecords; (try dsimp only); (repeat' split) <;> rfl
@[simp] theorem passUnits_port (n : Nat) (s : State) : (passUnits n s).port = s.port := by unfold passUnits passBits onRecords; (try dsimp only); (repeat' split) <;> rfl
@[simp] theorem passUnits_notes (n : Nat) (s : State) : (passUnits n s).notes = s.notes := by unfold passUnits passBits onRecords; (try dsimp only); (repeat' split) <;> rfl
@[simp] theorem passUnits_act (n : Nat) (s : State) : (passUnits n s).act = s.act := by unfold passUnits passBits onRecords; (try dsimp only); (repeat' split) <;> rfl
@[simp] theorem passUnits_cpe (n : Nat) (s : State) : (passUnits n s).cpe = s.cpe := by unfold passUnits passBits onRecords; (try dsimp only); (repeat' split) <;> rfl
@[simp] theorem passUnits_sul (n : Nat) (s : State) : (passUnits n s).sul = s.sul := by unfold passUnits passBits onRecords; (try dsimp only); (repeat' split) <;> rfl

/-! ### passBitTimes -/

@[simp] theorem passBitTimes_pending (n : Nat) (s : State) : (passBitTimes n s).pending = s.pending := by unfold passBitTimes passUnits passBits onRecords; (try dsimp only); (repeat' split) <;> rfl
@[simp] theorem passBitTimes_freeIx (n : Nat) (s : State) : (passBitTimes n s).freeIx = s.freeIx := by unfold passBitTimes passUnits passBits onRecords; (try dsimp only); (repeat' split) <;> rfl
@[simp] theorem passBitTimes_cat (n : Nat) (s : State) : (passBitTimes n s).cat = s.cat := by unfold passBitTimes passUnits passBits onRecords; (try dsimp only); (repeat' split) <;> rfl
@[simp] theorem passBitTimes_med (n : Nat) (s : State) : (passBitTimes n s).med = s.med := by unfold passBitTimes passUnits passBits onRecords; (try dsimp only); (repeat' split) <;> rfl
@[simp] theorem passBitTimes_jt (n : Nat) (s : State) : (passBitTimes n s).jt = s.jt := by unfold passBitTimes passUnits passBits onRecords; (try dsimp only); (repeat' split) <;> rfl
@[simp] theorem passBitTimes_port (n : Nat) (s : State) : (passBitTimes n s).port = s.port := by unfold passBitTimes passUnits passBits onRecords; (try dsimp only); (repeat' split) <;> rfl
@[simp] theorem passBitTimes_notes (n : Nat) (s : State) : (passBitTimes n s).notes = s.notes := by unfold passBitTimes passUnits passBits onRecords; (try dsimp only); (repeat' split) <;> rfl
@[simp] theorem passBitTimes_act (n : Nat) (s : State) : (passBitTimes n s).act = s.act := by unfold passBitTimes passUnits passBits onRecords; (try dsimp only); (repeat' split) <;> rfl
@[simp] theorem passBitTimes_cpe (n : Nat) (s : State) : (passBitTimes n s).cpe = s.cpe := by unfold passBitTimes passUnits passBits onRecords; (try dsimp only); (repeat' split) <;> rfl
@[simp] theorem passBitTimes_sul (n : Nat) (s : State) : (passBitTimes n s).sul = s.sul := by unfold passBitTimes passUnits passBits onRecords; (try dsimp only); (repeat' split) <;> rfl

/-! ### passTo -/

@[simp] theorem passTo_pending (n : Nat) (s : State) : (passTo n s).pending = s.pending := by unfold passTo passUnits passBits onRecords; (try dsimp only); (repeat' split) <;> rfl
@[simp] theorem passTo_freeIx (n : Nat) (s : State) : (passTo n s).freeIx = s.freeIx := by unfold passTo passUnits passBits onRecords; (try dsimp only); (repeat' split) <;> rfl
@[simp] theorem passTo_cat (n : Nat) (s : State) : (passTo n s).cat = s.cat := by unfold passTo passUnits passBits onRecords; (try dsimp only); (repeat' split) <;> rfl
@[simp] theorem passTo_med (n : Nat) (s : State) : (passTo n s).med = s.med := by unfold passTo passUnits passBits onRecords; (try dsimp only); (repeat' split) <;> rfl
@[simp] theorem passTo_jt (n : Nat) (s : State) : (passTo n s).jt = s.jt := by unfold passTo passUnits passBits onRecords; (try dsimp only); (repeat' split) <;> rfl
@[simp] theorem passTo_port (n : Nat) (s : State) : (passTo n s).port = s.port := by unfold passTo passUnits passBits onRecords; (try dsimp only); (repeat' split) <;> rfl
@[simp] theorem passTo_notes (n : Nat) (s : State) : (passTo n s).notes = s.notes := by unfold passTo passUnits passBits onRecords; (try dsimp only); (repeat' split) <;> rfl
@[simp] theorem passTo_act (n : Nat) (s : State) : (passTo n s).act = s.act := by unfold passTo passUnits passBits onRecords; (try dsimp only); (repeat' split) <;> rfl
@[simp] theorem passTo_cpe (n : Nat) (s : State) : (passTo n s).cpe = s.cpe := by unfold passTo passUnits passBits onRecords; (try dsimp only); (repeat' split) <;> rfl
@[simp] theorem passTo_sul (n : Nat) (s : State) : (passTo n s).sul = s.sul := by unfold passTo passUnits passBits onRecords; (try dsimp only); (repeat' split) <;> rfl

/-! ### ignoreWrite -/

@[simp] theorem ignoreWrite_pending (s : State) : (ignoreWrite s).pending = s.pending := rfl
@[simp] theorem ignoreWrite_clock (s : State) : (ignoreWrite s).clock = s.clock := rfl
@[simp] theorem ignoreWrite_freeIx (s : State) : (ignoreWrite s).freeIx = s.freeIx := rfl
@[simp] theorem ignoreWrite_cat (s : State) : (ignoreWrite s).cat = s.cat := rfl
@[simp] theorem ignoreWrite_med (s : State) : (ignoreWrite s).med = s.med := rfl
@[simp] theorem ignoreWrite_jt (s : State) : (ignoreWrite s).jt = s.jt := rfl
@[simp] theorem ignoreWrite_port (s : State) : (ignoreWrite s).port = s.port := rfl
@[simp] theorem ignoreWrite_lif (s : State) : (ignoreWrite s).lif = s.lif := rfl
@[simp] theorem ignoreWrite_hou (s : State) : (ignoreWrite s).hou = s.hou := rfl
@[simp] theorem ignoreWrite_notes (s : State) : (ignoreWrite s).notes = s.notes := rfl
@[simp] theorem ignoreWrite_act (s : State) : (ignoreWrite s).act = s.act := rfl
@[simp] theorem ignoreWrite_sul (s : State) : (ignoreWrite s).sul = s.sul := rfl

/-! ### followConditions -/

@[simp] theorem followConditions_pending (s : State) : (followConditions s).pending = s.pending := by unfold followConditions stopTimer; (try dsimp only); (repeat' split) <;> rfl
@[simp] theorem followConditions_clock (s : State) : (followConditions s).clock = s.clock := by unfold followConditions stopTimer; (try dsimp only); (repeat' split) <;> rfl
@[simp] theorem followConditions_freeIx (s : State) : (followConditions s).freeIx = s.freeIx := by unfold followConditions stopTimer; (try dsimp only); (repeat' split) <;> rfl
@[simp] theorem followConditions_cat (s : State) : (followConditions s).cat = s.cat := by unfold followConditions stopTimer; (try dsimp only); (repeat' split) <;> rfl
@[simp] theorem followConditions_med (s : State) : (followConditions s).med = s.med := by unfold followConditions stopTimer; (try dsimp only); (repeat' split) <;> rfl
@[simp] theorem followConditions_jt (s : State) : (followConditions s).jt = s.jt := by unfold followConditions stopTimer; (try dsimp only); (repeat' split) <;> rfl
@[simp] theorem followConditions_port (s : State) : (followConditions s).port = s.port := by unfold followConditions stopTimer; (try dsimp only); (repeat' split) <;> rfl
@[simp] theorem followConditions_lif (s : State) : (followConditions s).lif = s.lif := by unfold followConditions stopTimer; (try dsimp only); (repeat' split) <;> rfl
@[simp] theorem followConditions_hou (s : State) : (followConditions s).hou = s.hou := by unfold followConditions stopTimer; (try dsimp only); (repeat' split) <;> rfl
@[simp] theorem followConditions_notes (s : State) : (followConditions s).notes = s.notes := by unfold followConditions stopTimer; (try dsimp only); (repeat' split) <;> rfl
@[simp] theorem followConditions_cpe (s : State) : (followConditions s).cpe = s.cpe := by unfold followConditions stopTimer; (try dsimp only); (repeat' split) <;> rfl
@[simp] theorem followConditions_sul (s : State) : (followConditions s).sul = s.sul := by unfold followConditions stopTimer; (try dsimp only); (repeat' split) <;> rfl

/-! ### wakeForWork -/

@[simp] theorem wakeForWork_pending (s : State) : (wakeForWork s).pending = s.pending := by unfold wakeForWork wake beginWake stopTimer; (try dsimp only); (repeat' split) <;> rfl
@[simp] theorem wakeForWork_clock (s : State) : (wakeForWork s).clock = s.clock := by unfold wakeForWork wake beginWake stopTimer; (try dsimp only); (repeat' split) <;> rfl
@[simp] theorem wakeForWork_freeIx (s : State) : (wakeForWork s).freeIx = s.freeIx := by unfold wakeForWork wake beginWake stopTimer; (try dsimp only); (repeat' split) <;> rfl
@[simp] theorem wakeForWork_cat (s : State) : (wakeForWork s).cat = s.cat := by unfold wakeForWork wake beginWake stopTimer; (try dsimp only); (repeat' split) <;> rfl
@[simp] theorem wakeForWork_med (s : State) : (wakeForWork s).med = s.med := by unfold wakeForWork wake beginWake stopTimer; (try dsimp only); (repeat' split) <;> rfl
@[simp] theorem wakeForWork_jt (s : State) : (wakeForWork s).jt = s.jt := by unfold wakeForWork wake beginWake stopTimer; (try dsimp only); (repeat' split) <;> rfl
@[simp] theorem wakeForWork_port (s : State) : (wakeForWork s).port = s.port := by unfold wakeForWork wake beginWake stopTimer; (try dsimp only); (repeat' split) <;> rfl
@[simp] theorem wakeForWork_lif (s : State) : (wakeForWork s).lif = s.lif := by unfold wakeForWork wake beginWake stopTimer; (try dsimp only); (repeat' split) <;> rfl
@[simp] theorem wakeForWork_hou (s : State) : (wakeForWork s).hou = s.hou := by unfold wakeForWork wake beginWake stopTimer; (try dsimp only); (repeat' split) <;> rfl
@[simp] theorem wakeForWork_notes (s : State) : (wakeForWork s).notes = s.notes := by unfold wakeForWork wake beginWake stopTimer; (try dsimp only); (repeat' split) <;> rfl
@[simp] theorem wakeForWork_cpe (s : State) : (wakeForWork s).cpe = s.cpe := by unfold wakeForWork wake beginWake stopTimer; (try dsimp only); (repeat' split) <;> rfl
@[simp] theorem wakeForWork_sul (s : State) : (wakeForWork s).sul = s.sul := by unfold wakeForWork wake beginWake stopTimer; (try dsimp only); (repeat' split) <;> rfl

/-! ### dozeIfDrained -/

@[simp] theorem dozeIfDrained_pending (s : State) : (dozeIfDrained s).pending = s.pending := by unfold dozeIfDrained enterDoze; (try dsimp only); (repeat' split) <;> rfl
@[simp] theorem dozeIfDrained_clock (s : State) : (dozeIfDrained s).clock = s.clock := by unfold dozeIfDrained enterDoze; (try dsimp only); (repeat' split) <;> rfl
@[simp] theorem dozeIfDrained_freeIx (s : State) : (dozeIfDrained s).freeIx = s.freeIx := by unfold dozeIfDrained enterDoze; (try dsimp only); (repeat' split) <;> rfl
@[simp] theorem dozeIfDrained_cat (s : State) : (dozeIfDrained s).cat = s.cat := by unfold dozeIfDrained enterDoze; (try dsimp only); (repeat' split) <;> rfl
@[simp] theorem dozeIfDrained_med (s : State) : (dozeIfDrained s).med = s.med := by unfold dozeIfDrained enterDoze; (try dsimp only); (repeat' split) <;> rfl
@[simp] theorem dozeIfDrained_jt (s : State) : (dozeIfDrained s).jt = s.jt := by unfold dozeIfDrained enterDoze; (try dsimp only); (repeat' split) <;> rfl
@[simp] theorem dozeIfDrained_port (s : State) : (dozeIfDrained s).port = s.port := by unfold dozeIfDrained enterDoze; (try dsimp only); (repeat' split) <;> rfl
@[simp] theorem dozeIfDrained_lif (s : State) : (dozeIfDrained s).lif = s.lif := by unfold dozeIfDrained enterDoze; (try dsimp only); (repeat' split) <;> rfl
@[simp] theorem dozeIfDrained_hou (s : State) : (dozeIfDrained s).hou = s.hou := by unfold dozeIfDrained enterDoze; (try dsimp only); (repeat' split) <;> rfl
@[simp] theorem dozeIfDrained_notes (s : State) : (dozeIfDrained s).notes = s.notes := by unfold dozeIfDrained enterDoze; (try dsimp only); (repeat' split) <;> rfl
@[simp] theorem dozeIfDrained_cpe (s : State) : (dozeIfDrained s).cpe = s.cpe := by unfold dozeIfDrained enterDoze; (try dsimp only); (repeat' split) <;> rfl
@[simp] theorem dozeIfDrained_sul (s : State) : (dozeIfDrained s).sul = s.sul := by unfold dozeIfDrained enterDoze; (try dsimp only); (repeat' split) <;> rfl

/-! ### takePort, freePort -/

@[simp] theorem takePort_pending (j : Nat) (line : LineDirection) (s : State) : (takePort j line s).pending = s.pending := rfl
@[simp] theorem takePort_clock (j : Nat) (line : LineDirection) (s : State) : (takePort j line s).clock = s.clock := rfl
@[simp] theorem takePort_freeIx (j : Nat) (line : LineDirection) (s : State) : (takePort j line s).freeIx = s.freeIx := rfl
@[simp] theorem takePort_cat (j : Nat) (line : LineDirection) (s : State) : (takePort j line s).cat = s.cat := rfl
@[simp] theorem takePort_med (j : Nat) (line : LineDirection) (s : State) : (takePort j line s).med = s.med := rfl
@[simp] theorem takePort_jt (j : Nat) (line : LineDirection) (s : State) : (takePort j line s).jt = s.jt := rfl
@[simp] theorem takePort_lif (j : Nat) (line : LineDirection) (s : State) : (takePort j line s).lif = s.lif := rfl
@[simp] theorem takePort_hou (j : Nat) (line : LineDirection) (s : State) : (takePort j line s).hou = s.hou := rfl
@[simp] theorem takePort_notes (j : Nat) (line : LineDirection) (s : State) : (takePort j line s).notes = s.notes := rfl
@[simp] theorem takePort_act (j : Nat) (line : LineDirection) (s : State) : (takePort j line s).act = s.act := rfl
@[simp] theorem takePort_cpe (j : Nat) (line : LineDirection) (s : State) : (takePort j line s).cpe = s.cpe := rfl
@[simp] theorem takePort_sul (j : Nat) (line : LineDirection) (s : State) : (takePort j line s).sul = s.sul := rfl
@[simp] theorem takePort_port (j : Nat) (line : LineDirection) (s : State) :
    (takePort j line s).port = { owner := some j, line := line, lineHigh := [], lineLow := [] } := rfl

@[simp] theorem freePort_pending (j : Nat) (s : State) : (freePort j s).pending = s.pending := rfl
@[simp] theorem freePort_clock (j : Nat) (s : State) : (freePort j s).clock = s.clock := rfl
@[simp] theorem freePort_freeIx (j : Nat) (s : State) : (freePort j s).freeIx = s.freeIx := rfl
@[simp] theorem freePort_cat (j : Nat) (s : State) : (freePort j s).cat = s.cat := rfl
@[simp] theorem freePort_med (j : Nat) (s : State) : (freePort j s).med = s.med := rfl
@[simp] theorem freePort_jt (j : Nat) (s : State) : (freePort j s).jt = s.jt := rfl
@[simp] theorem freePort_lif (j : Nat) (s : State) : (freePort j s).lif = s.lif := rfl
@[simp] theorem freePort_hou (j : Nat) (s : State) : (freePort j s).hou = s.hou := rfl
@[simp] theorem freePort_notes (j : Nat) (s : State) : (freePort j s).notes = s.notes := rfl
@[simp] theorem freePort_act (j : Nat) (s : State) : (freePort j s).act = s.act := rfl
@[simp] theorem freePort_cpe (j : Nat) (s : State) : (freePort j s).cpe = s.cpe := rfl
@[simp] theorem freePort_sul (j : Nat) (s : State) : (freePort j s).sul = s.sul := rfl

/-- The end of the owner's job frees the port, and its line with it; the end of another job leaves the port alone. -/
theorem freePort_port (j : Nat) (s : State) :
    (freePort j s).port = if s.port.owner = some j then { s.port with owner := none, line := .released } else s.port := by
  unfold freePort; split <;> simp_all

end Sys2Proof.Machine
end

