-- ==== Sys2Proof/Laws/Lookup.lean ====
section
/-! SUPPORT. What the lookups find: job records, entries and chunks after each kind of update, and what a search of a
table gives. -/

namespace Sys2Proof.Machine

variable {s : State}

/-! ## Searches -/

theorem smapGet_of_mem {α : Type} {m : SMap α} {n : Nat} {a : α} (hr : smapRising m = true) (h : (n, a) ∈ m) :
    smapGet m n = some a := by
  induction m with
  | nil => simp at h
  | cons p t ih =>
    obtain ⟨k, b⟩ := p
    have hp := (smapRising_iff _).1 hr
    rw [List.pairwise_cons] at hp
    rcases List.mem_cons.1 h with h | h
    · cases h; simp [smapGet]
    · have hlt := hp.1 _ h
      have : n ≠ k := by simp at hlt; omega
      simp only [smapGet, this, if_false]
      exact ih ((smapRising_iff _).2 hp.2) h

theorem jobAt_of_findJob {p : Job → Bool} {j : Nat} {job : Job} (hs : jobsOk s.jt.jobs)
    (h : s.findJob p = some (j, job)) : s.jobAt j = some job ∧ p job = true := by
  unfold State.findJob at h
  exact ⟨smapGet_of_mem hs.1 (List.mem_of_find?_eq_some h), by simpa using List.find?_some h⟩

theorem jobAt_of_captureJob {j : Nat} {job : Job} {c : CaptureJob} (hs : jobsOk s.jt.jobs)
    (h : s.captureJob = some (j, job, c)) : s.jobAt j = some job ∧ job.body = .capture c := by
  unfold State.captureJob at h
  split at h
  · rename_i j' job' hf
    cases hc : job'.captureOf with
    | none => simp [hc] at h
    | some c' =>
      simp [hc] at h
      obtain ⟨rfl, rfl, rfl⟩ := h
      refine ⟨(jobAt_of_findJob hs hf).1, ?_⟩
      unfold Job.captureOf at hc
      split at hc
      · simp_all
      · cases hc
  · cases h

theorem entryAt_of_findTake {t : TakeNo} {i : Nat} {e : Entry} (hs : smapRising s.cat.entries = true)
    (h : s.findTake t = some (i, e)) : s.entryAt i = some e ∧ e.take = t := by
  unfold State.findTake at h
  exact ⟨smapGet_of_mem hs (List.mem_of_find?_eq_some h), by simpa using List.find?_some h⟩

theorem entryAt_of_playableEntry {t : TakeNo} {i : Nat} {e : Entry} (hs : smapRising s.cat.entries = true)
    (h : s.playableEntry t = some (i, e)) : s.entryAt i = some e ∧ e.take = t ∧ e.playable = true := by
  unfold State.playableEntry at h
  split at h
  · rename_i i' e' hf
    split at h
    · cases h; exact ⟨(entryAt_of_findTake hs hf).1, (entryAt_of_findTake hs hf).2, ‹_›⟩
    · cases h
  · cases h

/-- No job of a kind, said of the records: the count of R23, R148 and R162. -/
theorem countKind_eq_zero (hs : jobsOk s.jt.jobs) (k : JobKind) :
    s.countKind k = 0 ↔ ∀ j job, s.jobAt j = some job → job.kind ≠ k := by
  unfold State.countKind State.countJobs
  rw [List.countP_eq_zero]
  constructor
  · intro h j job hj; simpa using h _ (smapGet_some_mem hj)
  · rintro h ⟨j, job⟩ hm; simpa using h j job (smapGet_of_mem hs.1 hm)

theorem jobAt_freeRecord (hs : jobsOk s.jt.jobs) : s.jobAt s.freeRecord = none := smapGet_smapLeastFree 0 hs.1

theorem freeRecord_lt (hs : s.jt.jobs.length < 8) : s.freeRecord < 8 := by
  have := smapLeastFree_le s.jt.jobs 0
  unfold State.freeRecord
  omega

/-- Every index below the lowest empty one holds an entry (R4). -/
theorem smapGet_below_leastFree {α : Type} {m : SMap α} {n k : Nat} (hr : smapRising m = true) (h : n ≤ k)
    (hk : k < smapLeastFree m n) : smapGet m k ≠ none := by
  induction m generalizing n with
  | nil => simp [smapLeastFree] at hk; omega
  | cons p t ih =>
    obtain ⟨i, a⟩ := p
    simp only [smapLeastFree] at hk
    simp only [smapGet]
    by_cases hi : k = i
    · simp [hi]
    · rw [if_neg hi]
      split at hk
      · exact ih (smapRising_tail hr) h hk
      · split at hk
        · exact ih (smapRising_tail hr) (by omega) hk
        · omega

/-! ## Records after an update -/

@[simp] theorem get_putJob (j k : Nat) (job : Job) (s : State) :
    smapGet (putJob j job s).jt.jobs k = if k = j then some job else smapGet s.jt.jobs k := by
  unfold putJob
  split
  · subst k; exact smapGet_smapSet_self _ _ _
  · exact smapGet_smapSet_ne _ _ ‹_›

@[simp] theorem get_modJob (j k : Nat) (f : Job → Job) (s : State) :
    smapGet (modJob j f s).jt.jobs k = if k = j then (smapGet s.jt.jobs j).map f else smapGet s.jt.jobs k := by
  unfold modJob State.jobAt
  split
  · rename_i job h; simp [h]
  · rename_i h
    split
    · subst k; simp [h]
    · rfl

theorem modJob_of_get {j : Nat} {job : Job} (f : Job → Job) (h : s.jobAt j = some job) :
    modJob j f s = putJob j (f job) s := by simp [modJob, h]

@[simp] theorem get_modEntry (i k : Nat) (f : Entry → Entry) (s : State) :
    smapGet (modEntry i f s).cat.entries k = if k = i then (smapGet s.cat.entries i).map f else smapGet s.cat.entries k := by
  unfold modEntry State.entryAt
  split
  · rename_i e h
    split
    · subst k; simp [h]
    · exact smapGet_smapSet_ne _ _ ‹_›
  · rename_i h
    split
    · subst k; simp [h]
    · rfl

@[simp] theorem queueEntry_entries (i : Nat) (s : State) : (queueEntry i s).cat.entries = s.cat.entries := by
  unfold queueEntry; split <;> rfl

@[simp] theorem get_changeEntry (i k : Nat) (f : Entry → Entry) (s : State) :
    smapGet (changeEntry i f s).cat.entries k =
      if k = i then (smapGet s.cat.entries i).map f else smapGet s.cat.entries k := by simp [changeEntry]

@[simp] theorem get_changeEntryMarked (i k : Nat) (f : Entry → Entry) (s : State) :
    smapGet (changeEntryMarked i f s).cat.entries k =
      if k = i then (smapGet s.cat.entries i).map f else smapGet s.cat.entries k := by
  unfold changeEntryMarked setMark; simp

theorem mem_wt_queueEntry (i : Nat) (s : State) : .entry i ∈ (queueEntry i s).cat.wt := by
  unfold queueEntry; split
  · rename_i h; simpa using h
  · simp

theorem mem_wt_changeEntry (i : Nat) (f : Entry → Entry) (s : State) : .entry i ∈ (changeEntry i f s).cat.wt :=
  mem_wt_queueEntry i _

theorem mem_wt_changeEntryMarked (i : Nat) (f : Entry → Entry) (s : State) : .entry i ∈ (changeEntryMarked i f s).cat.wt :=
  mem_wt_queueEntry i _

@[simp] theorem mark_changeEntryMarked (i : Nat) (f : Entry → Entry) (s : State) :
    (changeEntryMarked i f s).cat.mark = true := rfl

/-! ## Chunks -/

@[simp] theorem queueMap_chunks (c : Nat) (s : State) : (queueMap c s).med.chunks = s.med.chunks := by
  unfold queueMap; split <;> rfl

theorem chunkIn_chunkMapSet {m : SMap Chunk} (hm : smapRising m = true) (c k : Nat) (ch : Chunk) :
    chunkIn (chunkMapSet m c ch) k = if k = c then ch else chunkIn m k := by
  unfold chunkMapSet chunkIn
  split
  · rename_i hf
    split
    · subst k; simp [smapGet_smapDel_self c hm, hf]
    · rw [smapGet_smapDel_ne _ ‹_›]
  · split
    · subst k; simp
    · rw [smapGet_smapSet_ne _ _ ‹_›]

theorem chunkAt_setChunk (hm : smapRising s.med.chunks = true) (c k : Nat) (ch : Chunk) :
    (setChunk c ch s).chunkAt k = if k = c then ch else s.chunkAt k := by
  unfold setChunk State.chunkAt
  simp [chunkIn_chunkMapSet hm]

/-! ## Commands and frames as they are taken -/

/-- A record of the right length in READY: a reload, then the command's effect (R173, R179, R180). -/
theorem takeCommand_ready {code length : Nat} {params : List Byte} (act : State → State) (hp : s.cpe.port = .ready)
    (hl : params.length = length) : takeCommand code length params act s = .next (act (reload s)) := by
  simp [takeCommand, hp, hl]

/-- A good frame of its row's kind: heard no more, a reload if addressed here, its uses, and what follows (R75, R173). -/
theorem takeFrameOf_good {kind : Nat} {f : Frame} (use : Frame → State → State) (hh : s.lif.heard = some (.good f))
    (hk : f.payload.kindCode = kind) :
    takeFrameOf kind use s = .next (settle (use f (if f.dst = s.own then reload (clearHeard s) else clearHeard s))) := by
  simp [takeFrameOf, hh, hk, clearHeard]
  rfl

/-! ## The look that follows a command -/

theorem arbitrate_still (h : s.portState ≠ .idle ∨ s.chosen = none) (fuel : Nat) : arbitrate fuel s = s := by
  cases fuel with
  | zero => rfl
  | succ n => unfold arbitrate; rcases h with h | h <;> simp [h]

theorem followConditions_act (s : State) : ∃ a, followConditions s = { s with act := a } := by
  unfold followConditions stopTimer; split
  · split <;> exact ⟨_, rfl⟩
  · exact ⟨_, rfl⟩

theorem dozeIfDrained_act (s : State) : ∃ a, dozeIfDrained s = { s with act := a } := by
  unfold dozeIfDrained enterDoze; split <;> exact ⟨_, rfl⟩

/-- A wake for waiting requests changes ACT alone, never leaves an IDLE media port, and does nothing at one. -/
theorem wakeForWork_act (s : State) : ∃ a, wakeForWork s = { s with act := a }
    ∧ (s.portState ≠ .idle → (wakeForWork s).portState ≠ .idle) ∧ (s.portState = .idle → wakeForWork s = s) := by
  unfold wakeForWork wake
  cases hs : s.act.state
  case active => simp; exact ⟨s.act, rfl⟩
  case waking => simp; exact ⟨s.act, rfl⟩
  case doze =>
    by_cases hm : s.mediaWork = true <;> simp [hm, State.portState, beginWake, stopTimer, hs]
    exact ⟨s.act, rfl⟩
  case sleep =>
    by_cases hm : s.mediaWork = true <;> simp [hm, State.portState, beginWake, stopTimer, hs]
    exact ⟨s.act, rfl⟩

/-- Where the port is IDLE and the request chosen is issued, `settle` issues it, and beyond that changes ACT alone. -/
theorem settle_issues {r : Requester} {op : Issued} (h : s.portState = .idle) (hc : s.chosen = some r)
    (hi : (issue r s).med.issued = some op) : ∃ a, settle s = { issue r s with act := a } := by
  obtain ⟨_, _, _, h3⟩ := wakeForWork_act s
  unfold settle
  rw [h3 h]
  have key : arbitrate s.workBound s = issue r s := by
    have hb : s.workBound = (s.workBound - 1) + 1 := by unfold State.workBound; omega
    rw [hb, arbitrate]
    simp only [h, if_true, hc]
    refine arbitrate_still (.inl ?_) _
    unfold State.portState
    rw [hi]
    cases (issue r s).act.state <;> simp
  simp only [key]
  obtain ⟨b, hb⟩ := followConditions_act (issue r s)
  obtain ⟨c, hc⟩ := dozeIfDrained_act (followConditions (issue r s))
  exact ⟨c, by rw [hc, hb]⟩

/-! ## Chunks and notes: what the shared operations can do -/

/-- A write fault in a chunk (R40, R43): an owned chunk turns BAD in its chain, a FREE one BAD and unlinked; chunk 0 and a BAD
chunk stay. -/
theorem markBad_cases (c : Nat) (s : State) :
    (∃ i, (s.chunkAt c).owner = .entry i
        ∧ markBad c s = setChunk c { s.chunkAt c with owner := .bad } { s with med.bad := s.med.bad + 1 })
      ∨ ((s.chunkAt c).owner = .free
        ∧ markBad c s = setChunk c lostChunk { s with med.bad := s.med.bad + 1, med.free := s.med.free - 1 })
      ∨ (((s.chunkAt c).owner = .reserved ∨ (s.chunkAt c).owner = .bad) ∧ markBad c s = s) := by
  unfold markBad
  dsimp only
  cases h : (s.chunkAt c).owner with
  | entry i => exact .inl ⟨i, rfl, rfl⟩
  | free => exact .inr (.inl ⟨rfl, rfl⟩)
  | reserved => exact .inr (.inr ⟨.inl rfl, rfl⟩)
  | bad => exact .inr (.inr ⟨.inr rfl, rfl⟩)

/-- A chain follows the next chunks alone: a change of owner or of blocks used leaves it. -/
theorem chainFrom_congr {m m' : SMap Chunk} (h : ∀ c, (chunkIn m c).next = (chunkIn m' c).next) (fuel : Nat)
    (start : Option Nat) : chainFrom m fuel start = chainFrom m' fuel start := by
  induction fuel generalizing start with
  | zero => rfl
  | succ n ih =>
    cases start with
    | none => rfl
    | some c => simp only [chainFrom, h, ih]

/-- Of an exchange the list keeps the newest note alone (R148). -/
theorem mem_keepNote {n x : AnswerNote} :
    x ∈ (keepNote n s).notes ↔ x = n ∨ (x ∈ s.notes ∧ x.of n.requester n.tag n.take = false) := by
  simp [keepNote, or_comm]

end Sys2Proof.Machine
end

