-- ==== Sys2Proof/Laws/Append.lean ====
section
/-! SUPPORT. Where an append write goes (R33, R34, R37): behind the chain's last block, or into a chunk that joins the chain. -/

namespace Sys2Proof.Machine

variable {s : State}

/-- A chain that ends before its bound grows by a chunk linked behind its last one. -/
theorem chainFrom_link {m m' : SMap Chunk} {l x : Nat} (hx : chunkIn m' x = { chunkIn m' x with next := none })
    (hl : (chunkIn m' l).next = some x) (ho : ∀ y, y ≠ x → y ≠ l → (chunkIn m' y).next = (chunkIn m y).next) :
    ∀ (fuel : Nat) (at_ : Option Nat), (chainFrom m fuel at_).getLast? = some l → (chainFrom m fuel at_).Nodup →
      (chainFrom m fuel at_).length < fuel → x ∉ chainFrom m fuel at_ →
      chainFrom m' fuel at_ = chainFrom m fuel at_ ++ [x] := by
  intro fuel
  induction fuel with
  | zero => intro at_ h; simp [chainFrom] at h
  | succ n ih =>
    intro at_ h hn hlen hxc
    cases at_ with
    | none => simp [chainFrom] at h
    | some c =>
      simp only [chainFrom] at h hn hlen hxc ⊢
      have hcx : c ≠ x := fun e => hxc (by simp [e])
      cases hr : chainFrom m n (chunkIn m c).next with
      | nil =>
        rw [hr] at h
        obtain rfl : c = l := by simpa using h
        rw [hl]
        cases n with
        | zero => simp [hr] at hlen
        | succ k =>
          have : (chunkIn m' x).next = none := by rw [hx]
          cases k <;> simp [chainFrom, this]
      | cons d rest =>
        rw [hr] at h hn hlen hxc
        have hcl : c ≠ l := by
          intro e; subst e
          have hmem : c ∈ d :: rest := List.mem_of_getLast? (by simpa using h)
          exact (List.nodup_cons.mp hn).1 hmem
        rw [ho c hcx hcl, ih _ (by simpa [hr] using h) (hr ▸ (List.nodup_cons.mp hn).2) (by simpa [hr] using hlen)
          (by rw [hr]; exact fun hm => hxc (by simp [hm])), hr]
        rfl

/-- The chunk an allocation takes (R33): the lowest-numbered FREE one, chunk 0 apart. -/
theorem lowestFree_eq {x : Nat} (hr : smapRising s.med.chunks = true) (h1 : 1 ≤ x) (ht : x < s.med.total)
    (hf : (s.chunkAt x).owner = .free) (hl : ∀ y, 1 ≤ y → y < x → (s.chunkAt y).owner ≠ .free) :
    s.lowestFree = some x := by
  have htr : smapRising (takenChunks s.med.chunks) = true := smapRising_sublist (List.filter_sublist) hr
  have hc : smapLeastFree (takenChunks s.med.chunks) 1 = x := by
    rcases Nat.lt_trichotomy (smapLeastFree (takenChunks s.med.chunks) 1) x with h | h | h
    · have hne := hl _ (smapLeastFree_ge _ 1) h
      have hn := smapGet_smapLeastFree 1 htr
      unfold State.chunkAt chunkIn at hne
      cases hg : smapGet s.med.chunks (smapLeastFree (takenChunks s.med.chunks) 1) with
      | none => simp [hg, freeChunk] at hne
      | some ch =>
        rw [hg] at hne
        rw [smapGet_of_mem htr (List.mem_filter.mpr ⟨smapGet_some_mem hg, by simpa using hne⟩)] at hn
        cases hn
    · exact h
    · obtain ⟨ch, hg⟩ := Option.ne_none_iff_exists'.mp (smapGet_below_leastFree htr h1 h)
      obtain ⟨hm, ho⟩ := List.mem_filter.mp (smapGet_some_mem hg)
      rw [State.chunkAt, chunkIn, smapGet_of_mem hr hm] at hf
      simp at ho
      exact absurd hf ho
  simp [State.lowestFree, hc, ht]

/-- The chain's last chunk has room (R37): the write goes behind its blocks, and the map stays. -/
theorem placeAppend_room {e : Entry} {l : Nat} (j i : Nat) (h : (s.chain e).getLast? = some l)
    (hb : (s.chunkAt l).owner ≠ .bad) (hu : (s.chunkAt l).used < 4096) :
    placeAppend j i e s = (some (l, (s.chunkAt l).used), s) := by
  have hf : s.lastIsFull e = false := by simp [State.lastIsFull, h, hb, hu]
  simp [placeAppend, hf, h]

@[simp] theorem spendPledge_chunks (j : Nat) (s : State) : (spendPledge j s).med.chunks = s.med.chunks := by
  unfold spendPledge; (repeat' split) <;> simp [releasePledge, modReceive]

@[simp] theorem spendPledge_total (j : Nat) (s : State) : (spendPledge j s).med.total = s.med.total := by
  unfold spendPledge; (repeat' split) <;> simp [releasePledge, modReceive]

/-- The map after a chunk has joined a chain behind its last chunk (R33). -/
theorem appendChunk_chunkAt {e : Entry} {i l x : Nat} (hr : smapRising s.med.chunks = true)
    (h : (s.chain e).getLast? = some l) (hlx : l ≠ x) (he : s.entryAt i = some e) (y : Nat) :
    (appendChunk i x s).chunkAt y = if y = l then { s.chunkAt l with next := some x }
      else if y = x then { owner := .entry i, next := none, used := 0 } else s.chunkAt y := by
  have h1 : ∀ z, (takeChunk x i 0 s).chunkAt z
      = if z = x then { owner := .entry i, next := none, used := 0 } else s.chunkAt z := fun z =>
    chunkAt_setChunk (s := { s with med.free := s.med.free - 1 }) hr x z _
  have hr1 : smapRising (takeChunk x i 0 s).med.chunks = true := by
    simpa [takeChunk, setChunk] using smapRising_chunkMapSet x _ hr
  have h2 : ∀ (s : State) (f : Entry → Entry) z, (modEntry i f s).chunkAt z = s.chunkAt z := fun s f z => by
    simp [State.chunkAt]
  simp only [appendChunk, he, h]
  split <;> simp [h2, chunkAt_setChunk hr1, h1, hlx]

/-- The chain's last chunk has no offset left (R33): the chunk joins the chain, and the write takes its offset 0. -/
theorem placeAppend_allocates {e : Entry} {j i l x : Nat} (hr : smapRising s.med.chunks = true)
    (h : (s.chain e).getLast? = some l) (hfull : (s.chunkAt l).owner = .bad ∨ 4096 ≤ (s.chunkAt l).used)
    (hn : (s.chain e).Nodup) (hlen : (s.chain e).length < s.med.total) (hx : x ∉ s.chain e)
    (hs : s.appendSource j = some x) (he : s.entryAt i = some e) :
    placeAppend j i e s = (some (x, 0), spendPledge j (appendChunk i x s)) := by
  have hlx : l ≠ x := fun e => hx (e ▸ List.mem_of_getLast? h)
  have hfull' : s.lastIsFull e = true := by rcases hfull with hb | hu <;> simp [State.lastIsFull, *]
  have hm := appendChunk_chunkAt hr h hlx he
  have ht : (appendChunk i x s).med.total = s.med.total :=
    (appendChunk_keeps (Keeps.refl s) i x).1.2.2.2.2.2.1
  have hc : (spendPledge j (appendChunk i x s)).chain e = s.chain e ++ [x] := by
    unfold State.chain
    rw [spendPledge_chunks, spendPledge_total, ht]
    refine chainFrom_link (l := l) ?_ ?_ ?_ _ _ h hn hlen hx
    · have := hm x; simp [Ne.symm hlx] at this; simp [State.chunkAt] at this; simp [this]
    · have := hm l; simp at this; simp [State.chunkAt] at this; simp [this]
    · intro y hy hyl
      have := hm y; simp [hy, hyl] at this; simp [State.chunkAt] at this; rw [this]
  have hu : ((spendPledge j (appendChunk i x s)).chunkAt x).used = 0 := by
    have := hm x; simp [Ne.symm hlx] at this; simp [State.chunkAt] at this ⊢; simp [this]
  simp [placeAppend, hfull', hs, hc, hu]

end Sys2Proof.Machine
end

