-- ==== Sys2Proof/WellFormed.lean ====
section
/-! DEFINITION. Which commands are well formed: operands inside the ranges the spec gives them. -/

namespace Sys2Proof

/-- A parameter length is one byte (R194). -/
def paramsWf (params : List Byte) : Bool := params.length ≤ 255

/-- JT holds 8 job records (00, 1.2). -/
def jobWf (job : Nat) : Bool := job < 8

/-- A store block is 512 bytes (3.3). -/
def replyWf : ReplyData → Bool
  | .asStored => true
  | .bytes b => b.length == 512

/-- The operands of a command are inside their ranges: 8 job records, 512-byte blocks, a 21-byte configuration
image (R195), 32 node addresses, 6 answer notes (R148), one-byte parameter lengths. -/
def Instr.wf : Instr → Bool
  | .configImageRead (some b) => b.length == 21
  | .status p | .inquire p | .arm p | .start p | .stop p | .abort p | .retrieve p | .cancel p
  | .labelWrite p | .labelRead p | .entryRead p | .withdraw p | .repair p | .eventRead p
  | .markInventory p | .softReset p => paramsWf p
  | .mediaReadComplete _ d => replyWf d
  | .frameReoffer j | .pledgedTimeout j | .stepTimerExpiry j | .inactivityTimeout j
  | .answerWindowExpiry j | .grantWaitExpiry j => jobWf j
  | .progressTimeout j m => jobWf j && m < 32
  | .answerNoteLapse n => n < 6
  | .hardwareReset _ | .configImageRead none | .capacityReport _ | .capacityTimeout | .storeReady
  | .commandWriteIgnored | .responseRead | .mediaReadTimeout | .mediaWriteComplete _ | .mediaWriteTimeout
  | .storeLateReply | .sampleFrameIn .. | .sampleFrameOut .. | .carrierAppears | .carrierEnds _
  | .idleGapElapsed | .slotPhaseEnd _ | .holdoffRelease _ | .burstGapEnd | .frameSent | .collision
  | .badFrame | .malformedFrame | .duplicateAddress | .seekReceived | .haveReceived | .grantReceived
  | .placeReceived | .bidReceived | .assignReceived | .dataReceived | .stepReceived | .doneReceived
  | .noticeReceived | .abandonReceived | .placementStart | .automaticRepairStart | .noticeListFlush
  | .bidWindowClose | .closeWaitTimeout | .haveExpiry _ | .activityTimerExpiry | .wakeTimerExpiry
  | .unknownCommandCode _ => true

end Sys2Proof
end

