-- ==== Sys2Proof/Laws/PerInstr.lean ====
section
/-! SUPPORT. The family OperandsBounded: what a well-formed command's operands are bounded by, command by command. -/

namespace Sys2Proof.Laws

/-- The job record a command names, if it names one. -/
def jobNamed : Instr → Option Nat
  | .frameReoffer j | .pledgedTimeout j | .stepTimerExpiry j | .inactivityTimeout j
  | .answerWindowExpiry j | .grantWaitExpiry j | .progressTimeout j _ => some j
  | _ => none

/-- A well-formed command names a job record of JT (00, 1.2), and a well-formed station-controller command makes a
record of at most 257 bytes with its code and its parameter length (R194). -/
def OperandsBounded.Statement (i : Instr) : Prop :=
  i.wf = true → (∀ j, jobNamed i = some j → j < 8)
    ∧ ∀ r, Machine.commandRecord i = some r → r.2.2.length + 2 ≤ 257

theorem OperandsBounded.of_none (i : Instr) (hj : jobNamed i = none) (hr : Machine.commandRecord i = none) :
    OperandsBounded.Statement i := by
  intro _; simp [hj, hr]

theorem OperandsBounded.of_params (i : Instr) (p : List Byte) (c n : Nat) (hj : jobNamed i = none)
    (hr : Machine.commandRecord i = some (c, n, p)) (hw : i.wf = paramsWf p) : OperandsBounded.Statement i := by
  intro h
  have h' : p.length ≤ 255 := by simpa [hw, paramsWf] using h
  refine ⟨by simp [hj], fun r e => ?_⟩
  obtain rfl : (c, n, p) = r := by simpa [hr] using e
  simpa using h'

theorem OperandsBounded.of_job (i : Instr) (j : Nat) (hj : jobNamed i = some j) (hr : Machine.commandRecord i = none)
    (hw : i.wf = true → j < 8) : OperandsBounded.Statement i := by
  intro h
  refine ⟨fun k e => ?_, by simp [hr]⟩
  obtain rfl : j = k := by simpa [hj] using e
  exact hw h

theorem OperandsBounded.hardwareReset (landed : Bool) : Statement (.hardwareReset landed) := of_none _ rfl rfl
theorem OperandsBounded.configImageRead (image : Option (List Byte)) : Statement (.configImageRead image) :=
  of_none _ rfl rfl
theorem OperandsBounded.capacityReport (blocks : Nat) : Statement (.capacityReport blocks) := of_none _ rfl rfl
theorem OperandsBounded.capacityTimeout : Statement .capacityTimeout := of_none _ rfl rfl
theorem OperandsBounded.storeReady : Statement .storeReady := of_none _ rfl rfl
theorem OperandsBounded.status (params : List Byte) : Statement (.status params) := of_params _ _ _ _ rfl rfl rfl
theorem OperandsBounded.inquire (params : List Byte) : Statement (.inquire params) := of_params _ _ _ _ rfl rfl rfl
theorem OperandsBounded.arm (params : List Byte) : Statement (.arm params) := of_params _ _ _ _ rfl rfl rfl
theorem OperandsBounded.start (params : List Byte) : Statement (.start params) := of_params _ _ _ _ rfl rfl rfl
theorem OperandsBounded.stop (params : List Byte) : Statement (.stop params) := of_params _ _ _ _ rfl rfl rfl
theorem OperandsBounded.abort (params : List Byte) : Statement (.abort params) := of_params _ _ _ _ rfl rfl rfl
theorem OperandsBounded.retrieve (params : List Byte) : Statement (.retrieve params) :=
  of_params _ _ _ _ rfl rfl rfl
theorem OperandsBounded.cancel (params : List Byte) : Statement (.cancel params) := of_params _ _ _ _ rfl rfl rfl
theorem OperandsBounded.labelWrite (params : List Byte) : Statement (.labelWrite params) :=
  of_params _ _ _ _ rfl rfl rfl
theorem OperandsBounded.labelRead (params : List Byte) : Statement (.labelRead params) :=
  of_params _ _ _ _ rfl rfl rfl
theorem OperandsBounded.entryRead (params : List Byte) : Statement (.entryRead params) :=
  of_params _ _ _ _ rfl rfl rfl
theorem OperandsBounded.withdraw (params : List Byte) : Statement (.withdraw params) :=
  of_params _ _ _ _ rfl rfl rfl
theorem OperandsBounded.repair (params : List Byte) : Statement (.repair params) := of_params _ _ _ _ rfl rfl rfl
theorem OperandsBounded.eventRead (params : List Byte) : Statement (.eventRead params) :=
  of_params _ _ _ _ rfl rfl rfl
theorem OperandsBounded.markInventory (params : List Byte) : Statement (.markInventory params) :=
  of_params _ _ _ _ rfl rfl rfl
theorem OperandsBounded.softReset (params : List Byte) : Statement (.softReset params) :=
  of_params _ _ _ _ rfl rfl rfl
theorem OperandsBounded.commandWriteIgnored : Statement .commandWriteIgnored := of_none _ rfl rfl
theorem OperandsBounded.responseRead : Statement .responseRead := of_none _ rfl rfl
theorem OperandsBounded.mediaReadComplete (readable : Bool) (data : ReplyData) : Statement (.mediaReadComplete readable data) :=
  of_none _ rfl rfl
theorem OperandsBounded.mediaReadTimeout : Statement .mediaReadTimeout := of_none _ rfl rfl
theorem OperandsBounded.mediaWriteComplete (ok : Bool) : Statement (.mediaWriteComplete ok) := of_none _ rfl rfl
theorem OperandsBounded.mediaWriteTimeout : Statement .mediaWriteTimeout := of_none _ rfl rfl
theorem OperandsBounded.storeLateReply : Statement .storeLateReply := of_none _ rfl rfl
theorem OperandsBounded.sampleFrameIn (whole : Bool) (high low : List Bool) : Statement (.sampleFrameIn whole high low) :=
  of_none _ rfl rfl
theorem OperandsBounded.sampleFrameOut (whole : Bool) (highEdges lowEdges : Nat) : Statement (.sampleFrameOut whole highEdges lowEdges) :=
  of_none _ rfl rfl
theorem OperandsBounded.carrierAppears : Statement .carrierAppears := of_none _ rfl rfl
theorem OperandsBounded.carrierEnds (bytes : List Byte) : Statement (.carrierEnds bytes) := of_none _ rfl rfl
theorem OperandsBounded.idleGapElapsed : Statement .idleGapElapsed := of_none _ rfl rfl
theorem OperandsBounded.slotPhaseEnd (record : RecordId) : Statement (.slotPhaseEnd record) := of_none _ rfl rfl
theorem OperandsBounded.holdoffRelease (record : RecordId) : Statement (.holdoffRelease record) := of_none _ rfl rfl
theorem OperandsBounded.burstGapEnd : Statement .burstGapEnd := of_none _ rfl rfl
theorem OperandsBounded.frameSent : Statement .frameSent := of_none _ rfl rfl
theorem OperandsBounded.collision : Statement .collision := of_none _ rfl rfl
theorem OperandsBounded.badFrame : Statement .badFrame := of_none _ rfl rfl
theorem OperandsBounded.malformedFrame : Statement .malformedFrame := of_none _ rfl rfl
theorem OperandsBounded.duplicateAddress : Statement .duplicateAddress := of_none _ rfl rfl
theorem OperandsBounded.seekReceived : Statement .seekReceived := of_none _ rfl rfl
theorem OperandsBounded.haveReceived : Statement .haveReceived := of_none _ rfl rfl
theorem OperandsBounded.grantReceived : Statement .grantReceived := of_none _ rfl rfl
theorem OperandsBounded.placeReceived : Statement .placeReceived := of_none _ rfl rfl
theorem OperandsBounded.bidReceived : Statement .bidReceived := of_none _ rfl rfl
theorem OperandsBounded.assignReceived : Statement .assignReceived := of_none _ rfl rfl
theorem OperandsBounded.dataReceived : Statement .dataReceived := of_none _ rfl rfl
theorem OperandsBounded.stepReceived : Statement .stepReceived := of_none _ rfl rfl
theorem OperandsBounded.doneReceived : Statement .doneReceived := of_none _ rfl rfl
theorem OperandsBounded.noticeReceived : Statement .noticeReceived := of_none _ rfl rfl
theorem OperandsBounded.abandonReceived : Statement .abandonReceived := of_none _ rfl rfl
theorem OperandsBounded.placementStart : Statement .placementStart := of_none _ rfl rfl
theorem OperandsBounded.automaticRepairStart : Statement .automaticRepairStart := of_none _ rfl rfl
theorem OperandsBounded.noticeListFlush : Statement .noticeListFlush := of_none _ rfl rfl
theorem OperandsBounded.frameReoffer (job : Nat) : Statement (.frameReoffer job) :=
  of_job _ _ rfl rfl fun h => by simpa [Instr.wf, jobWf] using h
theorem OperandsBounded.bidWindowClose : Statement .bidWindowClose := of_none _ rfl rfl
theorem OperandsBounded.pledgedTimeout (job : Nat) : Statement (.pledgedTimeout job) :=
  of_job _ _ rfl rfl fun h => by simpa [Instr.wf, jobWf] using h
theorem OperandsBounded.closeWaitTimeout : Statement .closeWaitTimeout := of_none _ rfl rfl
theorem OperandsBounded.progressTimeout (job : Nat) (member : Nat) : Statement (.progressTimeout job member) :=
  of_job _ _ rfl rfl fun h => by
    simp only [Instr.wf, jobWf, Bool.and_eq_true, decide_eq_true_eq] at h; exact h.1
theorem OperandsBounded.stepTimerExpiry (job : Nat) : Statement (.stepTimerExpiry job) :=
  of_job _ _ rfl rfl fun h => by simpa [Instr.wf, jobWf] using h
theorem OperandsBounded.inactivityTimeout (job : Nat) : Statement (.inactivityTimeout job) :=
  of_job _ _ rfl rfl fun h => by simpa [Instr.wf, jobWf] using h
theorem OperandsBounded.answerWindowExpiry (job : Nat) : Statement (.answerWindowExpiry job) :=
  of_job _ _ rfl rfl fun h => by simpa [Instr.wf, jobWf] using h
theorem OperandsBounded.grantWaitExpiry (job : Nat) : Statement (.grantWaitExpiry job) :=
  of_job _ _ rfl rfl fun h => by simpa [Instr.wf, jobWf] using h
theorem OperandsBounded.haveExpiry (order : Nat) : Statement (.haveExpiry order) := of_none _ rfl rfl
theorem OperandsBounded.answerNoteLapse (note : Nat) : Statement (.answerNoteLapse note) := of_none _ rfl rfl
theorem OperandsBounded.activityTimerExpiry : Statement .activityTimerExpiry := of_none _ rfl rfl
theorem OperandsBounded.wakeTimerExpiry : Statement .wakeTimerExpiry := of_none _ rfl rfl
theorem OperandsBounded.unknownCommandCode (record : List Byte) : Statement (.unknownCommandCode record) :=
  of_none _ rfl rfl

end Sys2Proof.Laws
end

