-- ==== Sys2Proof/Laws/Reconcile.lean ====
section
/-! SUPPORT. What reconciliation (R188) leaves of the loaded entries and chunks, said once. -/

namespace Sys2Proof.Machine

/-- Steps 1 and 5 on an entry that is kept. -/
def Entry.reconciled (e : Entry) : Entry :=
  let e' := if e.state = .capturing then e.cutShort else e
  if e'.placement = .inProgress then { e' with placement := .queued } else e'

/-- A walked chain holds chunks of its own index and BAD ones alone (step 2). -/
theorem owner_of_walkChain {m : SMap Chunk} {total i : Nat} {count : Nat} {start : Option Nat} {reached l : List Nat}
    (h : (walkChain m total i count start reached).1 = some l) :
    ∀ c ∈ l, (chunkIn m c).owner = .entry i ∨ (chunkIn m c).owner = .bad := by
  induction count generalizing start reached l with
  | zero => simp only [walkChain, Option.some.injEq] at h; simp [← h]
  | succ n ih =>
    cases start with
    | none => simp [walkChain] at h
    | some c =>
      simp only [walkChain] at h
      split at h
      · cases h
      · rename_i hc
        simp only [Option.map_eq_some_iff] at h
        obtain ⟨a, ha, rfl⟩ := h
        simp only [List.mem_cons, forall_eq_or_imp]
        exact ⟨by tauto, ih ha⟩

/-- What a walk answers: the entry as step 1 leaves it and a chain of its own chunks, with a first chunk and a count. -/
theorem mem_walkAll {m : SMap Chunk} {total : Nat} {es : SMap Entry} {reached : List Nat} {i : Nat} {e' : Entry}
    {l : List Nat} (h : (i, e', some l) ∈ walkAll m total es reached) :
    ∃ e, (i, e) ∈ es ∧ e.state ≠ .receiving ∧ e.firstChunk ≠ 0 ∧ e.chunkCount ≠ 0
      ∧ e' = (if e.state = .capturing then e.cutShort else e)
      ∧ ∀ c ∈ l, (chunkIn m c).owner = .entry i ∨ (chunkIn m c).owner = .bad := by
  induction es generalizing reached with
  | nil => simp [walkAll] at h
  | cons p rest ih =>
    obtain ⟨k, e⟩ := p
    simp only [walkAll] at h
    split at h
    · obtain ⟨e₀, h₀, h₁⟩ := ih h
      exact ⟨e₀, List.mem_cons_of_mem _ h₀, h₁⟩
    · rename_i hr
      rcases List.mem_cons.1 h with h | h
      · simp only [Prod.mk.injEq] at h
        obtain ⟨rfl, he, hw⟩ := h
        simp only [walkEntry] at hw
        rw [← he] at hw
        split at hw
        · cases hw
        · rename_i hz
          have hf : e'.firstChunk = e.firstChunk ∧ e'.chunkCount = e.chunkCount := by
            subst he; split <;> exact ⟨rfl, rfl⟩
          exact ⟨e, List.mem_cons_self, hr, by rw [← hf.1]; tauto, by rw [← hf.2]; tauto, he, owner_of_walkChain hw.symm⟩
      · obtain ⟨e₀, h₀, h₁⟩ := ih h
        exact ⟨e₀, List.mem_cons_of_mem _ h₀, h₁⟩

/-- The chunks whose blocks used step 3 sets are those of the chain. -/
theorem fst_of_chainUsed {m : SMap Chunk} {stored before : Nat} {l : List Nat} {used : List (Nat × Nat)}
    (h : chainUsed m stored l before = some used) : used.map (·.1) = l := by
  induction l generalizing before used with
  | nil => simp [chainUsed] at h
  | cons c t ih =>
    cases t with
    | nil =>
      simp only [chainUsed] at h
      split at h
      · split at h
        · cases h; rfl
        · cases h
      · split at h
        · cases h; rfl
        · cases h
    | cons c' t' =>
      simp only [chainUsed, Option.map_eq_some_iff] at h
      obtain ⟨a, ha, rfl⟩ := h
      simp [ih ha]

/-- An entry that is kept: its chain and the blocks used along it, and what steps 1 and 5 make of it. -/
theorem mem_reconciled {m : SMap Chunk} {total : Nat} {es : SMap Entry} {i : Nat} {e' : Entry}
    (h : (i, e') ∈ (reconciled m total es).entries) :
    ∃ e, (i, e) ∈ es ∧ e.state ≠ .receiving ∧ e.firstChunk ≠ 0 ∧ e.chunkCount ≠ 0 ∧ e' = e.reconciled := by
  simp only [reconciled, List.mem_map, List.mem_filterMap, Option.map_eq_some_iff, Option.bind_eq_some_iff] at h
  obtain ⟨⟨k, e₁, used⟩, ⟨⟨k', e₂, w⟩, hw, u, ⟨l, hl, hu⟩, hq⟩, hk⟩ := h
  simp only [Prod.mk.injEq] at hq
  obtain ⟨rfl, rfl, rfl⟩ := hq
  simp only [Prod.mk.injEq] at hk
  obtain ⟨rfl, rfl⟩ := hk
  subst hl
  obtain ⟨e, he, hr, hf, hc, rfl, -⟩ := mem_walkAll hw
  exact ⟨e, he, hr, hf, hc, rfl⟩

/-- An entry that is kept is a loaded one with a chain, as steps 1 and 5 leave it. -/
theorem reconciled_entry {m : SMap Chunk} {total : Nat} {es : SMap Entry} {i : Nat} {e' : Entry} (hes : smapRising es = true)
    (h : smapGet (reconciled m total es).entries i = some e') :
    ∃ e, smapGet es i = some e ∧ e.state ≠ .receiving ∧ e.firstChunk ≠ 0 ∧ e.chunkCount ≠ 0 ∧ e' = e.reconciled := by
  obtain ⟨e, he, h⟩ := mem_reconciled (smapGet_some_mem h)
  exact ⟨e, smapGet_of_mem hes he, h⟩

/-- A chunk left with an index belongs to an entry that is kept (steps 2 to 4). -/
theorem reconciled_owner {m : SMap Chunk} {total : Nat} {es : SMap Entry} {c i : Nat} (hm : smapRising m = true)
    (hes : smapRising es = true) (h : (chunkIn (reconciled m total es).chunks c).owner = .entry i) :
    smapGet (reconciled m total es).entries i ≠ none := by
  have hr := reconciled_rising m total es hm hes
  cases hg : smapGet (reconciled m total es).chunks c with
  | none => simp [chunkIn, hg, freeChunk] at h
  | some ch' =>
    simp only [chunkIn, hg, Option.getD_some] at h
    have hmem := smapGet_some_mem hg
    simp only [reconciled, List.mem_filter, List.mem_map, Prod.mk.injEq] at hmem
    obtain ⟨⟨⟨c₀, ch⟩, hch, rfl, hset⟩, -⟩ := hmem
    simp only at hset
    subst hset
    unfold settledChunk at h
    split at h
    · rename_i l hl
      have hlm := List.mem_of_find?_eq_some hl
      have hany := List.find?_some hl
      simp only [List.any_eq_true, beq_iff_eq] at hany
      obtain ⟨q, hq, hqc⟩ := hany
      simp only [List.mem_map, List.mem_filterMap, Option.map_eq_some_iff, Option.bind_eq_some_iff] at hlm
      obtain ⟨⟨k, e₁, used⟩, ⟨⟨k', e₂, w⟩, hw, u, ⟨chain, hchain, hu⟩, hq'⟩, rfl⟩ := hlm
      simp only [Prod.mk.injEq] at hq'
      obtain ⟨rfl, rfl, rfl⟩ := hq'
      subst hchain
      have hown := (mem_walkAll hw).choose_spec.2.2.2.2.2
      have hin : c₀ ∈ chain := by
        rw [← fst_of_chainUsed hu]; exact List.mem_map.2 ⟨q, hq, hqc⟩
      have hc₀ : chunkIn m c₀ = ch := by simp [chunkIn, smapGet_of_mem hm hch]
      have ho := hown c₀ hin
      rw [hc₀] at ho
      have hi : ch.owner = .entry i := by
        split at h <;> exact h
      rw [hi] at ho
      simp only [ChunkOwner.entry.injEq, reduceCtorEq, or_false] at ho
      subst ho
      rw [smapGet_of_mem hr.1 (a := if e₂.placement = .inProgress then { e₂ with placement := .queued } else e₂)
        (by
          simp only [reconciled, List.mem_map, List.mem_filterMap, Option.map_eq_some_iff, Option.bind_eq_some_iff]
          exact ⟨(i, e₂, u), ⟨(i, e₂, some chain), hw, u, ⟨chain, rfl, hu⟩, rfl⟩, rfl⟩)]
      simp
    · split at h
      · cases h
      · cases h
      · rename_i ho; rw [ho] at h; cases h
      · rename_i ho; rw [ho] at h; cases h

/-! ## A chain of one chunk -/

/-- What a walk has reached beyond what was reached before: chunks of its index and BAD ones. -/
theorem reached_of_walkChain {m : SMap Chunk} {total i x : Nat} {count : Nat} {start : Option Nat} {reached : List Nat}
    (h : x ∈ (walkChain m total i count start reached).2) :
    x ∈ reached ∨ (chunkIn m x).owner = .entry i ∨ (chunkIn m x).owner = .bad := by
  induction count generalizing start reached with
  | zero => exact .inl h
  | succ n ih =>
    cases start with
    | none => exact .inl h
    | some c =>
      simp only [walkChain] at h
      split at h
      · exact .inl h
      · rename_i hc
        rcases ih h with h | h
        · rcases List.mem_cons.1 h with rfl | h
          · exact .inr (by tauto)
          · exact .inl h
        · exact .inr h

theorem reached_of_walkEntry {m : SMap Chunk} {total i x : Nat} {e : Entry} {reached : List Nat}
    (h : x ∈ (walkEntry m total i e reached).2) :
    x ∈ reached ∨ (chunkIn m x).owner = .entry i ∨ (chunkIn m x).owner = .bad := by
  unfold walkEntry at h
  split at h
  · exact .inl h
  · exact reached_of_walkChain h

/-- The walk of an entry whose one chunk is its own. -/
theorem walkAll_single {m : SMap Chunk} {total i : Nat} {e : Entry} {es : SMap Entry} {reached : List Nat}
    (hes : smapRising es = true) (he : (i, e) ∈ es) (hs : e.state ≠ .receiving) (hn : e.chunkCount = 1)
    (hf : e.firstChunk ≠ 0) (ht : e.firstChunk < total) (ho : (chunkIn m e.firstChunk).owner = .entry i)
    (hreached : ∀ x ∈ reached, (chunkIn m x).owner ≠ .entry i) :
    (i, (if e.state = .capturing then e.cutShort else e), some [e.firstChunk]) ∈ walkAll m total es reached := by
  induction es generalizing reached with
  | nil => simp at he
  | cons p rest ih =>
    obtain ⟨k, e₀⟩ := p
    simp only [walkAll]
    have hp := (smapRising_iff _).1 hes
    rw [List.pairwise_cons] at hp
    rcases List.mem_cons.1 he with he | he
    · cases he
      rw [if_neg hs]
      refine List.mem_cons.2 (.inl ?_)
      have hfirst : (if e.state = .capturing then e.cutShort else e).firstChunk = e.firstChunk := by split <;> rfl
      have hcount : (if e.state = .capturing then e.cutShort else e).chunkCount = 1 := by rw [← hn]; split <;> rfl
      have hnot : e.firstChunk ∉ reached := fun h => hreached _ h ho
      simp only [walkEntry, hfirst, hcount, hf, false_or, Nat.one_ne_zero, if_false]
      simp [walkChain, Nat.not_le.2 ht, hnot, ho]
    · have hki : k < i := hp.1 _ he
      have hrest := (smapRising_iff _).2 hp.2
      split
      · exact ih hrest he hreached
      · refine List.mem_cons_of_mem _ (ih hrest he fun x hx hxo => ?_)
        rcases reached_of_walkEntry hx with h | h | h
        · exact hreached x h hxo
        · rw [h] at hxo; cases hxo; omega
        · rw [h] at hxo; cases hxo

/-- Steps 1 to 4 keep an entry whose one chunk is its own and holds its blocks, and set the chunk's blocks used. -/
theorem reconciled_single {m : SMap Chunk} {total i : Nat} {e : Entry} {es : SMap Entry} (hm : smapRising m = true)
    (hes : smapRising es = true) (he : smapGet es i = some e) (hs : e.state ≠ .receiving) (hn : e.chunkCount = 1)
    (hf : e.firstChunk ≠ 0) (ht : e.firstChunk < total) (ho : (chunkIn m e.firstChunk).owner = .entry i)
    (h1 : 1 ≤ e.storedBlocks) (h2 : e.storedBlocks ≤ 4096) :
    smapGet (reconciled m total es).entries i ≠ none
      ∧ chunkIn (reconciled m total es).chunks e.firstChunk = { owner := .entry i, next := none, used := e.storedBlocks } := by
  have hr := reconciled_rising m total es hm hes
  have hw := walkAll_single (reached := []) hes (smapGet_some_mem he) hs hn hf ht ho (by simp)
  have hstored : (if e.state = .capturing then e.cutShort else e).storedBlocks = e.storedBlocks := by split <;> rfl
  have hu : chainUsed m (if e.state = .capturing then e.cutShort else e).storedBlocks [e.firstChunk] 0
      = some [(e.firstChunk, e.storedBlocks)] := by
    rw [hstored]; simp [chainUsed, ho, h2]; omega
  obtain ⟨c, hc⟩ : ∃ c, c = e.firstChunk := ⟨_, rfl⟩
  rw [← hc] at hw hu ho ⊢
  have hkept : ((i, (if e.state = .capturing then e.cutShort else e), [(c, e.storedBlocks)]) : Nat × Entry × List (Nat × Nat))
      ∈ (walkAll m total es []).filterMap fun (i, e, chain) =>
          (chain.bind fun l => chainUsed m e.storedBlocks l 0).map fun used => (i, e, used) := by
    simp only [List.mem_filterMap, Option.map_eq_some_iff, Option.bind_eq_some_iff]
    exact ⟨_, hw, _, ⟨_, rfl, hu⟩, rfl⟩
  constructor
  · rw [smapGet_of_mem hr.1 (List.mem_map.2 ⟨_, hkept, rfl⟩)]
    simp
  · obtain ⟨ch, hch⟩ : ∃ ch, smapGet m c = some ch := by
      cases h : smapGet m c with
      | none => simp [chunkIn, h, freeChunk] at ho
      | some ch => exact ⟨ch, rfl⟩
    have hcho : ch.owner = .entry i := by simpa [chunkIn, hch] using ho
    have hset : settledChunk (((walkAll m total es []).filterMap fun (i, e, chain) =>
          (chain.bind fun l => chainUsed m e.storedBlocks l 0).map fun used => (i, e, used)).map (·.2.2)) c ch
        = { owner := .entry i, next := none, used := e.storedBlocks } := by
      unfold settledChunk
      split
      · rename_i l hl
        have hlm := List.mem_of_find?_eq_some hl
        have hany := List.find?_some hl
        simp only [List.any_eq_true, beq_iff_eq] at hany
        obtain ⟨q, hq, hqc⟩ := hany
        simp only [List.mem_map, List.mem_filterMap, Option.map_eq_some_iff, Option.bind_eq_some_iff] at hlm
        obtain ⟨⟨k, e₁, used⟩, ⟨⟨k', e₂, w⟩, hw', u, ⟨chain, hchain, hu'⟩, hq'⟩, rfl⟩ := hlm
        simp only [Prod.mk.injEq] at hq'
        obtain ⟨rfl, rfl, rfl⟩ := hq'
        subst hchain
        have hin : c ∈ chain := by rw [← fst_of_chainUsed hu']; exact List.mem_map.2 ⟨q, hq, hqc⟩
        have hown := (mem_walkAll hw').choose_spec.2.2.2.2.2 c hin
        rw [ho] at hown
        simp only [ChunkOwner.entry.injEq, reduceCtorEq, or_false] at hown
        subst hown
        have hrw := (walkAll_rising m total [] hes).1
        have h₁ := smapGet_of_mem hrw hw
        rw [smapGet_of_mem hrw hw'] at h₁
        simp only [Option.some.injEq, Prod.mk.injEq] at h₁
        obtain ⟨rfl, rfl⟩ := h₁
        rw [hu] at hu'
        cases hu'
        simp [hcho]
      · rename_i hnone
        exact absurd (List.find?_eq_none.1 hnone _ (List.mem_map.2 ⟨_, hkept, rfl⟩)) (by simp)
    have hmem : (c, ({ owner := .entry i, next := none, used := e.storedBlocks } : Chunk)) ∈ (reconciled m total es).chunks := by
      simp only [reconciled, List.mem_filter, List.mem_map]
      exact ⟨⟨(c, ch), smapGet_some_mem hch, by simp only [hset]⟩, by simp [freeChunk]⟩
    simp [chunkIn, smapGet_of_mem hr.2 hmem]

end Sys2Proof.Machine
end

