-- ==== Sys2Proof/Laws/SoftReset.lean ====
section
/-! SUPPORT. What the end of jobs at SOFT_RESET leaves: no job (R3, R15, R162, R190), and the parting frames in order (R78, R88). -/

namespace Sys2Proof.Machine

variable {s : State}

/-! ## Operations that leave the job table alone -/

@[simp] theorem freeChunks_jt (i : Nat) (l : List Nat) : (freeChunks i l s).jt = s.jt := by
  unfold freeChunks
  induction l generalizing s with
  | nil => rfl
  | cons c rest ih => rw [List.foldl_cons, ih]; unfold freeOne; dsimp only; (repeat' split) <;> simp

@[simp] theorem freeEntry_jt (i : Nat) : (freeEntry i s).jt = s.jt := by
  unfold freeEntry; split <;> simp [setMark]

@[simp] theorem requeueAfterReset_jt (i : Nat) : (requeueAfterReset i s).jt = s.jt := by
  simp [requeueAfterReset, joinQueue, setPlacement, changeEntry]

@[simp] theorem txRemoveJob_jt (j : Nat) : (txRemoveJob j s).jt = s.jt := by
  unfold txRemoveJob orphanFront; dsimp only; (repeat' split) <;> rfl

@[simp] theorem unwant_jt (j : Nat) : (unwant j s).jt = s.jt := by unfold unwant; (repeat' split) <;> rfl

@[simp] theorem releaseSpace_jt (job : Job) : (releaseSpace job s).jt = s.jt := by
  unfold releaseSpace releasePledge; dsimp only; (repeat' split) <;> rfl

@[simp] theorem giveParting_jt (f : Frame) : (giveParting f s).jt = s.jt := by
  unfold giveParting txPush; dsimp only; (repeat' split) <;> rfl

@[simp] theorem givePartings_jt (l : List Frame) : (givePartings l s).jt = s.jt := by
  unfold givePartings
  induction l generalizing s with
  | nil => rfl
  | cons f rest ih => rw [List.foldl_cons, ih, giveParting_jt]

/-! ## What the end of a job leaves -/

/-- The end of a job takes its record alone out of the table. -/
theorem closeJob_jobs (j : Nat) : (closeJob j s).jt.jobs = smapDel s.jt.jobs j := by
  unfold closeJob
  split
  · dsimp only; split <;> simp [dropRef]
  · rename_i h
    have hd : ∀ m : SMap Job, smapGet m j = none → smapDel m j = m := fun m => by
      induction m with
      | nil => intro; rfl
      | cons p t ih =>
        obtain ⟨k, b⟩ := p
        simp only [smapGet, smapDel]
        split
        · simp
        · intro hn; rw [ih hn]
    exact (hd _ h).symm

theorem endJobSoftly_jobs (j : Nat) : (endJobSoftly j s).jt.jobs = smapDel s.jt.jobs j := by
  rw [← closeJob_jobs]
  unfold endJobSoftly
  split
  · dsimp only; split <;> simp
  · rename_i h; simp [closeJob, h]

theorem endJobsSoftly_jobs (l : List (Nat × Job)) (h : s.jt.jobs = l) : (endJobsSoftly l s).jt.jobs = [] := by
  induction l generalizing s with
  | nil => exact h
  | cons p rest ih => exact ih (by simp [endJobSoftly_jobs, h, smapDel])

/-- When a SOFT_RESET that waited for a capture is complete, no job is left (R162, R190; log 43). -/
theorem endLateJobs_jobs : (endLateJobs s).jt.jobs = [] := by
  simp [endLateJobs, endJobsSoftly_jobs]

/-! ## Parting frames -/

/-- R168: at SOFT_RESET a REPAIR job tells its granted holder, whether or not the GRANT is SENT. -/
@[simp] theorem grantedHolder_repair_reset {job : Job} {r : RepairJob} (h : job.body = .repair r) :
    job.grantedHolder .reset = r.holder := by
  simp [Job.grantedHolder, h]

/-- R168: on CANCEL a REPAIR job tells it once the GRANT is SENT. -/
@[simp] theorem grantedHolder_repair_cancelled {job : Job} {r : RepairJob} (h : job.body = .repair r) :
    job.grantedHolder .cancelled = if r.grantSent then r.holder else none := by
  simp [Job.grantedHolder, h]

theorem giveParting_linkStanding (f : Frame) : (giveParting f s).linkStanding = s.linkStanding := by
  unfold giveParting txPush refreshPlain; dsimp only; (repeat' split) <;> rfl

/-- A parting frame joins the queue, with no owner, where the link stands and there is room (R78). -/
theorem giveParting_queue (f : Frame) (h : s.linkStanding = true) (room : s.lif.queue.length < 16) :
    (giveParting f s).lif.queue = s.lif.queue ++ [{ frame := f, owner := none }] := by
  have takes : s.txTakes = true := by simp [State.txTakes, h, room]
  simp only [giveParting, takes, if_true, txPush, refreshPlain]
  split <;> rfl

/-- Parting frames join the queue in their order where the link stands and there is room for all (R78, R88). -/
theorem givePartings_queue (l : List Frame) (h : s.linkStanding = true) (room : s.lif.queue.length + l.length ≤ 16) :
    (givePartings l s).lif.queue = s.lif.queue ++ l.map fun f => { frame := f, owner := none } := by
  induction l generalizing s with
  | nil => simp [givePartings]
  | cons f rest ih =>
    rw [List.length_cons] at room
    have first := giveParting_queue f h (by omega)
    have others := ih ((giveParting_linkStanding f).trans h) (by rw [first, List.length_append, List.length_singleton]; omega)
    simp only [givePartings, List.foldl_cons] at others ⊢
    rw [others, first, List.append_assoc]; rfl

end Sys2Proof.Machine
end

