-- ==== Sys2Proof/Tests/Slice0.lean ====
section
/-! SUPPORT. Tests: the checks of WellFormed, the spec's worked values, and a witness for the hypotheses of each statement. -/

namespace Sys2Proof.Tests

/-! The theorems are checked one after another: many `decide +kernel` that wait on one another would each hold a thread. -/
set_option Elab.async false

open Sys2Proof Sys2Proof.Machine Host

/-! ## Small states -/

/-- A node whose start-up has completed, ready for a command, with a store of 8 chunks and nothing in it. -/
def up : State :=
  { State.reset with cpe.port := .ready, sul.phase := .complete, act.state := .active, act.timer := .running none,
                     lif.listening := true, lif.medium := .idle, med.capacity := 32768, med.total := 8, med.free := 7 }

/-- Take 3-7. -/
def take37 : TakeNo := { node := 3, seq := 7 }

/-- The parameter bytes of take 3-7 (3.4: the node in the top 5 bits). -/
def take37Bytes : List Byte := [0x18, 0, 0, 7]

/-- A 48 kHz, 16-bit, stereo format. -/
def format16 : Format := { width := .w16, channels := .stereo, rate := .r48 }

/-- A HELD copy of take 3-7 in chunk 1: 240 frames in two blocks, the head block among them. -/
def held : Entry :=
  { take := take37, role := .copy, state := .held, format := format16, timelineLength := 120, storedFrames := 120,
    storedBlocks := 2, check := 0, gaps := [], clips := 0, endCause := some .normal, label := none, holders := [4],
    copiesWanted := 2, placement := .notNeeded, attempts := 0, damaged := [], damagedCount := 0, overflow := false,
    firstChunk := 1, chunkCount := 1, jobRefs := 0, repairHold := none }

/-- The node with entry `e` at index 0 and its chunk 1. -/
def holding (e : Entry) : State :=
  { up with cat.entries := [(0, e)], med.chunks := [(1, { owner := .entry 0, next := none, used := 2 })], med.free := 6 }

/-- The node with one job, record 0. -/
def working (job : Job) : State := { up with jt.jobs := [(0, job)] }

/-- A job record with tag 5 for take 3-7. -/
def jobWith (body : JobBody) : Job :=
  { tag := 5, opener := 31, exTag := none, take := some take37, entry := none, body := body, reqs := [], outbox := [],
    snd := none, rcv := none }

/-- A capture in RUNNING with nothing in it. -/
def running : CaptureJob :=
  { state := .running, format := format16, preRoll := 0, ring := [], filling := none, closed := [⟨0, 120, 0, []⟩], offset := 120,
    discard := none, gaps := [], storedFrames := 0, soundBlocks := 0, check := 0, clips := 0, lastEnd := 0, cut := none,
    head := .none, headFaults := 0, headAgain := false, ending := none }

/-- A retrieval in SEEKING. -/
def seeking : PlayJob :=
  { state := .seeking, start := 0, frames := 0, policy := .deliver, holder := none, exclusion := none, reseekUsed := false,
    grantedBlocks := none, answerWindow := some 250, grantWait := none, grantSent := false, shape := none, endOffset := 0,
    firstBlock := 0, blockCount := 0, cursor := 0, started := false, underruns := 0, inUnderrun := false,
    pendingResult := none, slots := [], nextRead := 0, lastRead := 0 }

/-- A job whose exchange is 5, opened here. -/
def opened (body : JobBody) : Job := { jobWith body with exTag := some 5 }
/-- A job whose exchange is 5, opened by node 9. -/
def answering (body : JobBody) : Job := { jobWith body with exTag := some 5, opener := 9 }
/-- A placement in OFFERING. -/
def offering : ReplicateJob :=
  { state := .offering, wanted := 2, exclusion := [4], bids := [(9, 40)], group := [], left := [], timer := some 250 }
/-- A RECEIVE job in PLEDGED for a take of two blocks. -/
def pledged : ReceiveJob :=
  { receiving := false, storedBlocks := 2, format := format16, copiesWanted := 2, wanted := 1, exclusion := [9], pledge := 1,
    timer := some 300, bid := .sent, assigned := [], matched := none }
/-- A repair in `state` that waits until tick 250. -/
def repairing (state : RepairState) : RepairJob :=
  { state := state, scan := false, todo := [], scanNext := 0, scanEnd := 0, tally := 0, cleared := 0, first := 1, count := 1,
    holder := some 9, grantSent := true, answerWindow := some 250, grantWait := some 250, recorded := none }
/-- The state with frame `f` heard and classed good. -/
def hearing (f : Frame) (s : State) : State := { s with lif.heard := some (.good f) }

/-- The state a command leaves. -/
def after : Outcome State Fault Refusal → State
  | .next t => t
  | .fault _ => State.reset
  | .refused _ => State.reset

/-- The outcome in the response a command leaves. -/
def answerOf (o : Outcome State Fault Refusal) : Option (Result × Nat × Nat × List Byte) :=
  match o with
  | .next t => t.cpe.response.map fun r => (r.result, r.code, r.tag, r.data)
  | .fault _ => none
  | .refused _ => none

/-- `State.Sound` as a computation. -/
def soundCheck (s : State) : Bool :=
  (smapRising s.jt.jobs && s.jt.jobs.all (·.1 < 8))
    && (smapRising s.cat.entries && smapRising s.med.chunks && smapRising s.med.store)
    && (decide (s.cpe.port = .responseWaiting ↔ s.cpe.response.isSome = true)
        && decide (s.cpe.port = .busy ↔ s.cpe.current.isSome = true))
    && (s.cpe.events.length ≤ 32 && s.cpe.lost ≤ 255 && s.cpe.refused ≤ 65535 && s.cpe.seen.length = 8
        && s.cpe.seen.all (· ≤ 65535))
    && (s.hou.answers.countP HoldRec.isHave ≤ 6 && s.lif.queue.length ≤ 16 && s.notes.length ≤ 6)

theorem sound_of_check {s : State} (h : soundCheck s = true) : s.Sound := by
  simp only [soundCheck, Bool.and_eq_true, decide_eq_true_eq, List.all_eq_true] at h
  obtain ⟨⟨⟨⟨⟨h1, h2⟩, ⟨h3, h4⟩, h5⟩, h6⟩, ⟨⟨⟨h7, h8⟩, h9⟩, h10⟩, h11⟩, ⟨h12, h13⟩, h14⟩ := h
  exact ⟨⟨h1, h2⟩, ⟨h3, h4, h5⟩, h6, ⟨h7, h8, h9, h10, h11⟩, h12, h13, h14⟩

theorem sound_up : up.Sound := sound_of_check (by decide)
theorem sound_holding : (holding held).Sound := sound_of_check (by decide)

/-! ## Well-formedness -/

theorem test_wf_params : (Instr.status (List.replicate 256 0)).wf = false ∧ (Instr.status (List.replicate 255 0)).wf = true :=
  by decide +kernel
theorem test_wf_image : (Instr.configImageRead (some [0])).wf = false ∧ (Instr.configImageRead none).wf = true := by decide
theorem test_wf_job : (Instr.frameReoffer 8).wf = false ∧ (Instr.frameReoffer 7).wf = true := by decide
theorem test_wf_member : (Instr.progressTimeout 0 32).wf = false ∧ (Instr.progressTimeout 7 31).wf = true := by decide
theorem test_wf_note : (Instr.answerNoteLapse 6).wf = false ∧ (Instr.answerNoteLapse 5).wf = true := by decide
theorem test_wf_reply : (Instr.mediaReadComplete true (.bytes [0])).wf = false
    ∧ (Instr.mediaReadComplete true .asStored).wf = true := by decide

/-! ## The spec's worked values -/

/-- 05, 5.8: node 9's BID; default knots. -/
theorem test_bid_base : { up with med.total := 1001, med.free := 420, med.bad := 6, med.pledged := 6,
                                  jt.jobs := [(0, jobWith (.serve ⟨.play, 0, 0, 0, 0⟩)), (1, jobWith (.serve ⟨.play, 0, 0, 0, 0⟩))]
                         : State }.bidBase .doze = 82 := by decide
/-- 05, 5.8: the curve at f = 150, 255, 256, and with K4 = 200, K5 = 10. -/
theorem test_bid_curve : bidCurve defaultSettings.knots 150 = 54 ∧ bidCurve defaultSettings.knots 255 = 253
    ∧ bidCurve defaultSettings.knots 256 = 255 ∧ bidCurve [0, 4, 8, 16, 200, 10, 128, 192, 255] 150 = 69 := by decide
/-- 05, 5.8: nodes 17 and 3 answer the SEEK of node 6. -/
theorem test_have_base : up.haveBase .active { held with damagedCount := 2 } = 10 ∧ up.haveBase .doze held = 18 := by decide
/-- 05, 5.8: (9 - 14 - 1) mod 32 = 26, (3 - 6 - 1) mod 32 = 28. -/
theorem test_offset : { up with sul.cfg.address := 9, lif.lastSource := 14 : State }.holdOffset = 26
    ∧ { up with sul.cfg.address := 3, lif.lastSource := 6 : State }.holdOffset = 28 := by decide
/-- 05, 5.8: node 9's first three draws, 23, 11 and 5. -/
theorem test_draws : lfsrSeed 9 = 0x482E ∧ lfsrDraws 1 (lfsrSeed 9) = (23, 0xA417) ∧ lfsrDraws 2 0xA417 = (16, 0x2905) := by decide
/-- 01, 1.5: the gap merges of entry 12. -/
theorem test_gap_merge : insertGap ⟨8880, 120⟩ [⟨2000, 480⟩, ⟨9000, 160⟩] = some [⟨2000, 480⟩, ⟨8880, 280⟩]
    ∧ insertGap ⟨2480, 100⟩ [⟨2000, 480⟩, ⟨8880, 280⟩] = some [⟨2000, 580⟩, ⟨8880, 280⟩] := by decide
/-- 01, 1.5: node 5's holder list at HELD. -/
theorem test_copy_holders : copyHolders 5 [9, 3] [17, 5] = [9, 3, 17, 5] := by decide
/-- 02, 2.4: sequences 5095 and 5096 of entry 12. -/
theorem test_locate :
    let m : SMap Chunk := [(37, ⟨.entry 12, some 52, 4096⟩), (52, ⟨.bad, some 53, 1000⟩), (53, ⟨.entry 12, none, 1⟩)]
    locateIn m [37, 52, 53] 5095 = some (52, 999) ∧ locateIn m [37, 52, 53] 5096 = some (53, 0) := by decide
/-- 12, 12.3: transactions by their bytes; a record cut short of its two parameters. -/
theorem test_transactions : transactionOf [1] = .statusRead ∧ transactionOf [2, 3, 2, 0x22, 65] = .commandWrite (.arm [0x22, 65])
    ∧ transactionOf [2, 17, 0] = .commandWrite (.unknownCommandCode [17, 0])
    ∧ transactionOf [2, 3, 2, 0x22] = .commandWrite (.unknownCommandCode [3, 2, 0x22])
    ∧ answerOf (exec (.unknownCommandCode [3, 2, 0x22]) { up with lif.burst := 0 }) = some (.badParam, 3, 0, []) :=
  ⟨by decide, by decide, by decide, by decide, by decide⟩
/-- The catalogue check values of the two polynomials over "123456789" (R1 names them; PRESUMED from general knowledge). -/
theorem test_crcs : crc32 [0x31, 0x32, 0x33, 0x34, 0x35, 0x36, 0x37, 0x38, 0x39] = 0xCBF43926#32
    ∧ crc16 [0x31, 0x32, 0x33, 0x34, 0x35, 0x36, 0x37, 0x38, 0x39] = 0x29B1#16 := by decide +kernel

/-! ## Witnesses: the whole machine and the command port -/

theorem witness_EmptyQueue : State.reset.pending = [] := rfl
theorem witness_QueueSettings : exec (.status []) State.reset = .next (after (exec (.status []) State.reset)) ∧
    ∃ s : State, ∃ t, exec .duplicateAddress s = .next t ∧ s.muted = false ∧ t.muted = true ∧ s.complete = true :=
  ⟨rfl, { up with lif.heard := some .duplicate }, _, rfl, by decide⟩
theorem witness_StoreChanges : ∃ s : State, ∃ t op, exec (.mediaWriteComplete true) s = .next t ∧ s.med.issued = some op ∧ op.write = true
    ∧ op.addr ≠ 0 :=
  ⟨{ up with med.issued := some ⟨.map 0 0, true, 2049, [], none, 0, 0, true⟩ }, _, _, rfl, rfl, rfl, by decide⟩
theorem witness_Sound : State.reset.Sound ∧ State.reset.LinkSound ∧ ∃ t, step State.reset = .next t := 
  ⟨sound_of_check (by decide), by unfold State.LinkSound; decide, _, rfl⟩
/-- A START raises the counter; MARK_INVENTORY clears the mark. -/
theorem witness_CounterMark : (∃ s : State, ∃ t, exec (.start []) s = .next t ∧ s.complete = true ∧ s.cat.counter < 134217727) ∧
    ∃ s : State, ∃ t, exec (.markInventory []) s = .next t ∧ s.cat.mark = true ∧ s.cpe.port = .ready :=
  ⟨⟨up, _, rfl, by decide, by decide⟩, up, _, rfl, rfl, rfl⟩
theorem witness_Arbiter :
    (∃ s : State, ∃ op, s.complete = true ∧ s.med.issued = some op) ∧ (∃ s : State, ∃ r, s.complete = true ∧ s.captureRequest = some r)
    ∧ (∃ s : State, ∃ b rest, s.complete = true ∧ s.captureRequest = none ∧ s.med.mapRetry = none ∧ s.med.mapList = b :: rest)
    ∧ (∃ s : State, ∃ w rest, s.complete = true ∧ s.captureRequest = none ∧ s.med.mapRetry = none ∧ s.med.mapList = []
        ∧ s.cat.wtRetry = none ∧ s.cat.wt = w :: rest)
    ∧ ∃ s : State, ∃ j job, s.complete = true ∧ jobsOk s.jt.jobs ∧ s.captureRequest = none ∧ s.writeThrough = none
        ∧ s.nextJob = some (j, job) ∧ s.med.rrLast = 7 ∧ j = 0 :=
  ⟨⟨{ up with med.issued := some ⟨.map 0 0, true, 2049, [], none, 0, 0, true⟩ }, _, by decide, rfl⟩,
   ⟨working { jobWith (.capture running) with entry := some 0 }, _, by decide, rfl⟩,
   ⟨{ up with med.mapList := [0] }, _, _, by decide, by decide, rfl, rfl⟩,
   ⟨{ up with cat.wt := [.counter] }, _, _, by decide, by decide, rfl, rfl, rfl, rfl⟩,
   ⟨working { jobWith (.serve ⟨.play, 0, 0, 0, 0⟩) with reqs := [.read 1] }, _, _, by decide,
    (sound_of_check (s := working { jobWith (.serve ⟨.play, 0, 0, 0, 0⟩) with reqs := [.read 1] }) (by decide)).1,
    by decide, by decide, rfl, rfl, rfl⟩⟩

/-- Nothing waiting; the port not IDLE; a counter item, a map item and a job's read of the head block chosen. -/
theorem witness_Settle : up.chosen = none ∧ State.reset.portState ≠ .idle
    ∧ (let s := { up with cat.wt := [.counter] }
       s.portState = .idle ∧ s.chosen = some (.wt .counter 0))
    ∧ (let s := { up with med.mapList := [0] }
       s.portState = .idle ∧ s.chosen = some (.map 0 0))
    ∧ (let job := { jobWith (.serve ⟨.play, 0, 0, 0, 0⟩) with reqs := [.read 0], entry := some 0 }
       let s := { holding held with jt.jobs := [(0, job)] }
       s.portState = .idle ∧ s.chosen = some (.job 0 (.read 0)) ∧ s.jobAt 0 = some job ∧ s.entryAt 0 = some held
        ∧ s.locate held 0 = some (1, 0)) :=
  by and_intros <;> decide +kernel

/-- Boundary codes: 0, 16 and 17; records of one and of two bytes; lengths one off. -/
theorem witness_Records : State.reset.cpe.port ≠ .ready ∧ up.cpe.port = .ready
    ∧ commandRecord (.arm [0]) = some (3, 2, [0]) ∧ (byteAt [17, 0] 0).toNat = 17 ∧ (byteAt [0, 0] 0).toNat = 0
    ∧ answerOf (exec (.unknownCommandCode [17, 0]) up) = some (.badParam, 17, 0, [])
    ∧ answerOf (exec (.unknownCommandCode [16]) up) = some (.badParam, 16, 0, [])
    ∧ (after (exec (.unknownCommandCode [1]) State.reset)).cpe.refused = 1
    ∧ (after (exec .commandWriteIgnored { State.reset with cpe.refused := 65535 })).cpe.refused = 65535 := by decide
theorem witness_ResponseRead : (∃ s : State, ∃ r, s.cpe.port = .responseWaiting ∧ s.cpe.response = some r) ∧ State.reset.cpe.port = .notReady
    ∧ (after (exec .responseRead (respond .ok 3 5 [30] up))).cpe.out = [0, 3, 5, 0, 1, 30] :=
  ⟨⟨respond .ok 3 5 [30] up, _, rfl, rfl⟩, rfl, by decide⟩
theorem witness_Status : up.cpe.port = .ready ∧ up.cpe.seen.length = 8 ∧ up.findKind .capture = none
    ∧ (∃ x, (working (jobWith (.capture running))).captureJob = some x)
    ∧ (∃ j job p, (working (jobWith (.play seeking))).findKind .play = some (j, job) ∧ job.body = .play p) :=
  ⟨rfl, rfl, rfl, ⟨_, rfl⟩, _, _, _, rfl, rfl⟩
theorem witness_EventRead : ∃ s : State, ∃ e rest, s.cpe.port = .ready ∧ s.cpe.events = e :: rest :=
  ⟨raise (.linkMute .configuration) up, _, _, rfl, rfl⟩
/-- The queue with 31 and with 32 records; a kind the mask leaves out. -/
theorem witness_Raise : (raise (.linkMute .configuration) up).cpe.events.length = 1
    ∧ (let s := { up with cpe.events := List.replicate 31 (.linkMute .configuration) }
       (raise (.linkMute .configuration) s).cpe.events.length = 32
       ∧ (raise (.linkMute .configuration) (raise (.linkMute .configuration) s)).cpe.lost = 1)
    ∧ (raise (.linkMute .configuration) { up with sul.cfg.eventMask := 0 }).cpe.events = [] := by decide

/-! ## Witnesses: the catalogue -/

theorem witness_LabelRead : take37Bytes.length = 4 ∧ (takeParam take37Bytes).valid = true ∧ (takeParam [0, 0, 0, 0]).valid = false
    ∧ up.findTake (takeParam take37Bytes) = none ∧ (holding held).findTake (takeParam take37Bytes) = some (0, held)
    ∧ (holding held).cpe.port = .ready := by decide
theorem witness_EntryRead : (byteAt [2, 0, 0, 0, 0] 0).toNat = 2 ∧ fieldAt [0, 0, 0, 8, 0] 1 4 = 2048 ∧ fieldAt [0, 0, 0, 7, 255] 1 4 = 2047
    ∧ up.entryAt 2047 = none ∧ (holding held).entryAt (fieldAt [0, 0, 0, 0, 0] 1 4) = some held
    ∧ (holding held).findTake (takeOfValue (fieldAt (1 :: take37Bytes) 1 4)) = some (0, held) := by decide
theorem witness_Withdraw : (holding held).Sound ∧ (holding held).findTake (takeParam take37Bytes) = some (0, held)
    ∧ held.state = .held ∧ held.jobRefs = 0 ∧ (∃ c ∈ (holding held).chain held, ((holding held).chunkAt c).owner = .entry 0)
    ∧ (holding { held with state := .receiving }).findTake (takeParam take37Bytes) = some (0, { held with state := .receiving })
    ∧ answerOf (exec (.withdraw take37Bytes) (holding { held with jobRefs := 1 })) = some (.locked, 12, 0, []) :=
  ⟨sound_holding, rfl, rfl, rfl, by decide, rfl, by decide⟩
theorem witness_LabelWrite : (take37Bytes ++ 0 :: List.replicate 64 1).length = 69
    ∧ (holding { held with state := .capturing }).findTake (takeParam (take37Bytes ++ 0 :: List.replicate 64 1))
        = some (0, { held with state := .capturing })
    ∧ (let e := { held with role := .origin, holders := [31] }
       e.state = .held ∧ e.role = .origin ∧ (∀ a ∈ e.holders, a = (holding e).own) ∧ e.placement = .notNeeded)
    ∧ (byteAt (take37Bytes ++ 1 :: List.replicate 64 1) 4).toNat = 1 ∧ (byteAt (take37Bytes ++ 2 :: List.replicate 64 1) 4).toNat = 2
    ∧ answerOf (exec (.labelWrite (take37Bytes ++ 0 :: List.replicate 64 1)) (holding held)) = some (.locked, 9, 0, []) := by
  decide +kernel
theorem noJobs {s : State} (h : s.jt.jobs = []) (k : Nat) : s.jobAt k = none := by simp [State.jobAt, h, smapGet]
theorem witness_Repair :
    (let e := { held with damaged := [1], damagedCount := 1 }
     (holding e).Sound ∧ (holding e).findTake (takeParam take37Bytes) = some (0, e) ∧ e.damaged ≠ []
      ∧ (∀ j job, (holding e).jobAt j = some job → job.kind ≠ .repair) ∧ (holding e).jt.jobs.length < 8)
    ∧ answerOf (exec (.repair take37Bytes) (holding held)) = some (.notFound, 13, 0, [])
    ∧ answerOf (exec (.repair take37Bytes) (holding { held with damaged := [1], damagedCount := 1 })) = some (.ok, 13, 0, []) :=
  ⟨⟨sound_of_check (by decide), rfl, by decide, fun j job h => by simp [noJobs (s := holding _) rfl] at h, by decide⟩, by decide, by decide⟩

/-! ## Witnesses: capture, retrieval and the sample port -/

/-- The clamp of the pre-roll at 64; width code 5. -/
theorem witness_Arm : up.port.owner = none ∧ up.jt.jobs.length < 8 ∧ formatOfByte 0x22 = some format16
    ∧ answerOf (exec (.arm [0x22, 65]) up) = some (.ok, 3, 0, [64])
    ∧ answerOf (exec (.arm [0x50, 0]) up) = some (.badParam, 3, 0, [])
    ∧ answerOf (exec (.arm [0x22, 0]) { up with port.owner := some 0 }) = some (.streamBusy, 3, 0, []) :=
  ⟨rfl, by decide, by decide, by decide, by decide, by decide⟩
/-- The rotation at 255 with tag 255 held: the next is 0. -/
theorem witness_Tags : { working { jobWith (.capture running) with tag := 255 } with jt.nextTag := 255 : State }.nextJobTag = 0
    ∧ ∃ t < 256, ∀ p ∈ (working { jobWith (.capture running) with tag := 255 }).jt.jobs, p.2.holdsTag t = false :=
  ⟨by decide, 0, by decide, by decide⟩
theorem witness_Start :
    (let s := working (jobWith (.capture { running with state := .armed }))
     s.Sound ∧ s.captureJob = some (0, jobWith (.capture { running with state := .armed }), { running with state := .armed })
      ∧ s.cat.fault = false ∧ s.cat.entries.length + s.cat.reserved < 2048 ∧ 1 ≤ s.med.free - s.med.pledged
      ∧ s.cat.counter < 134217727 ∧ s.lowestFree = some 1)
    ∧ up.findKind .capture = none
    ∧ answerOf (exec (.start []) { working (jobWith (.capture { running with state := .armed })) with med.pledged := 7 })
        = some (.mediaFull, 4, 0, [])
    ∧ answerOf (exec (.start []) { working (jobWith (.capture { running with state := .armed })) with cat.reserved := 2048 })
        = some (.catalogueFull, 4, 0, [])
    ∧ answerOf (exec (.start []) { working (jobWith (.capture { running with state := .armed })) with cat.counter := 134217727 })
        = some (.mediaFault, 4, 0, []) :=
  ⟨⟨sound_of_check (by decide), rfl, rfl, by decide, by decide, by decide, by decide⟩, rfl, by decide, by decide, by decide⟩
/-- A capture in each of its states; with a write issued and without; with its entry. -/
def capturing (c : CaptureJob) : State :=
  { holding { held with state := .capturing } with jt.jobs := [(0, { jobWith (.capture c) with entry := some 0 })] }
theorem witness_Stop : (capturing running).Sound ∧ running.state = .running ∧ running.cut = none ∧ running.discard = none
    ∧ (∃ b ∈ running.closed, b.start < running.offset)
    ∧ (∃ x, (working (jobWith (.capture { running with state := .armed }))).captureJob = some x ∧ x.2.1.entry = none)
    ∧ (∃ x, (capturing { running with state := .draining }).captureJob = some x) :=
  ⟨sound_of_check (by decide), rfl, rfl, rfl, by decide, ⟨_, rfl, rfl⟩, _, rfl⟩
theorem witness_Abort : (capturing running).Sound ∧ (capturing running).issuedBy 0 = false
    ∧ (capturing running).entryAt 0 = some { held with state := .capturing }
    ∧ { capturing running with med.issued := some ⟨.job 0 .sound, true, 4097, [], some 1, 1, 0, true⟩ : State }.issuedBy 0 = true :=
  ⟨sound_of_check (by decide), by decide, by decide, by decide⟩

/-- RETRIEVE of take 3-7 from offset `a` for `n` frames. -/
def retrieve37 (a n : Byte) : List Byte := take37Bytes ++ [0, 0, 0, a, 0, 0, 0, n, 0]
/-- The last offset of the timeline, and the first past it; a damaged block in the stretch; a policy byte of 2. -/
theorem witness_Retrieve : (holding held).Sound ∧ (retrieve37 119 0).length = 13
    ∧ (holding held).playableEntry (takeParam (retrieve37 119 0)) = some (0, held)
    ∧ fieldAt (retrieve37 119 0) 4 4 < held.timelineLength ∧ held.cleanFor 119 0 = true
    ∧ answerOf (exec (.retrieve (retrieve37 119 0)) (holding held)) = some (.ok, 7, 0, [0])
    ∧ answerOf (exec (.retrieve (retrieve37 120 0)) (holding held)) = some (.badParam, 7, 0, [])
    ∧ answerOf (exec (.retrieve (retrieve37 0 0)) (holding { held with damaged := [1] })) = some (.ok, 7, 0, [1])
    ∧ answerOf (exec (.retrieve (retrieve37 0 0)) up) = some (.ok, 7, 0, [1]) ∧ up.linkStanding = true
    ∧ answerOf (exec (.retrieve (take37Bytes ++ [0, 0, 0, 0, 0, 0, 0, 0, 2])) up) = some (.badParam, 7, 0, []) :=
  ⟨sound_holding, rfl, by and_intros <;> decide +kernel⟩
/-- A node in LINK_MUTE without the take, and one with it, damaged. -/
theorem witness_Retrieve_muted :
    (let s := { up with lif.mute := some .configuration }
     s.Sound ∧ s.playableEntry take37 = none ∧ s.linkStanding = false
      ∧ (after (exec (.retrieve (retrieve37 0 0)) s)).cpe.events = [.doneJob 0 .play .linkCongested (some take37) 0xFF 0 0])
    ∧ answerOf (exec (.retrieve (retrieve37 0 0)) { holding { held with overflow := true } with lif.mute := some .configuration })
        = some (.ok, 7, 0, [0]) := ⟨⟨sound_of_check (by decide), rfl, rfl, by decide⟩, by decide⟩
theorem witness_Cancel : (working (jobWith (.play seeking))).Sound
    ∧ (working (jobWith (.play seeking))).findJob (fun job => job.tag == (5 : Byte).toNat) = some (0, jobWith (.play seeking))
    ∧ (∃ x, (capturing running).findJob (fun job => job.tag == (5 : Byte).toNat) = some x)
    ∧ (capturing running).issuedBy 0 = false
    ∧ answerOf (exec (.cancel [5]) up) = some (.notFound, 8, 5, []) :=
  ⟨sound_of_check (by decide), rfl, ⟨_, rfl⟩, by decide, by decide⟩
/-- The line with a capture armed, a retrieval made, and its job ended. -/
theorem witness_Line : State.reset.port.line = .released
    ∧ (after (exec (.arm [0x22, 65]) up)).port.line = .input
    ∧ (after (exec (.retrieve (retrieve37 119 0)) (holding held))).port.line = .output
    ∧ (after (exec (.cancel [5]) { working (jobWith (.play seeking)) with port.owner := some 0, port.line := .output })).port.line
        = .released := by decide
/-- No job, and an entry that loses its repair hold; a take being captured. -/
theorem witness_SoftReset : up.Sound ∧ (∀ j job c, up.jobAt j = some job → job.body = .capture c → c.state = .armed)
    ∧ (∃ job c, (capturing running).jobAt 0 = some job ∧ job.body = .capture c ∧ c.state ≠ .armed)
    ∧ (let s := after (exec (.softReset []) (holding { held with repairHold := some 9 }))
       s.entryAt 0 = some held ∧ s.med.free = 6 ∧ s.cat.wt = []) :=
  ⟨sound_up, fun j job c h => by simp [noJobs (s := up) rfl] at h, ⟨_, _, rfl, rfl, by decide⟩, by decide⟩
/-- The offset one below the last, and the last. -/
theorem witness_SampleFrameIn :
    (∃ job c, { capturing { running with offset := 4294967293 } with port.owner := some 0 : State }.jobAt 0 = some job
      ∧ job.body = .capture c ∧ c.state = .running ∧ c.offset ≠ 4294967294 ∧ c.closed.length < 96)
    ∧ (let s := { capturing { running with offset := 4294967294 } with port.owner := some 0 }
       ((after (exec (.sampleFrameIn true [] []) s)).captureJob.map fun x => x.2.2.cut) = some (some (4294967295, .normal))) :=
  ⟨⟨_, _, rfl, rfl, rfl, by decide, by decide⟩, by decide⟩
/-- A retrieval that plays one block, at its first frame and at a frame whose block is missing. -/
def playing (slots : List Slot) : PlayJob :=
  { seeking with state := .playing, shape := some held.shape, endOffset := 120, firstBlock := 1, blockCount := 1,
                 started := true, slots := slots }
theorem witness_SampleFrameOut :
    (∃ b p x, (playing [⟨1, true, false, []⟩]).find held.shape = .stored b p x)
    ∧ (playing [⟨1, true, false, []⟩]).cursor + 1 < (playing [⟨1, true, false, []⟩]).endOffset
    ∧ (playing []).find held.shape = .missing ∧ (playing []).pendingResult = none
    ∧ ((after (exec (.sampleFrameOut true 2 2) { working (jobWith (.play (playing [⟨1, true, false, List.replicate 32 0 ++ [0xC0, 0]⟩])))
          with port.owner := some 0 })).port.lineHigh = [true, true]) :=
  ⟨⟨_, _, _, rfl⟩, by decide, by decide, rfl, by decide⟩
/-- A gap frame at offset 118 of 120 and at the last, 119; the last frame of a stored block; a transfer that had ended early. -/
theorem witness_SampleFrameOut_end :
    let shape := { held.shape with gaps := [⟨118, 2⟩] }
    let s (p : PlayJob) : State := { working (jobWith (.play p)) with port.owner := some 0 }
    let gap (c : Nat) : PlayJob := { playing [] with shape := some shape, state := .draining, cursor := c }
    let last : PlayJob := { playing [⟨1, true, false, []⟩] with state := .draining, cursor := 119 }
    (s (gap 119)).Sound ∧ inGap shape.gaps 118 = true ∧ (gap 118).cursor + 1 < (gap 118).endOffset ∧ (gap 119).cursor + 1 = 120
      ∧ (((after (exec (.sampleFrameOut true 2 2) (s (gap 118)))).jobAt 0).bind Job.playOf).map (·.cursor) = some 119
      ∧ (after (exec (.sampleFrameOut true 2 2) (s (gap 119)))).cpe.events = [.doneJob 5 .play .ok (some take37) 0xFF 0 0]
      ∧ (∃ b q x, last.find held.shape = .stored b q x) ∧ (after (exec (.sampleFrameOut true 2 2) (s last))).jt.jobs = []
      ∧ (after (exec (.sampleFrameOut true 2 2) (s { last with slots := [], pendingResult := some .stalled }))).cpe.events
          = [.doneJob 5 .play .stalled (some take37) 0xFF 0 0] :=
  ⟨sound_of_check (by decide), by decide, by decide, by decide, by decide, by decide, ⟨_, _, _, rfl⟩, by decide, by decide⟩


/-! ## Witnesses: start-up and the store -/

/-- An image of 19 bytes `b` with its check value. -/
def imageOf (b : List Byte) : List Byte := b ++ beBytes 2 (crc16 b).toNat
/-- Every clamp of R186's table at once. -/
def clampedImage : List Byte := imageOf [32, 3, 0, 17, 0, 1, 2, 3, 4, 5, 6, 7, 8, 0xEA, 0x61, 0xEA, 0x61, 1, 0x0F]
theorem witness_ConfigImage : State.reset.sul.phase = .image ∧ clampedImage.length = 21
    ∧ fieldAt clampedImage 19 2 = (crc16 (clampedImage.take 19)).toNat
    ∧ (let c := (after (exec (.configImageRead (some clampedImage)) State.reset)).sul.cfg
       c.address = 31 ∧ c.linkRate = 2 ∧ c.copiesWanted = 1 ∧ c.burstLimit = 16 ∧ c.dozeDelay = 60000 ∧ c.eventMask = 0x0F)
    ∧ (after (exec (.configImageRead (some clampedImage)) State.reset)).sul.clamped = 0x3F
    ∧ (after (exec (.configImageRead none) State.reset)).cpe.events = [.configDefaulted .absent, .linkMute .configuration] := by
  decide +kernel
/-- 32,768 blocks and one below. -/
theorem witness_Capacity : { State.reset with sul.phase := .capacity 0 : State }.sul.phase = .capacity 0
    ∧ (after (exec (.capacityReport 32768) { State.reset with sul.phase := .capacity 0 })).med.total = 8
    ∧ (after (exec (.capacityReport 32767) { State.reset with sul.phase := .capacity 0 })).sul.phase = .unusable := by decide
/-- The read of the counter block, with and without the format mark. -/
def readingCounter : State :=
  { State.reset with sul.phase := .counter, act.state := .active, med.total := 8,
                     med.issued := some ⟨.sul (.readBlock 0), false, 0, [], none, 0, 0, true⟩ }
set_option maxRecDepth 20000 in
theorem witness_StoreReady : ({ State.reset with sul.phase := .counter, med.total := 8 : State }.act.state = .waking
      ∧ { State.reset with sul.phase := .counter, med.total := 8 : State }.med.issued = none)
    ∧ (let b := counterBlock 77
       b.length = 512 ∧ fieldAt b 16 2 = (crc16 ((b.drop 32).take 480)).toNat
        ∧ ((b.drop 32).take 480).take 4 = [0xA5, 0x5A, 0xC3, 0x3C] ∧ fieldAt ((b.drop 32).take 480) 4 4 = 77)
    ∧ (let b := makeBlock none 0 0 0 3 0 []
       b.length = 512 ∧ fieldAt b 16 2 = (crc16 ((b.drop 32).take 480)).toNat
        ∧ ((b.drop 32).take 480).take 4 ≠ [0xA5, 0x5A, 0xC3, 0x3C])
    ∧ ∃ op, readingCounter.med.issued = some op ∧ op.write = false ∧ op.who = .sul (.readBlock 0) :=
  ⟨⟨rfl, rfl⟩, by decide +kernel, by decide +kernel, _, rfl, rfl, rfl⟩
/-- SUL in `phase` with an operation issued, in a store of `total` chunks. -/
def loading (phase : SulPhase) (total : Nat) (write : Bool) : State :=
  { State.reset with sul.phase := phase, act.state := .active, med.total := total,
                     med.issued := some ⟨.sul (.readBlock 0), write, 9, [], none, 9, 0, true⟩ }
set_option maxRecDepth 20000 in
/-- The last record, live and empty; a record that cannot be read. -/
theorem witness_Records_load : (loading (.records 2047) 8 false).Sound
    ∧ (let s := after (exec (.mediaReadComplete true (.bytes (recordBlock 2047 (some held)))) (loading (.records 2047) 8 false))
       s.entryAt 2047 = some held ∧ s.sul.phase = .maps 0 ∧ s.cat.fault = false)
    ∧ entryOfRecord (((recordBlock 0 none).drop 32).take 480) = .empty
    ∧ (after (exec (.mediaReadComplete false (.bytes (recordBlock 0 (some held)))) (loading (.records 0) 8 false))).cat.entries = [] :=
  ⟨sound_of_check (by decide), by decide +kernel, by decide +kernel, by decide +kernel⟩
/-- The map block of chunks 0..79 that gives chunk 1 owner `owner` and next chunk `next`, the others FREE. -/
def mapBlockOf (owner next : Nat) : List Byte :=
  makeBlock none 2049 0 0 5 0 (reservedChunk.bytes ++ beBytes 2 owner ++ beBytes 2 next ++ beBytes 2 7
    ++ (List.replicate 78 freeChunk.bytes).flatten)
set_option maxRecDepth 20000 in
/-- Owners 2047 and 2048, FFFCH and FFFDH, RESERVED for chunk 1; next chunks 80 and 81 of 81. -/
theorem witness_Map_load : (loading (.maps 0) 81 false).Sound ∧ 0 + 1 < (81 + 79) / 80
    ∧ (let c (owner next : Nat) := chunkOfBytes 81 1 (beBytes 2 owner ++ beBytes 2 next ++ beBytes 2 7)
       c 2047 80 = some ⟨.entry 2047, some 80, 7⟩ ∧ c 2047 81 = none ∧ c 2048 80 = none ∧ c 0xFFFC 80 = none
        ∧ c 0xFFFD 80 = some ⟨.bad, some 80, 7⟩ ∧ c 0xFFFE 80 = none ∧ c 0xFFFF 0xFFFF = some ⟨.free, none, 7⟩)
    ∧ (after (exec (.mediaReadComplete true (.bytes (mapBlockOf 2048 80))) (loading (.maps 0) 81 false))).chunkAt 1 = lostChunk :=
  ⟨sound_of_check (by decide), by decide, by decide, by decide +kernel⟩
/-- The last map block of 81 chunks: an entry kept, one in CAPTURING made INCOMPLETE, one RECEIVING and one without a chain freed. -/
theorem witness_Reconcile :
    let e (state : EntryState) (first : Nat) := { held with state := state, firstChunk := first, placement := .inProgress }
    let s : State :=
      { loading (.maps 1) 81 false with
        cat.entries := [(0, e .held 1), (1, e .capturing 2), (2, e .receiving 3), (3, e .held 0)],
        med.chunks := [(0, reservedChunk), (1, ⟨.entry 0, none, 0⟩), (2, ⟨.entry 1, some 1, 0⟩), (3, ⟨.entry 2, none, 0⟩)] }
    s.Sound ∧ 1 + 1 = (81 + 79) / 80 ∧ (s.chunkAt 1).owner = .entry 0 ∧ 1 / 80 ≠ 1 ∧
    (let u := after (exec (.mediaReadComplete false (.bytes [])) s)
     u.sul.phase = .heads [1] 0 ∧ u.entryAt 0 = some { held with placement := .queued } ∧ u.entryAt 2 = none ∧ u.entryAt 3 = none
      ∧ (u.entryAt 1).map (·.state) = some .incomplete ∧ u.chunkAt 1 = ⟨.entry 0, none, 2⟩ ∧ u.chunkAt 3 = freeChunk
      ∧ u.chunkAt 80 = lostChunk ∧ u.med.bad = 1 ∧ u.med.free = 77 ∧ u.cat.wt = [.entry 0, .entry 1, .entry 2, .entry 3]) :=
  ⟨sound_of_check (by decide), by decide, rfl, by decide, by decide +kernel⟩
/-- The last head block written and one that faults a third time; the last block but one of a preparation. -/
theorem witness_Complete :
    (let s : State := { loading (.heads [0] 0) 8 true with cat.entries := [(0, { held with placement := .queued })], clock := 8000 }
     let u := after (exec (.mediaWriteComplete true) s)
     u.sul.phase = .complete ∧ u.cpe.port = .ready ∧ u.cat.queue = [(0, 1)] ∧ u.cpe.events = [.startupDone 1 0 0 false false])
    ∧ (let s : State := { loading (.heads [0, 1] 2) 8 true with cat.entries := [(0, held)] }
       ((after (exec (.mediaWriteComplete false) s)).entryAt 0).map (·.damaged) = some [0])
    ∧ 2048 + 1 < 2049 + (8 + 79) / 80
    ∧ (after (exec (.mediaWriteComplete false) (loading (.prepare 2048 2) 8 true))).cat.fault = true
    ∧ (after (exec (.mediaWriteComplete false) (loading (.prepare 2048 1) 8 true))).cat.fault = false := by decide +kernel
/-- A retrieval in LOCAL with the read of block 1 issued. -/
def readingLocal : State :=
  { holding held with jt.jobs := [(0, { jobWith (.play { playing [⟨1, false, false, []⟩] with state := .localStore }) with entry := some 0 })],
                      med.issued := some ⟨.job 0 (.read 1), false, 4097, [], some 1, 1, 0, true⟩ }
theorem witness_LocalRead : (∃ op, readingLocal.med.issued = some op ∧ op.write = false ∧ op.wanted = true ∧ op.who = .job 0 (.read 1))
    ∧ (∃ job p, readingLocal.jobAt 0 = some job ∧ job.body = .play p ∧ p.state = .localStore ∧ job.entry = some 0
        ∧ ∃ x ∈ p.slots, x.seq = 1)
    ∧ readingLocal.entryAt 0 = some held ∧ 1 ∉ held.damaged ∧ held.damaged.length < 8 :=
  ⟨⟨_, rfl, rfl, rfl, rfl⟩, ⟨_, _, rfl, rfl, rfl, rfl, by decide⟩, rfl, by decide, by decide⟩
theorem witness_Writes : ∃ s : State, ∃ op, s.med.issued = some op ∧ op.write = true :=
  ⟨{ up with med.issued := some ⟨.map 0 0, true, 2049, [], none, 0, 0, true⟩ }, _, rfl, rfl⟩
theorem witness_WaitingCommands :
    (∃ s : State, ∃ op, s.med.issued = some op ∧ op.write = true ∧ op.who = .wt .counter 0 ∧ op.chunk = none
      ∧ s.cpe.current = some (.start 5 take37))
    ∧ (∃ s : State, ∃ op e, s.med.issued = some op ∧ op.write = true ∧ op.who = .wt (.head 0 none) 0 ∧ s.cpe.current = some .labelWrite
      ∧ s.entryAt 0 = some e ∧ op.chunk = some 1 ∧ (s.chunkAt 1).owner = .entry 0) :=
  ⟨⟨{ up with med.issued := some ⟨.wt .counter 0, true, 0, [], none, 0, 0, true⟩, cpe.current := some (.start 5 take37) },
    _, rfl, rfl, rfl, rfl, rfl⟩,
   ⟨{ holding held with med.issued := some ⟨.wt (.head 0 none) 0, true, 4096, [], some 1, 0, 0, true⟩, cpe.current := some .labelWrite },
    _, _, rfl, rfl, rfl, rfl, rfl, rfl, rfl⟩⟩

/-- A job on the take with an operation issued in chunk 1, where the list of damage holds `damaged`. -/
def busyJob (job : Job) (req : JobReq) (write : Bool) (damaged : List Nat) : State :=
  { holding { held with jobRefs := 1, damaged := damaged, storedBlocks := 20 } with
    jt.jobs := [(0, { job with entry := some 0 })], act.state := .waking,
    med.issued := some ⟨.job 0 req, write, 4097, [], some 1, 1, 0, true⟩ }
/-- The damage of a take whose list holds `n` sequences from 2 on. -/
def listed (n : Nat) : List Nat := List.range' 2 n
set_option maxRecDepth 20000 in
/-- An unreadable block where the list holds 7 and 8 sequences; one whose block check disagrees; a read that times out. -/
theorem witness_Reads :
    let play : Job := jobWith (.play { playing [⟨1, false, false, []⟩] with state := .localStore })
    let serve : Job := answering (.serve ⟨.play, 0, 0, 0, 0⟩)
    let b := makeBlock (some take37) 1 0 120 1 0x22 []
    let entry (c : Instr) (n : Nat) := (after (exec c (busyJob play (.read 1) false (listed n)))).entryAt 0
    b.length = 512 ∧ fieldAt b 16 2 = (crc16 ((b.drop 32).take 480)).toNat
      ∧ (entry (.mediaReadComplete false (.bytes b)) 7).map (·.damaged) = some (1 :: listed 7)
      ∧ (entry .mediaReadTimeout 8).map (fun e => (e.damaged, e.overflow)) = some (listed 8, true)
      ∧ (entry (.mediaReadComplete true (.bytes (b.set 40 1))) 0).map (·.damaged) = some [1]
      ∧ ((after (exec (.mediaReadComplete true (.bytes b)) (busyJob serve (.read 1) false []))).lif.queue.map (·.frame.payload))
          = [.data 1 false b]
      ∧ ((after (exec (.mediaReadComplete false (.bytes b)) (busyJob serve (.read 1) false []))).lif.queue.map (·.frame.payload))
          = [.data 1 true b]
      ∧ (busyJob serve (.read 1) false []).linkStanding = true := by decide +kernel
set_option maxRecDepth 20000 in
/-- A scan's last read but one and its last; the last read of a list that leaves sequence 0, a sound one, and none. -/
theorem witness_RepairReads :
    let b := makeBlock (some take37) 1 0 120 1 0x22 []
    let s (scanNext : Nat) (scan : Bool) (damaged : List Nat) : State :=
      busyJob (jobWith (.repair { repairing .verifying with scan := scan, scanNext := scanNext, scanEnd := 20 })) (.read 1) false damaged
    let t (x : State) := after (exec (.mediaReadComplete true (.bytes b)) x)
    (s 19 true []).Sound ∧ ((t (s 19 true [])).jobAt 0).map (·.reqs) = some [.read 19]
      ∧ ((after (exec .mediaReadTimeout (s 20 true (listed 8)))).entryAt 0).map (fun e => (e.damagedCount, e.overflow)) = some (9, true)
      ∧ (((t (s 0 false [0, 1])).jobAt 0).bind Job.repairOf).map (·.state) = some .head
      ∧ (((t (s 0 false [1, 2])).jobAt 0).bind Job.repairOf).map (·.state) = some .seeking
      ∧ (t (s 0 false [1])).cpe.events = [.doneJob 5 .repair .ok (some take37) 9 1 0] :=
  ⟨sound_of_check (by decide), by decide +kernel, by decide +kernel, by decide +kernel, by decide +kernel, by decide +kernel⟩
set_option maxRecDepth 20000 in
/-- The last write of a copy, matched and not; one that faults; one that finds no chunk. -/
theorem witness_CopyWrites :
    let job (matched : Option Check) := answering (.receive { pledged with receiving := true, pledge := 0, matched := matched })
    let s (matched : Option Check) := busyJob (job matched) (.append []) true []
    let full : State :=
      { holding { held with state := .receiving } with
        jt.jobs := [(0, { job none with entry := some 0, reqs := [.append []] })],
        med.chunks := [(1, { owner := .entry 0, next := none, used := 4096 })], med.free := 2, med.pledged := 2 }
    (s none).Sound ∧ ((s none).chunkAt 1).owner = .entry 0
      ∧ ((after (exec (.mediaWriteComplete true) (s (some 7)))).entryAt 0).map (·.check) = some 7
      ∧ (after (exec (.mediaWriteComplete true) (s none))).jt.jobs.length = 1
      ∧ ((after (exec (.mediaWriteComplete false) (s none))).jobAt 0).map (·.reqs) = some [.append []]
      ∧ full.Sound ∧ full.lastIsFull { held with state := .receiving } = true
      ∧ full.receiveChunk { pledged with receiving := true, pledge := 0 } = none ∧ (issue (.job 0 (.append [])) full).entryAt 0 = none :=
  ⟨sound_of_check (by decide), by decide, by decide +kernel, by decide +kernel, by decide +kernel, sound_of_check (by decide), by decide,
    by decide, by decide +kernel⟩
set_option maxRecDepth 20000 in
/-- A repair that receives, that finishes with its last write OK and faulted, and in HEAD with a sound sequence listed and none. -/
theorem witness_RepairWrites :
    let s (state : RepairState) (q : Nat) (damaged : List Nat) := busyJob (jobWith (.repair (repairing state))) (.inPlace q []) true damaged
    let t (ok : Bool) (x : State) := after (exec (.mediaWriteComplete ok) x)
    (s .receiving 1 [1]).Sound ∧ ((t true (s .receiving 1 [1])).entryAt 0).map (·.damaged) = some []
      ∧ (t false (s .receiving 1 [1])).jt.jobs.length = 1
      ∧ ((t true (s .finishing 1 [1])).entryAt 0).map (·.repairHold) = some none
      ∧ ((t false (s .finishing 1 [1])).entryAt 0).map (·.repairHold) = some (some 60000)
      ∧ ((t true (s .finishing 1 [1, 2])).entryAt 0).map (·.repairHold) = some none
      ∧ ((t false (s .head 0 [0])).entryAt 0).map (·.repairHold) = some (some 60000)
      ∧ (((t true (s .head 0 [0, 1])).jobAt 0).bind Job.repairOf).map (·.state) = some .seeking :=
  ⟨sound_of_check (by decide), by and_intros <;> decide +kernel⟩

/-- A capture with the write of its sound block, or of its head block, issued at `offset` of chunk 1. -/
def writing (req : JobReq) (c : CaptureJob) (offset : Nat) : State :=
  { capturing c with port.owner := some 0,
                     med.issued := some ⟨.job 0 req, true, 4096 + offset, [], some 1, offset, 0, true⟩ }
/-- A capture whose drain is complete, its head block faulted `faults` times. -/
def draining (faults : Nat) : CaptureJob :=
  { running with state := .draining, closed := [], cut := some (120, .normal), head := .issued, headFaults := faults }
/-- Offsets 4094 and 4095; a fault; the second and the third fault of a head block. -/
theorem witness_CaptureWrites : (writing .sound running 4095).Sound ∧ (writing .head (draining 0) 0).Sound
    ∧ ((writing .sound running 4095).chunkAt 1).owner = .entry 0
    ∧ (∃ gaps, insertGap { start := 0, length := 120 } running.gaps = some gaps)
    ∧ ((after (exec (.mediaWriteComplete true) (writing .sound running 4095))).entryAt 0).map (·.timelineLength) = some 120
    ∧ (after (exec (.mediaWriteComplete true) (writing .sound { running with lastEnd := 7 } 4094))).entryAt 0
        = some { held with state := .capturing }
    ∧ (after (exec (.mediaWriteComplete false) (writing .sound running 1))).cpe.events = [.captureGap take37 0 120 .writeFault]
    ∧ (let s := after (exec (.mediaWriteComplete true) (writing .head (draining 2) 0))
       (s.entryAt 0).map (·.endCause) = some (some .normal) ∧ s.jt.jobs = [])
    ∧ (after (exec (.mediaWriteComplete false) (writing .head (draining 1) 0))).jt.jobs.length = 1
    ∧ (let s := after (exec (.mediaWriteComplete false) (writing .head (draining 2) 0))
       (s.entryAt 0).map (·.endCause) = some (some .mediaFault) ∧ (s.entryAt 0).map (·.damaged) = some [0]) :=
  ⟨sound_of_check (by decide), sound_of_check (by decide), by decide, ⟨_, rfl⟩, by and_intros <;> decide +kernel⟩

/-- Gaps at every tenth frame, `n` of them. -/
def gapsOf (n : Nat) : List Gap := (List.range n).map fun k => ⟨1000 + 10 * k, 1⟩
/-- A discard run that 15 gaps leave room for and 16 do not; a fault that 16 gaps leave no room for; no chunk for the block. -/
theorem witness_CaptureCuts :
    let c (n : Nat) : CaptureJob := { running with offset := 300, discard := some (200, 100), gaps := gapsOf n }
    let got (ok : Bool) (n : Nat) := ((after (exec (.mediaWriteComplete ok) (writing .sound (c n) 0))).jobAt 0).bind Job.captureOf
    let full : State :=
      { writing .sound (c 16) 0 with
        med.issued := none, med.pledged := 6, med.chunks := [(1, { owner := .entry 0, next := none, used := 4096 })] }
    (writing .sound (c 16) 0).Sound ∧ (∃ g, insertGap ⟨200, 100⟩ (gapsOf 15) = some g) ∧ insertGap ⟨200, 100⟩ (gapsOf 16) = none
      ∧ insertGap ⟨0, 120⟩ (gapsOf 16) = none ∧ (∃ g g', insertGap ⟨0, 120⟩ (gapsOf 14) = some g ∧ insertGap ⟨200, 100⟩ g = some g')
      ∧ (got true 15).map (fun x => (x.cut, x.gaps.length)) = some (none, 16)
      ∧ (got true 16).map (fun x => (x.cut, x.gaps)) = some (some (200, .overrun), [])
      ∧ (got false 14).map (fun x => (x.cut, x.gaps.length)) = some (none, 16)
      ∧ (got false 16).map (·.cut) = some (some (0, .overrun))
      ∧ full.Sound ∧ full.lastIsFull { held with state := .capturing } = true ∧ full.med.free ≤ full.med.pledged
      ∧ (((issue (.job 0 .sound) full).jobAt 0).bind Job.captureOf).map (·.cut) = some (some (0, .mediaFull)) :=
  ⟨sound_of_check (by decide), ⟨_, rfl⟩, by decide, by decide, ⟨_, _, rfl, rfl⟩, by decide +kernel, by decide +kernel, by decide +kernel,
    by decide +kernel, sound_of_check (by decide), by decide, by decide, by decide +kernel⟩
/-- A label changed while the head block was being written. -/
theorem witness_HeadAgain :
    let s (faults : Nat) : State := writing .head { draining faults with headAgain := true } 0
    (s 2).Sound
      ∧ (((after (exec (.mediaWriteComplete true) (s 2))).jobAt 0).bind Job.captureOf).map (·.headFaults) = some 0
      ∧ (((after (exec (.mediaWriteComplete false) (s 1))).jobAt 0).bind Job.captureOf).map (·.headFaults) = some 2 :=
  ⟨sound_of_check (by decide), by decide +kernel, by decide +kernel⟩
/-- The last write of a capture that ABORT ends, OK and faulted; of one that SOFT_RESET ends, inside its chunk and at offset 4095. -/
theorem witness_CaptureEnds :
    let s (ending : CaptureEnding) (current : Current) (offset : Nat) : State :=
      { writing .sound { running with state := .draining, ending := some ending } offset with
        cpe.port := .busy, cpe.current := some current }
    let t (ok : Bool) (x : State) := after (exec (.mediaWriteComplete ok) x)
    (s .abort .abort 0).Sound ∧ (s .abort .abort 0).chain { held with state := .capturing } = [1]
      ∧ (t true (s .abort .abort 0)).chunkAt 1 = freeChunk ∧ (t false (s .abort .abort 0)).chunkAt 1 = lostChunk
      ∧ answerOf (exec (.mediaWriteComplete true) (s .abort (.cancel 5) 0)) = some (.ok, 8, 5, [])
      ∧ ((t true (s .softReset .softReset 4094)).entryAt 0).map (fun e => (e.state, e.timelineLength)) = some (.incomplete, 120)
      ∧ ((t false (s .softReset .softReset 4094)).entryAt 0).map (fun e => (e.state, e.timelineLength)) = some (.incomplete, 0)
      ∧ ((t true (s .softReset .softReset 4095)).entryAt 0).map (·.storedBlocks) = some 2
      ∧ ((s .softReset .softReset 0).chain { held with state := .capturing }).Nodup :=
  ⟨sound_of_check (by decide), by and_intros <;> decide +kernel⟩
/-- The head block of a take that SOFT_RESET ends, after its second and its third fault; a PLEDGED job made meanwhile. -/
theorem witness_SoftHead :
    let s (faults : Nat) : State :=
      { writing .head { draining faults with ending := some .softHead } 0 with
        cpe.port := .busy, cpe.current := some .softReset, cat.reserved := 1, med.pledged := 1,
        jt.jobs := [(0, { jobWith (.capture { draining faults with ending := some .softHead }) with entry := some 0 }),
                    (1, { answering (.receive pledged) with take := some { node := 9, seq := 1 } })] }
    let t (ok : Bool) (n : Nat) := after (exec (.mediaWriteComplete ok) (s n))
    (s 0).Sound ∧ (s 0).linkStanding = true ∧ (s 0).lif.queue.length + (s 0).resetPartings.length ≤ 16
      ∧ (s 0).resetPartings.map (·.payload) = [.abandon .reset]
      ∧ (t true 0).jt.jobs = [] ∧ (t true 0).med.pledged = 0 ∧ (t true 0).cat.reserved = 0
      ∧ (t true 0).lif.queue.map (·.frame.payload) = [.abandon .reset]
      ∧ (t false 1).jt.jobs.length = 2 ∧ ((t false 2).entryAt 0).map (·.damaged) = some [0] ∧ (t false 2).cpe.events = [] :=
  ⟨sound_of_check (by decide), by and_intros <;> decide +kernel⟩

/-! ## Witnesses: appends, chains and absent sequences -/

/-- The take of entry 0 in chunks 1 and 2, whose last holds `used` blocks and is the entry's own or BAD, and one job on it. -/
def chained (job : Job) (owner : ChunkOwner) (used : Nat) (e : Entry) : State :=
  { holding e with
    jt.jobs := [(0, { job with entry := some 0 })], med.free := 5, med.pledged := 1, act.state := .waking,
    med.chunks := [(1, { owner := .entry 0, next := some 2, used := 7 }), (2, { owner := owner, next := none, used := used })] }
/-- A copy whose next block waits for its place, with a pledge of `n` chunks. -/
def copying (n : Nat) : Job :=
  { answering (.receive { pledged with receiving := true, pledge := n, timer := none }) with reqs := [.append []] }
set_option maxRecDepth 20000 in
/-- The chain's last chunk with 4095 blocks, full and BAD, for a copy with a pledge and for a sound block without one. -/
theorem witness_Append :
    let r := { held with state := .receiving, chunkCount := 2 }
    let c := { held with state := .capturing }
    let sound := jobWith (.capture running)
    let op (s : State) (req : JobReq) := (issue (.job 0 req) s).med.issued.map fun op => (op.addr, (op.data.drop 4).take 4)
    (chained (copying 1) (.entry 0) 4096 r).Sound ∧ (chained sound .bad 9 c).Sound
      ∧ (chained (copying 1) (.entry 0) 4096 r).chain r = [1, 2] ∧ (chained sound .bad 9 c).chain c = [1, 2]
      ∧ op (chained (copying 1) (.entry 0) 4095 r) (.append (List.replicate 8 0)) = some (4096 * 2 + 4095, beBytes 4 (7 + 4095))
      ∧ op (chained (copying 1) (.entry 0) 4096 r) (.append (List.replicate 8 0)) = some (4096 * 3, beBytes 4 (7 + 4096))
      ∧ op (chained sound .bad 9 c) .sound = some (4096 * 3, beBytes 4 (7 + 9))
      ∧ (chained (copying 1) (.entry 0) 4096 r).lowestFree = some 3
      ∧ (let u := issue (.job 0 (.append [])) (chained (copying 1) (.entry 0) 4096 r)
         (u.med.free, u.med.pledged, u.med.mapList) = (4, 0, [0]) ∧ (u.chunkAt 2).next = some 3
          ∧ (u.entryAt 0).map (·.chunkCount) = some 3)
      ∧ (let u := issue (.job 0 .sound) (chained sound .bad 9 c)
         (u.med.free, u.med.pledged) = (4, 1) ∧ u.entryAt 0 = some c) :=
  ⟨sound_of_check (by decide), sound_of_check (by decide), by and_intros <;> decide +kernel⟩
set_option maxRecDepth 20000 in
/-- An in-place write of the chain's last sequence, 8, and of the head block: a capture's, a label's and SUL's. -/
theorem witness_InPlace :
    let repair := { jobWith (.repair (repairing .receiving)) with reqs := [.inPlace 8 []] }
    let s := chained repair (.entry 0) 2 held
    let op (r : Requester) (s : State) := (issue r s).med.issued.map fun op => (op.addr, (op.data.drop 32).take 6)
    s.Sound ∧ s.locate held 8 = some (2, 1) ∧ s.locate held 0 = some (1, 0)
      ∧ (op (.job 0 (.inPlace 8 [])) s).map (·.1) = some (4096 * 2 + 1)
      ∧ op (.job 0 .head) (chained (jobWith (.capture (draining 0))) (.entry 0) 2 { held with state := .capturing })
          = some (4096, take37Bytes ++ [0x22, 1])
      ∧ op (.job 0 .head) (chained (jobWith (.capture { draining 0 with ending := some .softHead })) (.entry 0) 2
          { held with state := .incomplete, endCause := some .reset }) = some (4096, take37Bytes ++ [0x22, 5])
      ∧ op (.wt (.head 0 none) 0) s = some (4096, take37Bytes ++ [0x22, 1])
      ∧ op (.sul (.head 0 0)) (holding { held with endCause := none }) = some (4096, take37Bytes ++ [0x22, 1]) :=
  ⟨sound_of_check (by decide), by and_intros <;> decide +kernel⟩
/-- WITHDRAW of a take whose second chunk is BAD. -/
theorem witness_Withdraw_bad :
    let s : State := { chained (copying 0) .bad 9 held with jt.jobs := [] }
    s.Sound ∧ (s.chain held).Nodup ∧ s.chain held = [1, 2] ∧ (s.chunkAt 2).owner = .bad
      ∧ (let u := after (exec (.withdraw take37Bytes) s)
         u.med.free = 6 ∧ u.chunkAt 2 = lostChunk ∧ u.chunkAt 1 = freeChunk ∧ u.med.mapList = [0]) :=
  ⟨sound_of_check (by decide), by decide, by decide, rfl, by decide +kernel⟩
/-- REPAIR of a take with the overflow flag and with 8 and 9 blocks; a count without a list. -/
theorem witness_Repair_scan :
    let e (blocks : Nat) := { held with overflow := true, storedBlocks := blocks }
    let s (blocks : Nat) : State := { holding (e blocks) with act.state := .waking }
    let reads (blocks : Nat) := (((after (exec (.repair take37Bytes) (s blocks))).jobAt 0).map (·.reqs.length))
    let counted := { held with damagedCount := 1 }
    (s 9).Sound ∧ (s 9).findTake (takeParam take37Bytes) = some (0, e 9) ∧ (s 9).issuedBy 0 = false ∧ 0 < (e 9).storedBlocks
      ∧ (∀ j job, (s 9).jobAt j = some job → job.kind ≠ .repair) ∧ (s 9).jt.jobs.length < 8
      ∧ reads 7 = some 7 ∧ reads 9 = some 8
      ∧ (holding counted).Sound ∧ (holding counted).findTake (takeParam take37Bytes) = some (0, counted)
      ∧ (holding counted).issuedBy (holding counted).freeRecord = false
      ∧ (after (exec (.repair take37Bytes) (holding counted))).cpe.events = [.doneJob 0 .repair .ok (some take37) 0xFF 0 0] :=
  ⟨sound_of_check (by decide), rfl, by decide, by decide, fun j job h => by simp [noJobs (s := { holding _ with act.state := _ }) rfl] at h,
    by decide, by decide, by decide, sound_of_check (by decide), rfl, by decide, by decide⟩
set_option maxRecDepth 20000 in
/-- A read of sequence 2 where the chain holds 0 and 1: a retrieval in LOCAL, a sender, and a repair with a read left, with
sequence 0 listed, with another, with none, and in a scan whose every other block was sound. -/
theorem witness_NotPresent :
    let s (body : JobBody) (rest : List JobReq) (damaged : List Nat) : State :=
      { holding { held with jobRefs := 1, damaged := damaged, damagedCount := damaged.length } with
        jt.jobs := [(0, { opened body with entry := some 0, reqs := .read 2 :: rest })] }
    let t (body : JobBody) (rest : List JobReq) (damaged : List Nat) := issue (.job 0 (.read 2)) (s body rest damaged)
    let play : JobBody := .play { playing [⟨1, true, false, []⟩, ⟨2, false, false, []⟩] with state := .localStore }
    let repair (scan : Bool) (next : Nat) : JobBody :=
      .repair { repairing .verifying with scan := scan, scanNext := next, scanEnd := 3 }
    let repairState (x : State) := ((x.jobAt 0).bind Job.repairOf).map (·.state)
    (s play [] []).Sound ∧ (s play [] []).locate held 2 = none ∧ (s play [] []).locate held 1 = some (1, 1)
      ∧ (((t play [] []).jobAt 0).bind Job.playOf).map (fun p => (p.slots.length, p.pendingResult)) = some (1, some .mediaFault)
      ∧ (t (.serve ⟨.play, 0, 0, 0, 0⟩) [] []).cpe.events = [.doneJob 5 .serve .mediaFault (some take37) 0 0 0]
      ∧ (t (.serve ⟨.play, 0, 0, 0, 0⟩) [] []).lif.queue.map (·.frame.payload) = [.abandon .mediaFault]
      ∧ (t (.replicate { offering with state := .sending }) [] []).jt.jobs = []
      ∧ ((t (repair true 2) [] [2]).jobAt 0).map (·.reqs) = some [.read 2]
      ∧ repairState (t (repair false 0) [] [0, 2]) = some .head ∧ repairState (t (repair false 0) [] [1, 2]) = some .seeking
      ∧ (t (repair false 0) [] [2]).cpe.events = [.doneJob 5 .repair .ok (some take37) 9 0 0]
      ∧ (t (repair true 3) [] [2]).jt.jobs = [] :=
  ⟨sound_of_check (by decide), by and_intros <;> decide +kernel⟩
set_option maxRecDepth 20000 in
/-- A write that SOFT_RESET waits for faults where the list holds 15 and 16 gaps. -/
theorem witness_SoftFault :
    let s (n : Nat) : State :=
      { writing .sound { running with state := .draining, ending := some .softReset, gaps := gapsOf n } 1 with
        cpe.port := .busy, cpe.current := some .softReset }
    let t (n : Nat) := after (exec (.mediaWriteComplete false) (s n))
    (s 15).Sound ∧ (s 15).chain { held with state := .capturing } = [1]
      ∧ (∃ g, insertGap ⟨0, 120⟩ (gapsOf 15) = some g) ∧ insertGap ⟨0, 120⟩ (gapsOf 16) = none
      ∧ (t 15).cpe.events = [.captureGap take37 0 120 .writeFault] ∧ (t 16).cpe.events = []
      ∧ ((t 16).entryAt 0).map (·.state) = some .incomplete :=
  ⟨sound_of_check (by decide), by decide, ⟨_, rfl⟩, by decide, by decide +kernel, by decide +kernel, by decide +kernel⟩

/-! ## Witnesses: the medium and the hold-off -/

/-- A frame of exchange 5 for take 3-7 from node `src`. -/
def frame37 (src dst : Nat) (dir : Direction) (payload : Payload) : Frame :=
  { src := src, dst := dst, dir := dir, tag := 5, take := take37, payload := payload }
theorem witness_Carrier : up.lif.carrier = false ∧ up.lif.listening = true ∧ up.lif.sending = none
    ∧ (let s := after (exec .carrierAppears up)
       s.lif.carrier = true ∧ s.lif.rxOpen = true ∧ s.lif.medium = .busy
        ∧ (after (exec (.carrierEnds (frame37 9 63 .out (.grant 4)).bytes) s)).lif.lastSource = 9
        ∧ (after (exec (.carrierEnds (frame37 31 63 .out (.grant 4)).bytes) s)).lif.heard = some .duplicate)
    ∧ classify [] = .bad ∧ classify (frame37 9 63 .out (.assign [32])).bytes = .malformed
    ∧ classify (frame37 9 63 .out (.grant 255)).bytes = .good (frame37 9 63 .out (.grant 255)) := by decide +kernel
/-- A HAVE waiting with `slots` slots in phase `phase`. -/
def haveRec (slots offset : Nat) (phase : HoldPhase) (collisions : Nat) : HoldRec :=
  { frame := frame37 31 9 .back (.haveTake false .copy 0 2 0), owner := none, opener := 9, base := slots, collisions := collisions,
    slots := slots, offset := offset, phase := phase, progress := 0, order := 0, bids := none, expiry := some 250, doomed := false }
/-- Slots 0 and 1; offsets 0 and 31: 4 bit times of 4 units each for a sub-slot at 2 Mbit/s. -/
theorem witness_HoldOff : up.sul.cfg.inRange ∧ up.lif.lastSource ≤ 31
    ∧ (after (exec .idleGapElapsed { up with lif.medium := .settling, hou.answers := [haveRec 0 0 .slot 0] })).hou.answers
        = [{ haveRec 0 31 .slot 0 with phase := .offset }]
    ∧ (after (exec (.slotPhaseEnd (.answer 0)) { up with hou.answers := [haveRec 1 0 .slot 0] })).clock = 512
    ∧ (after (exec (.holdoffRelease (.answer 0)) { up with hou.answers := [haveRec 0 31 .offset 0] })).clock = 496
    ∧ (∃ t, exec (.holdoffRelease .plain) { up with hou.plain := some (haveRec 0 0 .offset 0), lif.queue := [⟨frame37 31 63 .out (.grant 9), none⟩] }
        = .next t) :=
  ⟨by unfold Settings.inRange; decide, by decide, by decide, by decide, by decide, _, rfl⟩
/-- The node sending the front of its queue, a GRANT of job record `owner`. -/
def sendingFrame (owner : Option Nat) (payload : Payload) (s : State) : State :=
  { s with lif.queue := [⟨frame37 31 63 .out payload, owner⟩], lif.sending := some ⟨frame37 31 63 .out payload, .front⟩,
           lif.medium := .busy }
theorem witness_Sent :
    (∃ x y rest, (sendingFrame none (.grant 9) up).lif.sending = some x ∧ x.source = .front
      ∧ (sendingFrame none (.grant 9) up).lif.queue = y :: rest ∧ y.owner = none)
    ∧ (∃ x y job p, (sendingFrame (some 0) (.seek 0 0 .play 0 0 []) (working (jobWith (.play seeking)))).lif.sending = some x
      ∧ (sendingFrame (some 0) (.seek 0 0 .play 0 0 []) (working (jobWith (.play seeking)))).lif.queue = [y] ∧ y.owner = some 0
      ∧ x.frame.payload.kindCode = 1 ∧ (working (jobWith (.play seeking))).jobAt 0 = some job ∧ job.body = .play p ∧ p.state = .seeking)
    ∧ (let s := sendingFrame (some 0) (.done 2 0) (working (jobWith (.serve ⟨.play, 0, 0, 0, 0⟩)))
       s.Sound ∧ (after (exec .frameSent s)).jt.jobs = [])
    ∧ (let s := { up with hou.answers := [haveRec 0 0 .offset 0], lif.sending := some ⟨frame37 31 9 .back (.bid 0), .answer 0⟩ }
       (after (exec .frameSent s)).hou.answers = [] ∧ (after (exec .frameSent s)).lif.lastSource = 31)
    ∧ (let s := { sendingFrame none (.grant 9) up with lif.gap := true, lif.sending := none, lif.burst := 3 }
       (after (exec .burstGapEnd s)).lif.burst = 4 ∧ (after (exec .burstGapEnd { s with lif.burst := 4 })).lif.burst = 0) :=
  ⟨⟨_, _, _, rfl, rfl, rfl, rfl⟩, ⟨_, _, _, _, rfl, rfl, rfl, rfl, rfl, rfl, rfl⟩, ⟨sound_of_check (by decide), by decide⟩, by decide,
    by decide⟩
/-- The seventh and the eighth collision; draws of 23, 11 and 5 give 105 and 98 slots on base 82 (05, 5.8). -/
theorem witness_Collision :
    (let s := { up with lif.lfsr := lfsrSeed 9, hou.answers := [haveRec 82 0 .offset 0],
                        lif.sending := some ⟨frame37 31 9 .back (.bid 0), .answer 0⟩ }
     (after (exec .collision s)).hou.answers.map (·.slots) = [105]
      ∧ (after (exec .collision { s with lif.lfsr := 0xA417, hou.answers := [haveRec 82 0 .offset 1] })).hou.answers.map (·.slots) = [98]
      ∧ (after (exec .collision { s with hou.answers := [haveRec 82 0 .offset 6] })).hou.answers.map (·.collisions) = [7]
      ∧ (after (exec .collision { s with hou.answers := [haveRec 82 0 .offset 7] })).hou.answers = [])
    ∧ (let s := { sendingFrame none (.grant 9) up with hou.plain := some (haveRec 0 0 .released 7) }
       (after (exec .collision s)).lif.queue = []) := by decide
theorem witness_Rejected : (let s := { up with lif.heard := some .bad, lif.errors := 65535 }
     (after (exec .badFrame s)).lif.errors = 65535)
    ∧ { up with lif.heard := some .malformed : State }.lif.heard = some .malformed
    ∧ (let s := { working (jobWith (.play seeking)) with lif.heard := some .duplicate }
       s.Sound ∧ s.muted = false ∧ (after (exec .duplicateAddress s)).muted = true) :=
  ⟨by decide, rfl, sound_of_check (by decide), by decide, by decide⟩

/-! ## Witnesses: link frames -/

/-- The last offset of the take's timeline; its last stored block, and one past it, which draws no HAVE. -/
theorem witness_Seek :
    (let f := frame37 9 63 .out (.seek 119 0 .play 0 0 [])
     let s := hearing f (holding held)
     s.playableEntry f.take = some (0, held) ∧ s.linkStanding = true ∧ s.own ∉ ([] : List Nat) ∧ s.countKind .serve < 3
      ∧ s.jt.jobs.length < 8 ∧ s.notes.length < 6 ∧ 119 < held.timelineLength ∧ s.hou.answers = []
      ∧ (after (exec .seekReceived s)).hou.answers.length = 1)
    ∧ (let f (n : Nat) := frame37 9 63 .out (.seek 0 0 .repair 1 n [])
       (after (exec .seekReceived (hearing (f 1) (holding held)))).hou.answers.length = 1
        ∧ (after (exec .seekReceived (hearing (f 2) (holding held)))).hou.answers = [])
    ∧ up.findTake take37 = none := by decide +kernel
/-- A node with an answer note of exchange 5 from node 9. -/
def noted (s : State) : State :=
  { s with notes := [{ requester := 9, tag := 5, take := take37, purpose := .play, start := 0, frames := 0, first := 0, count := 0,
                       lapse := 1000 }] }
theorem witness_Grant :
    (hearing (frame37 9 63 .out (.grant 31)) (noted (holding held))).Sound
    ∧ (∃ n, (hearing (frame37 9 63 .out (.grant 31)) (noted (holding held))).noteFor (frame37 9 63 .out (.grant 31)) = some n)
    ∧ (noted (holding held)).own = 31 ∧ (noted (holding held)).playableEntry take37 = some (0, held)
    ∧ (noted (holding held)).linkStanding = true
    ∧ (after (exec .grantReceived (hearing (frame37 9 63 .out (.grant 31)) (noted (holding held))))).jt.jobs.length = 1
    ∧ (after (exec .grantReceived (hearing (frame37 9 63 .out (.grant 30)) (noted (holding held))))).notes = [] :=
  ⟨sound_of_check (by decide), ⟨_, rfl⟩, rfl, rfl, rfl, by decide, by decide⟩
theorem witness_Have :
    (let f := frame37 9 31 .back (.haveTake false .origin 0 2 0)
     let s := hearing f (working (opened (.play seeking)))
     s.Sound ∧ s.jobFor f = some (0, opened (.play seeking)) ∧ seeking.state = .seeking ∧ seeking.exclusion ≠ some f.src
      ∧ s.linkStanding = true ∧ s.lif.queue.length < 16) ∧ (holding held).findTake take37 = some (0, held) :=
  ⟨⟨sound_of_check (by decide), rfl, rfl, by decide, rfl, by decide⟩, rfl⟩
/-- The bidder's margin of 8 chunks: 9 free for one chunk, and 8 free, which draws no BID. -/
theorem witness_Place :
    (let f := frame37 9 63 .out (.place 4096 format16 2 1 [9])
     let s (free : Nat) := hearing f { up with med.total := 20, med.free := free }
     (s 9).Sound ∧ (s 9).linkStanding = true ∧ (s 9).own ∉ [9] ∧ (s 9).findTake f.take = none
      ∧ (s 9).cat.entries.length + (s 9).cat.reserved < 2048 ∧ (s 9).jt.jobs.length < 8 ∧ (s 9).countKind .receive < 2
      ∧ (∀ k job, (s 9).jobAt k = some job → job.kind = .receive → job.take ≠ some f.take)
      ∧ (s 9).med.pledged + (4096 + 4095) / 4096 + 8 ≤ (s 9).med.free ∧ (s 9).hou.answers = []
      ∧ (after (exec .placeReceived (s 9))).hou.answers.length = 1 ∧ (after (exec .placeReceived (s 8))).hou.answers = [])
    ∧ (31 : Nat) ∈ [9, 31] ∧ (frame37 9 63 .out (.grant 0)).dst ≠ up.own :=
  ⟨⟨sound_of_check (by decide), rfl, by decide, rfl, by decide, by decide, by decide,
    fun k job h => (by cases (noJobs (s := up) rfl k).symm.trans h), by decide, rfl, by decide, by decide⟩, by decide, by decide⟩
/-- The node with the placement `r` of its entry. -/
def placing (r : ReplicateJob) : State :=
  { holding { held with copiesWanted := 3 } with jt.jobs := [(0, { opened (.replicate r) with entry := some 0 })] }
/-- The bid that fills the list, one that does not, and one from a listed bidder. -/
theorem witness_Bid :
    (let f := frame37 17 31 .back (.bid 40)
     (hearing f (placing offering)).Sound
      ∧ (∃ job, (hearing f (placing offering)).jobFor f = some (0, job) ∧ job.body = .replicate offering ∧ job.entry = some 0)
      ∧ (placing offering).hou.answers = [] ∧ (placing offering).entryAt 0 = some { held with copiesWanted := 3 }
      ∧ f.src ∉ offering.exclusion ∧ (∀ b ∈ offering.bids, b.1 ≠ f.src) ∧ offering.wanted ≤ offering.bids.length + 1
      ∧ (held.holders.length < 3) ∧ { offering with bids := [] }.bids.length + 1 < offering.wanted)
    ∧ ∃ b ∈ offering.bids, b.1 = (frame37 9 31 .back (.bid 40)).src :=
  ⟨⟨sound_of_check (by decide), ⟨_, rfl, rfl, rfl⟩, rfl, rfl, by decide, by decide, by decide, by decide, by decide⟩, by decide⟩
theorem witness_Assign :
    (let f := frame37 9 63 .out (.assign [31])
     let s := hearing f { working (answering (.receive pledged)) with med.pledged := 1, cat.reserved := 1 }
     s.Sound ∧ s.jobFor f = some (0, answering (.receive pledged)) ∧ s.hou.answers = [] ∧ (answering (.receive pledged)).entry = none
      ∧ s.own ∈ [31] ∧ 0 < pledged.pledge ∧ s.lowestFree = some 1 ∧ s.own ∉ [30]) :=
  ⟨sound_of_check (by decide), rfl, rfl, rfl, by decide, by decide, by decide, by decide⟩
/-- The receiver side of a copy of two blocks with `n` accepted. -/
def receiver (n : Nat) (gap : Bool) : Receiver :=
  { run := some ⟨false, 0, 2⟩, expected := n, accepted := n, gapReported := gap, stepTimer := some 20, inactivity := some 500,
    check := 0, damaged := [] }
/-- The node receiving that copy. -/
def receiving (v : Receiver) : State :=
  { holding { held with state := .receiving } with
    jt.jobs := [(0, { answering (.receive { pledged with receiving := true, pledge := 0 }) with entry := some 0, rcv := some v })] }
set_option maxRecDepth 20000 in
/-- The expected position, the first above it, and one below it. -/
theorem witness_Data :
    (let b := makeBlock (some take37) 1 0 120 1 0x22 []
     let f := frame37 9 63 .out (.data 1 false b)
     (∃ job, (hearing f (receiving (receiver 1 false))).jobFor f = some (0, job) ∧ job.rcv = some (receiver 1 false) ∧ job.entry = some 0)
      ∧ (receiver 1 false).expected < 2)
    ∧ (let b := makeBlock (some take37) 1 0 120 1 0x22 []
       fieldAt b 16 2 = (crc16 ((b.drop 32).take 480)).toNat)
    ∧ (hearing (frame37 9 63 .out (.data 1 false [])) (receiving (receiver 1 false))).Sound
    ∧ (receiver 0 true).expected < 1 ∧ (receiver 0 true).gapReported = true ∧ (receiver 0 false).gapReported = false
    ∧ 0 < (receiver 1 false).expected :=
  ⟨⟨⟨_, rfl, rfl, rfl⟩, by decide⟩, by decide +kernel, sound_of_check (by decide), by decide, rfl, rfl, by decide⟩
/-- The head block of take 3-7, and one of another take. -/
def headBlock (take : TakeNo) : List Byte := (Entry.headInfo { held with take := take } none).block
set_option maxRecDepth 20000 in
/-- A head block that fits the exchange, one that does not, and a damaged block: the entry stays, or is freed. -/
theorem witness_HeadData :
    (∃ h, headOfPayload (((headBlock take37).drop 32).take 480) = some h ∧ some h.take = some take37 ∧ h.storedBlocks = 2)
    ∧ (let s (damaged : Bool) (b : List Byte) :=
         after (exec .dataReceived (hearing (frame37 9 63 .out (.data 0 damaged b)) (receiving (receiver 0 false))))
       ((s false (headBlock take37)).entryAt 0).map (·.timelineLength) = some 120
        ∧ (s false (headBlock { node := 3, seq := 8 })).entryAt 0 = none ∧ (s true (headBlock take37)).entryAt 0 = none) :=
  ⟨⟨held.headInfo none, by decide +kernel, rfl, rfl⟩, by decide +kernel⟩
/-- A receiver of sequences 0 and 1 with its head block accepted. -/
def halfway : Receiver := { receiver 1 false with run := some ⟨true, 1, 1⟩ }
/-- A PLAY job that takes the last position of its run, damaged; one that waits for more goes on at the inactivity timer. -/
theorem witness_PlayData :
    (let job := { opened (.play { playing [] with holder := some 9 }) with rcv := some halfway }
     let s := hearing (frame37 9 31 .back (.data 1 true [])) (working job)
     s.Sound ∧ s.jobFor (frame37 9 31 .back (.data 1 true [])) = some (0, job) ∧ Run.posOf ⟨true, 1, 1⟩ 1 = some halfway.expected
      ∧ (((after (exec .dataReceived s)).jobAt 0).bind Job.playOf).map (·.state) = some .draining
      ∧ (((after (exec (.inactivityTimeout 0) s)).jobAt 0).bind Job.playOf).map (·.pendingResult) = some (some .stalled)) :=
  ⟨sound_of_check (by decide), rfl, by decide, by decide +kernel, by decide +kernel⟩
set_option maxRecDepth 20000 in
/-- The head block of a PLAY job, from the take's last offset and from one past it; with the blocks of another GRANT; damaged. -/
theorem witness_PlayHead :
    let s (start granted : Nat) (payload : Payload) : State :=
      hearing (frame37 9 31 .back payload)
        { working { opened (.play { seeking with state := .awaitingData, holder := some 9, start := start, cursor := start,
                                                 grantedBlocks := some granted, grantWait := some 600, answerWindow := none })
                    with rcv := some { receiver 0 false with run := none } } with
          port.owner := some 0, port.line := .output }
    let t (start granted : Nat) (payload : Payload) := after (exec .dataReceived (s start granted payload))
    let head : Payload := .data 0 false (headBlock take37)
    let play (x : State) := (x.jobAt 0).bind Job.playOf
    (s 119 2 head).Sound ∧ (s 119 2 head).linkStanding = true
      ∧ headOfPayload (((headBlock take37).drop 32).take 480) = some (held.headInfo none)
      ∧ (play (t 119 2 head)).map (fun p => (p.state, p.firstBlock, p.blockCount, p.endOffset, p.grantWait)) = some (.playing, 1, 1, 120, none)
      ∧ (t 120 2 head).cpe.events = [.doneJob 5 .play .checkFailed (some take37) 9 0 0]
      ∧ (t 119 3 head).port.line = .released
      ∧ (t 119 2 (.data 0 true [])).lif.queue.map (·.frame.payload) = [.abandon .checkFailed] :=
  ⟨sound_of_check (by decide), by and_intros <;> decide +kernel⟩
set_option maxRecDepth 20000 in
/-- The last position of a repair's run: its block is written, or an earlier write is awaited, or the job ends. -/
theorem witness_RepairLast :
    let b := makeBlock (some take37) 2 0 120 1 0x22 []
    let f (damaged : Bool) (b : List Byte) := frame37 9 31 .back (.data 2 damaged b)
    let job (reqs : List JobReq) : Job :=
      { opened (.repair { repairing .awaitingData with count := 2 }) with
        entry := some 0, reqs := reqs, rcv := some { receiver 1 false with run := some ⟨false, 1, 2⟩ } }
    let s (reqs : List JobReq) (f : Frame) : State :=
      hearing f { holding { held with jobRefs := 1, damaged := [2] } with jt.jobs := [(0, job reqs)], act.state := .waking }
    let t (reqs : List JobReq) (f : Frame) := after (exec .dataReceived (s reqs f))
    let finishing (x : State) : Option (Option RepairState × Nat) := (x.jobAt 0).map fun j => (j.repairOf.map (·.state), j.reqs.length)
    (s [] (f true [])).Sound ∧ (s [] (f true [])).jobFor (f true []) = some (0, job []) ∧ Run.posOf ⟨false, 1, 2⟩ 2 = some 1
      ∧ finishing (t [] (f false b)) = some (some .finishing, 1) ∧ finishing (t [.inPlace 1 []] (f true [])) = some (some .finishing, 1)
      ∧ (t [] (f true [])).cpe.events = [.doneJob 5 .repair .ok (some take37) 9 0 1] :=
  ⟨sound_of_check (by decide), rfl, by decide, by decide +kernel, by decide +kernel, by decide +kernel⟩
/-- A member with 1 of the 2 blocks receipted, both sent. -/
def member9 (expected goBacks : Nat) : Member :=
  { address := 9, status := .sending, expected := expected, credit := 8, progress := some 50, goBacks := goBacks, bidFree := 0 }
/-- The node serving the take to node 9. -/
def serving (m : Member) : State :=
  { holding { held with jobRefs := 1 } with
    jt.jobs := [(0, { answering (.serve ⟨.play, 0, 0, 0, 0⟩) with
                      entry := some 0, snd := some { run := ⟨true, 1, 1⟩, next := 2, members := [m], doneGiven := false } })] }
/-- A STEP below, at and above the member's E, and at the end of the run. -/
theorem witness_Step :
    (let f (q : Nat) := frame37 9 31 .out (.step q 8)
     (hearing (f 1) (serving (member9 1 0))).Sound
      ∧ (∃ job t, (hearing (f 1) (serving (member9 1 0))).jobFor (f 1) = some (0, job) ∧ job.snd = some t
          ∧ t.member 9 = some (member9 1 0) ∧ t.run.posOf 0 = some 0 ∧ t.run.posOf 1 = some 1 ∧ t.run.posOf 2 = some 2
          ∧ t.run.total = 2 ∧ t.next = 2)) :=
  ⟨sound_of_check (by decide), _, _, rfl, rfl, by decide, by decide, by decide, by decide, by decide, rfl⟩
/-- A DONE with the total as received, and one with another total. -/
theorem witness_Done :
    (let f := frame37 9 63 .out (.done 2 0)
     (hearing f (receiving (receiver 2 false))).Sound
      ∧ (∃ job, (hearing f (receiving (receiver 2 false))).jobFor f = some (0, job) ∧ job.rcv = some (receiver 2 false)
          ∧ job.reqs = [] ∧ job.entry = some 0)
      ∧ (receiving (receiver 2 false)).entryAt 0 = some { held with state := .receiving }
      ∧ (receiving (receiver 2 false)).findTake f.take = some (0, { held with state := .receiving })
      ∧ (receiving (receiver 2 false)).issuedBy 0 = false
      ∧ ((after (exec .doneReceived (hearing f (receiving (receiver 2 false))))).entryAt 0).map (·.state) = some .held
      ∧ (after (exec .doneReceived (hearing (frame37 9 63 .out (.done 3 0)) (receiving (receiver 2 false))))).entryAt 0 = none) :=
  ⟨sound_of_check (by decide), ⟨_, rfl, rfl, rfl, rfl⟩, rfl, rfl, by decide, by decide, by decide⟩
/-- A source listed and not listed; a list of one where two are wanted. -/
theorem witness_Notice :
    (let e := { held with placement := .satisfied }
     let s (src : Nat) (r : NoticeReason) := hearing (frame37 src 63 .out (.notice r)) (holding e)
     (s 9 .holds).Sound ∧ (s 9 .holds).findKind .replicate = none ∧ (s 9 .holds).findTake take37 = some (0, e)
      ∧ ((after (exec .noticeReceived (s 9 .holds))).entryAt 0).map (·.holders) = some [4, 9]
      ∧ ((after (exec .noticeReceived (s 4 .dropped))).entryAt 0).map (·.placement) = some .queued
      ∧ ((after (exec .noticeReceived (s 9 .dropped))).entryAt 0) = some e)
    ∧ (let f := frame37 9 63 .out (.abandon .stalled)
       (∃ job r, (hearing f (receiving (receiver 1 false))).jobFor f = some (0, job) ∧ job.body = .receive r ∧ r.receiving = true
          ∧ job.entry = some 0)
        ∧ (∃ job v, (hearing f (serving (member9 1 0))).jobFor f = some (0, job) ∧ job.body = .serve v ∧ job.entry = some 0)) :=
  ⟨⟨sound_of_check (by decide), rfl, rfl, by decide, by decide, by decide⟩, ⟨_, _, rfl, rfl, rfl, rfl⟩, _, _, rfl, rfl, rfl⟩

/-- Job record 0 opened `job` on a take of two blocks, with a frame of its exchange from node 9 heard. -/
def from9 (job : Job) (payload : Payload) (e : Entry) : State :=
  hearing (frame37 9 31 .back payload)
    { holding e with jt.jobs := [(0, { job with entry := some 0 })], port.owner := some 0, port.line := .output }
/-- A placement in `state` whose members stand as given, its DONE given or not. -/
def sendingTo (state : ReplicateState) (members : List Member) (done : Bool) : Job :=
  { opened (.replicate { offering with state := state, group := [(9, 40), (17, 2)] }) with
    snd := some { run := ⟨false, 0, 2⟩, next := 2, members := members, doneGiven := done } }
/-- The answers of a copy group: with member 17 AWAITING too, and as the last one with copies enough and one short. -/
theorem witness_GroupAnswers :
    let node (a : Nat) (status : MemberStatus) : Member := { member9 2 0 with address := a, status := status, bidFree := a }
    let e (wanted : Nat) := { held with jobRefs := 1, placement := .inProgress, copiesWanted := wanted }
    let s (payload : Payload) (wanted : Nat) (status : MemberStatus) : State :=
      from9 (sendingTo .closing [node 9 .awaiting, node 17 status] true) payload (e wanted)
    let heard (wanted : Nat) (status : MemberStatus) := after (exec .noticeReceived (s (.notice .holds) wanted status))
    (s (.notice .holds) 2 .awaiting).Sound
      ∧ ((heard 2 .awaiting).jobAt 0).bind (·.snd) = some ⟨⟨false, 0, 2⟩, 2, [node 9 .confirmed, node 17 .awaiting], true⟩
      ∧ ((heard 2 .awaiting).entryAt 0).map (·.holders) = some [4, 9]
      ∧ (heard 2 .confirmed).cpe.events = [.doneJob 5 .replicate .ok (some take37) 2 9 0]
      ∧ ((heard 2 .confirmed).entryAt 0).map (·.placement) = some .satisfied
      ∧ (heard 3 .left).cpe.events = [.copiesShort take37 2 3 1, .doneJob 5 .replicate .ok (some take37) 1 9 0]
      ∧ (heard 3 .left).cat.queue = [(0, 60000)]
      ∧ (after (exec .noticeReceived (s (.notice .dropped) 1 .left))).cpe.events
          = [.doneJob 5 .replicate .ok (some take37) 0 0xFFFFFFFF 0]
      ∧ ((after (exec .abandonReceived (s (.abandon .stalled) 2 .awaiting))).jobAt 0).bind (·.snd)
          = some ⟨⟨false, 0, 2⟩, 2, [node 9 .failed, node 17 .awaiting], true⟩ :=
  ⟨sound_of_check (by decide), by and_intros <;> decide +kernel⟩
/-- ABANDON at a placement: in OFFERING and ASSIGNING, from the last member, from one of two with DONE given and not, and with
the other member one block short. -/
theorem witness_GroupAbandons :
    let node (a expected : Nat) : Member := { member9 expected 0 with address := a }
    let t (job : Job) := after (exec .abandonReceived (from9 job (.abandon .reset) { held with jobRefs := 1 }))
    let r (job : Job) := ((t job).jobAt 0).bind Job.replicateOf
    (from9 (sendingTo .sending [node 9 1, node 17 2] false) (.abandon .reset) held).Sound
      ∧ (r (opened (.replicate offering))).map (·.bids) = some []
      ∧ (r (opened (.replicate { offering with state := .assigning, group := [(9, 40)] }))).map (·.left) = some [9]
      ∧ (t (sendingTo .sending [node 9 1] false)).jt.jobs = []
      ∧ (((t (sendingTo .sending [node 9 1, node 17 2] true)).jobAt 0).bind (·.snd)).map (fun x => x.members.map (·.status))
          = some [.left, .sending]
      ∧ (t (sendingTo .sending [node 9 1, node 17 2] false)).lif.queue.map (·.frame.payload) = [.done 2 0]
      ∧ (r (sendingTo .sending [node 9 1, node 17 2] false)).map (·.state) = some .closing
      ∧ (((t (sendingTo .sending [node 9 1, node 17 1] false)).jobAt 0).bind (·.snd)).map (·.doneGiven) = some false :=
  ⟨sound_of_check (by decide), by and_intros <;> decide +kernel⟩
/-- ABANDON from the granted holder: a PLAY job with its head block, without it before and after its second seek, with a copy
of its own; a repair with a write awaited and without; from another node; a PLEDGED job. -/
theorem witness_Abandons :
    let t (job : Job) (s : State) := after (exec .abandonReceived (hearing (frame37 9 31 .back (.abandon .mediaFault)) { s with
      jt.jobs := [(0, job)] }))
    let play (head again : Bool) (holder : Nat) : Job :=
      { opened (.play { seeking with state := .playing, holder := some holder, reseekUsed := again,
                                     shape := if head then some held.shape else none }) with rcv := some halfway }
    let state (x : State) := (((x.jobAt 0).bind Job.playOf).map (·.state))
    let repair (state : RepairState) (reqs : List JobReq) : Job :=
      { opened (.repair (repairing state)) with entry := some 0, reqs := reqs, rcv := some halfway }
    let damaged : State := { holding { held with jobRefs := 1, damaged := [1] } with act.state := .waking }
    (hearing (frame37 9 31 .back (.abandon .mediaFault)) (working (play true false 9))).Sound ∧ up.playableEntry take37 = none
      ∧ state (t (play true false 9) up) = some .draining ∧ state (t (play false false 9) up) = some .seeking
      ∧ (t (play false true 9) up).cpe.events = [.doneJob 5 .play .stalled (some take37) 9 0 0]
      ∧ state (t (play false true 9) (holding held)) = some .localStore ∧ state (t (play false true 8) up) = some .playing
      ∧ (t (repair .awaitingData []) damaged).cpe.events = [.doneJob 5 .repair .mediaFault (some take37) 9 0 1]
      ∧ (((t (repair .receiving [.inPlace 1 []]) damaged).jobAt 0).bind Job.repairOf).map (·.recorded) = some (some .mediaFault)
      ∧ ((t (repair .receiving []) damaged).entryAt 0).map (·.repairHold) = some (some 60000)
      ∧ (after (exec .abandonReceived (hearing (frame37 9 31 .out (.abandon .mediaFault))
          { working (answering (.receive pledged)) with med.pledged := 1, cat.reserved := 1 }))).med.pledged = 0 :=
  ⟨sound_of_check (by decide), by and_intros <;> decide +kernel⟩

/-! ## Witnesses: reports to the owners of frames -/

/-- The node sending a frame of job record 0. -/
def reporting (job : Job) (payload : Payload) : State :=
  { sendingFrame (some 0) payload { holding { held with jobRefs := 1 } with jt.jobs := [(0, { job with entry := some 0 })] } with
    hou.plain := some (haveRec 0 0 .released 7) }
/-- PLACE, GRANT, BID, and a DONE with a member still SENDING and with none; an ASSIGN for a take of two blocks, whose
first read MED issues at once. -/
theorem witness_SentReports :
    let t (job : Job) (payload : Payload) := (after (exec .frameSent (reporting job payload))).jobAt 0
    let group : ReplicateJob := { offering with group := [(9, 40), (17, 2)], left := [17] }
    let closing (status : MemberStatus) : Job :=
      { opened (.replicate { offering with state := .closing }) with
        snd := some { run := ⟨false, 0, 2⟩, next := 2, members := [{ member9 2 0 with status := status }], doneGiven := true } }
    ((t (opened (.replicate { offering with timer := none })) (.place 2 format16 2 1 [])).bind Job.replicateOf).map (·.timer) = some (some 250)
      ∧ ((t (opened (.repair (repairing .seeking))) (.seek 0 0 .repair 1 1 [])).bind Job.repairOf).map (·.answerWindow) = some (some 250)
      ∧ ((t (opened (.play { seeking with state := .awaitingData })) (.grant 9)).bind Job.playOf).map (·.grantWait) = some (some 500)
      ∧ ((t (opened (.repair (repairing .awaitingData))) (.grant 9)).bind (·.rcv)).map (·.run) = some (some ⟨false, 1, 1⟩)
      ∧ ((t (closing .sending) (.done 2 0)).bind (·.snd)).map (fun x => x.members.map (·.status)) = some [.awaiting]
      ∧ t (closing .left) (.done 2 0) = none
      ∧ ((t (opened (.replicate group)) (.assign [9, 17])).map (·.reqs)) = some [.read 1]
      ∧ (let s := { working (answering (.receive { pledged with bid := .pending })) with
                    hou.answers := [{ haveRec 0 0 .offset 7 with owner := some 0 }],
                    lif.sending := some ⟨frame37 31 9 .back (.bid 0), .answer 0⟩ }
         (((after (exec .frameSent s)).jobAt 0).bind Job.receiveOf).map (·.bid) = some .sent
          ∧ soundCheck s = true ∧ (after (exec .collision s)).jt.jobs = []) :=
  by and_intros <;> decide +kernel
/-- The eighth collision of a DATA frame of a SERVE job, of a STEP of a retrieval before its head block and past it, and of a STEP
of a repair with a write left and with none. -/
theorem witness_EighthCollision :
    let t (job : Job) (payload : Payload) := (after (exec .collision (reporting job payload))).jobAt 0
    let write : Job := { opened (.repair (repairing .receiving)) with reqs := [.inPlace 1 []] }
    (reporting (answering (.serve ⟨.play, 0, 0, 0, 0⟩)) (.data 1 false [])).Sound
      ∧ t (answering (.serve ⟨.play, 0, 0, 0, 0⟩)) (.data 1 false []) = none
      ∧ t (opened (.play { playing [] with shape := none })) (.step 0 8) = none
      ∧ ((t (opened (.play (playing []))) (.step 1 8)).bind Job.playOf).map (·.pendingResult) = some (some .linkCongested)
      ∧ (reporting write (.step 1 8)).outstanding 0 write = 1
      ∧ (after (exec .collision { reporting write (.step 1 8) with act.state := .waking })).jt.jobs.length = 1
      ∧ t (opened (.repair (repairing .receiving))) (.step 1 8) = none :=
  ⟨sound_of_check (by decide), by and_intros <;> decide +kernel⟩

/-! ## Witnesses: node ticks and timers -/

/-- The front of the placement queue one tick after its not-before time and at it, and with holders enough. -/
theorem witness_NodeTicks :
    (let s (wanted notBefore : Nat) : State :=
       { holding { held with copiesWanted := wanted, placement := .queued } with cat.queue := [(0, notBefore)], clock := 8000 }
     (s 2 0).Sound ∧ (s 2 0).complete = true ∧ (s 2 0).now = 1 ∧ (s 2 0).headItemAt 0 = false ∧ (s 2 0).muted = false
      ∧ (∀ k job, (s 2 0).jobAt k = some job → job.kind ≠ .replicate)
      ∧ (after (exec .placementStart (s 2 0))).jt.jobs.length = 1 ∧ (after (exec .placementStart (s 2 1))).jt.jobs = []
      ∧ (after (exec .placementStart (s 1 1))).cat.queue = [])
    ∧ (let s (hold : Option Nat) : State := { holding { held with damaged := [1], repairHold := hold } with sul.cfg.autoRepair := true, clock := 8000 }
       (s none).linkStanding = true ∧ (∀ k job, (s none).jobAt k = some job → job.kind ≠ .repair)
        ∧ (after (exec .automaticRepairStart (s (some 0)))).jt.jobs.length = 1
        ∧ (after (exec .automaticRepairStart (s (some 1)))).jt.jobs = [])
    ∧ (∃ job, { working { jobWith (.play seeking) with outbox := [frame37 31 63 .out (.grant 9)] } with lif.queue := [] : State }.jobAt 0
        = some job) :=
  ⟨⟨sound_of_check (by decide), rfl, rfl, rfl, rfl,
    fun k job h => by simp [noJobs (s := { holding _ with cat.queue := _, clock := _ }) rfl] at h, by decide, by decide, by decide⟩,
   ⟨rfl, fun k job h => by simp [noJobs (s := { holding _ with sul.cfg.autoRepair := true, clock := _ }) rfl] at h, by decide,
    by decide⟩, _, rfl⟩
theorem witness_PlacementTimers :
    (placing offering).Sound ∧ (∃ job, (placing offering).findKind .replicate = some (0, job) ∧ job.body = .replicate offering
      ∧ job.entry = some 0) ∧ offering.timer = some 250 ∧ held.holders.length < 3 ∧ offering.bids ≠ []
    ∧ (after (exec .bidWindowClose (placing { offering with bids := [] }))).jt.jobs = []
    ∧ (after (exec (.pledgedTimeout 0) { working (answering (.receive pledged)) with med.pledged := 1, cat.reserved := 1 })).med.pledged = 0
    ∧ (after (exec .closeWaitTimeout (placing { offering with state := .closing }))).jt.jobs = [] :=
  ⟨sound_of_check (by decide), ⟨_, rfl, rfl, rfl⟩, rfl, by decide, by decide, by decide, by decide, by decide⟩
/-- The fourth go-back, and the expiry after it. -/
theorem witness_TransferTimers :
    (serving (member9 1 3)).Sound
    ∧ (∃ job x, (serving (member9 1 3)).jobAt 0 = some job ∧ job.snd = some x ∧ x.member 9 = some (member9 1 3))
    ∧ (after (exec (.progressTimeout 0 9) (serving (member9 1 3)))).jt.jobs.length = 1
    ∧ (after (exec (.progressTimeout 0 9) (serving (member9 1 4)))).jt.jobs = []
    ∧ (∃ job, (receiving (receiver 1 false)).jobAt 0 = some job ∧ job.rcv = some (receiver 1 false)) ∧ (receiver 1 false).owed = true
    ∧ (after (exec (.inactivityTimeout 0) (receiving (receiver 1 false)))).entryAt 0 = none :=
  ⟨sound_of_check (by decide), ⟨_, _, rfl, rfl, by decide⟩, by decide, by decide, ⟨_, rfl, rfl⟩, by decide, by decide⟩
/-- The fifth expiry drops one member of a copy group; the other goes on. -/
theorem witness_Drop :
    let r := { offering with state := .sending, bids := [] }
    let s : State :=
      { placing r with jt.jobs := [(0, { opened (.replicate r) with
          entry := some 0, snd := some { run := ⟨false, 0, 2⟩, next := 2, doneGiven := false,
                                         members := [member9 1 4, { member9 0 0 with address := 17 }] } })] }
    s.Sound ∧ (∃ job x n, s.jobAt 0 = some job ∧ job.snd = some x ∧ x.member 9 = some (member9 1 4) ∧ n ∈ x.members
      ∧ n.address ≠ 9 ∧ n.status = .sending ∧ n.expected ≠ x.run.total ∧ x.doneGiven = false ∧ job.outbox = [])
    ∧ (after (exec (.progressTimeout 0 9) s)).lif.queue.map (·.frame.payload) = [.abandon .stalled] :=
  ⟨sound_of_check (by decide), ⟨_, _, { member9 0 0 with address := 17 }, rfl, rfl, rfl, by decide, by decide, rfl, by decide, rfl, rfl⟩,
    by decide +kernel⟩
set_option maxRecDepth 20000 in
/-- A repair that receives the first of its two blocks, listed and not listed; one whose write waits when the timer expires. -/
theorem witness_RepairData :
    let job : Job := { opened (.repair { repairing .receiving with count := 2 }) with
                       entry := some 0, rcv := some { receiver 0 false with run := some ⟨false, 1, 2⟩ } }
    let b := makeBlock (some take37) 1 0 120 1 0x22 []
    let s (damaged : List Nat) : State :=
      hearing (frame37 9 31 .back (.data 1 false b))
        { holding { held with jobRefs := 1, damaged := damaged } with jt.jobs := [(0, job)], act.state := .waking }
    let w : State := { holding held with jt.jobs := [(0, { job with reqs := [.inPlace 1 b] })], act.state := .waking }
    (s []).Sound ∧ (s []).jobFor (frame37 9 31 .back (.data 1 false b)) = some (0, job) ∧ Run.posOf ⟨false, 1, 2⟩ 1 = some 0
      ∧ ((after (exec .dataReceived (s [1]))).jobAt 0).map (·.reqs) = some [.inPlace 1 b]
      ∧ ((after (exec .dataReceived (s []))).jobAt 0).map (·.reqs) = some []
      ∧ w.Sound ∧ w.outstanding 0 { job with reqs := [.inPlace 1 b] } = 1
      ∧ (((after (exec (.inactivityTimeout 0) w)).jobAt 0).bind Job.repairOf).map (·.recorded) = some (some .stalled) :=
  ⟨sound_of_check (by decide), rfl, by decide, by decide +kernel, by decide +kernel, sound_of_check (by decide), by decide,
    by decide +kernel⟩
theorem witness_SeekTimers :
    (working (opened (.play seeking))).Sound ∧ (working (opened (.play seeking))).playableEntry take37 = none
    ∧ (after (exec (.answerWindowExpiry 0) (working (opened (.play seeking))))).clock = 2000000
    ∧ (let s := { holding held with jt.jobs := [(0, opened (.play seeking))] }
       s.playableEntry take37 = some (0, held) ∧ (after (exec (.answerWindowExpiry 0) s)).jt.jobs.length = 1)
    ∧ (let s := { holding { held with jobRefs := 1, damaged := [1] } with
                  jt.jobs := [(0, { opened (.repair (repairing .seeking)) with entry := some 0 })] }
       (after (exec (.answerWindowExpiry 0) s)).jt.jobs = [])
    ∧ (let s := { holding { held with jobRefs := 1, damaged := [1] } with
                  jt.jobs := [(0, { opened (.repair (repairing .awaitingData)) with entry := some 0 })] }
       (after (exec (.grantWaitExpiry 0) s)).jt.jobs = [])
    ∧ (let s := working (opened (.play { seeking with state := .awaitingData, grantWait := some 250, holder := some 9 }))
       s.linkStanding = true ∧ (after (exec (.grantWaitExpiry 0) s)).jt.jobs.length = 1) :=
  ⟨sound_of_check (by decide), rfl, by decide, by decide, by decide, by decide, by decide⟩
/-- STATUS of a placement and of a repair: states, tags and take numbers (12.3's places 10 and 26). -/
theorem witness_StatusJobs :
    let s : State := { up with jt.jobs := [(0, jobWith (.replicate offering)), (1, jobWith (.repair (repairing .finishing)))] }
    (∃ job, s.findKind .replicate = some (0, job) ∧ job.body = .replicate offering)
    ∧ (∃ job, s.findKind .repair = some (1, job) ∧ job.body = .repair (repairing .finishing))
    ∧ ((answerOf (exec (.status []) s)).map fun a => (a.2.2.2.drop 10).take 6) = some [1, 5, 0x18, 0, 0, 7]
    ∧ ((answerOf (exec (.status []) s)).map fun a => (a.2.2.2.drop 26).take 6) = some [6, 5, 0x18, 0, 0, 7] :=
  ⟨⟨_, rfl, rfl⟩, ⟨_, rfl, rfl⟩, by decide +kernel, by decide +kernel⟩
/-- The activity timer with media work pending and without, in ACTIVE and in DOZE; delays 0 and 1. -/
theorem witness_Activity :
    (let s := { up with act.timer := .running (some 7) }
     (after (exec .activityTimerExpiry s)).act.state = .doze ∧ s.mediaWork = false
      ∧ (let w := { s with cat.wt := [.counter] }
         w.mediaWork = true ∧ (after (exec .activityTimerExpiry w)).act.dozeDue = true)
      ∧ (after (exec .activityTimerExpiry { s with act.state := .doze })).act.state = .sleep)
    ∧ (reload up).act.timer = .running none ∧ (reload { up with sul.cfg.dozeDelay := 1 }).act.timer = .running (some 1)
    ∧ (after (exec (.haveExpiry 0) { up with hou.answers := [haveRec 0 0 .slot 0] })).hou.answers = []
    ∧ (after (exec (.answerNoteLapse 0) (noted up))).notes = []
    ∧ (after (exec .wakeTimerExpiry { up with act.state := .waking, act.wakeAt := some 20 })).clock = 160000 := by decide
theorem witness_BidCurve : defaultSettings.knots.length = 9 ∧ (∀ k ∈ defaultSettings.knots, k ≤ 255) ∧ 256 ≤ 256 := by decide
theorem witness_HolderList : [9, 3, 17, 5].Nodup ∧ [9, 3, 17, 5].length ≤ 4 ∧ addOwnAddress 31 [9, 3, 17, 5] = [9, 3, 17, 31]
    ∧ (holding held).entryAt 0 = some held := by decide
theorem witness_FrameInRange : (frame37 9 63 .out (.step 2 8)).inRange := by
  exact ⟨by decide, by decide, by decide, by decide, by decide, by decide⟩

/-! ## Witnesses: records, items that fault, and the frames that go out -/

/-- R193's places: take 9.1042 = 48000412H (R191), the end cause, gaps, holders and the damaged list of a record. -/
theorem test_record_places :
    let e := { held with take := ⟨9, 1042⟩, endCause := some .reset, damaged := [1, 300], damagedCount := 9, overflow := true,
                         gaps := [⟨3, 4⟩, ⟨300, 70000⟩], placement := .satisfied, firstChunk := 0x1234 }
    let d := ((answerOf (exec (.entryRead [0, 0, 0, 0, 0]) (holding e))).map (·.2.2.2)).getD []
    d.take 8 = [2, 1, 0x48, 0, 0x04, 0x12, 0x22, 5] ∧ (d.drop 18).take 12 = [0x32, 0, 9, 0x82, 0, 0, 0, 1, 0, 0, 1, 44]
      ∧ (d.drop 54).take 5 = [4, 0xFF, 0xFF, 0xFF, 2] ∧ fieldAt d 71 4 = 70000 ∧ fieldAt d 187 2 = 0x1234 := by decide +kernel
/-- The first value past each of R193's lists, and the last in it; a gap longer than the take, and one that touches the next. -/
theorem witness_Record_codes :
    let p (place value : Nat) := (recordOf (some held)).set place (BitVec.ofNat 8 value)
    let gaps (a b : Nat) := entryOfRecord { held with gaps := [⟨3, 4⟩, ⟨a, b⟩] }.record
    let live (l : Loaded) : Bool := l matches .live _
    [p 0 5, p 1 2, p 6 0x50, p 7 6, p 21 9, p 58 17].map entryOfRecord = List.replicate 6 .invalid
      ∧ ([p 0 4, p 1 1, p 6 0x40, p 7 5, p 21 8].all fun l => live (entryOfRecord l)) = true ∧ entryOfRecord (p 0 0) = .empty
      ∧ gaps 7 1 = .invalid ∧ live (gaps 8 116) = true ∧ gaps 8 117 = .invalid ∧ gaps 8 0 = .invalid := by decide +kernel
set_option maxRecDepth 20000 in
/-- The first, the last record's and the first map's block of a preparation; its last write, done and given up. -/
theorem witness_Prepare :
    let s (offset faults : Nat) (who : Option Issued) : State :=
      { loading (.prepare offset faults) 8 true with med.chunks := [(0, reservedChunk)], med.issued := who }
    let block (offset : Nat) := (settle (s offset 0 none)).med.issued.map fun op => (op.addr, op.data.drop 14 |>.head?, (op.data.drop 32).take 12)
    let last (ok : Bool) (faults : Nat) := after (exec (.mediaWriteComplete ok) (s 2049 faults (loading (.prepare 2049 0) 8 true).med.issued))
    (s 0 0 none).portState = .idle ∧ 2049 + 1 = 2049 + (8 + 79) / 80 ∧ 2049 < 2049 + (8 + 79) / 80
      ∧ block 0 = some (0, some 3, [0xA5, 0x5A, 0xC3, 0x3C, 0, 0, 0, 0, 0, 0, 0, 0])
      ∧ block 2048 = some (2048, some 4, List.replicate 12 0)
      ∧ block 2049 = some (2049, some 5, [0xFF, 0xFE, 0xFF, 0xFF, 0x10, 0, 0xFF, 0xFF, 0xFF, 0xFF, 0, 0])
      ∧ (last true 0).sul.phase = .complete ∧ (last true 0).med.free = 7 ∧ (last true 0).cat.fault = false
      ∧ (last false 2).sul.phase = .complete ∧ (last false 2).cpe.events = [.startupDone 0 0 0 false true]
      ∧ (last false 1).sul.phase = .prepare 2049 2 := by decide +kernel
/-- The node that captures take 3-7, a START waiting for its counter write, with an item issued. -/
def starting (who : Requester) (current : Option Current) : State :=
  { capturing { running with closed := [] } with
    cpe.port := if current.isSome then .busy else .ready, cpe.current := current,
    med.issued := some ⟨who, true, 5, [], none, 5, 0, true⟩ }
/-- The second fault and the third, of an entry, a map item and the counter that a START waits for, and of one whose capture is gone. -/
theorem witness_ItemFaults :
    let start := some (Current.start 5 take37)
    let t (n : Nat) (who : Nat → Requester) (c : Option Current) := after (exec (.mediaWriteComplete false) (starting (who n) c))
    (starting (.wt .counter 2) start).Sound ∧ (starting (.wt .counter 1) none).captureRequest = none
      ∧ (starting (.wt .counter 2) start).captureJob.isSome = true
      ∧ (t 1 (.wt (.entry 0)) none).med.issued.map (·.who) = some (.wt (.entry 0) 2) ∧ (t 1 (.wt (.entry 0)) none).cat.fault = false
      ∧ (t 1 (.map 0) none).med.issued.map (·.who) = some (.map 0 2)
      ∧ (t 2 (.map 0) none).cat.fault = true ∧ (t 2 (.map 0) none).med.issued = none
      ∧ (let u := t 2 (.wt .counter) start
         u.jt.jobs = [] ∧ u.entryAt 0 = none ∧ u.cpe.response.map (·.result) = some .mediaFault
          ∧ u.cpe.events = [.doneJob 5 .capture .cancelled (some take37) 0 0 0])
      ∧ (let u := after (exec .mediaWriteTimeout { starting (.map 0 2) start with jt.jobs := [] })
         u.cpe.response.map (·.result) = some .mediaFault ∧ u.cat.fault = true) :=
  ⟨sound_of_check (by decide), by and_intros <;> decide +kernel⟩
/-- The destinations, directions, payloads and owners of the frames in the queue. -/
def queued (u : State) : List (Nat × Direction × Payload × Option Nat) :=
  u.lif.queue.map fun q => (q.frame.dst, q.frame.dir, q.frame.payload, q.owner)
/-- A copy's NOTICE HOLDS; CANCEL's ABANDON of each kind, and none before a GRANT is sent or in LOCAL. -/
theorem witness_Partings :
    let s := receiving (receiver 2 false)
    let cancelled (job : Job) := queued (after (exec (.cancel [5]) (working job)))
    let play (state : PlayState) (sent : Bool) := opened (.play { seeking with state := state, holder := some 9, grantSent := sent })
    s.linkStanding = true ∧ s.lif.queue.length < 16
      ∧ queued (after (exec .doneReceived (hearing (frame37 9 63 .out (.done 2 0)) s))) = [(63, .out, .notice .holds, none)]
      ∧ cancelled (opened (.replicate offering)) = [(63, .out, .abandon .cancelled, none)]
      ∧ cancelled (answering (.receive pledged)) = [(9, .back, .abandon .cancelled, none)]
      ∧ cancelled (answering (.serve ⟨.play, 0, 0, 0, 0⟩)) = [(9, .back, .abandon .cancelled, none)]
      ∧ cancelled (play .awaitingData true) = [(9, .out, .abandon .cancelled, none)] ∧ cancelled (play .awaitingData false) = []
      ∧ cancelled (play .playing true) = [(9, .out, .abandon .cancelled, none)] ∧ cancelled (play .localStore true) = []
      ∧ cancelled (opened (.repair (repairing .receiving))) = [(9, .out, .abandon .cancelled, none)]
      ∧ cancelled (opened (.repair { repairing .seeking with grantSent := false })) = [] :=
  ⟨rfl, by and_intros <;> decide +kernel⟩
/-- SOFT_RESET's ABANDON of each kind, in record order: a repair's from the HAVE on, GRANT sent or not, and none before it; none in
LINK_MUTE. -/
theorem witness_ResetPartings :
    let play (state : PlayState) (sent : Bool) := opened (.play { seeking with state := state, holder := some 8, grantSent := sent })
    let repair (holder : Option Nat) (sent : Bool) :=
      opened (.repair { repairing .awaitingData with holder := holder, grantSent := sent })
    let s : State := { up with
      jt.jobs := [(0, repair (some 9) false), (1, opened (.replicate offering)), (2, repair none false), (3, play .playing true),
                  (4, play .awaitingData false), (5, answering (.serve ⟨.play, 0, 0, 0, 0⟩)), (6, repair (some 7) true)],
      lif.queue := [{ frame := frame37 31 63 .out (.grant 9), owner := some 0 }] }
    s.Sound ∧ s.linkStanding = true
      ∧ queued (after (exec (.softReset []) s)) =
          [(9, .out, .abandon .reset, none), (63, .out, .abandon .reset, none), (8, .out, .abandon .reset, none),
           (9, .back, .abandon .reset, none), (7, .out, .abandon .reset, none)]
      ∧ queued (after (exec (.softReset []) { s with lif.mute := some .duplicateAddress })) = [] :=
  ⟨sound_of_check (by decide), by and_intros <;> decide +kernel⟩
/-- A repair in SEEKING and a HAVE with its entry's stored blocks and check value, with one block more, and with another check. -/
theorem witness_RepairHave :
    let job := { opened (.repair (repairing .seeking)) with entry := some 0 }
    let f (stored : Nat) (check : Check) := frame37 9 31 .back (.haveTake false .copy 0 stored check)
    let s (stored : Nat) (check : Check) := hearing (f stored check) { holding held with jt.jobs := [(0, job)] }
    let u (stored : Nat) (check : Check) :=
      (((after (exec .haveReceived (s stored check))).jobAt 0).bind Job.repairOf).map fun r => (r.state, r.holder)
    (s 2 0).Sound ∧ (s 2 0).jobFor (f 2 0) = some (0, job) ∧ (s 2 0).entryAt 0 = some held ∧ held.storedBlocks = 2 ∧ held.check = 0
      ∧ u 2 0 = some (.awaitingData, some 9) ∧ u 3 0 = some (.seeking, some 9) ∧ u 2 1 = some (.seeking, some 9) :=
  ⟨sound_of_check (by decide), rfl, rfl, rfl, rfl, by decide, by decide, by decide⟩
/-- 120 frames a block and a gap at 100 of 50: the stretch's ends on both sides of the block's and of the gap's. -/
theorem witness_Stretch :
    let run (start frames : Nat) := ({ held with timelineLength := 1000, gaps := [⟨100, 50⟩] }).shape.run start frames
    run 0 169 = ⟨true, 1, 1⟩ ∧ run 0 170 = ⟨true, 1, 1⟩ ∧ run 0 171 = ⟨true, 1, 2⟩ ∧ run 170 1 = ⟨true, 2, 1⟩
      ∧ run 100 50 = ⟨true, 1, 0⟩ ∧ run 99 2 = ⟨true, 1, 1⟩ ∧ run 0 0 = ⟨true, 1, 8⟩ ∧ run 0 2000 = run 0 0 := by decide
/-- The ASSIGN of a window that closes; the last member dropped. -/
theorem witness_LastMember :
    let dropped := after (exec (.progressTimeout 0 9)
      { placing offering with jt.jobs := [(0, { sendingTo .sending [member9 1 4] false with entry := some 0 })] })
    queued (after (exec .bidWindowClose (placing offering))) = [(63, .out, .assign [9], some 0)]
      ∧ queued dropped = [(9, .out, .abandon .stalled, none)] ∧ dropped.jt.jobs.length = 0 := by decide +kernel
/-- A PLAY job whose holder 9 sends nothing, with its re-seek used or not. -/
def waiting (used : Bool) : Job :=
  { opened (.play { seeking with state := .awaitingData, grantWait := some 250, holder := some 9, reseekUsed := used }) with
    rcv := some { receiver 0 false with run := none, inactivity := some 250 } }
/-- A grant wait and an inactivity timer that pass: the first failure, the second, and the second with a local copy. -/
theorem witness_Failures :
    let fails (c : Instr) (used : Bool) := queued (after (exec c (working (waiting used))))
    (working (waiting false)).linkStanding = true ∧ (working (waiting false)).playableEntry take37 = none
      ∧ fails (.grantWaitExpiry 0) false = [(9, .out, .abandon .stalled, some 0), (63, .out, .seek 0 0 .play 0 0 [9], some 0)]
      ∧ fails (.inactivityTimeout 0) false = [(9, .out, .abandon .stalled, none), (63, .out, .seek 0 0 .play 0 0 [9], some 0)]
      ∧ fails (.grantWaitExpiry 0) true = [(9, .out, .abandon .stalled, none)]
      ∧ fails (.inactivityTimeout 0) true = [(9, .out, .abandon .stalled, none)]
      ∧ queued (after (exec (.grantWaitExpiry 0) { holding held with jt.jobs := [(0, waiting true)] }))
          = [(9, .out, .abandon .stalled, some 0)]
      ∧ queued (after (exec (.grantWaitExpiry 0) (working (opened (.repair (repairing .awaitingData))))))
          = [(9, .out, .abandon .stalled, none)] :=
  ⟨rfl, by and_intros <;> decide +kernel⟩

/-! ## Witnesses: cancelled answers, windows that move, and what `settle` makes of ACT -/

/-- A bidder with its BID pending, and a HAVE of the same exchange; `heard` of the `wanted` bidders counted. -/
def bidding (wanted : Nat) (heard : List Nat) : State :=
  { working (answering (.receive { pledged with bid := .pending })) with
    med.pledged := 1, cat.reserved := 1,
    hou.answers := [{ haveRec 3 0 .slot 0 with order := 2, frame := frame37 31 9 .back (.bid 1), bids := some ⟨wanted, [4], heard⟩,
                                               owner := some 0 }, haveRec 3 0 .slot 0] }
/-- The orders of the answers that wait, doomed or not. -/
def waits (u : State) : List (Nat × Bool) := u.hou.answers.map fun r => (r.order, r.doomed)
/-- The bidders each answer has counted. -/
def counted (u : State) : List (Option (List Nat)) := u.hou.answers.map fun r => r.bids.map (·.heard)
/-- A HAVE of the exchange, of another opener's, and one heard while the own HAVE is sent; a BID from an excluded node, from a
counted one, the first of two, and the last; an ABANDON; an ASSIGN that names the node, and one that does not. -/
theorem witness_Cancelled :
    let s (src dst : Nat) (dir : Direction) (payload : Payload) (x : State) := hearing (frame37 src dst dir payload) x
    let have_ (opener : Nat) (x : State) := after (exec .haveReceived (s 4 opener .back (.haveTake false .origin 0 2 0) x))
    let bid (src wanted : Nat) (heard : List Nat) := after (exec .bidReceived (s src 9 .back (.bid 30) (bidding wanted heard)))
    let assign (l : List Nat) := after (exec .assignReceived (s 9 63 .out (.assign l) (bidding 3 [5])))
    soundCheck (bidding 2 []) = true ∧ (bidding 2 []).own = 31
      ∧ waits (have_ 9 (bidding 2 [])) = [(2, false)] ∧ waits (have_ 8 (bidding 2 [])) = [(2, false), (0, false)]
      ∧ waits (have_ 9 { bidding 2 [] with lif.sending := some ⟨frame37 31 9 .back (.bid 0), .answer 0⟩ }) = [(2, false), (0, true)]
      ∧ counted (bid 4 1 []) = [some [], none] ∧ counted (bid 17 2 [17]) = [some [17], none]
      ∧ counted (bid 17 3 [5]) = [some [5, 17], none]
      ∧ waits (bid 17 2 [5]) = [(0, false)] ∧ (bid 17 2 [5]).cpe.events = [.doneJob 5 .receive .cancelled (some take37) 0 0 0]
      ∧ ((bid 17 2 [5]).cat.reserved, (bid 17 2 [5]).med.pledged) = (0, 0)
      ∧ counted (after (exec .abandonReceived (s 5 9 .back (.abandon .stalled) (bidding 3 [5, 17])))) = [some [17], none]
      ∧ waits (assign [31]) = [(0, false)] ∧ waits (assign [30]) = [(0, false)] ∧ (assign [31]).jt.jobs.length = 1
      ∧ (assign [30]).jt.jobs = [] := by
  and_intros <;> decide +kernel
/-- A STEP that names position 20 of 30 with the other member at 15, at 17, and a STEP past the run's end with all receipted. -/
theorem witness_Window :
    let node (a expected : Nat) : Member := { member9 expected 0 with address := a }
    let t (q n9 n17 at_ : Nat) := after (exec .stepReceived (hearing (frame37 9 31 .back (.step q 8))
      { holding { held with jobRefs := 1, storedBlocks := 30 } with
        act.state := .waking,
        jt.jobs := [(0, { opened (.replicate { offering with state := .sending }) with
                          entry := some 0,
                          snd := some { run := ⟨false, 0, 30⟩, next := at_, members := [node 9 n9, node 17 n17],
                                        doneGiven := false } })] }))
    let window (u : State) : Option (List JobReq × Option Nat) := (u.jobAt 0).map fun job => (job.reqs, job.snd.map fun x => x.next)
    window (t 20 16 15 23) = some ([], some 23) ∧ window (t 20 16 17 23) = some ([.read 23, .read 24], some 25)
      ∧ queued (t 30 22 30 30) = [(63, .out, .done 30 0, some 0)]
      ∧ (((t 30 22 30 30).jobAt 0).bind Job.replicateOf).map (·.state) = some .closing := by
  and_intros <;> decide +kernel
/-- A copy whose DONE agrees with a write left, and one whose DONE does not agree. -/
theorem witness_DoneWaits :
    let job : Job := { answering (.receive { pledged with receiving := true, pledge := 0 }) with
                       entry := some 0, rcv := some (receiver 2 false), reqs := [.append []] }
    let t (total : Nat) := after (exec .doneReceived (hearing (frame37 9 63 .out (.done total 0))
      { receiving (receiver 2 false) with jt.jobs := [(0, job)], act.state := .waking }))
    (t 2).jobAt 0 = some { job with body := .receive { pledged with receiving := true, pledge := 0, matched := some 0 },
                                    rcv := some { receiver 2 false with inactivity := none } }
      ∧ queued (t 3) = [(9, .back, .abandon .checkFailed, none)] := by
  and_intros <;> decide +kernel
/-- Media work in DOZE and in SLEEP; a timer to load, one that runs, doze-due with the work drained, and a port that is owned. -/
theorem witness_SettledAct :
    let work (state : Activity) : State := { up with act.state := state, med.mapList := [0] }
    let asleep (t : Nat) : Act := { state := .waking, timer := .stopped, dozeDue := false, wakeAt := some t }
    let act (timer : ActTimer) (due : Bool) (owner : Option Nat) : Act :=
      (settle { up with act.timer := timer, act.dozeDue := due, sul.cfg.dozeDelay := 1, sul.cfg.sleepDelay := 7, port.owner := owner }).act
    (settle (work .doze)).act = asleep 20 ∧ (settle (work .sleep)).act = asleep 150
      ∧ up.portState = .idle ∧ up.chosen = none ∧ up.mediaWork = false ∧ (work .active).chosen = some (.map 0 0)
      ∧ act .stopped false none = { up.act with timer := .running (some 1) }
      ∧ act (.running (some 9)) false none = { up.act with timer := .running (some 9) }
      ∧ act (.running none) true none = { up.act with state := .doze, timer := .running (some 7) }
      ∧ act (.running none) true (some 0) = { up.act with timer := .stopped } := by
  and_intros <;> decide +kernel
/-- A chain of two chunks with 4096, 4097, 8192 and 8193 blocks; one of three with BAD chunks first and last, whose counts add up and
do not; an END before the count, a chunk reached twice, a chunk of another index, and a BAD chunk that two chains reach. -/
theorem witness_Chains :
    let e (i first count blocks : Nat) : Nat × Entry := (i, { held with firstChunk := first, chunkCount := count, storedBlocks := blocks })
    let own (i : Nat) (link : Option Nat) : Chunk := ⟨.entry i, link, 0⟩
    let t (entries : List (Nat × Entry)) (chunks : List (Nat × Chunk)) :=
      after (exec (.mediaReadComplete false (.bytes []))
        { loading (.maps 1) 81 false with cat.entries := entries, med.chunks := (0, reservedChunk) :: chunks })
    let two (blocks : Nat) := t [e 0 1 2 blocks] [(1, own 0 (some 2)), (2, own 0 (some 3))]
    let bad (blocks : Nat) := t [e 0 1 3 blocks] [(1, ⟨.bad, some 2, 10⟩), (2, own 0 (some 3)), (3, ⟨.bad, some 5, 7⟩)]
    let kept (u : State) := u.cat.entries.map (·.1)
    [two 4096, two 4097, two 8192, two 8193].map kept = [[], [0], [0], []]
      ∧ ((two 4097).chunkAt 1, (two 4097).chunkAt 2) = (⟨.entry 0, some 2, 4096⟩, ⟨.entry 0, none, 1⟩)
      ∧ [bad 4112, bad 4113].map kept = [[], [0]] ∧ (bad 4113).chunkAt 3 = ⟨.bad, none, 7⟩ ∧ (bad 4112).chunkAt 3 = lostChunk
      ∧ kept (t [e 0 1 3 9000] [(1, own 0 (some 2)), (2, own 0 none)]) = []
      ∧ kept (t [e 0 1 3 9000] [(1, own 0 (some 2)), (2, own 0 (some 1))]) = []
      ∧ kept (t [e 0 1 2 5000, e 1 3 1 5] [(1, own 0 (some 3)), (3, own 1 none)]) = [1]
      ∧ kept (t [e 0 3 2 4100, e 1 1 2 4100] [(1, own 1 (some 4)), (3, own 0 (some 4)), (4, ⟨.bad, none, 4⟩)]) = [0] := by
  and_intros <;> decide +kernel
set_option maxRecDepth 20000 in
/-- A PLAY job before its head block: sequence 1, and the head block with a disagreeing check; a repeated block while one is owed,
and after the whole run; a REPAIR job's second block before its first. -/
theorem witness_Discards :
    let b (seq : Nat) := makeBlock (some take37) seq 0 120 1 0x22 []
    let play (state : PlayState) (run : Option Run) (n : Nat) : Job :=
      { opened (.play { seeking with state := state, holder := some 9 }) with rcv := some { receiver n false with run := run } }
    let repair : Job := { opened (.repair { repairing .awaitingData with count := 2 }) with
                          entry := some 0, rcv := some { receiver 0 false with run := some ⟨false, 1, 2⟩ } }
    let t (seq : Nat) (block : List Byte) (job : Job) :=
      after (exec .dataReceived (hearing (frame37 9 31 .back (.data seq false block)) { holding held with jt.jobs := [(0, job)] }))
    let step (n : Nat) := [(9, Direction.out, Payload.step n 8, some 0)]
    queued (t 1 (b 1) (play .awaitingData none 0)) = step 0 ∧ queued (t 0 ((b 0).set 40 1) (play .awaitingData none 0)) = step 0
      ∧ (((t 1 (b 1) (play .awaitingData none 0)).jobAt 0).bind Job.playOf).map (·.state) = some .playing
      ∧ queued (t 0 (b 0) (play .playing (some ⟨true, 1, 2⟩) 1)) = [] ∧ queued (t 2 (b 2) (play .draining (some ⟨true, 1, 2⟩) 3)) = step 3
      ∧ queued (t 2 (b 2) repair) = step 1
      ∧ (((t 2 (b 2) repair).jobAt 0).bind (·.rcv)).map (fun v => (v.expected, v.gapReported, v.inactivity)) = some (0, true, some 500) := by
  and_intros <;> decide +kernel

end Sys2Proof.Tests
end

/-! ## Proofs: the take catalogue

SUPPORT. How the commands that name a take look it up (R7), what the holder list's operations do (R14), what freeing an entry
changes and leaves (R11, R35), where a notice goes (R17), and the catalogue's statements settled from these. -/

namespace Sys2Proof.Machine

section Reload
variable (s : State)

/-! ### A reload changes ACT alone (R173) -/

@[simp] theorem entryAt_reload (i : Nat) : (reload s).entryAt i = s.entryAt i := by simp [State.entryAt]

@[simp] theorem named_reload (t : TakeNo) : (reload s).named t = s.named t := by simp [State.named, State.findTake]

@[simp] theorem chunkAt_reload (c : Nat) : (reload s).chunkAt c = s.chunkAt c := by simp [State.chunkAt]

@[simp] theorem chain_reload (e : Entry) : (reload s).chain e = s.chain e := by simp [State.chain]

@[simp] theorem linkStanding_reload : (reload s).linkStanding = s.linkStanding := by
  simp [State.linkStanding, State.complete, State.muted]

@[simp] theorem droppedNotice_reload (t : TakeNo) : (reload s).droppedNotice t = s.droppedNotice t := by
  simp [State.droppedNotice, State.own]

end Reload

section Lookup
variable {s : State} {t : TakeNo}

/-! ### What a command that names a take finds (R7) -/

theorem exec_labelRead (p : List Byte) (s : State) : exec (.labelRead p) s = execLabelRead p s := rfl

theorem exec_withdraw (p : List Byte) (s : State) : exec (.withdraw p) s = execWithdraw p s := rfl

theorem named_of_invalid (h : t.valid = false) : s.named t = .bad := by simp [State.named, h]

theorem named_of_absent (hv : t.valid = true) (h : s.findTake t = none) : s.named t = .absent := by simp [State.named, hv, h]

theorem named_of_found {i : Nat} {e : Entry} (hv : t.valid = true) (h : s.findTake t = some (i, e)) :
    s.named t = .entry i e := by simp [State.named, hv, h]

/-- LABEL_READ in READY answers from what the lookup finds (R20). -/
theorem exec_labelRead_ready {p : List Byte} (hp : s.cpe.port = .ready) (hl : p.length = 4) :
    exec (.labelRead p) s = .next (readLabel p (reload s)) := by
  rw [exec_labelRead, execLabelRead, takeCommand_ready _ hp hl]

/-- WITHDRAW in READY acts on what the lookup finds (R16). -/
theorem exec_withdraw_ready {p : List Byte} (hp : s.cpe.port = .ready) (hl : p.length = 4) :
    exec (.withdraw p) s = .next (withdrawTake p (reload s)) := by
  rw [exec_withdraw, execWithdraw, takeCommand_ready _ hp hl]

/-! ### The label as a response carries it (R20, R194) -/

theorem labelBytes_none : labelBytes none = 0 :: List.replicate 64 0 := rfl

theorem labelBytes_some {l : List Byte} (h : l.length = 64) : labelBytes (some l) = 1 :: l := by
  have full : fitBytes 64 l = l := by simp [fitBytes, h, List.take_of_length_le]
  simp [labelBytes, full, beBytes]

end Lookup

/-- Settles O16: each outcome of the lookup gives one answer. -/
theorem labelReadReturnsTheLabel : Obligations.LabelReadReturnsTheLabel := by
  intro s p hp hl
  rw [exec_labelRead_ready hp hl]
  simp only [readLabel, named_reload]
  refine ⟨fun hv => ?_, fun hv hf => ?_, fun i e hv hf => ?_⟩
  · rw [named_of_invalid hv]; rfl
  · rw [named_of_absent hv hf]; rfl
  · rw [named_of_found hv hf]
    refine ⟨fun l he h64 => ?_, fun he => ?_⟩
    · simp only [he, labelBytes_some h64]
    · simp only [he, labelBytes_none]

section Holders
variable {s : State} {l : List Nat} {a : Nat}

/-! ### The holder list (R14) -/

theorem addAddress_of_mem_or_full (h : a ∈ l ∨ l.length = 4) : addAddress a l = l := by
  rcases h with h | h <;> simp [addAddress, h]

theorem addAddress_of_room (h : a ∉ l) (room : l.length < 4) : addAddress a l = l ++ [a] := by
  simp [addAddress, h, room]

theorem mem_removeAddress {b : Nat} : b ∈ removeAddress a l ↔ b ∈ l ∧ b ≠ a := by simp [removeAddress]

theorem removeAddress_sublist (a : Nat) (l : List Nat) : (removeAddress a l).Sublist l := List.filter_sublist

theorem removeAddress_of_notMem (h : a ∉ l) : removeAddress a l = l := by
  refine List.filter_eq_self.2 fun b hb => ?_
  have : b ≠ a := fun heq => h (heq ▸ hb)
  simpa using this

theorem addOwnAddress_of_mem (h : a ∈ l) : addOwnAddress a l = l := by simp [addOwnAddress, h]

theorem addOwnAddress_of_room (h : a ∉ l) (room : l.length < 4) : addOwnAddress a l = l ++ [a] := by
  simp [addOwnAddress, h, room]

theorem addOwnAddress_of_full (h : a ∉ l) (full : l.length = 4) : addOwnAddress a l = l.take 3 ++ [a] := by
  simp [addOwnAddress, h, full, List.dropLast_eq_take]

/-- An address not listed joins a list of fewer than 4 distinct ones: at most 4, distinct. -/
theorem nodup_length_append_singleton (hn : l.Nodup) (h : a ∉ l) (room : l.length < 4) :
    (l ++ [a]).Nodup ∧ (l ++ [a]).length ≤ 4 := by
  refine ⟨by simpa using hn.concat h, ?_⟩
  rw [List.length_append, List.length_singleton]
  omega

theorem addAddress_keeps_list (hn : l.Nodup) (hl : l.length ≤ 4) :
    (addAddress a l).Nodup ∧ (addAddress a l).length ≤ 4 := by
  by_cases h : a ∈ l ∨ l.length = 4
  · rw [addAddress_of_mem_or_full h]; exact ⟨hn, hl⟩
  · obtain ⟨hm, hne⟩ := not_or.1 h
    have room : l.length < 4 := by omega
    rw [addAddress_of_room hm room]
    exact nodup_length_append_singleton hn hm room

theorem addOwnAddress_keeps_list (hn : l.Nodup) (hl : l.length ≤ 4) :
    (addOwnAddress a l).Nodup ∧ (addOwnAddress a l).length ≤ 4 ∧ a ∈ addOwnAddress a l := by
  by_cases hm : a ∈ l
  · rw [addOwnAddress_of_mem hm]; exact ⟨hn, hl, hm⟩
  · rcases Nat.lt_or_eq_of_le hl with room | full
    · rw [addOwnAddress_of_room hm room]
      obtain ⟨nodup, length⟩ := nodup_length_append_singleton hn hm room
      exact ⟨nodup, length, by simp⟩
    · rw [addOwnAddress_of_full hm full]
      have notMem : a ∉ l.take 3 := fun h => hm (List.mem_of_mem_take h)
      obtain ⟨nodup, length⟩ :=
        nodup_length_append_singleton (hn.sublist (List.take_sublist 3 l)) notMem (by simp [full])
      exact ⟨nodup, length, by simp⟩

theorem removeAddress_keeps_list (hn : l.Nodup) (hl : l.length ≤ 4) :
    (removeAddress a l).Nodup ∧ (removeAddress a l).length ≤ 4 :=
  ⟨hn.sublist (removeAddress_sublist a l), (removeAddress_sublist a l).length_le.trans hl⟩

variable {i : Nat} {e : Entry} {f : List Nat → List Nat}

theorem changeHolders_of_same (h : s.entryAt i = some e) (hf : f e.holders = e.holders) : changeHolders i f s = s := by
  simp [changeHolders, h, hf]

theorem changeHolders_of_changed (h : s.entryAt i = some e) (hf : f e.holders ≠ e.holders) :
    changeHolders i f s = changeEntryMarked i (fun e => { e with holders := f e.holders }) s := by
  simp [changeHolders, h, hf]

theorem entryAt_changeHolders (h : s.entryAt i = some e) :
    (changeHolders i f s).entryAt i = some { e with holders := f e.holders } := by
  by_cases hf : f e.holders = e.holders
  · rw [changeHolders_of_same h hf, h, hf]
  · rw [changeHolders_of_changed h hf]
    unfold State.entryAt at h ⊢
    simp [h]

end Holders

/-- Settles O59: the three operations case by case, and a change as one marked change of the entry. -/
theorem holderListOperations : Obligations.HolderListOperations := by
  refine ⟨fun l a hn hl => ?_, fun s i e f he => ?_⟩
  · obtain ⟨addNodup, addLength⟩ := addAddress_keeps_list (a := a) hn hl
    obtain ⟨removeNodup, removeLength⟩ := removeAddress_keeps_list (a := a) hn hl
    obtain ⟨ownNodup, ownLength, ownMem⟩ := addOwnAddress_keeps_list (a := a) hn hl
    exact ⟨addNodup, addLength, addAddress_of_mem_or_full, addAddress_of_room,
      removeNodup, removeLength, fun h => (mem_removeAddress.1 h).2 rfl,
      fun b hb => mem_removeAddress.trans (and_iff_left hb), removeAddress_sublist a l, removeAddress_of_notMem,
      ownNodup, ownLength, ownMem, addOwnAddress_of_mem, addOwnAddress_of_room, addOwnAddress_of_full⟩
  · refine ⟨entryAt_changeHolders he, fun hf => ?_, changeHolders_of_same he⟩
    rw [changeHolders_of_changed he hf]
    exact ⟨mark_changeEntryMarked .., mem_wt_changeEntryMarked ..⟩

section Chain
variable {s : State} {i : Nat}

/-! ### Freeing a chain (R35) -/

/-- What a chunk of a freed chain of entry `i` becomes (R35): FREE if the entry owned it; BAD, it stays BAD and unlinked. -/
def freedChunk (i : Nat) (ch : Chunk) : Chunk :=
  if ch.owner = .entry i then freeChunk else if ch.owner = .bad then lostChunk else ch

theorem freedChunk_of_owned {ch : Chunk} (h : ch.owner = .entry i) : freedChunk i ch = freeChunk := if_pos h

theorem freedChunk_of_bad {ch : Chunk} (h : ch.owner = .bad) : freedChunk i ch = lostChunk := by simp [freedChunk, h]

@[simp] theorem freedChunk_freedChunk (ch : Chunk) : freedChunk i (freedChunk i ch) = freedChunk i ch := by
  unfold freedChunk
  split
  · rfl
  · split
    · rfl
    · simp [*]

/-- One chunk of the chain (R35): owned by the entry it is freed and counted; BAD and still linked it is unlinked; otherwise
nothing changes, and the chunk already is what a freed one becomes. -/
theorem freeOne_cases (i : Nat) (s : State) (c : Nat) :
    ((s.chunkAt c).owner = .entry i ∧ freeOne i s c = setChunk c freeChunk { s with med.free := s.med.free + 1 })
      ∨ ((s.chunkAt c).owner = .bad ∧ freeOne i s c = setChunk c lostChunk s)
      ∨ ((s.chunkAt c).owner ≠ .entry i ∧ freedChunk i (s.chunkAt c) = s.chunkAt c ∧ freeOne i s c = s) := by
  unfold freeOne
  dsimp only
  split
  · exact .inl ⟨‹_›, rfl⟩
  · rename_i notOwned
    split
    · rename_i linked
      exact .inr (.inl ⟨linked.1, rfl⟩)
    · rename_i notLinked
      refine .inr (.inr ⟨notOwned, ?_, rfl⟩)
      simp only [freedChunk, if_neg notOwned]
      split
      · rename_i bad
        exact (not_not.1 fun ne => notLinked ⟨bad, ne⟩).symm
      · rfl

theorem setChunk_chunks_rising (c : Nat) (ch : Chunk) (h : smapRising s.med.chunks = true) :
    smapRising (setChunk c ch s).med.chunks = true := by
  simpa [setChunk] using smapRising_chunkMapSet c ch h

theorem freeOne_chunks_rising (i c : Nat) (h : smapRising s.med.chunks = true) :
    smapRising (freeOne i s c).med.chunks = true := by
  rcases freeOne_cases i s c with ⟨-, eq⟩ | ⟨-, eq⟩ | ⟨-, -, eq⟩ <;> rw [eq]
  · exact setChunk_chunks_rising (s := { s with med.free := s.med.free + 1 }) c freeChunk h
  · exact setChunk_chunks_rising c lostChunk h
  · exact h

theorem chunkAt_freeOne (h : smapRising s.med.chunks = true) (i c k : Nat) :
    (freeOne i s c).chunkAt k = if k = c then freedChunk i (s.chunkAt k) else s.chunkAt k := by
  rcases freeOne_cases i s c with ⟨owned, eq⟩ | ⟨bad, eq⟩ | ⟨-, same, eq⟩ <;> rw [eq]
  · rw [chunkAt_setChunk (s := { s with med.free := s.med.free + 1 }) h]
    split
    · subst k; exact (freedChunk_of_owned owned).symm
    · rfl
  · rw [chunkAt_setChunk h]
    split
    · subst k; exact (freedChunk_of_bad bad).symm
    · rfl
  · split
    · subst k; exact same.symm
    · rfl

theorem mapList_subset_setChunk (c : Nat) (ch : Chunk) : s.med.mapList ⊆ (setChunk c ch s).med.mapList := by
  unfold setChunk queueMap
  split
  · exact fun _ h => h
  · exact List.subset_append_left _ _

theorem mem_mapList_setChunk (c : Nat) (ch : Chunk) : c / 80 ∈ (setChunk c ch s).med.mapList := by
  unfold setChunk queueMap
  split
  · rename_i h; simpa using h
  · simp

/-- Map items that wait go on waiting, and a chunk that changes has its own among them (R44). -/
theorem freeOne_mapList (i c : Nat) :
    s.med.mapList ⊆ (freeOne i s c).med.mapList
      ∧ (freedChunk i (s.chunkAt c) ≠ s.chunkAt c → c / 80 ∈ (freeOne i s c).med.mapList) := by
  rcases freeOne_cases i s c with ⟨-, eq⟩ | ⟨-, eq⟩ | ⟨-, same, eq⟩ <;> rw [eq]
  · exact ⟨mapList_subset_setChunk (s := { s with med.free := s.med.free + 1 }) c freeChunk,
      fun _ => mem_mapList_setChunk c freeChunk⟩
  · exact ⟨mapList_subset_setChunk c lostChunk, fun _ => mem_mapList_setChunk c lostChunk⟩
  · exact ⟨fun _ h => h, fun changed => absurd same changed⟩

/-- Freeing one chunk touches the chunk map, the map-write list and the free count, the count for an owned chunk alone. -/
theorem freeOne_frame (i : Nat) (s : State) (c : Nat) : ∃ chunks mapList,
    freeOne i s c = { s with med.chunks := chunks, med.mapList := mapList,
                             med.free := s.med.free + if (s.chunkAt c).owner == .entry i then 1 else 0 } := by
  have written (ch : Chunk) (r : State) : ∃ chunks mapList,
      setChunk c ch r = { r with med.chunks := chunks, med.mapList := mapList } := by
    unfold setChunk queueMap
    split <;> exact ⟨_, _, rfl⟩
  rcases freeOne_cases i s c with ⟨owned, eq⟩ | ⟨bad, eq⟩ | ⟨notOwned, -, eq⟩ <;> rw [eq]
  · obtain ⟨chunks, mapList, eq⟩ := written freeChunk { s with med.free := s.med.free + 1 }
    exact ⟨chunks, mapList, by simp [eq, owned]⟩
  · obtain ⟨chunks, mapList, eq⟩ := written lostChunk s
    exact ⟨chunks, mapList, by simp [eq, bad]⟩
  · exact ⟨s.med.chunks, s.med.mapList, by simp [notOwned]⟩

theorem freeChunks_cons (i c : Nat) (l : List Nat) (s : State) : freeChunks i (c :: l) s = freeChunks i l (freeOne i s c) := rfl

/-- Every chunk of the list is freed as R35 says, every other stays. -/
theorem chunkAt_freeChunks (h : smapRising s.med.chunks = true) (i : Nat) (l : List Nat) (k : Nat) :
    (freeChunks i l s).chunkAt k = if k ∈ l then freedChunk i (s.chunkAt k) else s.chunkAt k := by
  induction l generalizing s with
  | nil => simp [freeChunks]
  | cons c rest ih =>
    rw [freeChunks_cons, ih (freeOne_chunks_rising i c h), chunkAt_freeOne h]
    by_cases hc : k = c <;> by_cases hr : k ∈ rest <;> simp [hc, hr]

theorem mapList_subset_freeChunks (i : Nat) (l : List Nat) : s.med.mapList ⊆ (freeChunks i l s).med.mapList := by
  induction l generalizing s with
  | nil => exact fun _ h => h
  | cons c rest ih => exact List.Subset.trans (freeOne_mapList i c).1 ih

/-- A chunk of the list that freeing changes has its map item queued (R35, R44). -/
theorem mem_mapList_freeChunks (h : smapRising s.med.chunks = true) {l : List Nat} {k : Nat} (hk : k ∈ l)
    (changed : freedChunk i (s.chunkAt k) ≠ s.chunkAt k) : k / 80 ∈ (freeChunks i l s).med.mapList := by
  induction l generalizing s with
  | nil => cases hk
  | cons c rest ih =>
    rw [freeChunks_cons]
    by_cases hc : k = c
    · subst k
      exact mapList_subset_freeChunks i rest ((freeOne_mapList i c).2 changed)
    · have same : (freeOne i s c).chunkAt k = s.chunkAt k := by rw [chunkAt_freeOne h, if_neg hc]
      exact ih (freeOne_chunks_rising i c h) ((List.mem_cons.1 hk).resolve_left hc) (by rwa [same])

/-- Freeing a list touches the chunk map, the map-write list and the free count alone. -/
theorem freeChunks_frame (i : Nat) (l : List Nat) (s : State) : ∃ chunks mapList free,
    freeChunks i l s = { s with med.chunks := chunks, med.mapList := mapList, med.free := free } := by
  induction l generalizing s with
  | nil => exact ⟨s.med.chunks, s.med.mapList, s.med.free, rfl⟩
  | cons c rest ih =>
    obtain ⟨_, _, one⟩ := freeOne_frame i s c
    obtain ⟨chunks, mapList, free, eq⟩ := ih (freeOne i s c)
    exact ⟨chunks, mapList, free, by rw [freeChunks_cons, eq, one]⟩

/-- The free count rises by one for each chunk the entry owned (R32, R35). -/
theorem freeChunks_free (h : smapRising s.med.chunks = true) {l : List Nat} (hn : l.Nodup) :
    (freeChunks i l s).med.free = s.med.free + (l.filter fun c => (s.chunkAt c).owner == .entry i).length := by
  induction l generalizing s with
  | nil => rfl
  | cons c rest ih =>
    obtain ⟨notMem, nodup⟩ := List.nodup_cons.1 hn
    have later : (rest.filter fun k => ((freeOne i s c).chunkAt k).owner == .entry i)
        = rest.filter fun k => (s.chunkAt k).owner == .entry i := by
      refine List.filter_congr fun k hk => ?_
      rw [chunkAt_freeOne h, if_neg (fun heq : k = c => notMem (heq ▸ hk))]
    have first : (freeOne i s c).med.free = s.med.free + if (s.chunkAt c).owner == .entry i then 1 else 0 := by
      obtain ⟨_, _, eq⟩ := freeOne_frame i s c
      rw [eq]
    rw [freeChunks_cons, ih (freeOne_chunks_rising i c h) nodup, later, first, List.filter_cons]
    split
    · rw [List.length_cons]; omega
    · rfl

end Chain

section Freeing
variable {s : State} {i : Nat} {e : Entry}

/-! ### Freeing an entry (R11) -/

theorem dropItems_sublist (i : Nat) (l : List WtItem) : (dropItems i l).Sublist l := List.filter_sublist

theorem entry_notMem_dropItems (i : Nat) (l : List WtItem) : .entry i ∉ dropItems i l := by simp [dropItems]

theorem head_notMem_dropItems (i : Nat) (l : List WtItem) (label : Option (List Byte)) : .head i label ∉ dropItems i l := by
  simp [dropItems]

theorem queueEntry_of_notMem (h : .entry i ∉ s.cat.wt) : queueEntry i s = { s with cat.wt := s.cat.wt ++ [.entry i] } := by
  simp [queueEntry, h]

/-- Freeing a live entry (R11): its chain is freed; it leaves the table, the placement queue and the write-through queue, joins
the latter anew to be written as empty, and sets the mark; the take's HAVEs and answer notes go. -/
theorem freeEntry_of_entryAt (h : s.entryAt i = some e) : ∃ hou notes,
    freeEntry i s =
      { freeChunks i (s.chain e) s with
        cat := { s.cat with entries := smapDel s.cat.entries i, queue := s.cat.queue.filter (fun q => q.1 ≠ i),
                            wt := dropItems i s.cat.wt ++ [.entry i], mark := true },
        hou := hou, notes := notes } := by
  obtain ⟨chunks, mapList, free, eq⟩ := freeChunks_frame i (s.chain e) s
  unfold freeEntry
  simp only [h, eq]
  rw [queueEntry_of_notMem (entry_notMem_dropItems i s.cat.wt)]
  exact ⟨_, _, rfl⟩

/-! ### Notices (R17) -/

theorem txPush_queue (t : TxFrame) (s : State) : (txPush t s).lif.queue = s.lif.queue ++ [t] := by
  unfold txPush refreshPlain
  dsimp only
  split <;> rfl

theorem txPush_frame (t : TxFrame) (s : State) : ∃ queue plain,
    txPush t s = { s with lif.queue := queue, hou.plain := plain } := by
  unfold txPush refreshPlain
  dsimp only
  split <;> exact ⟨_, _, rfl⟩

theorem offerFrames_frame (owner : Option Nat) (l : List Frame) (s : State) : ∃ queue plain,
    (offerFrames owner l s).2 = { s with lif.queue := queue, hou.plain := plain } := by
  induction l generalizing s with
  | nil => exact ⟨s.lif.queue, s.hou.plain, rfl⟩
  | cons f rest ih =>
    unfold offerFrames
    split
    · obtain ⟨_, _, first⟩ := txPush_frame { frame := f, owner := owner } s
      obtain ⟨queue, plain, eq⟩ := ih (txPush { frame := f, owner := owner } s)
      exact ⟨queue, plain, by rw [eq, first]⟩
    · exact ⟨s.lif.queue, s.hou.plain, rfl⟩

/-- The last of the frames offered is the last that stays with the producer or, when none stays, the last of the queue (R78). -/
theorem offerFrames_getLast (owner : Option Nat) {l : List Frame} {f : Frame} (h : l.getLast? = some f) (s : State) :
    ((offerFrames owner l s).1.getLast?.orElse fun _ => (offerFrames owner l s).2.lif.queue.getLast?.map (·.frame))
      = some f := by
  induction l generalizing s with
  | nil => cases h
  | cons g rest ih =>
    unfold offerFrames
    split
    · cases rest with
      | nil =>
        cases h
        simp [offerFrames, txPush_queue]
      | cons g' rest' => exact ih (by rwa [List.getLast?_cons_cons] at h) _
    · simp [h]

/-- Where the node may send, the pending notices are offered to the queue (R17). -/
theorem flushNotices_of_standing (h : s.linkStanding = true) :
    flushNotices s = { (offerFrames none s.cat.notices s).2 with cat.notices := (offerFrames none s.cat.notices s).1 } := by
  unfold flushNotices
  rw [if_pos h]

/-- Notices move into the transmit queue or go (R17): the plain record follows the queue, and nothing else changes. -/
theorem flushNotices_frame (s : State) : ∃ queue plain notices,
    flushNotices s = { s with lif.queue := queue, hou.plain := plain, cat.notices := notices } := by
  by_cases h : s.linkStanding = true
  · obtain ⟨queue, plain, eq⟩ := offerFrames_frame none s.cat.notices s
    refine ⟨queue, plain, (offerFrames none s.cat.notices s).1, ?_⟩
    rw [flushNotices_of_standing h, eq]
  · refine ⟨s.lif.queue, s.hou.plain, [], ?_⟩
    unfold flushNotices
    rw [if_neg h]

theorem addNotice_frame (f : Frame) (s : State) : ∃ queue plain notices,
    addNotice f s = { s with lif.queue := queue, hou.plain := plain, cat.notices := notices } := flushNotices_frame _

/-- Where the node may send, the newest pending notice stays the last of the list or, once that is empty, is the last of the
queue (R17). -/
theorem flushNotices_getLast {f : Frame} (h : s.linkStanding = true) (newest : s.cat.notices.getLast? = some f) :
    ((flushNotices s).cat.notices.getLast?.orElse fun _ => (flushNotices s).lif.queue.getLast?.map (·.frame)) = some f := by
  rw [flushNotices_of_standing h]
  exact offerFrames_getLast none newest s

theorem addNotice_getLast (f : Frame) (h : s.linkStanding = true) :
    ((addNotice f s).cat.notices.getLast?.orElse fun _ => (addNotice f s).lif.queue.getLast?.map (·.frame)) = some f :=
  flushNotices_getLast h List.getLast?_concat

/-! ### WITHDRAW (R16) -/

/-- A withdrawal that R16's tests allow: the entry freed, then its NOTICE DROPPED. -/
def withdrawn (i : Nat) (e : Entry) (s : State) : State := addNotice (s.droppedNotice e.take) (freeEntry i s)

/-- R16's tests on the entry found. -/
theorem withdrawTake_of_found {p : List Byte} (hn : s.named (takeParam p) = .entry i e) :
    withdrawTake p s = if e.playable && e.jobRefs == 0 then respond .ok 12 0 [] (settle (withdrawn i e s))
      else refuse .locked 12 s := by
  simp only [withdrawTake, hn, withdrawn]

theorem withdrawable_iff :
    (e.playable && e.jobRefs == 0) = true ↔ (e.state = .held ∨ e.state = .incomplete) ∧ e.jobRefs = 0 := by
  simp [Entry.playable]

/-- Everything a withdrawal changes: the chain's chunks, the entry and what waits for it, the notice, the take's answers. -/
theorem withdrawn_frame (h : s.entryAt i = some e) : ∃ queue notices hou notes,
    withdrawn i e s =
      { freeChunks i (s.chain e) s with
        cat := { s.cat with entries := smapDel s.cat.entries i, queue := s.cat.queue.filter (fun q => q.1 ≠ i),
                            wt := dropItems i s.cat.wt ++ [.entry i], mark := true, notices := notices },
        lif.queue := queue, hou := hou, notes := notes } := by
  obtain ⟨_, _, freed⟩ := freeEntry_of_entryAt h
  obtain ⟨queue, _, notices, eq⟩ := addNotice_frame (s.droppedNotice e.take) (freeEntry i s)
  exact ⟨queue, notices, _, _, by rw [withdrawn, eq, freed]⟩

/-- In the catalogue a withdrawal frees the entry as R11 says and moves notices (R17). -/
theorem withdrawn_cat (h : s.entryAt i = some e) : ∃ notices,
    (withdrawn i e s).cat =
      { s.cat with entries := smapDel s.cat.entries i, queue := s.cat.queue.filter (fun q => q.1 ≠ i),
                   wt := dropItems i s.cat.wt ++ [.entry i], mark := true, notices := notices } := by
  obtain ⟨_, notices, _, _, eq⟩ := withdrawn_frame h
  exact ⟨notices, by rw [eq]⟩

theorem withdrawn_fixed (h : s.entryAt i = some e) :
    (withdrawn i e s).jt = s.jt ∧ (withdrawn i e s).cpe = s.cpe ∧ (withdrawn i e s).port = s.port := by
  obtain ⟨_, _, _, _, eq⟩ := withdrawn_frame h
  obtain ⟨_, _, _, freed⟩ := freeChunks_frame i (s.chain e) s
  rw [eq, freed]
  exact ⟨rfl, rfl, rfl⟩

theorem withdrawn_med (h : s.entryAt i = some e) : (withdrawn i e s).med = (freeChunks i (s.chain e) s).med := by
  obtain ⟨_, _, _, _, eq⟩ := withdrawn_frame h
  rw [eq]

theorem withdrawn_med_fixed (h : s.entryAt i = some e) :
    (withdrawn i e s).med.bad = s.med.bad ∧ (withdrawn i e s).med.pledged = s.med.pledged
      ∧ (withdrawn i e s).med.store = s.med.store := by
  obtain ⟨_, _, _, freed⟩ := freeChunks_frame i (s.chain e) s
  rw [withdrawn_med h, freed]
  exact ⟨rfl, rfl, rfl⟩

theorem chunkAt_withdrawn (h : s.entryAt i = some e) (hm : smapRising s.med.chunks = true) (c : Nat) :
    (withdrawn i e s).chunkAt c = if c ∈ s.chain e then freedChunk i (s.chunkAt c) else s.chunkAt c := by
  rw [← chunkAt_freeChunks hm]
  simp only [State.chunkAt, withdrawn_med h]

theorem entryAt_withdrawn (h : s.entryAt i = some e) (hm : smapRising s.cat.entries = true) (k : Nat) :
    (withdrawn i e s).entryAt k = if k = i then none else s.entryAt k := by
  obtain ⟨_, _, _, _, eq⟩ := withdrawn_frame h
  rw [eq]
  split
  · subst k; exact smapGet_smapDel_self i hm
  · exact smapGet_smapDel_ne _ ‹_›

theorem withdrawn_mapList (h : s.entryAt i = some e) (hm : smapRising s.med.chunks = true) {c : Nat} (hc : c ∈ s.chain e)
    (changed : freedChunk i (s.chunkAt c) ≠ s.chunkAt c) : c / 80 ∈ (withdrawn i e s).med.mapList := by
  rw [withdrawn_med h]
  exact mem_mapList_freeChunks hm hc changed

theorem withdrawn_free (h : s.entryAt i = some e) (hm : smapRising s.med.chunks = true) (nodup : (s.chain e).Nodup) :
    (withdrawn i e s).med.free
      = s.med.free + ((s.chain e).filter fun c => (s.chunkAt c).owner == .entry i).length := by
  rw [withdrawn_med h]
  exact freeChunks_free hm nodup

/-- Where the node may send, the NOTICE DROPPED is the last notice that waits or, when none waits, the last frame queued. -/
theorem withdrawn_getLast (h : s.entryAt i = some e) (standing : s.linkStanding = true) :
    ((withdrawn i e s).cat.notices.getLast?.orElse fun _ => (withdrawn i e s).lif.queue.getLast?.map (·.frame))
      = some (s.droppedNotice e.take) := by
  obtain ⟨_, _, freed⟩ := freeEntry_of_entryAt h
  obtain ⟨_, _, _, chain⟩ := freeChunks_frame i (s.chain e) s
  have still : (freeEntry i s).linkStanding = true := by rw [freed, chain]; exact standing
  exact addNotice_getLast _ still

end Freeing

/-- Settles O18: what the freed chain, the freed entry and the notice are by their own laws, read at the reloaded state. -/
theorem withdrawFreesTheEntry : Obligations.WithdrawFreesTheEntry := by
  intro s p hs hp hl
  obtain ⟨-, ⟨hEntries, hChunks, -⟩, -⟩ := hs
  rw [exec_withdraw_ready hp hl]
  refine ⟨fun hv => ?_, fun hv hf => ?_, fun i e hv hf => ?_⟩
  · simp only [withdrawTake, named_of_invalid hv]; rfl
  · simp only [withdrawTake, named_reload, named_of_absent hv hf]; rfl
  · have found := named_of_found hv hf
    rw [← named_reload] at found
    rw [withdrawTake_of_found found]
    refine ⟨fun locked => ?_, fun free noRefs => ?_⟩
    · have refused : ¬ (e.playable && e.jobRefs == 0) = true := by
        rw [withdrawable_iff]
        rintro ⟨state, noRefs⟩
        rcases locked with h | h | h
        · simp [h] at state
        · simp [h] at state
        · omega
      rw [if_neg refused]; rfl
    · rw [if_pos (withdrawable_iff.2 ⟨free, noRefs⟩)]
      have entry : (reload s).entryAt i = some e := by
        rw [entryAt_reload]
        exact (entryAt_of_findTake hEntries hf).1
      have rising : smapRising (reload s).med.chunks = true := by rwa [reload_med]
      have entries := entryAt_withdrawn entry (by rwa [reload_cat])
      have chunks := chunkAt_withdrawn entry rising
      have mapList (c : Nat) := withdrawn_mapList (c := c) entry rising
      have count := withdrawn_free entry rising
      have notice := withdrawn_getLast entry
      obtain ⟨bad, pledged, store⟩ := withdrawn_med_fixed entry
      obtain ⟨notices, cat⟩ := withdrawn_cat entry
      obtain ⟨jt, cpe, port⟩ := withdrawn_fixed entry
      simp only [entryAt_reload, chain_reload, chunkAt_reload, linkStanding_reload, droppedNotice_reload, reload_med,
        reload_cat, reload_jt, reload_cpe, reload_port] at entries chunks mapList count notice bad pledged store cat jt cpe port
      refine ⟨withdrawn i e (reload s), rfl, ?_, ?_, ?_, ?_, ?_, ?_, ?_, ?_⟩
      · rw [entries, if_pos rfl]
      · intro k hk
        rw [entries, if_neg hk]
      · intro c hc owned
        rw [chunks, if_pos hc, freedChunk_of_owned owned]
      · intro c hc isBad
        rw [chunks, if_pos hc, freedChunk_of_bad isBad]
        rfl
      · intro c hc changed
        rw [chunks, if_pos hc] at changed
        exact mapList c hc changed
      · exact count
      · intro c hc
        rw [chunks, if_neg hc]
      · refine ⟨bad, pledged, store, by rw [cat], ⟨dropItems i s.cat.wt, by rw [cat], dropItems_sublist i _,
          entry_notMem_dropItems i _, head_notMem_dropItems i _⟩, by rw [cat], by rw [cat], jt, cpe, port,
          fun standing => (notice standing).symm⟩

end Sys2Proof.Machine

/-! ## Proofs: the hold-off

SUPPORT for O58, and its proof: the bid curve. -/

namespace Sys2Proof.Machine

section Curve

/-! ### The bid curve (R92) -/

/-- Up to f = 256 the position in the segment runs to 32. The cap at segment 7 puts f = 256 at that segment's end. -/
theorem curvePosition_le {f : Nat} (hf : f ≤ 256) : f - 32 * min (f / 32) 7 ≤ 32 := by omega

/-- The curve between the two knots of its segment. -/
theorem bidCurve_eq {knots : List Nat} {f a b : Nat} (ha : knots[min (f / 32) 7]? = some a)
    (hb : knots[min (f / 32) 7 + 1]? = some b) :
    bidCurve knots f = (a * (32 - (f - 32 * min (f / 32) 7)) + b * (f - 32 * min (f / 32) 7)) / 32 := by
  simp only [bidCurve, List.getD_eq_getElem?_getD, ha, hb, Option.getD_some]

variable {a b m r : Nat}

/-- The two weights of a position add up to 32, so an equal value at both knots is the value between them. -/
theorem mul_weights (hr : r ≤ 32) : m * (32 - r) + m * r = m * 32 := by
  rw [← Nat.mul_add, Nat.sub_add_cancel hr]

/-- What bounds both knots from below bounds the weighted floor. -/
theorem le_weightedFloor (hr : r ≤ 32) (ha : m ≤ a) (hb : m ≤ b) : m ≤ (a * (32 - r) + b * r) / 32 := by
  rw [Nat.le_div_iff_mul_le (by decide), ← mul_weights hr]
  exact Nat.add_le_add (Nat.mul_le_mul_right _ ha) (Nat.mul_le_mul_right _ hb)

/-- What bounds both knots from above bounds the weighted floor. -/
theorem weightedFloor_le (hr : r ≤ 32) (ha : a ≤ m) (hb : b ≤ m) : (a * (32 - r) + b * r) / 32 ≤ m := by
  apply Nat.div_le_of_le_mul
  rw [Nat.mul_comm 32 m, ← mul_weights hr]
  exact Nat.add_le_add (Nat.mul_le_mul_right _ ha) (Nat.mul_le_mul_right _ hb)

/-- A full store bids the last knot. -/
theorem bidCurve_full {knots : List Nat} (h7 : knots[7]? = some a) (h8 : knots[8]? = some b) : bidCurve knots 256 = b := by
  have position : 256 - 32 * min (256 / 32) 7 = 32 := rfl
  rw [bidCurve_eq h7 h8, position, Nat.sub_self, Nat.mul_zero, Nat.zero_add]
  exact Nat.mul_div_cancel b (by decide)

end Curve

/-- Settles O58: the two weights of a position add up to 32, so the weighted floor keeps every bound of its two knots. -/
theorem bidCurveFollowsTheKnots : Obligations.BidCurveFollowsTheKnots := by
  refine ⟨fun knots f length range hf => ?_, rfl⟩
  have capped : min (f / 32) 7 ≤ 7 := Nat.min_le_right _ _
  have position := curvePosition_le hf
  obtain ⟨a, ha⟩ : ∃ a, knots[min (f / 32) 7]? = some a := ⟨_, List.getElem?_eq_getElem (by omega)⟩
  obtain ⟨b, hb⟩ : ∃ b, knots[min (f / 32) 7 + 1]? = some b := ⟨_, List.getElem?_eq_getElem (by omega)⟩
  have curve := bidCurve_eq ha hb
  refine ⟨_, _, a, b, rfl, rfl, position, ha, hb, curve, ?_, ?_, ?_, fun full => ?_⟩
  · rw [curve]
    exact le_weightedFloor position (Nat.min_le_left a b) (Nat.min_le_right a b)
  · rw [curve]
    exact weightedFloor_le position (Nat.le_max_left a b) (Nat.le_max_right a b)
  · rw [curve]
    exact weightedFloor_le position (range a (List.mem_of_getElem? ha)) (range b (List.mem_of_getElem? hb))
  · subst full
    rw [bidCurve_full ha hb]
    exact hb

end Sys2Proof.Machine

/-! ## Proofs: the whole machine

SUPPORT. What every command keeps, said once (`exec_effect`): beyond the few changes of the command's own, its operations keep
the waiting commands, the settings, LINK_MUTE and the store, and every bound. The whole-machine statements follow from it. -/

namespace Sys2Proof.Machine

section Onward
variable {a b s t : State}

/-! ### What time and the operations inside a command keep -/

/-- `b` follows from `a` by operations inside a command and by time: the waiting commands, the settings, LINK_MUTE and the store
stand, nothing that only rises falls, and every bound is kept. -/
structure Onward (a b : State) : Prop where
  pending : b.pending = a.pending
  settings : b.sul.cfg = a.sul.cfg
  mute : b.lif.mute = a.lif.mute
  store : b.med.store = a.med.store
  upward : Upward a b
  sound : a.Sound → b.Sound
  link : a.LinkSound → b.LinkSound

theorem Upward.refl (a : State) : Upward a a := ⟨fun h => ⟨h, rfl⟩, id, id⟩

theorem Upward.trans {c : State} (h : Upward a b) (g : Upward b c) : Upward a c := by
  obtain ⟨phase, mark, fault⟩ := h
  obtain ⟨phase', mark', fault'⟩ := g
  exact ⟨fun hp => ⟨(phase' (phase hp).1).1, (phase' (phase hp).1).2.trans (phase hp).2⟩, mark' ∘ mark, fault' ∘ fault⟩

theorem Onward.refl (a : State) : Onward a a := ⟨rfl, rfl, rfl, rfl, Upward.refl a, id, id⟩

theorem Onward.trans {c : State} (h : Onward a b) (g : Onward b c) : Onward a c :=
  ⟨g.pending.trans h.pending, g.settings.trans h.settings, g.mute.trans h.mute, g.store.trans h.store,
    h.upward.trans g.upward, g.sound ∘ h.sound, g.link ∘ h.link⟩

theorem Keeps.onward (h : Keeps a b) : Onward a b := by
  obtain ⟨⟨pending, -, -, settings, -, -, store, -, -, lastSource, lfsr, errors, collisions, mute, -, -⟩, upward, sound⟩ := h
  refine ⟨pending, settings, mute, store, upward, sound, fun link => ?_⟩
  unfold State.LinkSound at link ⊢
  rwa [errors, collisions, lfsr, settings, lastSource]

/-- Operations go on from what has been kept so far. -/
theorem Onward.keeps (h : Onward a s) (g : Keeps s t) : Onward a t := h.trans g.onward

/-- A change outside everything `Onward` speaks of, but for the link's bounds. -/
theorem Onward.of_link (pending : b.pending = a.pending) (sul : b.sul = a.sul) (cat : b.cat = a.cat)
    (mute : b.lif.mute = a.lif.mute) (store : b.med.store = a.med.store) (sound : a.Sound → b.Sound)
    (link : a.LinkSound → b.LinkSound) : Onward a b :=
  ⟨pending, by rw [sul], mute, store, by simp [Upward, sul, cat], sound, link⟩

/-- A change of LIF that leaves its queue and LINK_MUTE alone. -/
theorem Onward.lif (l : Lif) (queue : l.queue = a.lif.queue) (mute : l.mute = a.lif.mute)
    (link : a.LinkSound → State.LinkSound { a with lif := l }) : Onward a { a with lif := l } := by
  refine Onward.of_link rfl rfl rfl mute rfl (fun h => ?_) link
  unfold State.Sound at h ⊢
  simpa only [queue] using h

/-- Of the medium's state only the counters, the LFSR and last-source have bounds. -/
theorem Onward.medium (l : Lif) (queue : l.queue = a.lif.queue) (mute : l.mute = a.lif.mute) (errors : l.errors = a.lif.errors)
    (collisions : l.collisions = a.lif.collisions) (lfsr : l.lfsr = a.lif.lfsr) (last : l.lastSource = a.lif.lastSource) :
    Onward a { a with lif := l } := by
  refine Onward.lif l queue mute fun h => ?_
  unfold State.LinkSound at h ⊢
  simpa only [errors, collisions, lfsr, last] using h

theorem Onward.act (x : Act) : Onward a { a with act := x } := Onward.of_link rfl rfl rfl rfl rfl id id

theorem Onward.clock (n : Nat) : Onward a { a with clock := n } := Onward.of_link rfl rfl rfl rfl rfl id id

theorem Onward.lines (high low : List Bool) : Onward a (a.lines high low) := Onward.of_link rfl rfl rfl rfl rfl id id

theorem Onward.passUnits (n : Nat) : Onward a (passUnits n a) := by
  unfold Machine.passUnits passBits
  dsimp only
  have time := (Onward.clock (a := a) (a.clock + n)).trans (Onward.medium (a := { a with clock := a.clock + n })
    { a.lif with
      sentBits := if a.lif.sending.isSome then a.lif.sentBits + ((a.clock + n) / a.bitUnits - a.clock / a.bitUnits)
                  else a.lif.sentBits
      absent := if a.lif.medium = .settling then a.lif.absent + ((a.clock + n) / a.bitUnits - a.clock / a.bitUnits)
                else a.lif.absent } rfl rfl rfl rfl rfl rfl)
  split
  · exact time.keeps (onRecords_keeps (Keeps.refl _) _ (count_isHave _))
  · exact time

theorem Onward.passBitTimes (n : Nat) : Onward a (passBitTimes n a) := Onward.passUnits _

theorem Onward.passTo (n : Nat) : Onward a (passTo n a) := Onward.passUnits _

end Onward

section Medium
variable {s t : State}

/-! ### The rows of the medium (R71 to R82) -/

theorem stopSending_onward : Onward s (stopSending s) := Onward.medium _ rfl rfl rfl rfl rfl rfl

theorem startFrame_onward (f : Frame) (source : SendSource) : Onward s (startFrame f source s) :=
  (Onward.medium { s.lif with sending := some { frame := f, source := source }, sentBits := 0, medium := .busy, absent := 0,
                              rxOpen := false, gap := false, burst := s.lif.burst + 1 } rfl rfl rfl rfl rfl rfl).keeps
    (onRecords_keeps (Keeps.refl _) _ freeze_isHave)

theorem startReleased_onward : Onward s (startReleased s) := by
  unfold startReleased
  split
  · exact startFrame_onward _ _
  · split
    · split
      · exact startFrame_onward _ _
      · exact Onward.refl s
    · exact Onward.refl s

theorem continueBurst_onward : Onward s (continueBurst s) := by
  unfold continueBurst
  split
  · split
    · exact startFrame_onward _ _
    · split
      · exact startFrame_onward _ _
      · exact (endBurst_keeps (Keeps.refl s)).onward
  · exact (endBurst_keeps (Keeps.refl s)).onward

theorem hearCarrier_onward : Onward s (hearCarrier s) := by
  have burst : Onward s (if s.lif.gap then endBurst s else s) := by
    split
    · exact (endBurst_keeps (Keeps.refl s)).onward
    · exact Onward.refl s
  unfold hearCarrier
  exact ((burst.trans (Onward.medium _ rfl rfl rfl rfl rfl rfl)).keeps (unreleaseAll_keeps (Keeps.refl _))).keeps
    (onRecords_keeps (Keeps.refl _) _ freeze_isHave)

/-- A good frame's source is one of 0..31 (R192). -/
theorem src_le_of_classify {bytes : List Byte} {f : Frame} (h : classify bytes = .good f) : f.src ≤ 31 := by
  unfold classify at h
  dsimp only at h
  split at h
  · cases h
  · split at h
    · rename_i body
      cases h
      unfold frameOfBody at body
      dsimp only at body
      split at body
      · cases body
      · rename_i tests
        obtain ⟨p, -, rfl⟩ := Option.map_eq_some_iff.1 body
        simp only [Bool.or_eq_true, decide_eq_true_eq, not_or] at tests
        show (byteAt _ 1).toNat ≤ 31
        omega
    · cases h

theorem hearPeriod_onward (bytes : List Byte) : Onward s (hearPeriod bytes s) := by
  refine Onward.lif _ rfl rfl fun ⟨errors, collisions, lfsr, address, last⟩ => ⟨errors, collisions, lfsr, address, ?_⟩
  dsimp only
  split
  · rename_i f good
    exact src_le_of_classify good
  · exact last

/-- A draw never gives 0: the bit that leaves at bit 0 enters at bit 15 unless another of the taps is set (R94). -/
theorem lfsrStep_ne_zero {r : BitVec 16} (h : r ≠ 0#16) : lfsrStep r ≠ 0#16 := by
  intro zero
  apply h
  unfold lfsrStep at zero
  dsimp only at zero
  obtain ⟨shifted, fed⟩ := BitVec.or_eq_zero_iff.1 zero
  have high : ∀ i, 1 ≤ i → r.getLsbD i = false := fun i hi => by
    have bit := congrArg (BitVec.getLsbD · (i - 1)) shifted
    simpa [Nat.add_sub_cancel' hi] using bit
  have feedback : ¬ ((r.getLsbD 0 ^^ r.getLsbD 2) ^^ (r.getLsbD 3 ^^ r.getLsbD 5)) = true := fun on => by
    rw [if_pos on] at fed
    exact absurd fed (by decide)
  simp only [high 2 (by omega), high 3 (by omega), high 5 (by omega), Bool.xor_false, Bool.not_eq_true] at feedback
  refine BitVec.eq_of_getLsbD_eq fun i _ => ?_
  rw [BitVec.getLsbD_zero]
  rcases Nat.eq_zero_or_pos i with rfl | hi
  · exact feedback
  · exact high i hi

theorem lfsrDraws_ne_zero (n : Nat) {r : BitVec 16} (h : r ≠ 0#16) : (lfsrDraws n r).2 ≠ 0#16 := by
  induction n generalizing r with
  | zero => exact h
  | succ n ih => exact ih (lfsrStep_ne_zero h)

theorem drawExtra_onward (n : Nat) : Onward s (drawExtra n s).2 :=
  Onward.lif _ rfl rfl fun ⟨errors, collisions, lfsr, rest⟩ => ⟨errors, collisions, lfsrDraws_ne_zero n lfsr, rest⟩

theorem answerCollided_onward (r : HoldRec) (f : Frame) : Onward s (answerCollided r f s) := by
  have dropped := dropAnswer_keeps (Keeps.refl s) r.order
  unfold answerCollided
  split
  · exact dropped.onward
  · split
    · exact (reportTo_keeps dropped _ _ fun j => reportDropped_keeps dropped j f).onward
    · refine (drawExtra_onward _).keeps ((Keeps.refl _).answers _ (havesOk_map _ fun x => ?_))
      split <;> simp

theorem frontCollided_onward (r : HoldRec) (f : Frame) : Onward s (frontCollided r f s) := by
  have popped := txPop_keeps (Keeps.refl s)
  unfold frontCollided
  split
  · exact (reportTo_keeps popped _ _ fun j => reportDropped_keeps popped j f).onward
  · exact (drawExtra_onward _).keeps ((Keeps.refl _).plain _)

theorem frameCut_onward (x : Sending) : Onward s (frameCut x s) := by
  unfold frameCut
  split
  · split
    · exact answerCollided_onward _ _
    · exact Onward.refl s
  · split
    · exact frontCollided_onward _ _
    · exact Onward.refl s
  · exact Onward.refl s

end Medium

section Effect
variable {c : Instr} {s t : State}

/-! ### What a command does -/

/-- The block of the issued write that ends has new contents; time may pass before (R42). -/
def WriteEnds (s t : State) : Prop :=
  ∃ op block u, s.med.issued = some op ∧ op.write = true ∧ Onward s u ∧ Onward (setStore op.addr block u) t

/-- What a command does, as far as the whole-machine statements speak of it: each change that an operation does not make. -/
inductive Effect : Instr → State → State → Prop where
  | onward {c : Instr} {s t : State} (h : Onward s t) : Effect c s t
  | reset {landed : Bool} {s t : State} (h : execHardwareReset landed s = .next t) : Effect (.hardwareReset landed) s t
  | image {image : Option (List Byte)} {s t : State} (cfg : Settings) (mute : Option MuteCause) (range : cfg.inRange) (phase : s.sul.phase = .image)
      (kept : mute = s.lif.mute ∨ mute.isSome = true)
      (h : Onward { s with sul.cfg := cfg, lif.lfsr := lfsrSeed cfg.address, lif.mute := mute } t) :
      Effect (.configImageRead image) s t
  | start {params : List Byte} {s t : State} (room : s.cat.counter < 134217727) (h : Onward { s with cat.counter := s.cat.counter + 1 } t) :
      Effect (.start params) s t
  | unmark {params : List Byte} {s t : State} (ready : s.cpe.port = .ready) (h : Onward { s with cat.mark := false } t) :
      Effect (.markInventory params) s t
  | write {c : Instr} {s t : State} (names : c = .mediaWriteTimeout ∨ ∃ ok, c = .mediaWriteComplete ok) (h : WriteEnds s t) : Effect c s t
  | mute {s t : State} (standing : s.muted = false) (h : Onward { s with lif.mute := some .duplicateAddress } t) :
      Effect .duplicateAddress s t

/-- A refused write is counted, up to the counter's end (R179). -/
theorem ignoreWrite_onward : Onward s (ignoreWrite s) := by
  refine ((Keeps.refl s).cpe { s.cpe with refused := satAdd 65535 s.cpe.refused 1 } id ?_).onward
  rintro ⟨events, lost, -, rest⟩
  exact ⟨events, lost, Nat.min_le_left .., rest⟩

/-- A record that is taken reloads the activity timer and acts; any other keeps the state onward (R179, R180). -/
theorem takeCommand_cases {code length : Nat} {params : List Byte} {act : State → State}
    (h : takeCommand code length params act s = .next t) : Onward s t ∨ s.cpe.port = .ready ∧ t = act (reload s) := by
  unfold takeCommand at h
  split at h
  · split at h
    · cases h; exact .inr ⟨‹_›, rfl⟩
    · cases h; exact .inl (respond_keeps (reload_keeps (Keeps.refl s)) _ _ _ _).onward
  · cases h; exact .inl ignoreWrite_onward

theorem takeCommand_onward {code length : Nat} {params : List Byte} {act : State → State}
    (h : takeCommand code length params act s = .next t) (keeps : Onward s (act (reload s))) : Onward s t := by
  rcases takeCommand_cases h with kept | ⟨-, rfl⟩
  · exact kept
  · exact keeps

/-- A good frame taken: its uses keep what every operation keeps (R75). -/
theorem takeFrameOf_onward {kind : Nat} {use : Frame → State → State} (h : takeFrameOf kind use s = .next t)
    (keeps : ∀ {a u : State} (_ : Keeps a u) (f : Frame), Keeps a (use f u)) : Onward s t := by
  unfold takeFrameOf at h
  split at h
  · split at h
    · cases h
      refine (Onward.medium (a := s) { s.lif with heard := none } rfl rfl rfl rfl rfl rfl).keeps
        (settle_keeps (keeps (u := if _ then _ else _) ?_ _))
      split
      · exact reload_keeps (Keeps.refl _)
      · exact Keeps.refl _
    · cases h
  · cases h

theorem countError_onward : Onward s (countError (clearHeard s)) :=
  Onward.lif _ rfl rfl fun ⟨_, rest⟩ => ⟨Nat.min_le_left .., rest⟩

/-- The settings R186's clamps leave lie in their ranges. -/
theorem loadSettings_inRange {b : List Byte} (length : b.length = 21) : (loadSettings b).1.inRange := by
  unfold loadSettings Settings.inRange
  dsimp only
  refine ⟨Nat.min_le_left .., ?_, ⟨by omega, by omega⟩, ⟨by omega, by omega⟩, Nat.min_le_left .., Nat.min_le_left .., ?_, ?_⟩
  · split
    · rename_i ok
      simpa [or_assoc] using ok
    · exact .inl rfl
  · simp [length]
  · simp only [List.mem_map]
    rintro k ⟨x, -, rfl⟩
    exact Nat.le_of_lt_succ x.isLt

theorem defaultSettings_inRange : defaultSettings.inRange := by
  refine ⟨by decide, .inl rfl, by decide, by decide, by decide, by decide, rfl, by decide⟩

/-- The seed of an address in its range is not 0 (R94). -/
theorem lfsrSeed_ne_zero {address : Nat} (h : address ≤ 31) : lfsrSeed address ≠ 0#16 := by
  intro zero
  have value := congrArg BitVec.toNat zero
  simp only [lfsrSeed, BitVec.toNat_ofNat, Nat.zero_mod] at value
  omega

/-- An event is counted and queued alike in LINK_MUTE. -/
theorem raise_muted (e : Event) (s : State) (mute : Option MuteCause) :
    { raise e s with lif.mute := mute, cat.notices := [], notes := [] }
      = raise e { s with lif.mute := mute, cat.notices := [], notes := [] } := by
  unfold raise
  dsimp only
  split
  · rfl
  · split <;> rfl

/-- Settings are taken, and LINK_MUTE empties the notes and the notices (R86, R186). -/
theorem takeSettings_onward (cfg : Settings) (mute : Option MuteCause) :
    Onward { s with sul.cfg := cfg, lif.lfsr := lfsrSeed cfg.address, lif.mute := mute }
      { takeSettings cfg true 0 s with lif.mute := mute, cat.notices := [], notes := [] } :=
  ⟨rfl, rfl, rfl, rfl, Upward.refl _, fun ⟨jobs, tables, port, counts, haves, queue, _⟩ =>
    ⟨jobs, tables, port, counts, haves, queue, Nat.zero_le _⟩, id⟩

/-- The defaults are taken with LINK_MUTE (R186). -/
theorem defaultConfig_onward (reason : DefaultReason) :
    Onward { s with sul.cfg := defaultSettings, lif.lfsr := lfsrSeed defaultSettings.address, lif.mute := some .configuration }
      (defaultConfig reason s) := by
  refine (takeSettings_onward defaultSettings (some .configuration)).keeps (enterMute_keeps ?_)
  rw [raise_muted]
  exact raise_keeps (Keeps.refl _) _

theorem readImage_effect (image : Option (List Byte)) (phase : s.sul.phase = .image) :
    Effect (.configImageRead image) s (readImage image s) := by
  have asked {cfg : Settings} {mute : Option MuteCause} {u : State} (n : Nat)
      (h : Onward { s with sul.cfg := cfg, lif.lfsr := lfsrSeed cfg.address, lif.mute := mute } u) :
      Onward { s with sul.cfg := cfg, lif.lfsr := lfsrSeed cfg.address, lif.mute := mute }
        { u with sul.phase := .capacity n } :=
    ⟨h.pending, h.settings, h.mute, h.store, ⟨fun complete => by simp [phase] at complete, h.upward.2⟩, h.sound, h.link⟩
  unfold readImage
  dsimp only
  split
  · exact .image defaultSettings (some .configuration) defaultSettings_inRange phase (.inr rfl)
      (asked _ (defaultConfig_onward _))
  · rename_i b
    split
    · rename_i good
      have length : b.length = 21 := by simp [imageGood] at good; exact good.1
      exact .image _ s.lif.mute (loadSettings_inRange length) phase (.inl rfl) (asked _ ⟨rfl, rfl, rfl, rfl, Upward.refl _, id, id⟩)
    · exact .image defaultSettings (some .configuration) defaultSettings_inRange phase (.inr rfl)
        (asked _ (defaultConfig_onward _))

/-- A reload changes ACT alone (R173). -/
theorem reload_act (s : State) : ∃ x, reload s = { s with act := x } := by
  unfold reload
  split
  · exact ⟨s.act, rfl⟩
  · exact ⟨_, rfl⟩

/-- START's effect: refused it keeps everything; accepted the counter rises by one, below its limit (R5, R53). -/
theorem startCapture_effect (params : List Byte) (x : Act) : Effect (.start params) s (startCapture { s with act := x }) := by
  have refused (result : Result) : Effect (.start params) s (refuse result 4 { s with act := x }) :=
    .onward ((Onward.act x).keeps (refuse_keeps (Keeps.refl _) result 4))
  unfold startCapture
  split
  · exact refused _
  · split
    · exact refused _
    · split
      · exact refused _
      · split
        · exact refused _
        · split
          · exact refused _
          · split
            · exact refused _
            · rename_i room
              split
              · refine .start (Nat.not_le.1 room) ?_
                exact (Onward.act (a := { s with cat.counter := s.cat.counter + 1 }) x).keeps (startTake_keeps _ _ _ _)
              · exact refused _

theorem finishWrite_ends {op : Issued} {u : State} (ok : Bool) (issued : s.med.issued = some op) (write : op.write = true)
    (h : Onward s u) : WriteEnds s (finishWrite op ok u) := by
  have ended : Keeps (storeAfter op ok { u with med.issued := none }) (finishWrite op ok u) :=
    settle_keeps (writeEnded_keeps (countAppend_keeps (markFault_keeps (Keeps.refl _) op ok) op ok) op ok _)
  cases ok with
  | true =>
    have stored : Onward (setStore op.addr op.data u) (storeAfter op true { u with med.issued := none }) :=
      ⟨rfl, rfl, rfl, rfl, Upward.refl _, id, id⟩
    exact ⟨op, op.data, u, issued, write, h, stored.keeps ended⟩
  | false =>
    have stored : Onward (setStore op.addr (takeFaultBlock u).1 u) (storeAfter op false { u with med.issued := none }) :=
      ⟨rfl, rfl, rfl, rfl, Upward.refl _, id, id⟩
    exact ⟨op, (takeFaultBlock u).1, u, issued, write, h, stored.keeps ended⟩

theorem mediaWriteComplete_effect {ok : Bool} (h : execMediaWriteComplete ok s = .next t) :
    Effect (.mediaWriteComplete ok) s t := by
  unfold execMediaWriteComplete at h
  split at h
  · split at h <;> cases h
    exact .write (.inr ⟨ok, rfl⟩) (finishWrite_ends ok ‹_› ‹_› (Onward.refl s))
  · cases h

theorem mediaWriteTimeout_effect (h : execMediaWriteTimeout s = .next t) : Effect .mediaWriteTimeout s t := by
  unfold execMediaWriteTimeout at h
  split at h
  · split at h <;> cases h
    exact .write (.inl rfl) (finishWrite_ends false ‹_› ‹_› (Onward.passTo _))
  · cases h

/-- A read's end hands its outcome to its requester, and leaves the store (R41). -/
theorem finishRead_onward {u : State} (op : Issued) (ok : Bool) (block : List Byte) (h : Onward s u) :
    Onward s (finishRead op ok block u) := h.trans (finishRead_keeps (Keeps.refl _) op ok block).onward

theorem mediaReadComplete_onward {readable : Bool} {data : ReplyData} (h : execMediaReadComplete readable data s = .next t) :
    Onward s t := by
  unfold execMediaReadComplete at h
  split at h
  · split at h <;> cases h
    exact finishRead_onward _ _ _ (Onward.refl s)
  · cases h

theorem mediaReadTimeout_onward (h : execMediaReadTimeout s = .next t) : Onward s t := by
  unfold execMediaReadTimeout at h
  split at h
  · split at h <;> cases h
    exact finishRead_onward _ _ _ (Onward.passTo _)
  · cases h

theorem sampleFrameIn_onward {whole : Bool} {high low : List Bool} (h : execSampleFrameIn whole high low s = .next t) :
    Onward s t := by
  unfold execSampleFrameIn at h
  split at h <;> cases h
  · split
    · exact (settle_keeps (modCapture_keeps (Keeps.refl s) _ _)).onward
    · exact Onward.refl s
  · exact Onward.refl s

theorem sampleFrameOut_onward {whole : Bool} {highEdges lowEdges : Nat}
    (h : execSampleFrameOut whole highEdges lowEdges s = .next t) : Onward s t := by
  unfold execSampleFrameOut at h
  split at h <;> cases h
  · obtain ⟨high, low, period⟩ := playPeriod_keeps (s := s) _ highEdges lowEdges _ _
    exact (Onward.lines high low).keeps (settle_keeps period)
  · exact Onward.lines [] []

theorem carrierAppears_onward (h : execCarrierAppears s = .next t) : Onward s t := by
  unfold execCarrierAppears at h
  dsimp only at h
  split at h
  · cases h
  · split at h <;> cases h
    · exact (Onward.medium (a := s) { s.lif with carrier := true } rfl rfl rfl rfl rfl rfl).trans hearCarrier_onward
    · exact Onward.medium (a := s) { s.lif with carrier := true, rxOpen := false } rfl rfl rfl rfl rfl rfl

theorem carrierEnds_onward {bytes : List Byte} (h : execCarrierEnds bytes s = .next t) : Onward s t := by
  unfold execCarrierEnds at h
  dsimp only at h
  split at h
  · cases h
  · split at h <;> cases h
    · have ended := Onward.medium (a := s) { s.lif with carrier := false, medium := .settling, absent := 0 }
        rfl rfl rfl rfl rfl rfl
      split
      · exact ended.trans (hearPeriod_onward bytes)
      · exact ended
    · exact Onward.medium (a := s) { s.lif with carrier := false, rxOpen := false } rfl rfl rfl rfl rfl rfl

theorem idleGapElapsed_onward (h : execIdleGapElapsed s = .next t) : Onward s t := by
  unfold execIdleGapElapsed at h
  dsimp only at h
  split at h <;> cases h
  exact ((Onward.passBitTimes _).trans (Onward.medium _ rfl rfl rfl rfl rfl rfl)).keeps
    (onRecords_keeps (Keeps.refl _) _ (resume_isHave _))

theorem slotPhaseEnd_onward {record : RecordId} (h : execSlotPhaseEnd record s = .next t) : Onward s t := by
  unfold execSlotPhaseEnd at h
  dsimp only at h
  split at h
  · split at h <;> cases h
    exact (Onward.passBitTimes _).keeps (onRecords_keeps (Keeps.refl _) _ (endSlots_isHave _))
  · cases h

theorem holdoffRelease_onward {record : RecordId} (h : execHoldoffRelease record s = .next t) : Onward s t := by
  unfold execHoldoffRelease at h
  split at h
  · split at h <;> cases h
    exact ((Onward.passBitTimes _).keeps (onRecords_keeps (Keeps.refl _) _ release_isHave)).trans startReleased_onward
  · cases h

theorem burstGapEnd_onward (h : execBurstGapEnd s = .next t) : Onward s t := by
  unfold execBurstGapEnd at h
  split at h <;> cases h
  exact ((Onward.passBitTimes _).trans (Onward.medium _ rfl rfl rfl rfl rfl rfl)).trans continueBurst_onward

theorem frameSent_onward (h : execFrameSent s = .next t) : Onward s t := by
  unfold execFrameSent at h
  dsimp only at h
  split at h
  · rename_i x sending
    cases h
    have last : Onward (passBitTimes (x.frame.bits - s.lif.sentBits) s)
        { passBitTimes (x.frame.bits - s.lif.sentBits) s with
          lif.lastSource := (passBitTimes (x.frame.bits - s.lif.sentBits) s).own } :=
      Onward.lif _ rfl rfl fun ⟨errors, collisions, lfsr, address, _⟩ => ⟨errors, collisions, lfsr, address, address⟩
    exact (((Onward.passBitTimes _).trans last).trans stopSending_onward).keeps
      (settle_keeps (afterFrame_keeps (frameGone_keeps (Keeps.refl _) x)))
  · cases h

theorem collision_onward (h : execCollision s = .next t) : Onward s t := by
  unfold execCollision at h
  dsimp only at h
  split at h
  · cases h
    have counted : Onward s { s with lif.collisions := satAdd 65535 s.lif.collisions 1 } :=
      Onward.lif _ rfl rfl fun ⟨errors, _, rest⟩ => ⟨errors, Nat.min_le_left .., rest⟩
    exact (((counted.trans stopSending_onward).keeps (endBurst_keeps (Keeps.refl _))).trans (frameCut_onward _)).keeps
      (settle_keeps (Keeps.refl _))
  · cases h

/-- Before start-up has completed, its phase may change. -/
theorem Onward.phase (incomplete : s.sul.phase ≠ .complete) (p : SulPhase) : Onward s { s with sul.phase := p } :=
  (Keeps.phase (Keeps.refl s) incomplete p).onward

theorem capacityReport_onward {blocks : Nat} (h : execCapacityReport blocks s = .next t) : Onward s t := by
  unfold execCapacityReport at h
  split at h
  · rename_i asked phase
    cases h
    have incomplete : s.sul.phase ≠ .complete := by simp [phase]
    have taken : Onward s (takeCapacity blocks s) := by
      unfold takeCapacity
      split
      · exact Onward.phase incomplete _
      · exact ⟨rfl, rfl, rfl, rfl, ⟨fun complete => absurd complete incomplete, id, id⟩,
          fun ⟨jobs, tables, rest⟩ => ⟨jobs, ⟨tables.1, rfl, tables.2.2⟩, rest⟩, id⟩
    exact taken.keeps (settle_keeps (Keeps.refl _))
  · cases h

theorem capacityTimeout_onward (h : execCapacityTimeout s = .next t) : Onward s t := by
  unfold execCapacityTimeout at h
  split at h
  · rename_i asked phase
    cases h
    exact (Onward.passTo _).trans (Onward.phase (by simp [phase]) _)
  · cases h

theorem storeReady_onward (h : execStoreReady s = .next t) : Onward s t := by
  unfold execStoreReady at h
  split at h <;> cases h
  exact (Onward.act _).keeps (settle_keeps (Keeps.refl _))

theorem responseRead_onward (h : execResponseRead s = .next t) : Onward s t := by
  have read (bytes : List Byte) : Onward s { s with cpe.out := bytes } :=
    ((Keeps.refl s).cpe { s.cpe with out := bytes } id id).onward
  unfold execResponseRead at h
  split at h
  · cases h; exact read _
  · cases h; exact read _
  · cases h; exact read _
  · rename_i waiting
    cases h
    refine ((Keeps.refl s).cpe { s.cpe with port := .ready, response := none, out := _ } (fun ⟨_, busy⟩ => ⟨?_, ?_⟩) id).onward
    · simp
    · rw [waiting] at busy
      simpa using busy

theorem duplicateAddress_effect (h : execDuplicateAddress s = .next t) : Effect .duplicateAddress s t := by
  have cleared : Onward s (clearHeard s) := Onward.medium (a := s) { s.lif with heard := none } rfl rfl rfl rfl rfl rfl
  unfold execDuplicateAddress at h
  split at h
  · dsimp only at h
    cases h
    split
    · exact .onward cleared
    · rename_i standing
      refine .mute (by simpa [State.muted, clearHeard] using standing) ?_
      have emptied : Onward { s with lif.mute := some .duplicateAddress }
          { clearHeard s with lif.mute := some .duplicateAddress, cat.notices := [], notes := [] } :=
        ⟨rfl, rfl, rfl, rfl, Upward.refl _, fun ⟨jobs, tables, port, counts, haves, queue, _⟩ =>
          ⟨jobs, tables, port, counts, haves, queue, Nat.zero_le _⟩, id⟩
      exact emptied.keeps (settle_keeps (enterMute_keeps (Keeps.refl _)))
  · cases h

/-! ### Node ticks and timers -/

theorem placementStart_onward (h : execPlacementStart s = .next t) : Onward s t := by
  cases h
  split
  · exact (settle_keeps (placementTick_keeps _ (Keeps.refl s))).onward
  · exact Onward.refl s

theorem automaticRepairStart_onward (h : execAutomaticRepairStart s = .next t) : Onward s t := by
  unfold execAutomaticRepairStart at h
  split at h
  · rename_i tests
    simp only [Bool.and_eq_true] at tests
    split at h <;> cases h
    · exact (settle_keeps (createRepair_keeps (Keeps.refl s) _ _ tests.2)).onward
    · exact Onward.refl s
  · cases h; exact Onward.refl s

theorem frameReoffer_onward {job : Nat} (h : execFrameReoffer job s = .next t) : Onward s t := by
  unfold execFrameReoffer at h
  split at h <;> cases h
  exact (flushOutbox_keeps (Keeps.refl s) job).onward

theorem bidWindowClose_onward (h : execBidWindowClose s = .next t) : Onward s t := by
  unfold execBidWindowClose at h
  split at h
  · split at h <;> cases h
    exact (Onward.passTo _).keeps (settle_keeps (closeWindow_keeps (Keeps.refl _) _))
  · cases h

theorem pledgedTimeout_onward {job : Nat} (h : execPledgedTimeout job s = .next t) : Onward s t := by
  unfold execPledgedTimeout at h
  split at h
  · split at h <;> cases h
    exact (Onward.passTo _).keeps (settle_keeps (endJob_keeps (Keeps.refl _) _ _ _))
  · cases h

theorem closeWaitTimeout_onward (h : execCloseWaitTimeout s = .next t) : Onward s t := by
  unfold execCloseWaitTimeout at h
  split at h
  · split at h <;> cases h
    exact (Onward.passTo _).keeps (settle_keeps (endJob_keeps (failAwaiting_keeps (Keeps.refl _) _) _ _ _))
  · cases h

theorem progressTimeout_onward {job member : Nat} (h : execProgressTimeout job member s = .next t) : Onward s t := by
  unfold execProgressTimeout at h
  split at h
  · split at h <;> cases h
    exact (Onward.passTo _).keeps (settle_keeps (progressPassed_keeps (Keeps.refl _) _ _))
  · cases h

theorem stepTimerExpiry_onward {job : Nat} (h : execStepTimerExpiry job s = .next t) : Onward s t := by
  unfold execStepTimerExpiry at h
  split at h
  · split at h <;> cases h
    exact (Onward.passTo _).keeps (settle_keeps (giveStep_keeps (Keeps.refl _) _))
  · cases h

theorem inactivityTimeout_onward {job : Nat} (h : execInactivityTimeout job s = .next t) : Onward s t := by
  unfold execInactivityTimeout at h
  split at h <;> cases h
  exact (Onward.passTo _).keeps (settle_keeps (inactive_keeps (Keeps.refl _) _ _))

theorem answerWindowExpiry_onward {job : Nat} (h : execAnswerWindowExpiry job s = .next t) : Onward s t := by
  unfold execAnswerWindowExpiry at h
  split at h <;> cases h
  exact (Onward.passTo _).keeps (settle_keeps (windowPassed_keeps (Keeps.refl _) _ _))

theorem grantWaitExpiry_onward {job : Nat} (h : execGrantWaitExpiry job s = .next t) : Onward s t := by
  unfold execGrantWaitExpiry at h
  split at h <;> cases h
  exact (Onward.passTo _).keeps (settle_keeps (grantFailed_keeps (Keeps.refl _) _ _))

theorem haveExpiry_onward {order : Nat} (h : execHaveExpiry order s = .next t) : Onward s t := by
  unfold execHaveExpiry at h
  split at h <;> cases h
  exact (Onward.passTo _).keeps (removeAnswers_keeps (Keeps.refl _) _)

theorem answerNoteLapse_onward {note : Nat} (h : execAnswerNoteLapse note s = .next t) : Onward s t := by
  unfold execAnswerNoteLapse at h
  dsimp only at h
  split at h <;> cases h
  refine (Onward.passTo _).keeps ((Keeps.refl _).notes _ fun room => ?_)
  exact (List.eraseIdx_sublist _ _).length_le.trans room

theorem activityTimerExpiry_onward (h : execActivityTimerExpiry s = .next t) : Onward s t := by
  unfold execActivityTimerExpiry at h
  split at h <;> cases h
  exact (Onward.passTo _).keeps (activityExpired_keeps (Keeps.refl _))

theorem wakeTimerExpiry_onward (h : execWakeTimerExpiry s = .next t) : Onward s t := by
  unfold execWakeTimerExpiry at h
  dsimp only at h
  split at h <;> cases h
  exact ((Onward.passTo _).trans (Onward.act _)).keeps (settle_keeps (Keeps.refl _))

theorem commandWriteIgnored_onward (h : execCommandWriteIgnored s = .next t) : Onward s t := by
  unfold execCommandWriteIgnored at h
  split at h <;> cases h
  exact ignoreWrite_onward

theorem unknownCommandCode_onward {record : List Byte} (h : execUnknownCommandCode record s = .next t) : Onward s t := by
  unfold execUnknownCommandCode at h
  dsimp only at h
  split at h
  · cases h
  · split at h <;> cases h
    · exact (respond_keeps (reload_keeps (Keeps.refl s)) _ _ _ _).onward
    · exact ignoreWrite_onward

/-- What a command does, command by command. -/
theorem exec_effect {c : Instr} (h : exec c s = .next t) : Effect c s t := by
  cases c with
  | hardwareReset landed => exact .reset h
  | configImageRead image =>
    change execConfigImageRead image s = .next t at h
    unfold execConfigImageRead at h
    split at h <;> cases h
    exact readImage_effect image ‹_›
  | capacityReport blocks => exact .onward (capacityReport_onward h)
  | capacityTimeout => exact .onward (capacityTimeout_onward h)
  | storeReady => exact .onward (storeReady_onward h)
  | status p => exact .onward (takeCommand_onward (h : execStatus p s = .next t) (respond_keeps (reload_keeps (Keeps.refl s)) _ _ _ _).onward)
  | inquire p => exact .onward (takeCommand_onward (h : execInquire p s = .next t) (respond_keeps (reload_keeps (Keeps.refl s)) _ _ _ _).onward)
  | arm p =>
    refine .onward (takeCommand_onward (h : execArm p s = .next t) ?_)
    rcases armCapture_keeps (reload_keeps (Keeps.refl s)) p with refused | armed
    · exact refused.onward
    · exact (Onward.lines [] []).keeps armed
  | start p =>
    rcases takeCommand_cases (h : execStart p s = .next t) with kept | ⟨-, rfl⟩
    · exact .onward kept
    · obtain ⟨x, reloaded⟩ := reload_act s
      rw [reloaded]
      exact startCapture_effect p x
  | stop p => exact .onward (takeCommand_onward (h : execStop p s = .next t) (stopCapture_keeps (reload_keeps (Keeps.refl s))).onward)
  | abort p => exact .onward (takeCommand_onward (h : execAbort p s = .next t) (abortTake_keeps (reload_keeps (Keeps.refl s))).onward)
  | retrieve p =>
    refine .onward (takeCommand_onward (h : execRetrieve p s = .next t) ?_)
    rcases retrieveTake_keeps (reload_keeps (Keeps.refl s)) p with refused | taken
    · exact refused.onward
    · exact (Onward.lines [] []).keeps taken
  | cancel p => exact .onward (takeCommand_onward (h : execCancel p s = .next t) (cancelJob_keeps (reload_keeps (Keeps.refl s)) p).onward)
  | labelWrite p => exact .onward (takeCommand_onward (h : execLabelWrite p s = .next t) (writeLabel_keeps (reload_keeps (Keeps.refl s)) p).onward)
  | labelRead p => exact .onward (takeCommand_onward (h : execLabelRead p s = .next t) (readLabel_keeps (reload_keeps (Keeps.refl s)) p).onward)
  | entryRead p => exact .onward (takeCommand_onward (h : execEntryRead p s = .next t) (readEntry_keeps (reload_keeps (Keeps.refl s)) p).onward)
  | withdraw p => exact .onward (takeCommand_onward (h : execWithdraw p s = .next t) (withdrawTake_keeps (reload_keeps (Keeps.refl s)) p).onward)
  | repair p => exact .onward (takeCommand_onward (h : execRepair p s = .next t) (repairTake_keeps (reload_keeps (Keeps.refl s)) p).onward)
  | eventRead p => exact .onward (takeCommand_onward (h : execEventRead p s = .next t) (readEvent_keeps (reload_keeps (Keeps.refl s))).onward)
  | markInventory p =>
    have row : execMarkInventory p s = .next t := h
    unfold execMarkInventory at row
    rcases takeCommand_cases row with kept | ⟨ready, rfl⟩
    · exact .onward kept
    · obtain ⟨x, reloaded⟩ := reload_act s
      rw [reloaded]
      exact .unmark ready ((Onward.act (a := { s with cat.mark := false }) x).keeps (respond_keeps (Keeps.refl _) _ _ _ _))
  | softReset p =>
    refine .onward (takeCommand_onward (h : execSoftReset p s = .next t) ((reload_keeps (Keeps.refl s)).onward.trans ?_))
    have cleared : Onward (reload s) { reload s with lif.errors := 0, lif.collisions := 0 } :=
      Onward.lif _ rfl rfl fun ⟨_, _, rest⟩ => ⟨Nat.zero_le _, Nat.zero_le _, rest⟩
    exact cleared.keeps softReset_keeps
  | commandWriteIgnored => exact .onward (commandWriteIgnored_onward h)
  | responseRead => exact .onward (responseRead_onward h)
  | mediaReadComplete readable data => exact .onward (mediaReadComplete_onward h)
  | mediaReadTimeout => exact .onward (mediaReadTimeout_onward h)
  | mediaWriteComplete ok => exact mediaWriteComplete_effect h
  | mediaWriteTimeout => exact mediaWriteTimeout_effect h
  | storeLateReply => cases h; exact .onward (Onward.refl s)
  | sampleFrameIn whole high low => exact .onward (sampleFrameIn_onward h)
  | sampleFrameOut whole highEdges lowEdges => exact .onward (sampleFrameOut_onward h)
  | carrierAppears => exact .onward (carrierAppears_onward h)
  | carrierEnds bytes => exact .onward (carrierEnds_onward h)
  | idleGapElapsed => exact .onward (idleGapElapsed_onward h)
  | slotPhaseEnd record => exact .onward (slotPhaseEnd_onward h)
  | holdoffRelease record => exact .onward (holdoffRelease_onward h)
  | burstGapEnd => exact .onward (burstGapEnd_onward h)
  | frameSent => exact .onward (frameSent_onward h)
  | collision => exact .onward (collision_onward h)
  | badFrame =>
    change execBadFrame s = .next t at h
    unfold execBadFrame at h
    split at h <;> cases h
    exact .onward countError_onward
  | malformedFrame =>
    change execMalformedFrame s = .next t at h
    unfold execMalformedFrame at h
    split at h <;> cases h
    exact .onward countError_onward
  | duplicateAddress => exact duplicateAddress_effect h
  | seekReceived => exact .onward (takeFrameOf_onward h useSeek_keeps)
  | haveReceived => exact .onward (takeFrameOf_onward h useHave_keeps)
  | grantReceived => exact .onward (takeFrameOf_onward h useGrant_keeps)
  | placeReceived => exact .onward (takeFrameOf_onward h usePlace_keeps)
  | bidReceived => exact .onward (takeFrameOf_onward h useBid_keeps)
  | assignReceived => exact .onward (takeFrameOf_onward h useAssign_keeps)
  | dataReceived => exact .onward (takeFrameOf_onward h useData_keeps)
  | stepReceived => exact .onward (takeFrameOf_onward h useStep_keeps)
  | doneReceived => exact .onward (takeFrameOf_onward h useDone_keeps)
  | noticeReceived => exact .onward (takeFrameOf_onward h useNotice_keeps)
  | abandonReceived => exact .onward (takeFrameOf_onward h useAbandon_keeps)
  | placementStart => exact .onward (placementStart_onward h)
  | automaticRepairStart => exact .onward (automaticRepairStart_onward h)
  | noticeListFlush => cases h; exact .onward (flushNotices_keeps (Keeps.refl s)).onward
  | frameReoffer job => exact .onward (frameReoffer_onward h)
  | bidWindowClose => exact .onward (bidWindowClose_onward h)
  | pledgedTimeout job => exact .onward (pledgedTimeout_onward h)
  | closeWaitTimeout => exact .onward (closeWaitTimeout_onward h)
  | progressTimeout job member => exact .onward (progressTimeout_onward h)
  | stepTimerExpiry job => exact .onward (stepTimerExpiry_onward h)
  | inactivityTimeout job => exact .onward (inactivityTimeout_onward h)
  | answerWindowExpiry job => exact .onward (answerWindowExpiry_onward h)
  | grantWaitExpiry job => exact .onward (grantWaitExpiry_onward h)
  | haveExpiry order => exact .onward (haveExpiry_onward h)
  | answerNoteLapse note => exact .onward (answerNoteLapse_onward h)
  | activityTimerExpiry => exact .onward (activityTimerExpiry_onward h)
  | wakeTimerExpiry => exact .onward (wakeTimerExpiry_onward h)
  | unknownCommandCode record => exact .onward (unknownCommandCode_onward h)

end Effect

section WholeMachine
variable {s t : State}

/-- A write of one block leaves every other (R40). -/
theorem storeBlock_setStore {addr a : Nat} (block : List Byte) (h : addr ≠ a) :
    (setStore addr block s).storeBlock a = s.storeBlock a := by
  unfold State.storeBlock setStore
  rw [smapGet_smapSet_ne _ _ h.symm]

theorem setStore_sound (addr : Nat) (block : List Byte) (h : s.Sound) : (setStore addr block s).Sound := by
  obtain ⟨jobs, ⟨entries, chunks, store⟩, rest⟩ := h
  exact ⟨jobs, ⟨entries, chunks, smapRising_smapSet _ _ store⟩, rest⟩

/-- The store at a reset is the store, or the store with the write in progress landed (R40). -/
theorem storeAtReset_cases (s : State) (landed : Bool) :
    s.storeAtReset landed = s.med.store
      ∨ ∃ op, s.med.issued = some op ∧ op.write = true ∧ s.storeAtReset landed = (setStore op.addr op.data s).med.store := by
  unfold State.storeAtReset
  split
  · rename_i op issued
    split
    · exact .inr ⟨op, issued, ‹_›, rfl⟩
    · exact .inl rfl
  · exact .inl rfl

theorem Onward.storeBlock (h : Onward s t) (a : Nat) : t.storeBlock a = s.storeBlock a := by
  unfold State.storeBlock
  rw [h.store]

end WholeMachine

/-- Settles O3: of a command's changes only those of a reset, of the image and of a duplicate address reach a setting or
LINK_MUTE. -/
theorem queueSettingsAndMuteStand : Obligations.QueueSettingsAndMuteStand := by
  intro c s t h
  have stands {u v : State} (same : v.lif.mute = u.lif.mute) :
      (u.muted = true → v.muted = true ∧ (u.complete = true → v.lif.mute = u.lif.mute)) ∧ (u.muted = false → ¬ v.muted = true) := by
    unfold State.muted
    rw [same]
    exact ⟨fun muted => ⟨muted, fun _ => rfl⟩, fun standing muted => by simp [standing] at muted⟩
  cases exec_effect h with
  | onward h =>
    obtain ⟨muted, standing⟩ := stands h.mute
    exact ⟨h.pending, fun _ _ => h.settings, fun _ => ⟨muted, fun no yes => absurd yes (standing no)⟩⟩
  | reset h =>
    cases h
    exact ⟨rfl, fun no => absurd rfl (no _), fun no => absurd rfl (no _)⟩
  | image cfg mute range phase kept h =>
    refine ⟨h.pending, fun _ no => absurd rfl (no _), fun _ => ⟨fun muted => ⟨?_, fun complete => ?_⟩, fun _ _ => .inr ⟨_, rfl⟩⟩⟩
    · unfold State.muted at muted ⊢
      rw [h.mute]
      rcases kept with same | muted'
      · exact same ▸ muted
      · exact muted'
    · simp [State.complete, phase] at complete
  | start room h =>
    obtain ⟨muted, standing⟩ := stands h.mute
    exact ⟨h.pending, fun _ _ => h.settings, fun _ => ⟨muted, fun no yes => absurd yes (standing no)⟩⟩
  | unmark ready h =>
    obtain ⟨muted, standing⟩ := stands h.mute
    exact ⟨h.pending, fun _ _ => h.settings, fun _ => ⟨muted, fun no yes => absurd yes (standing no)⟩⟩
  | write names h =>
    obtain ⟨op, block, u, -, -, before, after⟩ := h
    obtain ⟨muted, standing⟩ := stands (after.mute.trans before.mute)
    exact ⟨after.pending.trans before.pending, fun _ _ => after.settings.trans before.settings,
      fun _ => ⟨muted, fun no yes => absurd yes (standing no)⟩⟩
  | mute standing h =>
    refine ⟨h.pending, fun _ _ => h.settings, fun _ => ⟨fun muted => ?_, fun _ _ => .inl rfl⟩⟩
    rw [standing] at muted
    cases muted

/-- Settles O4: an operation leaves the store; the end of a write and a landed write set one block. -/
theorem storeChangesOnlyByWrites : Obligations.StoreChangesOnlyByWrites := by
  intro c s t h a other
  cases exec_effect h with
  | onward h => exact h.storeBlock a
  | reset h =>
    cases h
    have elsewhere := other.resolve_left fun no => no.2.2 _ rfl
    rcases storeAtReset_cases s _ with same | ⟨op, issued, write, landed⟩
    · unfold State.storeBlock
      dsimp only
      rw [same]
    · rw [← storeBlock_setStore (s := s) op.data (elsewhere op issued write)]
      unfold State.storeBlock
      dsimp only
      rw [landed]
  | image cfg mute range phase kept h => exact h.storeBlock a
  | start room h => exact h.storeBlock a
  | unmark ready h => exact h.storeBlock a
  | write names h =>
    obtain ⟨op, block, u, issued, write, before, after⟩ := h
    have elsewhere := other.resolve_left fun no => by
      rcases names with rfl | ⟨ok, rfl⟩
      · exact no.1 rfl
      · exact no.2.1 ok rfl
    rw [after.storeBlock, storeBlock_setStore block (elsewhere op issued write), before.storeBlock]
  | mute standing h => exact h.storeBlock a

/-- Settles O5: the reset state's tables and lists are empty, and its settings are the defaults. -/
theorem resetIsSound : Obligations.ResetIsSound := by
  refine ⟨⟨⟨rfl, by decide⟩, ⟨rfl, rfl, rfl⟩, ⟨by decide, by decide⟩,
      ⟨Nat.zero_le _, Nat.zero_le _, Nat.zero_le _, rfl, by decide⟩, Nat.zero_le _, Nat.zero_le _, Nat.zero_le _⟩,
    ⟨by decide, by decide, by decide, by decide, by decide⟩, defaultSettings_inRange⟩

section WholeMachine
variable {c : Instr} {s t : State}

/-- Every command keeps a sound state sound: a reset gives the reset state's tables and a store in canonical form. -/
theorem exec_sound (h : exec c s = .next t) (sound : s.Sound) : t.Sound := by
  cases exec_effect h with
  | onward h => exact h.sound sound
  | reset h =>
    cases h
    obtain ⟨⟨jobs, ⟨entries, chunks, -⟩, rest⟩, -⟩ := resetIsSound
    obtain ⟨-, ⟨-, -, store⟩, -⟩ := id sound
    refine ⟨jobs, ⟨entries, chunks, ?_⟩, rest⟩
    rcases storeAtReset_cases s _ with same | ⟨op, -, -, landed⟩
    · exact same ▸ store
    · exact landed ▸ smapRising_smapSet _ _ store
  | image cfg mute range phase kept h => exact h.sound sound
  | start room h => exact h.sound sound
  | unmark ready h => exact h.sound sound
  | write names h =>
    obtain ⟨op, block, u, -, -, before, after⟩ := h
    exact after.sound (setStore_sound _ _ (before.sound sound))
  | mute standing h => exact h.sound sound

/-- Every command keeps the link's bounds and the settings' ranges. -/
theorem exec_bounds (h : exec c s = .next t) : (s.LinkSound → t.LinkSound) ∧ (s.sul.cfg.inRange → t.sul.cfg.inRange) := by
  have same {u v : State} (settings : v.sul.cfg = u.sul.cfg) (range : u.sul.cfg.inRange) :
      v.sul.cfg.inRange := settings ▸ range
  cases exec_effect h with
  | onward h => exact ⟨h.link, same h.settings⟩
  | reset h => cases h; exact ⟨fun _ => resetIsSound.2.1, fun _ => resetIsSound.2.2⟩
  | image cfg mute range phase kept h =>
    refine ⟨fun ⟨errors, collisions, _, _, last⟩ => h.link ⟨errors, collisions, lfsrSeed_ne_zero range.1, range.1, last⟩,
      fun _ => h.settings ▸ range⟩
  | start room h => exact ⟨h.link, same h.settings⟩
  | unmark ready h => exact ⟨h.link, same h.settings⟩
  | write names h =>
    obtain ⟨op, block, u, -, -, before, after⟩ := h
    exact ⟨after.link ∘ before.link, same (after.settings.trans before.settings)⟩
  | mute standing h => exact ⟨h.link, same h.settings⟩

end WholeMachine

/-- Settles O6: a command keeps soundness by `exec_sound`, and so does a unit of time. -/
theorem soundKeptByEveryStep : Obligations.SoundKeptByEveryStep := by
  intro s t sound h
  unfold step at h
  split at h
  · cases h; exact (Onward.passUnits 1).sound sound
  · exact exec_sound h sound

/-- Settles O7: a command keeps the bounds by `exec_bounds`, and so does a unit of time. -/
theorem boundsKeptByEveryStep : Obligations.BoundsKeptByEveryStep := by
  intro s t h
  unfold step at h
  split at h
  · cases h
    have time := Onward.passUnits (a := s) 1
    exact ⟨time.link, fun range => time.settings ▸ range⟩
  · rename_i c rest _
    exact exec_bounds (s := { s with pending := rest }) h

/-- Settles O8: START raises the counter and MARK_INVENTORY clears the mark; every other change lets them stand. -/
theorem counterMarkAndFaultFlag : Obligations.CounterMarkAndFaultFlag := by
  intro c s t h
  have complete {u : State} : u.complete = true ↔ u.sul.phase = .complete := by simp [State.complete]
  cases exec_effect h with
  | onward h =>
    obtain ⟨phase, mark, fault⟩ := h.upward
    refine ⟨fun _ done => ?_, fun marked => .inl (mark marked), fun _ => fault⟩
    obtain ⟨still, counter⟩ := phase (complete.1 done)
    exact ⟨complete.2 still, .inl counter⟩
  | reset h =>
    cases h
    exact ⟨fun no => absurd rfl (no _), fun _ => .inl rfl, fun no => absurd rfl (no _)⟩
  | image cfg mute range phase kept h =>
    refine ⟨fun _ done => ?_, fun marked => .inl (h.upward.2.1 marked), fun _ => h.upward.2.2⟩
    simp [complete, phase] at done
  | start room h =>
    obtain ⟨phase, mark, fault⟩ := h.upward
    refine ⟨fun _ done => ?_, fun marked => .inl (mark marked), fun _ => fault⟩
    obtain ⟨still, counter⟩ := phase (complete.1 done)
    exact ⟨complete.2 still, .inr ⟨⟨_, rfl⟩, room, counter⟩⟩
  | unmark ready h =>
    obtain ⟨phase, -, fault⟩ := h.upward
    refine ⟨fun _ done => ?_, fun _ => .inr ⟨⟨_, rfl⟩, ready⟩, fun _ => fault⟩
    obtain ⟨still, counter⟩ := phase (complete.1 done)
    exact ⟨complete.2 still, .inl counter⟩
  | write names h =>
    obtain ⟨op, block, u, -, -, before, after⟩ := h
    obtain ⟨phase, mark, fault⟩ := before.upward.trans (b := u) (c := t) after.upward
    refine ⟨fun _ done => ?_, fun marked => .inl (mark marked), fun _ => fault⟩
    obtain ⟨still, counter⟩ := phase (complete.1 done)
    exact ⟨complete.2 still, .inl counter⟩
  | mute standing h =>
    obtain ⟨phase, mark, fault⟩ := h.upward
    refine ⟨fun _ done => ?_, fun marked => .inl (mark marked), fun _ => fault⟩
    obtain ⟨still, counter⟩ := phase (complete.1 done)
    exact ⟨complete.2 still, .inl counter⟩

end Sys2Proof.Machine

/-! ## Proofs: the command port

SUPPORT. Which commands take a record and with what (R180), what a field of a layout reads (R191), the bytes of STATUS and
INQUIRE, the tag rotation (R189), and the port's statements settled from these. -/

namespace Sys2Proof.Machine

section Layout
variable {a b : List Byte}

/-! ### Reading a layout (R191) -/

@[simp] theorem length_beBytes (w v : Nat) : (beBytes w v).length = w := by
  induction w generalizing v with
  | zero => rfl
  | succ w ih => simp [beBytes, ih]

@[simp] theorem length_fitBytes (n : Nat) (l : List Byte) : (fitBytes n l).length = n := by
  simp [fitBytes]; omega

theorem beNat_append_singleton (l : List Byte) (x : Byte) : beNat (l ++ [x]) = beNat l * 256 + x.toNat := by
  simp [beNat]

/-- A number written in `w` bytes is read back, as far as they hold it (R191). -/
theorem beNat_beBytes (w v : Nat) : beNat (beBytes w v) = v % 256 ^ w := by
  induction w generalizing v with
  | zero => simp [beBytes, beNat, Nat.mod_one]
  | succ w ih =>
    have low : (BitVec.ofNat 8 v).toNat = v % 256 := BitVec.toNat_ofNat ..
    rw [beBytes, beNat_append_singleton, ih, low, Nat.pow_succ, Nat.mul_comm (256 ^ w) 256, Nat.mod_mul,
      Nat.mul_comm (v / 256 % 256 ^ w) 256, Nat.add_comm]

/-- A field behind the first part of a layout. -/
theorem fieldAt_append_right {i w : Nat} (h : a.length ≤ i) : fieldAt (a ++ b) i w = fieldAt b (i - a.length) w := by
  rw [fieldAt, fieldAt, List.drop_append, List.drop_eq_nil_of_le h, List.nil_append]

/-- A field inside the first part of a layout. -/
theorem fieldAt_append_left {i w : Nat} (h : i + w ≤ a.length) : fieldAt (a ++ b) i w = fieldAt a i w := by
  rw [fieldAt, fieldAt, List.drop_append, List.take_append, List.length_drop, Nat.sub_eq_zero_of_le (n := w) (by omega),
    List.take_zero, List.append_nil]

/-- A field that is the whole of a layout. -/
theorem fieldAt_whole {w : Nat} (h : a.length = w) : fieldAt a 0 w = beNat a := by
  rw [fieldAt, List.drop_zero, ← h, List.take_length]

@[simp] theorem fieldAt_beBytes (w v : Nat) : fieldAt (beBytes w v) 0 w = v % 256 ^ w := by
  rw [fieldAt_whole (length_beBytes w v), beNat_beBytes]

theorem fieldAt_singleton (x : Byte) : fieldAt [x] 0 1 = x.toNat := by simp [fieldAt, beNat]

/-- Zeros read as 0. -/
theorem fieldAt_zeros (n i w : Nat) : fieldAt (List.replicate n 0) i w = 0 := by
  have zeros (n : Nat) : beNat (List.replicate n 0) = 0 := by
    induction n with
    | zero => rfl
    | succ n ih => rw [List.replicate_succ', beNat_append_singleton, ih]; rfl
  rw [fieldAt, List.drop_replicate, List.take_replicate, zeros]

/-- Item `k` of a list of numbers laid out in `w` bytes each. -/
theorem fieldAt_flatMap {w k n : Nat} {l : List Nat} (h : l[k]? = some n) :
    fieldAt (l.flatMap (beBytes w ·)) (w * k) w = n % 256 ^ w := by
  induction l generalizing k with
  | nil => cases h
  | cons x rest ih =>
    rw [List.flatMap_cons]
    cases k with
    | zero =>
      cases h
      rw [Nat.mul_zero, fieldAt_append_left (by simp), fieldAt_beBytes]
    | succ k =>
      rw [fieldAt_append_right (by simp [Nat.mul_succ]), length_beBytes, Nat.mul_succ, Nat.add_sub_cancel]
      exact ih h

/-- A field inside part `k` of a layout in parts, given the parts' lengths. -/
theorem fieldAt_part {parts : List (List Byte)} {lengths : List Nat} (hl : parts.map List.length = lengths) {k : Nat}
    {part : List Byte} (hk : parts[k]? = some part) {n i w : Nat} (hn : (lengths.take k).sum + i = n)
    (inside : i + w ≤ part.length) : fieldAt parts.flatten n w = fieldAt part i w := by
  subst hl hn
  induction parts generalizing k with
  | nil => cases hk
  | cons p rest ih =>
    rw [List.flatten_cons]
    cases k with
    | zero =>
      cases hk
      rw [List.take_zero, List.sum_nil, Nat.zero_add, fieldAt_append_left inside]
    | succ k =>
      rw [List.map_cons, List.take_succ_cons, List.sum_cons, fieldAt_append_right (by omega), Nat.add_assoc,
        Nat.add_sub_cancel_left]
      exact ih hk

end Layout

section Status
variable (s : State)

/-! ### STATUS (R181, R194) -/

@[simp] theorem length_jobItem (state : Nat) (job : Job) : (jobItem state job).length = 6 := by simp [jobItem]

@[simp] theorem length_captureItem : s.captureItem.length = 6 := by unfold State.captureItem; split <;> simp

@[simp] theorem length_replicateItem : s.replicateItem.length = 6 := by unfold State.replicateItem; split <;> simp

@[simp] theorem length_playItem : s.playItem.length = 10 := by unfold State.playItem; split <;> simp

@[simp] theorem length_repairItem : s.repairItem.length = 6 := by unfold State.repairItem; split <;> simp

/-- The parts of STATUS (R194). -/
def State.statusParts : List (List Byte) :=
  [beBytes 1 s.cat.mark.toNat, beBytes 1 s.cat.fault.toNat, s.captureItem, beBytes 2 (s.jt.jobs.map fun p => p.2.slotsInUse).sum,
    s.replicateItem, s.playItem, s.repairItem, beBytes 2 (s.countKind .serve),
    beBytes 2 (s.countJobs fun job => job.kind == .receive && !job.pledged), beBytes 2 (s.countJobs Job.pledged),
    beBytes 2 s.med.free, beBytes 2 s.med.pledged, beBytes 2 s.med.bad, beBytes 2 s.lif.errors, beBytes 2 s.lif.collisions,
    beBytes 2 s.lif.queue.length, beBytes 1 s.lif.lastSource, beBytes 2 s.hou.answers.length,
    beBytes 1 ((s.lif.mute.map MuteCause.code).getD 0), beBytes 1 s.act.state.code, beBytes 1 s.act.dozeDue.toNat,
    beBytes 2 s.cpe.refused, beBytes 2 s.cpe.lost, beBytes 2 s.cpe.events.length, s.cpe.seen.flatMap (beBytes 2 ·)]

theorem statusData_eq : s.statusData = s.statusParts.flatten := by
  unfold State.statusData State.statusParts
  simp only [List.flatten_cons, List.flatten_nil, List.append_nil, List.append_assoc]

theorem statusParts_lengths (h : s.cpe.seen.length = 8) : s.statusParts.map List.length
    = [1, 1, 6, 2, 6, 10, 6, 2, 2, 2, 2, 2, 2, 2, 2, 2, 1, 2, 1, 1, 1, 2, 2, 2, 16] := by
  simp [State.statusParts, h]

theorem length_statusData (h : s.cpe.seen.length = 8) : s.statusData.length = 78 := by
  rw [statusData_eq, List.length_flatten, statusParts_lengths s h]
  rfl

/-- A field of STATUS, by the part it lies in. -/
theorem fieldAt_statusData {s : State} (h : s.cpe.seen.length = 8) (k i : Nat) {n w : Nat} {part : List Byte}
    (hk : s.statusParts[k]? = some part)
    (hn : ([1, 1, 6, 2, 6, 10, 6, 2, 2, 2, 2, 2, 2, 2, 2, 2, 1, 2, 1, 1, 1, 2, 2, 2, 16].take k).sum + i = n)
    (inside : i + w ≤ part.length) : fieldAt s.statusData n w = fieldAt part i w := by
  rw [statusData_eq]
  exact fieldAt_part (statusParts_lengths s h) hk hn inside

/-- A number of STATUS, by its part. -/
theorem statusNumber {s : State} (h : s.cpe.seen.length = 8) (k : Nat) {n w v : Nat} (hk : s.statusParts[k]? = some (beBytes w v))
    (hn : ([1, 1, 6, 2, 6, 10, 6, 2, 2, 2, 2, 2, 2, 2, 2, 2, 1, 2, 1, 1, 1, 2, 2, 2, 16].take k).sum + 0 = n) :
    fieldAt s.statusData n w = v % 256 ^ w := by
  rw [fieldAt_statusData h k 0 hk hn (by simp), fieldAt_beBytes]

/-- The state, job tag and take number of a job's item. -/
theorem fieldAt_jobItem (state : Nat) (job : Job) :
    fieldAt (jobItem state job) 0 1 = state % 256 ∧ fieldAt (jobItem state job) 1 1 = job.tag % 256
      ∧ fieldAt (jobItem state job) 2 4 = takeValue job.take % 4294967296 := by
  have parts : jobItem state job = [beBytes 1 state, beBytes 1 job.tag, beBytes 4 (takeValue job.take)].flatten := by
    simp [jobItem]
  have lengths : [beBytes 1 state, beBytes 1 job.tag, beBytes 4 (takeValue job.take)].map List.length = [1, 1, 4] := by simp
  rw [parts, fieldAt_part lengths (n := 0) (k := 0) (i := 0) rfl rfl (by simp),
    fieldAt_part lengths (n := 1) (k := 1) (i := 0) rfl rfl (by simp),
    fieldAt_part lengths (n := 2) (k := 2) (i := 0) rfl rfl (by simp)]
  simp

/-- The item of a job at part `k`, or of none. -/
theorem statusItem {s : State} (h : s.cpe.seen.length = 8) (k : Nat) {n m l state : Nat} {job : Job} {rest : List Byte}
    (hk : s.statusParts[k]? = some (jobItem state job ++ rest))
    (hn : ([1, 1, 6, 2, 6, 10, 6, 2, 2, 2, 2, 2, 2, 2, 2, 2, 1, 2, 1, 1, 1, 2, 2, 2, 16].take k).sum = n) (hm : n + 1 = m)
    (hl : n + 2 = l) :
    fieldAt s.statusData n 1 = state % 256 ∧ fieldAt s.statusData m 1 = job.tag % 256
      ∧ fieldAt s.statusData l 4 = takeValue job.take % 4294967296 := by
  subst hm hl
  have room : 6 ≤ (jobItem state job ++ rest).length := by simp
  rw [fieldAt_statusData h k 0 hk hn (by omega), fieldAt_statusData h k 1 hk (by rw [hn]) (by omega),
    fieldAt_statusData h k 2 hk (by rw [hn]) (by omega), fieldAt_append_left (by simp), fieldAt_append_left (by simp),
    fieldAt_append_left (by simp)]
  exact fieldAt_jobItem state job

/-- An item with no job reads 0. -/
theorem statusZeros {s : State} (h : s.cpe.seen.length = 8) (k i : Nat) {n w z : Nat}
    (hk : s.statusParts[k]? = some (List.replicate z 0))
    (hn : ([1, 1, 6, 2, 6, 10, 6, 2, 2, 2, 2, 2, 2, 2, 2, 2, 1, 2, 1, 1, 1, 2, 2, 2, 16].take k).sum + i = n)
    (inside : i + w ≤ z) : fieldAt s.statusData n w = 0 := by
  rw [fieldAt_statusData h k i hk hn (by simpa using inside), fieldAt_zeros]

theorem captureItem_none {s : State} (h : s.findKind .capture = none) : s.captureItem = List.replicate 6 0 := by
  simp [State.captureItem, State.captureJob, h]

theorem captureItem_some {s : State} {j : Nat} {job : Job} {c : CaptureJob} (h : s.captureJob = some (j, job, c)) :
    s.captureItem = jobItem c.state.code job := by
  simp [State.captureItem, h]

theorem replicateItem_none {s : State} (h : s.findKind .replicate = none) : s.replicateItem = List.replicate 6 0 := by
  simp [State.replicateItem, h]

theorem replicateItem_some {s : State} {j : Nat} {job : Job} {r : ReplicateJob} (h : s.findKind .replicate = some (j, job))
    (hb : job.body = .replicate r) : s.replicateItem = jobItem r.state.code job := by
  simp [State.replicateItem, h, Job.replicateOf, hb]

theorem playItem_none {s : State} (h : s.findKind .play = none) : s.playItem = List.replicate 10 0 := by
  simp [State.playItem, h]

/-- The source STATUS gives for a PLAY job (R194; log 30). -/
def State.statusSource (s : State) (p : PlayJob) : Nat :=
  match p.state with
  | .localStore => s.own
  | .seeking => 255
  | _ => p.holder.getD 255

theorem playItem_some {s : State} {j : Nat} {job : Job} {p : PlayJob} (h : s.findKind .play = some (j, job))
    (hb : job.body = .play p) : s.playItem
      = jobItem p.state.code job ++ (beBytes 1 (s.statusSource p) ++ (beBytes 1 p.started.toNat ++ beBytes 2 p.underruns)) := by
  simp only [State.playItem, h, Job.playOf, hb, Option.bind_some, Option.map_some, List.append_assoc, State.statusSource,
    State.playSource]
  cases p.state <;> rfl

theorem repairItem_none {s : State} (h : s.findKind .repair = none) : s.repairItem = List.replicate 6 0 := by
  simp [State.repairItem, h]

theorem repairItem_some {s : State} {j : Nat} {job : Job} {r : RepairJob} (h : s.findKind .repair = some (j, job))
    (hb : job.body = .repair r) : s.repairItem = jobItem r.state.code job := by
  simp [State.repairItem, h, Job.repairOf, hb]

theorem slotsInUse_eq (job : Job) : job.slotsInUse = match job.body with
    | .capture c => c.ring.length + c.closed.length + (if c.filling.isSome then 1 else 0)
    | .play p => p.slots.length
    | _ => 0 := by
  unfold Job.slotsInUse
  cases job.body <;> rfl

theorem receiving_eq (job : Job) : (job.kind == .receive && !job.pledged) = match job.body with
    | .receive r => r.receiving
    | _ => false := by
  unfold Job.kind Job.pledged
  cases job.body <;> simp [JobBody.kind]

theorem pledged_eq (job : Job) : job.pledged = match job.body with
    | .receive r => !r.receiving
    | _ => false := by
  unfold Job.pledged
  cases job.body <;> rfl

theorem reload_state (s : State) : (reload s).act.state = s.act.state := by
  unfold reload
  split <;> rfl

end Status

theorem toNat_mod_256 (b : Bool) : b.toNat % 256 = b.toNat := by cases b <;> rfl

/-- STATUS, taken in READY. -/
theorem exec_status {s : State} (hp : s.cpe.port = .ready) :
    exec (.status []) s = .next (respond .ok 1 0 (reload s).statusData (reload s)) := by
  have row : exec (.status []) s = execStatus [] s := rfl
  rw [row]
  unfold execStatus
  exact takeCommand_ready (fun s => respond .ok 1 0 s.statusData s) hp rfl

/-- INQUIRE, taken in READY. -/
theorem exec_inquire {s : State} (hp : s.cpe.port = .ready) :
    exec (.inquire []) s = .next (respond .ok 2 0 (reload s).inquireData (reload s)) := by
  have row : exec (.inquire []) s = execInquire [] s := rfl
  rw [row]
  unfold execInquire
  exact takeCommand_ready (fun s => respond .ok 2 0 s.inquireData s) hp rfl

/-- The port's item of the PLAY job: its source, whether output has started, and its underruns. -/
theorem fieldAt_statusPlay {s : State} (h : s.cpe.seen.length = 8) {j : Nat} {job : Job} {p : PlayJob}
    (found : s.findKind .play = some (j, job)) (hb : job.body = .play p) :
    fieldAt s.statusData 22 1 = s.statusSource p % 256 ∧ fieldAt s.statusData 23 1 = p.started.toNat
      ∧ fieldAt s.statusData 24 2 = p.underruns % 65536 := by
  let parts : List (List Byte) :=
    [jobItem p.state.code job, beBytes 1 (s.statusSource p), beBytes 1 p.started.toNat, beBytes 2 p.underruns]
  have lengths : parts.map List.length = [6, 1, 1, 2] := by simp [parts]
  have whole : parts.flatten = jobItem p.state.code job
      ++ (beBytes 1 (s.statusSource p) ++ (beBytes 1 p.started.toNat ++ beBytes 2 p.underruns)) := by simp [parts]
  have item : s.statusParts[5]? = some parts.flatten := congrArg some ((playItem_some found hb).trans whole.symm)
  have room : parts.flatten.length = 10 := by rw [List.length_flatten, lengths]; rfl
  rw [fieldAt_statusData h 5 6 (n := 22) item rfl (by omega), fieldAt_statusData h 5 7 (n := 23) item rfl (by omega),
    fieldAt_statusData h 5 8 (n := 24) item rfl (by omega), fieldAt_part lengths (k := 1) (i := 0) (n := 6) rfl rfl (by simp),
    fieldAt_part lengths (k := 2) (i := 0) (n := 7) rfl rfl (by simp),
    fieldAt_part lengths (k := 3) (i := 0) (n := 8) rfl rfl (by simp), fieldAt_beBytes, fieldAt_beBytes, fieldAt_beBytes]
  exact ⟨rfl, toNat_mod_256 _, rfl⟩

/-- The events seen, kind by kind, at the end of STATUS. -/
theorem fieldAt_statusSeen {s : State} (h : s.cpe.seen.length = 8) {k n : Nat} (hk : k < 8) (hn : s.cpe.seen[k]? = some n) :
    fieldAt s.statusData (62 + 2 * k) 2 = n % 65536 := by
  have length : (s.cpe.seen.flatMap (beBytes 2 ·)).length = 16 := by
    simp [List.length_flatMap, h]
  rw [fieldAt_statusData h 24 (2 * k) (n := 62 + 2 * k) rfl rfl (by omega), fieldAt_flatMap hn]
  rfl

/-- Settles O12: each item is one of the parts of STATUS, and is read at that part's place. -/
theorem statusAnswersTheTable : Obligations.StatusAnswersTheTable := by
  intro s hp h
  obtain ⟨x, reloaded⟩ := reload_act s
  have state := reload_state s
  refine ⟨(reload s).statusData, exec_status hp, ?_⟩
  rw [reloaded] at state ⊢
  let u : State := { s with act := x }
  have hu : u.cpe.seen.length = 8 := h
  refine ⟨length_statusData u hu, (statusNumber hu 0 rfl rfl).trans (toNat_mod_256 _),
    (statusNumber hu 1 rfl rfl).trans (toNat_mod_256 _), fun none => ?captureNone, fun j job c some => ?capture, ?slots,
    fun j job r some body => ?replicate, fun none => ?replicateNone, fun none => ?playNone, fun j job p some body => ?play,
    fun j job r some body => ?repair, fun none => ?repairNone, statusNumber hu 7 rfl rfl, ?receiving, ?pledged,
    statusNumber hu 10 rfl rfl, statusNumber hu 11 rfl rfl, statusNumber hu 12 rfl rfl, statusNumber hu 13 rfl rfl,
    statusNumber hu 14 rfl rfl, statusNumber hu 15 rfl rfl, statusNumber hu 16 rfl rfl, statusNumber hu 17 rfl rfl,
    ?mute, ?act, (statusNumber hu 20 rfl rfl).trans (toNat_mod_256 _), statusNumber hu 21 rfl rfl, statusNumber hu 22 rfl rfl,
    statusNumber hu 23 rfl rfl, fun k n hk hn => fieldAt_statusSeen hu hk hn⟩
  case captureNone =>
    have item := captureItem_none (s := u) none
    exact ⟨statusZeros hu 2 0 (congrArg Option.some item) rfl (by decide),
      statusZeros hu 2 1 (congrArg Option.some item) rfl (by decide),
      statusZeros hu 2 2 (congrArg Option.some item) rfl (by decide)⟩
  case capture =>
    have item := captureItem_some (s := u) some
    obtain ⟨hs, ht, htake⟩ := statusItem hu 2 (rest := []) (by rw [List.append_nil, ← item]; rfl) rfl rfl rfl
    refine ⟨hs.trans ?_, ht, htake⟩
    cases c.state <;> rfl
  case slots =>
    refine (statusNumber hu 3 rfl rfl).trans ?_
    rw [funext fun p : Nat × Job => slotsInUse_eq p.2]
    rfl
  case replicate =>
    have item := replicateItem_some (s := u) some body
    obtain ⟨hs, ht, htake⟩ := statusItem hu 4 (rest := []) (by rw [List.append_nil, ← item]; rfl) rfl rfl rfl
    refine ⟨hs.trans ?_, ht, htake⟩
    cases r.state <;> rfl
  case replicateNone =>
    have item := replicateItem_none (s := u) none
    exact ⟨statusZeros hu 4 0 (congrArg Option.some item) rfl (by decide),
      statusZeros hu 4 1 (congrArg Option.some item) rfl (by decide),
      statusZeros hu 4 2 (congrArg Option.some item) rfl (by decide)⟩
  case playNone =>
    have item := playItem_none (s := u) none
    exact ⟨statusZeros hu 5 0 (congrArg Option.some item) rfl (by decide),
      statusZeros hu 5 1 (congrArg Option.some item) rfl (by decide),
      statusZeros hu 5 2 (congrArg Option.some item) rfl (by decide),
      statusZeros hu 5 6 (congrArg Option.some item) rfl (by decide),
      statusZeros hu 5 7 (congrArg Option.some item) rfl (by decide),
      statusZeros hu 5 8 (congrArg Option.some item) rfl (by decide)⟩
  case play =>
    have item := playItem_some (s := u) some body
    obtain ⟨hs, ht, htake⟩ := statusItem hu 5 (congrArg Option.some item) rfl rfl rfl
    obtain ⟨source, started, underruns⟩ := fieldAt_statusPlay hu some body
    refine ⟨hs.trans ?_, ht, htake, source.trans ?_, started, underruns⟩
    · cases p.state <;> rfl
    · unfold State.statusSource
      cases p.state <;> rfl
  case repair =>
    have item := repairItem_some (s := u) some body
    obtain ⟨hs, ht, htake⟩ := statusItem hu 6 (rest := []) (by rw [List.append_nil, ← item]; rfl) rfl rfl rfl
    refine ⟨hs.trans ?_, ht, htake⟩
    cases r.state <;> rfl
  case repairNone =>
    have item := repairItem_none (s := u) none
    exact ⟨statusZeros hu 6 0 (congrArg Option.some item) rfl (by decide),
      statusZeros hu 6 1 (congrArg Option.some item) rfl (by decide),
      statusZeros hu 6 2 (congrArg Option.some item) rfl (by decide)⟩
  case receiving =>
    refine (statusNumber hu 8 rfl rfl).trans ?_
    rw [funext receiving_eq]
    rfl
  case pledged =>
    refine (statusNumber hu 9 rfl rfl).trans ?_
    rw [funext pledged_eq]
    rfl
  case mute =>
    refine (statusNumber hu 18 rfl rfl).trans ?_
    cases mute : u.lif.mute with
    | none => rfl
    | some cause => cases cause <;> rfl
  case act =>
    refine (statusNumber hu 19 rfl rfl).trans ?_
    rw [show u.act.state = s.act.state from state]
    cases s.act.state <;> rfl

section Inquire
variable (s : State)

/-! ### INQUIRE (R181, R194) -/

/-- The parts of INQUIRE (R194). -/
def State.inquireParts : List (List Byte) :=
  [[0x43, 0x6F, 0x6C, 0x64, 0x65, 0x73, 0x74, 0x61, 0x47, 0x4E, 0x33, 0x32, 0x30], [Config.revision],
    beBytes 1 s.sul.cfg.address, beBytes 1 s.sul.cfg.linkRate, beBytes 1 s.sul.cfg.copiesWanted,
    beBytes 1 s.sul.cfg.burstLimit, fitBytes 9 (s.sul.cfg.knots.map (BitVec.ofNat 8 ·)), beBytes 2 s.sul.cfg.dozeDelay,
    beBytes 2 s.sul.cfg.sleepDelay, beBytes 1 s.sul.cfg.autoRepair.toNat, [s.sul.cfg.eventMask],
    beBytes 1 s.sul.defaulted.toNat, [s.sul.clamped], beBytes 4 (min 0xFFFFFFFF s.med.capacity), beBytes 2 s.med.total,
    beBytes 2 2048, beBytes 2 8, beBytes 2 96, beBytes 2 32]

theorem inquireData_eq : s.inquireData = s.inquireParts.flatten := by
  unfold State.inquireData State.inquireParts
  simp only [List.flatten_cons, List.flatten_nil, List.append_nil, List.append_assoc, List.cons_append, List.nil_append]

theorem inquireParts_lengths :
    s.inquireParts.map List.length = [13, 1, 1, 1, 1, 1, 9, 2, 2, 1, 1, 1, 1, 4, 2, 2, 2, 2, 2] := by
  simp [State.inquireParts]

theorem length_inquireData : s.inquireData.length = 49 := by
  rw [inquireData_eq, List.length_flatten, inquireParts_lengths]
  rfl

/-- A field of INQUIRE, by the part it lies in. -/
theorem fieldAt_inquireData (k i : Nat) {n w : Nat} {part : List Byte} (hk : s.inquireParts[k]? = some part)
    (hn : ([13, 1, 1, 1, 1, 1, 9, 2, 2, 1, 1, 1, 1, 4, 2, 2, 2, 2, 2].take k).sum + i = n) (inside : i + w ≤ part.length) :
    fieldAt s.inquireData n w = fieldAt part i w := by
  rw [inquireData_eq]
  exact fieldAt_part (inquireParts_lengths s) hk hn inside

/-- A number of INQUIRE, by its part. -/
theorem inquireNumber (k : Nat) {n w v : Nat} (hk : s.inquireParts[k]? = some (beBytes w v))
    (hn : ([13, 1, 1, 1, 1, 1, 9, 2, 2, 1, 1, 1, 1, 4, 2, 2, 2, 2, 2].take k).sum + 0 = n) :
    fieldAt s.inquireData n w = v % 256 ^ w := by
  rw [fieldAt_inquireData s k 0 hk hn (by simp), fieldAt_beBytes]

/-- A byte of INQUIRE, by its part. -/
theorem inquireByte (k : Nat) {n : Nat} {x : Byte} (hk : s.inquireParts[k]? = some [x])
    (hn : ([13, 1, 1, 1, 1, 1, 9, 2, 2, 1, 1, 1, 1, 4, 2, 2, 2, 2, 2].take k).sum + 0 = n) :
    fieldAt s.inquireData n 1 = x.toNat := by
  rw [fieldAt_inquireData s k 0 hk hn (by simp), fieldAt_singleton]

/-- One byte of a layout. -/
theorem fieldAt_byte {l : List Byte} {k : Nat} {x : Byte} (h : l[k]? = some x) : fieldAt l k 1 = x.toNat := by
  rw [fieldAt, List.take_one, List.head?_drop, h]
  simp [beNat]

theorem getElem?_fitBytes {n k : Nat} {l : List Byte} {x : Byte} (hk : k < n) (h : l[k]? = some x) :
    (fitBytes n l)[k]? = some x := by
  have bound : k < l.length := (List.getElem?_eq_some_iff.mp h).1
  rw [fitBytes, List.getElem?_append_left (by rw [List.length_take]; omega), List.getElem?_take_of_lt hk, h]

end Inquire

/-- Settles O13: each item is one of the parts of INQUIRE, and is read at that part's place. -/
theorem inquireAnswersTheTable : Obligations.InquireAnswersTheTable := by
  intro s hp
  obtain ⟨x, reloaded⟩ := reload_act s
  refine ⟨(reload s).inquireData, exec_inquire hp, ?_⟩
  rw [reloaded]
  let u : State := { s with act := x }
  refine ⟨length_inquireData u, ?part, inquireNumber u 2 rfl rfl, inquireNumber u 3 rfl rfl, inquireNumber u 4 rfl rfl,
    inquireNumber u 5 rfl rfl, fun k n hk hn => ?knot, inquireNumber u 7 rfl rfl, inquireNumber u 8 rfl rfl,
    (inquireNumber u 9 rfl rfl).trans (toNat_mod_256 _), inquireByte u 10 rfl rfl,
    (inquireNumber u 11 rfl rfl).trans (toNat_mod_256 _), inquireByte u 12 rfl rfl, ?capacity, inquireNumber u 14 rfl rfl,
    inquireNumber u 15 rfl rfl, inquireNumber u 16 rfl rfl, inquireNumber u 17 rfl rfl, inquireNumber u 18 rfl rfl⟩
  case part =>
    rw [inquireData_eq, State.inquireParts, List.flatten_cons]
    exact List.take_left' rfl
  case knot =>
    have byte : (fitBytes 9 (s.sul.cfg.knots.map (BitVec.ofNat 8 ·)))[k]? = some (BitVec.ofNat 8 n) :=
      getElem?_fitBytes hk (by rw [List.getElem?_map, hn]; rfl)
    refine (fieldAt_inquireData u 6 k rfl rfl (by rw [length_fitBytes]; omega)).trans ((fieldAt_byte byte).trans ?_)
    exact BitVec.toNat_ofNat ..
  case capacity =>
    refine (inquireNumber u 13 rfl rfl).trans (Nat.mod_eq_of_lt ?_)
    have := Nat.min_le_left 0xFFFFFFFF u.med.capacity
    omega

section Port
variable {s : State}

/-! ### Records and responses (R179, R180) -/

/-- Settles O1. -/
theorem stepRunsFrontCommand : Obligations.StepRunsFrontCommand := by
  intro c rest s
  simp only [step]

/-- Each of the sixteen commands is taken as its record says. -/
theorem exec_commandRecord {c : Instr} {code length : Nat} {params : List Byte}
    (h : commandRecord c = some (code, length, params)) (s : State) :
    ∃ act, exec c s = takeCommand code length params act s := by
  cases c
  case status =>
    cases h
    have row : exec (.status params) s = execStatus params s := rfl
    rw [row]
    unfold execStatus
    exact ⟨fun s => respond .ok 1 0 s.statusData s, rfl⟩
  case inquire =>
    cases h
    have row : exec (.inquire params) s = execInquire params s := rfl
    rw [row]
    unfold execInquire
    exact ⟨fun s => respond .ok 2 0 s.inquireData s, rfl⟩
  case markInventory =>
    cases h
    have row : exec (.markInventory params) s = execMarkInventory params s := rfl
    rw [row]
    exact ⟨fun s => respond .ok 15 0 [] { s with cat.mark := false }, rfl⟩
  all_goals cases h
  all_goals exact ⟨_, rfl⟩

theorem takeCommand_refused {code length : Nat} {params : List Byte} {act : State → State} (hp : s.cpe.port ≠ .ready) :
    takeCommand code length params act s = .next (ignoreWrite s) := by
  rw [takeCommand, if_neg hp]

theorem takeCommand_wrongLength {code length : Nat} {params : List Byte} {act : State → State} (hp : s.cpe.port = .ready)
    (hl : params.length ≠ length) :
    takeCommand code length params act s = .next (respond .badParam code 0 [] (reload s)) := by
  rw [takeCommand, if_pos hp, if_neg hl]

/-- A record that is no command's own: cut short, or with an unknown code (R180, R194; log 6). -/
theorem exec_unknownCommandCode {r : List Byte}
    (wrong : r.length < 2 + (byteAt r 1).toNat ∨ (byteAt r 0).toNat = 0 ∨ 16 < (byteAt r 0).toNat) (s : State) :
    exec (.unknownCommandCode r) s = if s.cpe.port = .ready then
      .next (respond .badParam (byteAt r 0).toNat 0 [] (reload s)) else .next (ignoreWrite s) := by
  have foreign : ¬ (recordCut r = false ∧ 1 ≤ (byteAt r 0).toNat ∧ (byteAt r 0).toNat ≤ 16) := by
    rintro ⟨whole, low, high⟩
    simp [recordCut] at whole
    omega
  have row : exec (.unknownCommandCode r) s = execUnknownCommandCode r s := rfl
  rw [row, execUnknownCommandCode, if_neg foreign]

/-- Settles O10. -/
theorem recordsNotTakenOrWrong : Obligations.RecordsNotTakenOrWrong := by
  intro c s
  refine ⟨fun hp wrong => ?_, fun code length params hp record hl => ?_, fun r hp hc wrong => ?_⟩
  · obtain command | rfl | ⟨r, rfl, wrong⟩ := wrong
    · obtain ⟨⟨code, length, params⟩, record⟩ := Option.isSome_iff_exists.mp command
      obtain ⟨act, row⟩ := exec_commandRecord record s
      rw [row, takeCommand_refused hp]
      rfl
    · have row : exec .commandWriteIgnored s = execCommandWriteIgnored s := rfl
      rw [row, execCommandWriteIgnored, if_neg hp]
      rfl
    · rw [exec_unknownCommandCode wrong, if_neg hp]
      rfl
  · obtain ⟨act, row⟩ := exec_commandRecord record s
    rw [row, takeCommand_wrongLength hp hl]
  · subst hc
    rw [exec_unknownCommandCode wrong, if_pos hp]

/-- Settles O11. -/
theorem responseReadReturnsTheRecord : Obligations.ResponseReadReturnsTheRecord := by
  intro s
  have row : exec .responseRead s = execResponseRead s := rfl
  refine ⟨fun r code tag data => rfl, fun r hp hr => ?waiting, fun hp => ?notReady, fun hp => ?other⟩
  case waiting =>
    refine ⟨_, by rw [row, execResponseRead, hp], rfl, ?_⟩
    rw [hr]
    rfl
  case notReady =>
    rw [row, execResponseRead, hp]
    rfl
  case other =>
    rw [row, execResponseRead]
    obtain hp | hp := hp <;> rw [hp]

@[simp] theorem length_eventRecord (kind tag jobKind outcome take a b c : Nat) :
    (eventRecord kind tag jobKind outcome take a b c).length = 20 := by simp [eventRecord]

theorem length_eventBytes (e : Event) : e.bytes.length = 20 := by cases e <;> exact length_eventRecord ..

theorem irq_iff (s : State) : s.irq = true ↔ s.cpe.events ≠ [] := by simp [State.irq]

/-- Settles O14. -/
theorem eventReadAndMarkInventory : Obligations.EventReadAndMarkInventory := by
  intro s hp
  have row : exec (.eventRead []) s = execEventRead [] s := rfl
  have taken : exec (.eventRead []) s = .next (readEvent (reload s)) := by
    rw [row]
    exact takeCommand_ready readEvent hp rfl
  have markRow : exec (.markInventory []) s = execMarkInventory [] s := rfl
  obtain ⟨x, reloaded⟩ := reload_act s
  refine ⟨fun empty => ?_, fun e rest queued => ⟨?_, length_eventBytes e, (irq_iff s).mpr (by simp [queued])⟩, irq_iff s, ?_⟩
  · rw [taken, reloaded, readEvent]
    simp [empty, refuse]
  · rw [taken, reloaded, readEvent]
    simp [queued]
  · rw [markRow]
    exact takeCommand_ready (fun s => respond .ok 15 0 [] { s with cat.mark := false }) hp rfl

/-! ### Events (R184) -/

/-- The item that is raised, and no other. -/
theorem bumpAt_eq_set {max i n : Nat} {l : List Nat} (h : l[i]? = some n) : bumpAt max i l = l.set i (min max (n + 1)) := by
  induction l generalizing i with
  | nil => cases h
  | cons a rest ih =>
    cases i with
    | zero => cases h; rfl
    | succ i => rw [bumpAt, List.set_cons_succ, ih h]

/-- Settles O15. -/
theorem raiseCountsThenQueues : Obligations.RaiseCountsThenQueues := by
  intro e s _
  refine ⟨?frame, fun n hn => ?seen, fun enabled room => ?queued, fun enabled full => ?lost, fun masked => ?masked⟩
  case frame => rw [raise]; split <;> [skip; split] <;> rfl
  case seen => rw [raise]; split <;> [skip; split] <;> exact bumpAt_eq_set hn
  case queued => simp [raise, enabled, room]
  case lost => simp [raise, enabled, Nat.not_lt.mpr full, satAdd]
  case masked => simp [raise, masked]

/-! ### Tags (R189) -/

/-- The rotation from `t` on stops at the first tag that no live job holds, if one is met. -/
theorem nextFreeTag_spec {fuel t m : Nat} (ht : t < 256) (hm : m < fuel)
    (free : s.jt.jobs.any (fun p => p.2.holdsTag ((t + m) % 256)) = false) :
    ∃ k < fuel, nextFreeTag s fuel t = (t + k) % 256
      ∧ s.jt.jobs.any (fun p => p.2.holdsTag ((t + k) % 256)) = false
      ∧ ∀ n < k, s.jt.jobs.any (fun p => p.2.holdsTag ((t + n) % 256)) = true := by
  induction fuel generalizing t m with
  | zero => omega
  | succ fuel ih =>
    rw [nextFreeTag]
    by_cases held : s.jt.jobs.any (fun p => p.2.holdsTag t) = true
    · rw [if_pos held]
      have later : m ≠ 0 := by
        rintro rfl
        rw [Nat.add_zero, Nat.mod_eq_of_lt ht, held] at free
        cases free
      have shift (n : Nat) : ((t + 1) % 256 + n) % 256 = (t + (n + 1)) % 256 := by omega
      obtain ⟨k, hk, hnext, hfree, hheld⟩ := ih (t := (t + 1) % 256) (m := m - 1) (by omega) (by omega)
        (by rw [shift, Nat.sub_add_cancel (by omega)]; exact free)
      refine ⟨k + 1, by omega, by rw [hnext, shift], by rw [← shift]; exact hfree, fun n hn => ?_⟩
      cases n with
      | zero => rw [Nat.add_zero, Nat.mod_eq_of_lt ht]; exact held
      | succ n => rw [← shift]; exact hheld n (by omega)
    · rw [if_neg held]
      have now : (t + 0) % 256 = t := Nat.mod_eq_of_lt ht
      exact ⟨0, by omega, now.symm, by rw [now]; exact Bool.eq_false_iff.mpr held, fun n hn => absurd hn (Nat.not_lt_zero n)⟩

/-- Settles O22. -/
theorem tagsPassOverLiveJobs : Obligations.TagsPassOverLiveJobs := by
  rintro s hnext ⟨t, ht, unheld⟩
  have free : s.jt.jobs.any (fun p => p.2.holdsTag ((s.jt.nextTag + (t + 256 - s.jt.nextTag) % 256) % 256)) = false := by
    have back : (s.jt.nextTag + (t + 256 - s.jt.nextTag) % 256) % 256 = t := by omega
    rw [back, List.any_eq_false]
    exact fun p hp => by simp [unheld p hp]
  obtain ⟨k, hk, tag, hfree, hheld⟩ := nextFreeTag_spec hnext (Nat.mod_lt _ (by decide)) free
  have drawn : s.nextJobTag = (s.jt.nextTag + k) % 256 := tag
  refine ⟨by rw [drawn]; exact Nat.mod_lt _ (by decide), fun p hp => ?_, k, hk, drawn, fun n hn => ?_⟩
  · have no := List.any_eq_false.mp hfree p hp
    rw [drawn]
    simpa [Job.holdsTag] using no
  · obtain ⟨p, hp, holds⟩ := List.any_eq_true.mp (hheld n hn)
    exact ⟨p, hp, holds⟩

end Port

end Sys2Proof.Machine

/-! ## Proofs: commands on entries

SUPPORT. What the operations that create and change jobs and entries make of the state, and the statements of ENTRY_READ,
LABEL_WRITE and REPAIR settled from them. -/

namespace Sys2Proof.Machine

section Operations
variable {s : State}

/-! ### Job records and entries, as one update each -/

/-- The next tag depends on JT alone (R189). -/
theorem nextFreeTag_congr {t : State} (h : s.jt = t.jt) (fuel n : Nat) : nextFreeTag s fuel n = nextFreeTag t fuel n := by
  induction fuel generalizing n with
  | zero => rfl
  | succ fuel ih => rw [nextFreeTag, nextFreeTag, ih, h]

theorem nextJobTag_congr {t : State} (h : s.jt = t.jt) : s.nextJobTag = t.nextJobTag := by
  unfold State.nextJobTag drawTag
  dsimp only
  rw [nextFreeTag_congr h, h]

theorem beginWake_act (ms : Nat) (s : State) : ∃ x, beginWake ms s = { s with act := x } := ⟨_, rfl⟩

/-- A wake event touches ACT alone. -/
theorem wake_act (s : State) : ∃ x, wake s = { s with act := x } := by
  unfold wake
  split
  · exact ⟨_, rfl⟩
  · exact beginWake_act 20 s
  · exact beginWake_act 150 s
  · exact ⟨s.act, rfl⟩

/-- A job joins JT at the lowest free record with the next tag; ACT is woken (R172, R175, R189). -/
theorem createJob_eq (make : Nat → Job) (s : State) : ∃ x, createJob make s
    = { s with jt := { jobs := smapSet s.jt.jobs s.freeRecord (make s.nextJobTag), nextTag := (s.nextJobTag + 1) % 256 },
               act := x } := by
  obtain ⟨x, woken⟩ := wake_act (stopTimer (putJob (drawTag s).2.freeRecord (make (drawTag s).1) (drawTag s).2))
  exact ⟨x, woken⟩

theorem modJob_eq {j : Nat} {job : Job} (f : Job → Job) (h : s.jobAt j = some job) :
    modJob j f s = { s with jt.jobs := smapSet s.jt.jobs j (f job) } := modJob_of_get f h

/-- Two changes of a job's record are one. -/
theorem modJob_modJob (j : Nat) (f g : Job → Job) (s : State) :
    modJob j g (modJob j f s) = modJob j (fun job => g (f job)) s := by
  cases h : s.jobAt j with
  | none =>
    have none (f : Job → Job) : modJob j f s = s := by rw [modJob, h]
    rw [none, none, none]
  | some job =>
    have changed : (modJob j f s).jobAt j = some (f job) := by
      rw [modJob_eq f h]
      exact smapGet_smapSet_self ..
    rw [modJob_eq g changed, modJob_eq f h, modJob_eq _ h]
    dsimp only
    rw [smapSet_smapSet]

theorem modEntry_eq {i : Nat} {e : Entry} (f : Entry → Entry) (h : s.entryAt i = some e) :
    modEntry i f s = { s with cat.entries := smapSet s.cat.entries i (f e) } := by rw [modEntry, h]

/-- An item of the entry waits in the write-through queue (R26). -/
theorem queueEntry_eq (i : Nat) (s : State) : ∃ wt, queueEntry i s = { s with cat.wt := wt } ∧ .entry i ∈ wt := by
  refine ⟨(queueEntry i s).cat.wt, ?_, mem_wt_queueEntry i s⟩
  unfold queueEntry
  split <;> rfl

/-- An entry changes, and its item waits (R26). -/
theorem changeEntry_eq {i : Nat} {e : Entry} (f : Entry → Entry) (h : s.entryAt i = some e) : ∃ wt, changeEntry i f s
    = { s with cat.entries := smapSet s.cat.entries i (f e), cat.wt := wt } ∧ .entry i ∈ wt := by
  obtain ⟨wt, queued, waits⟩ := queueEntry_eq i (modEntry i f s)
  refine ⟨wt, ?_, waits⟩
  rw [changeEntry, queued, modEntry_eq f h]

/-- A change of a CAPTURE job touches JT alone. -/
theorem modJob_jt (j : Nat) (f : Job → Job) (s : State) : ∃ jt, modJob j f s = { s with jt := jt } := by
  unfold modJob putJob
  split
  · exact ⟨_, rfl⟩
  · exact ⟨s.jt, rfl⟩

/-- A job takes its reference on an entry (R15). -/
theorem holdEntry_eq {j i : Nat} {job : Job} {e : Entry} (hj : s.jobAt j = some job) (he : s.entryAt i = some e) :
    holdEntry j i s = { s with jt.jobs := smapSet s.jt.jobs j { job with entry := some i },
                               cat.entries := smapSet s.cat.entries i { e with jobRefs := e.jobRefs + 1 } } := by
  rw [holdEntry, modJob_eq _ hj, addRef]
  exact modEntry_eq (fun e => { e with jobRefs := e.jobRefs + 1 }) he

/-- A job is created and takes its reference on an entry (R15, R189). -/
theorem createHeld_eq {i : Nat} {e : Entry} (make : Nat → Job) (he : s.entryAt i = some e) : ∃ x,
    holdEntry s.freeRecord i (createJob make s)
      = { s with jt := { jobs := smapSet s.jt.jobs s.freeRecord { make s.nextJobTag with entry := some i },
                         nextTag := (s.nextJobTag + 1) % 256 },
                 cat.entries := smapSet s.cat.entries i { e with jobRefs := e.jobRefs + 1 }, act := x } := by
  obtain ⟨x, created⟩ := createJob_eq make s
  refine ⟨x, ?_⟩
  have record : (createJob make s).jobAt s.freeRecord = some (make s.nextJobTag) := by
    rw [created]
    exact smapGet_smapSet_self ..
  rw [holdEntry_eq record (by rw [created]; exact he), created]
  dsimp only
  rw [smapSet_smapSet]

/-- An event touches the port's queue and counters alone (R184). -/
theorem raise_eq (e : Event) (s : State) : ∃ seen events lost, raise e s
    = { s with cpe.seen := seen, cpe.events := events, cpe.lost := lost } := by
  unfold raise
  dsimp only
  split
  · exact ⟨_, s.cpe.events, s.cpe.lost, rfl⟩
  · split
    · exact ⟨_, _, s.cpe.lost, rfl⟩
    · exact ⟨_, s.cpe.events, _, rfl⟩

@[simp] theorem entryAt_raise (e : Event) (s : State) (i : Nat) : (raise e s).entryAt i = s.entryAt i := by
  obtain ⟨seen, events, lost, eq⟩ := raise_eq e s
  rw [eq]
  rfl

@[simp] theorem jobAt_raise (e : Event) (s : State) (j : Nat) : (raise e s).jobAt j = s.jobAt j := by
  obtain ⟨seen, events, lost, eq⟩ := raise_eq e s
  rw [eq]
  rfl

/-- What an event makes of the port depends on the port and the event mask alone (R184). -/
theorem raise_cpe_congr {t : State} (e : Event) (hc : s.cpe = t.cpe) (hm : s.sul.cfg.eventMask = t.sul.cfg.eventMask) :
    (raise e s).cpe = (raise e t).cpe := by
  unfold raise
  dsimp only
  rw [hm, hc]
  split
  · rfl
  · split <;> rfl

/-! ### The end of a job, as one update -/

/-- The chunks a job's end gives back (R34). -/
def Job.pledge (job : Job) : Nat :=
  match job.body with
  | .receive r => r.pledge
  | _ => 0

theorem removeAnswers_hou (p : HoldRec → Bool) (s : State) : ∃ hou, removeAnswers p s = { s with hou := hou } := ⟨_, rfl⟩

/-- The frames of a job that ends leave the queue (R78); LIF goes on with the rest. -/
theorem txRemoveJob_eq (j : Nat) (s : State) : ∃ sending hou, txRemoveJob j s
    = { s with lif.queue := s.lif.queue.filterMap (TxFrame.afterEnd j), lif.sending := sending, hou := hou } := by
  unfold txRemoveJob refreshPlain orphanFront
  dsimp only
  split
  · split
    · exact ⟨_, _, rfl⟩
    · exact ⟨s.lif.sending, _, rfl⟩
  · exact ⟨s.lif.sending, s.hou, rfl⟩

theorem unwant_eq (j : Nat) (s : State) : ∃ issued, unwant j s = { s with med.issued := issued } := by
  unfold unwant
  split
  · split
    · split
      · exact ⟨_, rfl⟩
      · exact ⟨s.med.issued, rfl⟩
    · exact ⟨s.med.issued, rfl⟩
  · exact ⟨s.med.issued, rfl⟩

theorem releaseSpace_eq (job : Job) (s : State) : releaseSpace job s
    = { s with med.pledged := s.med.pledged - job.pledge,
               cat.reserved := if job.pledged then s.cat.reserved - 1 else s.cat.reserved } := by
  unfold releaseSpace releasePledge Job.pledge Job.pledged
  cases job.body with
  | receive r =>
    by_cases receiving : r.receiving = true <;> simp [receiving]
  | _ => rfl

theorem dropRef_eq {t : State} (i : Nat) (h : t.cat.entries = s.cat.entries) :
    dropRef i t = { t with cat.entries := (dropRef i s).cat.entries } := by
  unfold dropRef modEntry State.entryAt
  rw [h]
  cases smapGet s.cat.entries i with
  | none => dsimp only; rw [← h]
  | some e => rfl

/-- The catalogue entries once a job's reference is released (R15). -/
def State.entriesWithout (s : State) (job : Job) : SMap Entry :=
  match job.entry with
  | some i => (dropRef i s).cat.entries
  | none => s.cat.entries

/-- The end of a job changes its record, its frames, its answers, its operation's outcome, its reference, its space and its port,
and nothing else (R15, R34, R40, R48, R78, R105). -/
theorem closeJob_eq {j : Nat} {job : Job} (h : s.jobAt j = some job) : ∃ sending hou issued, closeJob j s
    = { s with lif.queue := s.lif.queue.filterMap (TxFrame.afterEnd j), lif.sending := sending, hou := hou,
               med.issued := issued, med.pledged := s.med.pledged - job.pledge,
               cat.reserved := if job.pledged then s.cat.reserved - 1 else s.cat.reserved,
               cat.entries := s.entriesWithout job, jt.jobs := smapDel s.jt.jobs j,
               port.owner := if s.port.owner = some j then none else s.port.owner,
               port.line := if s.port.owner = some j then .released else s.port.line } := by
  obtain ⟨sending, hou, removed⟩ := txRemoveJob_eq j s
  obtain ⟨hou', answers⟩ := removeAnswers_hou (fun r => r.owner == some j) (txRemoveJob j s)
  obtain ⟨issued, unwanted⟩ := unwant_eq j (removeAnswers (fun r => r.owner == some j) (txRemoveJob j s))
  rw [answers, removed] at unwanted
  refine ⟨sending, hou', issued, ?_⟩
  unfold closeJob State.entriesWithout
  rw [h]
  dsimp only
  rw [answers, removed, unwanted, releaseSpace_eq]
  cases job.entry with
  | none => rfl
  | some i =>
    dsimp only
    rw [dropRef_eq (s := s) i (by rfl)]
    rfl

/-- The parting frame of a job that ends, if it has one to give (R78). -/
def partWith (parting : Option Frame) (s : State) : State :=
  match parting with
  | some f => giveParting f s
  | none => s

@[simp] theorem partWith_none (s : State) : partWith none s = s := rfl

@[simp] theorem partWith_some (f : Frame) (s : State) : partWith (some f) s = giveParting f s := rfl

/-- A job ends (R78, R113, R120, R136, R159, R168): its record goes, its parting frame is given, its entry is settled, JOB_DONE comes. -/
theorem endJob_eq {j : Nat} {job : Job} {result : Result} {parting : Option Frame} (h : s.jobAt j = some job) :
    endJob j result parting s
      = raise (.doneJob job.tag job.kind result job.take (s.doneItems job).1 (s.doneItems job).2.1 (s.doneItems job).2.2)
          (settleEntry job result (partWith parting (closeJob j s))) := by
  unfold endJob
  rw [h]
  cases parting <;> rfl

theorem entriesWithout_none {job : Job} (h : job.entry = none) : s.entriesWithout job = s.cat.entries := by
  rw [State.entriesWithout, h]

theorem entriesWithout_some {i : Nat} {e : Entry} {job : Job} (h : job.entry = some i) (he : s.entryAt i = some e) :
    s.entriesWithout job = smapSet s.cat.entries i { e with jobRefs := e.jobRefs - 1 } := by
  rw [State.entriesWithout, h]
  dsimp only
  rw [dropRef, modEntry_eq _ he]

end Operations

section Commands
variable {s : State}

/-! ### ENTRY_READ, LABEL_WRITE and REPAIR, taken in READY -/

theorem exec_entryRead {p : List Byte} (hp : s.cpe.port = .ready) (hl : p.length = 5) :
    exec (.entryRead p) s = .next (readEntry p (reload s)) := takeCommand_ready (readEntry p) hp hl

theorem exec_labelWrite {p : List Byte} (hp : s.cpe.port = .ready) (hl : p.length = 69) :
    exec (.labelWrite p) s = .next (writeLabel p (reload s)) := takeCommand_ready (writeLabel p) hp hl

theorem exec_repair {p : List Byte} (hp : s.cpe.port = .ready) (hl : p.length = 4) :
    exec (.repair p) s = .next (repairTake p (reload s)) := takeCommand_ready (repairTake p) hp hl

@[simp] theorem selected_reload (p : List Byte) : (reload s).selected p = s.selected p := by
  unfold State.selected
  simp only [entryAt_reload, named_reload]

/-- ENTRY_READ's selector 0: an index (R7, R182). -/
theorem selected_index {p : List Byte} (h : (byteAt p 0).toNat = 0) : s.selected p =
    if 2047 < fieldAt p 1 4 then .bad
    else match s.entryAt (fieldAt p 1 4) with
      | some e => .entry (fieldAt p 1 4) e
      | none => .absent := by
  unfold State.selected
  rw [h] <;> rfl

/-- ENTRY_READ's selector 1: a take number (R7, R182). -/
theorem selected_take {p : List Byte} (h : (byteAt p 0).toNat = 1) :
    s.selected p = s.named (takeOfValue (fieldAt p 1 4)) := by
  unfold State.selected
  rw [h]
  rfl

/-- Another selector is out of range. -/
theorem selected_other {p : List Byte} (h : 1 < (byteAt p 0).toNat) : s.selected p = .bad := by
  unfold State.selected
  split
  · omega
  · omega
  · rfl

/-- The format byte of R193. -/
theorem format_bytes (f : Format) : [f.byte] = beBytes 1 ((match f.width with
      | .w16 => 0
      | .w24 => 1) + (match f.channels with
      | .mono => 0
      | .stereo => 2) + 16 * f.rate.code) := by
  unfold Format.byte
  rfl

theorem repairCondition_code (e : Entry) :
    (e.repairCondition.code = 0 ↔ e.damaged = [] ∧ e.damagedCount = 0 ∧ e.overflow = false)
      ∧ (e.repairCondition.code = 1 ↔ e.damaged ≠ [])
      ∧ (e.repairCondition.code = 2 ↔ e.damaged = [] ∧ (e.damagedCount ≠ 0 ∨ e.overflow = true)) := by
  unfold Entry.repairCondition
  by_cases list : e.damaged = []
  · by_cases clean : e.damagedCount = 0 ∧ e.overflow = false
    · simp [list, clean, RepairCondition.code]
    · rw [if_neg (not_not.mpr list), if_neg clean]
      have remains : e.damagedCount ≠ 0 ∨ e.overflow = true := by
        rcases not_and_or.mp clean with count | flag
        · exact .inl count
        · exact .inr (by simpa using flag)
      exact ⟨iff_of_false (by decide) fun h => clean h.2, iff_of_false (by decide) fun h => h list,
        iff_of_true rfl ⟨list, remains⟩⟩
  · simp [list, RepairCondition.code]

end Commands

/-- Settles O17: the lookup by selector, then the record and the fields behind it as the entry holds them. -/
theorem entryReadReturnsTheEntry : Obligations.EntryReadReturnsTheEntry := by
  intro s p hp hl
  rw [exec_entryRead hp hl, readEntry, selected_reload]
  refine ⟨fun bad => ?bad, fun absent => ?absent, fun i e found => ?found⟩
  case bad =>
    have : s.selected p = .bad := by
      obtain ⟨index, high⟩ | other | ⟨take, invalid⟩ := bad
      · rw [selected_index index, if_pos high]
      · exact selected_other other
      · rw [selected_take take, named_of_invalid invalid]
    rw [this]
    rfl
  case absent =>
    have : s.selected p = .absent := by
      obtain ⟨index, low, empty⟩ | ⟨take, valid, none⟩ := absent
      · rw [selected_index index, if_neg (by omega), empty]
      · rw [selected_take take, named_of_absent valid none]
    rw [this]
    rfl
  case found =>
    have found : ∃ k, s.selected p = .entry k e := by
      obtain ⟨index, place, low, entry⟩ | ⟨take, valid, found⟩ := found
      · exact ⟨i, by rw [selected_index index, if_neg (by omega), place, entry]⟩
      · exact ⟨i, by rw [selected_take take, named_of_found valid found]⟩
    obtain ⟨k, found⟩ := found
    have mark : (reload s).cat.mark = s.cat.mark := by simp
    refine ⟨e.repairCondition.code, ?_, repairCondition_code e⟩
    rw [found]
    dsimp only
    rw [State.entryData, Entry.record, mark, format_bytes]
    congr 28
    cases e.endCause with
    | none => rfl
    | some cause => cases cause <;> rfl

section Label
variable {s : State} {p : List Byte}

/-! ### LABEL_WRITE (R18) -/

theorem labelParam_other (h : 1 < (byteAt p 4).toNat) : labelParam p = none := by
  unfold labelParam
  split
  · omega
  · omega
  · rfl

theorem labelParam_absent (h : (byteAt p 4).toNat = 0) : labelParam p = some none := by
  unfold labelParam
  rw [h]
  rfl

theorem labelParam_present (hl : p.length = 69) (h : (byteAt p 4).toNat = 1) : labelParam p = some (some (p.drop 5)) := by
  unfold labelParam
  rw [h]
  show some (some ((p.drop 5).take 64)) = some (some (p.drop 5))
  rw [List.take_of_length_le (by rw [List.length_drop]; omega)]

/-- A label that may change: HELD, an origin, and not yet offered to a peer (R18). -/
theorem labelFree_iff {own : Nat} {e : Entry} : e.labelFree own = true ↔
    e.state = .held ∧ e.role = .origin ∧ (∀ a ∈ e.holders, a = own)
      ∧ (e.placement = .notNeeded ∨ e.placement = .queued ∧ e.attempts = 0) := by
  simp [Entry.labelFree, and_assoc]

/-- What a label change to a CAPTURING entry touches (R18, R66): the entry, its item and JT. -/
theorem labelCapturing_eq {i : Nat} {e : Entry} {label : Option (List Byte)} (he : s.entryAt i = some e) :
    ∃ jt wt, labelCapturing i label s = respond .ok 9 0 [] (settle
        { s with cat.entries := smapSet s.cat.entries i { e with label := label }, cat.wt := wt, jt := jt })
      ∧ .entry i ∈ wt := by
  obtain ⟨wt, changed, waits⟩ := changeEntry_eq (fun e => { e with label := label }) he
  unfold labelCapturing
  rw [changed]
  dsimp only
  split
  · split
    · obtain ⟨jt, eq⟩ := modJob_jt _ _ _
      exact ⟨jt, wt, by rw [modCapture, eq], waits⟩
    · exact ⟨_, wt, rfl, waits⟩
  · exact ⟨_, wt, rfl, waits⟩

end Label

/-- Settles O19: R7's lookup, then the entry's state. -/
theorem labelWriteByEntryState : Obligations.LabelWriteByEntryState := by
  intro s p sound hp hl
  obtain ⟨-, ⟨rising, -⟩, -⟩ := sound
  rw [exec_labelWrite hp hl, writeLabel, named_reload]
  refine ⟨fun bad => ?bad, fun known valid none => ?absent, fun i e label valid found param => ?found⟩
  case bad =>
    obtain other | invalid := bad
    · rw [labelParam_other other]
      rfl
    · rw [named_of_invalid invalid]
      cases labelParam p <;> rfl
  case absent =>
    rw [named_of_absent valid none]
    have known : (byteAt p 4).toNat = 0 ∨ (byteAt p 4).toNat = 1 := by omega
    obtain zero | one := known
    · rw [labelParam_absent zero]; rfl
    · rw [labelParam_present hl one]; rfl
  case found =>
    have param : labelParam p = some label := by
      obtain ⟨zero, rfl⟩ | ⟨one, rfl⟩ := param
      · exact labelParam_absent zero
      · exact labelParam_present hl one
    rw [param, named_of_found valid found]
    dsimp only
    obtain ⟨he, -⟩ := entryAt_of_findTake rising found
    have own : (reload s).own = s.own := by simp [State.own]
    refine ⟨fun capturing => ?capturing, fun free => ?free, fun notCapturing notFree => ?locked⟩
    case capturing =>
      rw [if_pos capturing]
      obtain ⟨x, reloaded⟩ := reload_act s
      rw [reloaded]
      obtain ⟨jt, wt, eq, waits⟩ := labelCapturing_eq (s := { s with act := x }) (label := label) he
      exact ⟨_, congrArg Host.Outcome.next eq, smapGet_smapSet_self .., fun k hk => smapGet_smapSet_ne _ _ hk, waits, rfl, rfl,
        rfl, rfl, rfl⟩
    case free =>
      obtain ⟨held, -⟩ := id free
      rw [if_neg (by rw [held]; decide), if_pos (by rw [own]; exact labelFree_iff.mpr free)]
      obtain ⟨x, reloaded⟩ := reload_act s
      rw [reloaded]
      rfl
    case locked =>
      rw [if_neg notCapturing, if_neg (by rw [own]; exact fun h => notFree (labelFree_iff.mp h))]
      rfl

section Repair
variable {s : State} {p : List Byte}

/-! ### REPAIR (R162, R163) -/

/-- VERIFYING requests its next reads (R163). -/
theorem verify_requests {j : Nat} {job : Job} {r : RepairJob} (hj : s.jobAt j = some job) (hb : job.body = .repair r)
    (state : r.state = .verifying) (more : (r.request (8 - s.outstanding j job)).1 ≠ []) :
    verify j s =
      { s with jt.jobs := smapSet s.jt.jobs j { job with body := .repair (r.request (8 - s.outstanding j job)).2,
                                                         reqs := job.reqs
                                                           ++ (r.request (8 - s.outstanding j job)).1.map .read } } := by
  unfold verify Job.repairOf
  rw [hj]
  dsimp only
  rw [hb]
  dsimp only
  rw [if_neg (not_not.mpr state), if_neg (fun h => more h.2), modJob_eq _ hj]

/-- VERIFYING with nothing requested and nothing left to read is done (R163). -/
theorem verify_done {j : Nat} {job : Job} {r : RepairJob} (hj : s.jobAt j = some job) (hb : job.body = .repair r)
    (state : r.state = .verifying) (idle : s.outstanding j job = 0) (none : (r.request 8).1 = []) :
    verify j s = verified j s := by
  unfold verify Job.repairOf
  rw [hj]
  dsimp only
  rw [hb]
  dsimp only
  rw [if_neg (not_not.mpr state), idle, if_pos ⟨rfl, none⟩]

/-- After VERIFYING a REPAIR job whose entry does not list sequence 0 goes on without HEAD (R163, R164). -/
theorem verified_goesOn {j i : Nat} {job : Job} {r : RepairJob} {e : Entry} (hj : s.jobAt j = some job)
    (hb : job.body = .repair r) (hi : job.entry = some i) (he : (closeScan i r s).entryAt i = some e)
    (unlisted : e.damaged.contains 0 = false) : verified j s = repairGoOn j (closeScan i r s) := by
  unfold verified Job.repairOf
  rw [hj]
  dsimp only
  rw [hb, hi]
  dsimp only
  rw [he]
  dsimp only
  rw [if_neg (by rw [unlisted]; decide)]

/-- SEEKING with a sound sequence listed, otherwise the end, OK (R163, R164). -/
theorem repairGoOn_eq {j i : Nat} {job : Job} {e : Entry} (hj : s.jobAt j = some job) (hi : job.entry = some i)
    (he : s.entryAt i = some e) :
    repairGoOn j s = if (soundDamage e).isEmpty then endJob j .ok none s else repairSeek j e s := by
  unfold repairGoOn
  rw [hj, Option.bind_some, hi, Option.bind_some, he]

/-- A REPAIR job that has read nothing yet (R162, R163). -/
def repairOfEntry (e : Entry) : RepairJob :=
  { state := .verifying, scan := e.overflow, todo := if e.overflow then [] else e.damaged, scanNext := 0,
    scanEnd := e.storedBlocks, tally := 0, cleared := 0, first := 0, count := 0, holder := none, grantSent := false,
    answerWindow := none, grantWait := none, recorded := none }

/-- The record of a new REPAIR job on entry `i`. -/
def State.repairRecord (s : State) (i : Nat) (e : Entry) : Job :=
  { freshJob s.nextJobTag s.own none (some e.take) (.repair (repairOfEntry e)) with entry := some i }

/-- A REPAIR command or an automatic repair creates its job, which holds the entry, and it begins VERIFYING (R162, R169). -/
theorem createRepair_eq {i : Nat} {e : Entry} (he : s.entryAt i = some e) : ∃ x, createRepair i e s
    = verify s.freeRecord
        { s with jt := { jobs := smapSet s.jt.jobs s.freeRecord (s.repairRecord i e), nextTag := (s.nextJobTag + 1) % 256 },
                 cat.entries := smapSet s.cat.entries i { e with jobRefs := e.jobRefs + 1 }, act := x } := by
  obtain ⟨x, held⟩ := createHeld_eq (fun tag => freshJob tag s.own none (some e.take) (.repair (repairOfEntry e))) he
  exact ⟨x, congrArg (verify s.freeRecord) held⟩

/-- The reads a new REPAIR job requests first: of the list, in its order, or of the sequences from 0 up (R163; log 66). -/
theorem repairOfEntry_request (e : Entry) (n : Nat) : (repairOfEntry e).request n =
    if e.overflow then
      (List.range (min n e.storedBlocks), { repairOfEntry e with scanNext := min n e.storedBlocks })
    else (e.damaged.take n, { repairOfEntry e with todo := e.damaged.drop n }) := by
  unfold RepairJob.request
  by_cases flag : e.overflow = true
  · simp [repairOfEntry, flag, List.range_eq_range']
  · simp [repairOfEntry, flag]

/-- REPAIR's refusals by the entry's state and its repair condition, and by JT (R162). -/
theorem repairTake_found {i : Nat} {e : Entry} (h : s.named (takeParam p) = .entry i e) : repairTake p s =
    if !e.playable then refuse .locked 13 s
    else if e.repairCondition = .clean then refuse .notFound 13 s
    else if s.countKind .repair ≠ 0 ∨ !s.jobFree then refuse .noSlot 13 s
    else respond .ok 13 s.nextJobTag [] (settle (createRepair i e s)) := by
  unfold repairTake
  rw [h]

/-- The state as a new REPAIR job begins VERIFYING. -/
def State.repairing (s : State) (i : Nat) (e : Entry) (x : Act) : State :=
  { s with jt := { jobs := smapSet s.jt.jobs s.freeRecord (s.repairRecord i e), nextTag := (s.nextJobTag + 1) % 256 },
           cat.entries := smapSet s.cat.entries i { e with jobRefs := e.jobRefs + 1 }, act := x }

theorem jobAt_repairing (s : State) (i : Nat) (e : Entry) (x : Act) :
    (s.repairing i e x).jobAt s.freeRecord = some (s.repairRecord i e) := smapGet_smapSet_self ..

theorem entryAt_repairing (s : State) (i : Nat) (e : Entry) (x : Act) :
    (s.repairing i e x).entryAt i = some { e with jobRefs := e.jobRefs + 1 } := smapGet_smapSet_self ..

theorem outstanding_repairing (s : State) (i : Nat) (e : Entry) (x : Act) :
    (s.repairing i e x).outstanding s.freeRecord (s.repairRecord i e) = if s.issuedBy s.freeRecord then 1 else 0 :=
  Nat.zero_add _

/-- A damage count with neither a list nor the flag leaves nothing to read: the job ends OK (R163). -/
theorem createRepair_nothing {i : Nat} {e : Entry} (jobs : jobsOk s.jt.jobs) (he : s.entryAt i = some e)
    (flag : e.overflow = false) (list : e.damaged = []) (idle : s.issuedBy s.freeRecord = false) :
    ∃ v, createRepair i e s = raise (.doneJob s.nextJobTag .repair .ok (some e.take) 0xFF 0 0) v
      ∧ (∀ k, v.entryAt k = s.entryAt k) ∧ (∀ k, v.jobAt k = s.jobAt k) ∧ v.cpe = s.cpe ∧ v.sul = s.sul := by
  obtain ⟨x, created⟩ := createRepair_eq he
  let t := s.repairing i e x
  let e' : Entry := { e with jobRefs := e.jobRefs + 1 }
  have hj : t.jobAt s.freeRecord = some (s.repairRecord i e) := jobAt_repairing s i e x
  have he' : t.entryAt i = some e' := entryAt_repairing s i e x
  have none : ((repairOfEntry e).request 8).1 = [] := by simp [repairOfEntry_request, flag, list]
  have done : verify s.freeRecord t = verified s.freeRecord t :=
    verify_done hj rfl rfl (by rw [outstanding_repairing, idle]; rfl) none
  have ends : verified s.freeRecord t = endJob s.freeRecord .ok Option.none t := by
    have noScan : closeScan i (repairOfEntry e) t = t := by simp [closeScan, he', repairOfEntry, flag]
    have noSound : soundDamage e' = [] := by simp [soundDamage, e', list]
    have unlisted : e'.damaged.contains 0 = false := by simp [e', list]
    rw [verified_goesOn hj rfl rfl (by rw [noScan]; exact he') unlisted, noScan, repairGoOn_eq hj rfl he', noSound]
    rfl
  obtain ⟨sending, hou, issued, closed⟩ := closeJob_eq hj
  have entries : t.entriesWithout (s.repairRecord i e) = smapSet s.cat.entries i e := by
    rw [entriesWithout_some rfl he']
    exact smapSet_smapSet ..
  rw [entries] at closed
  have kept : settleEntry (s.repairRecord i e) .ok (closeJob s.freeRecord t) = closeJob s.freeRecord t := by
    have entry : (closeJob s.freeRecord t).entryAt i = some e := by
      rw [closed]
      exact smapGet_smapSet_self ..
    show holdRepair i (repairOfEntry e) .ok (closeJob s.freeRecord t) = _
    simp [holdRepair, entry, list]
  have items : t.doneItems (s.repairRecord i e) = (0xFF, 0, 0) := by
    show (_, _, ((t.entryAt i).map (fun e => e.damaged.length)).getD 0) = _
    rw [he']
    show (0xFF, 0, e.damaged.length) = _
    rw [list]
    rfl
  refine ⟨closeJob s.freeRecord t, ?_, fun k => ?_, fun k => ?_, by rw [closed]; rfl, by rw [closed]; rfl⟩
  · refine created.trans (done.trans (ends.trans ?_))
    rw [endJob_eq hj, items, partWith_none, kept]
    rfl
  · have same : (closeJob s.freeRecord t).entryAt k = smapGet (smapSet s.cat.entries i e) k := by rw [closed]; rfl
    rw [same, smapGet_smapSet]
    split
    · subst k; exact he.symm
    · rfl
  · rw [State.jobAt, closeJob_jobs]
    by_cases hk : k = s.freeRecord
    · subst hk
      rw [smapGet_smapDel_self (m := t.jt.jobs) _ (smapRising_smapSet _ _ jobs.1)]
      exact (jobAt_freeRecord jobs).symm
    · rw [smapGet_smapDel_ne _ hk]
      exact smapGet_smapSet_ne _ _ hk

end Repair

theorem playable_iff {e : Entry} : e.playable = true ↔ e.state = .held ∨ e.state = .incomplete := by
  simp [Entry.playable]

/-- Settles O20: the tests in their order, then the job's first reads by the list or the scan. -/
theorem repairCommandTests : Obligations.RepairCommandTests := by
  intro s p sound hp hl
  obtain ⟨jobs, ⟨rising, -⟩, -⟩ := sound
  rw [exec_repair hp hl]
  refine ⟨fun invalid => ?bad, fun valid none => ?absent, fun i e valid found => ?found⟩
  case bad => rw [repairTake, named_reload, named_of_invalid invalid]; rfl
  case absent => rw [repairTake, named_reload, named_of_absent valid none]; rfl
  case found =>
    obtain ⟨he, -⟩ := entryAt_of_findTake rising found
    rw [repairTake_found (by rw [named_reload]; exact named_of_found valid found)]
    obtain ⟨x, reloaded⟩ := reload_act s
    rw [reloaded]
    let u : State := { s with act := x }
    have ju : jobsOk u.jt.jobs := jobs
    obtain ⟨clean, -⟩ := repairCondition_code e
    refine ⟨fun busy => ?locked, fun standing => ⟨fun list count flag => ?clean, fun damage => ⟨fun full => ?full,
      fun noRepair room => ?created⟩⟩⟩
    case locked =>
      have : e.playable = false := by
        rw [Bool.eq_false_iff, Ne, playable_iff]
        rintro (h | h) <;> rw [h] at busy <;> simp at busy
      rw [this]
      rfl
    case clean =>
      have isClean : e.repairCondition = .clean := by simp [Entry.repairCondition, list, count, flag]
      rw [playable_iff.mpr standing, isClean]
      rfl
    case full =>
      have notClean : e.repairCondition ≠ .clean := by
        intro isClean
        obtain ⟨list, count, flag⟩ := clean.mp (by rw [isClean]; rfl)
        simp [list, count, flag] at damage
      have refused : u.countKind .repair ≠ 0 ∨ (!u.jobFree) = true := by
        obtain ⟨j, job, hj, kind⟩ | full := full
        · exact .inl fun zero => (countKind_eq_zero ju .repair).mp zero j job hj kind
        · refine .inr ?_
          have noRoom : u.jobFree = false := decide_eq_false (Nat.not_lt.mpr full)
          rw [noRoom]
          rfl
      rw [playable_iff.mpr standing, if_neg (by decide), if_neg notClean, if_pos refused]
      rfl
    case created =>
      have notClean : e.repairCondition ≠ .clean := by
        intro isClean
        obtain ⟨list, count, flag⟩ := clean.mp (by rw [isClean]; rfl)
        simp [list, count, flag] at damage
      have accepted : ¬ (u.countKind .repair ≠ 0 ∨ (!u.jobFree) = true) := by
        rintro (some | full)
        · exact some ((countKind_eq_zero ju .repair).mpr noRepair)
        · have isRoom : u.jobFree = true := decide_eq_true room
          rw [isRoom] at full
          cases full
      have tag : u.nextJobTag = s.nextJobTag := nextJobTag_congr rfl
      rw [playable_iff.mpr standing, if_neg (by decide), if_neg notClean, if_neg accepted, tag]
      refine ⟨createRepair i e u, rfl, fun reads => ?reads, fun flag list idle => ?nothing⟩
      case nothing =>
        obtain ⟨v, ends, entries, records, port, sul⟩ := createRepair_nothing (s := u) ju he flag list idle
        rw [ends, tag]
        exact ⟨fun k => (entryAt_raise ..).trans (entries k), fun k => (jobAt_raise ..).trans (records k), raise_cpe_congr _ port (by rw [sul])⟩
      case reads =>
        obtain ⟨y, created⟩ := createRepair_eq (s := u) he
        let t := u.repairing i e y
        let n := 8 - t.outstanding u.freeRecord (u.repairRecord i e)
        have waiting : n = 8 - if s.issuedBy s.freeRecord then 1 else 0 := congrArg (8 - ·) (outstanding_repairing u i e y)
        have some : 1 ≤ n := by rw [waiting]; split <;> omega
        have more : ((repairOfEntry e).request n).1 ≠ [] := by
          rw [repairOfEntry_request]
          obtain ⟨flag, blocks⟩ | ⟨flag, list⟩ := reads
          · rw [if_pos flag]
            simp
            omega
          · rw [if_neg (by rw [flag]; decide)]
            simp [list]
            omega
        have requests := created.trans (verify_requests (jobAt_repairing u i e y) rfl rfl more)
        rw [requests]
        have kept : ((repairOfEntry e).request n).2.state = .verifying ∧ ((repairOfEntry e).request n).2.scan = e.overflow
            ∧ ((repairOfEntry e).request n).2.cleared = 0 ∧ ((repairOfEntry e).request n).2.tally = 0 := by
          rw [repairOfEntry_request]
          split <;> exact ⟨rfl, rfl, rfl, rfl⟩
        obtain ⟨state, scan, cleared, tally⟩ := kept
        refine ⟨u.freeRecord, _, ((repairOfEntry e).request n).2, jobAt_freeRecord ju, smapGet_smapSet_self .., rfl, state, scan,
          cleared, tally, tag, rfl, rfl, ⟨n, some, fun idle => ?idle, fun flag => ?list, fun flag => ?scan⟩,
          smapGet_smapSet_self .., fun k hk => smapGet_smapSet_ne _ _ hk, fun k hk => ?others, rfl, rfl, rfl, rfl⟩
        case idle =>
          rw [waiting, show s.issuedBy s.freeRecord = false from idle]
          rfl
        case list =>
          have request := repairOfEntry_request e n
          rw [if_neg (by rw [flag]; decide)] at request
          exact ⟨congrArg (fun q => q.1.map JobReq.read) request, congrArg (fun q => q.2.todo) request⟩
        case scan =>
          have request := repairOfEntry_request e n
          rw [if_pos flag] at request
          exact ⟨congrArg (fun q => q.1.map JobReq.read) request, congrArg (fun q => q.2.scanNext) request,
            congrArg (fun q => q.2.scanEnd) request⟩
        case others =>
          exact (smapGet_smapSet_ne _ _ hk).trans (smapGet_smapSet_ne _ _ hk)

end Sys2Proof.Machine

/-! ## Proofs: the capture

SUPPORT. The capture commands and the frame in: ARM, START, STOP, ABORT and SAMPLE_FRAME_IN, settled from one equation for each
operation on a CAPTURE job. -/

namespace Sys2Proof.Machine

/-- An event leaves the command the port is BUSY with (R184). -/
theorem raise_current (e : Event) (s : State) : (raise e s).cpe.current = s.cpe.current := by
  obtain ⟨seen, events, lost, eq⟩ := raise_eq e s
  rw [eq]

section Capture
variable {s : State} {j : Nat} {job : Job} {c : CaptureJob}

/-! ### CAPTURE jobs -/

/-- A CAPTURE job's body changes, and nothing else. -/
theorem modCapture_eq (f : CaptureJob → CaptureJob) (hj : s.jobAt j = some job) (hb : job.body = .capture c) :
    modCapture j f s = { s with jt.jobs := smapSet s.jt.jobs j { job with body := .capture (f c) } } := by
  rw [modCapture, modJob_eq _ hj, hb]

theorem captureJob_none (h : s.findKind .capture = none) : s.captureJob = none := by
  rw [State.captureJob, h]

@[simp] theorem captureJob_reload : (reload s).captureJob = s.captureJob := by
  obtain ⟨x, eq⟩ := reload_act s
  rw [eq]
  rfl

theorem exec_arm {p : List Byte} (hp : s.cpe.port = .ready) (hl : p.length = 2) :
    exec (.arm p) s = .next (armCapture p (reload s)) := takeCommand_ready (armCapture p) hp hl

theorem exec_start (hp : s.cpe.port = .ready) : exec (.start []) s = .next (startCapture (reload s)) :=
  takeCommand_ready (fun s => startCapture s) hp rfl

theorem exec_stop (hp : s.cpe.port = .ready) : exec (.stop []) s = .next (stopCapture (reload s)) :=
  takeCommand_ready (fun s => stopCapture s) hp rfl

theorem exec_abort (hp : s.cpe.port = .ready) : exec (.abort []) s = .next (abortTake (reload s)) :=
  takeCommand_ready (fun s => abortTake s) hp rfl

theorem rate_of_formatOfByte {b : Byte} {f : Format} (h : formatOfByte b = some f) : b.toNat / 16 % 8 ≤ 4 := by
  unfold formatOfByte at h
  by_cases high : 4 < b.toNat / 16 % 8
  · have : rateOfCode (b.toNat / 16 % 8) = none := by
      unfold rateOfCode
      split <;> first | omega | rfl
    rw [this] at h
    cases h
  · omega

end Capture

/-- Settles O21: R51's tests, then the job in ARMED as it joins JT. -/
theorem armTests : Obligations.ArmTests := by
  intro s b p sound hp
  obtain ⟨jobs, -⟩ := sound
  rw [exec_arm hp rfl]
  obtain ⟨x, reloaded⟩ := reload_act s
  rw [reloaded]
  let u : State := { s with act := x }
  have first : byteAt [b, p] 0 = b := rfl
  refine ⟨fun high => ?bad, fun f format => ⟨fun owned => ?busy, fun free full => ?full, fun free room => ?armed⟩⟩
  case bad =>
    have none : formatOfByte b = none := by
      cases h : formatOfByte b with
      | none => rfl
      | some f => exact absurd (rate_of_formatOfByte h) (by omega)
    rw [armCapture, first, none]
    rfl
  case busy =>
    have isOwned : u.port.owner.isSome = true := Option.isSome_iff_ne_none.mpr owned
    rw [armCapture, first, format]
    dsimp only
    rw [if_pos isOwned]
    rfl
  case full =>
    have unowned : ¬ u.port.owner.isSome = true := by rw [show u.port.owner = none from free]; decide
    have noRoom : u.jobFree = false := decide_eq_false (Nat.not_lt.mpr full)
    rw [armCapture, first, format]
    dsimp only
    rw [if_neg unowned, noRoom]
    rfl
  case armed =>
    have unowned : ¬ u.port.owner.isSome = true := by rw [show u.port.owner = none from free]; decide
    have isRoom : u.jobFree = true := decide_eq_true room
    have tag : u.nextJobTag = s.nextJobTag := nextJobTag_congr rfl
    let c := armedCapture f (min 64 p.toNat)
    obtain ⟨y, created⟩ := createJob_eq (fun tag => freshJob tag u.own none none (.capture c)) u
    refine ⟨takePort u.freeRecord .input (createJob (fun tag => freshJob tag u.own none none (.capture c)) u), u.freeRecord,
      freshJob s.nextJobTag u.own none none (.capture c), c, ?_, freeRecord_lt room, jobAt_freeRecord jobs, ?_, rfl, rfl, rfl,
      rfl, rfl, rfl, rfl, fun k hk => ?_, rfl, ?_⟩
    · rw [armCapture, first, format]
      dsimp only
      rw [if_neg unowned, isRoom]
      rw [tag]
      rfl
    · rw [created, tag]
      exact smapGet_smapSet_self ..
    · rw [created]
      exact smapGet_smapSet_ne _ _ hk
    · rw [created]
      rfl

section Stop
variable {s : State} {j : Nat} {job : Job} {c : CaptureJob}

/-! ### STOP and ABORT (R64, R67) -/

/-- The end of an armed capture (R64): no entry is touched, the port is freed, JOB_DONE carries no items. -/
theorem endJob_armed (jobs : jobsOk s.jt.jobs) (hj : s.jobAt j = some job) (hb : job.body = .capture c) (hi : job.entry = none) :
    ∃ v, endJob j .ok none s = raise (.doneJob job.tag .capture .ok job.take 0 0 0) v ∧ v.jobAt j = none
      ∧ (∀ k, k ≠ j → v.jobAt k = s.jobAt k) ∧ v.port.owner ≠ some j ∧ v.cat = s.cat ∧ v.cpe = s.cpe ∧ v.sul = s.sul := by
  obtain ⟨sending, hou, issued, closed⟩ := closeJob_eq hj
  have notPledged : job.pledged = false := by rw [Job.pledged, hb]
  have items : s.doneItems job = (0, 0, 0) := by rw [State.doneItems, hb, hi]; rfl
  have kept : settleEntry job .ok (closeJob j s) = closeJob j s := by rw [settleEntry, hi]
  refine ⟨closeJob j s, ?_, ?_, fun k hk => ?_, ?_, ?_, by rw [closed], by rw [closed]⟩
  · rw [endJob_eq hj, items, partWith_none, kept, Job.kind, hb]
    rfl
  · rw [State.jobAt, closeJob_jobs]
    exact smapGet_smapDel_self _ jobs.1
  · rw [State.jobAt, closeJob_jobs]
    exact smapGet_smapDel_ne _ hk
  · rw [closed]
    dsimp only
    split
    · intro h; cases h
    · assumption
  · rw [closed, notPledged, entriesWithout_none hi]
    rfl

/-- STOP in RUNNING cuts the take and closes what it holds (R64). -/
theorem stopped_drained (cut : c.cut = none) :
    c.stopped.drained.state = .draining ∧ c.stopped.drained.filling = none ∧ c.stopped.drained.discard = none
      ∧ c.stopped.drained.cut = some ((match c.discard with
                                       | some (start, _) => start
                                       | none => c.offset), .normal)
      ∧ c.stopped.drained.closed = c.stopped.closed := by
  have kept (d : CaptureJob) : d.drained.state = d.state ∧ d.drained.filling = d.filling ∧ d.drained.discard = d.discard
      ∧ d.drained.cut = d.cut ∧ d.drained.closed = d.closed := by
    unfold CaptureJob.drained
    split <;> exact ⟨rfl, rfl, rfl, rfl, rfl⟩
  obtain ⟨state, filling, discard, cutKept, closed⟩ := kept c.stopped
  refine ⟨state, filling, discard, cutKept.trans ?_, closed⟩
  show some (lowerCut _ c.cut) = _
  rw [cut]
  cases c.discard <;> rfl

/-- The blocks a STOP leaves to be written (R64): those closed, and one being filled that holds a frame. -/
theorem stopped_closed (discard : c.discard = none) (before : ∀ b ∈ c.closed, b.start < c.offset) :
    c.stopped.closed = c.closed ++ (match c.filling with
                                    | some b => if b.frames = 0 then [] else [b]
                                    | none => []) := by
  have all : c.closed.filter (fun b => b.start < c.offset) = c.closed :=
    List.filter_eq_self.mpr fun b hb => decide_eq_true (before b hb)
  unfold CaptureJob.stopped CaptureJob.cutAt
  rw [discard]
  dsimp only
  rw [if_pos rfl, all]
  cases c.filling with
  | none => exact (List.append_nil _).symm
  | some b =>
    dsimp only
    split
    · exact (List.append_nil _).symm
    · rfl

end Stop

/-- Settles O24: each state of the capture gives one answer. -/
theorem stopByCaptureState : Obligations.StopByCaptureState := by
  intro s sound hp
  obtain ⟨jobs, -⟩ := sound
  rw [exec_stop hp, stopCapture, captureJob_reload]
  obtain ⟨x, reloaded⟩ := reload_act s
  rw [reloaded]
  let u : State := { s with act := x }
  refine ⟨fun none => ?idle, fun j job c capture => ?some⟩
  case idle => rw [captureJob_none none]; rfl
  case some =>
    obtain ⟨hj, hb⟩ := jobAt_of_captureJob jobs capture
    rw [capture]
    dsimp only
    refine ⟨fun armed noEntry => ?armed, fun running cut => ?running, fun draining => ?draining⟩
    case armed =>
      obtain ⟨v, ends, gone, others, port, cat, cpe, sul⟩ := endJob_armed (s := u) jobs hj hb noEntry
      rw [armed]
      refine ⟨_, rfl, ?_⟩
      rw [show endJob j .ok none u = _ from ends]
      refine ⟨by rw [jobAt_raise]; exact gone, fun k hk => by rw [jobAt_raise]; exact others k hk, ?_, ?_, ?_⟩
      · obtain ⟨seen, events, lost, raised⟩ := raise_eq (.doneJob job.tag .capture .ok job.take 0 0 0) v
        rw [raised]
        exact port
      · obtain ⟨seen, events, lost, raised⟩ := raise_eq (.doneJob job.tag .capture .ok job.take 0 0 0) v
        rw [raised]
        exact cat
      · exact raise_cpe_congr _ cpe (by rw [sul])
    case running =>
      obtain ⟨state, filling, discard, cutAt, closed⟩ := stopped_drained cut
      rw [running]
      dsimp only
      rw [modCapture_eq (s := u) (fun c => c.stopped.drained) hj hb]
      exact ⟨_, _, c.stopped.drained, rfl, smapGet_smapSet_self .., rfl, fun k hk => smapGet_smapSet_ne _ _ hk, rfl, state,
        filling, discard, cutAt, fun none before => closed.trans (stopped_closed none before)⟩
    case draining => rw [draining]

section Abort
variable {s : State} {i j : Nat} {job : Job} {c : CaptureJob} {e : Entry}

/-- The entry of an aborted take is freed, and its job ends CANCELLED (R67). -/
theorem endJob_freed (jobs : jobsOk s.jt.jobs) (entries : smapRising s.cat.entries = true)
    (chunks : smapRising s.med.chunks = true) (hj : s.jobAt j = some job) (hb : job.body = .capture c)
    (hi : job.entry = some i) (he : s.entryAt i = some e) :
    ∃ v, endJob j .cancelled none (freeEntry i s) = raise (.doneJob job.tag .capture .cancelled job.take 0 0 0) v
      ∧ v.jobAt j = none ∧ (∀ k, k ≠ j → v.jobAt k = s.jobAt k) ∧ v.entryAt i = none
      ∧ (∀ k, k ≠ i → v.entryAt k = s.entryAt k)
      ∧ (∀ x ∈ s.chain e, (s.chunkAt x).owner = .entry i → v.chunkAt x = freeChunk) ∧ v.port.owner ≠ some j
      ∧ v.cat.counter = s.cat.counter ∧ v.cat.mark = true ∧ v.cpe = s.cpe := by
  obtain ⟨hou, notes, freed⟩ := freeEntry_of_entryAt he
  obtain ⟨chunkMap, mapList, free, frame⟩ := freeChunks_frame i (s.chain e) s
  have chunkFreed (x : Nat) (hx : x ∈ s.chain e) (owned : (s.chunkAt x).owner = .entry i) :
      chunkIn chunkMap x = freeChunk := by
    have now : (freeChunks i (s.chain e) s).chunkAt x = freeChunk := by
      rw [chunkAt_freeChunks chunks, if_pos hx, freedChunk_of_owned owned]
    rw [frame] at now
    exact now
  rw [frame] at freed
  let t := freeEntry i s
  have hjt : t.jobAt j = some job := by rw [State.jobAt, show t.jt = s.jt from freeEntry_jt i]; exact hj
  have gone : t.entryAt i = none := by
    rw [show t = _ from freed]
    exact smapGet_smapDel_self _ entries
  have noRef : dropRef i t = t := by
    unfold dropRef modEntry
    rw [gone]
  have items : t.doneItems job = (0, 0, 0) := by
    rw [State.doneItems, hb, hi]
    dsimp only
    rw [Option.bind_some, gone]
  have rest : t.entriesWithout job = smapDel s.cat.entries i := by
    rw [State.entriesWithout, hi]
    dsimp only
    rw [noRef, show t = _ from freed]
  obtain ⟨sending, hou', issued, closed⟩ := closeJob_eq hjt
  rw [rest, show t = _ from freed] at closed
  have kept : settleEntry job .cancelled (closeJob j t) = closeJob j t := by rw [settleEntry, hi, hb]
  refine ⟨closeJob j t, ?_, ?_, fun k hk => ?_, ?_, fun k hk => ?_, fun x hx owned => ?_, ?_, ?_, ?_, ?_⟩
  · rw [endJob_eq hjt, items, partWith_none, kept, Job.kind, hb]
    rfl
  · rw [State.jobAt, closeJob_jobs, show t.jt = s.jt from freeEntry_jt i]
    exact smapGet_smapDel_self _ jobs.1
  · rw [State.jobAt, closeJob_jobs, show t.jt = s.jt from freeEntry_jt i]
    exact smapGet_smapDel_ne _ hk
  · rw [show t = _ from freed, closed]
    exact smapGet_smapDel_self _ entries
  · rw [show t = _ from freed, closed]
    exact smapGet_smapDel_ne _ hk
  · rw [show t = _ from freed, closed]
    exact chunkFreed x hx owned
  · rw [show t = _ from freed, closed]
    dsimp only
    split
    · intro h; cases h
    · assumption
  all_goals rw [show t = _ from freed, closed]

/-- ABORT in RUNNING or DRAINING (R67). -/
theorem abortTake_going (capture : s.captureJob = some (j, job, c)) (notArmed : c.state ≠ .armed) :
    abortTake s = settle (abortCapture j (busyWith .abort s)) := by
  rw [abortTake, capture]
  dsimp only
  cases state : c.state with
  | armed => exact absurd state notArmed
  | running => rfl
  | draining => rfl

/-- The capture with a write issued waits, holding at most the block of that write (R67). -/
theorem abortCapture_waits (hj : s.jobAt j = some job) (hb : job.body = .capture c) (issued : s.issuedBy j = true) :
    abortCapture j s
      = { s with jt.jobs := smapSet s.jt.jobs j { job with body := .capture (c.emptied true .abort) } } := by
  unfold abortCapture
  dsimp only
  rw [issued, if_pos rfl]
  exact modCapture_eq _ hj hb

/-- With no write issued the entry is freed and the job ends at once (R67). -/
theorem abortCapture_ends (hj : s.jobAt j = some job) (hb : job.body = .capture c) (idle : s.issuedBy j = false) :
    abortCapture j s = finishAbort j
      { s with jt.jobs := smapSet s.jt.jobs j { job with body := .capture (c.emptied false .abort) } } := by
  unfold abortCapture
  dsimp only
  rw [idle, if_neg (by decide)]
  exact congrArg (finishAbort j) (modCapture_eq _ hj hb)

/-- The end of an abort frees the entry, ends the job and answers the command the port is BUSY with (R67). -/
theorem finishAbort_eq (hj : s.jobAt j = some job) (hi : job.entry = some i) :
    finishAbort j s = answerEnding (endJob j .cancelled none (freeEntry i s)) := by
  unfold finishAbort
  rw [hj, Option.bind_some, hi]

theorem emptied_waits (issued : Bool) (c : CaptureJob) :
    (c.emptied issued .abort).closed.length ≤ 1 ∧ (c.emptied issued .abort).waiting = none := by
  constructor
  · show (if _ then c.closed.take 1 else []).length ≤ 1
    split
    · rw [List.length_take]; omega
    · exact Nat.zero_le 1
  · unfold CaptureJob.waiting
    rw [if_pos (.inl rfl)]

end Abort

/-- Settles O25: the abort waits for an issued write, and otherwise frees the take at once. -/
theorem abortByCaptureState : Obligations.AbortByCaptureState := by
  intro s sound hp
  obtain ⟨jobs, ⟨entries, chunks, -⟩, -⟩ := sound
  rw [exec_abort hp]
  obtain ⟨x, reloaded⟩ := reload_act s
  rw [reloaded]
  let u : State := { s with act := x }
  refine ⟨fun none => ?idle, fun j job c capture => ?some⟩
  case idle =>
    rw [abortTake, captureJob_none (s := u) none]
    rfl
  case some =>
    obtain ⟨hj, hb⟩ := jobAt_of_captureJob jobs capture
    have captureU : u.captureJob = some (j, job, c) := capture
    refine ⟨fun armed noEntry => ?armed, fun i e notArmed idle hi he => ?freed, fun notArmed issued => ?waits⟩
    case armed =>
      obtain ⟨v, ends, gone, -, -, cat, cpe, sul⟩ := endJob_armed (s := u) jobs hj hb noEntry
      rw [abortTake, captureU]
      dsimp only
      rw [armed]
      refine ⟨_, rfl, ?_⟩
      rw [show endJob j .ok none u = _ from ends]
      exact ⟨by rw [jobAt_raise]; exact gone, by rw [raise_cat]; exact cat, raise_cpe_congr _ cpe (by rw [sul])⟩
    case freed =>
      let job' : Job := { job with body := .capture (c.emptied false .abort) }
      let t : State := { busyWith .abort u with jt.jobs := smapSet s.jt.jobs j job' }
      have jobs' : jobsOk t.jt.jobs :=
        ⟨smapRising_smapSet _ _ jobs.1, fun p hp => by
          obtain rfl | hp := mem_smapSet hp
          · exact jobs.2 (j, job) (smapGet_some_mem hj)
          · exact jobs.2 _ hp⟩
      have hj' : t.jobAt j = some job' := smapGet_smapSet_self ..
      obtain ⟨v, ends, gone, others, entry, entries', freed, port, counter, mark, cpe⟩ :=
        endJob_freed (s := t) jobs' entries chunks hj' rfl hi he
      have done : abortCapture j (busyWith .abort u)
          = respond .ok 6 0 [] (raise (.doneJob job.tag .capture .cancelled job.take 0 0 0) v) := by
        rw [abortCapture_ends (s := busyWith .abort u) hj hb idle]
        show finishAbort j t = _
        rw [finishAbort_eq hj' hi, ends]
        have current : (raise (.doneJob job'.tag .capture .cancelled job'.take 0 0 0) v).cpe.current = some .abort := by
          rw [raise_current, cpe]
          rfl
        unfold answerEnding
        rw [current]
      refine ⟨_, v, by rw [abortTake_going captureU notArmed, done], by rw [jobAt_raise]; exact gone, fun k hk => ?_,
        by rw [entryAt_raise]; exact entry, fun k hk => by rw [entryAt_raise]; exact entries' k hk, ?_, ?_, ?_, ?_, rfl⟩
      · rw [jobAt_raise, others k hk]
        exact smapGet_smapSet_ne _ _ hk
      · intro y hy owned
        rw [State.chunkAt, raise_med]
        exact freed y hy owned
      · rw [raise_port]; exact port
      · rw [raise_cat]; exact counter
      · rw [raise_cat]; exact mark
    case waits =>
      rw [abortTake_going captureU notArmed, abortCapture_waits (s := busyWith .abort u) hj hb issued]
      obtain ⟨few, still⟩ := emptied_waits true c
      exact ⟨_, _, _, rfl, rfl, rfl, smapGet_smapSet_self .., rfl, rfl, rfl, rfl, rfl, few, rfl, still, rfl, rfl⟩

section Start
variable {s : State} {j chunk : Nat} {job : Job} {c : CaptureJob}

/-! ### START (R53, R54) -/

/-- Blocks placed on the timeline keep their bytes, and the first begins where they do (R54). -/
theorem placeRing_bytes (n : Nat) (l : List SoundBlock) : (placeRing n l).map (·.bytes) = l.map (·.bytes) := by
  induction l generalizing n with
  | nil => rfl
  | cons b rest ih => rw [placeRing, List.map_cons, List.map_cons, ih]

theorem placeRing_head {n : Nat} {l : List SoundBlock} {b : SoundBlock} (h : (placeRing n l).head? = some b) : b.start = n := by
  cases l with
  | nil => cases h
  | cons a rest => cases h; rfl

/-- The chunk map once a chunk is given to an entry, and its map item waits (R33, R44). -/
theorem takeChunk_eq (x i used : Nat) (s : State) : ∃ mapList, takeChunk x i used s
    = { s with med.chunks := chunkMapSet s.med.chunks x { owner := .entry i, next := none, used := used },
               med.free := s.med.free - 1, med.mapList := mapList } := by
  unfold takeChunk setChunk queueMap
  split
  · exact ⟨s.med.mapList, rfl⟩
  · exact ⟨_, rfl⟩

/-- What an accepted START makes of the state, before the arbiter's look (R54). -/
theorem startTake_eq (tag : Nat) (hj : s.jobAt j = some job) (hb : job.body = .capture c) : ∃ mapList wt wtRetry,
    startTake j tag c chunk s = settle
      { s with
        cat.counter := s.cat.counter + 1, cat.mark := true, cat.wt := wt ++ [.counter, .entry s.lowestIndex], cat.wtRetry := wtRetry,
        cat.entries := smapSet s.cat.entries s.lowestIndex
          { newCapturing { node := s.own, seq := s.cat.counter + 1 } c.format s.sul.cfg.copiesWanted chunk with jobRefs := 1 },
        med.chunks := chunkMapSet s.med.chunks chunk { owner := .entry s.lowestIndex, next := none, used := 1 },
        med.free := s.med.free - 1, med.mapList := mapList,
        jt.jobs := smapSet s.jt.jobs j { job with take := some { node := s.own, seq := s.cat.counter + 1 },
                                                  entry := some s.lowestIndex, body := .capture c.started },
        cpe.port := .busy, cpe.current := some (.start tag { node := s.own, seq := s.cat.counter + 1 }),
        cpe.response := none } := by
  let take : TakeNo := { node := s.own, seq := s.cat.counter + 1 }
  let entry := newCapturing take c.format s.sul.cfg.copiesWanted chunk
  let created := createEntry s.lowestIndex entry [.counter] { s with cat.counter := s.cat.counter + 1 }
  obtain ⟨mapList, taken⟩ := takeChunk_eq chunk s.lowestIndex 1 created
  let t : State :=
    { created with med.chunks := chunkMapSet s.med.chunks chunk { owner := .entry s.lowestIndex, next := none, used := 1 },
                   med.free := s.med.free - 1, med.mapList := mapList }
  have ht : t.jobAt j = some job := hj
  let named : State := { t with jt.jobs := smapSet t.jt.jobs j { job with take := some take } }
  let job' : Job := { job with take := some take, body := .capture c.started }
  let started : State := { named with jt.jobs := smapSet named.jt.jobs j job' }
  have hn : named.jobAt j = some { job with take := some take } := smapGet_smapSet_self ..
  have starts : modCapture j CaptureJob.started (modJob j (fun job => { job with take := some take }) t) = started := by
    rw [modJob_eq _ ht]
    exact modCapture_eq (s := named) _ hn hb
  have he : started.entryAt s.lowestIndex = some entry := by
    exact smapGet_smapSet_self ..
  have held := holdEntry_eq (s := started) (j := j) (job := job') (smapGet_smapSet_self ..) he
  refine ⟨mapList, s.cat.wt.map (WtItem.fixed s.lowestIndex), created.cat.wtRetry, ?_⟩
  have unfolded : startTake j tag c chunk s = settle (busyWith (.start tag take) (holdEntry j s.lowestIndex
    (modCapture j CaptureJob.started (modJob j (fun job => { job with take := some take })
      (takeChunk chunk s.lowestIndex 1 created))))) := rfl
  have jobs : smapSet (smapSet (smapSet s.jt.jobs j { job with take := some take }) j job') j
      { job' with entry := some s.lowestIndex } = smapSet s.jt.jobs j { job' with entry := some s.lowestIndex } := by
    rw [smapSet_smapSet, smapSet_smapSet]
  have entries : smapSet (smapSet s.cat.entries s.lowestIndex entry) s.lowestIndex
      { entry with jobRefs := entry.jobRefs + 1 } = smapSet s.cat.entries s.lowestIndex { entry with jobRefs := 1 } :=
    smapSet_smapSet ..
  rw [unfolded, show takeChunk chunk s.lowestIndex 1 created = t from taken, starts, held]
  dsimp only [started, named, t, created, createEntry, setMark]
  rw [jobs, entries, List.append_assoc]
  rfl

end Start

/-- Settles O23: each test refuses in its turn, and an accepted START makes one update. -/
theorem startTestsAndEffect : Obligations.StartTestsAndEffect := by
  intro s hp
  rw [exec_start hp]
  obtain ⟨x, reloaded⟩ := reload_act s
  rw [reloaded]
  let u : State := { s with act := x }
  refine ⟨fun none => ?idle, fun j job c capture => ?refused, fun j job c chunk sound capture armed noFault room unpledged count
    lowest => ?accepted⟩
  case idle =>
    rw [startCapture, captureJob_none (s := u) none]
    rfl
  case refused =>
    rw [startCapture, show u.captureJob = _ from capture]
    dsimp only
    refine ⟨fun notArmed => ?_, fun armed fault => ?_, fun armed noFault full => ?_, fun armed noFault room pledged => ?_,
      fun armed noFault room unpledged count => ?_⟩
    · rw [if_pos notArmed]; rfl
    all_goals rw [if_neg (not_not.mpr armed)]
    · rw [fault]; rfl
    all_goals rw [noFault]
    · rw [if_neg (by decide), if_pos (show u.catalogueFull = true from decide_eq_true full)]; rfl
    all_goals
      rw [if_neg (by decide), if_neg (show ¬ u.catalogueFull = true from fun h => by
        have : 2048 ≤ s.cat.entries.length + s.cat.reserved := of_decide_eq_true h
        omega)]
    · rw [if_pos (show u.unpledged < 1 from pledged)]; rfl
    · rw [if_neg (show ¬ u.unpledged < 1 from Nat.not_lt.mpr unpledged), if_pos count]; rfl
  case accepted =>
    obtain ⟨jobs, ⟨entries, chunks, -⟩, -⟩ := sound
    obtain ⟨hj, hb⟩ := jobAt_of_captureJob jobs capture
    obtain ⟨mapList, wt, wtRetry, starts⟩ := startTake_eq (s := u) (chunk := chunk) job.tag hj hb
    have accepts : startCapture u = startTake j job.tag c chunk u := by
      rw [startCapture, show u.captureJob = _ from capture]
      dsimp only
      rw [if_neg (not_not.mpr armed), noFault, if_neg (by decide), if_neg (show ¬ u.catalogueFull = true from fun h => by
        have : 2048 ≤ s.cat.entries.length + s.cat.reserved := of_decide_eq_true h
        omega), if_neg (show ¬ u.unpledged < 1 from Nat.not_lt.mpr unpledged), if_neg (Nat.not_le.mpr count),
        show u.lowestFree = some chunk from lowest]
    have chunkAfter (k : Nat) := chunkIn_chunkMapSet chunks chunk k { owner := .entry s.lowestIndex, next := none, used := 1 }
    refine ⟨_, s.lowestIndex, _, _, c.started, congrArg Host.Outcome.next (accepts.trans starts), rfl,
      smapGet_smapLeastFree 0 entries, fun k hk => smapGet_below_leastFree entries (Nat.zero_le k) hk, smapGet_smapSet_self ..,
      fun k hk => smapGet_smapSet_ne _ _ hk, rfl, rfl, rfl, rfl, rfl, rfl, rfl, rfl, rfl, rfl, rfl, rfl, rfl, rfl, rfl,
      ?_, rfl, fun k hk => ?_, ⟨wt, rfl⟩, rfl, smapGet_smapSet_self .., rfl, rfl, rfl, rfl,
      fun k hk => smapGet_smapSet_ne _ _ hk, rfl, rfl, placeRing_bytes 0 c.ring, fun b hb => placeRing_head hb, rfl, rfl, rfl,
      rfl, rfl, rfl, rfl, rfl, rfl, rfl, rfl⟩
    · rw [State.chunkAt]
      exact (chunkAfter chunk).trans (if_pos rfl)
    · rw [State.chunkAt]
      exact (chunkAfter k).trans (if_neg hk)

section FrameIn
variable {s : State} {j : Nat} {job : Job} {c : CaptureJob}

/-! ### A frame in (R52, R55, R58, R63) -/

/-- A frame in ARMED joins the block being filled, or completes it, the ring keeping its newest blocks (R52). -/
theorem ringFrame_spec (samples : List Nat) (c : CaptureJob) {b : SoundBlock}
    (hb : b = (c.filling.getD (emptyBlock 0)).add c.format samples) :
    (b.frames ≠ c.format.perBlock → c.ringFrame samples = { c with filling := some b })
      ∧ (b.frames = c.format.perBlock →
          c.ringFrame samples = { c with filling := none, ring := (c.ringFrame samples).ring }
            ∧ (c.ringFrame samples).ring <:+ c.ring ++ [b]
            ∧ (c.ringFrame samples).ring.length = min c.preRoll (c.ring.length + 1)) := by
  unfold CaptureJob.ringFrame
  dsimp only
  rw [← hb]
  refine ⟨fun part => if_neg part, fun full => ?_⟩
  rw [if_pos full]
  refine ⟨rfl, List.drop_suffix _ _, ?_⟩
  show (trimRing c.preRoll (c.ring ++ [b])).length = _
  rw [trimRing, List.length_drop, List.length_append, List.length_singleton]
  omega

/-- A frame in RUNNING with a slot joins the blocks (R55). -/
theorem takeFrame_slot (samples : List Nat) (slot : c.filling.isSome = true ∨ c.closed.length < 96) :
    (c.takeFrame samples).offset = c.offset + 1 ∧ (c.takeFrame samples).discard = c.discard
      ∧ (c.takeFrame samples).cut = c.cut ∧ ((c.takeFrame samples).filling.elim (c.takeFrame samples).closed
          fun b => (c.takeFrame samples).closed ++ [b]).flatMap (·.bytes)
        = (c.filling.elim c.closed fun b => c.closed ++ [b]).flatMap (·.bytes) ++ frameBytesOf c.format samples := by
  have joins (b : SoundBlock) : (b.add c.format samples).bytes = b.bytes ++ frameBytesOf c.format samples := rfl
  have takes : c.takeFrame samples = (let b := (c.filling.getD (emptyBlock c.offset)).add c.format samples
      if b.frames = c.format.perBlock then { c with offset := c.offset + 1, closed := c.closed ++ [b], filling := none }
      else { c with offset := c.offset + 1, filling := some b }) := by
    unfold CaptureJob.takeFrame
    cases filling : c.filling with
    | some b => rfl
    | none =>
      have room : c.closed.length < 96 := slot.resolve_left (by rw [filling]; decide)
      rw [decide_eq_true room]
  rw [takes]
  dsimp only
  split
  · refine ⟨rfl, rfl, rfl, ?_⟩
    cases c.filling <;> simp [joins, emptyBlock]
  · refine ⟨rfl, rfl, rfl, ?_⟩
    cases c.filling <;> simp [joins, emptyBlock]

/-- A frame in RUNNING with no slot joins the discard run (R58). -/
theorem takeFrame_noSlot (samples : List Nat) (filling : c.filling = none) (full : 96 ≤ c.closed.length) :
    c.takeFrame samples = { c with offset := c.offset + 1, discard := some (match c.discard with
                                                                            | none => (c.offset, 1)
                                                                            | some (start, n) => (start, n + 1)) } := by
  unfold CaptureJob.takeFrame
  rw [filling, decide_eq_false (Nat.not_lt.mpr full)]
  cases discard : c.discard <;> simp

/-- SAMPLE_FRAME_IN where a CAPTURE job owns the port (R48, R49, R171). -/
theorem exec_sampleFrameIn (whole : Bool) (high low : List Bool) (owner : s.port.owner = some j) (hj : s.jobAt j = some job)
    (hb : job.body = .capture c) : exec (.sampleFrameIn whole high low) s
      = .next (if whole && s.samplePowered then settle (modCapture j (CaptureJob.frameIn high low) s) else s) := by
  have row : exec (.sampleFrameIn whole high low) s = execSampleFrameIn whole high low s := rfl
  have found : s.captureAt j = some j := by rw [State.captureAt, hj, Option.bind_some, Job.captureOf, hb]; rfl
  rw [row, execSampleFrameIn, owner, Option.bind_some, found]

theorem samplePowered_iff : s.samplePowered = true ↔ s.act.state ≠ .sleep := by simp [State.samplePowered]

/-- The frame at the timeline's last offset ends the take (R63). -/
theorem limitTimeline_last (samples : List Nat) (c : CaptureJob) :
    (limitTimeline 4294967294 (c.takeFrame samples)).state = .draining := by
  show (c.takeFrame samples).stopped.drained.state = .draining
  unfold CaptureJob.drained
  split <;> rfl

end FrameIn

/-- Settles O29: the frame reaches the job in its state. -/
theorem sampleFrameInFillsBlocks : Obligations.SampleFrameInFillsBlocks := by
  intro s j job c high low owner hj hb
  refine ⟨?part, fun asleep => ?asleep, fun awake => ?taken⟩
  case part => rw [exec_sampleFrameIn false high low owner hj hb]; rfl
  case asleep =>
    have off : s.samplePowered = false := Bool.eq_false_iff.mpr fun on => samplePowered_iff.mp on asleep
    rw [exec_sampleFrameIn true high low owner hj hb, off]
    rfl
  case taken =>
    have row : exec (.sampleFrameIn true high low) s = .next (settle (modCapture j (CaptureJob.frameIn high low) s)) := by
      rw [exec_sampleFrameIn true high low owner hj hb, samplePowered_iff.mpr awake]
      rfl
    have running (going : c.state = .running) : c.frameIn high low
        = limitTimeline c.offset (c.takeFrame (frameSamples c.format high low)) := by rw [CaptureJob.frameIn, going]
    refine ⟨_, c.frameIn high low, row, modCapture_eq _ hj hb, fun draining => ?_, fun armed b hfill => ?_,
      fun going early => ?_, fun going last cut discard => ?_⟩
    · rw [CaptureJob.frameIn, draining]
    · have ring : c.frameIn high low = c.ringFrame (frameSamples c.format high low) := by rw [CaptureJob.frameIn, armed]
      rw [ring]
      exact ringFrame_spec _ c hfill
    · have stays : c.frameIn high low = c.takeFrame (frameSamples c.format high low) := by
        rw [running going, limitTimeline, if_neg early]
      rw [stays]
      have either : (c.filling.isSome = true ∨ c.closed.length < 96) ∨ c.filling = none ∧ 96 ≤ c.closed.length := by
        cases c.filling with
        | some b => exact .inl (.inl rfl)
        | none => exact (Nat.lt_or_ge c.closed.length 96).imp .inr (⟨rfl, ·⟩)
      refine ⟨?_, fun slot => ?_, fun filling full => ?_⟩
      · obtain slot | ⟨filling, full⟩ := either
        · exact (takeFrame_slot _ slot).1
        · rw [takeFrame_noSlot _ filling full]
      · obtain ⟨-, discard, -, bytes⟩ := takeFrame_slot (frameSamples c.format high low) slot
        exact ⟨discard, bytes⟩
      · rw [takeFrame_noSlot _ filling full]
        refine ⟨rfl, filling, ?_⟩
        cases c.discard <;> rfl
    · rw [running going, last]
      refine ⟨limitTimeline_last _ c, fun slot => ?_⟩
      obtain ⟨offset, noRun, noCut, -⟩ := takeFrame_slot (frameSamples c.format high low) slot
      obtain ⟨-, -, -, cutAt, -⟩ := stopped_drained (c := c.takeFrame (frameSamples c.format high low)) (noCut.trans cut)
      refine cutAt.trans ?_
      rw [noRun, discard, offset, last]

end Sys2Proof.Machine

/-! ## Proofs: the sample output

SUPPORT. What a PLAY job's operations make of its record, its end, and SAMPLE_FRAME_OUT settled from these. -/

namespace Sys2Proof.Machine

section Play
variable {s : State} {j : Nat} {job : Job} {p : PlayJob}

/-! ### PLAY jobs -/

/-- A PLAY job's body changes, and nothing else. -/
theorem modPlay_eq (f : PlayJob → PlayJob) (hj : s.jobAt j = some job) (hb : job.body = .play p) :
    modPlay j f s = { s with jt.jobs := smapSet s.jt.jobs j { job with body := .play (f p) } } := by
  rw [modPlay, modJob_eq _ hj, hb]

theorem modJob_modPlay (g : Job → Job) (f : PlayJob → PlayJob) (hj : s.jobAt j = some job) (hb : job.body = .play p) :
    modJob j g (modPlay j f s)
      = { s with jt.jobs := smapSet s.jt.jobs j (g { job with body := .play (f p) }) } := by
  rw [modPlay, modJob_modJob, modJob_eq _ hj, hb]

/-- The reads a PLAY job asks for change its requests, its slots and the next sequence to read (R152). -/
theorem requestReads_eq (hj : s.jobAt j = some job) (hb : job.body = .play p) : ∃ jobs reqs nextRead slots,
    requestReads j s = { s with jt.jobs := jobs }
      ∧ smapGet jobs j = some { job with reqs := reqs, body := .play { p with nextRead := nextRead, slots := slots } }
      ∧ (∀ k, k ≠ j → smapGet jobs k = s.jobAt k) ∧ (smapRising s.jt.jobs = true → smapRising jobs = true) := by
  have same : job = { job with body := .play p } := by rw [← hb]
  unfold requestReads Job.playOf
  rw [hj]
  dsimp only
  rw [hb]
  dsimp only
  split
  · exact ⟨s.jt.jobs, job.reqs, p.nextRead, p.slots, rfl, by rw [← same]; exact hj, fun _ _ => rfl, fun h => h⟩
  · exact ⟨_, _, _, _, modJob_modPlay _ _ hj hb, smapGet_smapSet_self .., fun k hk => smapGet_smapSet_ne _ _ hk,
      smapRising_smapSet _ _⟩

/-- The end of a PLAY job that gives no parting frame (R48, R153, R159): its record and its reference go, its port is unowned. -/
theorem endJob_play (result : Result) (rising : smapRising s.jt.jobs = true) (hj : s.jobAt j = some job)
    (hb : job.body = .play p) :
    ∃ v, endJob j result none s = raise (.doneJob job.tag .play result job.take (s.playSource p) p.underruns 0) v
      ∧ v.jobAt j = none ∧ (∀ k, k ≠ j → v.jobAt k = s.jobAt k)
      ∧ v.port = { s.port with owner := if s.port.owner = some j then none else s.port.owner,
                               line := if s.port.owner = some j then .released else s.port.line }
      ∧ v.cat = { s.cat with entries := s.entriesWithout job } ∧ v.cpe = s.cpe ∧ v.sul = s.sul := by
  obtain ⟨sending, hou, issued, closed⟩ := closeJob_eq hj
  have notPledged : job.pledged = false := by rw [Job.pledged, hb]
  have items : s.doneItems job = (s.playSource p, p.underruns, 0) := by rw [State.doneItems, hb]
  have kept : settleEntry job result (closeJob j s) = closeJob j s := by
    rw [settleEntry, hb]
    cases job.entry <;> rfl
  refine ⟨closeJob j s, ?_, ?_, fun k hk => ?_, by rw [closed], ?_, by rw [closed], by rw [closed]⟩
  · rw [endJob_eq hj, items, partWith_none, kept, Job.kind, hb]
    rfl
  · rw [State.jobAt, closeJob_jobs]
    exact smapGet_smapDel_self _ rising
  · rw [State.jobAt, closeJob_jobs]
    exact smapGet_smapDel_ne _ hk
  · rw [closed, notPledged]
    rfl

end Play

section FrameOut
variable {s : State} {j : Nat} {job : Job} {p : PlayJob} {t : TakeShape}

/-! ### A frame out (R144, R153 to R156) -/

theorem halfBits_nil (edges : Nat) : halfBits edges [] = List.replicate edges false := by simp [halfBits]

/-- SAMPLE_FRAME_OUT where a PLAY job owns the port (R153, R171). -/
theorem exec_sampleFrameOut (whole : Bool) (highEdges lowEdges : Nat) (owner : s.port.owner = some j)
    (hj : s.jobAt j = some job) (hb : job.body = .play p) : exec (.sampleFrameOut whole highEdges lowEdges) s
      = if whole && s.samplePowered then .next (settle (playPeriod j highEdges lowEdges job p s))
        else .next { s with port.lineHigh := [], port.lineLow := [] } := by
  have row : exec (.sampleFrameOut whole highEdges lowEdges) s = execSampleFrameOut whole highEdges lowEdges s := rfl
  have found : s.playAt j = some (j, job, p) := by rw [State.playAt, hj, Option.bind_some, Job.playOf, hb]; rfl
  rw [row, execSampleFrameOut, owner, Option.bind_some, found]
  cases whole && s.samplePowered <;> rfl

theorem driveZeros_eq (highEdges lowEdges : Nat) (s : State) : driveZeros highEdges lowEdges s
    = { s with port.lineHigh := List.replicate highEdges false, port.lineLow := List.replicate lowEdges false } := by
  unfold driveZeros
  rw [halfBits_nil, halfBits_nil]

/-- Before its output starts a PLAY job drives zeros (R154). -/
theorem playPeriod_before (highEdges lowEdges : Nat)
    (before : p.shape = none ∨ p.started = false ∧ p.mayStart = false) :
    playPeriod j highEdges lowEdges job p s = driveZeros highEdges lowEdges s := by
  unfold playPeriod
  obtain none | ⟨notStarted, mayNot⟩ := before
  · rw [none]
  · rw [notStarted, mayNot]
    cases p.shape <;> rfl

/-- The state in which a period after output has started is driven. -/
def State.playing (s : State) (j : Nat) (job : Job) (p : PlayJob) : State :=
  { s with jt.jobs := smapSet s.jt.jobs j { job with body := .play { p with started := true } } }

/-- Once output has started, or may start, the cursor plays (R154). -/
theorem playPeriod_plays (highEdges lowEdges : Nat) (hj : s.jobAt j = some job) (hb : job.body = .play p)
    (shape : p.shape = some t) (starts : p.started = true ∨ p.mayStart = true) :
    playPeriod j highEdges lowEdges job p s = playFrame j highEdges lowEdges job p t (s.playing j job p) := by
  have started : (p.started || p.mayStart) = true := by
    obtain h | h := starts <;> rw [h]
    · rfl
    · exact Bool.or_true _
  unfold playPeriod
  rw [shape]
  dsimp only
  rw [if_pos started, modPlay_eq _ hj hb]
  rfl

/-- Below the end offset, or outside LOCAL and DRAINING, the job goes on (R156). -/
theorem endAtU_goesOn (hj : s.jobAt j = some job) (hb : job.body = .play p) (before : p.cursor < p.endOffset) :
    endAtU j s = s := by
  unfold endAtU
  rw [hj, Option.bind_some, Job.playOf, hb]
  dsimp only
  have notYet : ¬ p.endOffset ≤ p.cursor := by omega
  cases p.state <;> simp [notYet]

/-- In LOCAL and DRAINING a cursor at the end offset ends the job OK (R156). -/
theorem endAtU_ends (hj : s.jobAt j = some job) (hb : job.body = .play p) (state : p.state = .localStore ∨ p.state = .draining)
    (reached : p.endOffset ≤ p.cursor) : endAtU j s = endJob j .ok none s := by
  unfold endAtU
  rw [hj, Option.bind_some, Job.playOf, hb]
  dsimp only
  obtain h | h := state <;> rw [h] <;> exact if_pos reached

theorem find_gap (before : p.cursor < p.endOffset) (gap : inGap t.gaps p.cursor = true) : p.find t = .silence := by
  unfold PlayJob.find
  rw [if_neg (by omega), if_pos gap]

/-- The frame the cursor finds lies before the end offset. -/
theorem cursor_lt_of_find {f : CursorFrame} (h : p.find t = f) (hf : f ≠ .atEnd) : p.cursor < p.endOffset := by
  by_contra notBefore
  unfold PlayJob.find at h
  rw [if_pos (by omega)] at h
  exact hf h.symm

/-- Freeing the slot of a block that is given leaves the rest of the record (R144). -/
theorem freeGiven_eq (t : TakeShape) (block position : Nat) (p : PlayJob) :
    ∃ slots, p.freeGiven t block position = { p with slots := slots } := by
  unfold PlayJob.freeGiven
  dsimp only
  split
  · exact ⟨_, rfl⟩
  · exact ⟨p.slots, rfl⟩

/-- A frame found is driven, the cursor moves on, and further reads may be asked for (R144, R152, R153). -/
theorem playFrame_stored {block position : Nat} {slot : Slot} (highEdges lowEdges : Nat)
    (found : p.find t = .stored block position slot) : ∃ u jobs reqs nextRead slots,
    u = { drive t.format (p.frameAt t.format position slot) highEdges lowEdges s with jt.jobs := jobs }
      ∧ playFrame j highEdges lowEdges job p t (s.playing j job p) = endAtU j u
      ∧ u.jobAt j = some { job with reqs := reqs, body := .play { p with
          started := true, cursor := p.cursor + 1, inUnderrun := false, nextRead := nextRead, slots := slots } }
      ∧ (∀ k, k ≠ j → u.jobAt k = s.jobAt k) ∧ (smapRising s.jt.jobs = true → smapRising u.jt.jobs = true) := by
  let driven : State := drive t.format (p.frameAt t.format position slot) highEdges lowEdges (s.playing j job p)
  have record : driven.jobAt j = some { job with body := .play { p with started := true } } := smapGet_smapSet_self ..
  let moved := modPlay j (fun p => (p.freeGiven t block position).moveOn) driven
  have moves := modPlay_eq (fun p => (p.freeGiven t block position).moveOn) record rfl
  obtain ⟨freed, free⟩ := freeGiven_eq t block position { p with started := true }
  rw [free] at moves
  obtain ⟨jobs, reqs, nextRead, slots, reads, got, others, rising⟩ :=
    requestReads_eq (s := moved) (by rw [show moved = _ from moves]; exact smapGet_smapSet_self ..) rfl
  refine ⟨_, jobs, reqs, nextRead, slots, rfl, ?_, got, fun k hk => ?_, fun h => rising ?_⟩
  · unfold playFrame
    rw [found]
    show endAtU j (requestReads j moved) = _
    rw [reads, show moved = _ from moves]
    rfl
  · refine (others k hk).trans ?_
    rw [show moved = _ from moves]
    exact (smapGet_smapSet_ne _ _ hk).trans (smapGet_smapSet_ne _ _ hk)
  · rw [show moved = _ from moves]
    exact smapRising_smapSet _ _ (smapRising_smapSet _ _ h)

/-- In a gap zeros are driven and the cursor moves on (R144). -/
theorem playFrame_gap (highEdges lowEdges : Nat) (found : p.find t = .silence) :
    playFrame j highEdges lowEdges job p t (s.playing j job p)
      = endAtU j { driveZeros highEdges lowEdges s with
          jt.jobs := smapSet s.jt.jobs j { job with body := .play { p with started := true, cursor := p.cursor + 1,
                                                                           inUnderrun := false } } } := by
  let driven : State := driveZeros highEdges lowEdges (s.playing j job p)
  have record : driven.jobAt j = some { job with body := .play { p with started := true } } := smapGet_smapSet_self ..
  unfold playFrame
  rw [found]
  dsimp only
  rw [modPlay_eq (s := driven) PlayJob.moveOn record rfl]
  show endAtU j { driveZeros highEdges lowEdges s with jt.jobs := smapSet (smapSet s.jt.jobs j _) j _ } = _
  rw [smapSet_smapSet]
  rfl

/-- A frame that is not ready: zeros, and one underrun more, told once for a run of them (R155). -/
theorem playFrame_missing (highEdges lowEdges : Nat) (missing : p.find t = .missing) (pending : p.pendingResult = none) :
    ∃ job' p' u, playFrame j highEdges lowEdges job p t (s.playing j job p) = u
      ∧ u.jobAt j = some job' ∧ job'.body = .play p' ∧ p'.cursor = p.cursor ∧ p'.underruns = min 65535 (p.underruns + 1)
      ∧ p'.inUnderrun = true ∧ u.cat = s.cat ∧ u.med = s.med
      ∧ (u.port.lineHigh = List.replicate highEdges false ∧ u.port.lineLow = List.replicate lowEdges false)
      ∧ (p.inUnderrun = true → u.cpe = s.cpe)
      ∧ (∀ take, p.inUnderrun = false → job.take = some take →
          u.cpe = (raise (.underrun job.tag take p.cursor) s).cpe) := by
  let driven : State := driveZeros highEdges lowEdges (s.playing j job p)
  have record : driven.jobAt j = some { job with body := .play { p with started := true } } := smapGet_smapSet_self ..
  let counted := modPlay j (fun p => { p with underruns := satAdd 65535 p.underruns 1, inUnderrun := true }) driven
  have counts := modPlay_eq (fun p => { p with underruns := satAdd 65535 p.underruns 1, inUnderrun := true }) record rfl
  have plays : playFrame j highEdges lowEdges job p t (s.playing j job p) = (match p.inUnderrun, job.take with
      | false, some take => raise (.underrun job.tag take p.cursor) counted
      | _, _ => counted) := by
    unfold playFrame underrun
    rw [missing]
    dsimp only
    rw [pending] <;> cases p.inUnderrun <;> cases job.take <;> rfl
  have lines : counted.port.lineHigh = List.replicate highEdges false
      ∧ counted.port.lineLow = List.replicate lowEdges false := by
    rw [show counted = _ from counts]
    show (driveZeros highEdges lowEdges _).port.lineHigh = _ ∧ (driveZeros highEdges lowEdges _).port.lineLow = _
    rw [driveZeros_eq]
    exact ⟨rfl, rfl⟩
  have got : counted.jobAt j = some { job with body := .play { p with
      started := true, underruns := satAdd 65535 p.underruns 1, inUnderrun := true } } := by
    rw [show counted = _ from counts]
    exact smapGet_smapSet_self ..
  have rest : counted.cat = s.cat ∧ counted.med = s.med ∧ counted.cpe = s.cpe ∧ counted.sul = s.sul := by
    rw [show counted = _ from counts]
    exact ⟨rfl, rfl, rfl, rfl⟩
  obtain ⟨cat, med, cpe, sul⟩ := rest
  cases within : p.inUnderrun with
  | true =>
    rw [within] at plays
    exact ⟨_, _, counted, plays, got, rfl, rfl, rfl, rfl, cat, med, lines, fun _ => cpe, fun _ h => by cases h⟩
  | false =>
    cases take : job.take with
    | none =>
      rw [within, take] at plays
      exact ⟨_, _, counted, plays, got, rfl, rfl, rfl, rfl, cat, med, lines, fun h => by (cases h), fun _ _ h => by cases h⟩
    | some take' =>
      rw [within, take] at plays
      refine ⟨_, _, _, plays, (jobAt_raise ..).trans got, rfl, rfl, rfl, rfl, (raise_cat ..).trans cat,
        (raise_med ..).trans med, ?_, fun h => by (cases h), fun _ _ h => ?_⟩
      · dsimp only
        rw [raise_port]
        exact lines
      · cases h
        exact raise_cpe_congr _ cpe (by rw [sul])

end FrameOut

section FrameOutEnds
variable {s : State} {j : Nat} {job : Job} {p : PlayJob} {t : TakeShape}

/-- What a PLAY job's end at the port makes of a state whose other parts stand as in `s` (R48, R153, R156, R159). -/
theorem endJob_atPort {u : State} {job' : Job} {p' : PlayJob} (result : Result) (rising : smapRising u.jt.jobs = true)
    (hj : u.jobAt j = some job') (hb : job'.body = .play p') (others : ∀ k, k ≠ j → u.jobAt k = s.jobAt k)
    (owner : u.port.owner = some j) (entry : job'.entry = job.entry) (tag : job'.tag = job.tag) (take : job'.take = job.take)
    (source : u.playSource p' = if p.state = .localStore then s.own else p.holder.getD 0xFF)
    (underruns : p'.underruns = p.underruns) (cat : u.cat = s.cat) (cpe : u.cpe = s.cpe) (sul : u.sul = s.sul) :
    (endJob j result none u).jobAt j = none ∧ (∀ k, k ≠ j → (endJob j result none u).jobAt k = s.jobAt k)
      ∧ (endJob j result none u).port.owner = none ∧ (endJob j result none u).port.line = .released
      ∧ (∀ i e, job.entry = some i → s.entryAt i = some e →
          (endJob j result none u).entryAt i = some { e with jobRefs := e.jobRefs - 1 })
      ∧ (endJob j result none u).cpe = (raise (.doneJob job.tag .play result job.take
          (if p.state = .localStore then s.own else p.holder.getD 0xFF) p.underruns 0) s).cpe := by
  obtain ⟨v, ends, gone, rest, port, vcat, vcpe, vsul⟩ := endJob_play result rising hj hb
  rw [ends, raise_port]
  refine ⟨by rw [jobAt_raise]; exact gone, fun k hk => by rw [jobAt_raise, rest k hk, others k hk], by rw [port]; exact if_pos owner,
    by rw [port]; exact if_pos owner, fun i e hi he => ?_, ?_⟩
  · have heU : u.entryAt i = some e := by rw [State.entryAt, cat]; exact he
    rw [entryAt_raise, State.entryAt, vcat, entriesWithout_some (entry.trans hi) heU]
    exact smapGet_smapSet_self ..
  · rw [source, tag, take, underruns]
    exact raise_cpe_congr _ (vcpe.trans cpe) (by rw [vsul, sul])

theorem lines_endJob (result : Result) (rising : smapRising s.jt.jobs = true) (hj : s.jobAt j = some job)
    (hb : job.body = .play p) : (endJob j result none s).port.lineHigh = s.port.lineHigh
      ∧ (endJob j result none s).port.lineLow = s.port.lineLow := by
  obtain ⟨v, ends, -, -, port, -⟩ := endJob_play result rising hj hb
  rw [ends, raise_port, port]
  exact ⟨rfl, rfl⟩

theorem playSource_eq {q : PlayJob} (state : q.state = p.state) (holder : q.holder = p.holder) :
    s.playSource q = if p.state = .localStore then s.own else p.holder.getD 0xFF := by
  unfold State.playSource
  rw [state, holder]
  cases p.state <;> rfl

end FrameOutEnds

/-- Settles O30: the period by what the cursor finds. -/
theorem sampleFrameOutPlaysTheCursor : Obligations.SampleFrameOutPlaysTheCursor := by
  intro s highEdges lowEdges
  refine ⟨fun unowned whole => ?unowned, fun j job p owner hj hb => ?owned⟩
  case unowned =>
    have row : exec (.sampleFrameOut whole highEdges lowEdges) s = execSampleFrameOut whole highEdges lowEdges s := rfl
    rw [row, execSampleFrameOut, unowned]
    cases whole && s.samplePowered <;> rfl
  case owned =>
    intro frame drives silent ends
    have part := exec_sampleFrameOut false highEdges lowEdges owner hj hb
    have row (awake : s.act.state ≠ .sleep) : exec (.sampleFrameOut true highEdges lowEdges) s
        = .next (settle (playPeriod j highEdges lowEdges job p s)) := by
      rw [exec_sampleFrameOut true highEdges lowEdges owner hj hb, samplePowered_iff.mpr awake]
      rfl
    refine ⟨part, fun asleep => ?asleep, fun awake before => ?before,
      fun t block position slot awake shape starts found more => ?stored, fun t awake shape starts gap more => ?gap,
      fun t sound awake shape starts state last => ⟨fun gap => ?gapEnd, fun block position slot found => ?storedEnd⟩,
      fun t result sound awake shape starts missing pending => ?pending,
      fun t awake shape starts missing pending => ?missing⟩
    case asleep =>
      have off : s.samplePowered = false := Bool.eq_false_iff.mpr fun on => samplePowered_iff.mp on asleep
      rw [exec_sampleFrameOut true highEdges lowEdges owner hj hb, off]
      rfl
    case before =>
      rw [row awake, playPeriod_before highEdges lowEdges before, driveZeros_eq]
    case stored =>
      obtain ⟨u, jobs, reqs, nextRead, slots, hu, plays, got, others, -⟩ :=
        playFrame_stored (s := s) (j := j) (job := job) highEdges lowEdges found
      rw [row awake, playPeriod_plays highEdges lowEdges hj hb shape starts, plays, endAtU_goesOn got rfl more]
      subst hu
      exact ⟨_, _, _, rfl, ⟨rfl, rfl⟩, got, rfl, rfl, rfl, rfl, rfl, others, rfl, rfl, rfl⟩
    case gap =>
      let u : State := { driveZeros highEdges lowEdges s with
        jt.jobs := smapSet s.jt.jobs j { job with body := .play { p with started := true, cursor := p.cursor + 1,
                                                                         inUnderrun := false } } }
      have got : u.jobAt j = _ := smapGet_smapSet_self ..
      have plays : playFrame j highEdges lowEdges job p t (s.playing j job p) = endAtU j u :=
        playFrame_gap highEdges lowEdges (find_gap (by omega) gap)
      rw [row awake, playPeriod_plays highEdges lowEdges hj hb shape starts, plays, endAtU_goesOn got rfl more]
      refine ⟨u, rfl, ?_, got, fun k hk => smapGet_smapSet_ne _ _ hk, rfl, rfl, rfl⟩
      exact ⟨halfBits_nil highEdges, halfBits_nil lowEdges⟩
    case gapEnd =>
      obtain ⟨⟨rising, -⟩, -⟩ := sound
      let u : State := { driveZeros highEdges lowEdges s with
        jt.jobs := smapSet s.jt.jobs j { job with body := .play { p with started := true, cursor := p.cursor + 1,
                                                                         inUnderrun := false } } }
      have got : u.jobAt j = _ := smapGet_smapSet_self ..
      have rising' : smapRising u.jt.jobs = true := smapRising_smapSet _ _ rising
      have plays : playFrame j highEdges lowEdges job p t (s.playing j job p) = endAtU j u :=
        playFrame_gap highEdges lowEdges (find_gap (by omega) gap)
      rw [row awake, playPeriod_plays highEdges lowEdges hj hb shape starts, plays,
        endAtU_ends got rfl state (Nat.le_of_eq last.symm)]
      refine ⟨_, rfl, ?_, ?_⟩
      · obtain ⟨high, low⟩ := lines_endJob .ok rising' got rfl
        exact ⟨high.trans (halfBits_nil highEdges), low.trans (halfBits_nil lowEdges)⟩
      · exact endJob_atPort .ok rising' got rfl (fun k hk => smapGet_smapSet_ne _ _ hk) owner rfl rfl rfl
          (playSource_eq rfl rfl) rfl rfl rfl rfl
    case storedEnd =>
      obtain ⟨⟨rising, -⟩, -⟩ := sound
      obtain ⟨u, jobs, reqs, nextRead, slots, hu, plays, got, others, rising'⟩ :=
        playFrame_stored (s := s) (j := j) (job := job) highEdges lowEdges found
      rw [row awake, playPeriod_plays highEdges lowEdges hj hb shape starts, plays,
        endAtU_ends got rfl state (Nat.le_of_eq last.symm)]
      refine ⟨_, rfl, ?_, ?_⟩
      · obtain ⟨high, low⟩ := lines_endJob .ok (rising' rising) got rfl
        exact ⟨high.trans (by rw [hu]; rfl), low.trans (by rw [hu]; rfl)⟩
      · subst hu
        exact endJob_atPort .ok (rising' rising) got rfl others owner rfl rfl rfl (playSource_eq rfl rfl) rfl rfl rfl rfl
    case pending =>
      obtain ⟨⟨rising, -⟩, -⟩ := sound
      let u : State := driveZeros highEdges lowEdges (s.playing j job p)
      have got : u.jobAt j = some { job with body := .play { p with started := true } } := smapGet_smapSet_self ..
      have rising' : smapRising u.jt.jobs = true := smapRising_smapSet _ _ rising
      have ended : playFrame j highEdges lowEdges job p t (s.playing j job p) = endJob j result none u := by
        unfold playFrame underrun
        rw [missing]
        dsimp only
        rw [pending]
      rw [row awake, playPeriod_plays highEdges lowEdges hj hb shape starts, ended]
      refine ⟨_, rfl, ?_, ?_⟩
      · obtain ⟨high, low⟩ := lines_endJob result rising' got rfl
        exact ⟨high.trans (halfBits_nil highEdges), low.trans (halfBits_nil lowEdges)⟩
      · exact endJob_atPort result rising' got rfl (fun k hk => smapGet_smapSet_ne _ _ hk) owner rfl rfl rfl
          (playSource_eq rfl rfl) rfl rfl rfl rfl
    case missing =>
      obtain ⟨job', p', u, counted, record, body, cursor, underruns, inUnderrun, cat, med, lines, again, first⟩ :=
        playFrame_missing (s := s) (j := j) (job := job) highEdges lowEdges missing pending
      rw [row awake, playPeriod_plays highEdges lowEdges hj hb shape starts, counted]
      exact ⟨u, job', p', rfl, lines, record, body, cursor, underruns, inUnderrun, cat, med, again, first⟩

end Sys2Proof.Machine

/-! ## Proofs: the retrieval command and the end of jobs by command

SUPPORT. What a job's frame makes of the queue, how a PLAY job chooses its source, what a parting frame leaves in the queue, and
RETRIEVE and CANCEL settled from these. -/

namespace Sys2Proof.Machine

section Frames
variable {s : State} {j : Nat} {job : Job} {f : Frame}

/-! ### A job gives a frame (R78) -/

theorem txTakes_iff : s.txTakes = true ↔ s.linkStanding = true ∧ s.lif.queue.length < 16 := by simp [State.txTakes]

/-- A frame that joins the queue changes the queue and the plain record of an empty one (R78, R102). -/
theorem txPush_eq (t : TxFrame) (s : State) : ∃ plain,
    txPush t s = { s with lif.queue := s.lif.queue ++ [t], hou.plain := plain } := by
  unfold txPush refreshPlain
  dsimp only
  split
  · exact ⟨_, rfl⟩
  · exact ⟨s.hou.plain, rfl⟩

/-- What offering frames can do: each that is taken joins the queue, and the rest stay with the producer (R78). -/
theorem offerFrames_eq (owner : Option Nat) (l : List Frame) (s : State) : ∃ taken plain,
    offerFrames owner l s = (l.drop taken,
      { s with lif.queue := s.lif.queue ++ (l.take taken).map fun f => { frame := f, owner := owner }, hou.plain := plain })
      ∧ (taken ≠ 0 → s.linkStanding = true) := by
  induction l generalizing s with
  | nil => exact ⟨0, s.hou.plain, by simp [offerFrames], fun h => absurd rfl h⟩
  | cons f rest ih =>
    unfold offerFrames
    split
    · rename_i takes
      obtain ⟨plain, pushed⟩ := txPush_eq { frame := f, owner := owner } s
      obtain ⟨taken, plain', offered, -⟩ := ih (txPush { frame := f, owner := owner } s)
      refine ⟨taken + 1, plain', ?_, fun _ => (txTakes_iff.mp takes).1⟩
      rw [offered, pushed]
      simp
    · exact ⟨0, s.hou.plain, by simp, fun h => absurd rfl h⟩

/-- A job that offers its frames changes the queue, the plain record and its own frames. -/
theorem flushOutbox_eq (hj : s.jobAt j = some job) : ∃ taken plain,
    flushOutbox j s = { s with
      lif.queue := s.lif.queue ++ (job.outbox.take taken).map (fun f => { frame := f, owner := some j }), hou.plain := plain,
      jt.jobs := smapSet s.jt.jobs j { job with outbox := job.outbox.drop taken } } := by
  obtain ⟨taken, plain, offered, -⟩ := offerFrames_eq (some j) job.outbox s
  refine ⟨taken, plain, ?_⟩
  unfold flushOutbox
  rw [hj]
  dsimp only
  rw [offered]
  exact modJob_eq _ hj

/-- A job gives a frame behind those it holds (R78). -/
theorem giveFrame_eq (f : Frame) (hj : s.jobAt j = some job) : ∃ taken plain,
    giveFrame j f s = { s with
      lif.queue := s.lif.queue ++ ((job.outbox ++ [f]).take taken).map (fun f => { frame := f, owner := some j }),
      hou.plain := plain, jt.jobs := smapSet s.jt.jobs j { job with outbox := (job.outbox ++ [f]).drop taken } } := by
  let t : State := { s with jt.jobs := smapSet s.jt.jobs j { job with outbox := job.outbox ++ [f] } }
  have ht : t.jobAt j = some { job with outbox := job.outbox ++ [f] } := smapGet_smapSet_self ..
  obtain ⟨taken, plain, flushed⟩ := flushOutbox_eq ht
  refine ⟨taken, plain, ?_⟩
  unfold giveFrame
  rw [modJob_eq _ hj, show flushOutbox j { s with jt.jobs := _ } = _ from flushed]
  dsimp only [t]
  rw [smapSet_smapSet]

/-- A queue that takes nothing leaves the frame with the job (R78). -/
theorem giveFrame_refused (f : Frame) (hj : s.jobAt j = some job) (refuses : s.txTakes = false) :
    giveFrame j f s = { s with jt.jobs := smapSet s.jt.jobs j { job with outbox := job.outbox ++ [f] } } := by
  let t : State := { s with jt.jobs := smapSet s.jt.jobs j { job with outbox := job.outbox ++ [f] } }
  have ht : t.jobAt j = some { job with outbox := job.outbox ++ [f] } := smapGet_smapSet_self ..
  have stays : ∀ l : List Frame, offerFrames (some j) l t = (l, t) := fun l => by
    cases l with
    | nil => rfl
    | cons f rest =>
      rw [offerFrames, show t.txTakes = false from refuses]
      rfl
  unfold giveFrame flushOutbox
  rw [modJob_eq _ hj, show State.jobAt { s with jt.jobs := _ } j = _ from ht]
  dsimp only
  rw [show offerFrames (some j) (job.outbox ++ [f]) { s with jt.jobs := _ } = _ from stays _, modJob_eq _ ht]
  dsimp only [t]
  rw [smapSet_smapSet]

/-- A frame of a job that holds none joins the queue where it takes one (R78). -/
theorem giveFrame_taken (f : Frame) (hj : s.jobAt j = some job) (empty : job.outbox = []) (takes : s.txTakes = true) :
    ∃ plain, giveFrame j f s = { s with lif.queue := s.lif.queue ++ [{ frame := f, owner := some j }], hou.plain := plain,
                                        jt.jobs := smapSet s.jt.jobs j { job with outbox := [] } } := by
  let t : State := { s with jt.jobs := smapSet s.jt.jobs j { job with outbox := job.outbox ++ [f] } }
  have ht : t.jobAt j = some { job with outbox := job.outbox ++ [f] } := smapGet_smapSet_self ..
  obtain ⟨plain, pushed⟩ := txPush_eq { frame := f, owner := some j } t
  let u : State := { t with lif.queue := t.lif.queue ++ [{ frame := f, owner := some j }], hou.plain := plain }
  have hu : u.jobAt j = some { job with outbox := job.outbox ++ [f] } := ht
  have offered : offerFrames (some j) (job.outbox ++ [f]) t = ([], u) := by
    rw [empty, List.nil_append, offerFrames, if_pos (show t.txTakes = true from takes), pushed]
    rfl
  refine ⟨plain, ?_⟩
  unfold giveFrame flushOutbox
  rw [modJob_eq _ hj, show State.jobAt { s with jt.jobs := _ } j = _ from ht]
  dsimp only
  rw [show offerFrames (some j) (job.outbox ++ [f]) { s with jt.jobs := _ } = _ from offered]
  refine (modJob_eq _ hu).trans ?_
  dsimp only [u, t]
  rw [smapSet_smapSet]

end Frames

section Retrieve
variable {s : State} {j : Nat} {job : Job} {p : PlayJob}

/-! ### RETRIEVE (R141, R142) -/

theorem exec_retrieve {params : List Byte} (hp : s.cpe.port = .ready) (hl : params.length = 13) :
    exec (.retrieve params) s = .next (retrieveTake params (reload s)) := takeCommand_ready (retrieveTake params) hp hl

theorem policyOf_other {n : Nat} (h : 1 < n) : policyOf n = none := by
  unfold policyOf
  split
  · omega
  · omega
  · rfl

theorem policyOf_known {n : Nat} (h : n ≤ 1) : ∃ policy, policyOf n = some policy := by
  obtain rfl | rfl : n = 0 ∨ n = 1 := by omega
  · exact ⟨_, rfl⟩
  · exact ⟨_, rfl⟩

/-- RETRIEVE's tests, its parameters being in range (R141). -/
theorem retrieveTake_eq {params : List Byte} {policy : DamagePolicy} (valid : (takeParam params).valid = true)
    (known : policyOf (byteAt params 12).toNat = some policy) : retrieveTake params s =
      if s.port.owner.isSome then refuse .streamBusy 7 s
      else if !s.jobFree then refuse .noSlot 7 s
      else if ((s.playableEntry (takeParam params)).map fun p => decide (p.2.timelineLength ≤ fieldAt params 4 4)) = some true
        then refuse .badParam 7 s
      else respond .ok 7 s.nextJobTag (beBytes 1 (s.sourceOf (takeParam params) (fieldAt params 4 4) (fieldAt params 8 4)))
        (settle (chooseSource s.freeRecord (takeParam params) (fieldAt params 4 4) (fieldAt params 8 4)
          (takePort s.freeRecord .output (createJob (fun tag => freshJob tag s.own (some tag) (some (takeParam params))
            (.play (newPlay (fieldAt params 4 4) (fieldAt params 8 4) policy))) s)))) := by
  unfold retrieveTake
  dsimp only
  rw [valid, known]

/-- The state in which a new PLAY job chooses its source. -/
def State.retrieving (s : State) (take : TakeNo) (start frames : Nat) (policy : DamagePolicy) (x : Act) : State :=
  { s with jt := { jobs := smapSet s.jt.jobs s.freeRecord
                     (freshJob s.nextJobTag s.own (some s.nextJobTag) (some take) (.play (newPlay start frames policy))),
                   nextTag := (s.nextJobTag + 1) % 256 },
           act := x, port := { owner := some s.freeRecord, line := .output, lineHigh := [], lineLow := [] } }

/-- A PLAY job enters LOCAL with its own copy (R142, R152). -/
theorem enterLocal_eq {i : Nat} {e : Entry} (hj : s.jobAt j = some job) (hb : job.body = .play p) (he : s.entryAt i = some e) :
    ∃ jobs reqs nextRead slots, enterLocal j i e s
        = { s with jt.jobs := jobs, cat.entries := smapSet s.cat.entries i { e with jobRefs := e.jobRefs + 1 } }
      ∧ smapGet jobs j = some { job with
          entry := some i, reqs := reqs, rcv := none, outbox := job.outbox.filter (fun f => !f.payload.isStep),
          body := .play { p.withShape e.shape with
            state := .localStore, answerWindow := none, grantWait := none, slots := slots, cursor := p.start,
            nextRead := nextRead,
            lastRead := (e.shape.blocks p.start p.frames).1 + (e.shape.blocks p.start p.frames).2 - 1 } }
      ∧ (∀ k, k ≠ j → smapGet jobs k = s.jobAt k) := by
  let quiet : Job := { job with rcv := none, outbox := job.outbox.filter (fun f => !f.payload.isStep) }
  let dropped : State := { s with jt.jobs := smapSet s.jt.jobs j quiet }
  have drops : dropWaitingStep j (modJob j (fun job => { job with rcv := none }) s) = dropped := by
    rw [dropWaitingStep, modJob_modJob, modJob_eq _ hj]
  have hd : dropped.jobAt j = some quiet := smapGet_smapSet_self ..
  let p' : PlayJob := { p.withShape e.shape with
    state := .localStore, answerWindow := none, grantWait := none, slots := [], cursor := p.start,
    nextRead := (p.withShape e.shape).firstBlock,
    lastRead := (p.withShape e.shape).firstBlock + (p.withShape e.shape).blockCount - 1 }
  let playing : State := { s with jt.jobs := smapSet s.jt.jobs j { quiet with body := .play p' } }
  have plays := modPlay_eq (fun p =>
    let p := p.withShape e.shape
    { p with state := .localStore, answerWindow := none, grantWait := none, slots := [], cursor := p.start,
             nextRead := p.firstBlock, lastRead := p.firstBlock + p.blockCount - 1 }) hd hb
  have hp : playing.jobAt j = some { quiet with body := .play p' } := smapGet_smapSet_self ..
  let held : State := { s with jt.jobs := smapSet s.jt.jobs j { quiet with body := .play p', entry := some i },
                               cat.entries := smapSet s.cat.entries i { e with jobRefs := e.jobRefs + 1 } }
  have holds : holdEntry j i playing = held := by
    rw [holdEntry_eq hp he]
    dsimp only [playing]
    rw [smapSet_smapSet]
  obtain ⟨jobs, reqs, nextRead, slots, reads, got, others, -⟩ :=
    requestReads_eq (s := held) (job := { quiet with body := .play p', entry := some i }) (smapGet_smapSet_self ..) rfl
  refine ⟨jobs, reqs, nextRead, slots, ?_, got, fun k hk => ?_⟩
  · unfold enterLocal
    rw [drops, plays]
    dsimp only [dropped]
    rw [smapSet_smapSet]
    show requestReads j (holdEntry j i playing) = _
    rw [holds, reads]
  · exact (others k hk).trans (smapGet_smapSet_ne _ _ hk)

/-- The SEEK of a PLAY job on a node that may send (R145). -/
theorem givePlaySeek_gives (hj : s.jobAt j = some job) (hb : job.body = .play p) (standing : s.linkStanding = true) :
    givePlaySeek j s
      = giveFrame j (s.jobFrame job 63 .out (.seek p.start p.frames .play 0 0 p.exclusion.toList))
          { s with
            jt.jobs := smapSet s.jt.jobs j { job with body := .play { p with state := .seeking, answerWindow := none } } } := by
  unfold givePlaySeek Job.playOf
  rw [hj]
  dsimp only
  rw [hb]
  dsimp only
  rw [if_pos standing, modPlay_eq _ hj hb]

/-- On a node that may not send, a PLAY job that seeks ends LINK_CONGESTED (R142). -/
theorem givePlaySeek_ends (hj : s.jobAt j = some job) (hb : job.body = .play p) (silent : s.linkStanding = false) :
    givePlaySeek j s = endJob j .linkCongested none s := by
  unfold givePlaySeek Job.playOf
  rw [hj]
  dsimp only
  rw [hb]
  dsimp only
  rw [if_neg (by rw [silent]; decide)]

end Retrieve

/-- Settles O26: the tests in their order, then the source. -/
theorem retrieveTestsAndSource : Obligations.RetrieveTestsAndSource := by
  intro s params sound hp hl
  obtain ⟨jobs, ⟨entries, -⟩, -⟩ := sound
  rw [exec_retrieve hp hl]
  obtain ⟨x, reloaded⟩ := reload_act s
  rw [reloaded]
  let u : State := { s with act := x }
  have tag : u.nextJobTag = s.nextJobTag := nextJobTag_congr rfl
  refine ⟨fun bad => ?bad, fun valid known => ?good⟩
  case bad =>
    unfold retrieveTake
    dsimp only
    obtain invalid | other := bad
    · rw [invalid]; rfl
    · rw [policyOf_other other]
      cases (takeParam params).valid <;> rfl
  case good =>
    obtain ⟨policy, known⟩ := policyOf_known known
    rw [retrieveTake_eq valid known]
    let take := takeParam params
    let start := fieldAt params 4 4
    let frames := fieldAt params 8 4
    have unowned (free : s.port.owner = none) : ¬ u.port.owner.isSome = true := by
      rw [show u.port.owner = none from free]
      decide
    refine ⟨fun owned => ?busy, fun free full => ?full, fun free room => ?room⟩
    case busy =>
      rw [if_pos (show u.port.owner.isSome = true from Option.isSome_iff_ne_none.mpr owned)]
      rfl
    case full =>
      rw [if_neg (unowned free), show u.jobFree = false from decide_eq_false (Nat.not_lt.mpr full)]
      rfl
    case room =>
      rw [if_neg (unowned free), show u.jobFree = true from decide_eq_true room, if_neg (by decide)]
      obtain ⟨y, created⟩ := createJob_eq (fun tag => freshJob tag u.own (some tag) (some take)
        (.play (newPlay start frames policy))) u
      let t := u.retrieving take start frames policy y
      have taken : takePort u.freeRecord .output (createJob (fun tag => freshJob tag u.own (some tag) (some take)
          (.play (newPlay start frames policy))) u) = t := by
        rw [created]
        rfl
      let job := freshJob u.nextJobTag u.own (some u.nextJobTag) (some take) (.play (newPlay start frames policy))
      have hj : t.jobAt u.freeRecord = some job := smapGet_smapSet_self ..
      have others (k : Nat) (hk : k ≠ u.freeRecord) : t.jobAt k = s.jobAt k := smapGet_smapSet_ne _ _ hk
      have goes (h : ∀ i e, s.playableEntry take = some (i, e) → start < e.timelineLength) :
          ¬ ((u.playableEntry take).map fun p => decide (p.2.timelineLength ≤ start)) = some true := by
        intro short
        obtain ⟨⟨i, e⟩, found, reach⟩ := Option.map_eq_some_iff.mp short
        exact absurd (of_decide_eq_true reach) (Nat.not_le.mpr (h i e found))
      have seeks (away : s.playableEntry take = none ∨ ∃ i e, s.playableEntry take = some (i, e) ∧ start < e.timelineLength
          ∧ e.cleanFor start frames = false ∧ s.muted = false) :
          ¬ ((u.playableEntry take).map fun p => decide (p.2.timelineLength ≤ start)) = some true
            ∧ u.sourceOf take start frames = 1
            ∧ chooseSource u.freeRecord take start frames t = givePlaySeek u.freeRecord t := by
        obtain none | ⟨i, e, found, reach, unclean, notMuted⟩ := away
        · refine ⟨goes fun i e found => (by rw [none] at found; cases found), ?_, ?_⟩
          · unfold State.sourceOf
            rw [show u.playableEntry take = Option.none from none]
          · unfold chooseSource
            rw [show t.playableEntry take = Option.none from none]
        · have uncleanly : ¬ (e.cleanFor start frames || u.muted) = true := by
            rw [unclean, show u.muted = false from notMuted]
            decide
          refine ⟨goes fun i' e' found' => ?_, ?_, ?_⟩
          · rw [found] at found'
            cases found'
            exact reach
          · unfold State.sourceOf
            rw [show u.playableEntry take = some (i, e) from found]
            exact if_neg uncleanly
          · unfold chooseSource
            rw [show t.playableEntry take = some (i, e) from found]
            exact if_neg uncleanly
      rw [taken, tag]
      refine ⟨fun i e found short => ?short, fun i e found reach clean => ?ownCopy, fun away standing => ?link,
        fun away silent => ?congested⟩
      case short =>
        rw [if_pos (show ((u.playableEntry take).map fun p => decide (p.2.timelineLength ≤ start)) = some true by
          rw [show u.playableEntry take = some (i, e) from found]
          exact congrArg some (decide_eq_true short))]
        rfl
      case ownCopy =>
        obtain ⟨he, -⟩ := entryAt_of_playableEntry entries found
        have reaches := goes fun i' e' found' => by
          rw [show s.playableEntry take = some (i, e) from found] at found'
          cases found'
          exact reach
        have cleanly : (e.cleanFor start frames || u.muted) = true := by
          obtain h | h := clean
          · exact Bool.or_eq_true_iff.mpr (.inl h)
          · exact Bool.or_eq_true_iff.mpr (.inr h)
        have source : u.sourceOf take start frames = 0 := by
          unfold State.sourceOf
          rw [show u.playableEntry take = some (i, e) from found]
          exact if_pos cleanly
        have chosen : chooseSource u.freeRecord take start frames t = enterLocal u.freeRecord i e t := by
          unfold chooseSource
          rw [show t.playableEntry take = some (i, e) from found]
          exact if_pos cleanly
        obtain ⟨jobs', reqs, nextRead, slots, enters, got, rest⟩ := enterLocal_eq (i := i) (e := e) hj rfl he
        rw [if_neg reaches, source, chosen, enters]
        refine ⟨_, u.freeRecord, _, _, rfl, jobAt_freeRecord jobs, got, tag, rfl, rfl, rfl, rfl, rfl, rfl, rfl,
          smapGet_smapSet_self .., fun k hk => smapGet_smapSet_ne _ _ hk, fun k hk => (rest k hk).trans (others k hk), rfl, rfl,
          rfl⟩
      case link =>
        have notMuted : u.muted = false := by
          have := standing
          simp only [State.linkStanding, Bool.and_eq_true, Bool.not_eq_true'] at this
          exact this.2
        obtain ⟨reaches, source, chosen⟩ := seeks (away.imp id fun ⟨i, e, found, reach, unclean⟩ =>
          ⟨i, e, found, reach, unclean, notMuted⟩)
        let p' : PlayJob := { newPlay start frames policy with state := .seeking, answerWindow := none }
        let seeking : State := { t with jt.jobs := smapSet t.jt.jobs u.freeRecord { job with body := .play p' } }
        have hs : seeking.jobAt u.freeRecord = some { job with body := .play p' } := smapGet_smapSet_self ..
        have gives := givePlaySeek_gives hj rfl (show t.linkStanding = true from standing)
        let seek : Frame := { src := s.own, dst := 63, dir := .out, tag := s.nextJobTag, take := take,
                              payload := .seek start frames .play 0 0 [] }
        have frame : t.jobFrame job 63 .out (.seek start frames .play 0 0 []) = seek := by
          show Frame.mk s.own 63 .out u.nextJobTag take _ = _
          rw [tag]
        have rest (k : Nat) (hk : k ≠ u.freeRecord) : seeking.jobAt k = s.jobAt k :=
          (smapGet_smapSet_ne _ _ hk).trans (others k hk)
        have given : givePlaySeek u.freeRecord t = giveFrame u.freeRecord seek seeking := gives.trans (by rw [← frame]; rfl)
        rw [if_neg reaches, source, chosen, given]
        by_cases queue : s.lif.queue.length < 16
        · obtain ⟨plain, taken⟩ := giveFrame_taken seek hs rfl (txTakes_iff.mpr ⟨standing, queue⟩)
          rw [taken]
          refine ⟨_, u.freeRecord, _, p', seek, rfl, jobAt_freeRecord jobs, smapGet_smapSet_self .., tag, rfl, rfl, rfl, rfl, rfl,
            rfl, fun _ => ⟨rfl, rfl⟩, fun full => absurd queue (Nat.not_lt.mpr full), rfl, fun k hk => ?_, rfl, rfl⟩
          exact (smapGet_smapSet_ne _ _ hk).trans (rest k hk)
        · have refused := giveFrame_refused seek hs (Bool.eq_false_iff.mpr fun takes => queue (txTakes_iff.mp takes).2)
          rw [refused]
          refine ⟨_, u.freeRecord, _, p', seek, rfl, jobAt_freeRecord jobs, smapGet_smapSet_self .., tag, rfl, rfl, rfl, rfl, rfl,
            rfl, fun room => absurd room queue, fun _ => ⟨rfl, rfl⟩, rfl, fun k hk => ?_, rfl, rfl⟩
          exact (smapGet_smapSet_ne _ _ hk).trans (rest k hk)
      case congested =>
        obtain ⟨reaches, source, chosen⟩ := seeks away
        have rising : smapRising t.jt.jobs = true := smapRising_smapSet _ _ jobs.1
        obtain ⟨v, ends, gone, rest, port, cat, cpe, sul⟩ := endJob_play .linkCongested rising hj rfl
        have congested : givePlaySeek u.freeRecord t = endJob u.freeRecord .linkCongested none t :=
          givePlaySeek_ends hj rfl silent
        rw [if_neg reaches, source, chosen, congested, ends]
        refine ⟨_, rfl, fun k => ?_, ?_, ?_, ?_, ?_⟩
        · rw [jobAt_raise]
          by_cases hk : k = u.freeRecord
          · subst hk
            exact gone.trans (jobAt_freeRecord jobs).symm
          · exact (rest k hk).trans (others k hk)
        · rw [raise_port, port]
          exact if_pos rfl
        · rw [raise_port, port]
          exact if_pos rfl
        · rw [raise_cat, cat]
          rfl
        · rw [show job.tag = s.nextJobTag from tag]
          exact raise_cpe_congr _ cpe (congrArg (·.cfg.eventMask) sul)

end Sys2Proof.Machine

/-! ## Proofs: the end of jobs by CANCEL

SUPPORT. What settling the entry of an ended job and its parting frame leave alone, and CANCEL settled from these. -/

namespace Sys2Proof.Machine

section Ends
variable {s : State} {j i : Nat} {job : Job}

/-! ### What the end of a job leaves alone -/

/-- Freeing an entry touches the catalogue, the chunks, HOU and the notes alone. -/
theorem freeEntry_frame (i : Nat) (s : State) : ∃ cat chunks mapList free hou notes,
    freeEntry i s = { s with cat := cat, med.chunks := chunks, med.mapList := mapList, med.free := free, hou := hou,
                             notes := notes } := by
  cases he : s.entryAt i with
  | none =>
    refine ⟨s.cat, s.med.chunks, s.med.mapList, s.med.free, s.hou, s.notes, ?_⟩
    unfold freeEntry
    rw [he]
  | some e =>
    obtain ⟨hou, notes, freed⟩ := freeEntry_of_entryAt he
    obtain ⟨chunks, mapList, free, frame⟩ := freeChunks_frame i (s.chain e) s
    rw [frame] at freed
    exact ⟨_, chunks, mapList, free, hou, notes, freed⟩

/-- COPIES_SHORT touches the port's queue and counters alone. -/
theorem raiseShort_frame (i : Nat) (s : State) : ∃ seen events lost, raiseShort i s
    = { s with cpe.seen := seen, cpe.events := events, cpe.lost := lost } := by
  unfold raiseShort
  split
  · exact raise_eq _ s
  · exact ⟨s.cpe.seen, s.cpe.events, s.cpe.lost, rfl⟩

theorem modEntry_frame (i : Nat) (f : Entry → Entry) (s : State) :
    ∃ entries, modEntry i f s = { s with cat.entries := entries } := by
  unfold modEntry
  split
  · exact ⟨_, rfl⟩
  · exact ⟨s.cat.entries, rfl⟩

/-- A change of an entry touches the table and the write-through queue alone (R26). -/
theorem changeEntry_frame (i : Nat) (f : Entry → Entry) (s : State) :
    ∃ entries wt, changeEntry i f s = { s with cat.entries := entries, cat.wt := wt } := by
  obtain ⟨entries, changed⟩ := modEntry_frame i f s
  obtain ⟨wt, queued, -⟩ := queueEntry_eq i (modEntry i f s)
  exact ⟨entries, wt, by rw [changeEntry, queued, changed]⟩

/-- The end of a placement's attempt touches the catalogue and the port alone (R24). -/
theorem settlePlacement_frame (i : Nat) (s : State) :
    ∃ cat seen events lost, settlePlacement i s
      = { s with cat := cat, cpe.seen := seen, cpe.events := events, cpe.lost := lost } := by
  unfold settlePlacement
  split
  · split
    · obtain ⟨entries, wt, changed⟩ := changeEntry_frame i (fun e => { e with placement := .satisfied }) s
      exact ⟨_, s.cpe.seen, s.cpe.events, s.cpe.lost, changed⟩
    · obtain ⟨entries, wt, changed⟩ := changeEntry_frame i
        (fun e => { e with placement := .queued, attempts := satAdd 255 e.attempts 1 }) s
      obtain ⟨seen, events, lost, raised⟩ := raiseShort_frame i (joinQueue i (s.now + 60000) (changeEntry i
        (fun e => { e with placement := .queued, attempts := satAdd 255 e.attempts 1 }) s))
      exact ⟨_, seen, events, lost, by rw [raised, changed]; rfl⟩
  · exact ⟨s.cat, s.cpe.seen, s.cpe.events, s.cpe.lost, rfl⟩

/-- Settling the entry of an ended job touches the catalogue, the chunks, HOU, the notes and the port's queue and counters alone. -/
theorem settleEntry_frame (job : Job) (result : Result) (s : State) : ∃ cat med hou notes seen events lost,
    settleEntry job result s = { s with cat := cat, med := med, hou := hou, notes := notes, cpe.seen := seen,
                                        cpe.events := events, cpe.lost := lost } := by
  have same : ∃ cat med hou notes seen events lost, s = { s with
      cat := cat, med := med, hou := hou, notes := notes, cpe.seen := seen, cpe.events := events, cpe.lost := lost } :=
    ⟨s.cat, s.med, s.hou, s.notes, s.cpe.seen, s.cpe.events, s.cpe.lost, rfl⟩
  unfold settleEntry
  split
  · exact same
  · rename_i i _
    split
    · split
      · exact same
      · obtain ⟨cat, chunks, mapList, free, hou, notes, freed⟩ := freeEntry_frame i s
        exact ⟨cat, _, hou, notes, s.cpe.seen, s.cpe.events, s.cpe.lost, freed⟩
    · obtain ⟨cat, seen, events, lost, settled⟩ := settlePlacement_frame i s
      exact ⟨cat, s.med, s.hou, s.notes, seen, events, lost, settled⟩
    · unfold holdRepair
      split
      · split
        · obtain ⟨entries, changed⟩ := modEntry_frame i (fun e => { e with repairHold := some (s.now + 60000) }) s
          exact ⟨_, s.med, s.hou, s.notes, s.cpe.seen, s.cpe.events, s.cpe.lost, changed⟩
        · exact same
      · exact same
    all_goals exact same

/-- A parting frame touches the queue and the plain record alone (R78). -/
theorem partWith_frame (parting : Option Frame) (s : State) :
    ∃ queue plain, partWith parting s = { s with lif.queue := queue, hou.plain := plain } := by
  cases parting with
  | none => exact ⟨s.lif.queue, s.hou.plain, rfl⟩
  | some f =>
    rw [partWith_some, giveParting]
    split
    · obtain ⟨plain, pushed⟩ := txPush_eq { frame := f, owner := none } s
      exact ⟨_, plain, pushed⟩
    · exact ⟨s.lif.queue, s.hou.plain, rfl⟩

/-- The end of a job (R78, R84): its record is gone and every other stands, its port is free, the queue is what its frames and its
parting leave, and JOB_DONE comes last. -/
theorem endJob_spec (result : Result) (parting : Option Frame) (rising : smapRising s.jt.jobs = true)
    (hj : s.jobAt j = some job) :
    ∃ v x y z, endJob j result parting s = raise (.doneJob job.tag job.kind result job.take x y z) v
      ∧ v.jobAt j = none ∧ (∀ k, k ≠ j → v.jobAt k = s.jobAt k)
      ∧ v.port = { s.port with owner := if s.port.owner = some j then none else s.port.owner,
                               line := if s.port.owner = some j then .released else s.port.line }
      ∧ v.lif.queue = (partWith parting (closeJob j s)).lif.queue := by
  obtain ⟨sending, hou, issued, closed⟩ := closeJob_eq hj
  obtain ⟨queue, plain, parted⟩ := partWith_frame parting (closeJob j s)
  obtain ⟨cat, med, hou', notes, seen, events, lost, settled⟩ := settleEntry_frame job result (partWith parting (closeJob j s))
  refine ⟨settleEntry job result (partWith parting (closeJob j s)), _, _, _, endJob_eq hj, ?_, fun k hk => ?_, ?_, ?_⟩
  · rw [State.jobAt, settled, parted]
    show smapGet (closeJob j s).jt.jobs j = none
    rw [closeJob_jobs]
    exact smapGet_smapDel_self _ rising
  · rw [State.jobAt, settled, parted]
    show smapGet (closeJob j s).jt.jobs k = _
    rw [closeJob_jobs]
    exact smapGet_smapDel_ne _ hk
  · rw [settled, parted]
    show (closeJob j s).port = _
    rw [closed]
  · rw [settled]

/-- The frames of an ended job leave the queue, and its ABANDON and NOTICE frames stay with no owner (R78). -/
theorem closeJob_queue (hj : s.jobAt j = some job) :
    (closeJob j s).lif.queue = s.lif.queue.filterMap (TxFrame.afterEnd j) := by
  obtain ⟨sending, hou, issued, closed⟩ := closeJob_eq hj
  rw [closed]

theorem frame_of_afterEnd {t t' : TxFrame} (h : t.afterEnd j = some t') : t'.frame = t.frame := by
  unfold TxFrame.afterEnd at h
  split at h
  · split at h
    · cases h; rfl
    · cases h
  · cases h; rfl

/-- What an ended job leaves in the queue was there (R78). -/
theorem mem_closeJob_queue (hj : s.jobAt j = some job) {q : TxFrame} (hq : q ∈ (closeJob j s).lif.queue) :
    ∃ q' ∈ s.lif.queue, q'.frame = q.frame := by
  rw [closeJob_queue hj] at hq
  obtain ⟨q', hq', kept⟩ := List.mem_filterMap.mp hq
  exact ⟨q', hq', (frame_of_afterEnd kept).symm⟩

theorem closeJob_linkStanding (hj : s.jobAt j = some job) : (closeJob j s).linkStanding = s.linkStanding := by
  obtain ⟨sending, hou, issued, closed⟩ := closeJob_eq hj
  rw [closed]
  rfl

/-- A parting frame is the last of the queue where the node may send and there was room (R78). -/
theorem parting_last (f : Frame) (hj : s.jobAt j = some job) (standing : s.linkStanding = true)
    (room : s.lif.queue.length < 16) :
    (partWith (some f) (closeJob j s)).lif.queue.getLast? = some { frame := f, owner := none } := by
  have less : (closeJob j s).lif.queue.length < 16 := by
    rw [closeJob_queue hj]
    exact Nat.lt_of_le_of_lt (List.length_filterMap_le ..) room
  rw [partWith_some, giveParting_queue f ((closeJob_linkStanding hj).trans standing) less]
  exact List.getLast?_concat ..

/-- The end of an abort: the capture's entry, if it has one, is freed, the job ends, and the command is answered (R67). -/
theorem finishAbort_frees (hj : s.jobAt j = some job) : ∃ t, t.jt = s.jt ∧ t.cpe = s.cpe
    ∧ finishAbort j s = answerEnding (endJob j .cancelled none t) := by
  unfold finishAbort
  rw [hj, Option.bind_some]
  cases job.entry with
  | none => exact ⟨s, rfl, rfl, rfl⟩
  | some i =>
    obtain ⟨cat, chunks, mapList, free, hou, notes, freed⟩ := freeEntry_frame i s
    exact ⟨freeEntry i s, by rw [freed], by rw [freed], rfl⟩

/-- The end of a job leaves the command the port is BUSY with. -/
theorem endJob_current (result : Result) (parting : Option Frame) (j : Nat) (s : State) :
    (endJob j result parting s).cpe.current = s.cpe.current := by
  cases hj : s.jobAt j with
  | none => rw [endJob, hj]
  | some job =>
    obtain ⟨sending, hou, issued, closed⟩ := closeJob_eq hj
    obtain ⟨queue, plain, parted⟩ := partWith_frame parting (closeJob j s)
    obtain ⟨cat, med, hou', notes, seen, events, lost, settled⟩ := settleEntry_frame job result (partWith parting (closeJob j s))
    rw [endJob_eq hj, raise_current, settled, parted, closed]

end Ends

section Cancel
variable {s : State} {j : Nat} {job : Job}

/-! ### CANCEL (R183) -/

theorem exec_cancel {p : List Byte} (hp : s.cpe.port = .ready) (hl : p.length = 1) :
    exec (.cancel p) s = .next (cancelJob p (reload s)) := takeCommand_ready (cancelJob p) hp hl

/-- CANCEL of a job that is no capture (R114, R120, R150, R157, R168). -/
theorem cancelJob_other {b : Byte} (found : s.findJob (fun job => job.tag == b.toNat) = some (j, job))
    (kind : job.kind ≠ .capture) : cancelJob [b] s
      = respond .ok 8 b.toNat [] (settle (endJob j .cancelled (s.parting job .cancelled) s)) := by
  have noCapture : job.captureOf = none := by
    unfold Job.captureOf
    cases hb : job.body with
    | capture c => exact absurd (by rw [Job.kind, hb]; rfl) kind
    | _ => rfl
  unfold cancelJob
  rw [show (byteAt [b] 0).toNat = b.toNat from rfl]
  dsimp only
  rw [found]
  dsimp only
  rw [noCapture]

/-- CANCEL of a capture (R67, R183). -/
theorem cancelJob_capture {b : Byte} {c : CaptureJob} (found : s.findJob (fun job => job.tag == b.toNat) = some (j, job))
    (hb : job.body = .capture c) : cancelJob [b] s
      = if c.state = .armed then respond .ok 8 b.toNat [] (settle (endJob j .ok none s))
        else settle (abortCapture j (busyWith (.cancel b.toNat) s)) := by
  unfold cancelJob Job.captureOf
  rw [show (byteAt [b] 0).toNat = b.toNat from rfl]
  dsimp only
  rw [found]
  dsimp only
  rw [hb]
  dsimp only
  cases c.state <;> rfl

/-- An exchange's frame of a job that has its exchange tag and its take (R74). -/
theorem jobFrame_eq {tag : Nat} {take : TakeNo} (ht : job.exTag = some tag) (htake : job.take = some take) (dst : Nat)
    (dir : Direction) (payload : Payload) : s.jobFrame job dst dir payload
      = { src := s.own, dst := dst, dir := dir, tag := tag, take := take, payload := payload } := by
  rw [State.jobFrame, ht, htake]
  rfl

/-- What the job that CANCEL ends tells its peer: the ABANDON of its kind is the last of the queue, or nothing new stands there. -/
theorem cancel_tells (hj : s.jobAt j = some job) {tag : Nat} {take : TakeNo} (ht : job.exTag = some tag)
    (htake : job.take = some take) (standing : s.linkStanding = true) (room : s.lif.queue.length < 16) :
    (∀ dst dir, s.parting job .cancelled = some (s.jobFrame job dst dir (.abandon .cancelled)) →
        (partWith (s.parting job .cancelled) (closeJob j s)).lif.queue.getLast?
          = some { frame := { src := s.own, dst := dst, dir := dir, tag := tag, take := take, payload := .abandon .cancelled },
                   owner := none })
      ∧ (s.parting job .cancelled = none →
          ∀ q ∈ (partWith (s.parting job .cancelled) (closeJob j s)).lif.queue, ∃ q' ∈ s.lif.queue, q'.frame = q.frame) := by
  refine ⟨fun dst dir gives => ?_, fun none q hq => ?_⟩
  · rw [gives, parting_last _ hj standing room, jobFrame_eq ht htake]
  · rw [none, partWith_none] at hq
    exact mem_closeJob_queue hj hq

end Cancel

/-- Settles O27: the end of the job by its kind. -/
theorem cancelEndsTheNamedJob : Obligations.CancelEndsTheNamedJob := by
  intro s b sound hp
  obtain ⟨jobs, -⟩ := sound
  rw [exec_cancel hp rfl]
  obtain ⟨x, reloaded⟩ := reload_act s
  rw [reloaded]
  let u : State := { s with act := x }
  refine ⟨fun unheld => ?absent, fun j job found => ?found⟩
  case absent =>
    have none : u.findJob (fun job => job.tag == b.toNat) = none := by
      cases h : u.findJob (fun job => job.tag == b.toNat) with
      | none => rfl
      | some q =>
        obtain ⟨hj, tag⟩ := jobAt_of_findJob (s := u) (j := q.1) (job := q.2) jobs h
        exact absurd (by simpa using tag) (unheld q.1 q.2 hj)
    unfold cancelJob
    rw [show (byteAt [b] 0).toNat = b.toNat from rfl]
    dsimp only
    rw [show State.findJob _ _ = _ from none]
  case found =>
    obtain ⟨hj, -⟩ := jobAt_of_findJob jobs found
    refine ⟨fun kind => ?other, fun c hb armed => ?armed, fun c hb going idle => ?freed, fun c hb going issued => ?waits⟩
    case other =>
      obtain ⟨v, a, b', c, ends, gone, others, port, queue⟩ :=
        endJob_spec (s := u) .cancelled (u.parting job .cancelled) jobs.1 hj
      rw [cancelJob_other (s := u) found kind, ends]
      refine ⟨_, v, a, b', c, rfl, by rw [jobAt_raise]; exact gone, fun k hk => by rw [jobAt_raise]; exact others k hk, ?_, ?_,
        rfl, fun tag take ht htake standing room => ?_⟩
      · rw [raise_port, port]
        dsimp only
        split
        · intro h; cases h
        · assumption
      · intro owned
        rw [raise_port, port]
        exact if_pos owned
      · intro told silent
        obtain ⟨tells, keeps⟩ := cancel_tells (s := u) hj ht htake standing room
        have tell (dst : Nat) (dir : Direction)
            (gives : u.parting job .cancelled = some (u.jobFrame job dst dir (.abandon .cancelled))) : told dst dir := by
          show (raise _ v).lif.queue.getLast? = _
          rw [raise_lif, queue]
          exact tells dst dir gives
        have keep (none : u.parting job .cancelled = Option.none) : silent := by
          show ∀ q ∈ (raise _ v).lif.queue, _
          rw [raise_lif, queue]
          exact keeps none
        refine ⟨fun r hb => tell _ _ (by rw [State.parting, hb]), fun r hb => tell _ _ (by rw [State.parting, hb]),
          fun r hb => tell _ _ (by rw [State.parting, hb]), fun p h hb holder => ⟨fun sent => ?_, fun unsent => ?_⟩,
          fun r h hb holder => ⟨fun sent => ?_, fun unsent => ?_⟩⟩
        · refine tell _ _ ?_
          obtain ⟨state, sent⟩ := sent
          have grants : job.grantedHolder .cancelled = some h := by
            rw [Job.grantedHolder, hb]
            dsimp only
            obtain state | state := state <;> rw [state] <;> exact (if_pos sent).trans holder
          rw [State.parting, hb]
          dsimp only
          rw [grants]
          rfl
        · refine keep ?_
          have grants : job.grantedHolder .cancelled = none := by
            rw [Job.grantedHolder, hb]
            dsimp only
            split
            · rename_i state
              exact if_neg fun sent => by
                obtain ⟨notAwaiting, -⟩ | notSent := unsent
                · exact notAwaiting state
                · rw [notSent] at sent
                  cases sent
            · rename_i state
              exact if_neg fun sent => by
                obtain ⟨-, notPlaying⟩ | notSent := unsent
                · exact notPlaying state
                · rw [notSent] at sent
                  cases sent
            · rfl
          rw [State.parting, hb]
          dsimp only
          rw [grants]
          rfl
        · refine tell _ _ ?_
          rw [State.parting, hb]
          dsimp only
          rw [grantedHolder_repair_cancelled hb, if_pos sent, holder]
          rfl
        · refine keep ?_
          rw [State.parting, hb]
          dsimp only
          rw [grantedHolder_repair_cancelled hb, unsent]
          rfl
    case armed =>
      obtain ⟨v, a, b', d, ends, gone, -⟩ := endJob_spec (s := u) .ok none jobs.1 hj
      rw [cancelJob_capture (s := u) found hb, if_pos armed, ends, Job.kind, hb]
      exact ⟨_, v, a, b', d, rfl, by rw [jobAt_raise]; exact gone, rfl⟩
    case freed =>
      let job' : Job := { job with body := .capture (c.emptied false .abort) }
      let t : State := { busyWith (.cancel b.toNat) u with jt.jobs := smapSet s.jt.jobs j job' }
      have hj' : t.jobAt j = some job' := smapGet_smapSet_self ..
      obtain ⟨freed, freedJobs, freedCpe, finish⟩ := finishAbort_frees hj'
      have rising : smapRising freed.jt.jobs = true := by
        rw [freedJobs]
        exact smapRising_smapSet _ _ jobs.1
      obtain ⟨v, a, b', d, ends, gone, -⟩ := endJob_spec (s := freed) .cancelled none rising
        (by rw [State.jobAt, freedJobs]; exact hj')
      rw [cancelJob_capture (s := u) found hb, if_neg going,
        abortCapture_ends (s := busyWith (.cancel b.toNat) u) hj hb idle]
      have current : (endJob j .cancelled none freed).cpe.current = some (.cancel b.toNat) := by
        rw [endJob_current, freedCpe]
        rfl
      have answered : finishAbort j t = respond .ok 8 b.toNat [] (endJob j .cancelled none freed) := by
        rw [finish, answerEnding, current]
      refine ⟨_, v, a, b', d, congrArg (fun t => Host.Outcome.next (settle t)) answered, ?_, ends⟩
      rw [ends, jobAt_raise]
      exact gone
    case waits =>
      rw [cancelJob_capture (s := u) found hb, if_neg going,
        abortCapture_waits (s := busyWith (.cancel b.toNat) u) hj hb issued]
      exact ⟨_, rfl, rfl, rfl, rfl, rfl⟩

end Sys2Proof.Machine

/-! ## Proofs: SOFT_RESET

SUPPORT. What the jobs' ends at SOFT_RESET leave alone, taken over the job table, and SOFT_RESET settled from it. -/

namespace Sys2Proof.Machine

section Frame
variable {s t v : State} {j : Nat} {job : Job}

/-! ### What SOFT_RESET's ends leave alone -/

/-- What stands through the ends of jobs and the winding up of a capture at SOFT_RESET (R190). -/
structure SoftFrame (s t : State) : Prop where
  cpe : t.cpe = s.cpe
  sul : t.sul = s.sul
  act : t.act = s.act
  nextTag : t.jt.nextTag = s.jt.nextTag
  lif : t.lif = { s.lif with queue := t.lif.queue, sending := t.lif.sending }
  counter : t.cat.counter = s.cat.counter
  notices : t.cat.notices = s.cat.notices
  fault : t.cat.fault = s.cat.fault
  store : t.med.store = s.med.store
  total : t.med.total = s.med.total

theorem SoftFrame.refl (s : State) : SoftFrame s s := ⟨rfl, rfl, rfl, rfl, rfl, rfl, rfl, rfl, rfl, rfl⟩

theorem SoftFrame.trans (h : SoftFrame s t) (g : SoftFrame t v) : SoftFrame s v where
  cpe := g.cpe.trans h.cpe
  sul := g.sul.trans h.sul
  act := g.act.trans h.act
  nextTag := g.nextTag.trans h.nextTag
  lif := by rw [g.lif, h.lif]
  counter := g.counter.trans h.counter
  notices := g.notices.trans h.notices
  fault := g.fault.trans h.fault
  store := g.store.trans h.store
  total := g.total.trans h.total

theorem SoftFrame.linkStanding (h : SoftFrame s t) : t.linkStanding = s.linkStanding := by
  unfold State.linkStanding State.complete State.muted
  rw [h.sul, h.lif]

theorem closeJob_softFrame (j : Nat) (s : State) : SoftFrame s (closeJob j s) := by
  cases hj : s.jobAt j with
  | none =>
    have same : closeJob j s = s := by rw [closeJob, hj]
    rw [same]
    exact .refl s
  | some job =>
    obtain ⟨sending, hou, issued, closed⟩ := closeJob_eq hj
    rw [closed]
    exact ⟨rfl, rfl, rfl, rfl, rfl, rfl, rfl, rfl, rfl, rfl⟩

theorem freeEntry_softFrame (i : Nat) (s : State) : SoftFrame s (freeEntry i s) := by
  cases he : s.entryAt i with
  | none =>
    have same : freeEntry i s = s := by rw [freeEntry, he]
    rw [same]
    exact .refl s
  | some e =>
    obtain ⟨hou, notes, freed⟩ := freeEntry_of_entryAt he
    obtain ⟨chunks, mapList, free, frame⟩ := freeChunks_frame i (s.chain e) s
    rw [freed, frame]
    exact ⟨rfl, rfl, rfl, rfl, rfl, rfl, rfl, rfl, rfl, rfl⟩

/-- An attempt that SOFT_RESET ends is queued again: its entry, its item and its place in the placement queue change (R25). -/
theorem requeueAfterReset_eq (i : Nat) (s : State) : ∃ entries added, requeueAfterReset i s
    = { s with cat.entries := entries, cat.queue := s.cat.queue ++ [(i, s.now + 60000)], cat.wt := s.cat.wt ++ added }
      ∧ ∀ k, k ≠ i → smapGet entries k = s.entryAt k := by
  obtain ⟨entries, changed⟩ := modEntry_frame i (fun e => { e with placement := .queued }) s
  have others (k : Nat) (hk : k ≠ i) : smapGet entries k = s.entryAt k := by
    have := get_modEntry i k (fun e => { e with placement := .queued }) s
    rw [changed, if_neg hk] at this
    exact this
  unfold requeueAfterReset setPlacement changeEntry
  rw [changed]
  unfold queueEntry
  split
  · exact ⟨entries, [], by simp only [List.append_nil]; rfl, others⟩
  · exact ⟨entries, _, rfl, others⟩

/-- What a job that SOFT_RESET ends leaves (R9, R25, R190). -/
theorem endJobSoftly_softFrame (j : Nat) (s : State) : SoftFrame s (endJobSoftly j s) := by
  unfold endJobSoftly
  split
  · dsimp only
    split
    · exact (closeJob_softFrame j s).trans (freeEntry_softFrame _ _)
    · refine (closeJob_softFrame j s).trans ?_
      obtain ⟨entries, added, eq, -⟩ := requeueAfterReset_eq _ (closeJob j s)
      rw [eq]
      exact ⟨rfl, rfl, rfl, rfl, rfl, rfl, rfl, rfl, rfl, rfl⟩
    · exact closeJob_softFrame j s
  · exact .refl s

/-- An entry that the ended job does not hold stands. -/
theorem endJobSoftly_entryAt {i : Nat} (hj : s.jobAt j = some job) (free : job.entry ≠ some i) :
    (endJobSoftly j s).entryAt i = s.entryAt i := by
  obtain ⟨sending, hou, issued, closed⟩ := closeJob_eq hj
  have kept : (closeJob j s).entryAt i = s.entryAt i := by
    rw [closed, State.entryAt]
    show smapGet (s.entriesWithout job) i = _
    unfold State.entriesWithout
    cases hk : job.entry with
    | none => rfl
    | some k =>
      have ne : i ≠ k := fun h => free (by rw [hk, h])
      exact (get_modEntry k i _ s).trans (if_neg ne)
  unfold endJobSoftly
  rw [hj]
  dsimp only
  rw [← kept]
  split
  · rename_i k _ hk _
    have ne : i ≠ k := fun h => free (by rw [hk, h])
    cases he : (closeJob j s).entryAt k with
    | none => rw [freeEntry, he]
    | some e =>
      obtain ⟨hou, notes, freed⟩ := freeEntry_of_entryAt he
      rw [freed]
      exact smapGet_smapDel_ne _ ne
  · rename_i k _ hk _
    have ne : i ≠ k := fun h => free (by rw [hk, h])
    obtain ⟨entries, added, eq, others⟩ := requeueAfterReset_eq k (closeJob j s)
    rw [eq]
    exact others i ne
  · rfl

/-- The chunk map and what follows from it, as the end of a job that frees no entry leaves them (R190). -/
structure ChunksStand (s t : State) : Prop where
  chunks : t.med.chunks = s.med.chunks
  free : t.med.free = s.med.free
  bad : t.med.bad = s.med.bad
  mapList : t.med.mapList = s.med.mapList
  mark : t.cat.mark = s.cat.mark
  queue : s.cat.queue <+: t.cat.queue
  wt : s.cat.wt <+: t.cat.wt

theorem ChunksStand.trans (h : ChunksStand s t) (g : ChunksStand t v) : ChunksStand s v where
  chunks := g.chunks.trans h.chunks
  free := g.free.trans h.free
  bad := g.bad.trans h.bad
  mapList := g.mapList.trans h.mapList
  mark := g.mark.trans h.mark
  queue := h.queue.trans g.queue
  wt := h.wt.trans g.wt

theorem endJobSoftly_chunksStand (hj : s.jobAt j = some job) (holds : job.kind = .receive → job.entry = none) :
    ChunksStand s (endJobSoftly j s)
      ∧ ((job.kind = .replicate → job.entry = none) →
          (endJobSoftly j s).cat.queue = s.cat.queue ∧ (endJobSoftly j s).cat.wt = s.cat.wt) := by
  obtain ⟨sending, hou, issued, closed⟩ := closeJob_eq hj
  have close : ChunksStand s (closeJob j s) ∧ (closeJob j s).cat.queue = s.cat.queue ∧ (closeJob j s).cat.wt = s.cat.wt := by
    rw [closed]
    exact ⟨⟨rfl, rfl, rfl, rfl, rfl, List.prefix_rfl, List.prefix_rfl⟩, rfl, rfl⟩
  unfold endJobSoftly
  rw [hj]
  dsimp only
  split
  · rename_i k r hk hb
    rw [holds (by rw [Job.kind, hb]; rfl)] at hk
    cases hk
  · rename_i k r hk hb
    obtain ⟨entries, added, eq, -⟩ := requeueAfterReset_eq k (closeJob j s)
    refine ⟨close.1.trans ?_, fun none => ?_⟩
    · rw [eq]
      exact ⟨rfl, rfl, rfl, rfl, rfl, List.prefix_append _ _, List.prefix_append _ _⟩
    · rw [none (by rw [Job.kind, hb]; rfl)] at hk
      cases hk
  · exact ⟨close.1, fun _ => close.2⟩

/-- The port as the end of a job leaves it (R48, R153). -/
theorem endJobSoftly_port (hj : s.jobAt j = some job) : (endJobSoftly j s).port
    = { s.port with owner := if s.port.owner = some j then none else s.port.owner,
                    line := if s.port.owner = some j then .released else s.port.line } := by
  obtain ⟨sending, hou, issued, closed⟩ := closeJob_eq hj
  have port := congrArg State.port closed
  unfold endJobSoftly
  rw [hj]
  dsimp only
  split
  · obtain ⟨cat, chunks, mapList, free, hou', notes, freed⟩ := freeEntry_frame _ (closeJob j s)
    rw [freed]
    exact port
  · obtain ⟨entries, added, eq, -⟩ := requeueAfterReset_eq _ (closeJob j s)
    rw [eq]
    exact port
  · exact port

/-- What holds at first and through the end of each job holds when all have ended. -/
theorem endJobsSoftly_induct {P : State → Prop} {l : List (Nat × Job)} (hl : s.jt.jobs = l) (first : P s)
    (step : ∀ (t : State) (j : Nat) (job : Job), (j, job) ∈ l → t.jobAt j = some job → P t → P (endJobSoftly j t)) :
    P (endJobsSoftly l s) := by
  induction l generalizing s with
  | nil => exact first
  | cons p rest ih =>
    obtain ⟨j, job⟩ := p
    have record : s.jobAt j = some job := by rw [State.jobAt, hl, smapGet, if_pos rfl]
    have left : (endJobSoftly j s).jt.jobs = rest := by rw [endJobSoftly_jobs, hl, smapDel, if_pos rfl]
    exact ih left (step s j job List.mem_cons_self record first)
      fun t k other hk => step t k other (List.mem_cons_of_mem _ hk)

end Frame

section SoftReset
variable {s t : State} {j : Nat} {job : Job}

/-! ### SOFT_RESET (R88, R190) -/

theorem exec_softReset (hp : s.cpe.port = .ready) : exec (.softReset []) s = .next (softReset (reload s)) :=
  takeCommand_ready (fun s => softReset s) hp rfl

/-- With no take being captured every job ends at once. -/
theorem softEndJobs_armed {l : List (Nat × Job)}
    (armed : ∀ p ∈ l, ∀ c, p.2.body = .capture c → c.state = .armed) : softEndJobs l s = endJobsSoftly l s := by
  induction l generalizing s with
  | nil => rfl
  | cons p rest ih =>
    obtain ⟨j, job⟩ := p
    have one : (match job.captureOf with
        | some c => if c.state = .armed then endJobSoftly j s else softResetCapture j s
        | none => endJobSoftly j s) = endJobSoftly j s := by
      cases hc : job.captureOf with
      | none => rfl
      | some c =>
        have hb : job.body = .capture c := by
          unfold Job.captureOf at hc
          cases hb : job.body <;> rw [hb] at hc <;> cases hc
          rfl
        exact if_pos (armed (j, job) List.mem_cons_self c hb)
    show softEndJobs rest _ = endJobsSoftly rest (endJobSoftly j s)
    rw [← ih fun p hp => armed p (List.mem_cons_of_mem _ hp)]
    exact congrArg (softEndJobs rest) one

/-- The ends of jobs that parting frames alone follow leave everything but the queue and the plain record. -/
theorem givePartings_frame (l : List Frame) (s : State) :
    ∃ queue plain, givePartings l s = { s with lif.queue := queue, hou.plain := plain } := by
  induction l generalizing s with
  | nil => exact ⟨s.lif.queue, s.hou.plain, rfl⟩
  | cons f rest ih =>
    obtain ⟨queue, plain, given⟩ := partWith_frame (some f) s
    obtain ⟨queue', plain', rests⟩ := ih (giveParting f s)
    refine ⟨queue', plain', ?_⟩
    show givePartings rest (giveParting f s) = _
    rw [rests, show giveParting f s = _ from given]

/-- Nothing is given where the node may not send (R87). -/
theorem givePartings_silent (l : List Frame) (h : s.linkStanding = false) : givePartings l s = s := by
  induction l with
  | nil => rfl
  | cons f rest ih =>
    have refuses : giveParting f s = s := by
      have : s.txTakes = false := by rw [State.txTakes, h]; rfl
      rw [giveParting, this]
      rfl
    show givePartings rest (giveParting f s) = s
    rw [refuses, ih]

/-- Every frame given by a list of parting frames alone is one of them, with no owner. -/
theorem mem_givePartings {l : List Frame} {q : TxFrame} (hq : q ∈ (givePartings l s).lif.queue) :
    q ∈ s.lif.queue ∨ q.owner = none ∧ q.frame ∈ l := by
  induction l generalizing s with
  | nil => exact .inl hq
  | cons f rest ih =>
    obtain old | ⟨owner, frame⟩ := ih (s := giveParting f s) hq
    · unfold giveParting at old
      split at old
      · rw [txPush_queue] at old
        obtain old | new := List.mem_append.mp old
        · exact .inl old
        · rw [List.mem_singleton.mp new]
          exact .inr ⟨rfl, List.mem_cons_self⟩
      · exact .inl old
    · exact .inr ⟨owner, List.mem_cons_of_mem _ frame⟩

/-- The link after SOFT_RESET (R88). -/
theorem softResetLink_spec (partings : List Frame) (s : State) : ∃ queue sending burst gap endBurst answers plain,
    softResetLink partings s = { s with
        notes := [], hou.answers := answers, hou.plain := plain,
        lif := { s.lif with errors := 0, collisions := 0, queue := queue, sending := sending, burst := burst, gap := gap,
                            endBurst := endBurst } }
      ∧ (∀ r ∈ answers, r.doomed = true) ∧ (∀ q ∈ queue, q.owner = none ∧ q.frame ∈ partings)
      ∧ (s.linkStanding = false → queue = [])
      ∧ (s.linkStanding = true → partings.length ≤ 16 → queue.map (·.frame) = partings) := by
  let cleared : State := txEmpty (removeAnswers (fun _ => true) { s with notes := [], lif.errors := 0, lif.collisions := 0 })
  let quiet : State := if cleared.lif.sending.isSome then { cleared with lif.endBurst := true } else endBurst cleared
  have emptied : ∃ sending plain, cleared = { s with
      notes := [], hou.answers := (removeAnswers (fun _ => true) s).hou.answers, hou.plain := plain,
      lif := { s.lif with errors := 0, collisions := 0, queue := [], sending := sending } } := by
    show ∃ sending plain, txEmpty _ = _
    unfold txEmpty orphanFront refreshPlain
    split <;> exact ⟨_, _, rfl⟩
  have doomed : ∀ r ∈ (removeAnswers (fun _ => true) s).hou.answers, r.doomed = true := by
    intro r hr
    obtain ⟨r', -, rfl⟩ := List.mem_map.mp hr
    rfl
  have quieted : ∃ sending burst gap endBurst answers plain, quiet = { s with
        notes := [], hou.answers := answers, hou.plain := plain,
        lif := { s.lif with errors := 0, collisions := 0, queue := [], sending := sending, burst := burst, gap := gap,
                            endBurst := endBurst } } ∧ ∀ r ∈ answers, r.doomed = true := by
    obtain ⟨sending, plain, empty⟩ := emptied
    rw [show quiet = (if cleared.lif.sending.isSome then { cleared with lif.endBurst := true } else endBurst cleared) from rfl,
      empty]
    split
    · exact ⟨_, _, _, _, _, _, rfl, doomed⟩
    · refine ⟨_, _, _, _, _, _, rfl, fun r hr => ?_⟩
      obtain ⟨r', hr', rfl⟩ := List.mem_map.mp hr
      have := doomed r' hr'
      unfold HoldRec.unrelease
      split <;> exact this
  obtain ⟨sending, burst, gap, endBurst', answers, plain, quieted, dooms⟩ := quieted
  have standing : quiet.linkStanding = s.linkStanding := by rw [quieted]; rfl
  have noQueue : quiet.lif.queue = [] := by rw [quieted]
  obtain ⟨queue, plain', given⟩ := givePartings_frame partings quiet
  have final : softResetLink partings s = givePartings partings quiet := rfl
  have queued : queue = (givePartings partings quiet).lif.queue := by rw [given]
  refine ⟨queue, sending, burst, gap, endBurst', answers, plain', ?_, dooms, fun q hq => ?_, fun silent => ?_, fun sends room => ?_⟩
  · rw [final, given, quieted]
  · rw [queued] at hq
    obtain old | new := mem_givePartings hq
    · rw [noQueue] at old
      cases old
    · exact new
  · rw [queued, givePartings_silent partings (standing.trans silent), noQueue]
  · rw [queued, givePartings_queue partings (standing.trans sends) (by rw [noQueue]; simpa using room), noQueue,
      List.nil_append, List.map_map]
    exact List.map_id _

/-- JT holds at most 8 records (R50). -/
theorem jobs_length_le (jobs : jobsOk s.jt.jobs) : s.jt.jobs.length ≤ 8 := by
  obtain ⟨rising, below⟩ := jobs
  have nodup : (s.jt.jobs.map (·.1)).Nodup :=
    List.pairwise_map.mpr (((smapRising_iff _).mp rising).imp fun h => Nat.ne_of_lt h)
  have inside : s.jt.jobs.map (·.1) ⊆ List.range 8 := fun k hk => by
    obtain ⟨p, hp, rfl⟩ := List.mem_map.mp hk
    exact List.mem_range.mpr (below p hp)
  simpa using (nodup.subperm inside).length_le

theorem modJob_softFrame (j : Nat) (f : Job → Job) (s : State) : SoftFrame s (modJob j f s) := by
  unfold modJob putJob
  split <;> exact ⟨rfl, rfl, rfl, rfl, rfl, rfl, rfl, rfl, rfl, rfl⟩

/-- A change of a record keeps every record. -/
theorem isSome_modJob (j : Nat) (f : Job → Job) (s : State) (k : Nat) (h : (s.jobAt k).isSome = true) :
    ((modJob j f s).jobAt k).isSome = true := by
  rw [State.jobAt, get_modJob]
  split
  · subst k
    rw [Option.isSome_map]
    exact h
  · exact h

/-- What SOFT_RESET leaves of the take a capture was making, once no write of it is issued (R68). -/
theorem softIncomplete_softFrame (j : Nat) (s : State) :
    SoftFrame s (softIncomplete j s) ∧ ∀ k, (s.jobAt k).isSome = true → ((softIncomplete j s).jobAt k).isSome = true := by
  have trimmed (i : Nat) (t : State) : ∃ chunks mapList free, trimChain i t
      = { t with med.chunks := chunks, med.mapList := mapList, med.free := free } := by
    unfold trimChain
    split
    · rename_i e _
      obtain ⟨chunks, mapList, free, freed⟩ := freeChunks_frame i ((t.chain e).drop e.chunkCount) t
      dsimp only
      rw [freed]
      split
      · split
        · exact ⟨_, _, _, rfl⟩
        · unfold setChunk queueMap
          dsimp only
          split <;> exact ⟨_, _, _, rfl⟩
      · exact ⟨_, _, _, rfl⟩
    · exact ⟨t.med.chunks, t.med.mapList, t.med.free, rfl⟩
  unfold softIncomplete
  split
  · rename_i i _
    let u : State := trimChain i (changeEntryMarked i Entry.cutShort s)
    have frame : SoftFrame s u ∧ u.jt = s.jt := by
      obtain ⟨chunks, mapList, free, trim⟩ := trimmed i (changeEntryMarked i Entry.cutShort s)
      obtain ⟨entries, wt, changed⟩ := changeEntry_frame i Entry.cutShort s
      rw [show u = _ from trim, changeEntryMarked, changed]
      exact ⟨⟨rfl, rfl, rfl, rfl, rfl, rfl, rfl, rfl, rfl, rfl⟩, rfl⟩
    exact ⟨frame.1.trans (modJob_softFrame j _ u), fun k hk => isSome_modJob j _ u k (by rw [State.jobAt, frame.2]; exact hk)⟩
  · exact ⟨.refl s, fun _ h => h⟩

theorem softResetCapture_softFrame (j : Nat) (s : State) :
    SoftFrame s (softResetCapture j s) ∧ ∀ k, (s.jobAt k).isSome = true → ((softResetCapture j s).jobAt k).isSome = true := by
  unfold softResetCapture
  dsimp only
  let emptied : State := modCapture j (CaptureJob.emptied (s.issuedBy j) .softReset) s
  have frame : SoftFrame s emptied := modJob_softFrame j _ s
  have records (k : Nat) (hk : (s.jobAt k).isSome = true) : (emptied.jobAt k).isSome = true := isSome_modJob j _ s k hk
  split
  · exact ⟨frame, records⟩
  · obtain ⟨incomplete, rest⟩ := softIncomplete_softFrame j emptied
    exact ⟨frame.trans incomplete, fun k hk => rest k (records k hk)⟩

/-- A capture with a take stays through the ends of the other jobs (R68, R190). -/
theorem softEndJobs_goesOn {l : List (Nat × Job)} {c : CaptureJob} (hb : job.body = .capture c) (going : c.state ≠ .armed)
    (only : ∀ p ∈ l, p.1 = j → p.2 = job) (record : (s.jobAt j).isSome = true) :
    SoftFrame s (softEndJobs l s) ∧ ((softEndJobs l s).jobAt j).isSome = true := by
  induction l generalizing s with
  | nil => exact ⟨.refl s, record⟩
  | cons p rest ih =>
    obtain ⟨k, other⟩ := p
    let next : State := match other.captureOf with
      | some c => if c.state = CaptureState.armed then endJobSoftly k s else softResetCapture k s
      | none => endJobSoftly k s
    have step : SoftFrame s next ∧ (next.jobAt j).isSome = true := by
      have ends (ne : k ≠ j) : SoftFrame s (endJobSoftly k s) ∧ ((endJobSoftly k s).jobAt j).isSome = true := by
        refine ⟨endJobSoftly_softFrame k s, ?_⟩
        rw [State.jobAt, endJobSoftly_jobs, smapGet_smapDel_ne _ ne.symm]
        exact record
      have stays : SoftFrame s (softResetCapture k s) ∧ ((softResetCapture k s).jobAt j).isSome = true := by
        obtain ⟨frame, records⟩ := softResetCapture_softFrame k s
        exact ⟨frame, records j record⟩
      by_cases hk : k = j
      · have own : next = softResetCapture k s := by
          have same : other = job := only (k, other) List.mem_cons_self hk
          show (match other.captureOf with
            | some c => if c.state = CaptureState.armed then endJobSoftly k s else softResetCapture k s
            | none => endJobSoftly k s) = _
          rw [same, Job.captureOf, hb]
          exact if_neg going
        rw [own]
        exact stays
      · show SoftFrame s (match other.captureOf with
          | some c => if c.state = CaptureState.armed then endJobSoftly k s else softResetCapture k s
          | none => endJobSoftly k s) ∧ (State.jobAt (match other.captureOf with
          | some c => if c.state = CaptureState.armed then endJobSoftly k s else softResetCapture k s
          | none => endJobSoftly k s) j).isSome = true
        cases other.captureOf with
        | none => exact ends hk
        | some c' =>
          by_cases armed : c'.state = CaptureState.armed
          · simpa only [if_pos armed] using ends hk
          · simpa only [if_neg armed] using stays
    obtain ⟨frame, kept⟩ := ih (s := next) (fun p hp => only p (List.mem_cons_of_mem _ hp)) step.2
    exact ⟨step.1.trans frame, kept⟩

end SoftReset

section Partings
variable {s : State}

/-- The parting ABANDON RESET of each link job that gives one, in record order (R88, R114, R120, R158, R168). -/
theorem resetPartings_eq (s : State) : s.resetPartings = s.jt.jobs.filterMap fun p =>
    let abandon := fun (dst : Nat) (dir : Direction) => s.jobFrame p.2 dst dir (.abandon .reset)
    match p.2.body with
    | .capture _ => none
    | .replicate _ => some (abandon 63 .out)
    | .receive _ | .serve _ => some (abandon p.2.opener .back)
    | .play v => if (v.state = .awaitingData ∨ v.state = .playing) ∧ v.grantSent = true
        then v.holder.map (abandon · .out) else none
    | .repair v => v.holder.map (abandon · .out) := by
  refine List.filterMap_congr fun p _ => ?_
  unfold State.parting
  cases hb : p.2.body with
  | play v =>
    dsimp only
    rw [Job.grantedHolder, hb]
    dsimp only
    cases v.state <;> cases v.grantSent <;> simp
  | repair v =>
    dsimp only
    rw [grantedHolder_repair_reset hb]
  | _ => rfl

/-- Every parting frame of SOFT_RESET is an ABANDON RESET. -/
theorem abandon_of_mem_resetPartings {f : Frame} (h : f ∈ s.resetPartings) : f.payload = .abandon .reset := by
  obtain ⟨p, -, gives⟩ := List.mem_filterMap.mp h
  unfold State.parting at gives
  split at gives
  · cases gives
  all_goals first
    | (cases gives; rfl)
    | (obtain ⟨h, -, rfl⟩ := Option.map_eq_some_iff.mp gives; rfl)

end Partings

/-- The entry that no job holds, with its repair hold forgotten (R168). -/
theorem entryAt_forgetHolds {s : State} {i : Nat} {e : Entry} (he : s.entryAt i = some e) :
    (forgetHolds s).entryAt i = some { e with repairHold := none } := by
  show smapGet (s.cat.entries.map fun p => (p.1, { p.2 with repairHold := none })) i = _
  unfold State.entryAt at he
  generalize s.cat.entries = m at he
  induction m with
  | nil => cases he
  | cons p rest ih =>
    rw [List.map_cons, smapGet]
    rw [smapGet] at he
    split at he
    · cases he
      rw [if_pos ‹_›]
    · rw [if_neg ‹_›]
      exact ih he

/-- Settles O28: with no take the jobs' ends follow one another, and a take keeps the port BUSY. -/
theorem softResetEndsEveryJob : Obligations.SoftResetEndsEveryJob := by
  intro s sound hp
  obtain ⟨jobs, -⟩ := sound
  rw [exec_softReset hp]
  have state := reload_state s
  obtain ⟨x, reloaded⟩ := reload_act s
  rw [reloaded] at state ⊢
  let u : State := { s with act := x }
  let busy : State := busyWith .softReset u
  have record {p : Nat × Job} (hp : p ∈ s.jt.jobs) : s.jobAt p.1 = some p.2 := smapGet_of_mem jobs.1 hp
  refine ⟨fun armed => ?armed, fun j job c hj hb going => ?going⟩
  case going =>
    have only : ∀ p ∈ s.jt.jobs, p.1 = j → p.2 = job := fun p hp hk => by
      have := record hp
      rw [hk, hj] at this
      cases this
      rfl
    obtain ⟨frame, kept⟩ := softEndJobs_goesOn (s := busy) hb going only
      (show (s.jobAt j).isSome = true by rw [hj]; rfl)
    let ended : State := softEndJobs s.jt.jobs busy
    obtain ⟨queue, sending, burst, gap, endBurst, answers, plain, linked, -⟩ := softResetLink_spec u.resetPartings ended
    have waits : softReset u = settle (softResetLink u.resetPartings ended) := by
      have some : ¬ (softResetLink u.resetPartings ended).jt.jobs.isEmpty = true := by
        rw [linked]
        intro none
        have empty : ended.jt.jobs = [] := List.isEmpty_iff.mp none
        rw [State.jobAt, show (softEndJobs s.jt.jobs busy).jt.jobs = [] from empty] at kept
        cases kept
      exact congrArg settle (if_neg some)
    refine ⟨_, congrArg Host.Outcome.next waits, ?_, ?_, ?_⟩
    · rw [linked]
      exact congrArg (·.port) frame.cpe
    · rw [linked]
      exact congrArg (·.current) frame.cpe
    · rw [linked]
      exact kept
  case armed =>
    let ended : State := endJobsSoftly s.jt.jobs busy
    have all : softEndJobs s.jt.jobs busy = ended :=
      softEndJobs_armed fun p hp c hb => armed p.1 p.2 c (record hp) hb
    have frame : SoftFrame busy ended :=
      endJobsSoftly_induct (P := SoftFrame busy) rfl (.refl busy)
        fun t j job _ _ h => h.trans (endJobSoftly_softFrame j t)
    have none : ended.jt.jobs = [] := endJobsSoftly_jobs s.jt.jobs rfl
    obtain ⟨queue, sending, burst, gap, endBurst, answers, plain, linked, doomed, given, silent, sends⟩ :=
      softResetLink_spec u.resetPartings ended
    have standing : ended.linkStanding = s.linkStanding := frame.linkStanding
    have few : u.resetPartings.length ≤ 16 := by
      have := List.length_filterMap_le (fun p => u.parting p.2 .reset) u.jt.jobs
      have := jobs_length_le (s := u) jobs
      show (List.filterMap _ u.jt.jobs).length ≤ 16
      omega
    have done : softReset u = settle (finishSoftReset (softResetLink u.resetPartings ended)) := by
      unfold softReset
      dsimp only
      rw [show softEndJobs u.jt.jobs (busyWith .softReset u) = ended from all]
      have empty : (softResetLink u.resetPartings ended).jt.jobs.isEmpty = true := by
        rw [linked]
        exact List.isEmpty_iff.mpr none
      rw [if_pos empty]
    rw [linked] at done
    refine ⟨_, congrArg Host.Outcome.next done, none, frame.nextTag, ?cpe, rfl, rfl, doomed, ?abandons,
      fun mute => silent (standing.trans mute), fun sendsNow => ?partings, rfl, rfl, ?lastSource, ?lfsr, ?mute, ?medium,
      frame.counter, frame.notices, frame.fault, frame.sul, ?act, frame.store, frame.total, fun i e he free => ?entry,
      fun noReceive => ?chunks, fun j owned live => ?port⟩
    case cpe =>
      exact congrArg (fun c : Cpe => { c with port := .responseWaiting, current := Option.none,
                                              response := some { result := .ok, code := 16, tag := 0, data := [] },
                                              events := [], seen := [0, 0, 0, 0, 0, 0, 0, 0], lost := 0, refused := 0 }) frame.cpe
    case abandons =>
      intro q hq
      obtain ⟨owner, parts⟩ := given q hq
      exact ⟨owner, abandon_of_mem_resetPartings parts⟩
    case partings => exact (sends (standing.trans sendsNow) few).trans (resetPartings_eq u)
    case lastSource => exact congrArg (·.lastSource) frame.lif
    case lfsr => exact congrArg (·.lfsr) frame.lif
    case mute => exact congrArg (·.mute) frame.lif
    case medium => exact congrArg (·.medium) frame.lif
    case act => exact (congrArg (·.state) frame.act).trans state
    case entry =>
      have kept : ended.entryAt i = some e :=
        endJobsSoftly_induct (P := fun t => t.entryAt i = some e) rfl he fun t j job hmem hj h =>
          (endJobSoftly_entryAt hj (free j job (record hmem))).trans h
      exact entryAt_forgetHolds kept
    case chunks =>
      have kept : ChunksStand busy ended :=
        endJobsSoftly_induct (P := ChunksStand busy) rfl ⟨rfl, rfl, rfl, rfl, rfl, List.prefix_rfl, List.prefix_rfl⟩
          fun t j job hmem hj h => h.trans (endJobSoftly_chunksStand hj (noReceive j job (record hmem))).1
      refine ⟨kept.chunks, kept.free, kept.bad, kept.mapList, kept.mark, kept.queue, kept.wt, fun noReplicate => ?_⟩
      exact endJobsSoftly_induct (P := fun t => t.cat.queue = s.cat.queue ∧ t.cat.wt = s.cat.wt) rfl ⟨rfl, rfl⟩
        fun t j job hmem hj h => by
          obtain ⟨queue, wt⟩ :=
            (endJobSoftly_chunksStand hj (noReceive j job (record hmem))).2 (noReplicate j job (record hmem))
          exact ⟨queue.trans h.1, wt.trans h.2⟩
    case port =>
      have freed : ended.port.owner = some j ∧ (ended.jobAt j).isSome = true
          ∨ ended.port.owner = Option.none ∧ ended.port.line = .released :=
        endJobsSoftly_induct (P := fun t => t.port.owner = some j ∧ (t.jobAt j).isSome = true
            ∨ t.port.owner = Option.none ∧ t.port.line = .released) rfl (.inl ⟨owned, live⟩)
          fun t k job _ hk h => by
            rw [endJobSoftly_port hk]
            obtain ⟨owner, record⟩ | ⟨owner, line⟩ := h
            · by_cases same : k = j
              · subst same
                exact .inr ⟨if_pos owner, if_pos owner⟩
              · refine .inl ⟨(if_neg fun other => same ?_).trans owner, ?_⟩
                · rw [owner] at other
                  cases other
                  rfl
                · rw [State.jobAt, endJobSoftly_jobs, smapGet_smapDel_ne _ (Ne.symm same)]
                  exact record
            · have unowned : ¬ t.port.owner = some k := by rw [owner]; intro h; cases h
              exact .inr ⟨(if_neg unowned).trans owner, (if_neg unowned).trans line⟩
      obtain ⟨-, record⟩ | freed := freed
      · rw [State.jobAt, none] at record
        cases record
      · exact freed

end Sys2Proof.Machine

/-! ## Proofs: time, the start of start-up, carrier and the hold-off counts

SUPPORT. What time passing changes, and what HOU's records count; the rows that need no more than these. -/

namespace Sys2Proof.Machine

/-! ### Time -/

section Time
variable {s : State}

/-- A change of hold-off records that moves their slots and their progress alone, as counting does (R98, R99). -/
def Counts (g : HoldRec → HoldRec) : Prop := ∀ r, ∃ slots progress, g r = { r with slots := slots, progress := progress }

theorem counts_count (bits : Nat) : Counts (HoldRec.count bits) := by
  rintro ⟨frame, owner, opener, base, collisions, slots, offset, phase, progress, order, bids, expiry, doomed⟩
  cases phase with
  | slot =>
    dsimp only [HoldRec.count]
    split
    · exact ⟨_, _, rfl⟩
    · exact ⟨_, _, rfl⟩
  | offset => exact ⟨_, _, rfl⟩
  | released => exact ⟨_, _, rfl⟩

theorem counts_id : Counts id := fun _ => ⟨_, _, rfl⟩

theorem Hou.mapAll_id (h : Hou) : h.mapAll id = h := by
  simp [Hou.mapAll]

/-- Counted records answer as before to what does not look at their slots or their progress. -/
theorem Counts.map_eq {g : HoldRec → HoldRec} {α : Type} {p : HoldRec → α} (hg : Counts g)
    (blind : ∀ r slots progress, p { r with slots := slots, progress := progress } = p r) (l : List HoldRec) :
    (l.map g).map p = l.map p := by
  rw [List.map_map]
  refine List.map_congr_left fun r _ => ?_
  obtain ⟨slots, progress, eq⟩ := hg r
  rw [Function.comp_apply, eq, blind]

/-- `n` units of 125 ns: the clock, the bits sent, the bits of absent carrier and the records' counts move. -/
theorem passUnits_eq (n : Nat) (s : State) : ∃ sentBits absent g, Counts g
    ∧ passUnits n s = { s with clock := s.clock + n, lif.sentBits := sentBits, lif.absent := absent, hou := s.hou.mapAll g } := by
  unfold passUnits passBits
  dsimp only
  split
  · exact ⟨_, _, _, counts_count _, rfl⟩
  · exact ⟨_, _, id, counts_id, congrArg (fun h => ({ s with clock := s.clock + n, lif.sentBits := _, lif.absent := _, hou := h } : State)) (Hou.mapAll_id s.hou).symm⟩

/-- Time passing to node tick `t`. -/
theorem passTo_eq (t : Nat) (s : State) : ∃ sentBits absent g, Counts g
    ∧ passTo t s = { s with clock := max s.clock (t * 8000), lif.sentBits := sentBits, lif.absent := absent,
                            hou := s.hou.mapAll g } := by
  have reached : s.clock + (t * 8000 - s.clock) = max s.clock (t * 8000) := by omega
  rw [← reached]
  exact passUnits_eq _ s

/-- Bit times that pass by the clock are those asked for (R71). -/
theorem bits_passed {u : Nat} (clock bits : Nat) (hu : 0 < u) : (clock + bits * u) / u - clock / u = bits := by
  rw [Nat.add_mul_div_right _ _ hu]
  omega

theorem bitUnits_pos (range : s.sul.cfg.inRange) : 0 < s.bitUnits := by
  obtain ⟨-, rate, -⟩ := range
  rw [State.bitUnits]
  rcases rate with h | h | h <;> rw [h] <;> decide

/-- Bit times of a medium that is not IDLE: HOU counts nothing (R98). -/
theorem passBitTimes_notIdle (bits : Nat) (busy : s.lif.medium ≠ .idle) : ∃ sentBits absent,
    passBitTimes bits s = { s with clock := s.clock + bits * s.bitUnits, lif.sentBits := sentBits, lif.absent := absent } := by
  unfold passBitTimes passUnits passBits
  dsimp only
  rw [if_neg busy]
  exact ⟨_, _, rfl⟩

/-- Bit times of IDLE: every record counts them (R98, R99). -/
theorem passBitTimes_idle (bits : Nat) (range : s.sul.cfg.inRange) (idle : s.lif.medium = .idle) : ∃ sentBits absent,
    passBitTimes bits s = { s with clock := s.clock + bits * s.bitUnits, lif.sentBits := sentBits, lif.absent := absent,
                                   hou := s.hou.mapAll (HoldRec.count bits) } := by
  unfold passBitTimes passUnits passBits
  dsimp only
  rw [if_pos idle]
  rw [bits_passed s.clock bits (bitUnits_pos range)]
  exact ⟨_, _, rfl⟩

end Time

/-- Settles O2, from what time passing changes. -/
theorem emptyQueueLetsTimePass : Obligations.EmptyQueueLetsTimePass := by
  intro s empty
  have row : step s = .next (passUnits 1 s) := by
    unfold step
    rw [empty]
  obtain ⟨sentBits, absent, g, counts, passed⟩ := passUnits_eq 1 s
  have blind (r : HoldRec) (slots progress : Nat) :
      ({ ({ r with slots := slots, progress := progress } : HoldRec) with slots := 0, progress := 0 } : HoldRec)
        = { r with slots := 0, progress := 0 } := rfl
  rw [passed] at row
  refine ⟨_, row, rfl, rfl, rfl, counts.map_eq blind _, ?_⟩
  cases plain : s.hou.plain with
  | none => simp [Hou.mapAll, plain]
  | some r =>
    obtain ⟨slots, progress, eq⟩ := counts r
    simp [Hou.mapAll, plain, eq]

/-! ### The capacity -/

/-- Settles O33: the branches of `takeCapacity`, and the 250 ms that pass. -/
theorem capacitySetsTheChunkCount : Obligations.CapacitySetsTheChunkCount := by
  intro s asked waiting
  have report (blocks : Nat) : exec (.capacityReport blocks) s = .next (settle (takeCapacity blocks s)) := by
    show execCapacityReport blocks s = _
    rw [execCapacityReport, waiting]
  refine ⟨fun blocks enough => ?_, fun blocks small => ?_, ?_⟩
  · have taken : takeCapacity blocks s
        = { s with sul.phase := .counter, med.capacity := blocks, med.total := min (blocks / 4096) 16384,
                   med.chunks := [(0, reservedChunk)] } := if_neg (by omega)
    rw [report, taken]
    exact ⟨_, rfl, rfl, rfl, rfl, show 8 ≤ min (blocks / 4096) 16384 by omega, rfl⟩
  · rw [report, takeCapacity, if_pos small]
  · have late : exec .capacityTimeout s = .next { passTo (asked + 250) s with sul.phase := .unusable } := by
      show execCapacityTimeout s = _
      rw [execCapacityTimeout, waiting]
    obtain ⟨sentBits, absent, g, -, passed⟩ := passTo_eq (asked + 250) s
    rw [passed] at late
    exact ⟨_, late, rfl, rfl, rfl, rfl, rfl, rfl⟩

/-! ### The hardware reset -/

/-- The store at a hardware reset reads as before outside the write in progress (R28, R40). -/
theorem storeAtReset_other (s : State) (landed : Bool) {a : Nat}
    (away : ∀ op, s.med.issued = some op → op.write = true → op.addr ≠ a) :
    smapGet (s.storeAtReset landed) a = smapGet s.med.store a := by
  unfold State.storeAtReset
  split
  next op issued =>
    split
    next write => exact smapGet_smapSet_ne _ _ (away op issued write).symm
    next => rfl
  next => rfl

theorem storeAtReset_write {s : State} {op : Issued} (landed : Bool) (issued : s.med.issued = some op) (write : op.write = true) :
    smapGet (s.storeAtReset landed) op.addr = if landed then some op.data else smapGet s.med.store op.addr := by
  unfold State.storeAtReset
  rw [issued]
  cases landed with
  | true =>
    dsimp only
    rw [if_pos write]
    exact smapGet_smapSet_self ..
  | false => rfl

/-- Settles O31: the row's state field by field, and what the store then reads. -/
theorem hardwareResetRestoresReset : Obligations.HardwareResetRestoresReset := by
  intro landed s
  refine ⟨_, rfl, rfl, rfl, rfl, rfl, rfl, rfl, rfl, rfl, rfl, rfl, rfl, rfl, rfl, rfl, rfl, rfl, rfl, rfl, ?_, ?_⟩
  · intro a away
    show (smapGet (s.storeAtReset landed) a).getD _ = (smapGet s.med.store a).getD _
    rw [storeAtReset_other s landed away]
  · intro op issued write
    show (smapGet (s.storeAtReset landed) op.addr).getD _ = _
    rw [storeAtReset_write landed issued write]
    cases landed with
    | true => rfl
    | false => rfl

/-! ### Carrier -/

/-- What carrier makes of a record (R100, R101): the progress is lost, and a released frame is in its offset phase again. -/
theorem freeze_unrelease (r : HoldRec) :
    r.unrelease.freeze = { r with progress := 0, phase := if r.phase = .released then .offset else r.phase } := by
  obtain ⟨frame, owner, opener, base, collisions, slots, offset, phase, progress, order, bids, expiry, doomed⟩ := r
  cases phase with
  | slot => rfl
  | offset => rfl
  | released => rfl

theorem unrelease_unrelease (r : HoldRec) : r.unrelease.unrelease = r.unrelease := by
  obtain ⟨frame, owner, opener, base, collisions, slots, offset, phase, progress, order, bids, expiry, doomed⟩ := r
  cases phase with
  | slot => rfl
  | offset => rfl
  | released => rfl

theorem Hou.mapAll_mapAll (f g : HoldRec → HoldRec) (h : Hou) : (h.mapAll f).mapAll g = h.mapAll (g ∘ f) := by
  simp [Hou.mapAll]

/-- Carrier that the node hears begin (R72, R80, R100, R101; log 22). -/
theorem hearCarrier_eq (s : State) : ∃ burst gap endBurst,
    hearCarrier s = { s with lif.medium := .busy, lif.absent := 0, lif.rxOpen := true, lif.burst := burst, lif.gap := gap,
                             lif.endBurst := endBurst,
                             hou := s.hou.mapAll (HoldRec.freeze ∘ HoldRec.unrelease) } := by
  unfold hearCarrier
  split
  · refine ⟨0, false, false, ?_⟩
    have twice : ((s.hou.mapAll HoldRec.unrelease).mapAll HoldRec.unrelease).mapAll HoldRec.freeze
        = s.hou.mapAll (HoldRec.freeze ∘ HoldRec.unrelease) := by
      rw [Hou.mapAll_mapAll, Hou.mapAll_mapAll]
      exact congrArg (s.hou.mapAll ·) (funext fun r => congrArg HoldRec.freeze (unrelease_unrelease r))
    rw [← twice]
    rfl
  · refine ⟨s.lif.burst, s.lif.gap, s.lif.endBurst, ?_⟩
    rw [← Hou.mapAll_mapAll]
    rfl

/-- Settles O38: the branches of the two rows, and of `hearPeriod`. -/
theorem carrierPeriodsAreClassed : Obligations.CarrierPeriodsAreClassed := by
  intro s
  have hears (listening : s.lif.listening = true) (silent : s.lif.sending = none) :
      (s.lif.listening && s.lif.sending.isNone) = true := by
    rw [listening, silent]
    rfl
  refine ⟨fun absent listening silent => ?_, fun absent deaf => ?_, fun period carrier listening silent heard => ?_,
    fun period carrier listening silent unheard => ?_⟩
  · have row : exec .carrierAppears s = .next (hearCarrier { s with lif.carrier := true }) := by
      exact (if_neg (by rw [absent]; decide)).trans (if_pos (hears listening silent))
    obtain ⟨burst, gap, endBurst, eq⟩ := hearCarrier_eq { s with lif.carrier := true }
    rw [eq] at row
    refine ⟨_, row, rfl, rfl, rfl, ?_, ?_, rfl, rfl, rfl⟩
    · exact List.map_congr_left fun r _ => freeze_unrelease r
    · exact congrArg (Option.map · s.hou.plain) (funext freeze_unrelease)
  · show execCarrierAppears s = _
    have off : ¬ (s.lif.listening && s.lif.sending.isNone) = true := by
      rw [Bool.and_eq_true, Option.isNone_iff_eq_none]
      rintro ⟨listening, silent⟩
      rcases deaf with not | sending
      · rw [not] at listening
        cases listening
      · exact sending silent
    exact (if_neg (by rw [absent]; decide)).trans (if_neg off)
  · have row : exec (.carrierEnds period) s = .next (hearPeriod period
        { s with lif.carrier := false, lif.medium := .settling, lif.absent := 0 }) := by
      exact (if_neg (by rw [carrier]; decide)).trans
        ((if_pos (hears listening silent)).trans (congrArg Host.Outcome.next (if_pos heard)))
    refine ⟨fun f class_ => ?_, fun class_ => ?_, fun class_ => ?_⟩
    all_goals
      rw [row, hearPeriod, class_]
      rfl
  · exact (if_neg (by rw [carrier]; decide)).trans
      ((if_pos (hears listening silent)).trans (congrArg Host.Outcome.next (if_neg (by rw [unheard]; decide))))

/-! ### The hold-off counts -/

section HoldOff
variable {s : State} {r : HoldRec}

/-- What IDLE makes of a record (R98, R100). -/
theorem resume_eq (off : Nat) (r : HoldRec) :
    r.resume off = if r.phase = .offset ∨ r.phase = .slot ∧ r.slots = 0 then
      { r with phase := .offset, offset := off, progress := 0 } else r := by
  obtain ⟨frame, owner, opener, base, collisions, slots, offset, phase, progress, order, bids, expiry, doomed⟩ := r
  cases phase with
  | slot => simp [HoldRec.resume, HoldRec.beginOffset]
  | offset => simp [HoldRec.resume, HoldRec.beginOffset]
  | released => simp [HoldRec.resume]

/-- A slot phase that counts its bit times has run out, and its offset phase begins (R98). -/
theorem endSlots_count (off : Nat) (slot : r.phase = .slot) :
    (r.count r.bitsLeft).endSlots off = { r with phase := .offset, slots := 0, progress := 0, offset := off } := by
  have left : r.bitsLeft = 128 * r.slots - r.progress := by rw [HoldRec.bitsLeft, slot]
  have out : r.count r.bitsLeft = { r with slots := 0, progress := 0 } := by
    rw [left]
    unfold HoldRec.count
    rw [slot]
    exact if_neg (by omega)
  rw [out]
  exact if_pos ⟨slot, rfl⟩

theorem count_offset (bits : Nat) (offset : r.phase = .offset) :
    r.count bits = { r with progress := min (4 * r.offset) (r.progress + bits) } := by
  obtain ⟨frame, owner, opener, base, collisions, slots, off, phase, progress, order, bids, expiry, doomed⟩ := r
  subst offset
  rfl

/-- An offset phase that counts its bit times releases its frame (R99). -/
theorem release_count (offset : r.phase = .offset) :
    (r.count r.bitsLeft).release = { r with phase := .released, progress := 4 * r.offset } := by
  have left : r.bitsLeft = 4 * r.offset - r.progress := by rw [HoldRec.bitsLeft, offset]
  have full : min (4 * r.offset) (r.progress + (4 * r.offset - r.progress)) = 4 * r.offset := by omega
  have counted : r.count r.bitsLeft = { r with progress := 4 * r.offset } := by
    rw [left, count_offset _ offset, full]
  rw [counted]
  exact if_pos ⟨offset, Nat.le_refl _⟩

theorem order_count (bits : Nat) (r : HoldRec) : (r.count bits).order = r.order := by
  obtain ⟨slots, progress, eq⟩ := counts_count bits r
  rw [eq]

theorem order_endSlots (off : Nat) (r : HoldRec) : (r.endSlots off).order = r.order := by
  unfold HoldRec.endSlots
  split
  · rfl
  · rfl

/-- The record of an order, after a change that keeps the orders. -/
theorem find_order_map {g : HoldRec → HoldRec} {l : List HoldRec} {o : Nat} (same : ∀ r, (g r).order = r.order)
    (found : l.find? (fun r => r.order == o) = some r) : (l.map g).find? (fun r => r.order == o) = some (g r) := by
  rw [List.find?_map, show (fun r => r.order == o) ∘ g = fun r => r.order == o from funext fun r => by simp [same], found]
  rfl

/-- SLOT_PHASE_END (R98). -/
theorem exec_slotPhaseEnd {record : RecordId} (range : s.sul.cfg.inRange) (found : s.record record = some r)
    (idle : s.lif.medium = .idle) (slot : r.phase = .slot) : ∃ sentBits absent,
    exec (.slotPhaseEnd record) s = .next
      { s with clock := s.clock + r.bitsLeft * s.bitUnits, lif.sentBits := sentBits, lif.absent := absent,
               hou := s.hou.mapAll (HoldRec.endSlots s.holdOffset ∘ HoldRec.count r.bitsLeft) } := by
  have row : exec (.slotPhaseEnd record) s = .next
      (onRecords (HoldRec.endSlots (passBitTimes r.bitsLeft s).holdOffset) (passBitTimes r.bitsLeft s)) := by
    show execSlotPhaseEnd record s = _
    rw [execSlotPhaseEnd, found]
    exact if_pos ⟨idle, slot⟩
  obtain ⟨sentBits, absent, passed⟩ := passBitTimes_idle r.bitsLeft range idle
  refine ⟨sentBits, absent, ?_⟩
  rw [row, passed, ← Hou.mapAll_mapAll]
  rfl

/-- HOLDOFF_RELEASE (R79, R99): what LIF looks at. -/
theorem exec_holdoffRelease {record : RecordId} (range : s.sul.cfg.inRange) (found : s.record record = some r)
    (idle : s.lif.medium = .idle) (offset : r.phase = .offset) : ∃ sentBits absent,
    exec (.holdoffRelease record) s = .next (startReleased
      { s with clock := s.clock + r.bitsLeft * s.bitUnits, lif.sentBits := sentBits, lif.absent := absent,
               hou := s.hou.mapAll (HoldRec.release ∘ HoldRec.count r.bitsLeft) }) := by
  have row : exec (.holdoffRelease record) s = .next
      (startReleased (onRecords HoldRec.release (passBitTimes r.bitsLeft s))) := by
    show execHoldoffRelease record s = _
    rw [execHoldoffRelease, found]
    exact if_pos ⟨idle, offset⟩
  obtain ⟨sentBits, absent, passed⟩ := passBitTimes_idle r.bitsLeft range idle
  refine ⟨sentBits, absent, ?_⟩
  rw [row, passed, ← Hou.mapAll_mapAll]
  rfl

end HoldOff

/-- Settles O39, from what a record's count comes to in each phase. -/
theorem holdoffCountsRunInIdle : Obligations.HoldoffCountsRunInIdle := by
  intro s range _
  refine ⟨fun listening settling noGap silent => ?_, fun o r found idle slot => ?_, fun r plain idle slot => ?_,
    fun o r one order live idle offset => ?_, fun r x rest none plain front idle offset => ?_⟩
  · have row : exec .idleGapElapsed s = .next (onRecords (HoldRec.resume (passBitTimes (48 - s.lif.absent) s).holdOffset)
        { passBitTimes (48 - s.lif.absent) s with lif.medium := .idle }) := by
      show execIdleGapElapsed s = _
      unfold execIdleGapElapsed
      rw [listening, settling, noGap, silent]
      rfl
    obtain ⟨sentBits, absent, passed⟩ := passBitTimes_notIdle (s := s) (48 - s.lif.absent) (by rw [settling]; decide)
    rw [passed] at row
    refine ⟨_, row, rfl, rfl, ?_, rfl, rfl, rfl, rfl, rfl⟩
    exact List.map_congr_left fun r _ => resume_eq s.holdOffset r
  · obtain ⟨sentBits, absent, row⟩ := exec_slotPhaseEnd (record := .answer o) range found idle slot
    have left : r.bitsLeft = 128 * r.slots - r.progress := by rw [HoldRec.bitsLeft, slot]
    refine ⟨_, row, ?_, ?_, rfl, rfl, rfl, rfl, rfl⟩
    · rw [left]
      rfl
    · rw [← show s.holdOffset = (s.own + 63 - s.lif.lastSource) % 32 from rfl, ← endSlots_count s.holdOffset slot]
      exact find_order_map (fun r => (order_endSlots _ _).trans (order_count _ _)) found
  · obtain ⟨sentBits, absent, row⟩ := exec_slotPhaseEnd (record := .plain) range plain idle slot
    refine ⟨_, row, ?_⟩
    show Option.map _ s.hou.plain = _
    rw [plain, ← show s.holdOffset = (s.own + 63 - s.lif.lastSource) % 32 from rfl]
    exact congrArg some (endSlots_count s.holdOffset slot)
  · have found : s.record (.answer o) = some r := by
      rw [State.record, one]
      exact List.find?_cons_of_pos (by rw [order]; exact beq_self_eq_true o)
    have left : r.bitsLeft = 4 * r.offset - r.progress := by rw [HoldRec.bitsLeft, offset]
    obtain ⟨sentBits, absent, row⟩ := exec_holdoffRelease range found idle offset
    have released (u : State) (records : u.hou.answers = [{ r with phase := .released, progress := 4 * r.offset }]) :
        startReleased u = startFrame r.frame (.answer r.order) u := by
      have first : u.releasedAnswer = some { r with phase := .released, progress := 4 * r.offset } := by
        rw [State.releasedAnswer, records]
        exact List.find?_cons_of_pos (by simp [live])
      rw [startReleased, first]
    have records : s.hou.answers.map (HoldRec.release ∘ HoldRec.count r.bitsLeft)
        = [{ r with phase := .released, progress := 4 * r.offset }] := by
      rw [one, List.map_singleton, Function.comp_apply, release_count offset]
    rw [released _ records] at row
    refine ⟨_, row, ?_, ?_, rfl, rfl, rfl, rfl, rfl, rfl⟩
    · rw [left]
      rfl
    · rw [order]
      rfl
  · obtain ⟨sentBits, absent, row⟩ := exec_holdoffRelease (record := .plain) range plain idle offset
    have released (u : State) (records : u.hou.answers = [])
        (own : u.hou.plain = some { r with phase := .released, progress := 4 * r.offset }) (queue : u.lif.queue = x :: rest) :
        startReleased u = startFrame x.frame .front u := by
      have first : u.releasedAnswer = Option.none := by
        rw [State.releasedAnswer, records]
        rfl
      rw [startReleased, first, own, queue]
      rfl
    have records : s.hou.answers.map (HoldRec.release ∘ HoldRec.count r.bitsLeft) = [] := by rw [none]; rfl
    have own : s.hou.plain.map (HoldRec.release ∘ HoldRec.count r.bitsLeft)
        = some { r with phase := .released, progress := 4 * r.offset } := by
      rw [plain, Option.map_some, Function.comp_apply, release_count offset]
    exact ⟨_, row.trans (congrArg Host.Outcome.next (released _ records own front)), rfl, rfl, rfl, rfl⟩

end Sys2Proof.Machine

/-! ## Proofs: jobs that end, LINK_MUTE, the configuration image

SUPPORT. What stands when jobs end with an outcome, one after another, and the rows settled from it. -/

namespace Sys2Proof.Machine

section Ends
variable {s t v : State} {j : Nat} {job : Job}

/-! ### What the end of a job leaves -/

/-- What the end of a job leaves (R15, R78, R84): beyond it, frames leave the queue, answers are doomed or gone, notes lapse. -/
structure EndFrame (s t : State) : Prop where
  pending : t.pending = s.pending
  clock : t.clock = s.clock
  sul : t.sul = s.sul
  act : t.act = s.act
  nextTag : t.jt.nextTag = s.jt.nextTag
  lif : t.lif = { s.lif with queue := t.lif.queue, sending := t.lif.sending }
  counter : t.cat.counter = s.cat.counter
  notices : t.cat.notices = s.cat.notices
  store : t.med.store = s.med.store
  notes : t.notes ⊆ s.notes
  answers : ∀ r ∈ t.hou.answers, ∃ r₀ ∈ s.hou.answers, r = r₀ ∨ r = { r₀ with doomed := true }

theorem EndFrame.refl (s : State) : EndFrame s s where
  pending := rfl
  clock := rfl
  sul := rfl
  act := rfl
  nextTag := rfl
  lif := rfl
  counter := rfl
  notices := rfl
  store := rfl
  notes := fun _ h => h
  answers := fun r hr => ⟨r, hr, .inl rfl⟩

theorem EndFrame.trans (h : EndFrame s t) (g : EndFrame t v) : EndFrame s v where
  pending := g.pending.trans h.pending
  clock := g.clock.trans h.clock
  sul := g.sul.trans h.sul
  act := g.act.trans h.act
  nextTag := g.nextTag.trans h.nextTag
  lif := by rw [g.lif, h.lif]
  counter := g.counter.trans h.counter
  notices := g.notices.trans h.notices
  store := g.store.trans h.store
  notes := fun _ hn => h.notes (g.notes hn)
  answers := fun r hr => by
    obtain ⟨r₁, mem₁, from₁⟩ := g.answers r hr
    obtain ⟨r₀, mem₀, from₀⟩ := h.answers r₁ mem₁
    refine ⟨r₀, mem₀, ?_⟩
    rcases from₁ with rfl | rfl
    · exact from₀
    · rcases from₀ with rfl | rfl
      · exact .inr rfl
      · exact .inr rfl

theorem EndFrame.now (h : EndFrame s t) : t.now = s.now := by rw [State.now, State.now, h.clock]

theorem EndFrame.own (h : EndFrame s t) : t.own = s.own := by rw [State.own, State.own, h.sul]

theorem EndFrame.linkStanding (h : EndFrame s t) : t.linkStanding = s.linkStanding := by
  have muted : t.muted = s.muted := by rw [State.muted, h.lif, State.muted]
  rw [State.linkStanding, State.linkStanding, muted, State.complete, State.complete, h.sul]

/-- An answer record that is gone stays gone. -/
theorem EndFrame.answerRecord {o : Nat} (h : EndFrame s t) (gone : s.answerRecord o = none) : t.answerRecord o = none := by
  rw [State.answerRecord, List.find?_eq_none] at gone ⊢
  intro r hr
  obtain ⟨r₀, mem, from₀⟩ := h.answers r hr
  rcases from₀ with rfl | rfl
  · exact gone _ mem
  · exact gone r₀ mem

/-- Answers that are removed are doomed or gone (R101, R103 to R105). -/
theorem removeAnswers_endFrame (p : HoldRec → Bool) (s : State) : EndFrame s (removeAnswers p s) where
  pending := rfl
  clock := rfl
  sul := rfl
  act := rfl
  nextTag := rfl
  lif := rfl
  counter := rfl
  notices := rfl
  store := rfl
  notes := fun _ h => h
  answers := fun r hr => by
    obtain ⟨r₀, mem, rfl⟩ := List.mem_map.mp hr
    refine ⟨r₀, List.mem_of_mem_filter mem, ?_⟩
    split
    · exact .inr rfl
    · exact .inl rfl

/-- Every answer that is removed and still on the medium is doomed (R101). -/
theorem doomed_of_mem_removeAnswers {r : HoldRec} (hr : r ∈ (removeAnswers (fun _ => true) s).hou.answers) : r.doomed = true := by
  obtain ⟨r₀, -, rfl⟩ := List.mem_map.mp hr
  rfl

theorem txRemoveJob_answers (j : Nat) (s : State) : (txRemoveJob j s).hou.answers = s.hou.answers := by
  unfold txRemoveJob orphanFront
  dsimp only
  split
  · split
    · rfl
    · rfl
  · rfl

theorem unwant_answers (j : Nat) (s : State) : (unwant j s).hou.answers = s.hou.answers := by
  obtain ⟨issued, unwanted⟩ := unwant_eq j s
  rw [unwanted]

theorem releaseSpace_answers (job : Job) (s : State) : (releaseSpace job s).hou.answers = s.hou.answers := by
  rw [releaseSpace_eq]

/-- HOU's answers when a job ends (R105). -/
theorem closeJob_answers (hj : s.jobAt j = some job) :
    (closeJob j s).hou.answers = (removeAnswers (fun r => r.owner == some j) (txRemoveJob j s)).hou.answers := by
  unfold closeJob
  rw [hj]
  dsimp only
  cases job.entry with
  | none => exact (releaseSpace_answers job _).trans (unwant_answers j _)
  | some i =>
    show (dropRef i _).hou.answers = _
    rw [dropRef, modEntry_hou, releaseSpace_answers, unwant_answers]

theorem closeJob_endFrame (j : Nat) (s : State) : EndFrame s (closeJob j s) := by
  cases hj : s.jobAt j with
  | none =>
    have same : closeJob j s = s := by rw [closeJob, hj]
    rw [same]
    exact .refl s
  | some job =>
    have answers (r : HoldRec) (hr : r ∈ (closeJob j s).hou.answers) :
        ∃ r₀ ∈ s.hou.answers, r = r₀ ∨ r = { r₀ with doomed := true } := by
      rw [closeJob_answers hj] at hr
      obtain ⟨r₀, mem, from₀⟩ := (removeAnswers_endFrame _ (txRemoveJob j s)).answers r hr
      rw [txRemoveJob_answers] at mem
      exact ⟨r₀, mem, from₀⟩
    obtain ⟨sending, hou, issued, closed⟩ := closeJob_eq hj
    rw [closed] at answers ⊢
    exact ⟨rfl, rfl, rfl, rfl, rfl, rfl, rfl, rfl, rfl, fun _ h => h, answers⟩

theorem freeEntry_endFrame (i : Nat) (s : State) : EndFrame s (freeEntry i s) := by
  unfold freeEntry
  split
  · rename_i e _
    obtain ⟨chunks, mapList, free, frame⟩ := freeChunks_frame i (s.chain e) s
    rw [frame]
    have removed (u : State) (notes : u.notes = s.notes) (h : EndFrame s u) :
        EndFrame s { u with notes := u.notes.filter (fun n => n.take ≠ e.take) } :=
      ⟨h.pending, h.clock, h.sul, h.act, h.nextTag, h.lif, h.counter, h.notices, h.store,
        fun n hn => notes ▸ List.mem_of_mem_filter hn, h.answers⟩
    obtain ⟨wt, queued, -⟩ := queueEntry_eq i
      { s with med.chunks := chunks, med.mapList := mapList, med.free := free,
               cat.queue := s.cat.queue.filter (fun q => q.1 ≠ i), cat.wt := dropItems i s.cat.wt,
               cat.entries := smapDel s.cat.entries i }
    dsimp only
    rw [queued]
    refine removed _ rfl ((EndFrame.trans ?_ (removeAnswers_endFrame _ _)))
    exact ⟨rfl, rfl, rfl, rfl, rfl, rfl, rfl, rfl, rfl, fun _ h => h, fun r hr => ⟨r, hr, .inl rfl⟩⟩
  · exact .refl s

theorem raise_endFrame (e : Event) (s : State) : EndFrame s (raise e s) := by
  obtain ⟨seen, events, lost, raised⟩ := raise_eq e s
  rw [raised]
  exact ⟨rfl, rfl, rfl, rfl, rfl, rfl, rfl, rfl, rfl, fun _ h => h, fun r hr => ⟨r, hr, .inl rfl⟩⟩

theorem partWith_endFrame (parting : Option Frame) (s : State) : EndFrame s (partWith parting s) := by
  obtain ⟨queue, plain, parted⟩ := partWith_frame parting s
  rw [parted]
  exact ⟨rfl, rfl, rfl, rfl, rfl, rfl, rfl, rfl, rfl, fun _ h => h, fun r hr => ⟨r, hr, .inl rfl⟩⟩

theorem modEntry_endFrame (i : Nat) (f : Entry → Entry) (s : State) : EndFrame s (modEntry i f s) := by
  obtain ⟨entries, changed⟩ := modEntry_frame i f s
  rw [changed]
  exact ⟨rfl, rfl, rfl, rfl, rfl, rfl, rfl, rfl, rfl, fun _ h => h, fun r hr => ⟨r, hr, .inl rfl⟩⟩

theorem changeEntry_endFrame (i : Nat) (f : Entry → Entry) (s : State) : EndFrame s (changeEntry i f s) := by
  obtain ⟨entries, wt, changed⟩ := changeEntry_frame i f s
  rw [changed]
  exact ⟨rfl, rfl, rfl, rfl, rfl, rfl, rfl, rfl, rfl, fun _ h => h, fun r hr => ⟨r, hr, .inl rfl⟩⟩

theorem raiseShort_endFrame (i : Nat) (s : State) : EndFrame s (raiseShort i s) := by
  unfold raiseShort
  split
  · exact raise_endFrame _ s
  · exact .refl s

theorem joinQueue_endFrame (i notBefore : Nat) (s : State) : EndFrame s (joinQueue i notBefore s) :=
  ⟨rfl, rfl, rfl, rfl, rfl, rfl, rfl, rfl, rfl, fun _ h => h, fun r hr => ⟨r, hr, .inl rfl⟩⟩

theorem settlePlacement_endFrame (i : Nat) (s : State) : EndFrame s (settlePlacement i s) := by
  unfold settlePlacement
  split
  · split
    · exact changeEntry_endFrame _ _ s
    · exact ((changeEntry_endFrame _ _ s).trans (joinQueue_endFrame _ _ _)).trans (raiseShort_endFrame _ _)
  · exact .refl s

theorem holdRepair_endFrame (i : Nat) (r : RepairJob) (result : Result) (s : State) : EndFrame s (holdRepair i r result s) := by
  unfold holdRepair
  split
  · split
    · exact modEntry_endFrame _ _ s
    · exact .refl s
  · exact .refl s

theorem settleEntry_endFrame (job : Job) (result : Result) (s : State) : EndFrame s (settleEntry job result s) := by
  unfold settleEntry
  split
  · exact .refl s
  · split
    · split
      · exact .refl s
      · exact freeEntry_endFrame _ s
    · exact settlePlacement_endFrame _ s
    · exact holdRepair_endFrame _ _ _ s
    all_goals exact .refl s

theorem endJob_endFrame (j : Nat) (result : Result) (parting : Option Frame) (s : State) :
    EndFrame s (endJob j result parting s) := by
  cases hj : s.jobAt j with
  | none =>
    have same : endJob j result parting s = s := by rw [endJob, hj]
    rw [same]
    exact .refl s
  | some job =>
    rw [endJob_eq hj]
    exact (((closeJob_endFrame j s).trans (partWith_endFrame parting _)).trans (settleEntry_endFrame job result _)).trans
      (raise_endFrame _ _)

/-- The frames of a job that ends without a parting frame leave the queue (R78). -/
theorem endJob_queue (result : Result) (hj : s.jobAt j = some job) :
    (endJob j result none s).lif.queue = s.lif.queue.filterMap (TxFrame.afterEnd j) := by
  obtain ⟨cat, med, hou, notes, seen, events, lost, settled⟩ := settleEntry_frame job result (closeJob j s)
  rw [endJob_eq hj, raise_lif, partWith_none, settled]
  exact closeJob_queue hj

theorem endJob_jobAt (result : Result) (parting : Option Frame) (rising : smapRising s.jt.jobs = true)
    (hj : s.jobAt j = some job) (k : Nat) :
    (endJob j result parting s).jobAt k = if k = j then none else s.jobAt k := by
  obtain ⟨v, x, y, z, ended, gone, others, -, -⟩ := endJob_spec result parting rising hj
  rw [ended, jobAt_raise]
  split
  next h => rw [h, gone]
  next h => exact others k h

/-- The end of a job changes the job records as `smapDel` does. -/
theorem endJob_jobs (result : Result) (parting : Option Frame) (hj : s.jobAt j = some job) :
    (endJob j result parting s).jt.jobs = smapDel s.jt.jobs j := by
  obtain ⟨queue, plain, parted⟩ := partWith_frame parting (closeJob j s)
  obtain ⟨cat, med, hou, notes, seen, events, lost, settled⟩ := settleEntry_frame job result (partWith parting (closeJob j s))
  rw [endJob_eq hj, raise_jt, settled, parted]
  exact closeJob_jobs j

/-! ### LINK_MUTE -/

/-- What stands when link jobs end one after another (R86). -/
theorem endLinkJobs_endFrame (l : List (Nat × Job)) (s : State) :
    EndFrame s (endLinkJobs l s) ∧ (s.lif.queue = [] → (endLinkJobs l s).lif.queue = []) := by
  induction l generalizing s with
  | nil => exact ⟨.refl s, fun h => h⟩
  | cons p rest ih =>
    obtain ⟨j, job⟩ := p
    have step : EndFrame s (if job.isLink then endJob j .linkCongested none s else s)
        ∧ (s.lif.queue = [] → (if job.isLink then endJob j .linkCongested none s else s).lif.queue = []) := by
      split
      · refine ⟨endJob_endFrame j _ _ s, fun empty => ?_⟩
        cases hj : s.jobAt j with
        | none => rw [endJob, hj]; exact empty
        | some other => rw [endJob_queue _ hj, empty]; rfl
      · exact ⟨.refl s, fun h => h⟩
    obtain ⟨frame, queue⟩ := ih (if job.isLink then endJob j .linkCongested none s else s)
    exact ⟨step.1.trans frame, fun empty => queue (step.2 empty)⟩

/-- Link jobs end one after another (R86): each of the list, whose records stand, is gone afterwards, and no other. -/
theorem endLinkJobs_jobAt {l : List (Nat × Job)} (rising : smapRising s.jt.jobs = true)
    (records : ∀ p ∈ l, s.jobAt p.1 = some p.2) (distinct : l.Pairwise fun p q => p.1 < q.1) :
    (∀ p ∈ l, p.2.isLink = true → (endLinkJobs l s).jobAt p.1 = none)
      ∧ ∀ k, (∀ p ∈ l, p.1 = k → p.2.isLink = false) → (endLinkJobs l s).jobAt k = s.jobAt k := by
  induction l generalizing s with
  | nil => exact ⟨fun _ h => absurd h List.not_mem_nil, fun _ _ => rfl⟩
  | cons p rest ih =>
    obtain ⟨j, job⟩ := p
    have hj : s.jobAt j = some job := records (j, job) List.mem_cons_self
    obtain ⟨below, distinct'⟩ := List.pairwise_cons.mp distinct
    have records' : ∀ p ∈ rest, s.jobAt p.1 = some p.2 := fun p hp => records p (List.mem_cons_of_mem _ hp)
    have away : ∀ p ∈ rest, p.1 ≠ j := fun p hp => (below p hp).ne'
    cases link : job.isLink with
    | false =>
      have next : endLinkJobs ((j, job) :: rest) s = endLinkJobs rest s := by
        show endLinkJobs rest (if job.isLink then _ else s) = _
        rw [link]
        rfl
      obtain ⟨gone, stands⟩ := ih rising records' distinct'
      rw [next]
      refine ⟨fun p hp isLink => ?_, fun k hk => stands k fun p hp => hk p (List.mem_cons_of_mem _ hp)⟩
      rcases List.mem_cons.mp hp with rfl | hp
      · rw [link] at isLink
        cases isLink
      · exact gone p hp isLink
    | true =>
      let u : State := endJob j .linkCongested none s
      have next : endLinkJobs ((j, job) :: rest) s = endLinkJobs rest u := by
        show endLinkJobs rest (if job.isLink then _ else s) = _
        rw [link]
        rfl
      have jobAt (k : Nat) : u.jobAt k = if k = j then none else s.jobAt k := endJob_jobAt _ _ rising hj k
      have risingU : smapRising u.jt.jobs = true := by
        rw [show u.jt.jobs = smapDel s.jt.jobs j from endJob_jobs _ _ hj]
        exact smapRising_smapDel j rising
      obtain ⟨gone, stands⟩ := ih (s := u) risingU
        (fun p hp => by rw [jobAt, if_neg (away p hp)]; exact records' p hp) distinct'
      rw [next]
      refine ⟨fun p hp isLink => ?_, fun k hk => ?_⟩
      · rcases List.mem_cons.mp hp with rfl | hp
        · rw [stands j fun p hp same => absurd same (away p hp), jobAt, if_pos rfl]
        · exact gone p hp isLink
      · have other : k ≠ j := by
          rintro rfl
          rw [hk _ List.mem_cons_self rfl] at link
          cases link
        rw [stands k fun p hp => hk p (List.mem_cons_of_mem _ hp), jobAt, if_neg other]

theorem txEmpty_eq (s : State) : ∃ sending plain,
    txEmpty s = { s with lif.queue := [], lif.sending := sending, hou.plain := plain } := by
  unfold txEmpty orphanFront
  split
  · exact ⟨_, _, rfl⟩
  · exact ⟨_, _, rfl⟩

/-- LINK_MUTE before the burst and the jobs end: nothing waits to be sent (R86, R148). -/
def State.quieted (cause : MuteCause) (s : State) : State :=
  removeAnswers (fun _ => true) (txEmpty { s with lif.mute := some cause, cat.notices := [], notes := [] })

theorem quieted_eq (cause : MuteCause) (s : State) : ∃ sending answers plain,
    s.quieted cause = { s with lif.mute := some cause, lif.queue := [], lif.sending := sending, hou.answers := answers,
                               hou.plain := plain, cat.notices := [], notes := [] }
      ∧ ∀ r ∈ answers, r.doomed = true := by
  have doomed : ∀ r ∈ (s.quieted cause).hou.answers, r.doomed = true := fun r hr => doomed_of_mem_removeAnswers hr
  obtain ⟨sending, plain, emptied⟩ := txEmpty_eq { s with lif.mute := some cause, cat.notices := [], notes := [] }
  refine ⟨sending, (s.quieted cause).hou.answers, plain, ?_, doomed⟩
  unfold State.quieted
  rw [emptied]
  rfl

/-- LINK_MUTE as its jobs begin to end (R80, R86): what is on the medium is the last of its burst. -/
def State.muting (cause : MuteCause) (s : State) : State :=
  if (s.quieted cause).lif.sending.isSome then { s.quieted cause with lif.endBurst := true } else endBurst (s.quieted cause)

/-- LINK_MUTE when every link job has ended (R86). -/
def State.mutedEnd (cause : MuteCause) (s : State) : State := endLinkJobs (s.muting cause).jt.jobs (s.muting cause)

theorem enterMute_eq (cause : MuteCause) (s : State) : enterMute cause s = raise (.linkMute cause) (s.mutedEnd cause) := rfl

theorem muting_eq (cause : MuteCause) (s : State) : ∃ sending burst gap endBurst answers plain,
    s.muting cause = { s with lif.mute := some cause, lif.queue := [], lif.sending := sending, lif.burst := burst,
                              lif.gap := gap, lif.endBurst := endBurst, hou.answers := answers, hou.plain := plain,
                              cat.notices := [], notes := [] }
      ∧ ∀ r ∈ answers, r.doomed = true := by
  obtain ⟨sending, answers, plain, quiet, doomed⟩ := quieted_eq cause s
  unfold State.muting
  rw [quiet]
  split
  · exact ⟨_, _, _, _, _, _, rfl, doomed⟩
  · refine ⟨_, _, _, _, answers.map HoldRec.unrelease, _, rfl, fun r hr => ?_⟩
    obtain ⟨r₀, mem, rfl⟩ := List.mem_map.mp hr
    have flag : r₀.doomed = true := doomed r₀ mem
    unfold HoldRec.unrelease
    split
    · exact flag
    · exact flag

/-- LINK_MUTE (R86): what the node is left with, beyond its job records. -/
theorem mutedEnd_spec (cause : MuteCause) (s : State) :
    (s.mutedEnd cause).clock = s.clock ∧ (s.mutedEnd cause).sul = s.sul ∧ (s.mutedEnd cause).cat.counter = s.cat.counter
      ∧ (∃ sending burst gap endBurst, (s.mutedEnd cause).lif = { s.lif with
          mute := some cause, queue := [], sending := sending, burst := burst, gap := gap, endBurst := endBurst })
      ∧ (s.mutedEnd cause).cat.notices = [] ∧ (s.mutedEnd cause).notes = []
      ∧ (∀ r ∈ (s.mutedEnd cause).hou.answers, r.doomed = true)
      ∧ (s.jt.jobs = [] → (s.mutedEnd cause).cpe = s.cpe) := by
  obtain ⟨sending, burst, gap, endBurst, answers, plain, muting, doomed⟩ := muting_eq cause s
  have jobs : (s.muting cause).jt.jobs = s.jt.jobs := by rw [muting]
  have noNotes : (s.muting cause).notes = [] := by rw [muting]
  obtain ⟨frame, emptied⟩ := endLinkJobs_endFrame (s.muting cause).jt.jobs (s.muting cause)
  have queue : (s.mutedEnd cause).lif.queue = [] := emptied (by rw [muting])
  have lif : (s.mutedEnd cause).lif = { (s.muting cause).lif with
      queue := (s.mutedEnd cause).lif.queue, sending := (s.mutedEnd cause).lif.sending } := frame.lif
  rw [queue, muting] at lif
  refine ⟨?_, ?_, ?_, ⟨_, _, _, _, lif⟩, ?_,
    List.eq_nil_of_subset_nil (noNotes ▸ frame.notes), fun r hr => ?_, fun none => ?_⟩
  · exact frame.clock.trans (by rw [muting])
  · exact frame.sul.trans (by rw [muting])
  · exact frame.counter.trans (by rw [muting])
  · exact frame.notices.trans (by rw [muting])
  · obtain ⟨r₀, mem, from₀⟩ := frame.answers r hr
    rw [muting] at mem
    rcases from₀ with rfl | rfl
    · exact doomed _ mem
    · rfl
  · rw [State.mutedEnd, jobs, none]
    show (s.muting cause).cpe = s.cpe
    rw [muting]

/-- Every link job, and no other, has ended (R86). -/
theorem mutedEnd_jobAt (cause : MuteCause) (rising : smapRising s.jt.jobs = true) :
    (∀ p ∈ s.jt.jobs, p.2.isLink = true → (s.mutedEnd cause).jobAt p.1 = none)
      ∧ ∀ k, (∀ p ∈ s.jt.jobs, p.1 = k → p.2.isLink = false) → (s.mutedEnd cause).jobAt k = s.jobAt k := by
  obtain ⟨sending, burst, gap, endBurst, answers, plain, muting, -⟩ := muting_eq cause s
  have jobs : (s.muting cause).jt.jobs = s.jt.jobs := by rw [muting]
  have jobAt (k : Nat) : (s.muting cause).jobAt k = s.jobAt k := by rw [State.jobAt, State.jobAt, jobs]
  obtain ⟨gone, stands⟩ := endLinkJobs_jobAt (s := s.muting cause) (l := s.jt.jobs) (by rw [jobs]; exact rising)
    (fun p hp => by rw [jobAt]; exact smapGet_of_mem rising hp) ((smapRising_iff _).mp rising)
  rw [State.mutedEnd, jobs]
  exact ⟨gone, fun k hk => (stands k hk).trans (jobAt k)⟩

end Ends

/-- Settles O42, from what LIF is left with and what the end of the link jobs leaves. -/
theorem rejectedFramesAndDuplicates : Obligations.RejectedFramesAndDuplicates := by
  intro s
  refine ⟨fun bad => ?_, fun malformed => ?_, fun duplicate muted => ?_, fun duplicate unmuted sound => ?_⟩
  · show execBadFrame s = _
    rw [execBadFrame, bad]
    rfl
  · show execMalformedFrame s = _
    rw [execMalformedFrame, malformed]
    rfl
  · have row : exec .duplicateAddress s
        = .next (if s.muted then clearHeard s else settle (enterMute .duplicateAddress (clearHeard s))) := by
      show execDuplicateAddress s = _
      rw [execDuplicateAddress, duplicate]
      rfl
    rw [row, if_pos muted]
    rfl
  · have row : exec .duplicateAddress s
        = .next (if s.muted then clearHeard s else settle (enterMute .duplicateAddress (clearHeard s))) := by
      show execDuplicateAddress s = _
      rw [execDuplicateAddress, duplicate]
      rfl
    rw [if_neg (by rw [unmuted]; decide)] at row
    rw [enterMute_eq] at row
    have rising : smapRising s.jt.jobs = true := sound.1.1
    let v : State := (clearHeard s).mutedEnd .duplicateAddress
    obtain ⟨clock, sul, counter, ⟨sending, burst, gap, endBurst, lif⟩, notices, notes, doomed, -⟩ :=
      mutedEnd_spec .duplicateAddress (clearHeard s)
    obtain ⟨gone, stands⟩ := mutedEnd_jobAt (s := clearHeard s) .duplicateAddress rising
    have linkless {j : Nat} {job : Job} (hv : v.jobAt j = some job) {p : Nat × Job} (hp : p ∈ s.jt.jobs) (hk : p.1 = j) :
        p.2.isLink = false := by
      cases link : p.2.isLink with
      | false => rfl
      | true =>
        have removed := gone p hp link
        rw [hk, hv] at removed
        cases removed
    refine ⟨_, v, row, rfl, ?_, ?_, ?_, ?_, ?_, ?_, fun j job hj => ?_, fun j job hj notLink => ?_, ?_, ?_⟩
    · rw [raise_lif, lif]
    · rw [raise_lif, lif]
    · rw [raise_notes, notes]
    · rw [raise_cat, notices]
    · rw [raise_hou]
      exact doomed
    · rw [raise_lif, lif]
      rfl
    · rw [jobAt_raise] at hj
      have h₀ : s.jobAt j = some job := (stands j fun p hp hk => linkless hj hp hk).symm.trans hj
      exact ⟨linkless hj (smapGet_some_mem h₀) rfl, h₀⟩
    · rw [jobAt_raise]
      refine (stands j fun p hp hk => ?_).trans hj
      have same : s.jobAt j = some p.2 := hk ▸ smapGet_of_mem rising hp
      rw [hj] at same
      cases same
      exact notLink
    · rw [raise_lif, lif]
      rfl
    · rw [raise_cat, counter]
      rfl

/-! ### The configuration image -/

section Image
variable {s : State}

theorem exec_configImageRead (image : Option (List Byte)) (waiting : s.sul.phase = .image) :
    exec (.configImageRead image) s = .next (readImage image s) := by
  show execConfigImageRead image s = _
  rw [execConfigImageRead, waiting]

/-- A good image (R186, R195): its settings, and the LFSR seeded from the address. -/
theorem readImage_good {b : List Byte} (good : imageGood b = true) : readImage (some b) s
    = { s with sul.cfg := (loadSettings b).1, sul.defaulted := false, sul.clamped := (loadSettings b).2,
               sul.phase := .capacity s.now, lif.lfsr := lfsrSeed (loadSettings b).1.address } := by
  unfold readImage
  dsimp only
  rw [if_pos good]
  rfl

/-- An absent or failing image (R186). -/
theorem readImage_default {image : Option (List Byte)} (bad : ∀ b, image = some b → imageGood b = false) :
    readImage image s = { defaultConfig (if image = none then .absent else .checkFailed) s with
      sul.phase := .capacity (defaultConfig (if image = none then .absent else .checkFailed) s).now } := by
  cases image with
  | none => rfl
  | some b =>
    unfold readImage
    dsimp only
    rw [bad b rfl]
    rfl

/-- The bits of a byte put together from their values (R194). -/
theorem getLsbD_bits (b₀ b₁ b₂ b₃ b₄ b₅ : Bool) :
    let byte : Byte := BitVec.ofNat 8 ((if b₀ then 1 else 0) + (if b₁ then 2 else 0) + (if b₂ then 4 else 0)
      + (if b₃ then 8 else 0) + (if b₄ then 16 else 0) + (if b₅ then 32 else 0))
    byte.getLsbD 0 = b₀ ∧ byte.getLsbD 1 = b₁ ∧ byte.getLsbD 2 = b₂ ∧ byte.getLsbD 3 = b₃ ∧ byte.getLsbD 4 = b₄
      ∧ byte.getLsbD 5 = b₅ ∧ byte.getLsbD 6 = false ∧ byte.getLsbD 7 = false := by
  revert b₀ b₁ b₂ b₃ b₄ b₅
  decide

/-- What settings that stand in for an image leave (R186; log 77). -/
theorem standIn_spec (cfg : Settings) (reason : DefaultReason) (s : State) : ∃ v,
    enterMute .configuration (raise (.configDefaulted reason) (takeSettings cfg true 0 s)) = raise (.linkMute .configuration) v
      ∧ v.clock = s.clock ∧ v.sul = { s.sul with cfg := cfg, defaulted := true, clamped := 0 }
      ∧ v.lif.mute = some .configuration ∧ v.lif.queue = [] ∧ v.lif.lfsr = lfsrSeed cfg.address
      ∧ v.cat.notices = [] ∧ v.notes = []
      ∧ (s.jt.jobs = [] → v.cpe = (raise (.configDefaulted reason) (takeSettings cfg true 0 s)).cpe) := by
  let u : State := raise (.configDefaulted reason) (takeSettings cfg true 0 s)
  have jt : u.jt = s.jt := raise_jt _ _
  have sul : u.sul = { s.sul with cfg := cfg, defaulted := true, clamped := 0 } := raise_sul _ _
  have lif : u.lif = { s.lif with lfsr := lfsrSeed cfg.address } := raise_lif _ _
  have clock : u.clock = s.clock := raise_clock _ _
  obtain ⟨clockV, sulV, -, ⟨sending, burst, gap, endBurst, lifV⟩, notices, notes, -, idle⟩ := mutedEnd_spec .configuration u
  exact ⟨u.mutedEnd .configuration, enterMute_eq _ _, clockV.trans clock, sulV.trans sul, congrArg Lif.mute lifV,
    congrArg Lif.queue lifV, (congrArg Lif.lfsr lifV).trans (congrArg Lif.lfsr lif), notices, notes, fun none => idle (by rw [jt]; exact none)⟩

/-- What an absent or failing image leaves (R186). -/
theorem defaultConfig_spec (reason : DefaultReason) (s : State) : ∃ v,
    defaultConfig reason s = raise (.linkMute .configuration) v
      ∧ v.clock = s.clock ∧ v.sul = { s.sul with cfg := defaultSettings, defaulted := true, clamped := 0 }
      ∧ v.lif.mute = some .configuration ∧ v.lif.queue = [] ∧ v.lif.lfsr = lfsrSeed defaultSettings.address
      ∧ v.cat.notices = [] ∧ v.notes = []
      ∧ (s.jt.jobs = [] → v.cpe = (raise (.configDefaulted reason) (takeSettings defaultSettings true 0 s)).cpe) :=
  standIn_spec defaultSettings reason s

/-- An enabled event joins the queue while fewer than 32 wait (R184). -/
theorem events_raise {e : Event} (enabled : s.sul.cfg.eventMask.getLsbD (e.code - 1) = true)
    (room : s.cpe.events.length < 32) : (raise e s).cpe.events = s.cpe.events ++ [e] := by
  unfold raise
  dsimp only
  rw [enabled, if_neg (by decide), if_pos room]

end Image

/-- Settles O32: the settings' fields, the clamped fields' bits, and what `defaultConfig` leaves. -/
theorem configImageSetsTheSettings : Obligations.ConfigImageSetsTheSettings := by
  intro s waiting
  refine ⟨fun b length check => ?_, fun image bad => ?_⟩
  · have good : imageGood b = true := by
      unfold imageGood
      rw [length, check, beq_self_eq_true, beq_self_eq_true]
      rfl
    have row := exec_configImageRead (some b) waiting
    rw [readImage_good good] at row
    have rate : (fieldAt b 1 1 == 2 || fieldAt b 1 1 == 4 || fieldAt b 1 1 == 8) = true
        ↔ fieldAt b 1 1 = 2 ∨ fieldAt b 1 1 = 4 ∨ fieldAt b 1 1 = 8 := by
      simp [or_assoc]
    obtain ⟨bit₀, bit₁, bit₂, bit₃, bit₄, bit₅, bit₆, bit₇⟩ := getLsbD_bits (decide (31 < fieldAt b 0 1))
      (!(fieldAt b 1 1 == 2 || fieldAt b 1 1 == 4 || fieldAt b 1 1 == 8)) (fieldAt b 2 1 = 0 || 4 < fieldAt b 2 1)
      (fieldAt b 3 1 = 0 || 16 < fieldAt b 3 1) (decide (60000 < fieldAt b 13 2)) (decide (60000 < fieldAt b 15 2))
    refine ⟨_, row, rfl, ?_, ?_, ?_, rfl, rfl, rfl, ?_, rfl, rfl, rfl, ?_, ?_, ?_, ?_, ?_, ?_, bit₆, bit₇, rfl, rfl⟩
    · exact if_congr rate rfl rfl
    · show max 1 (min 4 (fieldAt b 2 1)) = _
      split <;> omega
    · show max 1 (min 16 (fieldAt b 3 1)) = _
      split <;> omega
    · show decide (fieldAt b 17 1 ≠ 0) = true ↔ _
      exact decide_eq_true_iff
    · exact (iff_of_eq (congrArg (· = true) bit₀)).trans decide_eq_true_iff
    · refine (iff_of_eq (congrArg (· = true) bit₁)).trans ?_
      rw [Bool.not_eq_true', ← Bool.not_eq_true, rate, not_or, not_or]
    · exact (iff_of_eq (congrArg (· = true) bit₂)).trans (by simp)
    · exact (iff_of_eq (congrArg (· = true) bit₃)).trans (by simp)
    · exact (iff_of_eq (congrArg (· = true) bit₄)).trans decide_eq_true_iff
    · exact (iff_of_eq (congrArg (· = true) bit₅)).trans decide_eq_true_iff
  · have bad' : ∀ b, image = some b → imageGood b = false := by
      intro b hb
      unfold imageGood
      rcases bad b hb with length | check
      · rw [beq_false_of_ne length]
        rfl
      · rw [beq_false_of_ne check]
        exact Bool.and_false _
    obtain ⟨reason, why⟩ : ∃ reason : DefaultReason, reason = if image = none then .absent else .checkFailed := ⟨_, rfl⟩
    obtain ⟨v, muted, clock, sul, mute, queue, lfsr, notices, notes, idle⟩ := defaultConfig_spec reason s
    have row := exec_configImageRead image waiting
    rw [readImage_default bad'] at row
    have now : (raise (.linkMute .configuration) v).now = s.now := by rw [State.now, raise_clock, clock, State.now]
    have cfg : v.sul.cfg = defaultSettings := by rw [sul]
    rw [← why, muted, now] at row
    refine ⟨_, row, ?_, ?_, ?_, rfl, ?_, ?_, ?_, ?_, fun none empty => ?_⟩
    · show (raise _ v).sul.cfg = _
      rw [raise_sul, cfg]
      rfl
    · show (raise _ v).sul.defaulted = true
      rw [raise_sul, sul]
    · show (raise _ v).lif.mute = _
      rw [raise_lif, mute]
    · show (raise _ v).lif.lfsr = _
      rw [raise_lif, lfsr]
      rfl
    · show (raise _ v).cat.notices = []
      rw [raise_cat, notices]
    · show (raise _ v).notes = []
      rw [raise_notes, notes]
    · show (raise _ v).lif.queue = []
      rw [raise_lif, queue]
    · have first : v.cpe.events = [.configDefaulted reason] := by
        rw [idle none]
        refine (events_raise ?_ ?_).trans ?_
        · show defaultSettings.eventMask.getLsbD ((Event.configDefaulted reason).code - 1) = true
          cases reason with
          | absent => decide
          | checkFailed => decide
        · show s.cpe.events.length < 32
          rw [empty]
          decide
        · show s.cpe.events ++ _ = _
          rw [empty]
          rfl
      show (raise _ v).cpe.events = _
      rw [events_raise (by rw [cfg]; decide) (by rw [first]; exact Nat.one_lt_ofNat), first, why]
      rfl

end Sys2Proof.Machine

/-! ## Proofs: a job's record changing in place, frames sent and frames cut

SUPPORT. The operations on a job's record, one equation each on a state whose record is known; what a report makes of its job. -/

namespace Sys2Proof.Machine

/-! ### A job's record -/

section Records
variable {s : State} {j k : Nat} {job : Job}

theorem jobAt_putJob_self (j : Nat) (job : Job) (s : State) : (putJob j job s).jobAt j = some job := smapGet_smapSet_self ..

theorem jobAt_putJob_ne (job : Job) (s : State) (h : k ≠ j) : (putJob j job s).jobAt k = s.jobAt k := smapGet_smapSet_ne _ _ h

theorem putJob_putJob (j : Nat) (a b : Job) (s : State) : putJob j b (putJob j a s) = putJob j b s := by
  unfold putJob
  dsimp only
  rw [smapSet_smapSet]

theorem modJob_put (f : Job → Job) (hj : s.jobAt j = some job) : modJob j f s = putJob j (f job) s := modJob_eq f hj

theorem modJob_putJob (j : Nat) (f : Job → Job) (job : Job) (s : State) : modJob j f (putJob j job s) = putJob j (f job) s := by
  rw [modJob_put f (jobAt_putJob_self j job s), putJob_putJob]

theorem modPlay_put {p : PlayJob} (f : PlayJob → PlayJob) (hj : s.jobAt j = some job) (hb : job.body = .play p) :
    modPlay j f s = putJob j { job with body := .play (f p) } s := by
  rw [modPlay, modJob_put _ hj, hb]

theorem modRepair_put {r : RepairJob} (f : RepairJob → RepairJob) (hj : s.jobAt j = some job) (hb : job.body = .repair r) :
    modRepair j f s = putJob j { job with body := .repair (f r) } s := by
  rw [modRepair, modJob_put _ hj, hb]

theorem modReplicate_put {r : ReplicateJob} (f : ReplicateJob → ReplicateJob) (hj : s.jobAt j = some job)
    (hb : job.body = .replicate r) : modReplicate j f s = putJob j { job with body := .replicate (f r) } s := by
  rw [modReplicate, modJob_put _ hj, hb]

theorem modReceive_put {r : ReceiveJob} (f : ReceiveJob → ReceiveJob) (hj : s.jobAt j = some job)
    (hb : job.body = .receive r) : modReceive j f s = putJob j { job with body := .receive (f r) } s := by
  rw [modReceive, modJob_put _ hj, hb]

theorem modSnd_put {t : Sender} (f : Sender → Sender) (hj : s.jobAt j = some job) (hs : job.snd = some t) :
    modSnd j f s = putJob j { job with snd := some (f t) } s := by
  rw [modSnd, modJob_put _ hj, hs]
  rfl

theorem modRcv_put {v : Receiver} (f : Receiver → Receiver) (hj : s.jobAt j = some job) (hr : job.rcv = some v) :
    modRcv j f s = putJob j { job with rcv := some (f v) } s := by
  rw [modRcv, modJob_put _ hj, hr]
  rfl

/-- A PLAY job's transfer ends early past its head block (R156). -/
theorem pendPlay_put {p : PlayJob} (result : Result) (hj : s.jobAt j = some job) (hb : job.body = .play p) :
    pendPlay j result s = putJob j { job with
      rcv := none, outbox := job.outbox.filter (fun f => !f.payload.isStep),
      body := .play { p with state := .draining, pendingResult := some (p.pendingResult.getD result) } } s := by
  let job₁ : Job := { job with rcv := none, outbox := job.outbox.filter (fun f => !f.payload.isStep) }
  have dropped : dropWaitingStep j (modJob j (fun job => { job with rcv := none }) s) = putJob j job₁ s := by
    rw [dropWaitingStep, modJob_put _ hj, modJob_putJob]
  rw [pendPlay, dropped, modPlay_put (job := job₁) (p := p) _ (jobAt_putJob_self ..) hb, putJob_putJob]

/-- A REPAIR job's transfer ends early (R167): the job finishes its writes. -/
theorem stopRepair_put {r : RepairJob} (result : Result) (hj : s.jobAt j = some job) (hb : job.body = .repair r) :
    stopRepair j result s = finishRepair j (putJob j { job with
      rcv := none, outbox := job.outbox.filter (fun f => !f.payload.isStep),
      body := .repair { r with state := .finishing, recorded := some (r.recorded.getD result) } } s) := by
  rw [stopRepair, dropWaitingStep, modRepair_put (r := r) _ hj hb, modJob_putJob, modJob_putJob]

/-- FINISHING with writes left (R167). -/
theorem finishRepair_waits {r : RepairJob} (hj : s.jobAt j = some job) (hb : job.body = .repair r)
    (left : s.outstanding j job ≠ 0) : finishRepair j s = s := by
  unfold finishRepair Job.repairOf
  rw [hj]
  dsimp only
  rw [hb]
  exact if_neg fun h => left h.2

/-- FINISHING with no write left ends the job (R167). -/
theorem finishRepair_ends {r : RepairJob} {result : Result} (hj : s.jobAt j = some job) (hb : job.body = .repair r)
    (finishing : r.state = .finishing) (outcome : r.recorded.getD .ok = result) (none : s.outstanding j job = 0) :
    finishRepair j s = endJob j result Option.none s := by
  subst outcome
  unfold finishRepair Job.repairOf
  rw [hj]
  dsimp only
  rw [hb]
  exact if_pos ⟨finishing, none⟩

/-! ### More of a job's end -/

theorem settleEntry_med (job : Job) (result : Result) (s : State) : ∃ chunks mapList free,
    (settleEntry job result s).med = { s.med with chunks := chunks, mapList := mapList, free := free } := by
  have same : ∃ chunks mapList free, s.med = { s.med with chunks := chunks, mapList := mapList, free := free } :=
    ⟨_, _, _, rfl⟩
  unfold settleEntry
  split
  · exact same
  · rename_i i _
    split
    · split
      · exact same
      · obtain ⟨cat, chunks, mapList, free, hou, notes, freed⟩ := freeEntry_frame i s
        rw [freed]
        exact ⟨_, _, _, rfl⟩
    · obtain ⟨cat, seen, events, lost, settled⟩ := settlePlacement_frame i s
      rw [settled]
      exact same
    · unfold holdRepair
      split
      · split
        · obtain ⟨entries, changed⟩ := modEntry_frame i (fun e => { e with repairHold := some (s.now + 60000) }) s
          rw [changed]
          exact same
        · exact same
      · exact same
    all_goals exact same

/-- The pledge of a job that ends is given back (R34). -/
theorem endJob_pledged (result : Result) (parting : Option Frame) (hj : s.jobAt j = some job) :
    (endJob j result parting s).med.pledged = s.med.pledged - job.pledge := by
  obtain ⟨chunks, mapList, free, settled⟩ := settleEntry_med job result (partWith parting (closeJob j s))
  obtain ⟨queue, plain, parted⟩ := partWith_frame parting (closeJob j s)
  obtain ⟨sending, hou, issued, closed⟩ := closeJob_eq hj
  rw [endJob_eq hj, raise_med, settled, parted, closed]

/-- JOB_DONE of a job that counts nothing (R194). -/
theorem endJob_receive {v : ReceiveJob} (result : Result) (parting : Option Frame) (hj : s.jobAt j = some job)
    (hb : job.body = .receive v) : ∃ w, endJob j result parting s = raise (.doneJob job.tag .receive result job.take 0 0 0) w := by
  rw [endJob_eq hj, State.doneItems, Job.kind, hb]
  exact ⟨_, rfl⟩

theorem putJob_jobs_rising (job : Job) (h : smapRising s.jt.jobs = true) : smapRising (putJob j job s).jt.jobs = true :=
  smapRising_smapSet _ _ h

end Records

/-! ### HOU's records that change without changing what they stand for -/

section Tidy

/-- A change of hold-off records in their slots, their progress and their phase alone. -/
def Tidy (g : HoldRec → HoldRec) : Prop :=
  ∀ r, ∃ slots progress phase, g r = { r with slots := slots, progress := progress, phase := phase }

theorem Counts.tidy {g : HoldRec → HoldRec} (h : Counts g) : Tidy g := fun r => by
  obtain ⟨slots, progress, eq⟩ := h r
  exact ⟨slots, progress, r.phase, eq⟩

theorem tidy_unrelease : Tidy HoldRec.unrelease := by
  rintro ⟨frame, owner, opener, base, collisions, slots, offset, phase, progress, order, bids, expiry, doomed⟩
  cases phase with
  | slot => exact ⟨_, _, _, rfl⟩
  | offset => exact ⟨_, _, _, rfl⟩
  | released => exact ⟨_, _, _, rfl⟩

theorem tidy_id : Tidy id := fun _ => ⟨_, _, _, rfl⟩

theorem Tidy.comp {f g : HoldRec → HoldRec} (hf : Tidy f) (hg : Tidy g) : Tidy (f ∘ g) := fun r => by
  obtain ⟨slots, progress, phase, eq⟩ := hg r
  obtain ⟨slots', progress', phase', eq'⟩ := hf (g r)
  refine ⟨slots', progress', phase', ?_⟩
  rw [Function.comp_apply, eq', eq]

theorem Tidy.order {g : HoldRec → HoldRec} (h : Tidy g) (r : HoldRec) : (g r).order = r.order := by
  obtain ⟨slots, progress, phase, eq⟩ := h r
  rw [eq]

/-- The record of an order, in a list whose records change and keep their orders. -/
theorem find_order_map_eq {g : HoldRec → HoldRec} (same : ∀ r, (g r).order = r.order) (l : List HoldRec) (o : Nat) :
    (l.map g).find? (fun r => r.order == o) = (l.find? (fun r => r.order == o)).map g := by
  rw [List.find?_map, show (fun r => r.order == o) ∘ g = fun r => r.order == o from funext fun r => by simp [same]]

end Tidy

section Medium
variable {s : State} {j : Nat} {job : Job} {x : Sending}

/-- The end of a burst (R80, R101). -/
theorem endBurst_eq (s : State) : endBurst s
    = { s with lif.burst := 0, lif.gap := false, lif.endBurst := false, hou := s.hou.mapAll HoldRec.unrelease } := rfl

/-- LIF when a frame has ended (R80, R88). -/
theorem afterFrame_eq (s : State) : ∃ burst gap endBurst g, Tidy g
    ∧ afterFrame s = { s with lif.burst := burst, lif.gap := gap, lif.endBurst := endBurst, hou := s.hou.mapAll g }
    ∧ (gap = true ↔ s.lif.endBurst = false ∧ s.lif.carrier = false) := by
  unfold afterFrame
  split
  next h =>
    refine ⟨_, _, _, _, tidy_unrelease, endBurst_eq s, iff_of_false (by decide) ?_⟩
    rintro ⟨e, c⟩
    rw [e, c] at h
    cases h
  next h =>
    have open_ : s.lif.endBurst = false ∧ s.lif.carrier = false := by simpa using h
    refine ⟨s.lif.burst, true, s.lif.endBurst, id, tidy_id, ?_, iff_of_true rfl open_⟩
    rw [Hou.mapAll_id]

/-- The front of the queue is gone (R78, R102). -/
theorem txPop_eq (s : State) : ∃ plain, txPop s = { s with lif.queue := s.lif.queue.tail, hou.plain := plain } := ⟨_, rfl⟩

/-- An answer that is dropped is not found again. -/
theorem answerRecord_dropAnswer (o : Nat) (s : State) : (dropAnswer o s).answerRecord o = none := by
  rw [State.answerRecord, List.find?_eq_none]
  intro r hr
  have ne : r.order ≠ o := by simpa using List.of_mem_filter hr
  simpa using ne

theorem order_of_answerRecord {o : Nat} {r : HoldRec} (h : s.answerRecord o = some r) : r.order = o := by
  simpa using List.find?_some h

/-- DROPPED ends the job LINK_CONGESTED (R82), but for a STEP of a transfer that R156 and R167 let end early (log 26). -/
theorem reportDropped_ends {f : Frame} (hj : s.jobAt j = some job)
    (ends : f.payload.isStep = false ∨ (∀ p, job.body ≠ .play p) ∧ (∀ v, job.body ≠ .repair v)
      ∨ (∃ p, job.body = .play p ∧ (p.shape = none ∨ p.state ≠ .playing ∧ p.state ≠ .draining))
      ∨ (∃ v, job.body = .repair v ∧ v.state ≠ .receiving ∧ v.state ≠ .finishing)) :
    reportDropped j f s = endJob j .linkCongested none s := by
  unfold reportDropped
  rw [hj, Option.map_some]
  cases step : f.payload.isStep with
  | false => split <;> first | contradiction | rfl
  | true =>
    rw [step] at ends
    rcases ends with h | ⟨noPlay, noRepair⟩ | ⟨p, hb, early⟩ | ⟨v, hb, early⟩
    · cases h
    · cases hb : job.body with
      | play p => exact absurd hb (noPlay p)
      | repair v => exact absurd hb (noRepair v)
      | capture c => rfl
      | replicate r => rfl
      | receive r => rfl
      | serve v => rfl
    · rw [hb]
      refine if_neg fun h => ?_
      rw [Bool.and_eq_true, PlayJob.headAccepted, Bool.or_eq_true, beq_iff_eq, beq_iff_eq] at h
      obtain ⟨known, going⟩ := h
      rcases early with none | ⟨notPlaying, notDraining⟩
      · rw [none] at known
        cases known
      · exact going.elim notPlaying notDraining
    · rw [hb]
      exact if_neg fun h => h.elim early.1 early.2

theorem reportDropped_play {f : Frame} {p : PlayJob} {t : TakeShape} (hj : s.jobAt j = some job) (hb : job.body = .play p)
    (step : f.payload.isStep = true) (known : p.shape = some t) (going : p.state = .playing ∨ p.state = .draining) :
    reportDropped j f s = pendPlay j .linkCongested s := by
  unfold reportDropped
  rw [hj, Option.map_some, hb, step]
  refine if_pos ?_
  rw [PlayJob.headAccepted, known, Bool.and_eq_true, Bool.or_eq_true, beq_iff_eq, beq_iff_eq]
  exact ⟨rfl, going⟩

theorem reportDropped_repair {f : Frame} {v : RepairJob} (hj : s.jobAt j = some job) (hb : job.body = .repair v)
    (step : f.payload.isStep = true) (going : v.state = .receiving ∨ v.state = .finishing) :
    reportDropped j f s = stopRepair j .linkCongested s := by
  unfold reportDropped
  rw [hj, Option.map_some, hb, step]
  exact if_pos going

/-- The node as a collision leaves it, before the frame that was cut is looked at (R81). -/
def State.cut (s : State) : State := endBurst (stopSending { s with lif.collisions := satAdd 65535 s.lif.collisions 1 })

theorem order_collided {o extra : Nat} (r : HoldRec) : (if r.order = o then r.collided extra else r).order = r.order := by
  split
  · rfl
  · rfl

theorem exec_collision (hx : s.lif.sending = some x) : exec .collision s = .next (settle (frameCut x s.cut)) := by
  show execCollision s = _
  rw [execCollision, hx]
  rfl

theorem cut_eq (s : State) : ∃ medium, s.cut = { s with
    lif.collisions := min 65535 (s.lif.collisions + 1), lif.sending := none, lif.sentBits := 0, lif.absent := 0,
    lif.medium := medium, lif.burst := 0, lif.gap := false, lif.endBurst := false,
    hou := s.hou.mapAll HoldRec.unrelease } := ⟨_, rfl⟩

theorem answerRecord_cut {o : Nat} {r : HoldRec} (h : s.answerRecord o = some r) :
    s.cut.answerRecord o = some r.unrelease := by
  show (s.hou.answers.map HoldRec.unrelease).find? _ = _
  rw [find_order_map_eq tidy_unrelease.order, show s.hou.answers.find? (fun r => r.order == o) = some r from h]
  rfl

theorem frameCut_answer {o : Nat} {r : HoldRec} (source : x.source = .answer o) (h : s.answerRecord o = some r) :
    frameCut x s.cut = answerCollided r.unrelease x.frame s.cut := by
  rw [frameCut, source]
  dsimp only
  rw [answerRecord_cut h]

theorem frameCut_front {r : HoldRec} (source : x.source = .front) (h : s.hou.plain = some r) :
    frameCut x s.cut = frontCollided r.unrelease x.frame s.cut := by
  have plain : s.cut.hou.plain = some r.unrelease := by
    show s.hou.plain.map HoldRec.unrelease = _
    rw [h]
    rfl
  rw [frameCut, source]
  dsimp only
  rw [plain]

theorem frontOwner_cut {y : TxFrame} {rest : List TxFrame} (h : s.lif.queue = y :: rest) : s.cut.frontOwner = y.owner := by
  show s.lif.queue.head?.bind TxFrame.owner = _
  rw [h]
  rfl

end Medium

/-- Settles O41: the branches of `answerCollided`, `frontCollided` and `reportDropped`. -/
theorem collisionWaitsAgain : Obligations.CollisionWaitsAgain := by
  intro s x sending
  have row := exec_collision sending
  obtain ⟨medium, cut⟩ := cut_eq s
  refine ⟨fun o r source record live => ?_, fun r y rest source plain queue => ?_⟩
  · have order := order_of_answerRecord record
    obtain ⟨slots, progress, phase, tidied⟩ := tidy_unrelease r
    have collided := frameCut_answer (x := x) source record
    rw [collided] at row
    refine ⟨fun below => ?_, fun eighth owner => ?_, fun j job v eighth owner sound hj hb => ?_⟩
    · let extra := lfsrDraws (r.collisions + 1) s.lif.lfsr
      have again : answerCollided r.unrelease x.frame s.cut = { s.cut with
          lif.lfsr := extra.2,
          hou.answers := s.cut.hou.answers.map fun x => if x.order = r.order then x.collided extra.1 else x } := by
        rw [tidied]
        unfold answerCollided
        rw [if_neg (by rw [live]; decide), if_neg (by show ¬ 7 ≤ r.collisions; omega)]
        rfl
      rw [again] at row
      refine ⟨_, row, ?_, ?_, ?_, ?_, rfl, ⟨r.unrelease.collided extra.1, ?_, ?_, rfl, rfl, ?_, ?_, ?_, ?_⟩, ?_, ?_, ?_⟩
      · rw [cut]
      · rw [cut]
      · rw [cut]
      · rw [cut]
      · show (s.cut.hou.answers.map _).find? _ = _
        rw [find_order_map_eq order_collided,
          show s.cut.hou.answers.find? (fun r => r.order == o) = some r.unrelease from answerRecord_cut record]
        exact congrArg some (if_pos (tidy_unrelease.order r))
      · rw [tidied]
        rfl
      · rw [tidied]
        rfl
      · rw [tidied]
        rfl
      · rw [tidied]
        rfl
      · rw [tidied]
        rfl
      · rw [cut]
      · rw [cut]
      · rw [cut]
    · have gone : answerCollided r.unrelease x.frame s.cut = dropAnswer o s.cut := by
        rw [tidied]
        unfold answerCollided
        rw [if_neg (by rw [live]; decide), if_pos eighth, owner, order]
        rfl
      have none := answerRecord_dropAnswer o s.cut
      rw [gone] at row
      refine ⟨_, row, ?_, ?_, none, ?_, ?_, ?_⟩
      · rw [cut]; rfl
      · rw [cut]; rfl
      · rw [cut]; rfl
      · rw [cut]; rfl
      · rw [cut]; rfl
    · have job' : (dropAnswer o s.cut).jobAt j = some job := by rw [cut]; exact hj
      have rising : smapRising (dropAnswer o s.cut).jt.jobs = true := by rw [cut]; exact sound.1.1
      have dropped : answerCollided r.unrelease x.frame s.cut = endJob j .linkCongested none (dropAnswer o s.cut) := by
        rw [tidied]
        unfold answerCollided
        rw [if_neg (by rw [live]; decide), if_pos eighth, owner, order]
        exact reportDropped_ends job'
          (.inr (.inl ⟨fun p h => (by rw [hb] at h; cases h), fun v h => (by rw [hb] at h; cases h)⟩))
      rw [dropped] at row
      have jobAt := endJob_jobAt .linkCongested none rising job'
      have frame := endJob_endFrame j .linkCongested none (dropAnswer o s.cut)
      have pledge : job.pledge = v.pledge := by rw [Job.pledge, hb]
      obtain ⟨w, ended⟩ := endJob_receive .linkCongested none job' hb
      refine ⟨_, w, row, ?_, fun k hk => ?_, ?_, frame.answerRecord (answerRecord_dropAnswer o s.cut), ?_, ?_, ended⟩
      · rw [jobAt, if_pos rfl]
      · rw [jobAt, if_neg hk, cut]
        rfl
      · rw [frame.lif, cut]
        rfl
      · rw [frame.lif, cut]
        rfl
      · rw [endJob_pledged _ _ job', pledge, cut]
        rfl
  · obtain ⟨slots, progress, phase, tidied⟩ := tidy_unrelease r
    have collided := frameCut_front (x := x) source plain
    rw [collided] at row
    have queueCut : s.cut.lif.queue = y :: rest := by rw [cut]; exact queue
    obtain ⟨plain', popped⟩ := txPop_eq s.cut
    rw [queueCut] at popped
    have eighthOf (eighth : 7 ≤ r.collisions) :
        frontCollided r.unrelease x.frame s.cut
        = reportTo y.owner (fun j s => reportDropped j x.frame s) (txPop s.cut) := by
      rw [tidied]
      unfold frontCollided
      rw [if_pos eighth, frontOwner_cut queue]
    refine ⟨fun below => ?_, fun eighth owner => ?_, fun j job eighth owner sound hj => ?_⟩
    · let extra := lfsrDraws (r.collisions + 1) s.lif.lfsr
      have again : frontCollided r.unrelease x.frame s.cut
          = { s.cut with lif.lfsr := extra.2, hou.plain := some (r.unrelease.collided extra.1) } := by
        rw [tidied]
        unfold frontCollided
        rw [if_neg (by show ¬ 7 ≤ r.collisions; omega)]
        rfl
      rw [again] at row
      refine ⟨_, _, row, ?_, ?_, ?_, rfl, ?_, rfl, ?_⟩
      · rw [cut]
      · rw [cut]
      · rw [cut]
      · rw [tidied]; rfl
      · rw [tidied]; rfl
    · rw [eighthOf eighth, owner] at row
      refine ⟨_, row, ?_, ?_, ?_⟩
      · show (txPop s.cut).lif.queue = rest
        rw [popped]
        rfl
      · show (txPop s.cut).lif.lastSource = _
        rw [popped, cut]
      · show (txPop s.cut).jt = _
        rw [popped, cut]
    · have reports : frontCollided r.unrelease x.frame s.cut = reportDropped j x.frame (txPop s.cut) := by
        rw [eighthOf eighth, owner]
        rfl
      rw [reports] at row
      have job' : (txPop s.cut).jobAt j = some job := by rw [popped, cut]; exact hj
      have rising : smapRising (txPop s.cut).jt.jobs = true := by rw [popped, cut]; exact sound.1.1
      have outstanding : (txPop s.cut).outstanding j job = s.outstanding j job := by
        rw [popped, cut]
        rfl
      refine ⟨fun ends => ?_, fun p t step hb known going => ?_, fun v step hb going => ⟨fun left => ?_, fun none => ?_⟩⟩
      · rw [reportDropped_ends job' ends] at row
        obtain ⟨v, a, b, c, ended, -, -, -, -⟩ := endJob_spec .linkCongested none rising job'
        have jobAt := endJob_jobAt .linkCongested none rising job'
        have frame := endJob_endFrame j .linkCongested none (txPop s.cut)
        refine ⟨_, v, a, b, c, row, ?_, fun k hk => ?_, ?_, ?_, ?_, ended⟩
        · rw [jobAt, if_pos rfl]
        · rw [jobAt, if_neg hk, popped, cut]
          rfl
        · rw [frame.lif, popped, cut]
        · rw [frame.lif, popped, cut]
        · rw [frame.lif, popped, cut]
      · rw [reportDropped_play job' hb step known going, pendPlay_put .linkCongested job' hb] at row
        refine ⟨_, _, row, ?_, jobAt_putJob_self .., rfl, rfl, ?_⟩
        · rw [putJob_lif, popped]
          rfl
        · rw [putJob_cpe, popped, cut]
      · let job₁ : Job := { job with
          rcv := Option.none, outbox := job.outbox.filter (fun f => !f.payload.isStep),
          body := .repair { v with state := .finishing, recorded := some (v.recorded.getD .linkCongested) } }
        have waits : finishRepair j (putJob j job₁ (txPop s.cut)) = putJob j job₁ (txPop s.cut) :=
          finishRepair_waits (jobAt_putJob_self ..) rfl (fun h => left (outstanding.symm.trans h))
        rw [reportDropped_repair job' hb step going, stopRepair_put .linkCongested job' hb, waits] at row
        refine ⟨_, _, row, ?_, jobAt_putJob_self .., rfl, rfl, rfl⟩
        rw [putJob_lif, popped]
        rfl
      · let job₁ : Job := { job with
          rcv := Option.none, outbox := job.outbox.filter (fun f => !f.payload.isStep),
          body := .repair { v with state := .finishing, recorded := some (v.recorded.getD .linkCongested) } }
        have ends : finishRepair j (putJob j job₁ (txPop s.cut))
            = endJob j (v.recorded.getD .linkCongested) Option.none (putJob j job₁ (txPop s.cut)) :=
          finishRepair_ends (jobAt_putJob_self ..) rfl rfl rfl (outstanding.trans none)
        rw [reportDropped_repair job' hb step going, stopRepair_put .linkCongested job' hb, ends] at row
        have rising₁ := putJob_jobs_rising (j := j) job₁ rising
        obtain ⟨w, a, b, c, ended, -, -, -, -⟩ :=
          endJob_spec (v.recorded.getD .linkCongested) Option.none rising₁ (jobAt_putJob_self j job₁ (txPop s.cut))
        refine ⟨_, w, a, b, c, row, ?_, ended⟩
        rw [endJob_jobAt _ _ rising₁ (jobAt_putJob_self j job₁ (txPop s.cut)), if_pos rfl]

end Sys2Proof.Machine

/-! ## Proofs: the sender, frames sent

SUPPORT. The window of a sender and what it goes on with; FRAME_SENT, BURST_GAP_END and STEP_RECEIVED settled from these. -/

namespace Sys2Proof.Machine

/-! ### The sender's window -/

section Window
variable {s : State} {j : Nat} {job : Job} {t : Sender}

theorem commit_eq (hs : job.snd = some t) : commit job = { job with
    snd := some { t with next := max t.next t.limit },
    reqs := job.reqs ++ (List.range' t.next (t.limit - t.next)).map fun p => .read (t.run.seqAt p) } := by
  rw [commit, hs]
  rfl

/-- The window of members that all allow as much (R125). -/
theorem foldl_min_const {α : Type} {g : α → Nat} {c : Nat} {l : List α} (same : ∀ m ∈ l, g m = c) (some_ : l ≠ []) (a : Nat) :
    l.foldl (fun a m => min a (g m)) a = min a c := by
  induction l generalizing a with
  | nil => exact absurd rfl some_
  | cons m rest ih =>
    rw [List.foldl_cons, same m List.mem_cons_self]
    by_cases hr : rest = []
    · rw [hr]
      rfl
    · rw [ih (fun m hm => same m (List.mem_cons_of_mem _ hm)) hr]
      omega

theorem limit_eq (waits : t.waitedFor ≠ []) :
    t.limit = t.waitedFor.foldl (fun a m => min a (m.expected + m.credit)) t.run.total := by
  unfold Sender.limit
  split
  next h => exact absurd h waits
  next => rfl

/-- Every member has left (R111, R129). -/
theorem advanceSender_stalled {parting : Option Frame} (hj : s.jobAt j = some job) (hs : job.snd = some t)
    (left : ∀ m ∈ t.members, m.status = .left) : advanceSender j parting s = endJob j .stalled parting s := by
  unfold advanceSender
  rw [hj]
  dsimp only
  rw [hs]
  exact if_pos (List.all_eq_true.mpr fun m hm => beq_iff_eq.mpr (left m hm))

theorem not_all_left (going : ∃ m ∈ t.members, m.status ≠ .left) : ¬ (t.members.all fun m => m.status == .left) = true := by
  obtain ⟨m, hm, ne⟩ := going
  intro all
  exact ne (beq_iff_eq.mp (List.all_eq_true.mp all m hm))

/-- After the DONE nothing more is sent (R112). -/
theorem advanceSender_over {parting : Option Frame} (hj : s.jobAt j = some job) (hs : job.snd = some t)
    (going : ∃ m ∈ t.members, m.status ≠ .left) (given : t.doneGiven = true) : advanceSender j parting s = s := by
  unfold advanceSender
  rw [hj]
  dsimp only
  rw [hs]
  exact (if_neg (not_all_left going)).trans (if_pos given)

/-- Every member still SENDING has receipted the run (R111, R136). -/
theorem advanceSender_done {parting : Option Frame} (hj : s.jobAt j = some job) (hs : job.snd = some t)
    (going : ∃ m ∈ t.members, m.status ≠ .left) (open_ : t.doneGiven = false) (none : t.waitedFor = []) :
    advanceSender j parting s = giveDone j s := by
  unfold advanceSender
  rw [hj]
  dsimp only
  rw [hs]
  exact ((if_neg (not_all_left going)).trans (if_neg (by rw [open_]; decide))).trans (if_pos (by rw [none]; rfl))

/-- The window's blocks are committed (R125). -/
theorem advanceSender_commits {parting : Option Frame} (hj : s.jobAt j = some job) (hs : job.snd = some t)
    (open_ : t.doneGiven = false) (waits : t.waitedFor ≠ []) :
    advanceSender j parting s = putJob j (commit job) s := by
  have going : ∃ m ∈ t.members, m.status ≠ .left := by
    obtain ⟨m, hm⟩ := List.exists_mem_of_ne_nil _ waits
    obtain ⟨mem, sending⟩ := List.mem_filter.mp hm
    rw [Bool.and_eq_true, beq_iff_eq] at sending
    exact ⟨m, mem, by rw [sending.1]; decide⟩
  unfold advanceSender
  rw [hj]
  dsimp only
  rw [hs]
  refine (((if_neg (not_all_left going)).trans (if_neg (by rw [open_]; decide))).trans (if_neg ?_)).trans (modJob_put _ hj)
  rw [List.isEmpty_iff]
  exact waits

/-- A frame a job gives (R78): at the end of the queue if the queue takes it at once, otherwise with the job. -/
theorem giveFrame_spec (f : Frame) (hj : s.jobAt j = some job) : ∃ outbox queue plain,
    giveFrame j f s = putJob j { job with outbox := outbox } { s with lif.queue := queue, hou.plain := plain }
      ∧ (job.outbox = [] → s.linkStanding = true → s.lif.queue.length < 16 →
          outbox = [] ∧ queue = s.lif.queue ++ [{ frame := f, owner := some j }]) := by
  by_cases takes : job.outbox = [] ∧ s.txTakes = true
  · obtain ⟨plain, gave⟩ := giveFrame_taken f hj takes.1 takes.2
    exact ⟨[], _, plain, gave, fun _ _ _ => ⟨rfl, rfl⟩⟩
  · obtain ⟨taken, plain, gave⟩ := giveFrame_eq f hj
    exact ⟨_, _, plain, gave, fun empty standing room => absurd ⟨empty, txTakes_iff.mpr ⟨standing, room⟩⟩ takes⟩

/-- The record of a job that gives its DONE (R111, R112, R136). -/
def Job.withDone (t : Sender) (job : Job) : Job :=
  { job with snd := some { t with doneGiven := true },
             body := match job.body with
                     | .replicate r => .replicate { r with state := .closing }
                     | b => b }

theorem body_withDone_replicate {r : ReplicateJob} (t : Sender) (hb : job.body = .replicate r) :
    (job.withDone t).body = .replicate { r with state := .closing } := by
  rw [Job.withDone, hb]

theorem body_withDone_serve {v : ServeJob} (t : Sender) (hb : job.body = .serve v) : (job.withDone t).body = job.body := by
  rw [Job.withDone, hb]

/-- The DONE of a transfer whose members have receipted the run (R111, R136). -/
theorem giveDone_eq (hj : s.jobAt j = some job) (hs : job.snd = some t) : giveDone j s
    = giveFrame j (s.jobFrame job job.dataTo.1 job.dataTo.2 (.done t.run.total (s.jobCheck job)))
        (putJob j (job.withDone t) s) := by
  unfold giveDone
  rw [hj]
  dsimp only
  rw [hs]
  dsimp only
  rw [modJob_put _ hj]
  rfl

end Window

/-! ### A frame that has been sent -/

section Sent
variable {s v : State} {j : Nat} {job : Job} {x : Sending} {queue : List TxFrame}

/-- The node once the frame on the medium has ended, before its record goes (R76). -/
def State.ended (x : Sending) (s : State) : State :=
  stopSending { passBitTimes (x.frame.bits - s.lif.sentBits) s with
                lif.lastSource := (passBitTimes (x.frame.bits - s.lif.sentBits) s).own }

theorem exec_frameSent (hx : s.lif.sending = some x) :
    exec .frameSent s = .next (settle (afterFrame (frameGone x (s.ended x)))) := by
  show execFrameSent s = _
  rw [execFrameSent, hx]
  rfl

theorem ended_eq (x : Sending) (s : State) : ∃ medium g, Counts g ∧ s.ended x
    = { s with clock := s.clock + (x.frame.bits - s.lif.sentBits) * s.bitUnits, lif.sentBits := 0, lif.absent := 0,
               lif.medium := medium, lif.sending := none, lif.lastSource := s.own, hou := s.hou.mapAll g } := by
  obtain ⟨sentBits, absent, g, counts, passed⟩ := passUnits_eq ((x.frame.bits - s.lif.sentBits) * s.bitUnits) s
  unfold State.ended passBitTimes
  rw [passed]
  exact ⟨_, g, counts, rfl⟩

/-- What stands when the frame's record has gone: the queue left is `queue`. -/
structure Gone (x : Sending) (s v : State) (queue : List TxFrame) : Prop where
  queue : v.lif.queue = queue
  lastSource : v.lif.lastSource = s.own
  sending : v.lif.sending = none
  clock : v.clock = s.clock + (x.frame.bits - s.lif.sentBits) * s.bitUnits
  endBurst : v.lif.endBurst = s.lif.endBurst
  carrier : v.lif.carrier = s.lif.carrier
  jt : v.jt = s.jt
  cat : v.cat = s.cat
  med : v.med = s.med
  cpe : v.cpe = s.cpe
  port : v.port = s.port
  notes : v.notes = s.notes
  sul : v.sul = s.sul

theorem Gone.jobAt (h : Gone x s v queue) (k : Nat) : v.jobAt k = s.jobAt k := by rw [State.jobAt, State.jobAt, h.jt]

/-- FRAME_SENT for the front of the queue (R84, R102). -/
theorem front_sent {y : TxFrame} {rest : List TxFrame} (hx : s.lif.sending = some x) (source : x.source = .front)
    (front : s.lif.queue = y :: rest) : ∃ v, Gone x s v rest
      ∧ exec .frameSent s = .next (settle (afterFrame (reportTo y.owner (fun j s => reportSent j x.frame s) v))) := by
  obtain ⟨medium, g, -, ended⟩ := ended_eq x s
  obtain ⟨plain, popped⟩ := txPop_eq (s.ended x)
  have owner : (s.ended x).frontOwner = y.owner := by
    rw [State.frontOwner, ended]
    show s.lif.queue.head?.bind TxFrame.owner = _
    rw [front]
    rfl
  have gone : frameGone x (s.ended x) = reportTo y.owner (fun j s => reportSent j x.frame s) (txPop (s.ended x)) := by
    rw [frameGone, source, ← owner]
  refine ⟨txPop (s.ended x), ?_, by rw [exec_frameSent hx, gone]⟩
  rw [popped, ended]
  refine ⟨?_, rfl, rfl, rfl, rfl, rfl, rfl, rfl, rfl, rfl, rfl, rfl, rfl⟩
  show s.lif.queue.tail = rest
  rw [front]
  rfl

/-- FRAME_SENT for an answer (R84, R99). -/
theorem answer_sent {o : Nat} {r : HoldRec} (hx : s.lif.sending = some x) (source : x.source = .answer o)
    (record : s.answerRecord o = some r) : ∃ v, Gone x s v s.lif.queue ∧ v.answerRecord o = none
      ∧ exec .frameSent s = .next (settle (afterFrame (reportTo r.reportsTo (fun j s => reportSent j x.frame s) v))) := by
  obtain ⟨medium, g, counts, ended⟩ := ended_eq x s
  obtain ⟨slots, progress, counted⟩ := counts r
  have still : (s.ended x).answerRecord o = some (g r) := by
    rw [ended]
    show (s.hou.answers.map g).find? _ = _
    rw [find_order_map_eq counts.tidy.order, show s.hou.answers.find? (fun r => r.order == o) = some r from record]
    rfl
  have reports : (g r).reportsTo = r.reportsTo := by
    rw [counted]
    rfl
  have gone : frameGone x (s.ended x)
      = reportTo r.reportsTo (fun j s => reportSent j x.frame s) (dropAnswer o (s.ended x)) := by
    rw [frameGone, source]
    dsimp only
    rw [still, ← reports]
    rfl
  have none := answerRecord_dropAnswer o (s.ended x)
  refine ⟨dropAnswer o (s.ended x), ?_, none, by rw [exec_frameSent hx, gone]⟩
  rw [ended]
  exact ⟨rfl, rfl, rfl, rfl, rfl, rfl, rfl, rfl, rfl, rfl, rfl, rfl, rfl⟩

/-- What `afterFrame` leaves (R80, R88). -/
theorem afterFrame_frame (v : State) : (afterFrame v).jt = v.jt ∧ (afterFrame v).cat = v.cat ∧ (afterFrame v).med = v.med
    ∧ (afterFrame v).cpe = v.cpe ∧ (afterFrame v).port = v.port ∧ (afterFrame v).notes = v.notes
    ∧ (afterFrame v).clock = v.clock ∧ (afterFrame v).lif.queue = v.lif.queue
    ∧ (afterFrame v).lif.lastSource = v.lif.lastSource ∧ (afterFrame v).lif.sending = v.lif.sending := by
  obtain ⟨burst, gap, endBurst, g, -, after, -⟩ := afterFrame_eq v
  rw [after]
  exact ⟨rfl, rfl, rfl, rfl, rfl, rfl, rfl, rfl, rfl, rfl⟩

theorem afterFrame_answerRecord {o : Nat} (none : v.answerRecord o = none) : (afterFrame v).answerRecord o = Option.none := by
  obtain ⟨burst, gap, endBurst, g, tidy, after, -⟩ := afterFrame_eq v
  rw [after]
  show (v.hou.answers.map g).find? _ = _
  rw [find_order_map_eq tidy.order, show v.hou.answers.find? (fun r => r.order == o) = Option.none from none]
  rfl

/-- A report that changes its job's record alone. -/
theorem Gone.put (h : Gone x s v queue) (job' : Job) (j : Nat) :
    let u := afterFrame (putJob j job' v)
    u.lif.queue = queue ∧ u.lif.lastSource = s.own ∧ u.jobAt j = some job' ∧ (∀ k, k ≠ j → u.jobAt k = s.jobAt k)
      ∧ u.cat = s.cat ∧ u.med = s.med ∧ u.cpe = s.cpe := by
  obtain ⟨jt, cat, med, cpe, -, -, -, queue', lastSource, -⟩ := afterFrame_frame (putJob j job' v)
  refine ⟨queue'.trans h.queue, lastSource.trans h.lastSource, ?_, fun k hk => ?_, cat.trans h.cat, med.trans h.med,
    cpe.trans h.cpe⟩
  · rw [State.jobAt, jt]
    exact jobAt_putJob_self ..
  · rw [State.jobAt, jt]
    exact (jobAt_putJob_ne job' v hk).trans (h.jobAt k)

theorem now_afterFrame (v : State) : (afterFrame v).now = v.now := by
  obtain ⟨-, -, -, -, -, -, clock, -, -, -⟩ := afterFrame_frame v
  rw [State.now, clock, State.now]

theorem reportSent_seek {f : Frame} (kind : f.payload.kindCode = 1) : reportSent j f s = seekReportedSent j s := by
  unfold reportSent
  cases hp : f.payload with
  | seek => rfl
  | _ => rw [hp] at kind; cases kind

theorem reportSent_done {f : Frame} (kind : f.payload.kindCode = 9) : reportSent j f s = doneReportedSent j s := by
  unfold reportSent
  cases hp : f.payload with
  | done => rfl
  | _ => rw [hp] at kind; cases kind

/-- The DONE of a copy group is SENT (R112): the members still SENDING are waited for. -/
theorem replicateDoneSent_waits {r : ReplicateJob} {t : Sender} (hj : s.jobAt j = some job) (hb : job.body = .replicate r)
    (hs : job.snd = some t) (waits : ∃ m ∈ t.members, m.status = .sending ∨ m.status = .awaiting) :
    replicateDoneSent j s = putJob j { job with
      body := .replicate { r with timer := some (s.now + 250) },
      snd := some { t with members := t.members.map fun m =>
        if m.status = .sending then { m with status := .awaiting, progress := none } else m } } s := by
  let t' : Sender := { t with members := t.members.map fun m =>
    if m.status = .sending then { m with status := .awaiting, progress := none } else m }
  let job₁ : Job := { job with snd := some t' }
  let job₂ : Job := { job₁ with body := .replicate { r with timer := some (s.now + 250) } }
  have first : modSnd j (fun t => { t with members := t.members.map fun m =>
      if m.status = .sending then { m with status := .awaiting, progress := none } else m }) s = putJob j job₁ s :=
    modSnd_put _ hj hs
  have second : modReplicate j (fun r => { r with timer := some (s.now + 250) }) (putJob j job₁ s) = putJob j job₂ s := by
    rw [modReplicate_put (r := r) _ (jobAt_putJob_self j job₁ s) hb, putJob_putJob]
  have some_ : (t'.members.any fun m => m.status == .awaiting) = true := by
    obtain ⟨m, hm, status⟩ := waits
    refine List.any_eq_true.mpr ⟨_, List.mem_map.mpr ⟨m, hm, rfl⟩, ?_⟩
    rcases status with sending | awaiting
    · rw [if_pos sending]
      rfl
    · rw [if_neg (by rw [awaiting]; decide), awaiting]
      rfl
  unfold replicateDoneSent
  rw [first, second]
  unfold endIfAnswered
  rw [jobAt_putJob_self]
  exact if_pos some_

/-- The ASSIGN is SENT (R110, R122): the transfer to the group begins, and the window's first blocks are committed. -/
theorem assignSent_begins {r : ReplicateJob} {i : Nat} {e : Entry} (hj : s.jobAt j = some job) (hb : job.body = .replicate r)
    (hi : job.entry = some i) (he : s.entryAt i = some e) (blocks : 1 ≤ e.storedBlocks) (stays : ∃ m ∈ r.group, m.1 ∉ r.left) :
    ∃ t, assignSent j s = putJob j { job with
        body := .replicate { r with state := .sending, group := [], left := [] }, snd := some t,
        reqs := job.reqs ++ (List.range (min e.storedBlocks 8)).map .read } s
      ∧ t.run = { head := false, first := 0, count := e.storedBlocks } ∧ t.next = min e.storedBlocks 8
      ∧ t.members = r.group.map fun b => newMember s.now b.1 b.2 (if r.left.contains b.1 then .left else .sending) := by
  let members := r.group.map fun b => newMember s.now b.1 b.2 (if r.left.contains b.1 then .left else .sending)
  let t : Sender := newSender (placementRun e.storedBlocks) members
  let job₁ : Job := { job with snd := some t }
  let job₂ : Job := { job₁ with body := .replicate { r with state := .sending, group := [], left := [] } }
  have begins : assignSent j s = advanceSender j none (putJob j job₂ s) := by
    have bound : job.entry.bind s.entryAt = some e := by rw [hi]; exact he
    unfold assignSent Job.replicateOf
    rw [hj]
    dsimp only
    rw [hb, bound]
    dsimp only
    rw [modJob_put _ hj, modReplicate_put (job := job₁) (r := r) _ (jobAt_putJob_self j job₁ s) hb, putJob_putJob]
  have waited (m : Member) (hm : m ∈ t.waitedFor) : m.expected + m.credit = 8 := by
    obtain ⟨b, -, rfl⟩ := List.mem_map.mp (List.mem_of_mem_filter hm)
    rfl
  have waits : t.waitedFor ≠ [] := by
    obtain ⟨b, hb, stays⟩ := stays
    refine List.ne_nil_of_mem (List.mem_filter.mpr ⟨List.mem_map.mpr ⟨b, hb, rfl⟩, ?_⟩)
    have total : (0 == t.run.total) = false := beq_false_of_ne (by show 0 ≠ e.storedBlocks + 0; omega)
    have sending : (if r.left.contains b.1 then MemberStatus.left else .sending) = .sending :=
      if_neg (by rw [List.contains_iff_mem]; exact stays)
    rw [sending]
    show (MemberStatus.sending == .sending && !(0 == t.run.total)) = true
    rw [total]
    rfl
  have limit : t.limit = min e.storedBlocks 8 := (limit_eq waits).trans (foldl_min_const waited waits _)
  rw [begins, advanceSender_commits (t := t) (jobAt_putJob_self ..) rfl rfl waits, putJob_putJob, commit_eq (t := t) rfl, limit]
  refine ⟨{ t with next := max t.next (min e.storedBlocks 8) }, ?_, rfl, Nat.zero_max _, rfl⟩
  have reads : ((List.range' t.next (min e.storedBlocks 8 - t.next)).map fun p => JobReq.read (t.run.seqAt p))
      = (List.range (min e.storedBlocks 8)).map .read := by
    rw [show t.next = 0 from rfl, Nat.sub_zero, ← List.range_eq_range']
    exact List.map_congr_left fun p _ => congrArg JobReq.read (Nat.zero_add p)
  rw [reads]

/-- BURST_GAP_END (R80), with no answer released. -/
theorem exec_burstGapEnd (gap : s.lif.gap = true) (silent : s.lif.sending = none) (noAnswer : s.releasedAnswer = none) :
    ∃ v, exec .burstGapEnd s = .next (if s.lif.burst < s.sul.cfg.burstLimit then
          (match s.lif.queue.head? with
           | some t => startFrame t.frame .front v
           | none => endBurst v)
        else endBurst v)
      ∧ v.clock = s.clock + (12 - s.lif.absent) * s.bitUnits ∧ v.lif.sending = none ∧ v.lif.burst = s.lif.burst
      ∧ v.lif.queue = s.lif.queue := by
  obtain ⟨sentBits, absent, g, counts, passed⟩ := passUnits_eq ((12 - s.lif.absent) * s.bitUnits) s
  have row : exec .burstGapEnd s = .next (continueBurst { passBitTimes (12 - s.lif.absent) s with lif.gap := false }) := by
    show execBurstGapEnd s = _
    unfold execBurstGapEnd
    rw [gap, silent]
    rfl
  rw [passBitTimes, passed] at row
  let v : State := { s with clock := s.clock + (12 - s.lif.absent) * s.bitUnits, lif.sentBits := sentBits,
                            lif.absent := absent, lif.gap := false, hou := s.hou.mapAll g }
  refine ⟨v, row.trans (congrArg Host.Outcome.next ?_), rfl, silent, rfl, rfl⟩
  have still (v : State) (records : v.hou.answers = s.hou.answers.map g) : v.releasedAnswer = none := by
    rw [State.releasedAnswer, records, List.find?_map, show ((fun r : HoldRec => r.phase == .released && !r.doomed) ∘ g)
      = fun r : HoldRec => r.phase == .released && !r.doomed from funext fun r => by
        obtain ⟨slots, progress, eq⟩ := counts r
        rw [Function.comp_apply, eq]]
    rw [show s.hou.answers.find? (fun r => r.phase == .released && !r.doomed) = none from noAnswer]
    rfl
  have first : v.releasedAnswer = none := still v rfl
  show continueBurst v = _
  unfold continueBurst
  rw [first] <;> rfl

end Sent

/-- Settles O40: what each report makes of its job, and the short gap's end. -/
theorem sentFramesLeaveTheQueue : Obligations.SentFramesLeaveTheQueue := by
  intro s
  refine ⟨fun x y rest sending source front owner => ?_, fun x y rest j job p sending source front owner kind hj hb seeking => ?_,
    fun x y rest j job v sending source front owner kind sound hj hb => ?_,
    fun x y rest j job sending source front owner hj => ?_, fun x o r j job v d sending source record owner live hj hb bid => ?_,
    fun x o r sending source record owner => ?_, fun gap silent none => ⟨fun x rest front below => ?_, fun full => ?_⟩⟩
  · obtain ⟨v, gone, row⟩ := front_sent sending source front
    rw [owner] at row
    obtain ⟨jt, cat, med, cpe, port, notes, clock, queue, lastSource, silent⟩ := afterFrame_frame v
    obtain ⟨burst, gap, endBurst, g, -, after, gapIff⟩ := afterFrame_eq v
    refine ⟨_, row, queue.trans gone.queue, lastSource.trans gone.lastSource, silent.trans gone.sending, clock.trans gone.clock,
      ?_, jt.trans gone.jt, cat.trans gone.cat, med.trans gone.med, cpe.trans gone.cpe, port.trans gone.port,
      notes.trans gone.notes⟩
    show (afterFrame v).lif.gap = true ↔ _
    rw [after, ← gone.endBurst, ← gone.carrier]
    exact gapIff
  · obtain ⟨v, gone, row⟩ := front_sent sending source front
    have hv : v.jobAt j = some job := (gone.jobAt j).trans hj
    have report : reportSent j x.frame v = putJob j { job with body := .play { p with answerWindow := some (v.now + 250) } } v := by
      rw [reportSent_seek kind, seekReportedSent, hv, Option.map_some, hb]
      exact (if_pos seeking).trans (modPlay_put _ hv hb)
    rw [owner] at row
    rw [show reportTo (some j) (fun j s => reportSent j x.frame s) v = _ from report] at row
    obtain ⟨queue, lastSource, record, others, -⟩ := gone.put { job with body := .play { p with answerWindow := some (v.now + 250) } } j
    refine ⟨_, row, queue, lastSource, ?_, others⟩
    rw [record, now_afterFrame]
    rfl
  · obtain ⟨w, gone, row⟩ := front_sent sending source front
    have hw : w.jobAt j = some job := (gone.jobAt j).trans hj
    have report : reportSent j x.frame w = endJob j .ok none w := by
      rw [reportSent_done kind, doneReportedSent, hw, Option.map_some, hb]
    rw [owner] at row
    rw [show reportTo (some j) (fun j s => reportSent j x.frame s) w = _ from report] at row
    have rising : smapRising w.jt.jobs = true := by rw [gone.jt]; exact sound.1.1
    obtain ⟨jt, -, -, cpe, -, -, -, -, lastSource, -⟩ := afterFrame_frame (endJob j .ok none w)
    refine ⟨_, row, ?_, ?_, ?_⟩
    · rw [State.jobAt, jt]
      exact (endJob_jobAt _ _ rising hw j).trans (if_pos rfl)
    · rw [lastSource, (endJob_endFrame j .ok none w).lif]
      exact gone.lastSource
    · obtain ⟨hou, sendingW, issued, closed⟩ := closeJob_eq hw
      have settled : settleEntry job .ok (closeJob j w) = closeJob j w := by
        rw [settleEntry, hb]
        cases job.entry <;> rfl
      have same : (closeJob j w).cpe = s.cpe ∧ (closeJob j w).sul = s.sul := by
        rw [closed]
        exact ⟨gone.cpe, gone.sul⟩
      rw [cpe, endJob_eq hw, partWith_none, settled, State.doneItems, Job.kind, hb]
      exact raise_cpe_congr _ same.1 (by rw [same.2])
  · obtain ⟨v, gone, row⟩ := front_sent sending source front
    have hv : v.jobAt j = some job := (gone.jobAt j).trans hj
    rw [owner] at row
    have sent {job' : Job} (report : reportSent j x.frame v = putJob j job' v) :
        exec .frameSent s = .next (settle (afterFrame (putJob j job' v)))
          ∧ (afterFrame (putJob j job' v)).lif.queue = rest ∧ (afterFrame (putJob j job' v)).lif.lastSource = s.own
          ∧ (afterFrame (putJob j job' v)).jobAt j = some job'
          ∧ (∀ k, k ≠ j → (afterFrame (putJob j job' v)).jobAt k = s.jobAt k) ∧ (afterFrame (putJob j job' v)).cat = s.cat
          ∧ (afterFrame (putJob j job' v)).med = s.med ∧ (afterFrame (putJob j job' v)).cpe = s.cpe := by
      rw [show reportTo (some j) (fun j s => reportSent j x.frame s) v = _ from report] at row
      exact ⟨row, gone.put job' j⟩
    have now (job' : Job) : (afterFrame (putJob j job' v)).now = v.now := now_afterFrame _
    refine ⟨fun r hb seeking kind => ?_, fun r a b c d l hb place => ?_, fun p holder hb awaiting grant => ?_,
      fun r holder hb awaiting grant => ?_, fun r snd total check hb hs done waits => ?_,
      fun r i e addresses hb hi he assign blocks stays => ?_⟩
    · let job' : Job := { job with body := .repair { r with answerWindow := some (v.now + 250) } }
      have report : reportSent j x.frame v = putJob j job' v := by
        rw [reportSent_seek kind, seekReportedSent, hv, Option.map_some, hb]
        exact (if_pos seeking).trans (modRepair_put _ hv hb)
      refine ⟨afterFrame (putJob j job' v), ?_⟩
      rw [now job']
      exact sent report
    · let job' : Job := { job with body := .replicate { r with timer := some (v.now + 250) } }
      have report : reportSent j x.frame v = putJob j job' v := by
        rw [reportSent, place]
        exact modReplicate_put _ hv hb
      refine ⟨afterFrame (putJob j job' v), ?_⟩
      rw [now job']
      exact sent report
    · let receiver : Receiver := newReceiver v.now none false
      let job₁ : Job := { job with rcv := some receiver }
      let job' : Job := { job₁ with body := .play { p with grantSent := true, grantWait := some (v.now + 500) } }
      have report : reportSent j x.frame v = putJob j job' v := by
        rw [reportSent, grant]
        dsimp only
        rw [grantReportedSent, hv, Option.map_some, hb]
        refine (if_pos awaiting).trans ?_
        rw [modJob_put _ hv, modPlay_put (job := job₁) (p := p) _ (jobAt_putJob_self j job₁ v) hb, putJob_putJob]
      refine ⟨afterFrame (putJob j job' v), receiver, ?_⟩
      rw [now job']
      exact ⟨sent report, rfl, rfl, rfl, rfl⟩
    · let receiver : Receiver := newReceiver v.now (some { head := false, first := r.first, count := r.count }) false
      let job₁ : Job := { job with rcv := some receiver }
      let job' : Job := { job₁ with body := .repair { r with grantSent := true, grantWait := some (v.now + 500) } }
      have report : reportSent j x.frame v = putJob j job' v := by
        rw [reportSent, grant]
        dsimp only
        rw [grantReportedSent, hv, Option.map_some, hb]
        refine (if_pos awaiting).trans ?_
        rw [modJob_put _ hv, modRepair_put (job := job₁) (r := r) _ (jobAt_putJob_self j job₁ v) hb, putJob_putJob]
      refine ⟨afterFrame (putJob j job' v), receiver, ?_⟩
      rw [now job']
      exact ⟨sent report, rfl, rfl, rfl, rfl⟩
    · have toReplicate : reportSent j x.frame v = replicateDoneSent j v := by
        rw [reportSent, done]
        dsimp only
        rw [doneReportedSent, hv, Option.map_some, hb]
      let job' : Job := { job with
        body := .replicate { r with timer := some (v.now + 250) },
        snd := some { snd with members := snd.members.map fun m =>
          if m.status = .sending then { m with status := .awaiting, progress := none } else m } }
      refine ⟨afterFrame (putJob j job' v), ?_⟩
      rw [now job']
      exact sent (toReplicate.trans (replicateDoneSent_waits hv hb hs waits))
    · have hev : v.entryAt i = some e := by rw [State.entryAt, gone.cat]; exact he
      obtain ⟨t, begins, run, next, members⟩ := assignSent_begins hv hb hi hev blocks stays
      have toAssign : reportSent j x.frame v = assignSent j v := by rw [reportSent, assign]
      have report := toAssign.trans begins
      refine ⟨_, t, sent report, run, next, ?_, fun m hm => ?_⟩
      · rw [members, List.map_map]
        rfl
      · rw [members] at hm
        obtain ⟨b, -, rfl⟩ := List.mem_map.mp hm
        rw [now]
        refine ⟨rfl, rfl, rfl, ?_, ?_⟩
        · exact if_congr List.contains_iff_mem rfl rfl
        · show (if (if r.left.contains b.1 then MemberStatus.left else .sending) = .sending then some (v.now + 50) else none) = _
          by_cases left : b.1 ∈ r.left
          · rw [if_pos (List.contains_iff_mem.mpr left), if_neg (by decide)]
            exact (if_pos left).symm
          · rw [if_neg (fun h => left (List.contains_iff_mem.mp h)), if_pos rfl]
            exact (if_neg left).symm
  · obtain ⟨w, gone, none, row⟩ := answer_sent sending source record
    have hw : w.jobAt j = some job := (gone.jobAt j).trans hj
    let job' : Job := { job with body := .receive { v with bid := .sent } }
    have report : reportTo r.reportsTo (fun j s => reportSent j x.frame s) w = putJob j job' w := by
      rw [HoldRec.reportsTo, live, owner]
      show reportSent j x.frame w = _
      rw [reportSent, bid]
      exact modReceive_put _ hw hb
    rw [report] at row
    obtain ⟨queue, lastSource, jobRecord, others, -⟩ := gone.put job' j
    exact ⟨_, row, afterFrame_answerRecord none, lastSource, queue, jobRecord, others⟩
  · obtain ⟨w, gone, none, row⟩ := answer_sent sending source record
    have report : reportTo r.reportsTo (fun j s => reportSent j x.frame s) w = w := by
      rw [HoldRec.reportsTo, owner, ite_self]
      rfl
    rw [report] at row
    obtain ⟨jt, -, -, -, -, -, -, queue, lastSource, -⟩ := afterFrame_frame w
    exact ⟨_, row, afterFrame_answerRecord none, lastSource.trans gone.lastSource, queue.trans gone.queue, jt.trans gone.jt⟩
  · obtain ⟨v, row, clock, -, burst, queue⟩ := exec_burstGapEnd gap silent none
    rw [if_pos below, front] at row
    refine ⟨_, row, rfl, ?_, rfl, rfl, clock, queue⟩
    show v.lif.burst + 1 = _
    rw [burst]
  · obtain ⟨v, row, -, quiet, -, queue⟩ := exec_burstGapEnd gap silent none
    have ends : exec .burstGapEnd s = .next (endBurst v) := by
      rw [row]
      refine congrArg Host.Outcome.next ?_
      rcases full with empty | limit
      · rw [empty]
        exact ite_self _
      · exact if_neg (Nat.not_lt.mpr limit)
    exact ⟨_, ends, quiet, rfl, rfl, queue⟩

end Sys2Proof.Machine

/-! ## Proofs: frames received, the STEP at its sender

SUPPORT. What every row of a received frame starts from; STEP_RECEIVED settled from the sender's window. -/

namespace Sys2Proof.Machine

/-! ### A received frame -/

section Received
variable {s : State} {f : Frame} {j : Nat} {job : Job}

/-- The node once a frame has been taken: heard no more, with a reload if it is addressed here (R75, R173). -/
def State.taken (f : Frame) (s : State) : State := if f.dst = s.own then reload (clearHeard s) else clearHeard s

theorem taken_eq (f : Frame) (s : State) : ∃ act, s.taken f = { s with lif.heard := none, act := act } := by
  unfold State.taken
  split
  · obtain ⟨act, reloaded⟩ := reload_act (clearHeard s)
    exact ⟨act, reloaded⟩
  · exact ⟨s.act, rfl⟩

theorem taken_other (away : f.dst ≠ s.own) : s.taken f = { s with lif.heard := none } := if_neg away

theorem exec_stepReceived (heard : s.lif.heard = some (.good f)) (kind : f.payload.kindCode = 8) :
    exec .stepReceived s = .next (settle (useStep f (s.taken f))) := takeFrameOf_good useStep heard kind

/-- The job a frame is for (R74): its record, and the exchange that the frame names. -/
theorem jobFor_spec (sound : s.Sound) (h : s.jobFor f = some (j, job)) :
    s.jobAt j = some job ∧ job.exTag = some f.tag ∧ job.take = some f.take
      ∧ (job.opened s.own f = true ∨ job.answering s.own f = true) := by
  obtain ⟨record, takes⟩ := jobAt_of_findJob sound.1 h
  rw [Bool.or_eq_true] at takes
  refine ⟨record, ?_, ?_, takes⟩
  · rcases takes with opened | answering
    · simp only [Job.opened, Bool.and_eq_true, beq_iff_eq] at opened
      exact opened.1.2
    · simp only [Job.answering, Bool.and_eq_true, beq_iff_eq] at answering
      exact answering.1.1.2
  · rcases takes with opened | answering
    · simp only [Job.opened, Bool.and_eq_true, beq_iff_eq] at opened
      exact opened.2
    · simp only [Job.answering, Bool.and_eq_true, beq_iff_eq] at answering
      exact answering.1.2

/-- A job that answers is the opener's (R74). -/
theorem opener_of_answering (kind : job.kind = .serve ∨ job.kind = .receive)
    (takes : job.opened s.own f = true ∨ job.answering s.own f = true) : f.src = job.opener := by
  rcases takes with opened | answering
  · simp only [Job.opened, Bool.and_eq_true, Bool.or_eq_true, beq_iff_eq] at opened
    obtain ⟨⟨⟨⟨opens, -⟩, -⟩, -⟩, -⟩ := opened
    rcases kind with h | h <;> rw [h] at opens <;> simp at opens
  · simp only [Job.answering, Bool.and_eq_true, beq_iff_eq] at answering
    exact answering.1.1.1.2

end Received

/-! ### A STEP at its sender -/

section Step
variable {t : Sender} {m : Member}

/-- What a STEP makes of its member's record (R127), `E` being the member's expected position before it. -/
def Member.stepped (now total next E P credit : Nat) (x : Member) : Member :=
  if P < E then x
  else if E < P ∨ next ≤ E then
    { x with expected := P, credit := credit, goBacks := 0, progress := if P = total then none else some (now + 50) }
  else { x with credit := credit }

theorem stepped_address (now total next E P credit : Nat) (x : Member) :
    (x.stepped now total next E P credit).address = x.address := by
  unfold Member.stepped
  split
  · rfl
  · split
    · rfl
    · rfl

theorem stepped_status (now total next E P credit : Nat) (x : Member) :
    (x.stepped now total next E P credit).status = x.status := by
  unfold Member.stepped
  split
  · rfl
  · split
    · rfl
    · rfl

/-- A STEP moves its member's record and no other (R127). -/
theorem takeStep_eq {now address seq credit P : Nat} (found : t.member address = some m) (sending : m.status = .sending)
    (position : t.run.posOf seq = some P) : t.takeStep now address seq credit = { t with
      members := t.members.map fun x =>
        if x.address = address then x.stepped now t.run.total t.next m.expected P credit else x } := by
  unfold Sender.takeStep
  rw [found, position]
  dsimp only
  by_cases stale : P < m.expected
  · rw [if_pos (.inr stale)]
    have same : (fun x : Member => if x.address = address then x.stepped now t.run.total t.next m.expected P credit else x)
        = id := by
      funext x
      rw [Member.stepped, if_pos stale, ite_self]
      rfl
    rw [same, List.map_id]
  · rw [if_neg (fun h => h.elim (fun ne => ne sending) stale)]
    by_cases progress : m.expected < P ∨ t.next ≤ m.expected
    · rw [if_pos progress]
      refine congrArg (fun l => ({ t with members := l } : Sender)) (List.map_congr_left fun x _ => if_congr Iff.rfl ?_ rfl)
      rw [Member.stepped, if_neg stale, if_pos progress]
      unfold Sender.progressed Sender.receipted
      exact congrArg (fun p => ({ x with expected := P, credit := credit, goBacks := 0, progress := p } : Member))
        (if_congr beq_iff_eq rfl rfl)
    · rw [if_neg progress]
      refine congrArg (fun l => ({ t with members := l } : Sender)) (List.map_congr_left fun x _ => if_congr Iff.rfl ?_ rfl)
      rw [Member.stepped, if_neg stale, if_neg progress]

theorem member_map {g : Member → Member} (same : ∀ x, (g x).address = x.address) (l : List Member) (a : Nat) :
    (l.map g).find? (fun x => x.address == a) = (l.find? (fun x => x.address == a)).map g := by
  rw [List.find?_map, show (fun x : Member => x.address == a) ∘ g = fun x => x.address == a from
    funext fun x => by simp [same]]

theorem waitedFor_eq (t : Sender) :
    t.waitedFor = t.members.filter fun x => x.status = .sending ∧ x.expected ≠ t.run.total := by
  refine List.filter_congr fun x _ => ?_
  rw [Sender.receipted, Bool.decide_and, decide_not]
  rfl

end Step

/-- Settles O50: the member's record by `takeStep`, then the branches of `advanceSender`. -/
theorem stepMovesTheMember : Obligations.StepMovesTheMember := by
  intro s f seq credit j P job t m sound heard payload taker hs found sending position moved members owed last
  obtain ⟨hj, tag, take, takes⟩ := jobFor_spec sound taker
  obtain ⟨act, taken⟩ := taken_eq f s
  let v : State := { s with lif.heard := none, act := act }
  have hv : v.jobAt j = some job := hj
  let t₁ : Sender := { t with members := members }
  let job₁ : Job := { job with snd := some t₁ }
  let w : State := putJob j job₁ v
  have hw : w.jobAt j = some job₁ := jobAt_putJob_self ..
  have row : exec .stepReceived s = .next (settle (advanceSender j none w)) := by
    have for_ : v.jobFor f = some (j, job) := taker
    rw [exec_stepReceived heard (by rw [payload]; rfl), taken, useStep, payload]
    dsimp only
    rw [for_]
    dsimp only
    rw [senderStep, modSnd_put _ hv hs, takeStep_eq found sending position]
    rfl
  let g : Member → Member := fun x => if x.address = f.src then moved x else x
  have address (x : Member) : (g x).address = x.address := by
    show (if _ then moved x else x).address = _
    split
    · exact stepped_address s.now t.run.total t.next m.expected P credit x
    · rfl
  have source : m.address = f.src := by simpa using List.find?_some found
  have own : t₁.member f.src = some (moved m) := by
    show (t.members.map g).find? _ = _
    rw [member_map address, show t.members.find? (fun x => x.address == f.src) = some m from found]
    exact congrArg some (if_pos source)
  have others (a : Nat) (ne : a ≠ f.src) : t₁.member a = t.member a := by
    show (t.members.map g).find? _ = _
    rw [member_map address]
    cases other : t.members.find? (fun x => x.address == a) with
    | none => exact other.symm
    | some x =>
      have at_ : x.address = a := by simpa using List.find?_some other
      refine Eq.trans ?_ other.symm
      exact congrArg some (if_neg (by rw [at_]; exact ne))
  have going : ∃ x ∈ t₁.members, x.status ≠ .left := by
    refine ⟨moved m, List.mem_of_find?_eq_some own, ?_⟩
    rw [show (moved m).status = m.status from stepped_status s.now t.run.total t.next m.expected P credit m, sending]
    decide
  have waited : t₁.waitedFor = owed := waitedFor_eq t₁
  by_cases given : t.doneGiven = true
  · have after : advanceSender j none w = w := advanceSender_over hw rfl going given
    rw [after] at row
    refine ⟨w, job₁, t₁, row, hw, rfl, own, others, rfl, rfl, rfl, rfl, fun k hk => jobAt_putJob_ne job₁ v hk, fun _ => rfl,
      fun open_ => ?_, fun open_ => ?_⟩
    · rw [given] at open_
      cases open_
    · rw [given] at open_
      cases open_
  · have open_ : t.doneGiven = false := Bool.eq_false_iff.mpr given
    by_cases none : owed = []
    · have done : advanceSender j Option.none w = giveDone j w :=
        advanceSender_done hw rfl going open_ (waited.trans none)
      let job₂ : Job := job₁.withDone t₁
      let frame := w.jobFrame job₁ job₁.dataTo.1 job₁.dataTo.2 (.done t₁.run.total (w.jobCheck job₁))
      obtain ⟨outbox, queue, plain, gave, taken⟩ := giveFrame_spec frame (jobAt_putJob_self j job₂ w)
      rw [done, giveDone_eq hw rfl, gave] at row
      refine ⟨_, { job₂ with outbox := outbox }, { t₁ with doneGiven := true }, row, jobAt_putJob_self .., rfl, own, others, rfl,
        rfl, rfl, rfl, fun k hk => ?_, fun h => absurd h given, fun _ h => absurd none h, fun _ _ => ⟨rfl, rfl, fun x hb => ?_,
        fun r hb => ?_, fun i e dst dir hi he way empty standing room => ?_⟩⟩
      · exact (jobAt_putJob_ne _ _ hk).trans ((jobAt_putJob_ne job₂ w hk).trans (jobAt_putJob_ne job₁ v hk))
      · exact body_withDone_serve (job := job₁) t₁ hb
      · exact body_withDone_replicate (job := job₁) t₁ hb
      · have check : w.jobCheck job₁ = e.check := by
          rw [State.jobCheck, show job₁.entry.bind w.entryAt = some e from by rw [show job₁.entry = some i from hi]; exact he]
        have sent : frame = { src := s.own, dst := dst, dir := dir, tag := f.tag, take := f.take,
                              payload := .done t.run.total e.check } := by
          show w.jobFrame job₁ _ _ _ = _
          rw [check]
          have goes : job₁.dataTo = (dst, dir) := by
            rcases way with ⟨⟨x, hb⟩, rfl, rfl⟩ | ⟨⟨r, hb⟩, rfl, rfl⟩
            · rw [Job.dataTo, show job₁.body = .serve x from hb,
                opener_of_answering (.inl (by rw [Job.kind, hb]; rfl)) takes]
            · rw [Job.dataTo, show job₁.body = .replicate r from hb]
          rw [goes]
          exact jobFrame_eq (job := job₁) tag take dst dir _
        obtain ⟨-, queued⟩ := taken empty standing room
        exact queued.trans (by rw [sent]; rfl)
    · have commits : advanceSender j Option.none w = putJob j (commit job₁) v := by
        rw [advanceSender_commits hw rfl open_ (by rw [waited]; exact none), putJob_putJob]
      have limit : t₁.limit = last := by
        rw [limit_eq (by rw [waited]; exact none), waited]
      rw [commits, commit_eq (t := t₁) rfl, limit] at row
      exact ⟨_, _, _, row, jobAt_putJob_self .., rfl, own, others, rfl, rfl, rfl, rfl, fun k hk => jobAt_putJob_ne _ v hk,
        fun h => absurd h given, fun _ _ => rfl, fun _ h => absurd h none⟩

end Sys2Proof.Machine

/-! ## Proofs: the timers of placement and of transfers

SUPPORT. The end of a placement's waits and of a transfer's; the rows that let time pass to an expiry. -/

namespace Sys2Proof.Machine

section Timers
variable {s : State} {j : Nat} {job : Job} {parting : Option Frame} {result : Result}

/-! ### More of a job's end -/

/-- The reservation of a PLEDGED job that ends goes (R3). -/
theorem endJob_reserved (result : Result) (parting : Option Frame) (hj : s.jobAt j = some job) (free : job.entry = none) :
    (endJob j result parting s).cat.reserved = if job.pledged then s.cat.reserved - 1 else s.cat.reserved := by
  have settled : settleEntry job result (partWith parting (closeJob j s)) = partWith parting (closeJob j s) := by
    rw [settleEntry, free]
  obtain ⟨queue, plain, parted⟩ := partWith_frame parting (closeJob j s)
  obtain ⟨sending, hou, issued, closed⟩ := closeJob_eq hj
  rw [endJob_eq hj, raise_cat, settled, parted, closed]

/-- JOB_DONE of a SERVE job (R194). -/
theorem endJob_serve {v : ServeJob} (result : Result) (parting : Option Frame) (hj : s.jobAt j = some job)
    (hb : job.body = .serve v) : ∃ w, endJob j result parting s = raise (.doneJob job.tag .serve result job.take 0 0 0) w := by
  rw [endJob_eq hj, State.doneItems, Job.kind, hb]
  exact ⟨_, rfl⟩

/-- The queue that the end of a job leaves (R78). -/
theorem endJob_lif_queue (result : Result) (parting : Option Frame) (hj : s.jobAt j = some job) :
    (endJob j result parting s).lif.queue = (partWith parting (closeJob j s)).lif.queue := by
  obtain ⟨cat, med, hou, notes, seen, events, lost, settled⟩ :=
    settleEntry_frame job result (partWith parting (closeJob j s))
  rw [endJob_eq hj, raise_lif, settled]

/-- The parting frame of a job that ends stands last in the queue (R78). -/
theorem endJob_parting_last (result : Result) (f : Frame) (hj : s.jobAt j = some job) (standing : s.linkStanding = true)
    (room : s.lif.queue.length < 16) :
    (endJob j result (some f) s).lif.queue.getLast? = some { frame := f, owner := none } := by
  rw [endJob_lif_queue result _ hj]
  exact parting_last f hj standing room

theorem freeEntry_entryAt {i : Nat} (rising : smapRising s.cat.entries = true) : (freeEntry i s).entryAt i = none := by
  cases he : s.entryAt i with
  | none =>
    have same : freeEntry i s = s := by rw [freeEntry, he]
    rw [same]
    exact he
  | some e =>
    obtain ⟨hou, notes, freed⟩ := freeEntry_of_entryAt he
    rw [freed]
    exact smapGet_smapDel_self i rising

theorem smapRising_entriesWithout (rising : smapRising s.cat.entries = true) : smapRising (s.entriesWithout job) = true := by
  unfold State.entriesWithout
  split
  · rename_i i _
    unfold dropRef modEntry
    split
    · exact smapRising_smapSet _ _ rising
    · exact rising
  · exact rising

/-- The entry of a RECEIVE job that ends other than OK is freed (R9). -/
theorem endJob_receive_frees {r : ReceiveJob} {i : Nat} (parting : Option Frame) (rising : smapRising s.cat.entries = true)
    (hj : s.jobAt j = some job) (hb : job.body = .receive r) (hi : job.entry = some i) (bad : result ≠ .ok) :
    (endJob j result parting s).entryAt i = none := by
  have settled (v : State) : settleEntry job result v = freeEntry i v := by
    rw [settleEntry, hi, hb]
    exact if_neg bad
  obtain ⟨queue, plain, parted⟩ := partWith_frame parting (closeJob j s)
  obtain ⟨sending, hou, issued, closed⟩ := closeJob_eq hj
  have risen : smapRising (partWith parting (closeJob j s)).cat.entries = true := by
    rw [parted, closed]
    exact smapRising_entriesWithout rising
  rw [endJob_eq hj, entryAt_raise, settled]
  exact freeEntry_entryAt risen

/-! ### The time an expiry carries -/

/-- Time passing to an expiry (log 2): what it changes. -/
structure Later (t : Nat) (s w : State) : Prop where
  clock : w.clock = max s.clock (t * 8000)
  jt : w.jt = s.jt
  cat : w.cat = s.cat
  med : w.med = s.med
  cpe : w.cpe = s.cpe
  port : w.port = s.port
  sul : w.sul = s.sul
  act : w.act = s.act
  notes : w.notes = s.notes
  lif : ∃ sentBits absent, w.lif = { s.lif with sentBits := sentBits, absent := absent }

theorem later_passTo (t : Nat) (s : State) : Later t s (passTo t s) := by
  obtain ⟨sentBits, absent, g, -, passed⟩ := passTo_eq t s
  rw [passed]
  exact ⟨rfl, rfl, rfl, rfl, rfl, rfl, rfl, rfl, rfl, _, _, rfl⟩

variable {t : Nat} {w : State}

theorem Later.jobAt (h : Later t s w) (k : Nat) : w.jobAt k = s.jobAt k := by rw [State.jobAt, State.jobAt, h.jt]

theorem Later.entryAt (h : Later t s w) (i : Nat) : w.entryAt i = s.entryAt i := by rw [State.entryAt, State.entryAt, h.cat]

theorem Later.queue (h : Later t s w) : w.lif.queue = s.lif.queue := by
  obtain ⟨sentBits, absent, lif⟩ := h.lif
  rw [lif]

theorem Later.own (h : Later t s w) : w.own = s.own := by rw [State.own, State.own, h.sul]

theorem Later.linkStanding (h : Later t s w) : w.linkStanding = s.linkStanding := by
  obtain ⟨sentBits, absent, lif⟩ := h.lif
  rw [State.linkStanding, State.linkStanding, State.complete, State.complete, State.muted, State.muted, h.sul, lif]

theorem Later.jobFrame (h : Later t s w) (job : Job) (dst : Nat) (dir : Direction) (payload : Payload) :
    w.jobFrame job dst dir payload = s.jobFrame job dst dir payload := by
  rw [State.jobFrame, State.jobFrame, h.own]

theorem Later.outstanding (h : Later t s w) (j : Nat) (job : Job) : w.outstanding j job = s.outstanding j job := by
  rw [State.outstanding, State.outstanding, State.issuedBy, State.issuedBy, h.med]

theorem Later.playableEntry (h : Later t s w) (take : TakeNo) : w.playableEntry take = s.playableEntry take := by
  rw [State.playableEntry, State.playableEntry, State.findTake, State.findTake, h.cat]

/-! ### The waits of placement -/

theorem closeWindow_suffices {r : ReplicateJob} {i : Nat} {e : Entry} (hj : s.jobAt j = some job)
    (hb : job.body = .replicate r) (hi : job.entry = some i) (he : s.entryAt i = some e)
    (enough : e.copiesWanted ≤ e.holders.length) : closeWindow j s = endJob j .ok none s := by
  have bound : job.entry.bind s.entryAt = some e := by rw [hi]; exact he
  unfold closeWindow Job.replicateOf
  rw [hj]
  dsimp only
  rw [hb, bound]
  exact if_pos (by omega)

theorem closeWindow_noBid {r : ReplicateJob} {i : Nat} {e : Entry} (hj : s.jobAt j = some job)
    (hb : job.body = .replicate r) (hi : job.entry = some i) (he : s.entryAt i = some e)
    (short : e.holders.length < e.copiesWanted) (noBid : r.bids = []) : closeWindow j s = endJob j .noHolder none s := by
  have bound : job.entry.bind s.entryAt = some e := by rw [hi]; exact he
  unfold closeWindow Job.replicateOf
  rw [hj]
  dsimp only
  rw [hb, bound]
  exact (if_neg (by omega)).trans (if_pos noBid)

/-- The window closes with bids (R109): the copy group is named in an ASSIGN. -/
theorem closeWindow_assigns {r : ReplicateJob} {i : Nat} {e : Entry} (hj : s.jobAt j = some job)
    (hb : job.body = .replicate r) (hi : job.entry = some i) (he : s.entryAt i = some e)
    (short : e.holders.length < e.copiesWanted) (bids : r.bids ≠ []) : closeWindow j s
      = giveFrame j (s.jobFrame job 63 .out (.assign ((r.bids.take (e.copiesWanted - e.holders.length)).map (·.1))))
          (putJob j { job with body := .replicate { r with
            state := .assigning, bids := r.bids.take (e.copiesWanted - e.holders.length),
            group := r.bids.take (e.copiesWanted - e.holders.length), timer := none } } s) := by
  have bound : job.entry.bind s.entryAt = some e := by rw [hi]; exact he
  unfold closeWindow Job.replicateOf
  rw [hj]
  dsimp only
  rw [hb, bound]
  refine ((if_neg (by omega)).trans (if_neg bids)).trans ?_
  rw [modReplicate_put _ hj hb]

theorem failAwaiting_put (hj : s.jobAt j = some job) : failAwaiting j s = putJob j { job with
    snd := job.snd.map fun t => { t with members := t.members.map fun m =>
      if m.status = .awaiting then { m with status := .failed } else m } } s := modJob_put _ hj

/-- The one REPLICATE job and its record. -/
theorem replicate_found {r : ReplicateJob} (sound : s.Sound) (found : s.findKind .replicate = some (j, job))
    (hb : job.body = .replicate r) : s.jobAt j = some job
      ∧ (s.findKind .replicate).bind (fun p => p.2.replicateOf.map fun r => (p.1, r)) = some (j, r) := by
  refine ⟨(jobAt_of_findJob sound.1 found).1, ?_⟩
  rw [found, Option.bind_some, Job.replicateOf, hb]
  rfl

end Timers

/-- Settles O54: the branches of `closeWindow` and the ends of the two other waits. -/
theorem placementTimersExpire : Obligations.PlacementTimersExpire := by
  intro s j t job sound
  have later := later_passTo t s
  have rising : smapRising (passTo t s).jt.jobs = true := by rw [later.jt]; exact sound.1.1
  refine ⟨fun r i e found hb state timer hi he => ?_, fun r hj hb pledged timer free => ?_, fun r found hb state timer => ?_⟩
  · obtain ⟨hj, one⟩ := replicate_found sound found hb
    have hw : (passTo t s).jobAt j = some job := (later.jobAt j).trans hj
    have hew : (passTo t s).entryAt i = some e := (later.entryAt i).trans he
    have kind : job.kind = .replicate := by rw [Job.kind, hb]; rfl
    have row : exec .bidWindowClose s = .next (settle (closeWindow j (passTo t s))) := by
      show execBidWindowClose s = _
      rw [execBidWindowClose, one]
      dsimp only
      rw [state, timer]
    refine ⟨fun enough => ?_, fun short noBid => ?_, fun short bids => ?_⟩
    · rw [closeWindow_suffices hw hb hi hew enough] at row
      obtain ⟨v, x, y, z, ended, -, -, -, -⟩ := endJob_spec .ok none rising hw
      rw [kind] at ended
      exact ⟨_, v, x, y, z, row, (endJob_jobAt _ _ rising hw j).trans (if_pos rfl),
        (endJob_endFrame j _ _ _).clock.trans later.clock, ended⟩
    · rw [closeWindow_noBid hw hb hi hew short noBid] at row
      obtain ⟨v, x, y, z, ended, -, -, -, -⟩ := endJob_spec .noHolder none rising hw
      rw [kind] at ended
      exact ⟨_, v, x, y, z, row, (endJob_jobAt _ _ rising hw j).trans (if_pos rfl),
        (endJob_endFrame j _ _ _).clock.trans later.clock, ended⟩
    · let r' : ReplicateJob := { r with
        state := .assigning, bids := r.bids.take (e.copiesWanted - e.holders.length),
        group := r.bids.take (e.copiesWanted - e.holders.length), timer := none }
      let job₁ : Job := { job with body := .replicate r' }
      let frame := (passTo t s).jobFrame job 63 .out
        (.assign ((r.bids.take (e.copiesWanted - e.holders.length)).map (·.1)))
      obtain ⟨outbox, queue, plain, gave, taken⟩ := giveFrame_spec frame (jobAt_putJob_self j job₁ (passTo t s))
      rw [closeWindow_assigns hw hb hi hew short bids, gave] at row
      refine ⟨_, { job₁ with outbox := outbox }, r', row, jobAt_putJob_self .., rfl, rfl, rfl, rfl, later.clock, later.cat,
        fun tag take ht htake standing room empty => ?_⟩
      obtain ⟨-, queued⟩ := taken empty (later.linkStanding.trans standing) (by rw [putJob_lif, later.queue]; exact room)
      refine queued.trans ?_
      rw [putJob_lif, later.queue, show frame = _ from jobFrame_eq ht htake _ _ _, later.own]
  · have hw : (passTo t s).jobAt j = some job := (later.jobAt j).trans hj
    have row : exec (.pledgedTimeout j) s = .next (settle (endJob j .stalled none (passTo t s))) := by
      have receives : (s.jobAt j).bind Job.receiveOf = some r := by
        rw [hj, Option.bind_some, Job.receiveOf, hb]
      show execPledgedTimeout j s = _
      rw [execPledgedTimeout, receives]
      dsimp only
      rw [pledged, timer]
    have pledge : job.pledge = r.pledge := by rw [Job.pledge, hb]
    have isPledged : job.pledged = true := by rw [Job.pledged, hb]; exact congrArg (!·) pledged
    obtain ⟨v, ended⟩ := endJob_receive .stalled none hw hb
    refine ⟨_, v, row, (endJob_jobAt _ _ rising hw j).trans (if_pos rfl), (endJob_endFrame j _ _ _).clock.trans later.clock,
      ?_, ?_, ended⟩
    · rw [endJob_pledged _ _ hw, pledge, later.med]
    · rw [endJob_reserved _ _ hw free, if_pos isPledged, later.cat]
  · obtain ⟨hj, one⟩ := replicate_found sound found hb
    have hw : (passTo t s).jobAt j = some job := (later.jobAt j).trans hj
    let job₁ : Job := { job with
      snd := job.snd.map fun t => { t with members := t.members.map fun m =>
        if m.status = .awaiting then { m with status := .failed } else m } }
    have row : exec .closeWaitTimeout s = .next (settle (endJob j .ok none (putJob j job₁ (passTo t s)))) := by
      show execCloseWaitTimeout s = _
      rw [execCloseWaitTimeout, one]
      dsimp only
      rw [state, timer]
      dsimp only
      rw [failAwaiting_put hw]
    have rising₁ := putJob_jobs_rising (j := j) job₁ rising
    have kind : job₁.kind = .replicate := by rw [Job.kind, show job₁.body = _ from hb]; rfl
    obtain ⟨v, x, y, z, ended, -, -, -, -⟩ := endJob_spec .ok none rising₁ (jobAt_putJob_self j job₁ (passTo t s))
    rw [kind] at ended
    exact ⟨_, v, x, y, z, row, (endJob_jobAt _ _ rising₁ (jobAt_putJob_self j job₁ _) j).trans (if_pos rfl),
      (endJob_endFrame j _ _ _).clock.trans later.clock, ended⟩

end Sys2Proof.Machine

/-! ## Proofs: the timers of transfers

SUPPORT. Going back, leaving, giving a STEP and giving up, as operations on the job's record. -/

namespace Sys2Proof.Machine

section Transfers
variable {s : State} {j : Nat} {job : Job} {x : Sender} {m : Member} {v : Receiver}

/-- A parting frame (R78): at the end of the queue where there is room. -/
theorem giveParting_spec (f : Frame) (s : State) : ∃ queue plain,
    giveParting f s = { s with lif.queue := queue, hou.plain := plain }
      ∧ (s.linkStanding = true → s.lif.queue.length < 16 → queue = s.lif.queue ++ [{ frame := f, owner := none }]) := by
  unfold giveParting
  split
  · obtain ⟨plain, pushed⟩ := txPush_eq { frame := f, owner := none } s
    exact ⟨_, plain, pushed, fun _ _ => rfl⟩
  next full =>
    exact ⟨s.lif.queue, s.hou.plain, rfl, fun standing room => absurd (txTakes_iff.mpr ⟨standing, room⟩) full⟩

/-- Going back for a member (R128): its window is asked for again from its E. -/
theorem goBack_put (hj : s.jobAt j = some job) (hs : job.snd = some x) (found : x.member m.address = some m) :
    ∃ issued, goBack j m.address s = putJob j (commit { job with
      snd := some (Sender.modMember m.address (fun m => { m with goBacks := m.goBacks + 1, progress := some (s.now + 50) })
        { x with next := min x.next m.expected }),
      reqs := [], outbox := job.outbox.filter (fun f => !f.payload.isData) }) { s with med.issued := issued } := by
  obtain ⟨issued, unwanted⟩ := unwant_eq j s
  have hu : (unwant j s).jobAt j = some job := by rw [unwanted]; exact hj
  refine ⟨issued, ?_⟩
  unfold goBack
  rw [modJob_put _ hu, hs, unwanted]
  dsimp only
  rw [found]

theorem leaveMember_put (address : Nat) (hj : s.jobAt j = some job) (hs : job.snd = some x) : leaveMember j address s
    = putJob j { job with snd := some (x.modMember address Member.asLeft) } s := modSnd_put _ hj hs

/-- A member of a changed list (R124). -/
theorem member_modMember_self {f : Member → Member} (same : ∀ m, (f m).address = m.address)
    (found : x.member m.address = some m) : (x.modMember m.address f).member m.address = some (f m) := by
  show (x.members.map _).find? _ = _
  rw [member_map (fun y => by split <;> simp [same]), show x.members.find? (fun y => y.address == m.address) = some m from found]
  exact congrArg some (if_pos rfl)

theorem member_modMember_ne {f : Member → Member} {a b : Nat} (same : ∀ m, (f m).address = m.address) (ne : b ≠ a) :
    (x.modMember a f).member b = x.member b := by
  show (x.members.map _).find? _ = _
  rw [member_map (fun y => by split <;> simp [same])]
  cases other : x.members.find? (fun y => y.address == b) with
  | none => exact other.symm
  | some y =>
    have at_ : y.address = b := by simpa using List.find?_some other
    refine Eq.trans ?_ other.symm
    exact congrArg some (if_neg (by rw [at_]; exact ne))

/-- Giving a STEP (R134): the record with its counts and its timer started again, and the frame. -/
theorem giveStep_put (hj : s.jobAt j = some job) (hr : job.rcv = some v) : giveStep j s
    = giveFrame j (s.jobFrame job job.stepTo.1 job.stepTo.2 (.step (v.knownRun.seqAt v.expected) (s.credit j job)))
        (putJob j { job with
          rcv := some { v with accepted := 0, stepTimer := if v.owed then some (s.now + 20) else none },
          outbox := job.outbox.filter (fun f => !f.payload.isStep) } s) := by
  unfold giveStep
  rw [hj]
  dsimp only
  rw [hr]
  dsimp only
  rw [modRcv_put _ hj hr, dropWaitingStep, modJob_putJob]

/-- A member is dropped from a REPLICATE job (R129). -/
theorem dropMember_replicate {r : ReplicateJob} (address : Nat) (hj : s.jobAt j = some job) (hs : job.snd = some x)
    (hb : job.body = .replicate r) : dropMember j address s
      = advanceSender j none (giveFrame j (s.jobFrame job address .out (.abandon .stalled))
          (putJob j { job with snd := some (x.modMember address Member.asLeft) } s)) := by
  have goes : job.dataTo.2 = .out := by rw [Job.dataTo, hb]
  unfold dropMember
  rw [hj]
  dsimp only
  rw [leaveMember_put address hj hs, goes, hb]

theorem dropMember_serve {r : ServeJob} (address : Nat) (hj : s.jobAt j = some job) (hs : job.snd = some x)
    (hb : job.body = .serve r) : dropMember j address s
      = advanceSender j (some (s.jobFrame job address .back (.abandon .stalled)))
          (putJob j { job with snd := some (x.modMember address Member.asLeft) } s) := by
  have goes : job.dataTo.2 = .back := by rw [Job.dataTo, hb]
  unfold dropMember
  rw [hj]
  dsimp only
  rw [leaveMember_put address hj hs, goes, hb]

/-- A queued ABANDON stays, with no owner, when its job ends (R78). -/
theorem afterEnd_abandon (j : Nat) {f : Frame} {reason : AbandonReason} (h : f.payload = .abandon reason) :
    ({ frame := f, owner := some j } : TxFrame).afterEnd j = some { frame := f, owner := none } := by
  rw [TxFrame.afterEnd, if_pos rfl, h]
  rfl

/-- PROGRESS_TIMEOUT (R128, R129). -/
theorem exec_progressTimeout {t : Nat} (hj : s.jobAt j = some job) (hs : job.snd = some x)
    (found : x.member m.address = some m) (sending : m.status = .sending) (timer : m.progress = some t) :
    exec (.progressTimeout j m.address) s = .next (settle (progressPassed j m (passTo t s))) := by
  have member : ((s.jobAt j).bind (·.snd)).bind (fun t => t.member m.address) = some m := by
    rw [hj, Option.bind_some, hs]
    exact found
  show execProgressTimeout j m.address s = _
  rw [execProgressTimeout, member]
  dsimp only
  rw [sending, timer]

/-- INACTIVITY_TIMEOUT (R135). -/
theorem exec_inactivityTimeout {t : Nat} (hj : s.jobAt j = some job) (hr : job.rcv = some v) (timer : v.inactivity = some t) :
    exec (.inactivityTimeout j) s = .next (settle (inactive j job (passTo t s))) := by
  have running : ((s.jobAt j).bind fun x => x.rcv.bind fun r => r.inactivity.map fun t => (x, t)) = some (job, t) := by
    rw [hj, Option.bind_some, hr, Option.bind_some, timer]
    rfl
  show execInactivityTimeout j s = _
  rw [execInactivityTimeout, running]

/-- STEP_TIMER_EXPIRY (R134). -/
theorem exec_stepTimerExpiry {t : Nat} (hj : s.jobAt j = some job) (hr : job.rcv = some v) (owed : v.owed = true)
    (timer : v.stepTimer = some t) : exec (.stepTimerExpiry j) s = .next (settle (giveStep j (passTo t s))) := by
  have receiver : (s.jobAt j).bind (·.rcv) = some v := by
    rw [hj, Option.bind_some, hr]
  show execStepTimerExpiry j s = _
  rw [execStepTimerExpiry, receiver]
  dsimp only
  rw [owed, timer]

theorem stepTo_play {p : PlayJob} {h : Nat} (hb : job.body = .play p) (holder : p.holder = some h) :
    job.stepTo = (h, .out) := by
  rw [Job.stepTo, hb]
  dsimp only
  rw [holder]
  rfl

theorem stepTo_repair {r : RepairJob} {h : Nat} (hb : job.body = .repair r) (holder : r.holder = some h) :
    job.stepTo = (h, .out) := by
  rw [Job.stepTo, hb]
  dsimp only
  rw [holder]
  rfl

end Transfers

/-- Settles O55: one case for each timer, from what its operation makes of the job's record. -/
theorem transferTimersExpire : Obligations.TransferTimersExpire := by
  intro s j t job sound hj
  have later := later_passTo t s
  have rising : smapRising (passTo t s).jt.jobs = true := by rw [later.jt]; exact sound.1.1
  have hw : (passTo t s).jobAt j = some job := (later.jobAt j).trans hj
  refine ⟨fun x m hs found sending timer => ⟨fun few => ?_, fun v many hb one => ?_,
    fun r n many hb hn ne nSending owed open_ => ?_, fun r many hb left => ?_⟩, fun v hr owed timer => ?_,
    fun r v i hb hr timer hi live => ?_, fun p v h hb hr timer holder known => ?_, fun r v h hb hr timer holder left => ?_⟩
  · have row := exec_progressTimeout hj hs found sending timer
    let x₁ : Sender := Sender.modMember m.address
      (fun m => { m with goBacks := m.goBacks + 1, progress := some ((passTo t s).now + 50) })
      { x with next := min x.next m.expected }
    let job₁ : Job := { job with snd := some x₁, reqs := [], outbox := job.outbox.filter (fun f => !f.payload.isData) }
    obtain ⟨issued, back⟩ := goBack_put hw hs found
    rw [progressPassed, if_pos few, back, commit_eq (job := job₁) (t := x₁) rfl] at row
    have member : x₁.member m.address
        = some { m with goBacks := m.goBacks + 1, progress := some ((passTo t s).now + 50) } :=
      member_modMember_self (x := { x with next := min x.next m.expected }) (fun _ => rfl) found
    refine ⟨_, _, _, _, row, jobAt_putJob_self .., rfl, member, rfl, rfl, rfl, sending, Nat.le_max_left .., rfl, ?_, ?_,
      later.clock, later.cat⟩
    · exact List.all_eq_true.mpr fun f hf => (List.mem_filter.mp hf).2
    · show [] ++ (List.range' (min x.next m.expected) (x₁.limit - min x.next m.expected)).map _
        = (List.range' _ (max (min x.next m.expected) x₁.limit - min x.next m.expected)).map _
      rw [List.nil_append, show max (min x.next m.expected) x₁.limit - min x.next m.expected
        = x₁.limit - min x.next m.expected by omega]
      rfl
  · have row := exec_progressTimeout hj hs found sending timer
    let job₁ : Job := { job with snd := some (x.modMember m.address Member.asLeft) }
    have allLeft : ∀ n ∈ (x.modMember m.address Member.asLeft).members, n.status = .left := by
      intro n hn
      obtain ⟨m', hm', rfl⟩ := List.mem_map.mp hn
      rw [one, List.mem_singleton] at hm'
      rw [hm', if_pos rfl]
      rfl
    rw [progressPassed, if_neg (by omega), dropMember_serve m.address hw hs hb,
      advanceSender_stalled (job := job₁) (jobAt_putJob_self ..) rfl allLeft] at row
    have rising₁ := putJob_jobs_rising (j := j) job₁ rising
    have record := jobAt_putJob_self j job₁ (passTo t s)
    obtain ⟨w, ended⟩ := endJob_serve .stalled
      (some ((passTo t s).jobFrame job m.address .back (.abandon .stalled))) record (v := v) hb
    refine ⟨_, w, row, (endJob_jobAt _ _ rising₁ record j).trans (if_pos rfl),
      (endJob_endFrame j _ _ _).clock.trans later.clock, ended, fun standing room => ?_⟩
    rw [endJob_parting_last _ _ record (later.linkStanding.trans standing) (by rw [putJob_lif, later.queue]; exact room),
      later.jobFrame]
  · have row := exec_progressTimeout hj hs found sending timer
    let x₁ : Sender := x.modMember m.address Member.asLeft
    let job₁ : Job := { job with snd := some x₁ }
    let frame := (passTo t s).jobFrame job m.address .out (.abandon .stalled)
    obtain ⟨outbox, queue, plain, gave, taken⟩ := giveFrame_spec frame (jobAt_putJob_self j job₁ (passTo t s))
    have waits : x₁.waitedFor ≠ [] := by
      refine List.ne_nil_of_mem (a := n) (List.mem_filter.mpr ⟨List.mem_map.mpr ⟨n, hn, if_neg ne⟩, ?_⟩)
      rw [nSending, Sender.receipted, show (n.expected == x₁.run.total) = false from beq_false_of_ne owed]
      rfl
    rw [progressPassed, if_neg (by omega), dropMember_replicate m.address hw hs hb, gave,
      advanceSender_commits (job := { job₁ with outbox := outbox }) (jobAt_putJob_self ..) rfl open_ waits,
      commit_eq (job := { job₁ with outbox := outbox }) (t := x₁) rfl] at row
    refine ⟨_, _, _, _, row, jobAt_putJob_self .., rfl, rfl, member_modMember_self (fun _ => rfl) found, rfl, rfl,
      fun a ha => member_modMember_ne (fun _ => rfl) ha, Nat.le_max_left .., later.clock, fun standing room empty => ?_⟩
    obtain ⟨-, queued⟩ := taken empty (later.linkStanding.trans standing) (by rw [putJob_lif, later.queue]; exact room)
    refine queued.trans ?_
    rw [putJob_lif, later.queue, show frame = _ from later.jobFrame ..]
  · have row := exec_progressTimeout hj hs found sending timer
    let x₁ : Sender := x.modMember m.address Member.asLeft
    let job₁ : Job := { job with snd := some x₁ }
    let frame := (passTo t s).jobFrame job m.address .out (.abandon .stalled)
    obtain ⟨outbox, queue, plain, gave, taken⟩ := giveFrame_spec frame (jobAt_putJob_self j job₁ (passTo t s))
    have allLeft : ∀ n ∈ x₁.members, n.status = .left := by
      intro n hn
      obtain ⟨n', hn', rfl⟩ := List.mem_map.mp hn
      split
      · rfl
      next ne => exact left n' hn' ne
    let job₂ : Job := { job₁ with outbox := outbox }
    let u : State := putJob j job₂ { putJob j job₁ (passTo t s) with lif.queue := queue, hou.plain := plain }
    rw [progressPassed, if_neg (by omega), dropMember_replicate m.address hw hs hb, gave,
      advanceSender_stalled (job := job₂) (t := x₁) (jobAt_putJob_self ..) rfl allLeft] at row
    have record : u.jobAt j = some job₂ := jobAt_putJob_self ..
    have risingU : smapRising u.jt.jobs = true :=
      putJob_jobs_rising (s := { putJob j job₁ (passTo t s) with lif.queue := queue, hou.plain := plain }) job₂
        (putJob_jobs_rising (j := j) job₁ rising)
    have kind : job₂.kind = .replicate := by rw [Job.kind, show job₂.body = _ from hb]; rfl
    obtain ⟨v, a, b, c, ended, -, -, -, -⟩ := endJob_spec .stalled none risingU record
    rw [kind] at ended
    refine ⟨_, v, a, b, c, row, (endJob_jobAt _ _ risingU record j).trans (if_pos rfl), fun k hk => ?_,
      (endJob_endFrame j .stalled none u).clock.trans later.clock, ended, fun tag take ht htake standing room empty => ?_⟩
    · refine (endJob_jobAt _ _ risingU record k).trans ((if_neg hk).trans ?_)
      exact (jobAt_putJob_ne job₂ _ hk).trans ((jobAt_putJob_ne job₁ _ hk).trans (later.jobAt k))
    · obtain ⟨-, queued⟩ := taken empty (later.linkStanding.trans standing) (by rw [putJob_lif, later.queue]; exact room)
      have told : frame = { src := s.own, dst := m.address, dir := .out, tag := tag, take := take,
                            payload := .abandon .stalled } :=
        (later.jobFrame ..).trans (jobFrame_eq ht htake _ _ _)
      rw [endJob_queue _ record, show u.lif.queue = queue from rfl, queued, List.filterMap_append,
        List.filterMap_cons_some (afterEnd_abandon j (by rw [told])), List.filterMap_nil, told]
      exact List.getLast?_concat ..
  · have row := exec_stepTimerExpiry hj hr owed timer
    let job₁ : Job := { job with
      rcv := some { v with accepted := 0, stepTimer := if v.owed then some ((passTo t s).now + 20) else none },
      outbox := job.outbox.filter (fun f => !f.payload.isStep) }
    let frame := (passTo t s).jobFrame job job.stepTo.1 job.stepTo.2
      (.step (v.knownRun.seqAt v.expected) ((passTo t s).credit j job))
    obtain ⟨outbox, queue, plain, gave, taken⟩ := giveFrame_spec frame (jobAt_putJob_self j job₁ (passTo t s))
    rw [giveStep_put hw hr, gave] at row
    refine ⟨_, _, _, frame, row, jobAt_putJob_self .., rfl, rfl, rfl, if_pos owed, rfl, later.own, ?_,
      fun standing room empty => ?_, later.clock, later.cat, later.med⟩
    · show Payload.step _ ((passTo t s).credit j job) = _
      rw [State.credit, State.room, State.room, later.outstanding]
    · obtain ⟨-, queued⟩ := taken (by show job.outbox.filter _ = []; rw [empty]; rfl) (later.linkStanding.trans standing)
        (by rw [putJob_lif, later.queue]; exact room)
      refine queued.trans ?_
      rw [putJob_lif, later.queue]
  · have row := exec_inactivityTimeout hj hr timer
    let frame := (passTo t s).jobFrame job job.opener .back (.abandon .stalled)
    have gives : inactive j job (passTo t s) = endJob j .stalled (some frame) (passTo t s) := by
      unfold inactive Job.stepTo
      rw [hb]
    rw [gives] at row
    obtain ⟨w, ended⟩ := endJob_receive .stalled (some frame) hw hb
    have entries : smapRising (passTo t s).cat.entries = true := by rw [later.cat]; exact sound.2.1.1
    refine ⟨_, w, row, (endJob_jobAt _ _ rising hw j).trans (if_pos rfl),
      endJob_receive_frees _ entries hw hb hi (by decide), (endJob_endFrame j _ _ _).clock.trans later.clock, ended,
      fun standing room => ?_⟩
    rw [endJob_parting_last _ _ hw (later.linkStanding.trans standing) (by rw [later.queue]; exact room),
      show frame = _ from later.jobFrame ..]
  · have row := exec_inactivityTimeout hj hr timer
    let frame := (passTo t s).jobFrame job h .out (.abandon .stalled)
    obtain ⟨queue, plain, gave, taken⟩ := giveParting_spec frame (passTo t s)
    have hu : ({ passTo t s with lif.queue := queue, hou.plain := plain } : State).jobAt j = some job := hw
    have accepted : p.headAccepted = true := Option.isSome_iff_ne_none.mpr known
    have gives : inactive j job (passTo t s)
        = pendPlay j .stalled { passTo t s with lif.queue := queue, hou.plain := plain } := by
      have goes := stepTo_play hb holder
      unfold inactive
      rw [hb]
      dsimp only
      rw [if_pos accepted, goes, gave]
    rw [gives, pendPlay_put .stalled hu hb] at row
    refine ⟨_, _, row, jobAt_putJob_self .., rfl, rfl, later.clock, fun standing room => ?_⟩
    refine (taken (later.linkStanding.trans standing) (by rw [later.queue]; exact room)).trans ?_
    rw [later.queue, show frame = _ from later.jobFrame ..]
  · have row := exec_inactivityTimeout hj hr timer
    let frame := (passTo t s).jobFrame job h .out (.abandon .stalled)
    obtain ⟨queue, plain, gave, taken⟩ := giveParting_spec frame (passTo t s)
    let w : State := { passTo t s with lif.queue := queue, hou.plain := plain }
    have hu : w.jobAt j = some job := hw
    have gives : inactive j job (passTo t s) = stopRepair j .stalled w := by
      have goes := stepTo_repair hb holder
      unfold inactive
      rw [hb]
      dsimp only
      rw [goes, gave]
    let job₁ : Job := { job with
      rcv := none, outbox := job.outbox.filter (fun f => !f.payload.isStep),
      body := .repair { r with state := .finishing, recorded := some (r.recorded.getD .stalled) } }
    have outstanding : (putJob j job₁ w).outstanding j job₁ = s.outstanding j job := later.outstanding j job
    have waits : finishRepair j (putJob j job₁ w) = putJob j job₁ w :=
      finishRepair_waits (jobAt_putJob_self ..) rfl (by rw [outstanding]; omega)
    rw [gives, stopRepair_put .stalled hu hb, waits] at row
    refine ⟨_, job₁, row, jobAt_putJob_self .., rfl, rfl, rfl, later.clock, fun standing room => ?_⟩
    refine (taken (later.linkStanding.trans standing) (by rw [later.queue]; exact room)).trans ?_
    rw [later.queue, show frame = _ from later.jobFrame ..]

end Sys2Proof.Machine

/-! ## Proofs: the waits of a retrieval

SUPPORT. A holder that has failed: the tag drawn anew, the fall back to the node's own copy. -/

namespace Sys2Proof.Machine

section Waits
variable {s v : State} {j : Nat} {job : Job} {p : PlayJob}

/-! ### Tags -/

/-- Some live job's record has a property, said through `jobAt`. -/
theorem any_jobs_iff (rising : smapRising s.jt.jobs = true) (P : Job → Bool) :
    s.jt.jobs.any (fun q => P q.2) = true ↔ ∃ k other, s.jobAt k = some other ∧ P other = true := by
  rw [List.any_eq_true]
  constructor
  · rintro ⟨⟨k, other⟩, mem, holds⟩
    exact ⟨k, other, smapGet_of_mem rising mem, holds⟩
  · rintro ⟨k, other, found, holds⟩
    exact ⟨(k, other), smapGet_some_mem found, holds⟩

/-- A record that keeps its tags does not change who holds a tag (R189). -/
theorem any_holdsTag_putJob {job' : Job} (rising : smapRising s.jt.jobs = true) (hj : s.jobAt j = some job)
    (tag : job'.tag = job.tag) (exTag : job'.exTag = job.exTag) (t : Nat) :
    (putJob j job' s).jt.jobs.any (fun q => q.2.holdsTag t) = s.jt.jobs.any (fun q => q.2.holdsTag t) := by
  have same : job'.holdsTag t = job.holdsTag t := by rw [Job.holdsTag, Job.holdsTag, tag, exTag]
  rw [Bool.eq_iff_iff]
  refine (any_jobs_iff (putJob_jobs_rising job' rising) (fun x => x.holdsTag t)).trans
    (Iff.trans ?_ (any_jobs_iff rising (fun x => x.holdsTag t)).symm)
  constructor
  · rintro ⟨k, other, found, holds⟩
    by_cases hk : k = j
    · subst hk
      rw [jobAt_putJob_self] at found
      cases found
      exact ⟨k, job, hj, same ▸ holds⟩
    · exact ⟨k, other, (jobAt_putJob_ne job' s hk).symm.trans found, holds⟩
  · rintro ⟨k, other, found, holds⟩
    by_cases hk : k = j
    · subst hk
      rw [hj] at found
      cases found
      exact ⟨k, job', jobAt_putJob_self .., same.symm ▸ holds⟩
    · exact ⟨k, other, (jobAt_putJob_ne job' s hk).trans found, holds⟩

/-- The rotation looks at nothing but who holds each tag (R189). -/
theorem nextFreeTag_of_holds {t : State}
    (same : ∀ n, s.jt.jobs.any (fun q => q.2.holdsTag n) = t.jt.jobs.any (fun q => q.2.holdsTag n)) (fuel n : Nat) :
    nextFreeTag s fuel n = nextFreeTag t fuel n := by
  induction fuel generalizing n with
  | zero => rfl
  | succ fuel ih => rw [nextFreeTag, nextFreeTag, same, ih]

theorem nextJobTag_putJob {job' : Job} (rising : smapRising s.jt.jobs = true) (hj : s.jobAt j = some job)
    (tag : job'.tag = job.tag) (exTag : job'.exTag = job.exTag) : (putJob j job' s).nextJobTag = s.nextJobTag :=
  nextFreeTag_of_holds (any_holdsTag_putJob rising hj tag exTag) 256 s.jt.nextTag

/-- A new exchange tag (R140, R165). -/
theorem drawExchange_put (hj : s.jobAt j = some job) : drawExchange j s
    = putJob j { job with exTag := some s.nextJobTag } { s with jt.nextTag := (s.nextJobTag + 1) % 256 } := by
  unfold drawExchange
  exact modJob_put _ hj

/-! ### Falling back, seeking again -/

theorem fallBack_local {i : Nat} {e : Entry} {take : TakeNo} {result : Result} (hj : s.jobAt j = some job)
    (ht : job.take = some take) (own : s.playableEntry take = some (i, e)) : fallBack j result s = enterLocal j i e s := by
  unfold fallBack
  rw [hj, Option.bind_some, ht]
  dsimp only
  rw [own]

theorem fallBack_ends {take : TakeNo} {result : Result} (hj : s.jobAt j = some job) (ht : job.take = some take)
    (none : s.playableEntry take = none) : fallBack j result s = endJob j result Option.none s := by
  unfold fallBack
  rw [hj, Option.bind_some, ht]
  dsimp only
  rw [none]

theorem holderFailed_used {take : TakeNo} (hj : s.jobAt j = some job) (hb : job.body = .play p)
    (used : p.reseekUsed = true) : holderFailed j s = fallBack j .stalled s := by
  unfold holderFailed Job.playOf
  rw [hj, Option.bind_some, hb]
  exact if_pos used

/-- The PLAY job whose one re-seek begins (R147). -/
def PlayJob.reseeking (p : PlayJob) : PlayJob :=
  { p with reseekUsed := true, exclusion := p.holder, grantWait := none, grantSent := false, grantedBlocks := none }

/-- The one re-seek (R147): a new tag, the holder excluded, and a SEEK. -/
theorem holderFailed_reseeks (rising : smapRising s.jt.jobs = true) (hj : s.jobAt j = some job) (hb : job.body = .play p)
    (unused : p.reseekUsed = false) : ∃ nextTag job₁,
    holderFailed j s = givePlaySeek j (putJob j job₁ { s with jt.nextTag := nextTag })
      ∧ job₁ = { job with rcv := none, outbox := job.outbox.filter (fun f => !f.payload.isStep),
                          body := .play p.reseeking, exTag := some s.nextJobTag } := by
  let job₀ : Job := { job with rcv := none, outbox := job.outbox.filter (fun f => !f.payload.isStep),
                               body := .play p.reseeking }
  have ready : dropWaitingStep j (modJob j (fun job => { job with rcv := none }) (modPlay j PlayJob.reseeking s))
      = putJob j job₀ s := by
    rw [dropWaitingStep, modPlay_put _ hj hb, modJob_putJob, modJob_putJob]
  have drawn : drawExchange j (putJob j job₀ s)
      = putJob j { job₀ with exTag := some s.nextJobTag } { s with jt.nextTag := (s.nextJobTag + 1) % 256 } := by
    have same : (putJob j job₀ s).nextJobTag = s.nextJobTag := nextJobTag_putJob (job' := job₀) rising hj rfl rfl
    rw [drawExchange_put (jobAt_putJob_self j job₀ s), same]
    unfold putJob
    dsimp only
    rw [smapSet_smapSet]
  refine ⟨(s.nextJobTag + 1) % 256, _, ?_, rfl⟩
  unfold holderFailed Job.playOf
  rw [hj, Option.bind_some, hb]
  refine (if_neg (by rw [unused]; decide)).trans ?_
  exact (congrArg (fun u => givePlaySeek j (drawExchange j u)) ready).trans (congrArg (givePlaySeek j) drawn)

/-! ### The rows -/

theorem exec_answerWindowExpiry {t : Nat} (hj : s.jobAt j = some job) (timer : job.answerWindow = some t) :
    exec (.answerWindowExpiry j) s = .next (settle (windowPassed j job (passTo t s))) := by
  have running : ((s.jobAt j).bind fun x => x.answerWindow.map fun t => (x, t)) = some (job, t) := by
    rw [hj, Option.bind_some, timer]
    rfl
  show execAnswerWindowExpiry j s = _
  rw [execAnswerWindowExpiry, running]

theorem exec_grantWaitExpiry {t : Nat} (hj : s.jobAt j = some job) (timer : job.grantWait = some t) :
    exec (.grantWaitExpiry j) s = .next (settle (grantFailed j job (passTo t s))) := by
  have running : ((s.jobAt j).bind fun x => x.grantWait.map fun t => (x, t)) = some (job, t) := by
    rw [hj, Option.bind_some, timer]
    rfl
  show execGrantWaitExpiry j s = _
  rw [execGrantWaitExpiry, running]

/-- A holder that has failed has been told of it (R135, R147; logs 32, 64): what a PLAY job then goes on from. -/
structure ToldFailure (t : Nat) (told : Frame) (owner : Option Nat) (j : Nat) (job : Job) (s v : State) : Prop where
  record : ∃ outbox, v.jobAt j = some { job with outbox := outbox } ∧ (job.outbox = [] → s.lif.queue.length < 16 → outbox = [])
  others : ∀ k, k ≠ j → v.jobAt k = s.jobAt k
  rising : smapRising v.jt.jobs = true
  nextTag : v.nextJobTag = s.nextJobTag
  clock : v.clock = max s.clock (t * 8000)
  cat : v.cat = s.cat
  own : v.own = s.own
  standing : v.linkStanding = true
  queue : s.lif.queue.length < 16 → job.outbox = [] → v.lif.queue = s.lif.queue ++ [{ frame := told, owner := owner }]

/-- The grant wait of a PLAY job (R147). -/
theorem grantFailed_play {t h old : Nat} {take : TakeNo} (sound : s.Sound) (hj : s.jobAt j = some job)
    (hb : job.body = .play p) (holder : p.holder = some h) (tag : job.exTag = some old) (ht : job.take = some take)
    (standing : s.linkStanding = true) : ∃ v, grantFailed j job (passTo t s) = holderFailed j v
      ∧ ToldFailure t { src := s.own, dst := h, dir := .out, tag := old, take := take, payload := .abandon .stalled } (some j)
          j job s v := by
  have later := later_passTo t s
  have hw : (passTo t s).jobAt j = some job := (later.jobAt j).trans hj
  let told := (passTo t s).jobFrame job h .out (.abandon .stalled)
  have is : told = { src := s.own, dst := h, dir := .out, tag := old, take := take, payload := .abandon .stalled } :=
    (later.jobFrame ..).trans (jobFrame_eq tag ht _ _ _)
  obtain ⟨outbox, queue, plain, gave, taken⟩ := giveFrame_spec told hw
  have risen : smapRising (passTo t s).jt.jobs = true := by rw [later.jt]; exact sound.1.1
  refine ⟨putJob j { job with outbox := outbox } { passTo t s with lif.queue := queue, hou.plain := plain }, ?_, ?_⟩
  · have fails : grantFailed j job (passTo t s) = holderFailed j (giveFrame j told (passTo t s)) := by
      unfold grantFailed
      rw [stepTo_play hb holder, hb]
    rw [fails, gave]
  · refine ⟨⟨outbox, jobAt_putJob_self .., fun empty room => (taken empty (later.linkStanding.trans standing)
      (by rw [later.queue]; exact room)).1⟩, fun k hk => (jobAt_putJob_ne _ _ hk).trans (later.jobAt k),
      putJob_jobs_rising (s := { passTo t s with lif.queue := queue, hou.plain := plain }) _ risen, ?_, later.clock, later.cat,
      later.own, later.linkStanding.trans standing, fun room empty => ?_⟩
    · refine (nextJobTag_putJob (job' := { job with outbox := outbox }) (s := { passTo t s with lif.queue := queue, hou.plain := plain }) risen hw rfl rfl).trans ?_
      exact nextJobTag_congr later.jt
    · obtain ⟨-, queued⟩ := taken empty (later.linkStanding.trans standing) (by rw [later.queue]; exact room)
      refine queued.trans ?_
      rw [later.queue, is]

/-- The inactivity timer of a PLAY job before its head block (R135, R147). -/
theorem inactive_play {t h old : Nat} {take : TakeNo} (sound : s.Sound) (hj : s.jobAt j = some job)
    (hb : job.body = .play p) (unknown : p.shape = none) (holder : p.holder = some h) (tag : job.exTag = some old)
    (ht : job.take = some take) (standing : s.linkStanding = true) : ∃ v, inactive j job (passTo t s) = holderFailed j v
      ∧ ToldFailure t { src := s.own, dst := h, dir := .out, tag := old, take := take, payload := .abandon .stalled } none
          j job s v := by
  have later := later_passTo t s
  have hw : (passTo t s).jobAt j = some job := (later.jobAt j).trans hj
  let told := (passTo t s).jobFrame job h .out (.abandon .stalled)
  have is : told = { src := s.own, dst := h, dir := .out, tag := old, take := take, payload := .abandon .stalled } :=
    (later.jobFrame ..).trans (jobFrame_eq tag ht _ _ _)
  obtain ⟨queue, plain, gave, taken⟩ := giveParting_spec told (passTo t s)
  have risen : smapRising (passTo t s).jt.jobs = true := by rw [later.jt]; exact sound.1.1
  refine ⟨{ passTo t s with lif.queue := queue, hou.plain := plain }, ?_, ⟨job.outbox, hw, fun empty _ => empty⟩,
    fun k _ => later.jobAt k, risen, nextJobTag_congr later.jt, later.clock, later.cat, later.own,
    later.linkStanding.trans standing, fun room empty => ?_⟩
  · have notYet : ¬ p.headAccepted = true := by
      rw [PlayJob.headAccepted, unknown]
      decide
    have fails : inactive j job (passTo t s) = holderFailed j (giveParting told (passTo t s)) := by
      unfold inactive
      rw [stepTo_play hb holder, hb]
      exact if_neg notYet
    rw [fails, gave]
  · refine (taken (later.linkStanding.trans standing) (by rw [later.queue]; exact room)).trans ?_
    rw [later.queue, is]

end Waits

/-- Settles O56: the branches of `fallBack` and of `holderFailed`, once the holder has been told. -/
theorem seekTimersExpire : Obligations.SeekTimersExpire := by
  intro s j t job sound hj
  have later := later_passTo t s
  have rising : smapRising (passTo t s).jt.jobs = true := by rw [later.jt]; exact sound.1.1
  have hw : (passTo t s).jobAt j = some job := (later.jobAt j).trans hj
  refine ⟨fun p take hb seeking timer ht => ?_, fun r hb seeking timer => ?_,
    fun p h old take c owner hb holder tag ht standing which => ?_, fun r hb awaiting timer => ?_⟩
  · have kind : job.kind = .play := by rw [Job.kind, hb]; rfl
    have row : exec (.answerWindowExpiry j) s = .next (settle (fallBack j .noHolder (passTo t s))) := by
      rw [exec_answerWindowExpiry (t := t) hj (by rw [Job.answerWindow, hb]; exact (if_pos seeking).trans timer), windowPassed, hb]
    refine ⟨fun none => ?_, fun i e own => ?_⟩
    · rw [fallBack_ends hw ht ((later.playableEntry take).trans none)] at row
      obtain ⟨v, x, y, z, ended, -, -, -, -⟩ := endJob_spec .noHolder Option.none rising hw
      rw [kind, ht] at ended
      exact ⟨_, v, x, y, z, row, (endJob_jobAt _ _ rising hw j).trans (if_pos rfl),
        (endJob_endFrame j _ _ _).clock.trans later.clock, ended⟩
    · have he : s.entryAt i = some e := (entryAt_of_playableEntry sound.2.1.1 own).1
      rw [fallBack_local hw ht ((later.playableEntry take).trans own)] at row
      obtain ⟨jobs, reqs, nextRead, slots, entered, record, others⟩ :=
        enterLocal_eq hw hb ((later.entryAt i).trans he)
      rw [entered] at row
      exact ⟨_, _, _, row, record, rfl, rfl, rfl, smapGet_smapSet_self .., later.clock⟩
  · have kind : job.kind = .repair := by rw [Job.kind, hb]; rfl
    have row : exec (.answerWindowExpiry j) s = .next (settle (endJob j .noHolder none (passTo t s))) := by
      rw [exec_answerWindowExpiry (t := t) hj (by rw [Job.answerWindow, hb]; exact (if_pos seeking).trans timer), windowPassed, hb]
    obtain ⟨v, x, y, z, ended, -, -, -, -⟩ := endJob_spec .noHolder none rising hw
    rw [kind] at ended
    exact ⟨_, v, x, y, z, row, (endJob_jobAt _ _ rising hw j).trans (if_pos rfl),
      (endJob_endFrame j _ _ _).clock.trans later.clock, ended⟩
  · intro told
    have kind : job.kind = .play := by rw [Job.kind, hb]; rfl
    obtain ⟨v, row, failed⟩ : ∃ v, exec c s = .next (settle (holderFailed j v)) ∧ ToldFailure t told owner j job s v := by
      rcases which with ⟨rfl, awaiting, timer, rfl⟩ | ⟨rfl, unknown, ⟨r, hr, timer⟩, rfl⟩
      · obtain ⟨v, eq, failed⟩ := grantFailed_play (t := t) sound hj hb holder tag ht standing
        refine ⟨v, ?_, failed⟩
        rw [exec_grantWaitExpiry (t := t) hj (by rw [Job.grantWait, hb]; exact (if_pos awaiting).trans timer), eq]
      · obtain ⟨v, eq, failed⟩ := inactive_play (t := t) sound hj hb unknown holder tag ht standing
        exact ⟨v, by rw [exec_inactivityTimeout hj hr timer, eq], failed⟩
    obtain ⟨outbox, hv, emptied⟩ := failed.record
    let job' : Job := { job with outbox := outbox }
    have hv' : v.jobAt j = some job' := hv
    have told_afterEnd : ({ frame := told, owner := owner } : TxFrame).afterEnd j = some { frame := told, owner := none } := by
      rcases which with ⟨-, -, -, rfl⟩ | ⟨-, -, -, rfl⟩
      · exact afterEnd_abandon j rfl
      · rfl
    refine ⟨fun unused => ?_, fun used none => ?_, fun i e used own => ?_⟩
    · obtain ⟨nextTag, job₁, again, is⟩ := holderFailed_reseeks failed.rising hv' hb unused
      let v₁ : State := putJob j job₁ { v with jt.nextTag := nextTag }
      have hv₁ : v₁.jobAt j = some job₁ := jobAt_putJob_self ..
      have hb₁ : job₁.body = .play p.reseeking := by rw [is]
      rw [again, givePlaySeek_gives hv₁ hb₁ failed.standing] at row
      let job₂ : Job := { job₁ with body := .play { p.reseeking with state := .seeking, answerWindow := Option.none } }
      let seek := v₁.jobFrame job₁ 63 .out
        (.seek p.reseeking.start p.reseeking.frames .play 0 0 p.reseeking.exclusion.toList)
      obtain ⟨outbox₂, queue, plain, gave, taken⟩ := giveFrame_spec seek (jobAt_putJob_self j job₂ v₁)
      replace row := row.trans (congrArg (fun u => Host.Outcome.next (settle u)) gave)
      refine ⟨_, { job₂ with outbox := outbox₂ }, _, s.nextJobTag, row, jobAt_putJob_self .., rfl, rfl, rfl, holder, rfl, ?_, ?_,
        rfl, fun k hk => ?_, failed.clock, fun room empty => ?_⟩
      · show job₁.rcv = Option.none
        rw [is]
      · show job₁.exTag = _
        rw [is, failed.nextTag]
      · exact (jobAt_putJob_ne _ _ hk).trans ((jobAt_putJob_ne job₂ _ hk).trans
          ((jobAt_putJob_ne job₁ _ hk).trans (failed.others k hk)))
      · have queued := failed.queue (by omega) empty
        have bare : job₁.outbox = [] := by
          rw [is]
          show outbox.filter _ = []
          rw [emptied empty (by omega)]
          rfl
        obtain ⟨-, sought⟩ := taken bare failed.standing (by
          show v.lif.queue.length < 16
          rw [queued, List.length_append]
          show _ + 1 < 16
          omega)
        have seekIs : seek = { src := s.own, dst := 63, dir := .out, tag := s.nextJobTag, take := take,
                               payload := .seek p.start p.frames .play 0 0 [h] } := by
          have exclusion : p.reseeking.exclusion.toList = [h] := by
            show p.holder.toList = [h]
            rw [holder]
            rfl
          show v₁.jobFrame job₁ 63 .out _ = _
          rw [exclusion, jobFrame_eq (tag := s.nextJobTag) (take := take) (by rw [is, failed.nextTag]) (by rw [is]; exact ht)]
          rw [show v₁.own = s.own from failed.own]
          rfl
        refine sought.trans ?_
        show v.lif.queue ++ _ = _
        rw [queued, seekIs, List.append_assoc]
        rfl
    · have noEntry : v.playableEntry take = Option.none := by
        rw [State.playableEntry, State.findTake, failed.cat]
        exact none
      rw [holderFailed_used (take := take) hv' hb used, fallBack_ends hv' ht noEntry] at row
      obtain ⟨w, x, y, z, ended, -, -, -, -⟩ := endJob_spec .stalled Option.none failed.rising hv'
      rw [show job'.kind = .play from kind, show job'.take = some take from ht] at ended
      refine ⟨_, w, x, y, z, row, (endJob_jobAt _ _ failed.rising hv' j).trans (if_pos rfl), fun k hk =>
        (endJob_jobAt _ _ failed.rising hv' k).trans ((if_neg hk).trans (failed.others k hk)),
        (endJob_endFrame j _ _ _).clock.trans failed.clock, ended, fun room empty => ?_⟩
      rw [endJob_queue _ hv', failed.queue room empty, List.filterMap_append, List.filterMap_cons_some told_afterEnd,
        List.filterMap_nil]
      exact List.getLast?_concat ..
    · have entry : v.playableEntry take = some (i, e) := by
        rw [State.playableEntry, State.findTake, failed.cat]
        exact own
      have he : v.entryAt i = some e := by
        rw [State.entryAt, failed.cat]
        exact (entryAt_of_playableEntry sound.2.1.1 own).1
      rw [holderFailed_used (take := take) hv' hb used, fallBack_local hv' ht entry] at row
      obtain ⟨jobs, reqs, nextRead, slots, entered, record, others⟩ := enterLocal_eq hv' hb he
      rw [entered] at row
      exact ⟨_, _, _, row, record, rfl, rfl, rfl, rfl, smapGet_smapSet_self .., failed.clock,
        fun room empty => failed.queue room empty⟩
  · have kind : job.kind = .repair := by rw [Job.kind, hb]; rfl
    let frame := (passTo t s).jobFrame job job.stepTo.1 .out (.abandon .stalled)
    have row : exec (.grantWaitExpiry j) s = .next (settle (endJob j .stalled (some frame) (passTo t s))) := by
      rw [exec_grantWaitExpiry (t := t) hj (by rw [Job.grantWait, hb]; exact (if_pos awaiting).trans timer)]
      unfold grantFailed
      rw [hb]
    obtain ⟨v, x, y, z, ended, -, -, -, -⟩ := endJob_spec .stalled (some frame) rising hw
    rw [kind] at ended
    refine ⟨_, v, x, y, z, row, (endJob_jobAt _ _ rising hw j).trans (if_pos rfl),
      (endJob_endFrame j _ _ _).clock.trans later.clock, ended, fun h tag take holder htag ht standing room => ?_⟩
    rw [endJob_parting_last _ _ hw (later.linkStanding.trans standing) (by rw [later.queue]; exact room),
      show frame = _ from (later.jobFrame ..).trans (jobFrame_eq htag ht _ _ _), stepTo_repair hb holder]

end Sys2Proof.Machine

/-! ## Proofs: ACT stands while MED issues and its operations end

SUPPORT. What the media arbiter and the ends of jobs do to ACT: its state stands; only `settle` and ACT's own rows change it. -/

namespace Sys2Proof.Machine

section ActStands
variable {s : State}

@[simp] theorem endJob_act (j : Nat) (result : Result) (parting : Option Frame) (s : State) :
    (endJob j result parting s).act = s.act := (endJob_endFrame ..).act

@[simp] theorem freeEntry_act (i : Nat) (s : State) : (freeEntry i s).act = s.act := (freeEntry_endFrame ..).act

@[simp] theorem closeJob_act (j : Nat) (s : State) : (closeJob j s).act = s.act := (closeJob_endFrame ..).act

@[simp] theorem giveParting_act (f : Frame) (s : State) : (giveParting f s).act = s.act := by
  unfold giveParting
  split
  · exact txPush_act ..
  · rfl

@[simp] theorem offerFrames_act (owner : Option Nat) (frames : List Frame) (s : State) :
    (offerFrames owner frames s).2.act = s.act := by
  induction frames generalizing s with
  | nil => rfl
  | cons f rest ih =>
    unfold offerFrames
    split
    · exact (ih _).trans (txPush_act ..)
    · rfl

@[simp] theorem flushOutbox_act (j : Nat) (s : State) : (flushOutbox j s).act = s.act := by
  unfold flushOutbox
  split <;> simp

@[simp] theorem giveFrame_act (j : Nat) (f : Frame) (s : State) : (giveFrame j f s).act = s.act := by
  simp [giveFrame]

@[simp] theorem modCapture_act (j : Nat) (f : CaptureJob → CaptureJob) (s : State) : (modCapture j f s).act = s.act :=
  modJob_act ..

@[simp] theorem modPlay_act (j : Nat) (f : PlayJob → PlayJob) (s : State) : (modPlay j f s).act = s.act := modJob_act ..

@[simp] theorem modReceive_act (j : Nat) (f : ReceiveJob → ReceiveJob) (s : State) : (modReceive j f s).act = s.act :=
  modJob_act ..

@[simp] theorem modRepair_act (j : Nat) (f : RepairJob → RepairJob) (s : State) : (modRepair j f s).act = s.act :=
  modJob_act ..

@[simp] theorem dropWaitingStep_act (j : Nat) (s : State) : (dropWaitingStep j s).act = s.act := modJob_act ..

@[simp] theorem drawExchange_act (j : Nat) (s : State) : (drawExchange j s).act = s.act := modJob_act ..

@[simp] theorem recordDamage_act (i seq : Nat) (finder : Option JobKind) (s : State) :
    (recordDamage i seq finder s).act = s.act := by
  unfold recordDamage
  split
  · split <;> simp
  · rfl

@[simp] theorem clearDamage_act (i seq : Nat) (s : State) : (clearDamage i seq s).act = s.act := changeEntryMarked_act ..

@[simp] theorem requestReads_act (j : Nat) (s : State) : (requestReads j s).act = s.act := by
  unfold requestReads
  split
  · split
    · split <;> simp
    · rfl
  · rfl

/-! ### A capture -/

@[simp] theorem recordGap_act (j : Nat) (g : Gap) (cause : GapCause) (s : State) : (recordGap j g cause s).act = s.act := by
  unfold recordGap
  split
  · split
    · split <;> simp
    · rfl
  · rfl

@[simp] theorem closeRun_act (j : Nat) (s : State) : (closeRun j s).act = s.act := by
  unfold closeRun
  split
  · split <;> simp
  · rfl

@[simp] theorem takeBoundaryOf_act (j : Nat) (chunks : List Nat → Nat) (s : State) :
    (takeBoundaryOf j chunks s).act = s.act := by
  unfold takeBoundaryOf
  split
  · split
    · split <;> simp
    · rfl
  · rfl

@[simp] theorem headBoundary_act (j : Nat) (turned : Bool) (s : State) : (headBoundary j turned s).act = s.act := by
  unfold headBoundary
  split <;> simp

@[simp] theorem takeWritten_act (j chunk offset : Nat) (s : State) : (takeWritten j chunk offset s).act = s.act := by
  unfold takeWritten takeBoundary
  split <;> simp

@[simp] theorem takeFaulted_act (j chunk : Nat) (s : State) : (takeFaulted j chunk s).act = s.act := by
  unfold takeFaulted takeBoundary
  split
  · split <;> simp
  · rfl

@[simp] theorem soundDone_act (j : Nat) (ok : Bool) (chunk offset : Nat) (s : State) :
    (soundDone j ok chunk offset s).act = s.act := by
  unfold soundDone afterSlot
  split <;> simp

@[simp] theorem soundFull_act (j : Nat) (s : State) : (soundFull j s).act = s.act := by
  unfold soundFull
  split
  · split <;> simp
  · rfl

@[simp] theorem sealTake_act (j : Nat) (lost : Bool) (s : State) : (sealTake j lost s).act = s.act := by
  unfold sealTake
  split
  · split
    · split
      · cases lost <;> by_cases copies : 1 < s.sul.cfg.copiesWanted <;> simp [copies]
      · rfl
    · rfl
  · rfl

@[simp] theorem headWritten_act (j : Nat) (s : State) : (headWritten j s).act = s.act := by
  unfold headWritten
  split
  · split <;> simp
  · rfl

@[simp] theorem headFaulted_act (j : Nat) (s : State) : (headFaulted j s).act = s.act := by
  unfold headFaulted
  split
  · split <;> simp
  · rfl

@[simp] theorem answerEnding_act (s : State) : (answerEnding s).act = s.act := by
  unfold answerEnding
  split <;> simp

@[simp] theorem finishAbort_act (j : Nat) (s : State) : (finishAbort j s).act = s.act := by
  unfold finishAbort
  split <;> simp

@[simp] theorem freeChunks_act (i : Nat) (chain : List Nat) (s : State) : (freeChunks i chain s).act = s.act := by
  unfold freeChunks
  induction chain generalizing s with
  | nil => rfl
  | cons c rest ih =>
    refine (ih _).trans ?_
    unfold freeOne
    dsimp only
    split
    · simp
    · split <;> simp

@[simp] theorem trimChain_act (i : Nat) (s : State) : (trimChain i s).act = s.act := by
  unfold trimChain
  split
  · dsimp only
    split
    · split <;> simp
    · simp
  · rfl

@[simp] theorem softIncomplete_act (j : Nat) (s : State) : (softIncomplete j s).act = s.act := by
  unfold softIncomplete
  split <;> simp

@[simp] theorem endJobSoftly_act (j : Nat) (s : State) : (endJobSoftly j s).act = s.act := by
  unfold endJobSoftly
  split
  · dsimp only
    split <;> simp [requeueAfterReset, setPlacement]
  · rfl

@[simp] theorem endJobsSoftly_act (jobs : List (Nat × Job)) (s : State) : (endJobsSoftly jobs s).act = s.act := by
  induction jobs generalizing s with
  | nil => rfl
  | cons job rest ih => exact (ih _).trans (endJobSoftly_act ..)

@[simp] theorem givePartings_act (partings : List Frame) (s : State) : (givePartings partings s).act = s.act := by
  unfold givePartings
  induction partings generalizing s with
  | nil => rfl
  | cons f rest ih => exact (ih _).trans (giveParting_act ..)

@[simp] theorem softHeadDone_act (j : Nat) (lost : Bool) (s : State) : (softHeadDone j lost s).act = s.act := by
  unfold softHeadDone finishSoftReset forgetHolds endLateJobs
  split <;> simp

@[simp] theorem captureWritten_act (j : Nat) (req : JobReq) (ok turned : Bool) (chunk offset : Nat) (s : State) :
    (captureWritten j req ok turned chunk offset s).act = s.act := by
  unfold captureWritten
  split
  · split
    · simp
    · split <;> simp
    · split
      · simp
      · split <;> simp
    · split <;> simp
  · rfl

/-! ### Reads and writes of the other jobs -/

@[simp] theorem playRead_act (j i seq : Nat) (outcome : ReadEnd) (block : List Byte) (s : State) :
    (playRead j i seq outcome block s).act = s.act := by
  cases outcome <;> simp [playRead]

@[simp] theorem giveData_act (j seq : Nat) (damaged : Bool) (block : List Byte) (s : State) :
    (giveData j seq damaged block s).act = s.act := by
  unfold giveData
  split <;> simp

@[simp] theorem sendRead_act (j i seq : Nat) (outcome : ReadEnd) (block : List Byte) (s : State) :
    (sendRead j i seq outcome block s).act = s.act := by
  unfold sendRead
  split
  · cases outcome <;> simp
  · rfl

@[simp] theorem failReceive_act (j : Nat) (result : Result) (reason : AbandonReason) (s : State) :
    (failReceive j result reason s).act = s.act := by
  unfold failReceive
  split <;> simp

@[simp] theorem repairSeek_act (j : Nat) (e : Entry) (s : State) : (repairSeek j e s).act = s.act := by
  unfold repairSeek
  dsimp only
  split
  · split <;> simp
  · simp

@[simp] theorem repairGoOn_act (j : Nat) (s : State) : (repairGoOn j s).act = s.act := by
  unfold repairGoOn
  split
  · split <;> simp
  · rfl

@[simp] theorem closeScan_act (i : Nat) (r : RepairJob) (s : State) : (closeScan i r s).act = s.act := by
  unfold closeScan
  split
  · split <;> simp
  · rfl

@[simp] theorem verified_act (j : Nat) (s : State) : (verified j s).act = s.act := by
  unfold verified
  split
  · split
    · dsimp only
      split
      · split <;> simp
      · simp
    · rfl
  · rfl

@[simp] theorem verify_act (j : Nat) (s : State) : (verify j s).act = s.act := by
  unfold verify
  split
  · split
    · split
      · rfl
      · dsimp only
        split <;> simp
    · rfl
  · rfl

@[simp] theorem repairRead_act (j i seq : Nat) (outcome : ReadEnd) (s : State) :
    (repairRead j i seq outcome s).act = s.act := by
  unfold repairRead
  split
  case h_1 e _ => cases outcome <;> by_cases listed : seq ∈ e.damaged <;> simp [listed]
  case h_2 => rfl

@[simp] theorem finishRepair_act (j : Nat) (s : State) : (finishRepair j s).act = s.act := by
  unfold finishRepair
  split
  · split
    · split <;> simp
    · rfl
  · rfl

@[simp] theorem repairWritten_act (j i seq : Nat) (ok : Bool) (s : State) : (repairWritten j i seq ok s).act = s.act := by
  unfold repairWritten
  split
  · dsimp only
    split <;> split <;> simp
  · rfl

/-! ### Issuing -/

@[simp] theorem appendChunk_act (i c : Nat) (s : State) : (appendChunk i c s).act = s.act := by
  unfold appendChunk
  split
  · dsimp only
    split <;> split <;> simp
  · rfl

@[simp] theorem spendPledge_act (j : Nat) (s : State) : (spendPledge j s).act = s.act := by
  unfold spendPledge
  split
  · split <;> simp
  · rfl

@[simp] theorem placeAppend_act (j i : Nat) (e : Entry) (s : State) : (placeAppend j i e s).2.act = s.act := by
  unfold placeAppend
  by_cases full : s.lastIsFull e = true
  · cases s.appendSource j with
    | none => simp [full]
    | some c =>
      simp only [full, if_true]
      split <;> simp
  · simp only [full, if_false, Bool.false_eq_true]
    split <;> rfl

@[simp] theorem takeRequest_act (r : Requester) (s : State) : (takeRequest r s).act = s.act := by
  unfold takeRequest
  split
  · rfl
  · simp
  · simp
  · split <;> rfl
  · split <;> rfl
  · rfl

@[simp] theorem notPresent_act (j i : Nat) (req : JobReq) (s : State) : (notPresent j i req s).act = s.act := by
  unfold notPresent
  split <;> simp

@[simp] theorem appendFull_act (j : Nat) (req : JobReq) (s : State) : (appendFull j req s).act = s.act := by
  unfold appendFull
  split <;> simp

@[simp] theorem issueAppend_act (j i : Nat) (e : Entry) (req : JobReq) (block : Nat → List Byte) (s : State) :
    (issueAppend j i e req block s).act = s.act := by
  unfold issueAppend
  dsimp only
  split <;> simp

@[simp] theorem issueAt_act (j i : Nat) (e : Entry) (req : JobReq) (write : Bool) (seq : Nat) (data : List Byte) (s : State) :
    (issueAt j i e req write seq data s).act = s.act := by
  unfold issueAt
  split <;> simp

@[simp] theorem issueJob_act (j : Nat) (req : JobReq) (s : State) : (issueJob j req s).act = s.act := by
  unfold issueJob
  split
  · cases req with
    | sound =>
      dsimp only
      split <;> simp
    | _ => simp
  · rfl

@[simp] theorem issueWt_act (w : WtItem) (faults : Nat) (s : State) : (issueWt w faults s).act = s.act := by
  cases w with
  | head i label =>
    unfold issueWt
    dsimp only
    split
    · split
      · simp
      · split <;> simp
    · rfl
  | _ => rfl

/-- Following the timer's conditions leaves ACT's state (R172). -/
theorem followConditions_actState (s : State) : (followConditions s).act.state = s.act.state := by
  unfold followConditions stopTimer
  split
  · split <;> rfl
  · rfl

/-- Start-up's completion may load the timer, and leaves ACT's state (R172, R189). -/
theorem completeStartUp_actState (s : State) : (completeStartUp s).act.state = s.act.state := by
  unfold completeStartUp
  exact (congrArg Act.state (raise_act ..)).trans (followConditions_actState _)

theorem sulSettle_actState (s : State) : (sulSettle s).act.state = s.act.state := by
  have advance : (sulAdvance s).act = s.act := by
    unfold sulAdvance
    split
    · split <;> rfl
    · split <;> rfl
    · split <;> rfl
    · rfl
  unfold sulSettle
  dsimp only
  split
  · rw [completeStartUp_actState, advance]
  · rw [advance]

theorem sulWriteDone_actState (ok : Bool) (s : State) : (sulWriteDone ok s).act.state = s.act.state := by
  unfold sulWriteDone
  rw [sulSettle_actState]
  split
  · split
    · rfl
    · split <;> rfl
  · split
    · rfl
    · split
      · simp
      · rfl
  · rfl

theorem issueSul_actState (op : SulOp) (s : State) : (issueSul op s).act.state = s.act.state := by
  cases op with
  | head i faults =>
    unfold issueSul
    dsimp only
    split
    · split
      · rfl
      · exact sulWriteDone_actState true s
    · exact sulWriteDone_actState true s
  | _ => rfl

/-- Whatever the arbiter issues, or completes without access to the store, ACT's state stands. -/
theorem issue_actState (r : Requester) (s : State) : (issue r s).act.state = s.act.state := by
  cases r with
  | sul op => exact issueSul_actState op s
  | job j req => exact congrArg Act.state ((issueJob_act j req _).trans (takeRequest_act (.job j req) s))
  | wt w faults => exact congrArg Act.state ((issueWt_act w faults _).trans (takeRequest_act (.wt w faults) s))
  | map b faults => exact congrArg Act.state (takeRequest_act (.map b faults) s)

end ActStands

end Sys2Proof.Machine

/-! ## Proofs: answers, notes and ACT

SUPPORT. What `settle` makes of ACT (R45, R46, R172 to R176), and answers removed unsent (R105). -/

namespace Sys2Proof.Machine

section Activity
variable {s : State}

/-! ### Reloads -/

theorem reload_stopped (stopped : s.act.timer = .stopped) : reload s = s := by
  unfold reload
  rw [stopped]

theorem reload_running {x : Option Nat} (running : s.act.timer = .running x) :
    reload s = { s with act.timer := s.loadedTimer, act.dozeDue := false } := by
  unfold reload
  rw [running]

theorem loadedTimer_active (active : s.act.state = .active) :
    s.loadedTimer = .running (if s.sul.cfg.dozeDelay = 0 then none else some (s.now + s.sul.cfg.dozeDelay)) := by
  unfold State.loadedTimer
  rw [active]
  rfl

theorem loadedTimer_doze (doze : s.act.state = .doze) :
    s.loadedTimer = .running (if s.sul.cfg.sleepDelay = 0 then none else some (s.now + s.sul.cfg.sleepDelay)) := by
  unfold State.loadedTimer
  rw [doze]
  rfl

theorem loadedTimer_off (off : s.act.state = .sleep ∨ s.act.state = .waking) : s.loadedTimer = .stopped := by
  unfold State.loadedTimer
  rcases off with off | off <;> rw [off]

/-! ### The look's parts -/

theorem idleConditions_iff : s.idleConditions = true ↔ s.complete = true ∧ s.jt.jobs = [] ∧ s.port.owner = none := by
  simp [State.idleConditions, and_assoc]

theorem followConditions_broken (broken : ¬ s.idleConditions = true) :
    followConditions s = { s with act := { s.act with timer := .stopped, dozeDue := false } } :=
  if_neg broken

theorem followConditions_stopped (idle : s.idleConditions = true) (stopped : s.act.timer = .stopped) :
    followConditions s = { s with act.timer := s.loadedTimer } := by
  unfold followConditions
  rw [if_pos idle, stopped]

theorem followConditions_running {x : Option Nat} (idle : s.idleConditions = true) (running : s.act.timer = .running x) :
    followConditions s = s := by
  unfold followConditions
  rw [if_pos idle, running]

theorem dozeIfDrained_stays (stays : s.act.dozeDue = false ∨ s.mediaWork = true) : dozeIfDrained s = s := by
  unfold dozeIfDrained
  refine if_neg ?_
  rcases stays with due | work
  · simp [due]
  · simp [work]

theorem dozeIfDrained_dozes (due : s.act.dozeDue = true) (drained : s.mediaWork = false) : dozeIfDrained s = enterDoze s := by
  unfold dozeIfDrained
  exact if_pos (by simp [due, drained])

theorem wakeForWork_stays (stays : s.act.state = .active ∨ s.act.state = .waking ∨ s.mediaWork = false) :
    wakeForWork s = s := by
  unfold wakeForWork
  refine if_neg ?_
  rcases stays with active | waking | drained
  · simp [active]
  · simp [waking]
  · simp [drained]

theorem settle_eq (s : State) : settle s
    = dozeIfDrained (followConditions (arbitrate (wakeForWork s).workBound (wakeForWork s))) := rfl

/-- With nothing to issue and no wake, the look follows the timer's conditions and dozes when it may. -/
theorem settle_still (awake : s.act.state = .active ∨ s.act.state = .waking ∨ s.mediaWork = false)
    (still : s.portState ≠ .idle ∨ s.chosen = none) : settle s = dozeIfDrained (followConditions s) := by
  rw [settle_eq, wakeForWork_stays awake, arbitrate_still still]

/-- Work that waits in DOZE or SLEEP wakes the node (R45, R175). -/
theorem settle_wakes (off : s.act.state = .doze ∨ s.act.state = .sleep) (work : s.mediaWork = true) :
    settle s = { s with act := { state := .waking, timer := .stopped, dozeDue := false,
                                 wakeAt := some (s.now + if s.act.state = .doze then 20 else 150) } } := by
  let woken : State := { s with act := { state := .waking, timer := .stopped, dozeDue := false,
                                         wakeAt := some (s.now + if s.act.state = .doze then 20 else 150) } }
  have wakes : wakeForWork s = woken := by
    unfold wakeForWork wake
    rcases off with off | off <;> simp [work, off, woken, beginWake, stopTimer]
  have follows : followConditions woken = woken := by
    by_cases idle : woken.idleConditions = true
    · exact followConditions_stopped idle rfl
    · exact followConditions_broken idle
  rw [settle_eq, wakes, arbitrate_still (.inl (by simp [State.portState, woken])), follows, dozeIfDrained_stays (.inl rfl)]

/-- The port that is IDLE belongs to an ACTIVE node (R45). -/
theorem active_of_idle (idle : s.portState = .idle) : s.act.state = .active := by
  unfold State.portState at idle
  cases state : s.act.state with
  | active => rfl
  | _ =>
    rw [state] at idle
    cases idle

theorem busy_of_issued {op : Issued} (issued : s.med.issued = some op) : s.portState ≠ .idle := by
  unfold State.portState
  rw [issued]
  cases s.act.state <;> simp

/-- The request the arbiter issues is issued, and the look goes on from there. -/
theorem settle_issue {r : Requester} {op : Issued} (idle : s.portState = .idle) (chosen : s.chosen = some r)
    (issued : (issue r s).med.issued = some op) : settle s = settle (issue r s) := by
  have active := active_of_idle idle
  have still : (issue r s).portState ≠ .idle ∨ (issue r s).chosen = none := .inl (busy_of_issued issued)
  have steps : arbitrate s.workBound s = issue r s := by
    have bound : s.workBound = (s.workBound - 1) + 1 := by
      unfold State.workBound
      omega
    rw [bound, arbitrate, if_pos idle, chosen]
    exact arbitrate_still still _
  have after : (issue r s).act.state = .active := (issue_actState r s).trans active
  rw [settle_still (.inl after) still, settle_eq, wakeForWork_stays (.inl active), steps]

/-- What counts as media work (R46). -/
theorem mediaWork_iff : s.mediaWork = true ↔ s.med.issued ≠ none ∨ s.med.mapRetry ≠ none ∨ s.med.mapList ≠ []
    ∨ s.cat.wtRetry ≠ none ∨ s.cat.wt ≠ [] ∨ ∃ p ∈ s.jt.jobs, (∃ c, p.2.body = .capture c ∧ c.waiting ≠ none)
      ∨ p.2.kind ≠ .capture ∧ p.2.reqs ≠ [] := by
  have asks : ∀ job : Job, job.hasRequest = true
      ↔ (∃ c, job.body = .capture c ∧ c.waiting ≠ none) ∨ job.kind ≠ .capture ∧ job.reqs ≠ [] := by
    intro job
    unfold Job.hasRequest Job.kind
    cases body : job.body <;> simp [JobBody.kind, Option.isSome_iff_ne_none]
  simp only [State.mediaWork, Bool.or_eq_true, List.any_eq_true, asks, Option.isSome_iff_ne_none, Bool.not_eq_true',
    List.isEmpty_eq_false_iff, or_assoc]

/-! ### Answers -/

/-- Answers of which none is on the medium are gone at once (R101, R103 to R105). -/
theorem removeAnswers_unsent {p : HoldRec → Bool} (unsent : ∀ r ∈ s.hou.answers, p r = true → s.sendingAnswer ≠ some r.order) :
    (removeAnswers p s).hou.answers = s.hou.answers.filter (fun r => !p r) := by
  unfold removeAnswers
  have keeps : s.hou.answers.filter (fun r => !p r || s.sendingAnswer == some r.order) = s.hou.answers.filter (fun r => !p r) := by
    refine List.filter_congr fun r mem => ?_
    by_cases doomed : p r = true
    · simp [doomed, unsent r mem doomed]
    · simp [doomed]
  dsimp only
  rw [keeps]
  refine (List.map_congr_left fun r mem => ?_).trans (List.map_id _)
  have spared : ¬ p r = true := by simpa using List.of_mem_filter mem
  exact if_neg spared

theorem Later.sendingAnswer {t : Nat} {w : State} (h : Later t s w) : w.sendingAnswer = s.sendingAnswer := by
  obtain ⟨sentBits, absent, lif⟩ := h.lif
  rw [State.sendingAnswer, lif, State.sendingAnswer]

/-- Time passing keeps every answer's number (R90). -/
theorem answers_order_passTo (t : Nat) (s : State) :
    (passTo t s).hou.answers.map (·.order) = s.hou.answers.map (·.order) := by
  obtain ⟨sentBits, absent, g, counts, passed⟩ := passTo_eq t s
  rw [passed]
  show (s.hou.answers.map g).map (·.order) = _
  rw [List.map_map]
  exact List.map_congr_left fun r _ => by
    obtain ⟨slots, progress, counted⟩ := counts r
    show (g r).order = r.order
    rw [counted]

/-! ### The rows -/

theorem exec_haveExpiry {o t : Nat} {r : HoldRec} (record : s.answerRecord o = some r) (expiry : r.expiry = some t) :
    exec (.haveExpiry o) s = .next (removeAnswers (fun r => r.order == o) (passTo t s)) := by
  have running : (s.answerRecord o).bind HoldRec.expiry = some t := by rw [record, Option.bind_some, expiry]
  show execHaveExpiry o s = _
  rw [execHaveExpiry, running]

theorem exec_answerNoteLapse {k : Nat} {n : AnswerNote} (note : s.notes[k]? = some n) :
    exec (.answerNoteLapse k) s = .next { passTo n.lapse s with notes := (passTo n.lapse s).notes.eraseIdx k } := by
  show execAnswerNoteLapse k s = _
  rw [execAnswerNoteLapse, note]

theorem exec_activityTimerExpiry {t : Nat} (timer : s.act.timer = .running (some t)) :
    exec .activityTimerExpiry s = .next (activityExpired (passTo t s)) := by
  show execActivityTimerExpiry s = _
  rw [execActivityTimerExpiry, timer]

theorem exec_wakeTimerExpiry {t : Nat} (timer : s.act.wakeAt = some t) :
    exec .wakeTimerExpiry s
      = .next (settle { passTo t s with act.state := .active, act.wakeAt := none }) := by
  show execWakeTimerExpiry s = _
  rw [execWakeTimerExpiry, timer]

theorem Later.mediaWork {t : Nat} {w : State} (h : Later t s w) : w.mediaWork = s.mediaWork := by
  rw [State.mediaWork, State.mediaWork, h.med, h.cat, h.jt]

theorem activityExpired_active (active : s.act.state = .active) : activityExpired s
    = if s.mediaWork then { s with act.dozeDue := true, act.timer := .running none } else enterDoze s := by
  unfold activityExpired
  rw [active]

theorem activityExpired_doze (doze : s.act.state = .doze) :
    activityExpired s = { s with act.state := .sleep, act.timer := .stopped, act.dozeDue := false } := by
  unfold activityExpired
  rw [doze]

end Activity

/-- Settles O57: the parts of `settle` by ACT's state, its timer and the work that waits. -/
theorem answersNotesAndActivity : Obligations.AnswersNotesAndActivity := by
  intro s t
  have later := later_passTo t s
  refine ⟨reload_stopped, fun x running => ?_, fun o r record expiry unsent => ?_, fun k n note lapse => ?_,
    fun timer active drained => ?_, fun timer active work => ?_, fun timer doze => ?_, fun timer => ?_, ?_⟩
  · rw [reload_running running]
    exact ⟨rfl, loadedTimer_active, loadedTimer_doze, loadedTimer_off⟩
  · have gone := removeAnswers_unsent (s := passTo t s) (p := fun r => r.order == o) fun r _ is => by
      rw [later.sendingAnswer, eq_of_beq is]
      exact unsent
    refine ⟨_, exec_haveExpiry record expiry, ?_, later.clock, ?_, later.jt, later.cat, later.notes, later.queue⟩
    · rw [State.answerRecord, gone, List.find?_eq_none]
      intro r mem
      simpa using List.of_mem_filter mem
    · rw [gone, ← answers_order_passTo t s, List.filter_map]
      congr 1
      exact List.filter_congr fun r _ => by by_cases is : r.order = o <;> simp [is]
  · subst lapse
    exact ⟨_, exec_answerNoteLapse note, congrArg (List.eraseIdx · k) later.notes, later.clock, later.jt, later.cat, later.med⟩
  · have row := exec_activityTimerExpiry timer
    rw [activityExpired_active ((congrArg Act.state later.act).trans active),
      if_neg (by rw [later.mediaWork, drained]; decide)] at row
    refine ⟨_, row, rfl, later.clock, ?_, rfl, later.jt, later.cat, later.med⟩
    refine (loadedTimer_doze (s := { passTo t s with act.state := .doze, act.dozeDue := false }) rfl).trans ?_
    rw [← later.sul]
    rfl
  · have row := exec_activityTimerExpiry timer
    rw [activityExpired_active ((congrArg Act.state later.act).trans active), if_pos (later.mediaWork.trans work)] at row
    exact ⟨_, row, (congrArg Act.state later.act).trans active, rfl, rfl, later.jt, later.cat, later.med⟩
  · have row := exec_activityTimerExpiry timer
    rw [activityExpired_doze ((congrArg Act.state later.act).trans doze)] at row
    exact ⟨_, row, rfl, rfl, rfl, later.jt, later.cat, later.med⟩
  · refine ⟨_, exec_wakeTimerExpiry timer, ?_, later.clock, later.jt, later.cat, later.med⟩
    rw [← later.act]
  · refine ⟨mediaWork_iff, settle_wakes, fun r op => settle_issue, fun awake still => ?_⟩
    have looks := settle_still awake still
    refine ⟨fun broken => ?_, fun idle stopped due => ?_, fun x idle running stays => ?_,
      fun x idle running due active drained => ?_⟩
    · rw [looks, followConditions_broken (fun conditions => broken (idleConditions_iff.mp conditions)),
        dozeIfDrained_stays (.inl rfl)]
    · rw [looks, followConditions_stopped (idleConditions_iff.mpr idle) stopped, dozeIfDrained_stays (s := { s with act.timer := s.loadedTimer }) (.inl due)]
      unfold State.loadedTimer
      cases s.act.state <;> rfl
    · rw [looks, followConditions_running (idleConditions_iff.mpr idle) running, dozeIfDrained_stays stays]
    · rw [looks, followConditions_running (idleConditions_iff.mpr idle) running, dozeIfDrained_dozes due drained]
      rfl

end Sys2Proof.Machine

/-! ## Proofs: holders learned, and what a DONE does to a copy

SUPPORT. Holder lists as frames change them (R14, R170); the catalogue after a job's end; the copy's end (R137, R138). -/

namespace Sys2Proof.Machine

section Holders
variable {s : State} {i : Nat} {e : Entry}

/-- A change of a holder list touches its entry, and with a change the mark and the write-through queue (R14). -/
theorem changeHolders_spec (f : List Nat → List Nat) (he : s.entryAt i = some e) : ∃ entries mark wt,
    changeHolders i f s = { s with cat.entries := entries, cat.mark := mark, cat.wt := wt }
      ∧ smapGet entries i = some { e with holders := f e.holders } ∧ (∀ k, k ≠ i → smapGet entries k = s.entryAt k)
      ∧ (smapRising s.cat.entries = true → smapRising entries = true)
      ∧ (f e.holders ≠ e.holders → mark = true ∧ .entry i ∈ wt) := by
  unfold changeHolders
  rw [he]
  dsimp only
  by_cases same : f e.holders = e.holders
  · refine ⟨s.cat.entries, s.cat.mark, s.cat.wt, by rw [if_pos same], ?_, fun k _ => rfl, id, fun changed => absurd same changed⟩
    rw [same]
    exact he
  · obtain ⟨wt, changed, waits⟩ := changeEntry_eq (fun e => { e with holders := f e.holders }) he
    refine ⟨_, true, wt, ?_, smapGet_smapSet_self .., fun k hk => smapGet_smapSet_ne _ _ hk, smapRising_smapSet _ _,
      fun _ => ⟨rfl, waits⟩⟩
    rw [if_neg same, changeEntryMarked, changed]
    rfl

/-- R170: the source of a HAVE, a DONE or a NOTICE HOLDS joins the list of the take's entry, and nothing else changes. -/
theorem learnHolder_spec (t : TakeNo) (a : Nat) (rising : smapRising s.cat.entries = true) : ∃ entries mark wt,
    learnHolder t a s = { s with cat.entries := entries, cat.mark := mark, cat.wt := wt }
      ∧ smapRising entries = true
      ∧ (∀ i e, s.findTake t = some (i, e) → smapGet entries i = some { e with holders := addAddress a e.holders }
          ∧ (addAddress a e.holders ≠ e.holders → mark = true ∧ .entry i ∈ wt))
      ∧ ∀ k, (∀ i e, s.findTake t = some (i, e) → k ≠ i) → smapGet entries k = s.entryAt k := by
  unfold learnHolder
  cases found : s.findTake t with
  | none => exact ⟨s.cat.entries, s.cat.mark, s.cat.wt, rfl, rising, fun i e h => (by cases h), fun k _ => rfl⟩
  | some p =>
    obtain ⟨i, e⟩ := p
    obtain ⟨entries, mark, wt, changed, gives, others, risen, marked⟩ :=
      changeHolders_spec (addAddress a) (entryAt_of_findTake rising found).1
    refine ⟨entries, mark, wt, changed, risen rising, fun i' e' h => ?_, fun k apart => others k (apart i e rfl)⟩
    cases h
    exact ⟨gives, marked⟩

/-- An entry changes, its item waits and the mark is set (R21, R26). -/
theorem changeEntryMarked_eq (f : Entry → Entry) (he : s.entryAt i = some e) : ∃ wt, changeEntryMarked i f s
    = { s with cat.entries := smapSet s.cat.entries i (f e), cat.wt := wt, cat.mark := true } ∧ .entry i ∈ wt := by
  obtain ⟨wt, changed, waits⟩ := changeEntry_eq f he
  exact ⟨wt, by rw [changeEntryMarked, changed]; rfl, waits⟩

end Holders

section Ends
variable {s : State} {j i : Nat} {job : Job} {r : ReceiveJob} {v : Receiver} {e : Entry} {result : Result}
  {parting : Option Frame}

/-! ### The catalogue after a job's end -/

/-- The catalogue after the end of a job whose entry asks for nothing more: its reference and its reservation are gone. -/
theorem endJob_cat (hj : s.jobAt j = some job) (stands : ∀ u, settleEntry job result u = u) :
    (endJob j result parting s).cat = { s.cat with
      reserved := if job.pledged then s.cat.reserved - 1 else s.cat.reserved, entries := s.entriesWithout job } := by
  obtain ⟨queue, plain, parted⟩ := partWith_frame parting (closeJob j s)
  obtain ⟨sending, hou, issued, closed⟩ := closeJob_eq hj
  rw [endJob_eq hj, raise_cat, stands, parted, closed]

/-- Freeing an entry sets the mark and leaves the other entries (R11). -/
theorem freeEntry_others (he : s.entryAt i = some e) :
    (freeEntry i s).cat.mark = true ∧ ∀ k, k ≠ i → (freeEntry i s).entryAt k = s.entryAt k := by
  obtain ⟨hou, notes, freed⟩ := freeEntry_of_entryAt he
  rw [freed]
  exact ⟨rfl, fun k hk => smapGet_smapDel_ne _ hk⟩

theorem entriesWithout_get (hi : job.entry = some i) (he : s.entryAt i = some e) :
    smapGet (s.entriesWithout job) i = some { e with jobRefs := e.jobRefs - 1 }
      ∧ ∀ k, k ≠ i → smapGet (s.entriesWithout job) k = s.entryAt k := by
  rw [entriesWithout_some hi he]
  exact ⟨smapGet_smapSet_self .., fun k hk => smapGet_smapSet_ne _ _ hk⟩

/-- A RECEIVE job that ends other than OK frees its entry and no other (R9, R11). -/
theorem endJob_receive_others (parting : Option Frame) (hj : s.jobAt j = some job) (hb : job.body = .receive r)
    (hi : job.entry = some i) (he : s.entryAt i = some e) (bad : result ≠ .ok) :
    (endJob j result parting s).cat.mark = true ∧ ∀ k, k ≠ i → (endJob j result parting s).entryAt k = s.entryAt k := by
  have settled (u : State) : settleEntry job result u = freeEntry i u := by
    rw [settleEntry, hi, hb]
    exact if_neg bad
  obtain ⟨queue, plain, parted⟩ := partWith_frame parting (closeJob j s)
  obtain ⟨sending, hou, issued, closed⟩ := closeJob_eq hj
  obtain ⟨own, others⟩ := entriesWithout_get hi he
  have hp : (partWith parting (closeJob j s)).entryAt i = some { e with jobRefs := e.jobRefs - 1 } := by
    rw [parted, closed]
    exact own
  obtain ⟨mark, rest⟩ := freeEntry_others hp
  rw [endJob_eq hj, raise_cat, settled]
  refine ⟨mark, fun k hk => ?_⟩
  rw [entryAt_raise, rest k hk, parted, closed]
  exact others k hk

/-! ### The end of a copy -/

theorem failReceive_eq (result : Result) (reason : AbandonReason) (hj : s.jobAt j = some job) :
    failReceive j result reason s = endJob j result (some (s.jobFrame job job.opener .back (.abandon reason))) s := by
  rw [failReceive, hj]

/-- A DONE that does not agree with the copy (R138). -/
theorem receiveDone_fails {total : Nat} {check : Check} (hj : s.jobAt j = some job) (hb : job.body = .receive r)
    (hr : job.rcv = some v) (unmatched : r.matched = none)
    (bad : v.owed = true ∨ total ≠ v.knownRun.total ∨ check ≠ v.check) :
    receiveDone j total check s = failReceive j .checkFailed .checkFailed s := by
  unfold receiveDone Job.receiveOf
  rw [hj]
  dsimp only
  rw [hb, hr]
  dsimp only
  rw [unmatched]
  exact if_pos bad

/-- A DONE that agrees with the copy (R137): the job has matched. -/
theorem receiveDone_agrees (hj : s.jobAt j = some job) (hb : job.body = .receive r) (hr : job.rcv = some v)
    (unmatched : r.matched = none) (whole : v.owed = false) :
    receiveDone j v.knownRun.total v.check s = finishReceive j (putJob j { job with
      rcv := some { v with inactivity := none }, body := .receive { r with matched := some v.check } } s) := by
  have marked : modReceive j (fun r => { r with matched := some v.check })
      (modRcv j (fun v => { v with inactivity := none }) s)
      = putJob j { job with rcv := some { v with inactivity := none }, body := .receive { r with matched := some v.check } } s := by
    rw [modRcv_put _ hj hr, modReceive_put _ (jobAt_putJob_self ..) (by exact hb), putJob_putJob]
  rw [← marked]
  unfold receiveDone Job.receiveOf
  rw [hj]
  dsimp only
  rw [hb, hr]
  dsimp only
  rw [unmatched]
  refine (if_neg Bool.false_ne_true).trans (if_neg ?_)
  rintro (owed | total | check)
  · exact absurd (whole.symm.trans owed) Bool.false_ne_true
  · exact total rfl
  · exact check rfl

/-- A matched copy waits for its writes (R137). -/
theorem finishReceive_waits (hj : s.jobAt j = some job) (left : s.outstanding j job ≠ 0) : finishReceive j s = s := by
  unfold finishReceive
  rw [hj]
  dsimp only
  split
  · split
    · exact if_neg left
    · rfl
  · rfl

/-- The copy of a matched RECEIVE job as it becomes HELD (R9, R137). -/
def Entry.copied (own : Nat) (r : ReceiveJob) (check : Check) (e : Entry) : Entry :=
  { e with state := .held, check := check, storedBlocks := r.storedBlocks, holders := copyHolders own r.exclusion r.assigned }

/-- A matched copy whose writes are done (R9, R137): HELD, and the job ends OK with a NOTICE HOLDS. -/
theorem finishReceive_held {check : Check} {tag : Nat} {take : TakeNo} (hj : s.jobAt j = some job) (hb : job.body = .receive r)
    (hi : job.entry = some i) (he : s.entryAt i = some e) (matched : r.matched = some check) (done : s.outstanding j job = 0)
    (htag : job.exTag = some tag) (ht : job.take = some take) : ∃ wt, .entry i ∈ wt ∧ finishReceive j s
      = endJob j .ok (some { src := s.own, dst := 63, dir := .out, tag := tag, take := take, payload := .notice .holds })
          { s with cat.entries := smapSet s.cat.entries i (e.copied s.own r check), cat.wt := wt, cat.mark := true } := by
  obtain ⟨wt, changed, waits⟩ := changeEntryMarked_eq (Entry.copied s.own r check) he
  refine ⟨wt, waits, ?_⟩
  unfold finishReceive Job.receiveOf
  rw [hj]
  dsimp only
  rw [hb, hi]
  dsimp only
  rw [matched]
  refine (if_pos done).trans ?_
  show endJob j .ok (some ((changeEntryMarked i (Entry.copied s.own r check) s).jobFrame job 63 .out (.notice .holds)))
    (changeEntryMarked i (Entry.copied s.own r check) s) = _
  rw [changed, jobFrame_eq htag ht]
  rfl

/-- An agreeing DONE with no write left makes the copy HELD and ends the job OK (R9, R137). -/
theorem receiveDone_held {tag : Nat} {take : TakeNo} (jobs : smapRising s.jt.jobs = true) (hj : s.jobAt j = some job)
    (hb : job.body = .receive r) (hi : job.entry = some i) (he : s.entryAt i = some e) (hr : job.rcv = some v)
    (unmatched : r.matched = none) (whole : v.owed = false) (htag : job.exTag = some tag) (ht : job.take = some take)
    (noReqs : job.reqs = []) (idle : s.issuedBy j = false) :
    ∃ u w, receiveDone j v.knownRun.total v.check s = u ∧ u.jobAt j = none
      ∧ u.entryAt i = some { e.copied s.own r v.check with jobRefs := e.jobRefs - 1 } ∧ u.cat.mark = true
      ∧ .entry i ∈ u.cat.wt ∧ (∀ k, k ≠ i → u.entryAt k = s.entryAt k)
      ∧ u = raise (.doneJob job.tag .receive .ok job.take 0 0 0) w
      ∧ (s.linkStanding = true → s.lif.queue.length < 16 → u.lif.queue.getLast?
          = some { frame := { src := s.own, dst := 63, dir := .out, tag := tag, take := take, payload := .notice .holds },
                   owner := none }) := by
  let job' : Job := { job with rcv := some { v with inactivity := none }, body := .receive { r with matched := some v.check } }
  have done : (putJob j job' s).outstanding j job' = 0 := by
    have unissued : (putJob j job' s).issuedBy j = false := idle
    rw [State.outstanding, unissued]
    exact congrArg List.length noReqs
  obtain ⟨wt, waits, held⟩ :=
    finishReceive_held (s := putJob j job' s) (jobAt_putJob_self ..) (by rfl) hi he rfl done htag ht
  let x : State := { putJob j job' s with
    cat.entries := smapSet s.cat.entries i (e.copied s.own r v.check), cat.wt := wt, cat.mark := true }
  let notice : Frame := { src := s.own, dst := 63, dir := .out, tag := tag, take := take, payload := .notice .holds }
  have hx : x.jobAt j = some job' := jobAt_putJob_self ..
  have risen : smapRising x.jt.jobs = true := putJob_jobs_rising job' jobs
  have stands : ∀ y, settleEntry job' .ok y = y := fun y => by
    rw [settleEntry, show job'.entry = some i from hi]
    exact if_pos rfl
  have cat := endJob_cat (parting := some notice) hx stands
  obtain ⟨entry, apart⟩ := entriesWithout_get (job := job') hi (s := x) (smapGet_smapSet_self ..)
  obtain ⟨w, ended⟩ := endJob_receive .ok (some notice) hx rfl
  refine ⟨endJob j .ok (some notice) x, w, (receiveDone_agrees hj hb hr unmatched whole).trans held, ?_, ?_, ?_, ?_,
    fun k hk => ?_, ended, endJob_parting_last .ok notice hx⟩
  · exact (endJob_jobAt _ _ risen hx j).trans (if_pos rfl)
  · rw [State.entryAt, cat]
    exact entry
  · rw [cat]
  · rw [cat]
    exact waits
  · rw [State.entryAt, cat]
    exact (apart k hk).trans (smapGet_smapSet_ne _ _ hk)

/-- An agreeing DONE with writes left leaves the job waiting for them, its inactivity timer stopped (R137). -/
theorem receiveDone_waits (hj : s.jobAt j = some job) (hb : job.body = .receive r) (hr : job.rcv = some v)
    (unmatched : r.matched = none) (whole : v.owed = false) (left : job.reqs ≠ [] ∨ s.issuedBy j = true) :
    receiveDone j v.knownRun.total v.check s = putJob j { job with
      rcv := some { v with inactivity := none }, body := .receive { r with matched := some v.check } } s := by
  let job' : Job := { job with rcv := some { v with inactivity := none }, body := .receive { r with matched := some v.check } }
  have waits : (putJob j job' s).outstanding j job' ≠ 0 := by
    have issued : (putJob j job' s).issuedBy j = s.issuedBy j := rfl
    rw [State.outstanding, issued]
    rcases left with reqs | issued
    · have some : 0 < job'.reqs.length := List.length_pos_iff.mpr reqs
      omega
    · rw [issued]
      simp
  exact (receiveDone_agrees hj hb hr unmatched whole).trans (finishReceive_waits (jobAt_putJob_self ..) waits)

/-- A RECEIVE job in RECEIVING that fails frees its entry and tells the origin (R9, R138). -/
theorem failReceive_spec {tag : Nat} {take : TakeNo} (reason : AbandonReason) (jobs : smapRising s.jt.jobs = true)
    (entries : smapRising s.cat.entries = true) (hj : s.jobAt j = some job) (hb : job.body = .receive r)
    (hi : job.entry = some i) (he : s.entryAt i = some e) (htag : job.exTag = some tag) (ht : job.take = some take)
    (bad : result ≠ .ok) :
    ∃ u w, failReceive j result reason s = u ∧ u.jobAt j = none ∧ u.entryAt i = none ∧ u.cat.mark = true
      ∧ (∀ k, k ≠ i → u.entryAt k = s.entryAt k) ∧ u = raise (.doneJob job.tag .receive result job.take 0 0 0) w
      ∧ (s.linkStanding = true → s.lif.queue.length < 16 → u.lif.queue.getLast?
          = some { frame := { src := s.own, dst := job.opener, dir := .back, tag := tag, take := take,
                              payload := .abandon reason }, owner := none }) := by
  let told : Frame :=
    { src := s.own, dst := job.opener, dir := .back, tag := tag, take := take, payload := .abandon reason }
  obtain ⟨w, ended⟩ := endJob_receive result (some told) hj hb
  obtain ⟨marked, apart⟩ := endJob_receive_others (some told) hj hb hi he bad
  have gone := endJob_jobAt result (some told) jobs hj j
  refine ⟨endJob j result (some told) s, w, ?_, gone.trans (if_pos rfl),
    endJob_receive_frees (some told) entries hj hb hi bad, marked, apart, ended, endJob_parting_last result told hj⟩
  rw [failReceive_eq _ _ hj, jobFrame_eq htag ht]

end Ends

section DoneRow
variable {s : State} {f : Frame} {j : Nat} {job : Job}

theorem exec_doneReceived (heard : s.lif.heard = some (.good f)) (kind : f.payload.kindCode = 9) :
    exec .doneReceived s = .next (settle (useDone f (s.taken f))) := takeFrameOf_good useDone heard kind

/-- A DONE reaches a RECEIVE job (R75, R137). -/
theorem useDone_receive {total : Nat} {check : Check} {r : ReceiveJob} (payload : f.payload = .done total check)
    (found : (learnHolder f.take f.src s).jobFor f = some (j, job)) (hb : job.body = .receive r) :
    useDone f s = receiveDone j total check (learnHolder f.take f.src s) := by
  unfold useDone
  rw [payload]
  dsimp only
  rw [found]
  dsimp only
  rw [hb]

end DoneRow

/-- Settles O51: the branches of `receiveDone`. -/
theorem doneCompletesTheCopy : Obligations.DoneCompletesTheCopy := by
  intro s f total j i check job r v e sound heard payload found hb unmatched hi he htake hr run live
  obtain ⟨hj, htag, ht, takes⟩ := jobFor_spec sound found
  have opener := opener_of_answering (.inr (by rw [Job.kind, hb]; rfl)) takes
  obtain ⟨act, taken⟩ := taken_eq f s
  have row := exec_doneReceived heard (by rw [payload]; rfl)
  rw [taken] at row
  obtain ⟨entries, mark, wt, learnt, risen, gives, rest⟩ :=
    learnHolder_spec (s := { s with lif.heard := none, act := act }) f.take f.src sound.2.1.1
  rw [useDone_receive payload (by rw [learnt]; exact found) hb, learnt] at row
  generalize hu : ({ s with lif.heard := none, act := act, cat.entries := entries, cat.mark := mark, cat.wt := wt } : State) = u
    at row
  have jobs : u.jt.jobs = s.jt.jobs := by rw [← hu]
  have hj' : u.jobAt j = some job := by rw [State.jobAt, jobs]; exact hj
  have he' : u.entryAt i = some { e with holders := addAddress f.src e.holders } := by
    rw [← hu]
    exact (gives i e live).1
  have others : ∀ k, k ≠ i → u.entryAt k = s.entryAt k := fun k hk => by
    rw [← hu]
    refine rest k fun i' e' h => ?_
    have same : (i', e') = (i, e) := Option.some.inj (h.symm.trans live)
    cases same
    exact hk
  have own : u.own = s.own := by rw [← hu]; rfl
  have standing' : u.linkStanding = s.linkStanding := by rw [← hu]; rfl
  have queue : u.lif.queue = s.lif.queue := by rw [← hu]
  have issued : u.issuedBy j = s.issuedBy j := by rw [← hu]; rfl
  have owed : v.owed = decide (v.expected < r.storedBlocks) := by
    unfold Receiver.owed Receiver.knownRun
    rw [run]
    rfl
  have known : v.knownRun.total = r.storedBlocks := by
    unfold Receiver.knownRun
    rw [run]
    rfl
  have complete : v.expected = r.storedBlocks → v.owed = false := fun whole => by rw [owed, whole]; simp
  refine ⟨fun whole blocks agrees noReqs idle => ?_, fun whole blocks agrees left => ?_, fun bad => ?_⟩
  · subst agrees
    obtain ⟨x, w, completes, gone, held, marked, waits, apart, ended, last⟩ := receiveDone_held (by rw [jobs]; exact sound.1.1)
      hj' hb hi he' hr unmatched (complete whole) htag ht noReqs (issued.trans idle)
    rw [show total = v.knownRun.total by rw [known, blocks], completes] at row
    rw [standing', queue, own] at last
    rw [own] at held
    exact ⟨x, _, w, row, gone, held, rfl, rfl, rfl, rfl, rfl, rfl, marked, waits, fun k hk => (apart k hk).trans (others k hk),
      ended, last⟩
  · subst agrees
    rw [show total = v.knownRun.total by rw [known, blocks],
      receiveDone_waits hj' hb hr unmatched (complete whole) (by rw [issued]; exact left)] at row
    refine ⟨_, row, by rw [← hu]; rfl, queue, fun k hk => ?_, jobAt_putJob_self .., ⟨_, he', rfl⟩, others⟩
    exact (jobAt_putJob_ne _ _ hk).trans (by rw [State.jobAt, jobs]; rfl)
  · obtain ⟨x, w, fails, gone, freed, marked, apart, ended, last⟩ := failReceive_spec (result := .checkFailed) .checkFailed
      (by rw [jobs]; exact sound.1.1) (by rw [← hu]; exact risen) hj' hb hi he' htag ht (by decide)
    rw [receiveDone_fails hj' hb hr unmatched (by rw [owed, known, decide_eq_true_iff]; exact bad), fails] at row
    rw [standing', queue, own, ← opener] at last
    exact ⟨x, w, row, gone, freed, marked, fun k hk => (apart k hk).trans (others k hk), ended, last⟩

end Sys2Proof.Machine

/-! ## Proofs: a HAVE and what it does

SUPPORT. Answers cancelled by a frame that is heard (R103, R104); the GRANT a HAVE draws (R145, R165). -/

namespace Sys2Proof.Machine

section Answers
variable {s : State} {p : HoldRec → Bool}

/-- Cancelled answers are gone, but for one whose frame is on the medium, which is doomed; every other answer stands (R103). -/
theorem removeAnswers_cancels (blind : ∀ r, p { r with doomed := true } = p r) :
    (∀ x ∈ (removeAnswers p s).hou.answers, p x = true → x.doomed = true ∧ s.sendingAnswer = some x.order)
      ∧ ∀ x, ¬ p x = true → (x ∈ (removeAnswers p s).hou.answers ↔ x ∈ s.hou.answers) := by
  have mem : ∀ x, x ∈ (removeAnswers p s).hou.answers ↔ ∃ r ∈ s.hou.answers,
      (p r = false ∨ s.sendingAnswer = some r.order) ∧ (if p r = true then { r with doomed := true } else r) = x := by
    intro x
    show x ∈ ((s.hou.answers.filter fun r => !p r || s.sendingAnswer == some r.order).map fun r =>
      if p r = true then { r with doomed := true } else r) ↔ _
    simp only [List.mem_map, List.mem_filter, Bool.or_eq_true, Bool.not_eq_true', beq_iff_eq, and_assoc]
  constructor
  · intro x hx mine
    obtain ⟨r, -, kept, is⟩ := (mem x).mp hx
    by_cases doomed : p r = true
    · rw [if_pos doomed] at is
      rw [← is]
      exact ⟨rfl, kept.resolve_left (by simp [doomed])⟩
    · rw [if_neg doomed] at is
      exact absurd (is ▸ mine) doomed
  · intro x spared
    constructor
    · intro hx
      obtain ⟨r, hr, -, is⟩ := (mem x).mp hx
      by_cases doomed : p r = true
      · rw [if_pos doomed] at is
        exact absurd (by rw [← is, blind, doomed]) spared
      · rw [if_neg doomed] at is
        exact is ▸ hr
    · intro hx
      exact (mem x).mpr ⟨x, hx, .inl (by simpa using spared), if_neg spared⟩

/-- The HAVE records of an exchange. -/
theorem isHave_answers_iff (r : HoldRec) (opener tag : Nat) (take : TakeNo) : (r.isHave && r.answers opener tag take) = true
    ↔ r.bids = none ∧ r.opener = opener ∧ r.frame.tag = tag ∧ r.frame.take = take := by
  simp [HoldRec.isHave, HoldRec.answers, and_assoc]

end Answers

section Have
variable {s : State} {f : Frame} {j : Nat} {job : Job} {stored : Nat} {check : Check}

/-- A frame given touches its job's record and the queue alone (R78). -/
theorem giveFrame_frame (j : Nat) (f : Frame) (s : State) : ∃ jobs queue plain,
    giveFrame j f s = { s with jt.jobs := jobs, lif.queue := queue, hou.plain := plain } := by
  cases hj : s.jobAt j with
  | some job =>
    obtain ⟨outbox, queue, plain, gave, -⟩ := giveFrame_spec f hj
    exact ⟨_, queue, plain, gave⟩
  | none =>
    refine ⟨s.jt.jobs, s.lif.queue, s.hou.plain, ?_⟩
    unfold giveFrame modJob flushOutbox
    rw [hj]
    dsimp only
    rw [hj]

theorem modJob_jobs (j : Nat) (g : Job → Job) (s : State) : ∃ jobs, modJob j g s = { s with jt.jobs := jobs } := by
  unfold modJob putJob
  split
  · exact ⟨_, rfl⟩
  · exact ⟨s.jt.jobs, rfl⟩

theorem giveGrant_frame (j holder : Nat) (g : Job → Job) (s : State) : ∃ jobs queue plain,
    giveGrant j holder (modJob j g s) = { s with jt.jobs := jobs, lif.queue := queue, hou.plain := plain } := by
  obtain ⟨jobs, changed⟩ := modJob_jobs j g s
  rw [changed]
  unfold giveGrant
  split
  · obtain ⟨jobs', queue, plain, gave⟩ := giveFrame_frame j (State.jobFrame _ _ 63 .out (.grant holder)) { s with jt.jobs := jobs }
    exact ⟨jobs', queue, plain, gave⟩
  · exact ⟨jobs, s.lif.queue, s.hou.plain, rfl⟩

/-- The GRANT of a job that has taken a HAVE (R145, R165). -/
theorem giveGrant_put {tag : Nat} {take : TakeNo} {holder : Nat} (job' : Job) (htag : job'.exTag = some tag)
    (ht : job'.take = some take) : ∃ outbox queue plain,
    giveGrant j holder (putJob j job' s)
        = putJob j { job' with outbox := outbox } { s with lif.queue := queue, hou.plain := plain }
      ∧ (s.linkStanding = true → s.lif.queue.length < 16 → job'.outbox = [] → queue = s.lif.queue ++
          [{ frame := { src := s.own, dst := 63, dir := .out, tag := tag, take := take, payload := .grant holder },
             owner := some j }]) := by
  have record : (putJob j job' s).jobAt j = some job' := jobAt_putJob_self ..
  obtain ⟨outbox, queue, plain, gave, taken⟩ := giveFrame_spec ((putJob j job' s).jobFrame job' 63 .out (.grant holder)) record
  refine ⟨outbox, queue, plain, ?_, fun standing room empty => ?_⟩
  · rw [giveGrant, record]
    exact gave.trans (putJob_putJob j job' _ { s with lif.queue := queue, hou.plain := plain })
  · rw [jobFrame_eq htag ht] at taken
    exact (taken empty standing room).2

theorem playHave_takes {p : PlayJob} {src : Nat} (hj : s.jobAt j = some job) (hb : job.body = .play p)
    (seeking : p.state = .seeking) (others : p.exclusion ≠ some src) : playHave j src stored s
      = giveGrant j src (putJob j { job with body := .play { p with
          state := .awaitingData, holder := some src, grantedBlocks := some stored, answerWindow := none, grantSent := false } } s) := by
  unfold playHave Job.playOf
  rw [hj, Option.bind_some, hb]
  refine (if_pos ⟨seeking, others⟩).trans ?_
  rw [modPlay_put _ hj hb]

theorem playHave_ignores {p : PlayJob} {src : Nat} (hj : s.jobAt j = some job) (hb : job.body = .play p)
    (ignores : p.state ≠ .seeking ∨ p.exclusion = some src) : playHave j src stored s = s := by
  unfold playHave Job.playOf
  rw [hj, Option.bind_some, hb]
  refine if_neg fun both => ?_
  exact ignores.elim (fun no => no both.1) both.2

theorem jobEntry_some {i : Nat} {e : Entry} (hj : s.jobAt j = some job) (hi : job.entry = some i) (he : s.entryAt i = some e) :
    s.jobEntry j = some (i, e) := by
  unfold State.jobEntry
  rw [hj, Option.bind_some, hi]
  dsimp only
  rw [he]
  rfl

theorem repairHave_takes {r : RepairJob} {src i : Nat} {e : Entry} (hj : s.jobAt j = some job) (hb : job.body = .repair r)
    (hi : job.entry = some i) (he : s.entryAt i = some e) (seeking : r.state = .seeking) (blocks : stored = e.storedBlocks)
    (same : check = e.check) : repairHave j src stored check s
      = giveGrant j src (putJob j { job with body := .repair { r with
          state := .awaitingData, holder := some src, answerWindow := none, grantSent := false } } s) := by
  unfold repairHave Job.repairOf
  rw [hj, Option.bind_some, hb, jobEntry_some hj hi he]
  refine (if_pos ⟨seeking, blocks, same⟩).trans ?_
  rw [modRepair_put _ hj hb]

theorem repairHave_ignores {r : RepairJob} {src i : Nat} {e : Entry} (hj : s.jobAt j = some job) (hb : job.body = .repair r)
    (hi : job.entry = some i) (he : s.entryAt i = some e)
    (ignores : r.state ≠ .seeking ∨ stored ≠ e.storedBlocks ∨ check ≠ e.check) : repairHave j src stored check s = s := by
  unfold repairHave Job.repairOf
  rw [hj, Option.bind_some, hb, jobEntry_some hj hi he]
  refine if_neg ?_
  rintro ⟨seeking, blocks, same⟩
  rcases ignores with no | no | no
  · exact no seeking
  · exact no blocks
  · exact no same

theorem playHave_frame (j src stored : Nat) (s : State) : ∃ jobs queue plain,
    playHave j src stored s = { s with jt.jobs := jobs, lif.queue := queue, hou.plain := plain } := by
  unfold playHave
  split
  · split
    · exact giveGrant_frame j src _ s
    · exact ⟨s.jt.jobs, s.lif.queue, s.hou.plain, rfl⟩
  · exact ⟨s.jt.jobs, s.lif.queue, s.hou.plain, rfl⟩

theorem repairHave_frame (j src stored : Nat) (check : Check) (s : State) : ∃ jobs queue plain,
    repairHave j src stored check s = { s with jt.jobs := jobs, lif.queue := queue, hou.plain := plain } := by
  unfold repairHave
  split
  · split
    · exact giveGrant_frame j src _ s
    · exact ⟨s.jt.jobs, s.lif.queue, s.hou.plain, rfl⟩
  · exact ⟨s.jt.jobs, s.lif.queue, s.hou.plain, rfl⟩

/-- What HOU makes of a HAVE (R103). -/
def houHave (f : Frame) (s : State) : State := if f.dir = .back then cancelHaves f.dst f s else s

theorem houHave_frame (f : Frame) (s : State) : ∃ answers, houHave f s = { s with hou.answers := answers } := by
  unfold houHave
  split
  · exact ⟨_, rfl⟩
  · exact ⟨s.hou.answers, rfl⟩

/-- A HAVE's uses in order (R75): CAT, the job, HOU. -/
theorem useHave_play {incomplete : Bool} {role : Role} {damaged : Nat} {p : PlayJob}
    (payload : f.payload = .haveTake incomplete role damaged stored check)
    (found : (learnHolder f.take f.src s).jobFor f = some (j, job)) (hb : job.body = .play p) :
    useHave f s = houHave f (playHave j f.src stored (learnHolder f.take f.src s)) := by
  unfold useHave houHave
  rw [payload]
  dsimp only
  rw [found]
  dsimp only
  rw [hb]

theorem useHave_repair {incomplete : Bool} {role : Role} {damaged : Nat} {r : RepairJob}
    (payload : f.payload = .haveTake incomplete role damaged stored check)
    (found : (learnHolder f.take f.src s).jobFor f = some (j, job)) (hb : job.body = .repair r) :
    useHave f s = houHave f (repairHave j f.src stored check (learnHolder f.take f.src s)) := by
  unfold useHave houHave
  rw [payload]
  dsimp only
  rw [found]
  dsimp only
  rw [hb]

/-- Before HOU's part a HAVE touches no answer and nothing on the medium. -/
theorem useHave_hou {incomplete : Bool} {role : Role} {damaged : Nat}
    (payload : f.payload = .haveTake incomplete role damaged stored check) (rising : smapRising s.cat.entries = true) :
    ∃ v, useHave f s = houHave f v ∧ v.hou.answers = s.hou.answers ∧ v.lif.sending = s.lif.sending := by
  obtain ⟨entries, mark, wt, learnt, -⟩ := learnHolder_spec f.take f.src rising
  have answers : (learnHolder f.take f.src s).hou.answers = s.hou.answers := by rw [learnt]
  have sending : (learnHolder f.take f.src s).lif.sending = s.lif.sending := by rw [learnt]
  cases found : (learnHolder f.take f.src s).jobFor f with
  | none =>
    refine ⟨_, ?_, answers, sending⟩
    unfold useHave houHave
    rw [payload]
    dsimp only
    rw [found]
  | some taker =>
    obtain ⟨j, job⟩ := taker
    cases hb : job.body with
    | play p =>
      obtain ⟨jobs, queue, plain, had⟩ := playHave_frame j f.src stored (learnHolder f.take f.src s)
      exact ⟨_, useHave_play payload found hb, by rw [had]; exact answers, by rw [had]; exact sending⟩
    | repair r =>
      obtain ⟨jobs, queue, plain, had⟩ := repairHave_frame j f.src stored check (learnHolder f.take f.src s)
      exact ⟨_, useHave_repair payload found hb, by rw [had]; exact answers, by rw [had]; exact sending⟩
    | _ =>
      refine ⟨_, ?_, answers, sending⟩
      unfold useHave houHave
      rw [payload]
      dsimp only
      rw [found]
      dsimp only
      rw [hb]

theorem exec_haveReceived (heard : s.lif.heard = some (.good f)) (kind : f.payload.kindCode = 2) :
    exec .haveReceived s = .next (settle (useHave f (s.taken f))) := takeFrameOf_good useHave heard kind

theorem addAddress_eq (a : Nat) (l : List Nat) :
    addAddress a l = if a ∈ l ∨ 4 ≤ l.length then l else l ++ [a] := by
  unfold addAddress
  exact if_congr (by simp) rfl rfl

end Have

/-- Settles O45: the HAVE's uses, one after another. -/
theorem haveIsGranted : Obligations.HaveIsGranted := by
  intro s f incomplete role damaged stored check sound heard payload
  obtain ⟨act, taken⟩ := taken_eq f s
  have row := exec_haveReceived heard (by rw [payload]; rfl)
  rw [taken] at row
  refine ⟨fun back => ?_, fun j job found => ?_⟩
  · intro mine
    obtain ⟨v, used, answers, sending⟩ :=
      useHave_hou (s := { s with lif.heard := none, act := act }) payload sound.2.1.1
    have cancels : houHave f v = cancelHaves f.dst f v := if_pos back
    obtain ⟨mineGone, othersStand⟩ :=
      removeAnswers_cancels (s := v) (p := fun r => r.isHave && r.answers f.dst f.tag f.take) fun _ => rfl
    rw [used, cancels] at row
    refine ⟨_, row, fun x hx is => ?_, fun x is => ?_⟩
    · have same : v.sendingAnswer = s.sendingAnswer := by rw [State.sendingAnswer, sending, State.sendingAnswer]
      exact same ▸ mineGone x hx ((isHave_answers_iff ..).mpr is)
    · exact (othersStand x fun h => is ((isHave_answers_iff ..).mp h)).trans (by rw [answers])
  · intro granted learned
    obtain ⟨hj, htag, ht, -⟩ := jobFor_spec sound found
    obtain ⟨entries, mark, wt, learnt, risen, gives, rest⟩ :=
      learnHolder_spec (s := { s with lif.heard := none, act := act }) f.take f.src sound.2.1.1
    obtain ⟨x, learns, is⟩ : ∃ x, learnHolder f.take f.src { s with lif.heard := none, act := act } = x
        ∧ x = { s with lif.heard := none, act := act, cat.entries := entries, cat.mark := mark, cat.wt := wt } :=
      ⟨_, learnt, rfl⟩
    have hx : x.jobAt j = some job := by rw [is]; exact hj
    have own : x.own = s.own := by rw [is]; rfl
    have standing : x.linkStanding = s.linkStanding := by rw [is]; rfl
    have queue : x.lif.queue = s.lif.queue := by rw [is]
    have jobs : ∀ k, x.jobAt k = s.jobAt k := fun k => by rw [is]; rfl
    have known : ∀ u : State, u.cat = x.cat → u.med = x.med → (∀ k, k ≠ j → u.jobAt k = s.jobAt k) → learned u := by
      intro u cat med others
      refine ⟨others, by rw [med, is], fun i e live => ?_, fun k apart => ?_⟩
      · obtain ⟨gives, marks⟩ := gives i e live
        rw [State.entryAt, cat, is]
        refine ⟨_, gives, rfl, addAddress_eq .., fun changed => marks fun same => changed ?_⟩
        rw [same]
      · rw [State.entryAt, cat, is]
        exact rest k apart
    have taker : x.jobFor f = some (j, job) := by rw [is]; exact found
    rw [← learns] at taker
    refine ⟨fun p hb => ?_, fun r i e hb hi he => ?_⟩
    · rw [useHave_play payload taker hb, learns] at row
      by_cases takes : p.state = .seeking ∧ p.exclusion ≠ some f.src
      · obtain ⟨seeking, others⟩ := takes
        obtain ⟨outbox, after, plain, gave, given⟩ := giveGrant_put (s := x) (j := j) (holder := f.src)
          { job with body := .play { p with state := .awaitingData, holder := some f.src, grantedBlocks := some stored,
                                            answerWindow := none, grantSent := false } } htag ht
        rw [standing, queue, own] at given
        rw [playHave_takes hx hb seeking others, gave] at row
        obtain ⟨answers, cancelled⟩ := houHave_frame f _
        rw [cancelled] at row
        refine ⟨_, row, known _ rfl rfl fun k hk => (smapGet_smapSet_ne _ _ hk).trans (jobs k),
          fun _ _ => ⟨⟨_, smapGet_smapSet_self .., rfl, rfl, rfl⟩, given⟩, fun no => ?_⟩
        exact no.elim (fun not => absurd seeking not) (fun is => absurd is others)
      · have ignores : p.state ≠ .seeking ∨ p.exclusion = some f.src := by
          by_cases seeking : p.state = .seeking
          · exact .inr (by_contra fun other => takes ⟨seeking, other⟩)
          · exact .inl seeking
        rw [playHave_ignores hx hb ignores] at row
        obtain ⟨answers, cancelled⟩ := houHave_frame f x
        rw [cancelled] at row
        exact ⟨_, row, known _ rfl rfl fun k _ => jobs k, fun seeking others => absurd ⟨seeking, others⟩ takes,
          fun _ => ⟨hx, queue⟩⟩
    · rw [useHave_repair payload taker hb, learns] at row
      obtain ⟨e', he', blocks, same⟩ : ∃ e', x.entryAt i = some e' ∧ e'.storedBlocks = e.storedBlocks
          ∧ e'.check = e.check := by
        rw [is]
        by_cases live : ∃ e, s.findTake f.take = some (i, e)
        · obtain ⟨e₁, live⟩ := live
          have is : e₁ = e := Option.some.inj ((entryAt_of_findTake sound.2.1.1 live).1.symm.trans he)
          subst is
          exact ⟨_, (gives i e₁ live).1, rfl, rfl⟩
        · exact ⟨e, (rest i fun i' e₁ h same => live ⟨e₁, same ▸ h⟩).trans he, rfl, rfl⟩
      by_cases takes : r.state = .seeking ∧ stored = e.storedBlocks ∧ check = e.check
      · obtain ⟨seeking, fits, agrees⟩ := takes
        obtain ⟨outbox, after, plain, gave, given⟩ := giveGrant_put (s := x) (j := j) (holder := f.src)
          { job with body := .repair { r with state := .awaitingData, holder := some f.src, answerWindow := none,
                                              grantSent := false } } htag ht
        rw [standing, queue, own] at given
        rw [repairHave_takes hx hb hi he' seeking (fits.trans blocks.symm) (agrees.trans same.symm), gave] at row
        obtain ⟨answers, cancelled⟩ := houHave_frame f _
        rw [cancelled] at row
        refine ⟨_, row, known _ rfl rfl fun k hk => (smapGet_smapSet_ne _ _ hk).trans (jobs k),
          fun _ _ _ => ⟨⟨_, smapGet_smapSet_self .., rfl, rfl, rfl⟩, given⟩, ?_⟩
        rintro (no | no | no)
        · exact absurd seeking no
        · exact absurd fits no
        · exact absurd agrees no
      · have ignores : r.state ≠ .seeking ∨ stored ≠ e.storedBlocks ∨ check ≠ e.check := by
          by_cases seeking : r.state = .seeking
          · by_cases fits : stored = e.storedBlocks
            · exact .inr (.inr fun agrees => takes ⟨seeking, fits, agrees⟩)
            · exact .inr (.inl fits)
          · exact .inl seeking
        rw [repairHave_ignores hx hb hi he' (by rw [blocks, same]; exact ignores)] at row
        obtain ⟨answers, cancelled⟩ := houHave_frame f x
        rw [cancelled] at row
        exact ⟨_, row, known _ rfl rfl fun k _ => jobs k, fun seeking fits agrees => absurd ⟨seeking, fits, agrees⟩ takes,
          fun _ => ⟨hx, queue⟩⟩

end Sys2Proof.Machine

/-! ## Proofs: SEEK, GRANT and PLACE reach the holder side

SUPPORT. A wake's effect (R175), HOU's new records (R90), the SERVE job of a GRANT (R149), the pledge of a PLACE (R117). -/

namespace Sys2Proof.Machine

section Wake
variable {s : State}

/-- ACT after a wake event (R175): DOZE and SLEEP are left for WAKING, 20 and 150 ms ahead. -/
structure WokenAct (s : State) (act : Act) : Prop where
  doze : s.act.state = .doze → act.state = .waking ∧ act.wakeAt = some (s.now + 20)
  sleep : s.act.state = .sleep → act.state = .waking ∧ act.wakeAt = some (s.now + 150)
  on : s.act.state = .active ∨ s.act.state = .waking → act.state = s.act.state ∧ act.wakeAt = s.act.wakeAt

theorem wake_spec (s : State) : ∃ act, wake s = { s with act := act } ∧ WokenAct s act := by
  unfold wake
  cases state : s.act.state with
  | active => exact ⟨_, rfl, by simp [state], by simp [state], fun _ => ⟨state.symm ▸ rfl, rfl⟩⟩
  | doze => exact ⟨_, rfl, fun _ => ⟨rfl, rfl⟩, by simp [state], by simp [state]⟩
  | sleep => exact ⟨_, rfl, by simp [state], fun _ => ⟨rfl, rfl⟩, by simp [state]⟩
  | waking => exact ⟨s.act, rfl, by simp [state], by simp [state], fun _ => ⟨rfl, rfl⟩⟩

/-- A reload leaves ACT's state and its wake timer (R172, R173). -/
theorem reload_spec (s : State) : ∃ act, reload s = { s with act := act } ∧ act.state = s.act.state
    ∧ act.wakeAt = s.act.wakeAt := by
  unfold reload
  split
  · exact ⟨s.act, rfl, rfl, rfl⟩
  · exact ⟨_, rfl, rfl, rfl⟩

theorem taken_spec (f : Frame) (s : State) : ∃ act, s.taken f = { s with lif.heard := none, act := act }
    ∧ act.state = s.act.state ∧ act.wakeAt = s.act.wakeAt := by
  unfold State.taken
  split
  · exact reload_spec (clearHeard s)
  · exact ⟨s.act, rfl, rfl, rfl⟩

/-- A job created in a state woken up to ACT's timer wakes the node (R172, R175). -/
theorem createJob_spec (make : Nat → Job) (s : State) : ∃ act, createJob make s
    = { s with jt := { jobs := smapSet s.jt.jobs s.freeRecord (make s.nextJobTag), nextTag := (s.nextJobTag + 1) % 256 },
               act := act } ∧ WokenAct s act := by
  obtain ⟨act, woken, doze, sleep, on⟩ := wake_spec (stopTimer (putJob (drawTag s).2.freeRecord (make (drawTag s).1) (drawTag s).2))
  exact ⟨act, woken, doze, sleep, on⟩

/-- A new record of HOU (R90): its slots are its base. -/
theorem newRecord_eq (f : Frame) (owner : Option Nat) (opener base : Nat) (bids : Option BidCount) (expiry : Option Nat)
    (order : Nat) : ∃ offset phase, s.newRecord f owner opener base bids expiry order
      = { frame := f, owner := owner, opener := opener, base := base, collisions := 0, slots := base, offset := offset,
          phase := phase, progress := 0, order := order, bids := bids, expiry := expiry, doomed := false } := by
  unfold State.newRecord State.begun
  split
  · unfold HoldRec.resume HoldRec.beginOffset
    dsimp only
    split
    · exact ⟨_, _, rfl⟩
    · exact ⟨_, _, rfl⟩
  · exact ⟨_, _, rfl⟩

/-- HOU takes a HAVE (R90). -/
theorem houTakes_have {opener tag : Nat} {take : TakeNo} (standing : s.linkStanding = true)
    (fresh : ∀ r ∈ s.hou.answers, r.isHave = true → r.answers opener tag take = false)
    (room : s.hou.answers.countP HoldRec.isHave < 6) : s.houTakes true opener tag take = true := by
  have none : s.hou.answers.any (fun r => r.isHave == true && r.answers opener tag take) = false := by
    rw [List.any_eq_false]
    intro r mem both
    rw [Bool.and_eq_true, beq_iff_eq] at both
    exact absurd (fresh r mem both.1) (by rw [both.2]; decide)
  unfold State.houTakes
  rw [standing, none, decide_eq_false (by omega : ¬ 6 ≤ s.hou.answers.countP HoldRec.isHave)]
  rfl

/-- HOU takes a BID (R90). -/
theorem houTakes_bid {opener tag : Nat} {take : TakeNo} (standing : s.linkStanding = true)
    (fresh : ∀ r ∈ s.hou.answers, r.isHave = false → r.answers opener tag take = false) :
    s.houTakes false opener tag take = true := by
  have none : s.hou.answers.any (fun r => r.isHave == false && r.answers opener tag take) = false := by
    rw [List.any_eq_false]
    intro r mem both
    rw [Bool.and_eq_true, beq_iff_eq] at both
    exact absurd (fresh r mem both.1) (by rw [both.2]; decide)
  unfold State.houTakes
  rw [standing, none]
  rfl

end Wake

section Seek
variable {s : State} {f : Frame} {e : Entry} {i : Nat}

theorem exec_seekReceived (heard : s.lif.heard = some (.good f)) (kind : f.payload.kindCode = 1) :
    exec .seekReceived s = .next (settle (useSeek f (s.taken f))) := takeFrameOf_good useSeek heard kind

theorem playableEntry_of_absent {t : TakeNo} (absent : s.findTake t = none) : s.playableEntry t = none := by
  unfold State.playableEntry
  rw [absent]

/-- The stretch or range test of a SEEK (R148, R166). -/
theorem answersSeek_iff {start first count : Nat} {purpose : Purpose} : e.answersSeek start purpose first count = true
    ↔ purpose = .play ∧ start < e.timelineLength
      ∨ purpose = .repair ∧ first ≠ 0 ∧ first + count - 1 < e.storedBlocks ∧ e.overflow = false
          ∧ ∀ q ∈ e.damaged, ¬ (first ≤ q ∧ q < first + count) := by
  cases purpose <;> simp [Entry.answersSeek, and_assoc]

/-- A SEEK that the holder side answers (R148, R166). -/
theorem useSeek_answers {start frames first count : Nat} {purpose : Purpose} {exclusion : List Nat}
    (payload : f.payload = .seek start frames purpose first count exclusion) (found : s.playableEntry f.take = some (i, e))
    (may : s.holderMay exclusion = true) (answers : e.answersSeek start purpose first count = true) :
    useSeek f s = answerSeek f e purpose start frames first count s := by
  unfold useSeek
  rw [payload]
  dsimp only
  rw [found]
  exact if_pos (by rw [may, answers]; rfl)

theorem useSeek_absent {start frames first count : Nat} {purpose : Purpose} {exclusion : List Nat}
    (payload : f.payload = .seek start frames purpose first count exclusion) (absent : s.playableEntry f.take = none) :
    useSeek f s = s := by
  unfold useSeek
  rw [payload]
  dsimp only
  rw [absent]

theorem jobFree_iff : s.jobFree = true ↔ s.jt.jobs.length < 8 := decide_eq_true_iff

theorem holderMay_iff {exclusion : List Nat} : s.holderMay exclusion = true ↔ s.linkStanding = true ∧ s.own ∉ exclusion
    ∧ s.countKind .serve < 3 ∧ s.jt.jobs.length < 8 ∧ s.notes.length < 6 := by
  simp only [State.holderMay, jobFree_iff, Bool.and_eq_true, decide_eq_true_iff, Bool.not_eq_true',
    List.contains_eq_mem, decide_eq_false_iff_not, and_assoc]

end Seek

/-- Settles O43: the answer drawn is a record of HOU, a note and a wake. -/
theorem seekDrawsAHave : Obligations.SeekDrawsAHave := by
  intro s f start frames first count purpose exclusion heard payload
  have row := exec_seekReceived heard (by rw [payload]; rfl)
  refine ⟨fun i e found standing others serves jobs notes tests fresh room => ?_, fun absent away => ?_⟩
  · obtain ⟨act, taken, state, wakeAt⟩ := taken_spec f s
    rw [taken] at row
    let w : State := { s with lif.heard := none, act := act }
    have may : w.holderMay exclusion = true := holderMay_iff.mpr ⟨standing, others, serves, jobs, notes⟩
    rw [useSeek_answers (s := w) payload found may (answersSeek_iff.mpr tests)] at row
    obtain ⟨act', reloaded, state', wakeAt'⟩ := reload_spec w
    obtain ⟨act'', woken, doze, sleep, on⟩ := wake_spec (reload w)
    rw [reloaded] at woken doze sleep on
    have takes : (wake (reload w)).houTakes true f.src f.tag f.take = true := by
      rw [reloaded, woken]
      exact houTakes_have standing fresh room
    have same : act'.state = s.act.state := state'.trans state
    let note : AnswerNote := { requester := f.src, tag := f.tag, take := f.take, purpose := purpose, start := start,
                               frames := frames, first := first, count := count, lapse := s.now + 1000 }
    let x : State := keepNote note { w with act := act'' }
    obtain ⟨offset, phase, record⟩ := newRecord_eq (s := x) (x.haveFrame f e) none f.src (w.haveBase w.act.state e) none
      (some (s.now + 250)) s.hou.nextOrder
    have answered : answerSeek f e purpose start frames first count w
        = addAnswer (x.haveFrame f e) none f.src (w.haveBase w.act.state e) none (some (s.now + 250)) x := by
      unfold answerSeek
      refine (if_pos takes).trans ?_
      rw [reloaded, woken]
      rfl
    rw [answered] at row
    refine ⟨_, _, row, rfl, rfl, ?_⟩
    rw [show x.newRecord _ _ _ _ _ _ x.hou.nextOrder = _ from record]
    refine ⟨rfl, rfl, rfl, rfl, rfl, ?_, rfl, fun h => doze (same.trans h), fun h => sleep (same.trans h), fun h => ?_, rfl⟩
    · show clampSlots (6 * s.jt.jobs.length + wakePenalty act.state + _ + _ + _) = _
      rw [state]
      cases s.act.state <;> rfl
    · obtain ⟨stays, timer⟩ := on (by rw [show act'.state = _ from same]; exact h)
      exact ⟨stays.trans same, timer.trans (wakeAt'.trans wakeAt)⟩
  · rw [taken_other away, useSeek_absent (s := { s with lif.heard := none }) payload (playableEntry_of_absent absent)] at row
    exact row

section Serve
variable {s : State} {f : Frame} {n : AnswerNote} {i : Nat} {e : Entry}

theorem exec_grantReceived (heard : s.lif.heard = some (.good f)) (kind : f.payload.kindCode = 3) :
    exec .grantReceived s = .next (settle (useGrant f (s.taken f))) := takeFrameOf_good useGrant heard kind

/-- A GRANT's uses where a note of its exchange waits (R103, R149). -/
theorem useGrant_noted {holder : Nat} (payload : f.payload = .grant holder) (outward : f.dir = .out)
    (noted : s.noteFor f = some n) : ∃ answers, useGrant f s
      = (if holder = s.own then serveIfFree n { s with hou.answers := answers, notes := s.notes.filter (fun x => x ≠ n) }
         else { s with hou.answers := answers, notes := s.notes.filter (fun x => x ≠ n) })
      ∧ ∀ r ∈ answers, r.isHave = true → r.answers f.src f.tag f.take = true → r.doomed = true := by
  refine ⟨(cancelHaves f.src f s).hou.answers, ?_, fun r mem isHave answers => ?_⟩
  · have still : (cancelHaves f.src f s).noteFor f = some n := noted
    unfold useGrant
    rw [payload]
    dsimp only
    rw [if_pos outward, still]
    rfl
  · obtain ⟨gone, -⟩ := removeAnswers_cancels (s := s) (p := fun r => r.isHave && r.answers f.src f.tag f.take) fun _ => rfl
    exact (gone r mem (by rw [isHave, answers]; rfl)).1

/-- The SERVE job of a note (R149), before its window is committed. -/
def AnswerNote.serves (n : AnswerNote) : ServeJob :=
  { purpose := n.purpose, start := n.start, frames := n.frames, first := n.first, count := n.count }

/-- The SERVE job that a GRANT begins (R125, R149): the first eight blocks of its run are read. -/
theorem createServe_eq (he : s.entryAt i = some e) : ∃ act t job, createServe n i e s
      = { s with jt := { jobs := smapSet s.jt.jobs s.freeRecord job, nextTag := (s.nextJobTag + 1) % 256 },
                 cat.entries := smapSet s.cat.entries i { e with jobRefs := e.jobRefs + 1 }, act := act }
    ∧ job.body = .serve n.serves ∧ job.opener = n.requester ∧ job.exTag = some n.tag ∧ job.take = some n.take
    ∧ job.tag = s.nextJobTag ∧ job.entry = some i ∧ job.snd = some t ∧ t.members.map (·.address) = [n.requester]
    ∧ t.run = n.serves.run e ∧ t.next = min 8 t.run.total
    ∧ job.reqs = (List.range (min 8 t.run.total)).map (fun p => .read (t.run.seqAt p)) := by
  let snd := newSender (n.serves.run e) [newMember s.now n.requester 0 .sending]
  let make : Nat → Job := fun tag =>
    { freshJob tag n.requester (some n.tag) (some n.take) (.serve n.serves) with snd := some snd }
  have limit : max snd.next snd.limit = min 8 (n.serves.run e).total ∧ snd.limit - snd.next = min 8 (n.serves.run e).total := by
    by_cases empty : (n.serves.run e).total = 0
    · have none : snd.limit = 0 := by
        have receipted : snd.waitedFor = [] := by simp [Sender.waitedFor, snd, newSender, newMember, Sender.receipted, empty]
        unfold Sender.limit
        rw [receipted]
        rfl
      rw [none, empty]
      exact ⟨rfl, rfl⟩
    · have waits : snd.waitedFor = [newMember s.now n.requester 0 .sending] := by
        have owing : (0 == (n.serves.run e).total) = false := by simpa using Ne.symm empty
        simp [Sender.waitedFor, snd, newSender, newMember, Sender.receipted, owing]
      rw [limit_eq (by rw [waits]; simp), waits]
      show max 0 (min (n.serves.run e).total (0 + 8)) = _ ∧ min (n.serves.run e).total (0 + 8) - 0 = _
      omega
  obtain ⟨act, created⟩ := createHeld_eq make he
  have committed : commit { make s.nextJobTag with entry := some i }
      = { make s.nextJobTag with
          entry := some i, snd := some { snd with next := max snd.next snd.limit },
          reqs := (List.range (min 8 (n.serves.run e).total)).map fun p => .read (snd.run.seqAt p) } := by
    have positions : List.range' snd.next (snd.limit - snd.next) = List.range (min 8 (n.serves.run e).total) := by
      rw [limit.2]
      exact List.range_eq_range'.symm
    rw [commit_eq (t := snd) rfl, positions]
    rfl
  refine ⟨act, { snd with next := max snd.next snd.limit }, { make s.nextJobTag with
      entry := some i, snd := some { snd with next := max snd.next snd.limit },
      reqs := (List.range (min 8 (n.serves.run e).total)).map fun p => .read (snd.run.seqAt p) }, ?_, rfl, rfl, rfl, rfl, rfl, rfl, rfl, rfl, rfl, limit.1, rfl⟩
  show modJob s.freeRecord commit (holdEntry s.freeRecord i (createJob make s)) = _
  rw [created, modJob_eq (job := { make s.nextJobTag with entry := some i }) commit (by exact smapGet_smapSet_self ..), committed]
  dsimp only
  rw [smapSet_smapSet]

theorem serveIfFree_serves (found : s.playableEntry n.take = some (i, e)) (standing : s.linkStanding = true)
    (serves : s.countKind .serve < 3) (free : s.jt.jobs.length < 8) : serveIfFree n s = createServe n i e s := by
  unfold serveIfFree
  rw [found]
  exact if_pos (by simp [standing, serves, State.jobFree, State.liveJobs, free])

/-- The stored frames before an offset (R143), a gap that starts at the offset or later counting nothing. -/
theorem storedBefore_eq (gaps : List Gap) (t : Nat) :
    storedBefore gaps t = t - (gaps.map fun g => if g.start < t then min g.length (t - g.start) else 0).sum := by
  unfold storedBefore gapFramesBelow
  refine congrArg (fun l : List Nat => t - l.sum) (List.map_congr_left fun g _ => ?_)
  split
  · rfl
  · omega

/-- The run of a stretch (R123, R143): the head block, and the blocks of its first and its last stored frame. -/
theorem serves_run_play (play : n.purpose = .play) : n.serves.run e
    = (if storedBefore e.gaps n.start < storedBefore e.gaps (stretchEnd e.timelineLength n.start n.frames) then
        { head := true, first := storedBefore e.gaps n.start / e.format.perBlock + 1,
          count := ((storedBefore e.gaps (stretchEnd e.timelineLength n.start n.frames) - 1) / e.format.perBlock + 1)
            - (storedBefore e.gaps n.start / e.format.perBlock + 1) + 1 }
       else { head := true, first := 1, count := 0 }) := by
  have run : n.serves.run e = e.shape.run n.start n.frames := by
    rw [ServeJob.run, show n.serves.purpose = .play from play]
    rfl
  rw [run]
  unfold TakeShape.run TakeShape.blocks stretchBlocks
  dsimp only [Entry.shape]
  split
  next stored =>
    have order := Nat.div_le_div_right (c := e.format.perBlock)
      (show storedBefore e.gaps n.start ≤ storedBefore e.gaps (stretchEnd e.timelineLength n.start n.frames) - 1 by omega)
    refine congrArg (fun c => ({ head := true, first := _, count := c } : Run)) ?_
    omega
  next => rfl

theorem serves_run_repair (repair : n.purpose = .repair) :
    n.serves.run e = { head := false, first := n.first, count := n.count } := by
  rw [ServeJob.run, show n.serves.purpose = .repair from repair]
  rfl

end Serve

/-- Settles O44: `useGrant` and the SERVE job that `createServe` makes. -/
theorem grantStartsServing : Obligations.GrantStartsServing := by
  intro s f holder n sound heard payload outward noted
  obtain ⟨act, taken⟩ := taken_eq f s
  have row := exec_grantReceived heard (by rw [payload]; rfl)
  rw [taken] at row
  obtain ⟨answers, used, doomed⟩ := useGrant_noted (s := { s with lif.heard := none, act := act }) payload outward noted
  rw [used] at row
  refine ⟨fun other => ?_, fun i e named found standing serves free => ?_⟩
  · rw [if_neg (by exact other)] at row
    exact ⟨_, row, rfl, rfl, rfl, rfl, doomed⟩
  · have ofExchange : n.requester = f.src ∧ n.tag = f.tag ∧ n.take = f.take := by
      have is := List.find?_some noted
      simpa [AnswerNote.of, and_assoc] using is
    obtain ⟨requester, tag, take⟩ := ofExchange
    let v : State := { s with lif.heard := none, act := act, hou.answers := answers, notes := s.notes.filter (fun x => x ≠ n) }
    have he : v.entryAt i = some e := (entryAt_of_playableEntry sound.2.1.1 found).1
    rw [if_pos (by exact named), serveIfFree_serves (s := v) (by rw [take]; exact found) standing serves free] at row
    obtain ⟨act', t, job, created, body, opener, exTag, jobTake, jobTag, entry, snd, members, run, next, reqs⟩ :=
      createServe_eq (n := n) he
    rw [created] at row
    refine ⟨_, s.freeRecord, job, _, t, row, rfl, ?_, smapGet_smapSet_self .., body, rfl, opener.trans requester,
      exTag.trans (by rw [tag]), jobTake.trans (by rw [take]), jobTag.trans (nextJobTag_congr rfl), entry, smapGet_smapSet_self .., snd,
      members.trans (by rw [requester]), ?_, next, reqs, fun k hk => smapGet_smapSet_ne _ _ hk,
      fun k hk => smapGet_smapSet_ne _ _ hk, rfl, doomed⟩
    · exact jobAt_freeRecord sound.1
    · rw [run]
      cases purpose : n.purpose with
      | play =>
        rw [serves_run_play purpose, storedBefore_eq, storedBefore_eq]
        rfl
      | repair => exact serves_run_repair purpose

section Bid
variable {s : State} {f : Frame} {stored copies wanted : Nat} {format : Format} {exclusion : List Nat}

theorem exec_placeReceived (heard : s.lif.heard = some (.good f)) (kind : f.payload.kindCode = 4) :
    exec .placeReceived s = .next (settle (usePlace f (s.taken f))) := takeFrameOf_good usePlace heard kind

/-- The bidder's test (R116). -/
theorem bidderPasses_iff {take : TakeNo} (sound : s.Sound) : s.bidderPasses take stored exclusion = true
    ↔ s.linkStanding = true ∧ s.own ∉ exclusion ∧ s.findTake take = none ∧ s.cat.entries.length + s.cat.reserved < 2048
      ∧ s.jt.jobs.length < 8 ∧ s.countKind .receive < 2
      ∧ (∀ k job, s.jobAt k = some job → job.kind = .receive → job.take ≠ some take)
      ∧ s.med.pledged + (stored + 4095) / 4096 + 8 ≤ s.med.free := by
  have full : s.catalogueFull = false ↔ s.cat.entries.length + s.cat.reserved < 2048 :=
    decide_eq_false_iff_not.trans Nat.not_le
  have copying : s.jt.jobs.any (fun p => p.2.kind == .receive && p.2.take == some take) = false
      ↔ ∀ k job, s.jobAt k = some job → job.kind = .receive → job.take ≠ some take := by
    rw [← Bool.not_eq_true]
    refine (not_congr (any_jobs_iff sound.1.1 (fun job => job.kind == .receive && job.take == some take))).trans ?_
    simp
  simp only [State.bidderPasses, jobFree_iff, Bool.and_eq_true, decide_eq_true_iff, Bool.not_eq_true', List.contains_eq_mem,
    decide_eq_false_iff_not, Option.isNone_iff_eq_none, full, copying, and_assoc]
  exact Iff.rfl

/-- The RECEIVE job of a bid (R117). -/
def pledgedJob (stored copies wanted : Nat) (format : Format) (exclusion : List Nat) (now : Nat) : ReceiveJob :=
  { receiving := false, storedBlocks := stored, format := format, copiesWanted := copies, wanted := wanted,
    exclusion := exclusion, pledge := chunksNeeded stored, timer := some (now + 300), bid := .pending, assigned := [],
    matched := none }

/-- The node bids (R117): the job, its space, the BID's record and a wake. -/
theorem makeBid_eq (standing : s.linkStanding = true)
    (fresh : ∀ r ∈ s.hou.answers, r.isHave = false → r.answers f.src f.tag f.take = false) : ∃ act x b, WokenAct s act
    ∧ x = { s with
        jt := { jobs := smapSet s.jt.jobs s.freeRecord (freshJob s.nextJobTag f.src (some f.tag) (some f.take)
                  (.receive (pledgedJob stored copies wanted format exclusion s.now))),
                nextTag := (s.nextJobTag + 1) % 256 },
        act := act, cat.reserved := s.cat.reserved + 1, med.pledged := s.med.pledged + chunksNeeded stored }
    ∧ makeBid f stored format copies wanted exclusion s
        = { x with hou.answers := s.hou.answers ++ [b], hou.nextOrder := s.hou.nextOrder + 1 }
    ∧ b.owner = some s.freeRecord ∧ b.slots = b.base ∧ b.expiry = none
    ∧ b.frame = { src := s.own, dst := f.src, dir := .back, tag := f.tag, take := f.take,
                  payload := .bid (s.med.free - (s.med.pledged + chunksNeeded stored)) }
    ∧ b.base = x.bidBase s.act.state := by
  obtain ⟨act, created, woken⟩ := createJob_spec (fun tag => freshJob tag f.src (some f.tag) (some f.take)
    (.receive (pledgedJob stored copies wanted format exclusion s.now))) s
  let x : State := { s with
    jt := { jobs := smapSet s.jt.jobs s.freeRecord (freshJob s.nextJobTag f.src (some f.tag) (some f.take)
              (.receive (pledgedJob stored copies wanted format exclusion s.now))),
            nextTag := (s.nextJobTag + 1) % 256 },
    act := act, cat.reserved := s.cat.reserved + 1, med.pledged := s.med.pledged + chunksNeeded stored }
  let bid : Frame := { src := s.own, dst := f.src, dir := .back, tag := f.tag, take := f.take,
                       payload := .bid (s.med.free - (s.med.pledged + chunksNeeded stored)) }
  obtain ⟨offset, phase, record⟩ := newRecord_eq (s := x) bid (some s.freeRecord) f.src (x.bidBase s.act.state)
    (some { wanted := wanted, exclusion := exclusion, heard := [] }) none s.hou.nextOrder
  have takes : x.houTakes false f.src f.tag f.take = true := houTakes_bid (s := x) standing fresh
  let make : Nat → Job := fun tag => freshJob tag f.src (some f.tag) (some f.take)
    (.receive (pledgedJob stored copies wanted format exclusion s.now))
  let made : State :=
    takePledge (chunksNeeded stored) { createJob make s with cat.reserved := (createJob make s).cat.reserved + 1 }
  have is : made = x := by
    show takePledge _ { createJob make s with cat.reserved := _ } = x
    rw [created]
    rfl
  have bids : makeBid f stored format copies wanted exclusion s
      = if made.houTakes false f.src f.tag f.take then
          addAnswer { src := made.own, dst := f.src, dir := .back, tag := f.tag, take := f.take,
                      payload := .bid (made.med.free - made.med.pledged) } (some s.freeRecord) f.src
            (made.bidBase s.act.state) (some { wanted := wanted, exclusion := exclusion, heard := [] }) none made
        else endJob s.freeRecord .linkCongested none made := rfl
  rw [is, if_pos takes] at bids
  refine ⟨act, x, x.newRecord bid (some s.freeRecord) f.src (x.bidBase s.act.state)
    (some { wanted := wanted, exclusion := exclusion, heard := [] }) none s.hou.nextOrder, woken, rfl, bids, ?_⟩
  rw [record]
  exact ⟨rfl, rfl, rfl, rfl, rfl⟩

theorem usePlace_bids (payload : f.payload = .place stored format copies wanted exclusion)
    (passes : s.bidderPasses f.take stored exclusion = true) :
    usePlace f s = makeBid f stored format copies wanted exclusion (reload s) := by
  unfold usePlace
  rw [payload]
  exact if_pos passes

theorem usePlace_fails (payload : f.payload = .place stored format copies wanted exclusion)
    (fails : s.bidderPasses f.take stored exclusion = false) : usePlace f s = s := by
  unfold usePlace
  rw [payload]
  exact if_neg (by rw [fails]; decide)

/-- An item more in a canonical table that held none for its number. -/
theorem length_smapSet_of_none {α : Type} {m : SMap α} {k : Nat} (a : α) (none : smapGet m k = none) :
    (smapSet m k a).length = m.length + 1 := by
  induction m with
  | nil => rfl
  | cons p rest ih =>
    obtain ⟨n, b⟩ := p
    by_cases is : k = n
    · simp [smapGet, is] at none
    · rw [smapGet, if_neg is] at none
      unfold smapSet
      rw [if_neg is]
      split
      · rfl
      · exact congrArg Nat.succ (ih none)

end Bid

/-- Settles O46: the bidder's test, and what `makeBid` makes. -/
theorem placeDrawsABid : Obligations.PlaceDrawsABid := by
  intro s f stored copies wanted format exclusion sound heard payload
  have row := exec_placeReceived heard (by rw [payload]; rfl)
  obtain ⟨act, taken, state, wakeAt⟩ := taken_spec f s
  refine ⟨fun standing others absent catalogue jobs receives alone room fresh => ?_, fun fails away => ?_⟩
  · rw [taken] at row
    let w : State := { s with lif.heard := none, act := act }
    have passes : w.bidderPasses f.take stored exclusion = true :=
      (bidderPasses_iff (s := w) sound).mpr ⟨standing, others, absent, catalogue, jobs, receives, alone, room⟩
    obtain ⟨act', reloaded, state', -⟩ := reload_spec w
    let v : State := { w with act := act' }
    have same : v.act.state = s.act.state := state'.trans state
    obtain ⟨act'', x, b, woken, is, bids, owner, slots, expiry, frame, base⟩ := makeBid_eq (s := v) (f := f) (stored := stored)
      (copies := copies) (wanted := wanted) (format := format) (exclusion := exclusion) standing fresh
    rw [usePlace_bids (s := w) payload passes, reloaded, bids] at row
    have grown : x.jt.jobs.length = s.jt.jobs.length + 1 := by
      rw [is]
      exact length_smapSet_of_none _ (jobAt_freeRecord (s := v) sound.1)
    let pledged := pledgedJob stored copies wanted format exclusion s.now
    let job := freshJob v.nextJobTag f.src (some f.tag) (some f.take) (.receive pledged)
    refine ⟨_, s.freeRecord, job, pledged, b, row, jobAt_freeRecord sound.1, ?_, rfl, rfl, rfl, rfl, rfl, rfl, rfl, rfl, rfl, rfl, rfl, rfl,
      rfl, rfl, ?_, fun k hk => ?_, by rw [is], by rw [is]; rfl, rfl, owner, slots, expiry, frame, ?_, fun doze => ?_⟩
    · rw [is]
      exact smapGet_smapSet_self ..
    · exact nextJobTag_congr rfl
    · rw [is]
      exact smapGet_smapSet_ne _ _ hk
    · rw [base, same]
      show clampSlots (bidCurve x.sul.cfg.knots x.fillFraction + 6 * x.jt.jobs.length + wakePenalty s.act.state) = _
      rw [grown, is]
      cases s.act.state <;> rfl
    · rw [is]
      exact woken.doze (same.trans doze)
  · have refused : s.bidderPasses f.take stored exclusion = false := by
      rw [← Bool.not_eq_true, bidderPasses_iff sound]
      rintro ⟨standing, others, absent, -⟩
      rcases fails with own | held | silent
      · exact others own
      · exact held absent
      · exact absurd (standing.symm.trans silent) (by decide)
    rw [taken_other away, usePlace_fails (s := { s with lif.heard := none }) payload refused] at row
    exact row

end Sys2Proof.Machine

/-! ## Proofs: BID and ASSIGN at the bidder and at the origin

SUPPORT. BID records counted and cancelled (R104, R118), the bid list (R108, R109), the copy that an ASSIGN begins (R119). -/

namespace Sys2Proof.Machine

section BidRecords
variable {s : State} {f : Frame} {opener : Nat} {r : HoldRec} {b : BidCount}

/-- A BID record of an exchange. -/
def HoldRec.bidsFor (opener : Nat) (f : Frame) (r : HoldRec) : Bool := !r.isHave && r.answers opener f.tag f.take

theorem bidsFor_iff : r.bidsFor opener f = true
    ↔ r.bids ≠ none ∧ r.opener = opener ∧ r.frame.tag = f.tag ∧ r.frame.take = f.take := by
  simp [HoldRec.bidsFor, HoldRec.isHave, HoldRec.answers, and_assoc, Option.isSome_iff_ne_none]

theorem bidRecord_none (foreign : ∀ x ∈ s.hou.answers, ¬ x.bidsFor opener f = true) : s.bidRecord opener f = none :=
  List.find?_eq_none.mpr foreign

theorem bidRecord_unique (mem : r ∈ s.hou.answers) (mine : r.bidsFor opener f = true)
    (unique : ∀ x ∈ s.hou.answers, x.bidsFor opener f = true → x = r) : s.bidRecord opener f = some r := by
  have some : (s.bidRecord opener f).isSome = true := List.find?_isSome.mpr ⟨r, mem, mine⟩
  obtain ⟨x, found⟩ := Option.isSome_iff_exists.mp some
  rw [found, unique x (List.mem_of_find?_eq_some found) (List.find?_some found)]

/-- A record cancelled by its number takes with it every record that could be of the exchange (R104). -/
theorem cancels_by_order (same : ∀ x ∈ s.hou.answers, x.bidsFor opener f = true → x.order = r.order) :
    ∀ x ∈ (removeAnswers (fun x => x.order == r.order) s).hou.answers, x.bidsFor opener f = true →
      x.doomed = true ∧ s.sendingAnswer = some x.order := by
  intro x mem mine
  obtain ⟨gone, rest⟩ := removeAnswers_cancels (s := s) (p := fun x => x.order == r.order) fun _ => rfl
  refine gone x mem ?_
  by_contra other
  exact other (beq_iff_eq.mpr (same x ((rest x other).mp mem) mine))

/-- Cancelling a record whose job is PLEDGED no longer ends nothing (R104). -/
theorem cancelBid_free (free : ∀ j job, r.owner = some j → s.jobAt j = some job → job.pledged = false) :
    cancelBid r s = removeAnswers (fun x => x.order == r.order) s := by
  unfold cancelBid
  dsimp only
  split
  next j owner =>
    split
    next job found => exact if_neg (by rw [free j job owner found]; decide)
    next => rfl
  next => rfl

theorem cancelBid_ends {j : Nat} {job : Job} (owner : r.owner = some j) (hj : s.jobAt j = some job) (pledged : job.pledged = true) :
    cancelBid r s = endJob j .cancelled none (removeAnswers (fun x => x.order == r.order) s) := by
  have still : (removeAnswers (fun x => x.order == r.order) s).jobAt j = some job := hj
  unfold cancelBid
  rw [owner]
  dsimp only
  rw [still]
  exact if_pos pledged

/-- The records of an exchange after a change of its bidder counts. -/
theorem modBids_eq (opener : Nat) (f : Frame) (g : BidCount → BidCount) (s : State) : modBids opener f g s
    = { s with hou.answers := s.hou.answers.map fun x => if x.bidsFor opener f = true then { x with bids := x.bids.map g } else x } :=
  rfl

theorem modBids_none (g : BidCount → BidCount) (foreign : ∀ x ∈ s.hou.answers, ¬ x.bidsFor opener f = true) :
    modBids opener f g s = s := by
  have same : (s.hou.answers.map fun x => if x.bidsFor opener f = true then { x with bids := x.bids.map g } else x)
      = s.hou.answers := (List.map_congr_left fun x mem => if_neg (foreign x mem)).trans (List.map_id _)
  rw [modBids_eq, same]

/-- A change of the bidder counts of an exchange of which HOU holds one record. -/
theorem modBids_unique (g : BidCount → BidCount) (mine : r.bidsFor opener f = true)
    (unique : ∀ x ∈ s.hou.answers, x.bidsFor opener f = true → x = r) (bids : r.bids = some b) : modBids opener f g s
      = { s with hou.answers := s.hou.answers.map fun x => if x = r then { x with bids := some (g b) } else x } := by
  rw [modBids_eq]
  refine congrArg (fun l => ({ s with hou.answers := l } : State)) (List.map_congr_left fun x hx => ?_)
  by_cases is : x = r
  · rw [if_pos (by rw [is]; exact mine), if_pos is, is, bids]
    rfl
  · rw [if_neg fun also => is (unique x hx also), if_neg is]

/-- A BID of an exchange of which HOU holds no record (R104). -/
theorem houBid_none (foreign : ∀ x ∈ s.hou.answers, ¬ x.bidsFor f.dst f = true) : houBid f s = s := by
  unfold houBid
  split
  · rw [modBids_none _ foreign]
    dsimp only
    rw [bidRecord_none foreign]
  · rfl

/-- A bidder counted (R104). -/
theorem count_counted (known : f.src ∈ b.exclusion ∨ f.src ∈ b.heard) : b.count f.src = b :=
  if_pos (by simpa using known)

theorem count_new (excluded : f.src ∉ b.exclusion) (new : f.src ∉ b.heard) :
    b.count f.src = { b with heard := b.heard ++ [f.src] } :=
  if_neg (by simpa using ⟨excluded, new⟩)

/-- The record after the bidder is counted, and where it stands. -/
theorem houBid_unique (back : f.dir = .back) (mem : r ∈ s.hou.answers) (mine : r.bidsFor f.dst f = true)
    (unique : ∀ x ∈ s.hou.answers, x.bidsFor f.dst f = true → x = r) (bids : r.bids = some b) :
    ∃ v, v = { s with hou.answers := s.hou.answers.map fun x => if x = r then { x with bids := some (b.count f.src) } else x }
      ∧ (∀ x ∈ v.hou.answers, x.bidsFor f.dst f = true → x.order = r.order)
      ∧ houBid f s = if b.wanted ≤ (b.count f.src).heard.length then cancelBid { r with bids := some (b.count f.src) } v else v := by
  refine ⟨_, rfl, ?_, ?_⟩
  · intro x hx also
    obtain ⟨y, hy, is⟩ := List.mem_map.mp hx
    by_cases same : y = r
    · rw [if_pos same, same] at is
      rw [← is]
    · rw [if_neg same] at is
      subst is
      exact absurd (unique y hy also) same
  · have still : HoldRec.bidsFor f.dst f { r with bids := some (b.count f.src) } = true := by
      rw [bidsFor_iff] at mine ⊢
      exact ⟨by simp, mine.2⟩
    have found : ({ s with hou.answers := s.hou.answers.map fun x =>
        if x = r then { x with bids := some (b.count f.src) } else x } : State).bidRecord f.dst f
        = some { r with bids := some (b.count f.src) } := by
      refine bidRecord_unique (List.mem_map.mpr ⟨r, mem, if_pos rfl⟩) still fun x hx also => ?_
      obtain ⟨y, hy, is⟩ := List.mem_map.mp hx
      by_cases same : y = r
      · rw [if_pos same, same] at is
        exact is.symm
      · rw [if_neg same] at is
        subst is
        exact absurd (unique y hy also) same
    have wanted : (b.count f.src).wanted = b.wanted := by
      unfold BidCount.count
      split <;> rfl
    unfold houBid
    rw [if_pos back, modBids_unique _ mine unique bids]
    dsimp only
    rw [found]
    dsimp only
    rw [wanted]

end BidRecords

section BidRow
variable {s : State} {f : Frame} {j i : Nat} {job : Job} {r : ReplicateJob} {e : Entry} {free : Nat}

theorem exec_bidReceived (heard : s.lif.heard = some (.good f)) (kind : f.payload.kindCode = 5) :
    exec .bidReceived s = .next (settle (useBid f (s.taken f))) := takeFrameOf_good useBid heard kind

theorem useBid_taken (payload : f.payload = .bid free) (found : s.jobFor f = some (j, job)) :
    useBid f s = houBid f (takeBid j f.src free s) := by
  unfold useBid
  rw [payload]
  dsimp only
  rw [found]

theorem useBid_foreign (payload : f.payload = .bid free) (found : s.jobFor f = none) : useBid f s = houBid f s := by
  unfold useBid
  rw [payload]
  dsimp only
  rw [found]

/-- A frame that goes back to another node is for no job here (R74). -/
theorem jobFor_none_of_back (back : f.dir = .back) (away : f.dst ≠ s.own) : s.jobFor f = none := by
  refine List.find?_eq_none.mpr fun p _ takes => ?_
  rw [Bool.or_eq_true] at takes
  rcases takes with opened | answering
  · simp [Job.opened, away] at opened
  · simp [Job.answering, back] at answering

theorem takeBid_ignored {src : Nat} (hj : s.jobAt j = some job) (hb : job.body = .replicate r)
    (known : src ∈ r.exclusion ∨ ∃ b ∈ r.bids, b.1 = src) : takeBid j src free s = s := by
  unfold takeBid Job.replicateOf
  rw [hj, Option.bind_some, hb]
  refine if_pos ?_
  rcases known with excluded | listed
  · exact .inr (.inl (by simpa using excluded))
  · exact .inr (.inr (by simpa using listed))

theorem takeBid_joins {src : Nat} (hj : s.jobAt j = some job) (hb : job.body = .replicate r) (offering : r.state = .offering)
    (excluded : src ∉ r.exclusion) (unlisted : ∀ b ∈ r.bids, b.1 ≠ src) : takeBid j src free s
      = if r.wanted ≤ r.bids.length + 1 then
          closeWindow j (putJob j { job with body := .replicate { r with bids := r.bids ++ [(src, free)] } } s)
        else putJob j { job with body := .replicate { r with bids := r.bids ++ [(src, free)] } } s := by
  have fresh : ¬ (r.state ≠ .offering ∨ r.exclusion.contains src = true ∨ r.bids.any (fun b => b.1 == src) = true) := by
    rintro (past | known | listed)
    · exact past offering
    · exact excluded (by simpa using known)
    · obtain ⟨b, mem, is⟩ := List.any_eq_true.mp listed
      exact unlisted b mem (beq_iff_eq.mp is)
  unfold takeBid Job.replicateOf
  rw [hj, Option.bind_some, hb]
  refine (if_neg fresh).trans ?_
  rw [modReplicate_put _ hj hb]

/-- The bid window closes on a full list (R109): the record, and the ASSIGN. -/
theorem closeWindow_group {tag : Nat} {take : TakeNo} (hj : s.jobAt j = some job) (hb : job.body = .replicate r)
    (hi : job.entry = some i) (he : s.entryAt i = some e) (htag : job.exTag = some tag) (ht : job.take = some take)
    (short : e.holders.length < e.copiesWanted) (bids : r.bids ≠ []) : ∃ outbox queue plain,
    closeWindow j s = putJob j { job with
        outbox := outbox, body := .replicate { r with
          state := .assigning, bids := r.bids.take (e.copiesWanted - e.holders.length),
          group := r.bids.take (e.copiesWanted - e.holders.length), timer := none } }
        { s with lif.queue := queue, hou.plain := plain }
      ∧ (s.linkStanding = true → s.lif.queue.length < 16 → job.outbox = [] → queue = s.lif.queue ++
          [{ frame := { src := s.own, dst := 63, dir := .out, tag := tag, take := take,
                        payload := .assign ((r.bids.take (e.copiesWanted - e.holders.length)).map (·.1)) },
             owner := some j }]) := by
  let job' : Job := { job with body := .replicate { r with
    state := .assigning, bids := r.bids.take (e.copiesWanted - e.holders.length),
    group := r.bids.take (e.copiesWanted - e.holders.length), timer := none } }
  obtain ⟨outbox, queue, plain, gave, given⟩ := giveFrame_spec (j := j) (job := job') (s := putJob j job' s)
    (s.jobFrame job 63 .out (.assign ((r.bids.take (e.copiesWanted - e.holders.length)).map (·.1)))) (jobAt_putJob_self ..)
  refine ⟨outbox, queue, plain, ?_, fun standing room empty => ?_⟩
  · rw [closeWindow_assigns hj hb hi he short bids]
    exact gave.trans (putJob_putJob j job' _ { s with lif.queue := queue, hou.plain := plain })
  · rw [jobFrame_eq htag ht] at given
    exact (given empty standing room).2

end BidRow

/-- Settles O47: `takeBid` at the origin, `houBid` at another bidder. -/
theorem bidJoinsTheList : Obligations.BidJoinsTheList := by
  refine ⟨fun s f free j i job r e sound heard payload found hb offering noneMine hi he => ?_,
    fun s f free own b sound heard payload back away mem mine unique bids below => ?_⟩
  · obtain ⟨hj, htag, ht, -⟩ := jobFor_spec sound found
    obtain ⟨act, taken⟩ := taken_eq f s
    have row := exec_bidReceived heard (by rw [payload]; rfl)
    rw [taken, useBid_taken payload (by exact found)] at row
    generalize hw : ({ s with lif.heard := none, act := act } : State) = w at row
    have wj : w.jobAt j = some job := by rw [← hw]; exact hj
    have we : w.entryAt i = some e := by rw [← hw]; exact he
    have foreign : ∀ x ∈ w.hou.answers, ¬ x.bidsFor f.dst f = true := by
      rw [← hw]
      exact fun x hx also => noneMine x hx (bidsFor_iff.mp also)
    have jobs : ∀ k, w.jobAt k = s.jobAt k := fun k => by rw [← hw]; rfl
    refine ⟨fun known => ?_, fun excluded unlisted => ⟨fun below => ?_, fun full short => ?_⟩⟩
    · rw [takeBid_ignored wj hb known, houBid_none foreign] at row
      exact ⟨w, row, by rw [← hw], by rw [← hw]⟩
    · rw [takeBid_joins wj hb offering excluded unlisted, if_neg (by omega), houBid_none (by exact foreign)] at row
      exact ⟨_, row, by rw [← hw]; rfl, fun k hk => (jobAt_putJob_ne _ _ hk).trans (jobs k), jobAt_putJob_self ..⟩
    · let job' : Job := { job with body := .replicate { r with bids := r.bids ++ [(f.src, free)] } }
      obtain ⟨outbox, queue, plain, closed, given⟩ := closeWindow_group (s := putJob j job' w) (job := job')
        (jobAt_putJob_self ..) rfl hi we htag ht short (by simp)
      rw [takeBid_joins wj hb offering excluded unlisted, if_pos full, closed, houBid_none (by exact foreign)] at row
      refine ⟨_, _, _, row, jobAt_putJob_self .., rfl, rfl, rfl, rfl, rfl, ?_⟩
      subst hw
      exact given
  · have row := exec_bidReceived heard (by rw [payload]; rfl)
    obtain ⟨v, is, orders, counted⟩ := houBid_unique (s := { s with lif.heard := none }) back mem (bidsFor_iff.mpr mine)
      (fun x hx also => unique x hx (bidsFor_iff.mp also)) bids
    rw [taken_other away, useBid_foreign (s := { s with lif.heard := none }) payload (jobFor_none_of_back back away), counted] at row
    refine ⟨fun known => ?_, fun excluded new more => ?_, fun j job r excluded new last owner hj hb waits free => ?_⟩
    · have same : v = { s with lif.heard := none } := by
        rw [is, count_counted known]
        have still : (s.hou.answers.map fun x => if x = own then { x with bids := some b } else x) = s.hou.answers := by
          refine (List.map_congr_left fun x _ => ?_).trans (List.map_id _)
          split
          next h => rw [h, ← bids]; rfl
          next => rfl
        exact congrArg (fun l => ({ s with lif.heard := none, hou.answers := l } : State)) still
      rw [count_counted known, if_neg (by omega), same] at row
      exact row
    · rw [is, count_new excluded new, if_neg (by rw [List.length_append]; simp; omega)] at row
      exact row
    · have pledged : job.pledged = true := by
        unfold Job.pledged
        rw [hb]
        exact (Bool.not_eq_true' _).mpr waits
      have vj : v.jobAt j = some job := by rw [is]; exact hj
      rw [if_pos (by rw [count_new excluded new, List.length_append]; exact Nat.le_of_eq last),
        cancelBid_ends (r := { own with bids := some (b.count f.src) }) owner vj pledged] at row
      let x : State := removeAnswers (fun y => y.order == own.order) v
      have xj : x.jobAt j = some job := vj
      have jobs : x.jt = s.jt := by rw [show x.jt = v.jt from rfl, is]
      have cat : x.cat = s.cat := by rw [show x.cat = v.cat from rfl, is]
      have med : x.med = s.med := by rw [show x.med = v.med from rfl, is]
      have gone := endJob_jobAt .cancelled none (by rw [jobs]; exact sound.1.1) xj
      obtain ⟨w, ended⟩ := endJob_receive .cancelled none xj hb
      have after := endJob_cat (result := .cancelled) (parting := none) xj fun u => by rw [settleEntry, free]
      refine ⟨endJob j .cancelled none x, w, row, (gone j).trans (if_pos rfl), fun k hk => ?_, ?_, ?_, ended, fun y hy also => ?_⟩
      · exact (gone k).trans ((if_neg hk).trans (by rw [State.jobAt, jobs]; rfl))
      · rw [after, pledged, entriesWithout_none free, cat]
        rfl
      · rw [endJob_pledged .cancelled none xj, med, Job.pledge, hb]
      · obtain ⟨y₀, mem₀, from₀⟩ := (endJob_endFrame j .cancelled none x).answers y hy
        have mine₀ : y₀.bidsFor f.dst f = true := by
          rcases from₀ with rfl | rfl
          · exact bidsFor_iff.mpr also
          · exact bidsFor_iff.mpr also
        obtain ⟨doomed, sending⟩ := cancels_by_order orders y₀ mem₀ mine₀
        have same : v.sendingAnswer = s.sendingAnswer := by rw [is]; rfl
        rcases from₀ with rfl | rfl
        · exact ⟨doomed, same ▸ sending⟩
        · exact ⟨rfl, same ▸ sending⟩

section AssignRow
variable {s : State} {f : Frame} {j i c : Nat} {job : Job} {r : ReceiveJob} {addresses : List Nat}

theorem exec_assignReceived (heard : s.lif.heard = some (.good f)) (kind : f.payload.kindCode = 6) :
    exec .assignReceived s = .next (settle (useAssign f (s.taken f))) := takeFrameOf_good useAssign heard kind

theorem useAssign_taken (payload : f.payload = .assign addresses) (found : s.jobFor f = some (j, job)) :
    useAssign f s = houAssign f (receiveAssign j addresses s) := by
  unfold useAssign
  rw [payload]
  dsimp only
  rw [found]

/-- An ASSIGN's part in HOU where no PLEDGED job owns the exchange's BID record (R104). -/
theorem houAssign_cancels (outward : f.dir = .out)
    (owned : ∀ x ∈ s.hou.answers, x.bidsFor f.src f = true → ∀ k job, x.owner = some k → s.jobAt k = some job → job.pledged = false)
    (unique : ∀ x ∈ s.hou.answers, ∀ y ∈ s.hou.answers, x.bidsFor f.src f = true → y.bidsFor f.src f = true → x.order = y.order) :
    ∃ answers, houAssign f s = { s with hou.answers := answers }
      ∧ ∀ x ∈ answers, x.bidsFor f.src f = true → x.doomed = true ∧ s.sendingAnswer = some x.order := by
  unfold houAssign
  rw [if_pos outward]
  cases found : s.bidRecord f.src f with
  | none =>
    exact ⟨s.hou.answers, rfl, fun x hx mine => absurd mine (List.find?_eq_none.mp found x hx)⟩
  | some r =>
    have mem := List.mem_of_find?_eq_some found
    have mine : r.bidsFor f.src f = true := List.find?_some found
    refine ⟨_, ?_, cancels_by_order (s := s) (r := r) fun x hx also => unique x hx r mem also mine⟩
    exact cancelBid_free fun k job owner hk => owned r mem mine k job owner hk

theorem receiveAssign_others (hj : s.jobAt j = some job) (hb : job.body = .receive r) (waits : r.receiving = false)
    (others : s.own ∉ addresses) : receiveAssign j addresses s = endJob j .cancelled none s := by
  unfold receiveAssign Job.receiveOf
  rw [hj, Option.bind_some, hb]
  exact (if_neg (by rw [waits]; decide)).trans (if_neg (by simpa using others))

theorem receiveAssign_named (hj : s.jobAt j = some job) (hb : job.body = .receive r) (waits : r.receiving = false)
    (named : s.own ∈ addresses) : receiveAssign j addresses s = acceptAssign j addresses s := by
  unfold receiveAssign Job.receiveOf
  rw [hj, Option.bind_some, hb]
  exact (if_neg (by rw [waits]; decide)).trans (if_pos (by simpa using named))

/-- The entry that a copy begins with (R4, R119). -/
def ReceiveJob.newCopy (r : ReceiveJob) (take : TakeNo) (c : Nat) : Entry :=
  { take := take, role := .copy, state := .receiving, format := r.format, timelineLength := 0, storedFrames := 0,
    storedBlocks := r.storedBlocks, check := 0, gaps := [], clips := 0, endCause := none, label := none,
    holders := [], copiesWanted := r.copiesWanted, placement := .notNeeded, attempts := 0, damaged := [],
    damagedCount := 0, overflow := false, firstChunk := c, chunkCount := 1, jobRefs := 0, repairHold := none }

/-- The record of a job that an ASSIGN names (R119). -/
def Job.assigned (job : Job) (r : ReceiveJob) (i now : Nat) (addresses : List Nat) : Job :=
  { job with
    entry := some i, rcv := some (newReceiver now (some (placementRun r.storedBlocks)) true),
    body := .receive { r with receiving := true, pledge := r.pledge - 1, timer := none, assigned := addresses } }

/-- The ASSIGN names this node (R119): the entry with its first chunk against the pledge, and the receiver side. -/
theorem acceptAssign_eq {take : TakeNo} (hj : s.jobAt j = some job) (hb : job.body = .receive r) (ht : job.take = some take)
    (pledge : 0 < r.pledge) (free : s.lowestFree = some c) : ∃ wt wtRetry mapList,
    acceptAssign j addresses s = { s with
      cat.entries := smapSet s.cat.entries s.lowestIndex { r.newCopy take c with jobRefs := 1 }, cat.wt := wt,
      cat.wtRetry := wtRetry, cat.mark := true, cat.reserved := s.cat.reserved - 1,
      med.chunks := chunkMapSet s.med.chunks c { owner := .entry s.lowestIndex, next := none, used := 0 },
      med.free := s.med.free - 1, med.mapList := mapList, med.pledged := s.med.pledged - 1,
      jt.jobs := smapSet s.jt.jobs j (job.assigned r s.lowestIndex s.now addresses) } := by
  have chunk : s.receiveChunk r = some c := (if_pos (.inl pledge)).trans free
  have one : min 1 r.pledge = 1 := by omega
  let created := createEntry s.lowestIndex (r.newCopy take c) [] s
  obtain ⟨mapList, taken⟩ := takeChunk_eq c s.lowestIndex 0 created
  let x : State := { created with
    cat.reserved := s.cat.reserved - 1, med.mapList := mapList, med.pledged := s.med.pledged - 1, med.free := s.med.free - 1,
    med.chunks := chunkMapSet s.med.chunks c { owner := .entry s.lowestIndex, next := none, used := 0 } }
  let given : State := { releasePledge 1 (takeChunk c s.lowestIndex 0 created) with
    cat.reserved := (releasePledge 1 (takeChunk c s.lowestIndex 0 created)).cat.reserved - 1 }
  have placed : given = x := by
    show ({ releasePledge 1 (takeChunk c s.lowestIndex 0 created) with
      cat.reserved := (releasePledge 1 (takeChunk c s.lowestIndex 0 created)).cat.reserved - 1 } : State) = x
    rw [taken]
    rfl
  have xj : x.jobAt j = some job := hj
  have xe : x.entryAt s.lowestIndex = some (r.newCopy take c) := smapGet_smapSet_self ..
  let named : ReceiveJob → ReceiveJob := fun r =>
    { r with receiving := true, pledge := r.pledge - 1, timer := none, assigned := addresses }
  have accepts : acceptAssign j addresses s = holdEntry j s.lowestIndex (modJob j (fun job =>
      { job with rcv := some (newReceiver (modReceive j named given).now (some (placementRun r.storedBlocks)) true) })
      (modReceive j named given)) := by
    unfold acceptAssign Job.receiveOf
    rw [hj]
    dsimp only
    rw [hb, ht]
    dsimp only
    rw [chunk]
    dsimp only
    rw [one]
    rfl
  refine ⟨created.cat.wt, created.cat.wtRetry, mapList, ?_⟩
  rw [accepts, placed, modReceive_put _ xj hb, modJob_putJob, holdEntry_eq (jobAt_putJob_self ..) (by exact xe)]
  unfold putJob
  dsimp only
  rw [smapSet_smapSet, show x.cat.entries = smapSet s.cat.entries s.lowestIndex (r.newCopy take c) from rfl, smapSet_smapSet]
  rfl

theorem answering_of_receive (kind : job.kind = .receive) (takes : job.opened s.own f = true ∨ job.answering s.own f = true) :
    f.dir = .out := by
  rcases takes with opened | answering
  · simp [Job.opened, kind] at opened
  · simp only [Job.answering, Bool.and_eq_true, beq_iff_eq] at answering
    exact answering.1.1.1.1.2

end AssignRow

section Sending
variable {s : State}

/-- What the end of a job does to the sender leaves the answer on the medium (R84). -/
theorem txRemoveJob_sendingAnswer (j : Nat) (s : State) : (txRemoveJob j s).sendingAnswer = s.sendingAnswer := by
  have orphan : ∀ u : State, (orphanFront u).sendingAnswer = u.sendingAnswer := by
    intro u
    unfold orphanFront
    split
    next f is => rw [State.sendingAnswer, State.sendingAnswer, is]
    next => rfl
  unfold txRemoveJob
  dsimp only
  split
  · exact orphan { s with lif.queue := s.lif.queue.filterMap (TxFrame.afterEnd j) }
  · rfl

theorem endJob_sendingAnswer {j : Nat} {job : Job} (result : Result) (parting : Option Frame) (hj : s.jobAt j = some job) :
    (endJob j result parting s).sendingAnswer = s.sendingAnswer := by
  have closed : (closeJob j s).sendingAnswer = s.sendingAnswer := by
    refine Eq.trans ?_ (txRemoveJob_sendingAnswer j s)
    obtain ⟨issued, unwanted⟩ := unwant_eq j (removeAnswers (fun r => r.owner == some j) (txRemoveJob j s))
    unfold closeJob
    rw [hj]
    dsimp only
    rw [unwanted, releaseSpace_eq]
    cases job.entry with
    | none => rfl
    | some i =>
      dsimp only
      rw [dropRef_eq i (by rfl)]
      rfl
  obtain ⟨cat, med, hou, notes, seen, events, lost, settled⟩ := settleEntry_frame job result (partWith parting (closeJob j s))
  obtain ⟨queue, plain, parted⟩ := partWith_frame parting (closeJob j s)
  rw [← closed, endJob_eq hj, State.sendingAnswer, raise_lif, settled, parted]
  rfl

/-- An event does not look at HOU (R184). -/
theorem raise_answers (e : Event) (answers : List HoldRec) (s : State) :
    raise e { s with hou.answers := answers } = { raise e s with hou.answers := answers } := by
  unfold raise
  dsimp only
  split
  · rfl
  · split <;> rfl

end Sending

/-- Settles O48: `receiveAssign` named and not named, and then HOU's part. -/
theorem assignStartsTheCopy : Obligations.AssignStartsTheCopy := by
  intro s f addresses j job r sound mine cancelled heard payload found hb waits owned free
  obtain ⟨hj, htag, ht, takes⟩ := jobFor_spec sound found
  have outward := answering_of_receive (by rw [Job.kind, hb]; rfl) takes
  obtain ⟨act, taken⟩ := taken_eq f s
  have row := exec_assignReceived heard (by rw [payload]; rfl)
  rw [taken, useAssign_taken payload (by exact found)] at row
  generalize hw : ({ s with lif.heard := none, act := act } : State) = w at row
  have wj : w.jobAt j = some job := by rw [← hw]; exact hj
  have answers : w.hou.answers = s.hou.answers := by rw [← hw]
  have sending : w.sendingAnswer = s.sendingAnswer := by rw [← hw]; rfl
  have jobs : w.jt = s.jt := by rw [← hw]
  have cat : w.cat = s.cat := by rw [← hw]
  have med : w.med = s.med := by rw [← hw]
  have own : w.own = s.own := by rw [← hw]; rfl
  have ownRec : ∀ x ∈ s.hou.answers, x.bidsFor f.src f = true → x.owner = some j := fun x hx is =>
    (owned x hx (bidsFor_iff.mp is)).1
  have alone : ∀ x ∈ s.hou.answers, ∀ y ∈ s.hou.answers, x.bidsFor f.src f = true → y.bidsFor f.src f = true → x = y :=
    fun x hx y hy is also => ((owned x hx (bidsFor_iff.mp is)).2 y hy (bidsFor_iff.mp also)).symm
  refine ⟨fun others => ?_, fun c named pledge lowest => ?_⟩
  · rw [receiveAssign_others wj hb waits (by rw [own]; exact others)] at row
    have gone := endJob_jobAt .cancelled none (by rw [jobs]; exact sound.1.1) wj
    have from₀ := (endJob_endFrame j .cancelled none w).answers
    rw [answers] at from₀
    obtain ⟨left, assigned, cancels⟩ := houAssign_cancels (s := endJob j .cancelled none w) outward
      (fun x hx is k other owner hk => by
        obtain ⟨x₀, mem, is₀⟩ := from₀ x hx
        have owner₀ : x.owner = some j := by
          rcases is₀ with rfl | rfl
          · exact ownRec x mem is
          · exact ownRec x₀ mem (bidsFor_iff.mpr (bidsFor_iff.mp is))
        have same : k = j := Option.some.inj (owner.symm.trans owner₀)
        rw [gone k, if_pos same] at hk
        cases hk)
      (fun x hx y hy is also => by
        obtain ⟨x₀, memx, isx⟩ := from₀ x hx
        obtain ⟨y₀, memy, isy⟩ := from₀ y hy
        have orderx : x.order = x₀.order ∧ x₀.bidsFor f.src f = true := by
          rcases isx with rfl | rfl
          · exact ⟨rfl, is⟩
          · exact ⟨rfl, bidsFor_iff.mpr (bidsFor_iff.mp is)⟩
        have ordery : y.order = y₀.order ∧ y₀.bidsFor f.src f = true := by
          rcases isy with rfl | rfl
          · exact ⟨rfl, also⟩
          · exact ⟨rfl, bidsFor_iff.mpr (bidsFor_iff.mp also)⟩
        rw [orderx.1, ordery.1, alone x₀ memx y₀ memy orderx.2 ordery.2])
    rw [assigned] at row
    obtain ⟨v, ended⟩ := endJob_receive .cancelled none wj hb
    have pledged : job.pledged = true := by
      unfold Job.pledged
      rw [hb]
      exact (Bool.not_eq_true' _).mpr waits
    refine ⟨_, { v with hou.answers := left }, row, (gone j).trans (if_pos rfl), ?_, ?_, ?_, fun x hx is => ?_⟩
    · refine (endJob_reserved .cancelled none wj free).trans ?_
      rw [if_pos pledged, cat]
    · refine (endJob_pledged .cancelled none wj).trans ?_
      rw [med, Job.pledge, hb]
    · exact (congrArg (fun u : State => { u with hou.answers := left }) ended).trans (raise_answers _ left v).symm
    · obtain ⟨doomed, sent⟩ := cancels x hx (bidsFor_iff.mpr is)
      exact ⟨doomed, sending ▸ (endJob_sendingAnswer .cancelled none wj).symm.trans sent⟩
  · have room : w.lowestFree = some c := by rw [State.lowestFree, med]; exact lowest
    obtain ⟨wt, wtRetry, mapList, accepted⟩ := acceptAssign_eq (addresses := addresses) wj hb ht pledge room
    rw [receiveAssign_named wj hb waits (by rw [own]; exact named), accepted] at row
    obtain ⟨left, assigned, cancels⟩ := houAssign_cancels (s := { w with
        cat.entries := smapSet w.cat.entries w.lowestIndex { r.newCopy f.take c with jobRefs := 1 }, cat.wt := wt,
        cat.wtRetry := wtRetry, cat.mark := true, cat.reserved := w.cat.reserved - 1,
        med.chunks := chunkMapSet w.med.chunks c { owner := .entry w.lowestIndex, next := none, used := 0 },
        med.free := w.med.free - 1, med.mapList := mapList, med.pledged := w.med.pledged - 1,
        jt.jobs := smapSet w.jt.jobs j (job.assigned r w.lowestIndex w.now addresses) }) outward
      (fun x hx is k other owner hk => by
        have owner₀ := ownRec x (answers ▸ hx) is
        have same : k = j := Option.some.inj (owner.symm.trans owner₀)
        subst same
        have record : other = job.assigned r w.lowestIndex w.now addresses :=
          Option.some.inj (hk.symm.trans (smapGet_smapSet_self ..))
        rw [record]
        rfl)
      (fun x hx y hy is also => congrArg HoldRec.order (alone x (answers ▸ hx) y (answers ▸ hy) is also))
    rw [assigned] at row
    refine ⟨_, w.lowestIndex, { r.newCopy f.take c with jobRefs := 1 }, job.assigned r w.lowestIndex w.now addresses, _, _, row,
      ?_, smapGet_smapSet_self .., fun k hk => ?_, rfl, rfl, rfl, rfl, rfl, rfl, rfl, rfl, rfl, rfl, rfl, rfl, ?_, ?_, ?_, ?_, rfl,
      smapGet_smapSet_self .., rfl, rfl, rfl, rfl, rfl, rfl, rfl, rfl, rfl, ?_, ?_, fun k hk => ?_, fun x hx is => ?_⟩
    · rw [← hw]
      exact smapGet_smapLeastFree 0 sound.2.1.1
    · refine (smapGet_smapSet_ne _ _ hk).trans ?_
      rw [cat]
      rfl
    · have chunks : smapRising w.med.chunks = true := by
        rw [med]
        exact sound.2.1.2.1
      exact (chunkIn_chunkMapSet chunks c c { owner := .entry w.lowestIndex, next := none, used := 0 }).trans (if_pos rfl)
    · exact congrArg (fun m : Med => m.free - 1) med
    · exact congrArg (fun m : Med => m.pledged - 1) med
    · exact congrArg (fun x : Cat => x.reserved - 1) cat
    · rw [← hw]
      rfl
    · rw [← hw]
      rfl
    · refine (smapGet_smapSet_ne _ _ hk).trans ?_
      rw [jobs]
      rfl
    · obtain ⟨doomed, sent⟩ := cancels x hx (bidsFor_iff.mpr is)
      exact ⟨doomed, sending ▸ sent⟩

end Sys2Proof.Machine

/-! ## Proofs: a frame is heard as it was sent

SUPPORT. Reading a layout part by part (R191), each payload read back by its kind (R192), the frame check (R1). -/

namespace Sys2Proof.Machine

section Reading
variable {rest : List Byte}

/-! ### Reading past a part, and reading a part -/

theorem fieldAt_skip {n v i w : Nat} (past : n ≤ i) : fieldAt (beBytes n v ++ rest) i w = fieldAt rest (i - n) w := by
  rw [fieldAt_append_right (by simpa using past), length_beBytes]

theorem fieldAt_front (w v : Nat) : fieldAt (beBytes w v ++ rest) 0 w = v % 256 ^ w := by
  rw [fieldAt_append_left (by simp), fieldAt_beBytes]

theorem byteAt_toNat (l : List Byte) (i : Nat) : (byteAt l i).toNat = fieldAt l i 1 := by
  unfold byteAt fieldAt
  cases l.drop i with
  | nil => rfl
  | cons x t => simp [beNat]

theorem byteAt_append_right {l : List Byte} {i : Nat} (past : l.length ≤ i) : byteAt (l ++ rest) i = byteAt rest (i - l.length) := by
  rw [byteAt, byteAt, List.drop_append, List.drop_eq_nil_of_le past, List.nil_append]

theorem byteAt_skip {n v i : Nat} (past : n ≤ i) : byteAt (beBytes n v ++ rest) i = byteAt rest (i - n) := by
  rw [byteAt_append_right (by simpa using past), length_beBytes]

theorem byteAt_front (v : Nat) : byteAt (beBytes 1 v ++ rest) 0 = BitVec.ofNat 8 v := rfl

theorem drop_skip {n v i : Nat} (past : n ≤ i) : (beBytes n v ++ rest).drop i = rest.drop (i - n) := by
  rw [List.drop_append, List.drop_eq_nil_of_le (by simpa using past), List.nil_append, length_beBytes]

/-! ### Address lists and coded fields -/

theorem eraseDups_of_nodup {l : List Nat} (distinct : l.Nodup) : l.eraseDups = l := by
  induction l with
  | nil => rfl
  | cons a t ih =>
    obtain ⟨fresh, distinct⟩ := List.nodup_cons.mp distinct
    have stays : t.filter (fun b => !b == a) = t := List.filter_eq_self.mpr fun b hb => by
      have ne : b ≠ a := fun h => fresh (h ▸ hb)
      simpa using ne
    rw [List.eraseDups_cons, stays, ih distinct]

/-- An address list is read back from its bytes (R192). -/
theorem addressList_read {p : List Byte} {i lo hi : Nat} {l : List Nat} (range : addressesInRange lo hi l) (small : hi < 256)
    (count : (byteAt p i).toNat = l.length % 256) (tail : p.drop (i + 1) = addressBytes l) : addressList p i lo hi = some l := by
  obtain ⟨distinct, low, least, most⟩ := range
  have back : (addressBytes l).map (·.toNat) = l := by
    unfold addressBytes
    rw [List.map_map]
    refine (List.map_congr_left fun a ha => ?_).trans (List.map_id _)
    have := low a ha
    show (BitVec.ofNat 8 a).toNat = a
    rw [BitVec.toNat_ofNat]
    exact Nat.mod_eq_of_lt (by omega)
  have fine : addressesOk l = true := by
    unfold addressesOk
    rw [eraseDups_of_nodup distinct]
    simpa using low
  unfold addressList
  dsimp only
  rw [tail, back, count, Nat.mod_eq_of_lt (by omega), fine]
  exact if_pos (by simp [least, most])

theorem formatOfByte_byte (f : Format) : formatOfByte f.byte = some f := by
  obtain ⟨width, channels, rate⟩ := f
  cases width <;> cases channels <;> cases rate <;> rfl

theorem roleOfCode_code (r : Role) : roleOfCode r.code = some r := by cases r <;> rfl

theorem abandonOfCode_code (r : AbandonReason) : abandonOfCode r.code = some r := by cases r <;> rfl

theorem takeOfValue_value {t : TakeNo} (valid : t.valid = true) :
    takeOfValue (t.value % 256 ^ 4) = t ∧ t.seq ≠ 0 := by
  simp only [TakeNo.valid, Bool.and_eq_true, decide_eq_true_iff] at valid
  obtain ⟨⟨node, low⟩, high⟩ := valid
  have whole : t.value % 256 ^ 4 = t.value := Nat.mod_eq_of_lt (by unfold TakeNo.value; omega)
  refine ⟨?_, by omega⟩
  rw [whole]
  unfold takeOfValue TakeNo.value
  have hn : (t.node * 134217728 + t.seq) / 134217728 = t.node := by omega
  have hs : (t.node * 134217728 + t.seq) % 134217728 = t.seq := by omega
  rw [hn, hs]

end Reading

section Payloads

theorem length_payload {p : Payload} (range : p.inRange) : 1 ≤ p.bytes.length ∧ p.bytes.length ≤ 517 := by
  cases p with
  | seek start frames purpose first count exclusion =>
    obtain ⟨-, -, -, -, ⟨-, -, -, most⟩, -⟩ := range
    simp [Payload.bytes, addressBytes]
    omega
  | haveTake incomplete role damaged storedBlocks check => simp [Payload.bytes]
  | grant holder => simp [Payload.bytes]
  | place storedBlocks format copies wanted exclusion =>
    obtain ⟨-, -, -, -, -, ⟨-, -, -, most⟩⟩ := range
    simp [Payload.bytes, addressBytes]
    omega
  | bid freeChunks => simp [Payload.bytes]
  | assign addresses =>
    obtain ⟨-, -, -, most⟩ := range
    simp [Payload.bytes, addressBytes]
    omega
  | data sequence damaged block =>
    obtain ⟨-, whole⟩ := range
    simp [Payload.bytes, whole]
  | step sequence credit => simp [Payload.bytes]
  | done total check => simp [Payload.bytes]
  | notice reason => simp [Payload.bytes]
  | abandon reason => simp [Payload.bytes]

/-- Numbers within their bytes are read whole. -/
theorem mod_four {v : Nat} (h : v < 4294967296) : v % 256 ^ 4 = v := Nat.mod_eq_of_lt h

theorem mod_one {v : Nat} (h : v < 256) : v % 256 ^ 1 = v := Nat.mod_eq_of_lt h

theorem check_four (c : Check) : BitVec.ofNat 32 (c.toNat % 256 ^ 4) = c := by
  rw [mod_four c.isLt, BitVec.ofNat_toNat, BitVec.setWidth_eq]

theorem payloadOf_seek {start frames first count : Nat} {purpose : Purpose} {exclusion : List Nat}
    (range : (Payload.seek start frames purpose first count exclusion).inRange) :
    payloadOf 1 (Payload.seek start frames purpose first count exclusion).bytes
      = some (.seek start frames purpose first count exclusion) := by
  obtain ⟨hstart, hframes, hfirst, hcount, hex, hrepair⟩ := range
  generalize hp : (Payload.seek start frames purpose first count exclusion).bytes = p
  have layout : p = beBytes 4 start ++ (beBytes 4 frames ++ (beBytes 1 purpose.code ++ (beBytes 4 first ++ (beBytes 1 count
      ++ (beBytes 1 exclusion.length ++ addressBytes exclusion))))) := by
    rw [← hp]
    simp [Payload.bytes]
  have length : ¬ p.length < 15 := by
    rw [layout]
    simp
    omega
  have list : addressList p 14 0 3 = some exclusion := by
    refine addressList_read hex (by omega) ?_ ?_
    · rw [byteAt_toNat, layout]
      simp [fieldAt_skip, fieldAt_front]
    · rw [layout]
      simp [drop_skip]
  have hs : fieldAt p 0 4 = start := by rw [layout, fieldAt_front, mod_four hstart]
  have hf : fieldAt p 4 4 = frames := by
    rw [layout]
    simp [fieldAt_skip, fieldAt_front, Nat.mod_eq_of_lt hframes]
  have h1 : fieldAt p 9 4 = first := by
    rw [layout]
    simp [fieldAt_skip, fieldAt_front, Nat.mod_eq_of_lt hfirst]
  have hc : (byteAt p 13).toNat = count := by
    rw [byteAt_toNat, layout]
    simp [fieldAt_skip, fieldAt_front, Nat.mod_eq_of_lt hcount]
  have code : (byteAt p 8).toNat = purpose.code := by
    rw [byteAt_toNat, layout]
    cases purpose <;> simp [fieldAt_skip, fieldAt_front, Purpose.code]
  unfold payloadOf
  dsimp only
  rw [if_neg length, list, code, hs, hf, h1, hc]
  cases purpose with
  | play => rfl
  | repair =>
    obtain ⟨ne, least, most⟩ := hrepair rfl
    exact if_pos (by simp [ne, least, most])

theorem payloadOf_have {incomplete : Bool} {role : Role} {damaged storedBlocks : Nat} {check : Check}
    (range : (Payload.haveTake incomplete role damaged storedBlocks check).inRange) :
    payloadOf 2 (Payload.haveTake incomplete role damaged storedBlocks check).bytes
      = some (.haveTake incomplete role damaged storedBlocks check) := by
  obtain ⟨hdamaged, hblocks⟩ := range
  generalize hp : (Payload.haveTake incomplete role damaged storedBlocks check).bytes = p
  have layout : p = beBytes 1 (if incomplete then 4 else 2) ++ (beBytes 1 role.code ++ (beBytes 1 damaged
      ++ (beBytes 4 storedBlocks ++ beBytes 4 check.toNat))) := by
    rw [← hp]
    simp [Payload.bytes]
  have length : ¬ p.length ≠ 11 := by
    rw [layout]
    simp
  have state : (byteAt p 0).toNat = if incomplete then 4 else 2 := by
    rw [byteAt_toNat, layout]
    cases incomplete <;> simp [fieldAt_front]
  have code : (byteAt p 1).toNat = role.code := by
    rw [byteAt_toNat, layout]
    cases role <;> simp [fieldAt_skip, fieldAt_front, Role.code]
  have hd : (byteAt p 2).toNat = damaged := by
    rw [byteAt_toNat, layout]
    simp [fieldAt_skip, fieldAt_front, Nat.mod_eq_of_lt hdamaged]
  have hb : fieldAt p 3 4 = storedBlocks := by
    rw [layout]
    simp [fieldAt_skip, fieldAt_front, Nat.mod_eq_of_lt hblocks]
  have hc : fieldAt p 7 4 = check.toNat % 256 ^ 4 := by
    rw [layout]
    simp [fieldAt_skip]
  unfold payloadOf
  dsimp only
  rw [if_neg length, state, code, roleOfCode_code, hd, hb, hc, check_four]
  cases incomplete <;> rfl

theorem payloadOf_place {storedBlocks copies wanted : Nat} {format : Format} {exclusion : List Nat}
    (range : (Payload.place storedBlocks format copies wanted exclusion).inRange) :
    payloadOf 4 (Payload.place storedBlocks format copies wanted exclusion).bytes
      = some (.place storedBlocks format copies wanted exclusion) := by
  obtain ⟨hblocks, leastCopies, mostCopies, leastWanted, mostWanted, hex⟩ := range
  generalize hp : (Payload.place storedBlocks format copies wanted exclusion).bytes = p
  have layout : p = beBytes 4 storedBlocks ++ ([format.byte] ++ (beBytes 1 copies ++ (beBytes 1 wanted
      ++ (beBytes 1 exclusion.length ++ addressBytes exclusion)))) := by
    rw [← hp]
    simp [Payload.bytes]
  have past : ∀ i w, 1 ≤ i → ∀ rest : List Byte, fieldAt ([format.byte] ++ rest) i w = fieldAt rest (i - 1) w :=
    fun i w hi rest => fieldAt_append_right hi
  have length : ¬ p.length < 8 := by
    rw [layout]
    simp
    omega
  have list : addressList p 7 1 3 = some exclusion := by
    refine addressList_read hex (by omega) ?_ ?_
    · rw [byteAt_toNat, layout, fieldAt_skip (by omega), past _ _ (by omega)]
      simp [fieldAt_skip, fieldAt_front]
    · rw [layout, drop_skip (by omega), List.drop_append]
      simp [drop_skip]
  have code : byteAt p 4 = format.byte := by
    rw [layout, byteAt_skip (by omega)]
    rfl
  have hb : fieldAt p 0 4 = storedBlocks := by rw [layout, fieldAt_front, mod_four hblocks]
  have hc : (byteAt p 5).toNat = copies := by
    rw [byteAt_toNat, layout, fieldAt_skip (by omega), past _ _ (by omega)]
    simp [fieldAt_front]
    omega
  have hw : (byteAt p 6).toNat = wanted := by
    rw [byteAt_toNat, layout, fieldAt_skip (by omega), past _ _ (by omega)]
    simp [fieldAt_skip, fieldAt_front]
    omega
  unfold payloadOf
  dsimp only
  rw [if_neg length, list, code, formatOfByte_byte, hb, hc, hw]
  exact if_pos (by simp [leastCopies, mostCopies, leastWanted, mostWanted])

theorem payloadOf_assign {addresses : List Nat} (range : (Payload.assign addresses).inRange) :
    payloadOf 6 (Payload.assign addresses).bytes = some (.assign addresses) := by
  have list : addressList (Payload.assign addresses).bytes 0 1 3 = some addresses :=
    addressList_read range (by omega) (by rw [byteAt_toNat]; exact fieldAt_front ..) rfl
  unfold payloadOf
  dsimp only
  rw [list]
  rfl

theorem payloadOf_data {sequence : Nat} {damaged : Bool} {block : List Byte}
    (range : (Payload.data sequence damaged block).inRange) :
    payloadOf 7 (Payload.data sequence damaged block).bytes = some (.data sequence damaged block) := by
  obtain ⟨hsequence, whole⟩ := range
  generalize hp : (Payload.data sequence damaged block).bytes = p
  have layout : p = beBytes 4 sequence ++ (beBytes 1 (if damaged then 1 else 0) ++ block) := by
    rw [← hp]
    simp [Payload.bytes]
  have length : ¬ p.length ≠ 517 := by
    rw [layout]
    simp [whole]
  have hs : fieldAt p 0 4 = sequence := by rw [layout, fieldAt_front, mod_four hsequence]
  have flag : (byteAt p 4).getLsbD 0 = damaged := by
    rw [layout, byteAt_skip (by omega), byteAt_front]
    cases damaged <;> rfl
  have hb : p.drop 5 = block := by
    rw [layout, drop_skip (by omega), drop_skip (by omega)]
    rfl
  show (if p.length ≠ 517 then none else some (Payload.data (fieldAt p 0 4) ((byteAt p 4).getLsbD 0) (p.drop 5))) = _
  rw [hs, flag, hb]
  exact if_neg length

theorem payloadOf_step {sequence credit : Nat} (range : (Payload.step sequence credit).inRange) :
    payloadOf 8 (Payload.step sequence credit).bytes = some (.step sequence credit) := by
  obtain ⟨hsequence, hcredit⟩ := range
  generalize hp : (Payload.step sequence credit).bytes = p
  have layout : p = beBytes 4 sequence ++ beBytes 1 credit := by
    rw [← hp]
    rfl
  have length : p.length = 5 := by simp [layout]
  have hs : fieldAt p 0 4 = sequence := by rw [layout, fieldAt_front, mod_four hsequence]
  have hc : (byteAt p 4).toNat = credit := by
    rw [byteAt_toNat, layout, fieldAt_skip (by omega), Nat.sub_self, fieldAt_beBytes, mod_one (by omega)]
  show (if p.length ≠ 5 || 8 < (byteAt p 4).toNat then none else some (Payload.step (fieldAt p 0 4) (byteAt p 4).toNat)) = _
  rw [hs, hc]
  exact if_neg (by simp [length, hcredit])

theorem payloadOf_done {total : Nat} {check : Check} (range : (Payload.done total check).inRange) :
    payloadOf 9 (Payload.done total check).bytes = some (.done total check) := by
  generalize hp : (Payload.done total check).bytes = p
  have layout : p = beBytes 4 total ++ beBytes 4 check.toNat := by
    rw [← hp]
    rfl
  have length : ¬ p.length ≠ 8 := by simp [layout]
  have ht : fieldAt p 0 4 = total := by rw [layout, fieldAt_front, mod_four range]
  have hc : fieldAt p 4 4 = check.toNat % 256 ^ 4 := by
    rw [layout, fieldAt_skip (by omega), Nat.sub_self, fieldAt_beBytes]
  show (if p.length ≠ 8 then none else some (Payload.done (fieldAt p 0 4) (BitVec.ofNat 32 (fieldAt p 4 4)))) = _
  rw [ht, hc, check_four]
  exact if_neg length

/-- A payload is read back by its kind (R192). -/
theorem payloadOf_bytes {p : Payload} (range : p.inRange) : payloadOf p.kindCode p.bytes = some p := by
  cases p with
  | seek start frames purpose first count exclusion => exact payloadOf_seek range
  | haveTake incomplete role damaged storedBlocks check => exact payloadOf_have range
  | grant holder =>
    have hh : (byteAt (Payload.grant holder).bytes 0).toNat = holder := by
      rw [byteAt_toNat, Payload.bytes, fieldAt_beBytes, mod_one range]
    show (if (Payload.grant holder).bytes.length ≠ 1 then none else some (Payload.grant _)) = _
    rw [hh]
    exact if_neg (by simp [Payload.bytes])
  | place storedBlocks format copies wanted exclusion => exact payloadOf_place range
  | bid freeChunks =>
    have hf : fieldAt (Payload.bid freeChunks).bytes 0 2 = freeChunks := by
      rw [Payload.bytes, fieldAt_beBytes]
      exact Nat.mod_eq_of_lt range
    show (if (Payload.bid freeChunks).bytes.length ≠ 2 then none else some (Payload.bid _)) = _
    rw [hf]
    exact if_neg (by simp [Payload.bytes])
  | assign addresses => exact payloadOf_assign range
  | data sequence damaged block => exact payloadOf_data range
  | step sequence credit => exact payloadOf_step range
  | done total check => exact payloadOf_done range
  | notice reason => cases reason <;> rfl
  | abandon reason => cases reason <;> rfl

/-- The direction's byte in the header (R192). -/
def dirCode : Direction → Nat
  | .out => 0
  | .back => 1

theorem frameBody_eq (f : Frame) :
    f.body = beBytes 1 f.payload.kindCode ++ (beBytes 1 f.src ++ (beBytes 1 f.dst ++ (beBytes 1 (dirCode f.dir)
      ++ (beBytes 1 f.tag ++ (beBytes 4 f.take.value ++ (beBytes 2 f.payload.bytes.length ++ f.payload.bytes)))))) := by
  obtain ⟨src, dst, dir, tag, take, payload⟩ := f
  cases dir <;> simp only [Frame.body, TakeNo.bytes, dirCode, List.append_assoc]

theorem length_frameBody (f : Frame) : f.body.length = 11 + f.payload.bytes.length := by
  simp [frameBody_eq]
  omega

/-- Header and payload are read back (R192). -/
theorem frameOfBody_body {f : Frame} (range : f.inRange) : frameOfBody f.body = some f := by
  obtain ⟨hsrc, hdst, htag, valid, payload⟩ := range
  obtain ⟨least, most⟩ := length_payload payload
  obtain ⟨take, seq⟩ := takeOfValue_value valid
  have length := length_frameBody f
  have layout := frameBody_eq f
  generalize f.body = b at length layout ⊢
  have kind : (byteAt b 0).toNat = f.payload.kindCode := by
    rw [byteAt_toNat, layout, fieldAt_front]
    cases f.payload <;> rfl
  have src : (byteAt b 1).toNat = f.src := by
    rw [byteAt_toNat, layout]
    simp [fieldAt_skip, fieldAt_front]
    omega
  have dst : (byteAt b 2).toNat = f.dst := by
    rw [byteAt_toNat, layout]
    simp [fieldAt_skip, fieldAt_front]
    omega
  have dir : (byteAt b 3).toNat = dirCode f.dir := by
    rw [byteAt_toNat, layout]
    cases f.dir <;> simp [fieldAt_skip, fieldAt_front, dirCode]
  have tag : (byteAt b 4).toNat = f.tag := by
    rw [byteAt_toNat, layout]
    simp [fieldAt_skip, fieldAt_front, Nat.mod_eq_of_lt htag]
  have value : fieldAt b 5 4 = f.take.value % 256 ^ 4 := by
    rw [layout]
    simp [fieldAt_skip, fieldAt_front]
  have count : fieldAt b 9 2 = f.payload.bytes.length := by
    rw [layout]
    simp [fieldAt_skip, fieldAt_front]
    omega
  have tail : b.drop 11 = f.payload.bytes := by
    rw [layout]
    simp [drop_skip]
  have direction : dirCode f.dir ≤ 1 ∧ (if dirCode f.dir = 0 then Direction.out else Direction.back) = f.dir := by
    cases f.dir <;> simp [dirCode]
  have fine : ¬ (b.length < 11 || 31 < f.src || (31 < f.dst && f.dst ≠ 63) || 1 < dirCode f.dir || f.take.seq = 0
      || f.payload.bytes.length ≠ b.length - 11) = true := by
    have within : f.dst ≤ 31 ∨ f.dst = 63 := hdst
    simp only [Bool.or_eq_true, Bool.and_eq_true, decide_eq_true_eq]
    omega
  unfold frameOfBody
  dsimp only
  rw [kind, src, dst, dir, tag, value, take, count, tail, payloadOf_bytes payload]
  refine (if_neg fine).trans ?_
  rw [Option.map_some, direction.2]

end Payloads

/-- Settles O60: the preamble, the frame check and the length are as `classify` wants them, and the body is read back. -/
theorem framesAreHeardAsSent : Obligations.FramesAreHeardAsSent := by
  intro f range
  obtain ⟨least, most⟩ := length_payload range.2.2.2.2
  have body := length_frameBody f
  have after : f.bytes.drop 2 = f.body ++ beBytes 4 (crc32 f.body).toNat := rfl
  have whole : (f.body ++ beBytes 4 (crc32 f.body).toNat).length = f.body.length + 4 := by simp
  have fine : ¬ (f.bytes.take 2 ≠ preamble || f.body.length + 4 < 16 || 532 < f.body.length + 4
      || beBytes 4 (crc32 f.body).toNat ≠ beBytes 4 (crc32 f.body).toNat) = true := by
    have front : f.bytes.take 2 = preamble := rfl
    simp [front]
    omega
  unfold classify
  dsimp only
  rw [after, whole, Nat.add_sub_cancel, List.take_left, List.drop_left, frameOfBody_body range]
  exact if_neg fine

end Sys2Proof.Machine

/-! ## Proofs: what a node tick starts

SUPPORT. An attempt's job and PLACE (R106, R107), the candidate of an automatic repair (R169), frames offered with room (R78). -/

namespace Sys2Proof.Machine

section Ticks
variable {s : State} {i : Nat} {e : Entry}

/-- Among rising numbers, `find?` gives the lowest that passes. -/
theorem find_least {α : Type} {m : SMap α} {P : Nat × α → Bool} {i : Nat} {a : α} (rising : smapRising m = true)
    (found : smapGet m i = some a) (holds : P (i, a) = true)
    (least : ∀ k b, smapGet m k = some b → k < i → P (k, b) = false) : m.find? P = some (i, a) := by
  have some : (m.find? P).isSome = true := List.find?_isSome.mpr ⟨(i, a), smapGet_some_mem found, holds⟩
  obtain ⟨⟨k, b⟩, first⟩ := Option.isSome_iff_exists.mp some
  obtain ⟨passes, before, after, split, fail⟩ := List.find?_eq_some_iff_append.mp first
  have mem : (i, a) ∈ before ++ (k, b) :: after := split ▸ smapGet_some_mem found
  obtain inBefore | inRest := List.mem_append.mp mem
  · have := fail _ inBefore
    rw [holds] at this
    cases this
  · obtain same | inAfter := List.mem_cons.mp inRest
    · rw [first, same]
    · have order := (smapRising_iff m).mp rising
      rw [split] at order
      have below : k < i := (List.pairwise_cons.mp (List.pairwise_append.mp order).2.1).1 _ inAfter
      have other : smapGet m k = .some b := smapGet_of_mem rising (List.mem_of_find?_eq_some first)
      rw [least k b other below] at passes
      cases passes

/-- Frames offered to a queue with room for all of them join it (R78). -/
theorem offerFrames_room (owner : Option Nat) {l : List Frame} (standing : s.linkStanding = true)
    (room : s.lif.queue.length + l.length ≤ 16) : ∃ plain, offerFrames owner l s
      = ([], { s with lif.queue := s.lif.queue ++ l.map (fun f => { frame := f, owner := owner }), hou.plain := plain }) := by
  induction l generalizing s with
  | nil => exact ⟨s.hou.plain, by simp [offerFrames]⟩
  | cons f rest ih =>
    rw [List.length_cons] at room
    obtain ⟨plain, pushed⟩ := txPush_eq { frame := f, owner := owner } s
    obtain ⟨plain', offered⟩ := ih (s := txPush { frame := f, owner := owner } s)
      (by rw [pushed]; exact standing) (by simp only [pushed, List.length_append, List.length_singleton]; omega)
    refine ⟨plain', ?_⟩
    rw [offerFrames, if_pos (txTakes_iff.mpr ⟨standing, by omega⟩), offered, pushed]
    simp

/-- A full queue takes none (R78). -/
theorem offerFrames_full (owner : Option Nat) (l : List Frame) (full : 16 ≤ s.lif.queue.length) : offerFrames owner l s = (l, s) := by
  cases l with
  | nil => rfl
  | cons f rest =>
    have refuses : ¬ s.txTakes = true := fun takes => by
      have := (txTakes_iff.mp takes).2
      omega
    rw [offerFrames, if_neg refuses]

/-- The frames a job has offered and those it keeps (R78). -/
theorem flushOutbox_offers {j : Nat} {job : Job} {kept : List Frame} {queue : List TxFrame} {plain : Option HoldRec}
    (hj : s.jobAt j = some job)
    (offered : offerFrames (some j) job.outbox s = (kept, { s with lif.queue := queue, hou.plain := plain })) :
    flushOutbox j s = putJob j { job with outbox := kept } { s with lif.queue := queue, hou.plain := plain } := by
  rw [flushOutbox, hj]
  dsimp only
  rw [offered]
  exact modJob_put _ hj

/-- The REPLICATE job of an attempt (R106, R107). -/
def replicateOfEntry (e : Entry) : ReplicateJob :=
  { state := .offering, wanted := e.copiesWanted - e.holders.length, exclusion := e.holders, bids := [], group := [], left := [],
    timer := none }

/-- Its record. -/
def State.replicateRecord (s : State) (i : Nat) (e : Entry) : Job :=
  { freshJob s.nextJobTag s.own (some s.nextJobTag) (some e.take) (.replicate (replicateOfEntry e)) with entry := some i }

/-- The state in which the attempt's PLACE is given. -/
def State.attempting (s : State) (i : Nat) (e : Entry) (wt : List WtItem) (x : Act) : State :=
  { s with jt := { jobs := smapSet s.jt.jobs s.freeRecord (s.replicateRecord i e), nextTag := (s.nextJobTag + 1) % 256 },
           cat.entries := smapSet s.cat.entries i { e with placement := .inProgress, jobRefs := e.jobRefs + 1 },
           cat.queue := s.cat.queue.tail, cat.wt := wt, act := x }

theorem startAttempt_eq (he : s.entryAt i = some e) : ∃ wt x, startAttempt i e s
    = giveFrame s.freeRecord
        { src := s.own, dst := 63, dir := .out, tag := s.nextJobTag, take := e.take,
          payload := .place e.storedBlocks e.format e.copiesWanted (e.copiesWanted - e.holders.length) e.holders }
        (s.attempting i e wt x) := by
  obtain ⟨wt, changed, -⟩ := changeEntry_eq (s := { s with cat.queue := s.cat.queue.tail })
    (fun e => { e with placement := .inProgress }) he
  obtain ⟨w, hw⟩ : ∃ w, w = setPlacement i .inProgress { s with cat.queue := s.cat.queue.tail } := ⟨_, rfl⟩
  have is := hw.trans changed
  have jt : w.jt = s.jt := by rw [is]
  have sul : w.sul = s.sul := by rw [is]
  have record : w.freeRecord = s.freeRecord := by rw [State.freeRecord, jt]; rfl
  have tag : w.nextJobTag = s.nextJobTag := nextJobTag_congr jt
  have own : w.own = s.own := by rw [State.own, sul]; rfl
  have here : w.entryAt i = some { e with placement := .inProgress } := by
    rw [is]
    exact smapGet_smapSet_self ..
  obtain ⟨x, held⟩ := createHeld_eq
    (fun tag => freshJob tag w.own (some tag) (some e.take) (.replicate (replicateOfEntry e))) here
  have created : holdEntry w.freeRecord i
      (createJob (fun tag => freshJob tag w.own (some tag) (some e.take) (.replicate (replicateOfEntry e))) w)
      = s.attempting i e wt x := by
    rw [held, own, record, tag, jt]
    simp only [is, smapSet_smapSet]
    rfl
  have found : (s.attempting i e wt x).jobAt s.freeRecord = some (s.replicateRecord i e) := smapGet_smapSet_self ..
  refine ⟨wt, x, ?_⟩
  unfold startAttempt
  dsimp only
  rw [← hw]
  rw [replicateOfEntry] at created
  rw [created, record, found]
  rfl

theorem attemptMayStart_iff {notBefore : Nat} (jobs : jobsOk s.jt.jobs) : s.attemptMayStart i notBefore = true ↔
    notBefore < s.now ∧ (∀ k job, s.jobAt k = some job → job.kind ≠ .replicate) ∧ s.jt.jobs.length < 8
      ∧ s.headItemAt i = false ∧ s.muted = false := by
  rw [← countKind_eq_zero jobs]
  simp [State.attemptMayStart, jobFree_iff, and_assoc]

/-- CAT's look at an entry at the front of the placement queue that falls short (R23). -/
theorem placementTick_short {fuel notBefore : Nat} {rest : List (Nat × Nat)} (front : s.cat.queue = (i, notBefore) :: rest)
    (he : s.entryAt i = some e) (short : e.holders.length < e.copiesWanted) :
    placementTick (fuel + 1) s = if s.attemptMayStart i notBefore then startAttempt i e s else s := by
  rw [placementTick, front]
  dsimp only
  rw [he]
  exact if_neg (by omega)

theorem placementTick_satisfied {notBefore : Nat} (front : s.cat.queue = [(i, notBefore)])
    (he : s.entryAt i = some e) (enough : e.copiesWanted ≤ e.holders.length) :
    placementTick 1 s = setPlacement i .satisfied { s with cat.queue := [] } := by
  rw [placementTick, front]
  dsimp only
  rw [he]
  exact if_pos enough

/-- The lowest entry that is damaged and free of a hold is the candidate (R169). -/
theorem repairCandidate_least (rising : smapRising s.cat.entries = true) (he : s.entryAt i = some e)
    (kind : e.state = .held ∨ e.state = .incomplete) (damage : e.damaged ≠ [])
    (hold : ∀ t, e.repairHold = some t → t < s.now)
    (least : ∀ k e', s.entryAt k = some e' → k < i → e'.damaged = [] ∧ e'.overflow = false) :
    s.repairCandidate = some (i, e) := by
  refine find_least rising he ?_ fun k e' there below => ?_
  · have free : (match e.repairHold with | some t => decide (t < s.now) | none => true) = true := by
      cases held : e.repairHold with
      | none => rfl
      | some t => exact decide_eq_true (hold t held)
    simp only [playable_iff.mpr kind, Bool.true_and, Bool.and_eq_true, Bool.or_eq_true, Bool.not_eq_true',
      List.isEmpty_eq_false_iff]
    exact ⟨.inl damage, free⟩
  · obtain ⟨list, flag⟩ := least k e' there below
    simp [list, flag]

/-- A REPAIR job on an entry with a damaged list requests its first reads (R163). -/
theorem createRepair_listed (he : s.entryAt i = some e) (flag : e.overflow = false) (list : e.damaged ≠ []) :
    ∃ r reqs x, createRepair i e s = putJob s.freeRecord { s.repairRecord i e with body := .repair r, reqs := reqs }
      (s.repairing i e x) := by
  obtain ⟨x, created⟩ := createRepair_eq he
  have more : ((repairOfEntry e).request (8 - (s.repairing i e x).outstanding s.freeRecord (s.repairRecord i e))).1 ≠ [] := by
    rw [repairOfEntry_request, if_neg (by rw [flag]; decide), outstanding_repairing]
    simp only [ne_eq, List.take_eq_nil_iff, list, or_false]
    split <;> omega
  exact ⟨_, _, x, created.trans (verify_requests (jobAt_repairing s i e x) rfl rfl more)⟩

end Ticks

section Rows
variable {s : State} {i : Nat} {e : Entry}

theorem exec_placementStart (complete : s.complete = true) :
    exec .placementStart s = .next (settle (placementTick s.cat.queue.length s)) := by
  show execPlacementStart s = _
  rw [execPlacementStart, if_pos complete]

theorem exec_automaticRepairStart_idle (idle : s.sul.cfg.autoRepair = false ∨ s.linkStanding = false) :
    exec .automaticRepairStart s = .next s := by
  show execAutomaticRepairStart s = _
  unfold execAutomaticRepairStart
  refine if_neg fun starts => ?_
  simp only [Bool.and_eq_true] at starts
  obtain ⟨⟨⟨auto, standing⟩, -⟩, -⟩ := starts
  obtain off | off := idle
  · rw [off] at auto
    cases auto
  · rw [off] at standing
    cases standing

theorem exec_automaticRepairStart_starts (jobs : jobsOk s.jt.jobs) (auto : s.sul.cfg.autoRepair = true)
    (standing : s.linkStanding = true) (noRepair : ∀ k job, s.jobAt k = some job → job.kind ≠ .repair)
    (room : s.jt.jobs.length < 8) (candidate : s.repairCandidate = some (i, e)) :
    exec .automaticRepairStart s = .next (settle (createRepair i e s)) := by
  show execAutomaticRepairStart s = _
  unfold execAutomaticRepairStart
  rw [auto, standing, (countKind_eq_zero jobs .repair).mpr noRepair, jobFree_iff.mpr room, candidate]
  rfl

theorem exec_frameReoffer {j : Nat} {job : Job} (hj : s.jobAt j = some job) :
    exec (.frameReoffer j) s = .next (flushOutbox j s) := by
  show execFrameReoffer j s = _
  rw [execFrameReoffer, hj]

end Rows

/-- Settles O53: the placement queue's front, the automatic repair's candidate, and the frames that wait for room. -/
theorem nodeTicksStartWork : Obligations.NodeTicksStartWork := by
  intro s sound
  obtain ⟨jobs, ⟨entries, -⟩, -⟩ := sound
  refine ⟨fun i notBefore rest e complete front he => ?placement, exec_automaticRepairStart_idle,
    fun i e auto standing noRepair room he kind damage flag hold least => ?repair, fun standing room => ?flush,
    fun down => ?discard, fun j job hj standing => ⟨fun room => ?offered, fun full => ?refused⟩⟩
  case placement =>
    have length : s.cat.queue.length = rest.length + 1 := by rw [front, List.length_cons]
    rw [exec_placementStart complete, length]
    refine ⟨fun enough last => ?satisfied, fun short early => ?early, fun short due noReplicate room noHead unmuted => ?starts⟩
    case satisfied =>
      obtain ⟨wt, changed, waits⟩ := changeEntry_eq (s := { s with cat.queue := [] }) (fun e => { e with placement := .satisfied }) he
      rw [last, List.length_nil, placementTick_satisfied (by rw [front, last]) he enough]
      exact ⟨_, rfl, by rw [setPlacement, changed], by rw [setPlacement, changed],
        by rw [setPlacement, changed]; exact smapGet_smapSet_self .., by rw [setPlacement, changed]; exact waits⟩
    case early =>
      rw [placementTick_short front he short, if_neg]
      rw [attemptMayStart_iff jobs]
      rintro ⟨due, -⟩
      omega
    case starts =>
      obtain ⟨wt, x, attempt⟩ := startAttempt_eq he
      rw [placementTick_short front he short, if_pos ((attemptMayStart_iff jobs).mpr ⟨due, noReplicate, room, noHead, unmuted⟩),
        attempt]
      have standing : s.linkStanding = true := by simp [State.linkStanding, complete, unmuted]
      have record : (s.attempting i e wt x).jobAt s.freeRecord = some (s.replicateRecord i e) := smapGet_smapSet_self ..
      by_cases space : s.lif.queue.length < 16
      · obtain ⟨plain, gave⟩ := giveFrame_taken _ record rfl (txTakes_iff.mpr ⟨standing, space⟩)
        rw [gave]
        exact ⟨_, s.freeRecord, _, _, _, rfl, congrArg List.tail front, smapGet_smapSet_self .., jobAt_freeRecord jobs,
          smapGet_smapSet_self .., rfl, rfl, rfl, rfl, rfl, rfl, rfl, rfl, rfl, fun _ => rfl, fun full => absurd space (by omega),
          fun k other => (smapGet_smapSet_ne _ _ other).trans (smapGet_smapSet_ne _ _ other), rfl⟩
      · have refuses : (s.attempting i e wt x).txTakes = false := by
          rw [Bool.eq_false_iff]
          exact fun takes => space (txTakes_iff.mp takes).2
        rw [giveFrame_refused _ record refuses]
        exact ⟨_, s.freeRecord, _, _, _, rfl, congrArg List.tail front, smapGet_smapSet_self .., jobAt_freeRecord jobs,
          smapGet_smapSet_self .., rfl, rfl, rfl, rfl, rfl, rfl, rfl, rfl, rfl, fun room => absurd room space, fun _ => rfl,
          fun k other => (smapGet_smapSet_ne _ _ other).trans (smapGet_smapSet_ne _ _ other), rfl⟩
  case repair =>
    have candidate := repairCandidate_least entries he kind damage hold least
    obtain ⟨r, reqs, x, created⟩ := createRepair_listed he flag damage
    rw [exec_automaticRepairStart_starts jobs auto standing noRepair room candidate, created]
    exact ⟨_, s.freeRecord, _, rfl, jobAt_freeRecord jobs, jobAt_putJob_self .., rfl, rfl, rfl, rfl,
      entryAt_repairing s i e x, rfl, rfl⟩
  case flush =>
    obtain ⟨plain, offered⟩ := offerFrames_room none standing room
    refine ⟨flushNotices s, rfl, ?_⟩
    rw [flushNotices_of_standing standing, offered]
    exact ⟨rfl, rfl, rfl, rfl, rfl⟩
  case discard =>
    show execNoticeListFlush s = _
    rw [execNoticeListFlush, flushNotices, if_neg (by rw [down]; decide)]
  case offered =>
    obtain ⟨plain, offered⟩ := offerFrames_room (some j) standing room
    refine ⟨_, exec_frameReoffer hj, ?_⟩
    rw [flushOutbox_offers hj offered]
    exact ⟨jobAt_putJob_self .., rfl, fun k other => jobAt_putJob_ne _ _ other, rfl, rfl⟩
  case refused =>
    refine ⟨_, exec_frameReoffer hj, ?_⟩
    rw [flushOutbox_offers hj (offerFrames_full (some j) job.outbox full)]
    exact ⟨jobAt_putJob_self .., rfl⟩

end Sys2Proof.Machine

/-! ## Proofs: NOTICE and ABANDON

SUPPORT. What a received frame leaves as it was, a holder list that shrinks (R14, R25), the answers of a copy group (R112), and
what an ABANDON does to each kind of job (R139). -/

namespace Sys2Proof.Machine

/-! ### A frame taken -/

/-- A frame has been taken, and so far it has touched ACT, what LIF has heard and HOU's answers alone. -/
structure Received (s w : State) : Prop where
  jt : w.jt = s.jt
  cat : w.cat = s.cat
  med : w.med = s.med
  port : w.port = s.port
  cpe : w.cpe = s.cpe
  sul : w.sul = s.sul
  clock : w.clock = s.clock
  lif : w.lif = { s.lif with heard := none }

section Received
variable {s w : State} {f : Frame}

theorem received_taken (f : Frame) (s : State) : Received s (s.taken f) := by
  obtain ⟨act, taken⟩ := taken_eq f s
  rw [taken]
  exact ⟨rfl, rfl, rfl, rfl, rfl, rfl, rfl, rfl⟩

theorem houAbandon_frame (f : Frame) (s : State) : ∃ answers, houAbandon f s = { s with hou.answers := answers } := by
  unfold houAbandon
  split
  · exact ⟨_, rfl⟩
  · exact ⟨s.hou.answers, rfl⟩

theorem received_houAbandon (f : Frame) (h : Received s w) : Received s (houAbandon f w) := by
  obtain ⟨answers, eq⟩ := houAbandon_frame f w
  rw [eq]
  exact ⟨h.jt, h.cat, h.med, h.port, h.cpe, h.sul, h.clock, h.lif⟩

theorem Received.jobAt (h : Received s w) (k : Nat) : w.jobAt k = s.jobAt k := by rw [State.jobAt, State.jobAt, h.jt]

theorem Received.entryAt (h : Received s w) (i : Nat) : w.entryAt i = s.entryAt i := by rw [State.entryAt, State.entryAt, h.cat]

theorem Received.own (h : Received s w) : w.own = s.own := by rw [State.own, State.own, h.sul]

theorem Received.now (h : Received s w) : w.now = s.now := by rw [State.now, State.now, h.clock]

theorem Received.queue (h : Received s w) : w.lif.queue = s.lif.queue := by rw [h.lif]

theorem Received.linkStanding (h : Received s w) : w.linkStanding = s.linkStanding := by
  rw [State.linkStanding, State.linkStanding, State.complete, State.complete, State.muted, State.muted, h.sul, h.lif]

theorem Received.nextJobTag (h : Received s w) : w.nextJobTag = s.nextJobTag := nextJobTag_congr h.jt

theorem Received.rising (h : Received s w) (sound : s.Sound) : smapRising w.jt.jobs = true := by
  rw [h.jt]
  exact sound.1.1

theorem Received.entries (h : Received s w) (sound : s.Sound) : smapRising w.cat.entries = true := by
  rw [h.cat]
  exact sound.2.1.1

theorem Received.jobFor (h : Received s w) (f : Frame) : w.jobFor f = s.jobFor f := by
  rw [State.jobFor, State.jobFor, State.findJob, State.findJob, h.own, h.jt]

theorem Received.playableEntry (h : Received s w) (take : TakeNo) : w.playableEntry take = s.playableEntry take := by
  rw [State.playableEntry, State.playableEntry, State.findTake, State.findTake, h.cat]

theorem Received.outstanding (h : Received s w) (j : Nat) (job : Job) : w.outstanding j job = s.outstanding j job := by
  rw [State.outstanding, State.outstanding, State.issuedBy, State.issuedBy, h.med]

theorem exec_noticeReceived (heard : s.lif.heard = some (.good f)) (kind : f.payload.kindCode = 10) :
    exec .noticeReceived s = .next (settle (useNotice f (s.taken f))) := takeFrameOf_good useNotice heard kind

theorem exec_abandonReceived (heard : s.lif.heard = some (.good f)) (kind : f.payload.kindCode = 11) :
    exec .abandonReceived s = .next (settle (useAbandon f (s.taken f))) := takeFrameOf_good useAbandon heard kind

end Received

/-! ### A holder list that shrinks -/

section Holders
variable {s : State} {i a : Nat} {e : Entry}

/-- A removal that leaves the placement as it was (R14). -/
theorem removeHolder_quiet (he : s.entryAt i = some e) (rising : smapRising s.cat.entries = true)
    (stands : a ∉ e.holders ∨ e.placement ≠ .satisfied ∨ e.copiesWanted ≤ (e.holders.filter (· ≠ a)).length) :
    ∃ entries mark wt, removeHolder i a s = { s with cat.entries := entries, cat.mark := mark, cat.wt := wt }
      ∧ smapGet entries i = some { e with holders := e.holders.filter (· ≠ a) }
      ∧ (∀ k, k ≠ i → smapGet entries k = s.entryAt k) ∧ smapRising entries = true := by
  unfold removeHolder
  rw [he]
  dsimp only
  by_cases listed : a ∈ e.holders
  · obtain ⟨entries, mark, wt, changed, here, others, risen, -⟩ := changeHolders_spec (removeAddress a) he
    refine ⟨entries, mark, wt, ?_, here, others, risen rising⟩
    rw [if_pos (List.contains_iff_mem.mpr listed), changed]
    unfold requeueIfShort State.entryAt
    dsimp only
    rw [here]
    refine if_neg ?_
    rintro ⟨satisfied, short⟩
    rcases stands with absent | other | enough
    · exact absent listed
    · exact other satisfied
    · exact Nat.not_le.mpr short enough
  · have same : e.holders.filter (· ≠ a) = e.holders :=
      List.filter_eq_self.mpr fun b hb => decide_eq_true fun is => listed (is ▸ hb)
    exact ⟨s.cat.entries, s.cat.mark, s.cat.wt, if_neg (fun h => listed (List.contains_iff_mem.mp h)), by rw [same]; exact he,
      fun k _ => rfl, rising⟩

/-- A removal that leaves a SATISFIED entry short queues it again (R25). -/
theorem removeHolder_requeues (he : s.entryAt i = some e) (listed : a ∈ e.holders) (satisfied : e.placement = .satisfied)
    (short : (e.holders.filter (· ≠ a)).length < e.copiesWanted) :
    ∃ entries mark wt, removeHolder i a s
        = raise (.copiesShort e.take (e.holders.filter (· ≠ a)).length e.copiesWanted e.attempts)
            { s with cat.entries := entries, cat.mark := mark, cat.wt := wt, cat.queue := s.cat.queue ++ [(i, s.now)] }
      ∧ smapGet entries i = some { e with holders := e.holders.filter (· ≠ a), placement := .queued }
      ∧ (∀ k, k ≠ i → smapGet entries k = s.entryAt k) := by
  obtain ⟨entries, mark, wt, changed, here, others, -, -⟩ := changeHolders_spec (removeAddress a) he
  let u : State := { s with cat.entries := entries, cat.mark := mark, cat.wt := wt }
  have hu : u.entryAt i = some { e with holders := removeAddress a e.holders } := here
  obtain ⟨wt', queued, -⟩ := changeEntry_eq (fun e => { e with placement := .queued }) hu
  refine ⟨smapSet entries i { e with holders := e.holders.filter (· ≠ a), placement := .queued }, mark, wt', ?_,
    smapGet_smapSet_self .., fun k hk => (smapGet_smapSet_ne _ _ hk).trans (others k hk)⟩
  unfold removeHolder
  rw [he]
  dsimp only
  rw [if_pos (List.contains_iff_mem.mpr listed), changed]
  show requeueIfShort i u = _
  unfold requeueIfShort
  rw [hu]
  refine (if_pos ⟨satisfied, short⟩).trans ?_
  rw [setPlacement, queued]
  unfold raiseShort joinQueue State.entryAt
  dsimp only
  rw [smapGet_smapSet_self]
  rfl

end Holders

/-! ### A NOTICE of no attempt -/

section Placement
variable {s w : State} {f : Frame} {j i : Nat} {job : Job} {status : MemberStatus} {e : Entry} {t : Sender} {m : Member}

theorem placementNotice_apart (apart : ∀ j job, s.findKind .replicate = some (j, job) → job.take ≠ some f.take) :
    placementNotice f status s = s := by
  unfold placementNotice
  split
  next j job found => exact if_neg (apart j job found)
  next => rfl

theorem placementNotice_takes (found : s.findKind .replicate = some (j, job)) (take : job.take = some f.take) :
    placementNotice f status s = memberAnswers j f.src status s := by
  unfold placementNotice
  rw [found]
  exact if_pos take

/-! ### The answers of a copy group -/

/-- An AWAITING member answers (R112). -/
theorem memberAnswers_eq {src : Nat} (hj : w.jobAt j = some job) (hi : job.entry = some i) (hs : job.snd = some t)
    (found : t.member src = some m) (awaiting : m.status = .awaiting) (he : w.entryAt i = some e)
    (learnt : status = .confirmed → addAddress src e.holders = e.holders) : memberAnswers j src status w
      = endIfAnswered j (putJob j { job with snd := some (t.modMember src fun m => { m with status := status }) } w) := by
  unfold memberAnswers
  rw [hj, Option.bind_some, hs, Option.bind_some, found]
  dsimp only
  rw [if_pos awaiting, modSnd_put _ hj hs, jobAt_putJob_self, Option.bind_some, hi]
  by_cases confirmed : status = .confirmed
  · rw [if_pos confirmed]
    dsimp only
    congr 1
    unfold addHolder changeHolders
    rw [show (putJob j _ w).entryAt i = some e from he]
    exact if_pos (learnt confirmed)
  · rw [if_neg confirmed]

theorem endIfAnswered_waits (hj : w.jobAt j = some job) (hs : job.snd = some t) (some : ∃ m ∈ t.members, m.status = .awaiting) :
    endIfAnswered j w = w := by
  unfold endIfAnswered
  rw [hj, Option.bind_some, hs]
  obtain ⟨m, mem, awaiting⟩ := some
  exact if_pos (List.any_eq_true.mpr ⟨m, mem, by rw [awaiting]; rfl⟩)

theorem endIfAnswered_ends (hj : w.jobAt j = some job) (hs : job.snd = some t) (none : ∀ m ∈ t.members, m.status ≠ .awaiting) :
    endIfAnswered j w = endJob j .ok Option.none w := by
  unfold endIfAnswered
  rw [hj, Option.bind_some, hs]
  refine if_neg fun any => ?_
  obtain ⟨m, mem, awaiting⟩ := List.any_eq_true.mp any
  exact none m mem (beq_iff_eq.mp awaiting)

/-- The entry of an attempt that has ended (R24). -/
theorem settlePlacement_enough (he : s.entryAt i = some e) (enough : e.copiesWanted ≤ e.holders.length) : ∃ wt,
    settlePlacement i s = { s with cat.entries := smapSet s.cat.entries i { e with placement := .satisfied }, cat.wt := wt } := by
  obtain ⟨wt, changed, -⟩ := changeEntry_eq (fun e => { e with placement := .satisfied }) he
  refine ⟨wt, ?_⟩
  unfold settlePlacement
  rw [he]
  exact (if_pos enough).trans changed

theorem settlePlacement_short (he : s.entryAt i = some e) (short : e.holders.length < e.copiesWanted) : ∃ wt,
    settlePlacement i s = raise (.copiesShort e.take e.holders.length e.copiesWanted (min 255 (e.attempts + 1)))
      { s with cat.entries := smapSet s.cat.entries i { e with placement := .queued, attempts := min 255 (e.attempts + 1) },
               cat.wt := wt, cat.queue := s.cat.queue ++ [(i, s.now + 60000)] } := by
  obtain ⟨wt, changed, -⟩ := changeEntry_eq (fun e => { e with placement := .queued, attempts := satAdd 255 e.attempts 1 }) he
  refine ⟨wt, ?_⟩
  unfold settlePlacement
  rw [he]
  refine (if_neg (Nat.not_le.mpr short)).trans ?_
  rw [changed]
  unfold raiseShort joinQueue State.entryAt
  dsimp only
  rw [smapGet_smapSet_self]
  rfl

/-- The end of an attempt that is all answered: its JOB_DONE, and what its entry is settled from (R112, R194). -/
theorem endJob_answered {r : ReplicateJob} (rising : smapRising w.jt.jobs = true) (hj : w.jobAt j = some job)
    (hb : job.body = .replicate r) (hs : job.snd = some t) (hi : job.entry = some i) (he : w.entryAt i = some e) :
    ∃ v, endJob j .ok none w = raise (.doneJob job.tag .replicate .ok job.take
        (t.members.filter (fun m => m.status == .confirmed)).length
        ((t.members.filter (fun m => m.status == .confirmed)).foldl (fun a m => min a m.bidFree) 0xFFFFFFFF) 0)
        (settlePlacement i v)
      ∧ v.jobAt j = none ∧ (∀ k, k ≠ j → v.jobAt k = w.jobAt k) ∧ v.entryAt i = some { e with jobRefs := e.jobRefs - 1 }
      ∧ v.cat.queue = w.cat.queue ∧ v.cpe = w.cpe ∧ v.sul = w.sul ∧ v.clock = w.clock := by
  obtain ⟨sending, hou, issued, closed⟩ := closeJob_eq hj
  refine ⟨closeJob j w, ?_, ?_, fun k hk => ?_, ?_, by rw [closed], by rw [closed], by rw [closed], by rw [closed]⟩
  · rw [endJob_eq hj, State.doneItems, Job.confirmed, hs, hb, partWith_none, settleEntry, hi, hb, Job.kind, hb]
    rfl
  · rw [State.jobAt, closeJob_jobs]
    exact smapGet_smapDel_self _ rising
  · rw [State.jobAt, closeJob_jobs]
    exact smapGet_smapDel_ne _ hk
  · rw [closed]
    exact (entriesWithout_get hi he).1

/-- An answer to an attempt, as a row shows it (R24, R112): the job waits for the members that are left, or ends OK. -/
def PlacementAnswered (s : State) (f : Frame) (c : Instr) (status : MemberStatus) (j i : Nat) (job : Job) (t : Sender)
    (e : Entry) : Prop :=
  let members := t.members.map fun m => if m.address = f.src then { m with status := status } else m
  let confirmed := members.filter (fun m => m.status == .confirmed)
  let done : Event := .doneJob job.tag .replicate .ok job.take confirmed.length
    (confirmed.foldl (fun a m => min a m.bidFree) 0xFFFFFFFF) 0
  let attempts := min 255 (e.attempts + 1)
  ((∃ m ∈ t.members, m.address ≠ f.src ∧ m.status = .awaiting) →
    ∃ u, exec c s = .next (settle u) ∧ u.jobAt j = some { job with snd := some { t with members := members } }
      ∧ u.entryAt i = some e ∧ u.cpe = s.cpe)
  ∧ ((∀ m ∈ t.members, m.address ≠ f.src → m.status ≠ .awaiting) →
    ∃ u, exec c s = .next (settle u) ∧ u.jobAt j = none ∧ (∀ k, k ≠ j → u.jobAt k = s.jobAt k)
      ∧ (e.copiesWanted ≤ e.holders.length →
          u.entryAt i = some { e with placement := .satisfied, jobRefs := e.jobRefs - 1 } ∧ u.cat.queue = s.cat.queue
            ∧ u.cpe = (raise done s).cpe)
      ∧ (e.holders.length < e.copiesWanted →
          u.entryAt i = some { e with placement := .queued, attempts := attempts, jobRefs := e.jobRefs - 1 }
            ∧ u.cat.queue = s.cat.queue ++ [(i, s.now + 60000)]
            ∧ u.cpe = (raise done (raise (.copiesShort e.take e.holders.length e.copiesWanted attempts) s)).cpe))

/-- The answer of an AWAITING member, from the state in which the placement takes it. -/
theorem placementAnswered {c : Instr} {r : ReplicateJob} (row : exec c s = .next (settle (memberAnswers j f.src status w)))
    (jt : w.jt = s.jt) (queue : w.cat.queue = s.cat.queue) (cpe : w.cpe = s.cpe) (sul : w.sul = s.sul) (clock : w.clock = s.clock)
    (rising : smapRising s.jt.jobs = true) (hj : s.jobAt j = some job) (hb : job.body = .replicate r) (hi : job.entry = some i)
    (hs : job.snd = some t) (found : t.member f.src = some m) (awaiting : m.status = .awaiting) (he : w.entryAt i = some e)
    (answered : status ≠ .awaiting) (learnt : status = .confirmed → addAddress f.src e.holders = e.holders) :
    PlacementAnswered s f c status j i job t e := by
  have risen : smapRising w.jt.jobs = true := by rw [jt]; exact rising
  have hw : w.jobAt j = some job := by rw [State.jobAt, jt]; exact hj
  let t' : Sender := t.modMember f.src fun m => { m with status := status }
  let job' : Job := { job with snd := some t' }
  have record : (putJob j job' w).jobAt j = some job' := jobAt_putJob_self ..
  have entry : (putJob j job' w).entryAt i = some e := he
  rw [memberAnswers_eq hw hi hs found awaiting he learnt] at row
  refine ⟨fun ⟨n, mem, other, waits⟩ => ?_, fun none => ?_⟩
  · rw [endIfAnswered_waits record rfl ⟨n, List.mem_map.mpr ⟨n, mem, if_neg other⟩, waits⟩] at row
    exact ⟨_, row, record, entry, cpe⟩
  · have all : ∀ n ∈ t'.members, n.status ≠ .awaiting := by
      intro n hn
      obtain ⟨n', mem, is⟩ := List.mem_map.mp hn
      by_cases same : n'.address = f.src
      · rw [if_pos same] at is
        rw [← is]
        exact answered
      · rw [if_neg same] at is
        rw [← is]
        exact none n' mem same
    obtain ⟨v, ended, gone, others, ve, vq, vc, vs, vt⟩ :=
      endJob_answered (putJob_jobs_rising job' risen) record hb rfl hi entry
    have mask : v.sul.cfg.eventMask = s.sul.cfg.eventMask := by rw [vs]; exact congrArg (·.cfg.eventMask) sul
    have vcpe : v.cpe = s.cpe := vc.trans cpe
    have now : v.now = s.now := by rw [State.now, State.now, vt]; exact congrArg (· / 8000) clock
    have rest (k : Nat) (hk : k ≠ j) : v.jobAt k = s.jobAt k := by
      rw [others k hk, jobAt_putJob_ne _ _ hk, State.jobAt, jt]
      rfl
    rw [endIfAnswered_ends record rfl all, ended] at row
    obtain enough | short := Nat.lt_or_ge e.holders.length e.copiesWanted |>.symm
    · obtain ⟨wt, settled⟩ := settlePlacement_enough ve enough
      rw [settled] at row
      refine ⟨_, row, by rw [jobAt_raise]; exact gone, fun k hk => by rw [jobAt_raise]; exact rest k hk, fun _ => ⟨?_, ?_, ?_⟩,
        fun short => absurd enough (Nat.not_le.mpr short)⟩
      · rw [entryAt_raise]
        exact smapGet_smapSet_self ..
      · rw [raise_cat]
        exact vq.trans queue
      · exact raise_cpe_congr _ vcpe mask
    · obtain ⟨wt, settled⟩ := settlePlacement_short ve short
      rw [settled] at row
      refine ⟨_, row, by rw [jobAt_raise, jobAt_raise]; exact gone, fun k hk => by rw [jobAt_raise, jobAt_raise]; exact rest k hk,
        fun enough => absurd enough (Nat.not_le.mpr short), fun _ => ⟨?_, ?_, ?_⟩⟩
      · rw [entryAt_raise, entryAt_raise]
        exact smapGet_smapSet_self ..
      · rw [raise_cat, raise_cat]
        show v.cat.queue ++ [(i, v.now + 60000)] = _
        rw [vq, now]
        exact congrArg (· ++ _) queue
      · exact raise_cpe_congr _ (raise_cpe_congr _ vcpe mask) (by rw [raise_sul, raise_sul]; exact mask)

end Placement

end Sys2Proof.Machine

namespace Sys2Proof.Machine

/-! ## NOTICE (R112, R170) -/

section Notice
variable {s : State} {f : Frame} {i : Nat} {e : Entry}

/-- NOTICE HOLDS of a take that no attempt here places (R170). -/
theorem noticeHolds_learns (sound : s.Sound) (heard : s.lif.heard = some (.good f))
    (apart : ∀ j job, s.findKind .replicate = some (j, job) → job.take ≠ some f.take) (live : s.findTake f.take = some (i, e))
    (payload : f.payload = .notice .holds) :
    ∃ u, exec .noticeReceived s = .next (settle u) ∧ (∀ k, k ≠ i → u.entryAt k = s.entryAt k) ∧ u.jt = s.jt
      ∧ u.entryAt i = some { e with holders :=
          if f.src ∈ e.holders ∨ 4 ≤ e.holders.length then e.holders else e.holders ++ [f.src] }
      ∧ (f.src ∉ e.holders → e.holders.length < 4 → u.cat.mark = true ∧ .entry i ∈ u.cat.wt) := by
  obtain ⟨act, taken⟩ := taken_eq f s
  obtain ⟨entries, mark, wt, learnt, -, gives, rest⟩ :=
    learnHolder_spec (s := { s with lif.heard := none, act := act }) f.take f.src sound.2.1.1
  have row := exec_noticeReceived heard (by rw [payload]; rfl)
  rw [useNotice, payload, taken] at row
  dsimp only at row
  rw [learnt, placementNotice_apart (by exact apart)] at row
  obtain ⟨here, marked⟩ := gives i e live
  refine ⟨_, row, fun k hk => rest k fun i' e' h => ?_, rfl, ?_, fun new room => marked ?_⟩
  · have same : (i', e') = (i, e) := Option.some.inj (h.symm.trans live)
    cases same
    exact hk
  · rw [← addAddress_eq]
    exact here
  · rw [addAddress_eq, if_neg (by rintro (h | h); exacts [new h, Nat.not_le.mpr room h])]
    exact fun same => by simpa using congrArg List.length same

/-- NOTICE DROPPED of a take that no attempt here places (R25, R170). -/
theorem noticeDropped_forgets (sound : s.Sound) (heard : s.lif.heard = some (.good f))
    (apart : ∀ j job, s.findKind .replicate = some (j, job) → job.take ≠ some f.take) (live : s.findTake f.take = some (i, e))
    (payload : f.payload = .notice .dropped) :
    ∃ u, exec .noticeReceived s = .next (settle u) ∧ (∀ k, k ≠ i → u.entryAt k = s.entryAt k) ∧ u.jt = s.jt
      ∧ (f.src ∉ e.holders ∨ e.placement ≠ .satisfied ∨ e.copiesWanted ≤ (e.holders.filter (· ≠ f.src)).length →
          u.entryAt i = some { e with holders := e.holders.filter (· ≠ f.src) } ∧ u.cat.queue = s.cat.queue)
      ∧ (f.src ∈ e.holders → e.placement = .satisfied → (e.holders.filter (· ≠ f.src)).length < e.copiesWanted →
          u.entryAt i = some { e with holders := e.holders.filter (· ≠ f.src), placement := .queued }
            ∧ u.cat.queue = s.cat.queue ++ [(i, s.now)]
            ∧ u.cpe = (raise (.copiesShort e.take (e.holders.filter (· ≠ f.src)).length e.copiesWanted e.attempts) s).cpe) := by
  obtain ⟨act, taken⟩ := taken_eq f s
  let w : State := { s with lif.heard := none, act := act }
  have he : w.entryAt i = some e := (entryAt_of_findTake sound.2.1.1 live).1
  have forgets : forgetHolder f.take f.src w = removeHolder i f.src w := by
    unfold forgetHolder
    rw [show w.findTake f.take = some (i, e) from live]
  have row := exec_noticeReceived heard (by rw [payload]; rfl)
  rw [useNotice, payload, taken] at row
  dsimp only at row
  rw [forgets] at row
  by_cases requeues : f.src ∈ e.holders ∧ e.placement = .satisfied ∧ (e.holders.filter (· ≠ f.src)).length < e.copiesWanted
  · obtain ⟨listed, satisfied, short⟩ := requeues
    obtain ⟨entries, mark, wt, removed, here, others⟩ := removeHolder_requeues he listed satisfied short
    rw [removed, placementNotice_apart (by rw [State.findKind, State.findJob, raise_jt]; exact apart)] at row
    refine ⟨_, row, fun k hk => (entryAt_raise ..).trans (others k hk), raise_jt .., fun stands => ?_,
      fun _ _ _ => ⟨(entryAt_raise ..).trans here, congrArg (·.queue) (raise_cat ..), raise_cpe_congr _ rfl rfl⟩⟩
    rcases stands with absent | other | enough
    · exact absurd listed absent
    · exact absurd satisfied other
    · exact absurd enough (Nat.not_le.mpr short)
  · have stands : f.src ∉ e.holders ∨ e.placement ≠ .satisfied ∨ e.copiesWanted ≤ (e.holders.filter (· ≠ f.src)).length := by
      by_contra none
      simp only [not_or, not_not, Nat.not_le] at none
      exact requeues none
    obtain ⟨entries, mark, wt, removed, here, others, -⟩ := removeHolder_quiet he sound.2.1.1 stands
    rw [removed, placementNotice_apart (by exact apart)] at row
    exact ⟨_, row, others, rfl, fun _ => ⟨here, rfl⟩, fun listed satisfied short => absurd ⟨listed, satisfied, short⟩ requeues⟩

variable {j : Nat} {job : Job} {t : Sender} {m : Member}

theorem replicate_of_found (sound : s.Sound) (found : s.findKind .replicate = some (j, job)) :
    s.jobAt j = some job ∧ ∃ r, job.body = .replicate r := by
  obtain ⟨hj, kind⟩ := jobAt_of_findJob sound.1 found
  refine ⟨hj, ?_⟩
  unfold Job.kind at kind
  cases hb : job.body with
  | replicate r => exact ⟨r, rfl⟩
  | _ => rw [hb] at kind; cases kind

/-- NOTICE HOLDS from an AWAITING member (R112). -/
theorem noticeHolds_answers (sound : s.Sound) (heard : s.lif.heard = some (.good f))
    (found : s.findKind .replicate = some (j, job)) (take : job.take = some f.take) (hi : job.entry = some i)
    (hs : job.snd = some t) (member : t.member f.src = some m) (awaiting : m.status = .awaiting)
    (live : s.findTake f.take = some (i, e)) (payload : f.payload = .notice .holds) :
    PlacementAnswered s f .noticeReceived .confirmed j i job t
      { e with holders := if f.src ∈ e.holders ∨ 4 ≤ e.holders.length then e.holders else e.holders ++ [f.src] } := by
  obtain ⟨hj, r, hb⟩ := replicate_of_found sound found
  obtain ⟨act, taken⟩ := taken_eq f s
  obtain ⟨entries, mark, wt, learnt, -, gives, -⟩ :=
    learnHolder_spec (s := { s with lif.heard := none, act := act }) f.take f.src sound.2.1.1
  obtain ⟨here, -⟩ := gives i e live
  have row := exec_noticeReceived heard (by rw [payload]; rfl)
  rw [useNotice, payload, taken] at row
  dsimp only at row
  rw [learnt, placementNotice_takes (by exact found) take] at row
  rw [← addAddress_eq]
  refine placementAnswered row rfl rfl rfl rfl rfl sound.1.1 hj hb hi hs member awaiting here (by decide) fun _ => ?_
  show addAddress f.src (addAddress f.src e.holders) = addAddress f.src e.holders
  rw [addAddress_eq f.src (addAddress f.src e.holders)]
  refine if_pos ?_
  rw [addAddress_eq]
  split
  next h => exact h
  next => exact .inl (List.mem_append_right _ List.mem_cons_self)

/-- NOTICE DROPPED from an AWAITING member (R112). -/
theorem noticeDropped_answers (sound : s.Sound) (heard : s.lif.heard = some (.good f))
    (found : s.findKind .replicate = some (j, job)) (take : job.take = some f.take) (hi : job.entry = some i)
    (hs : job.snd = some t) (member : t.member f.src = some m) (awaiting : m.status = .awaiting)
    (live : s.findTake f.take = some (i, e)) (payload : f.payload = .notice .dropped) (unsatisfied : e.placement ≠ .satisfied) :
    PlacementAnswered s f .noticeReceived .failed j i job t { e with holders := e.holders.filter (· ≠ f.src) } := by
  obtain ⟨hj, r, hb⟩ := replicate_of_found sound found
  obtain ⟨act, taken⟩ := taken_eq f s
  let w : State := { s with lif.heard := none, act := act }
  have he : w.entryAt i = some e := (entryAt_of_findTake sound.2.1.1 live).1
  have forgets : forgetHolder f.take f.src w = removeHolder i f.src w := by
    unfold forgetHolder
    rw [show w.findTake f.take = some (i, e) from live]
  obtain ⟨entries, mark, wt, removed, here, -, -⟩ := removeHolder_quiet he sound.2.1.1 (.inr (.inl unsatisfied))
  have row := exec_noticeReceived heard (by rw [payload]; rfl)
  rw [useNotice, payload, taken] at row
  dsimp only at row
  rw [forgets, removed, placementNotice_takes (by exact found) take] at row
  exact placementAnswered row rfl rfl rfl rfl rfl sound.1.1 hj hb hi hs member awaiting here (by decide) fun h => by cases h

end Notice

/-! ## ABANDON (R104, R139) -/

section Abandon
variable {s w : State} {f : Frame} {reason : AbandonReason} {j i : Nat} {job : Job} {e : Entry} {t : Sender} {m : Member}

/-- A bidder hears another bidder's ABANDON (R104). -/
theorem abandon_uncounts (heard : s.lif.heard = some (.good f)) (payload : f.payload = .abandon reason) (back : f.dir = .back)
    (away : f.dst ≠ s.own) :
    exec .abandonReceived s = .next (settle { s with
      lif.heard := none
      hou.answers := s.hou.answers.map fun x =>
        if x.bids ≠ none ∧ x.opener = f.dst ∧ x.frame.tag = f.tag ∧ x.frame.take = f.take then
          { x with bids := x.bids.map fun b => { b with heard := b.heard.filter (· ≠ f.src) } }
        else x }) := by
  rw [exec_abandonReceived heard (by rw [payload]; rfl), taken_other away, useAbandon, payload]
  dsimp only
  rw [houAbandon, if_pos back, modBids_eq]
  rw [jobFor_none_of_back back (by exact away)]
  simp only [bidsFor_iff]

/-- What an ABANDON does to the job it is for (R139). -/
def jobAbandoned (src : Nat) (reason : AbandonReason) (j : Nat) (job : Job) (s : State) : State :=
  match job.body with
  | .replicate _ => replicateAbandoned j src s
  | .receive r => endJob j (if r.receiving then reason.result else .cancelled) none s
  | .serve _ => endJob j reason.result none s
  | .play p => if p.holder = some src then playAbandoned j reason p s else s
  | .repair r => if r.holder = some src then repairAbandoned j reason r s else s
  | .capture _ => s

theorem exec_abandonReceived_taken (heard : s.lif.heard = some (.good f)) (payload : f.payload = .abandon reason)
    (found : s.jobFor f = some (j, job)) : ∃ w, Received s w
      ∧ exec .abandonReceived s = .next (settle (jobAbandoned f.src reason j job w)) := by
  have received := received_houAbandon f (received_taken f s)
  refine ⟨houAbandon f (s.taken f), received, ?_⟩
  rw [exec_abandonReceived heard (by rw [payload]; rfl), useAbandon, payload]
  dsimp only
  rw [received.jobFor f, found]
  rfl

/-- A job that an ABANDON ends, as the row shows it. -/
def JobGone (s : State) (j : Nat) (job : Job) (result : Result) (x y z : Nat) (u : State) : Prop :=
  exec .abandonReceived s = .next (settle u) ∧ u.jobAt j = none ∧ (∀ k, k ≠ j → u.jobAt k = s.jobAt k)
    ∧ ∃ v, u = raise (.doneJob job.tag job.kind result job.take x y z) v

/-! ### RECEIVE and SERVE -/

theorem abandon_receiving {r : ReceiveJob} (sound : s.Sound) (h : Received s w) (hj : s.jobAt j = some job)
    (row : exec .abandonReceived s = .next (settle (jobAbandoned f.src reason j job w))) (hb : job.body = .receive r)
    (receiving : r.receiving = true) (hi : job.entry = some i) :
    ∃ u v, exec .abandonReceived s = .next (settle u) ∧ u.jobAt j = none ∧ u.entryAt i = none
      ∧ u = raise (.doneJob job.tag .receive reason.result job.take 0 0 0) v := by
  have hw : w.jobAt j = some job := (h.jobAt j).trans hj
  unfold jobAbandoned at row
  rw [hb] at row
  dsimp only at row
  rw [if_pos receiving] at row
  obtain ⟨v, ended⟩ := endJob_receive reason.result none hw hb
  exact ⟨_, v, row, (endJob_jobAt _ _ (h.rising sound) hw j).trans (if_pos rfl),
    endJob_receive_frees _ (h.entries sound) hw hb hi (by cases reason <;> decide), ended⟩

theorem abandon_serving {v : ServeJob} (sound : s.Sound) (h : Received s w) (hj : s.jobAt j = some job)
    (row : exec .abandonReceived s = .next (settle (jobAbandoned f.src reason j job w))) (hb : job.body = .serve v)
    (hi : job.entry = some i) (he : s.entryAt i = some e) :
    ∃ u w, exec .abandonReceived s = .next (settle u) ∧ u.jobAt j = none
      ∧ u.entryAt i = some { e with jobRefs := e.jobRefs - 1 }
      ∧ u = raise (.doneJob job.tag .serve reason.result job.take 0 0 0) w := by
  have hw : w.jobAt j = some job := (h.jobAt j).trans hj
  unfold jobAbandoned at row
  rw [hb] at row
  obtain ⟨w', ended⟩ := endJob_serve reason.result none hw hb
  refine ⟨_, w', row, (endJob_jobAt _ _ (h.rising sound) hw j).trans (if_pos rfl), ?_, ended⟩
  rw [State.entryAt, endJob_cat hw fun u => by rw [settleEntry, hi, hb]]
  exact (entriesWithout_get hi ((h.entryAt i).trans he)).1

theorem abandon_pledged {r : ReceiveJob} (sound : s.Sound) (h : Received s w) (hj : s.jobAt j = some job)
    (row : exec .abandonReceived s = .next (settle (jobAbandoned f.src reason j job w))) (hb : job.body = .receive r)
    (waits : r.receiving = false) (hi : job.entry = none) :
    ∃ u, JobGone s j job .cancelled 0 0 0 u ∧ u.med.pledged = s.med.pledged - r.pledge
      ∧ u.cat = { s.cat with reserved := s.cat.reserved - 1 } := by
  have hw : w.jobAt j = some job := (h.jobAt j).trans hj
  unfold jobAbandoned at row
  rw [hb] at row
  dsimp only at row
  rw [if_neg (by rw [waits]; decide)] at row
  have kind : job.kind = .receive := by rw [Job.kind, hb]; rfl
  have pledge : job.pledge = r.pledge := by rw [Job.pledge, hb]
  have pledged : job.pledged = true := by rw [Job.pledged, hb]; dsimp only; rw [waits]; rfl
  obtain ⟨v, ended⟩ := endJob_receive .cancelled none hw hb
  rw [← kind] at ended
  refine ⟨_, ⟨row, (endJob_jobAt _ _ (h.rising sound) hw j).trans (if_pos rfl), fun k hk => ?_, v, ended⟩, ?_, ?_⟩
  · exact (endJob_jobAt _ _ (h.rising sound) hw k).trans ((if_neg hk).trans (h.jobAt k))
  · rw [endJob_pledged _ _ hw, h.med, pledge]
  · rw [endJob_cat hw fun u => by rw [settleEntry, hi], if_pos pledged, entriesWithout_none hi, h.cat]

/-! ### REPLICATE -/

section Replicate
variable {r : ReplicateJob}

theorem jobAbandoned_replicate (hb : job.body = .replicate r) :
    jobAbandoned f.src reason j job w = replicateAbandoned j f.src w := by
  unfold jobAbandoned
  rw [hb]

theorem replicateAbandoned_offering {src : Nat} (hw : w.jobAt j = some job) (hb : job.body = .replicate r)
    (state : r.state = .offering) : replicateAbandoned j src w
      = putJob j { job with body := .replicate { r with bids := r.bids.filter (fun b => b.1 ≠ src) } } w := by
  rw [← modReplicate_put (fun r => { r with bids := r.bids.filter (fun b => b.1 ≠ src) }) hw hb]
  unfold replicateAbandoned Job.replicateOf
  rw [hw]
  dsimp only
  rw [hb]
  dsimp only
  rw [state]

theorem replicateAbandoned_assigning {src : Nat} (hw : w.jobAt j = some job) (hb : job.body = .replicate r)
    (state : r.state = .assigning) : replicateAbandoned j src w
      = if r.group.any (fun b => b.1 == src) && !r.left.contains src then
          putJob j { job with body := .replicate { r with left := r.left ++ [src] } } w
        else w := by
  rw [← modReplicate_put (fun r => { r with left := r.left ++ [src] }) hw hb]
  unfold replicateAbandoned Job.replicateOf
  rw [hw]
  dsimp only
  rw [hb]
  dsimp only
  rw [state]

theorem replicateAbandoned_member {src : Nat} (hw : w.jobAt j = some job) (hb : job.body = .replicate r)
    (state : r.state = .sending ∨ r.state = .closing) (hs : job.snd = some t) (member : t.member src = some m) :
    replicateAbandoned j src w
      = if m.status = .sending then advanceSender j none (leaveMember j src w) else memberAnswers j src .failed w := by
  unfold replicateAbandoned Job.replicateOf
  rw [hw]
  dsimp only
  rw [hb]
  dsimp only
  rw [hs, Option.bind_some, member]
  rcases state with state | state <;> rw [state]

theorem abandon_offering (h : Received s w) (hj : s.jobAt j = some job)
    (row : exec .abandonReceived s = .next (settle (jobAbandoned f.src reason j job w))) (hb : job.body = .replicate r)
    (state : r.state = .offering) : ∃ u, exec .abandonReceived s = .next (settle u) ∧ u.cat = s.cat ∧ u.jobAt j = some
      { job with body := .replicate { r with bids := r.bids.filter (fun b => b.1 ≠ f.src) } } := by
  have hw : w.jobAt j = some job := (h.jobAt j).trans hj
  rw [jobAbandoned_replicate hb, replicateAbandoned_offering hw hb state] at row
  exact ⟨_, row, h.cat, jobAt_putJob_self ..⟩

theorem abandon_assigning (h : Received s w) (hj : s.jobAt j = some job)
    (row : exec .abandonReceived s = .next (settle (jobAbandoned f.src reason j job w))) (hb : job.body = .replicate r)
    (state : r.state = .assigning) : ∃ u, exec .abandonReceived s = .next (settle u) ∧ u.cat = s.cat ∧ u.jobAt j = some
      { job with
        body := .replicate
          { r with left := if (∃ b ∈ r.group, b.1 = f.src) ∧ f.src ∉ r.left then r.left ++ [f.src] else r.left } } := by
  have hw : w.jobAt j = some job := (h.jobAt j).trans hj
  rw [jobAbandoned_replicate hb, replicateAbandoned_assigning hw hb state] at row
  have test : (r.group.any (fun b => b.1 == f.src) && !r.left.contains f.src) = true
      ↔ (∃ b ∈ r.group, b.1 = f.src) ∧ f.src ∉ r.left := by simp
  by_cases leaves : (∃ b ∈ r.group, b.1 = f.src) ∧ f.src ∉ r.left
  · rw [if_pos (test.mpr leaves)] at row
    rw [if_pos leaves]
    exact ⟨_, row, h.cat, jobAt_putJob_self ..⟩
  · rw [if_neg fun h => leaves (test.mp h)] at row
    rw [if_neg leaves]
    refine ⟨_, row, h.cat, ?_⟩
    rw [hw]
    show some job = some { job with body := .replicate r }
    rw [← hb]

/-- An AWAITING member abandons (R112). -/
theorem abandon_answers (sound : s.Sound) (h : Received s w) (hj : s.jobAt j = some job)
    (row : exec .abandonReceived s = .next (settle (jobAbandoned f.src reason j job w))) (hb : job.body = .replicate r)
    (state : r.state = .sending ∨ r.state = .closing) (hi : job.entry = some i) (he : s.entryAt i = some e)
    (hs : job.snd = some t) (member : t.member f.src = some m) (awaiting : m.status = .awaiting) :
    PlacementAnswered s f .abandonReceived .failed j i job t e := by
  rw [jobAbandoned_replicate hb, replicateAbandoned_member ((h.jobAt j).trans hj) hb state hs member, if_neg (by rw [awaiting]; decide)] at row
  exact placementAnswered row h.jt (by rw [h.cat]) h.cpe h.sul h.clock sound.1.1 hj hb hi hs member awaiting
    ((h.entryAt i).trans he) (by decide) fun h => by cases h

/-- The sender whose member has left (R111). -/
def Sender.without (t : Sender) (address : Nat) : Sender := t.modMember address Member.asLeft

/-- A SENDING member abandons (R111): the sender goes on without it. -/
theorem abandon_leaves (h : Received s w) (hj : s.jobAt j = some job)
    (row : exec .abandonReceived s = .next (settle (jobAbandoned f.src reason j job w))) (hb : job.body = .replicate r)
    (state : r.state = .sending ∨ r.state = .closing) (hs : job.snd = some t) (member : t.member f.src = some m)
    (sending : m.status = .sending) :
    exec .abandonReceived s
      = .next (settle (advanceSender j none (putJob j { job with snd := some (t.without f.src) } w))) := by
  have hw : w.jobAt j = some job := (h.jobAt j).trans hj
  rw [jobAbandoned_replicate hb, replicateAbandoned_member hw hb state hs member, if_pos sending, leaveMember_put f.src hw hs] at row
  exact row

variable {job₁ : Job}

/-- No member is left (R111). -/
theorem abandon_lastLeaves {t₁ : Sender} (sound : s.Sound) (h : Received s w) (same : job₁ = { job with snd := some t₁ })
    (row : exec .abandonReceived s = .next (settle (advanceSender j none (putJob j job₁ w))))
    (left : ∀ m ∈ t₁.members, m.status = .left) (hb : job.body = .replicate r) : ∃ u x y, JobGone s j job .stalled x y 0 u := by
  have record : (putJob j job₁ w).jobAt j = some job₁ := jobAt_putJob_self ..
  have rising := putJob_jobs_rising (j := j) job₁ (h.rising sound)
  rw [advanceSender_stalled record (by rw [same]) left, endJob_eq record] at row
  have ended := endJob_eq (result := .stalled) (parting := none) record
  have items : ((putJob j job₁ w).doneItems job₁).2.2 = 0 := by
    rw [State.doneItems, show job₁.body = .replicate r by rw [same]; exact hb]
  refine ⟨_, ((putJob j job₁ w).doneItems job₁).1, ((putJob j job₁ w).doneItems job₁).2.1, row, ?_, fun k hk => ?_,
    settleEntry job₁ .stalled (partWith none (closeJob j (putJob j job₁ w))), ?_⟩
  · rw [← ended]
    exact (endJob_jobAt _ _ rising record j).trans (if_pos rfl)
  · rw [← ended]
    exact (endJob_jobAt _ _ rising record k).trans ((if_neg hk).trans ((jobAt_putJob_ne _ _ hk).trans (h.jobAt k)))
  · rw [items, same]
    rfl

/-- The DONE goes out at once when no member that is left owes blocks (R111, R112). -/
theorem abandon_done {t₁ : Sender} (h : Received s w) (same : job₁ = { job with snd := some t₁ })
    (row : exec .abandonReceived s = .next (settle (advanceSender j none (putJob j job₁ w))))
    (going : ∃ m ∈ t₁.members, m.status ≠ .left) (open_ : t₁.doneGiven = false) (none : t₁.waitedFor = [])
    (hb : job.body = .replicate r) (hi : job.entry = some i) (he : s.entryAt i = some e) (tag : job.exTag = some f.tag)
    (take : job.take = some f.take) (standing : s.linkStanding = true) (empty : job.outbox = [])
    (room : s.lif.queue.length < 16) :
    ∃ u, exec .abandonReceived s = .next (settle u) ∧ u.cat = s.cat
      ∧ u.jobAt j = some { job with snd := some { t₁ with doneGiven := true }, body := .replicate { r with state := .closing } }
      ∧ u.lif.queue = s.lif.queue ++
        [{ frame := { src := s.own, dst := 63, dir := .out, tag := f.tag, take := f.take,
                      payload := .done t₁.run.total e.check }, owner := some j }] := by
  have record : (putJob j job₁ w).jobAt j = some job₁ := jobAt_putJob_self ..
  have snd : job₁.snd = some t₁ := by rw [same]
  have body : job₁.body = .replicate r := by rw [same]; exact hb
  have outbox : (job₁.withDone t₁).outbox = [] := by rw [Job.withDone, same]; exact empty
  have check : (putJob j job₁ w).jobCheck job₁ = e.check := by
    rw [State.jobCheck, show job₁.entry = some i by rw [same]; exact hi, Option.bind_some,
      show (putJob j job₁ w).entryAt i = some e from (h.entryAt i).trans he]
  have frame : (putJob j job₁ w).jobFrame job₁ 63 .out (.done t₁.run.total e.check)
      = { src := s.own, dst := 63, dir := .out, tag := f.tag, take := f.take, payload := .done t₁.run.total e.check } := by
    rw [jobFrame_eq (tag := f.tag) (take := f.take) (by rw [same]; exact tag) (by rw [same]; exact take)]
    rw [show (putJob j job₁ w).own = s.own from h.own]
  have goes : job₁.dataTo = (63, .out) := by rw [Job.dataTo, body]
  have takes : (putJob j (job₁.withDone t₁) (putJob j job₁ w)).txTakes = true :=
    txTakes_iff.mpr ⟨h.linkStanding.trans standing, by rw [putJob_lif, putJob_lif, h.queue]; exact room⟩
  obtain ⟨plain, gave⟩ := giveFrame_taken ((putJob j job₁ w).jobFrame job₁ 63 .out (.done t₁.run.total e.check))
    (jobAt_putJob_self j (job₁.withDone t₁) (putJob j job₁ w)) outbox takes
  rw [advanceSender_done record snd going open_ none, giveDone_eq record snd, goes, check, gave] at row
  refine ⟨_, row, h.cat, ?_, ?_⟩
  · refine (smapGet_smapSet_self ..).trans (congrArg some ?_)
    rw [Job.withDone, body, same, ← empty]
  · show w.lif.queue ++ _ = _
    rw [h.queue, frame]

end Replicate

end Abandon

end Sys2Proof.Machine

namespace Sys2Proof.Machine

section Abandon
variable {s w : State} {f : Frame} {reason : AbandonReason} {j i : Nat} {job : Job} {e : Entry}

/-! ### An ABANDON at a PLAY job (R147, R156) -/

section Play
variable {p : PlayJob}

/-- From another source, or where the transfer is over or has not begun. -/
theorem abandon_play_ignored (h : Received s w)
    (row : exec .abandonReceived s = .next (settle (jobAbandoned f.src reason j job w))) (hb : job.body = .play p)
    (idle : p.holder ≠ some f.src ∨ p.state = .seeking ∨ p.state = .localStore ∨ p.state = .draining) :
    ∃ u, exec .abandonReceived s = .next (settle u) ∧ u.jt = s.jt ∧ u.cat = s.cat ∧ u.cpe = s.cpe := by
  have stays : jobAbandoned f.src reason j job w = w := by
    unfold jobAbandoned playAbandoned
    rw [hb]
    dsimp only
    rcases idle with other | state | state | state
    · exact if_neg other
    all_goals rw [state]; exact ite_self w
  rw [stays] at row
  exact ⟨w, row, h.jt, h.cat, h.cpe⟩

/-- After the head block the outcome is kept for playout to reach (R156). -/
theorem abandon_play_pends (h : Received s w) (hj : s.jobAt j = some job)
    (row : exec .abandonReceived s = .next (settle (jobAbandoned f.src reason j job w))) (hb : job.body = .play p)
    (holder : p.holder = some f.src) (state : p.state = .playing) (known : p.shape.isSome = true) :
    ∃ u, exec .abandonReceived s = .next (settle u) ∧ u.cat = s.cat ∧ u.port = s.port ∧ u.jobAt j = some
      { job with
        body := .play { p with state := .draining, pendingResult := some (p.pendingResult.getD reason.result) }
        rcv := none
        outbox := job.outbox.filter (fun f => !f.payload.isStep) } := by
  have pends : jobAbandoned f.src reason j job w = pendPlay j reason.result w := by
    unfold jobAbandoned playAbandoned
    rw [hb]
    dsimp only
    rw [if_pos holder, state]
    exact if_pos known
  rw [pends, pendPlay_put reason.result ((h.jobAt j).trans hj) hb] at row
  exact ⟨_, row, h.cat, h.port, jobAt_putJob_self ..⟩

/-- Before the head block the granted holder has failed (R147). -/
theorem abandon_play_fails (hb : job.body = .play p) (holder : p.holder = some f.src)
    (before : p.state = .awaitingData ∨ p.state = .playing ∧ p.shape = none) :
    jobAbandoned f.src reason j job w = holderFailed j w := by
  unfold jobAbandoned playAbandoned
  rw [hb]
  dsimp only
  rw [if_pos holder]
  rcases before with state | ⟨state, unknown⟩
  · rw [state]
  · rw [state]
    refine if_neg ?_
    rw [PlayJob.headAccepted, unknown]
    decide

/-- The one re-seek of a PLAY job where the queue takes its SEEK (R147). -/
theorem abandon_play_reseeks (sound : s.Sound) (h : Received s w) (hj : s.jobAt j = some job)
    (row : exec .abandonReceived s = .next (settle (holderFailed j w))) (hb : job.body = .play p)
    (holder : p.holder = some f.src) (take : job.take = some f.take) (unused : p.reseekUsed = false)
    (standing : s.linkStanding = true) (room : s.lif.queue.length < 16) (empty : job.outbox = []) :
    ∃ u job' p', exec .abandonReceived s = .next (settle u) ∧ u.cat = s.cat ∧ u.jobAt j = some job'
      ∧ job'.body = .play p' ∧ p'.state = .seeking ∧ p'.reseekUsed = true ∧ p'.exclusion = some f.src
      ∧ job'.rcv = none ∧ job'.exTag = some s.nextJobTag
      ∧ u.lif.queue = s.lif.queue ++
        [{ frame := { src := s.own, dst := 63, dir := .out, tag := s.nextJobTag, take := f.take,
                      payload := .seek p.start p.frames .play 0 0 [f.src] }, owner := some j }] := by
  have hw : w.jobAt j = some job := (h.jobAt j).trans hj
  obtain ⟨nextTag, job₁, again, is⟩ := holderFailed_reseeks (h.rising sound) hw hb unused
  let v : State := putJob j job₁ { w with jt.nextTag := nextTag }
  have hv : v.jobAt j = some job₁ := jobAt_putJob_self ..
  have body : job₁.body = .play p.reseeking := by rw [is]
  have upright : v.linkStanding = true := h.linkStanding.trans standing
  have tag : job₁.exTag = some s.nextJobTag := by rw [is, ← h.nextJobTag]
  have bare : job₁.outbox = [] := by
    rw [is]
    show job.outbox.filter _ = []
    rw [empty]
    rfl
  let seek := v.jobFrame job₁ 63 .out (.seek p.reseeking.start p.reseeking.frames .play 0 0 p.reseeking.exclusion.toList)
  have seekIs : seek = { src := s.own, dst := 63, dir := .out, tag := s.nextJobTag, take := f.take,
                         payload := .seek p.start p.frames .play 0 0 [f.src] } := by
    have exclusion : p.reseeking.exclusion.toList = [f.src] := by
      show p.holder.toList = _
      rw [holder]
      rfl
    show v.jobFrame job₁ 63 .out _ = _
    rw [exclusion, jobFrame_eq (take := f.take) tag (by rw [is]; exact take), show v.own = s.own from h.own]
    rfl
  let job₂ : Job := { job₁ with body := .play { p.reseeking with state := .seeking, answerWindow := none } }
  obtain ⟨outbox, queue, plain, gave, taken⟩ := giveFrame_spec seek (jobAt_putJob_self j job₂ v)
  obtain ⟨-, queued⟩ := taken bare upright (by show w.lif.queue.length < 16; rw [h.queue]; exact room)
  rw [again, givePlaySeek_gives hv body upright] at row
  replace row := row.trans (congrArg (fun u => Host.Outcome.next (settle u)) gave)
  refine ⟨_, { job₂ with outbox := outbox }, _, row, h.cat, jobAt_putJob_self .., rfl, rfl, rfl, holder, ?_, tag, ?_⟩
  · show job₁.rcv = none
    rw [is]
  · refine queued.trans ?_
    show w.lif.queue ++ _ = _
    rw [h.queue, seekIs]

/-- With the re-seek used and no copy here the job ends STALLED (R147). -/
theorem abandon_play_ends (sound : s.Sound) (h : Received s w) (hj : s.jobAt j = some job)
    (row : exec .abandonReceived s = .next (settle (holderFailed j w))) (hb : job.body = .play p)
    (holder : p.holder = some f.src) (before : p.state = .awaitingData ∨ p.state = .playing ∧ p.shape = none)
    (take : job.take = some f.take) (used : p.reseekUsed = true)
    (none : s.playableEntry f.take = none) : ∃ u, JobGone s j job .stalled f.src p.underruns 0 u := by
  have hw : w.jobAt j = some job := (h.jobAt j).trans hj
  have kind : job.kind = .play := by rw [Job.kind, hb]; rfl
  have source : w.playSource p = f.src := by
    unfold State.playSource
    rcases before with state | ⟨state, -⟩ <;> rw [state, holder] <;> rfl
  obtain ⟨v, ended, gone, others, -⟩ := endJob_play .stalled (h.rising sound) hw hb
  rw [holderFailed_used (take := f.take) hw hb used, fallBack_ends hw take ((h.playableEntry f.take).trans none), ended, source] at row
  refine ⟨_, row, by rw [jobAt_raise]; exact gone, fun k hk => by rw [jobAt_raise, others k hk, h.jobAt k], v, ?_⟩
  rw [kind]

/-- With the re-seek used the job falls back to its own copy (R147). -/
theorem abandon_play_local (sound : s.Sound) (h : Received s w) (hj : s.jobAt j = some job)
    (row : exec .abandonReceived s = .next (settle (holderFailed j w))) (hb : job.body = .play p)
    (take : job.take = some f.take) (used : p.reseekUsed = true) (own : s.playableEntry f.take = some (i, e)) :
    ∃ u job' p', exec .abandonReceived s = .next (settle u) ∧ u.jobAt j = some job' ∧ job'.body = .play p'
      ∧ p'.state = .localStore ∧ p'.cursor = p.start ∧ job'.entry = some i ∧ job'.rcv = none
      ∧ u.entryAt i = some { e with jobRefs := e.jobRefs + 1 } := by
  have hw : w.jobAt j = some job := (h.jobAt j).trans hj
  have he : w.entryAt i = some e := (h.entryAt i).trans (entryAt_of_playableEntry sound.2.1.1 own).1
  obtain ⟨jobs, reqs, nextRead, slots, entered, record, -⟩ := enterLocal_eq hw hb he
  rw [holderFailed_used (take := f.take) hw hb used, fallBack_local hw take ((h.playableEntry f.take).trans own), entered] at row
  exact ⟨_, _, _, row, record, rfl, rfl, rfl, rfl, rfl, smapGet_smapSet_self ..⟩

end Play

/-! ### An ABANDON at a REPAIR job (R165, R167) -/

section Repair
variable {r : RepairJob}

/-- The end of a REPAIR job: its JOB_DONE, and the hold of an end other than OK (R168, R194). -/
theorem endJob_repair (result : Result) (hw : w.jobAt j = some job) (hb : job.body = .repair r) (hi : job.entry = some i)
    (he : w.entryAt i = some e) :
    ∃ v, endJob j result none w
        = raise (.doneJob job.tag job.kind result job.take (r.holder.getD 0xFF) r.cleared e.damaged.length) v
      ∧ (result ≠ .ok → v.entryAt i = some { e with jobRefs := e.jobRefs - 1, repairHold := some (w.now + 60000) }) := by
  obtain ⟨sending, hou, issued, closed⟩ := closeJob_eq hw
  have ce : (closeJob j w).entryAt i = some { e with jobRefs := e.jobRefs - 1 } := by
    rw [closed]
    exact (entriesWithout_get hi he).1
  have now : (closeJob j w).now = w.now := by
    rw [closed]
    rfl
  refine ⟨settleEntry job result (closeJob j w), ?_, fun bad => ?_⟩
  · have items : w.doneItems job = (r.holder.getD 0xFF, r.cleared, e.damaged.length) := by
      rw [State.doneItems, hb, hi]
      dsimp only
      rw [Option.bind_some, he]
      rfl
    rw [endJob_eq hw, items, partWith_none]
  · have held : settleEntry job result (closeJob j w)
        = modEntry i (fun e => { e with repairHold := some (w.now + 60000) }) (closeJob j w) := by
      have settles : settleEntry job result (closeJob j w) = holdRepair i r result (closeJob j w) := by rw [settleEntry, hi, hb]
      rw [settles, ← now]
      unfold holdRepair
      rw [ce]
      exact if_pos (.inl bad)
    rw [held, modEntry_eq _ ce]
    exact smapGet_smapSet_self ..

/-- A REPAIR job that an ABANDON ends, from the state it ends in. -/
theorem abandon_repair_ends {v : State} {job₁ : Job} {result : Result} (row : exec .abandonReceived s = .next (settle (endJob j result none v)))
    (record : v.jobAt j = some job₁) (others : ∀ k, k ≠ j → v.jobAt k = s.jobAt k) (rising : smapRising v.jt.jobs = true)
    (he : v.entryAt i = some e) (now : v.now = s.now) (tag : job₁.tag = job.tag) (kind : job₁.kind = job.kind)
    (take : job₁.take = job.take) (hb : job₁.body = .repair r) (hi : job₁.entry = some i) (holder : r.holder = some f.src) :
    ∃ u, JobGone s j job result f.src r.cleared e.damaged.length u
      ∧ (result ≠ .ok → u.entryAt i = some { e with jobRefs := e.jobRefs - 1, repairHold := some (s.now + 60000) }) := by
  obtain ⟨x, ended, held⟩ := endJob_repair result record hb hi he
  refine ⟨_, ⟨row, (endJob_jobAt _ _ rising record j).trans (if_pos rfl), fun k hk => ?_, x, ?_⟩, fun bad => ?_⟩
  · exact (endJob_jobAt _ _ rising record k).trans ((if_neg hk).trans (others k hk))
  · rw [ended, tag, kind, take, holder]
    rfl
  · rw [ended, entryAt_raise, held bad, now]

theorem abandon_repair_ignored (h : Received s w)
    (row : exec .abandonReceived s = .next (settle (jobAbandoned f.src reason j job w))) (hb : job.body = .repair r)
    (other : r.holder ≠ some f.src) :
    ∃ u, exec .abandonReceived s = .next (settle u) ∧ u.jt = s.jt ∧ u.cat = s.cat ∧ u.cpe = s.cpe := by
  have stays : jobAbandoned f.src reason j job w = w := by
    unfold jobAbandoned
    rw [hb]
    exact if_neg other
  rw [stays] at row
  exact ⟨w, row, h.jt, h.cat, h.cpe⟩

/-- An ABANDON before the transfer's first DATA ends the repair (R165). -/
theorem abandon_repair_awaiting (sound : s.Sound) (h : Received s w) (hj : s.jobAt j = some job)
    (row : exec .abandonReceived s = .next (settle (jobAbandoned f.src reason j job w))) (hb : job.body = .repair r)
    (hi : job.entry = some i) (he : s.entryAt i = some e) (holder : r.holder = some f.src) (state : r.state = .awaitingData) :
    ∃ u, JobGone s j job reason.result f.src r.cleared e.damaged.length u
      ∧ (reason.result ≠ .ok → u.entryAt i = some { e with jobRefs := e.jobRefs - 1, repairHold := some (s.now + 60000) }) := by
  have hw : w.jobAt j = some job := (h.jobAt j).trans hj
  have ends : jobAbandoned f.src reason j job w = endJob j reason.result none w := by
    unfold jobAbandoned repairAbandoned
    rw [hb]
    dsimp only
    rw [if_pos holder, state]
  rw [ends] at row
  exact abandon_repair_ends row hw (fun k _ => h.jobAt k) (h.rising sound) ((h.entryAt i).trans he) h.now rfl rfl rfl hb hi holder

/-- The record of a repair that finishes its writes (R167). -/
def Job.finishing (r : RepairJob) (result : Result) (job : Job) : Job :=
  { job with
    body := .repair { r with state := .finishing, recorded := some (r.recorded.getD result) }
    rcv := none
    outbox := job.outbox.filter (fun f => !f.payload.isStep) }

theorem abandon_repair_stops (h : Received s w) (hj : s.jobAt j = some job)
    (row : exec .abandonReceived s = .next (settle (jobAbandoned f.src reason j job w))) (hb : job.body = .repair r)
    (holder : r.holder = some f.src) (state : r.state = .receiving) :
    exec .abandonReceived s = .next (settle (finishRepair j (putJob j (job.finishing r reason.result) w))) := by
  have stops : jobAbandoned f.src reason j job w = stopRepair j reason.result w := by
    unfold jobAbandoned repairAbandoned
    rw [hb]
    dsimp only
    rw [if_pos holder, state]
  rw [stops, stopRepair_put reason.result ((h.jobAt j).trans hj) hb] at row
  exact row

end Repair

end Abandon

/-- Settles O52: what `useNotice` does to a take's entry and to a placement, and `useAbandon` to each kind of job. -/
theorem noticesAndAbandons : Obligations.NoticesAndAbandons := by
  intro s f sound heard gone answered
  refine ⟨fun i e apart live => ⟨noticeHolds_learns sound heard apart live, noticeDropped_forgets sound heard apart live⟩,
    fun j i job t m e found take hi hs member awaiting live =>
      ⟨noticeHolds_answers sound heard found take hi hs member awaiting live,
       noticeDropped_answers sound heard found take hi hs member awaiting live⟩,
    fun reason payload back away => abandon_uncounts heard payload back away, fun reason j job payload found => ?_⟩
  obtain ⟨hj, tag, take, -⟩ := jobFor_spec sound found
  obtain ⟨w, h, row⟩ := exec_abandonReceived_taken heard payload found
  refine ⟨fun r i hb receiving hi live => abandon_receiving sound h hj row hb receiving hi,
    fun v i e hb hi he => abandon_serving sound h hj row hb hi he,
    fun r hb waits hi => abandon_pledged sound h hj row hb waits hi, fun r hb => ⟨abandon_offering h hj row hb,
      abandon_assigning h hj row hb, fun i e t m state hi he hs member => ⟨fun awaiting => ?answers, fun sending => ?leaves⟩⟩,
    fun p hb => ⟨abandon_play_ignored h row hb, abandon_play_pends h hj row hb, fun holder before => ?fails⟩,
    fun r i e hb hi he => ?repair⟩
  case answers => exact abandon_answers sound h hj row hb state hi he hs member awaiting
  case leaves =>
    have goes := abandon_leaves h hj row hb state hs member sending
    intro left owed
    let t₁ : Sender := t.without f.src
    have record : (putJob j { job with snd := some t₁ } w).jobAt j = some { job with snd := some t₁ } := jobAt_putJob_self ..
    have waits : t₁.waitedFor ≠ [] ↔ owed := by
      rw [waitedFor_eq, Ne, List.filter_eq_nil_iff]
      simp only [decide_eq_true_eq, not_forall, not_not, exists_prop]
      rfl
    refine ⟨fun all => abandon_lastLeaves sound h rfl goes all hb, fun given going => ?_, fun open_ owes => ?_,
      fun open_ quiet going standing empty room => ?_⟩
    · rw [advanceSender_over record rfl going given] at goes
      exact ⟨_, goes, h.cat, record⟩
    · rw [advanceSender_commits record rfl open_ (waits.mpr owes), commit_eq (t := t₁) rfl] at goes
      exact ⟨_, _, _, goes, h.cat, jobAt_putJob_self .., rfl, rfl, rfl, open_, Nat.le_max_left ..⟩
    · exact abandon_done h rfl goes going open_ (not_not.mp fun some => quiet (waits.mp some)) hb hi he tag take standing empty room
  case fails =>
    rw [abandon_play_fails hb holder before] at row
    exact ⟨abandon_play_reseeks sound h hj row hb holder take, abandon_play_ends sound h hj row hb holder before take,
      fun i e used own => abandon_play_local sound h hj row hb take used own⟩
  case repair =>
    intro ends
    refine ⟨abandon_repair_ignored h row hb, abandon_repair_awaiting sound h hj row hb hi he, fun holder state => ?_⟩
    have stops := abandon_repair_stops h hj row hb holder state
    have record : (putJob j (job.finishing r reason.result) w).jobAt j = some (job.finishing r reason.result) :=
      jobAt_putJob_self ..
    have outstanding : (putJob j (job.finishing r reason.result) w).outstanding j (job.finishing r reason.result)
        = s.outstanding j job := h.outstanding j job
    refine ⟨fun left => ?_, fun none idle => ?_⟩
    · have some : s.outstanding j job ≠ 0 := by
        unfold State.outstanding
        rcases left with reqs | issued
        · have := List.length_pos_iff.mpr reqs
          omega
        · rw [if_pos issued]
          omega
      rw [finishRepair_waits record rfl (by rw [outstanding]; exact some)] at stops
      exact ⟨_, stops, h.cat, record⟩
    · have zero : s.outstanding j job = 0 := by
        rw [State.outstanding, none, idle]
        rfl
      rw [finishRepair_ends record rfl rfl rfl (outstanding.trans zero)] at stops
      exact abandon_repair_ends (r := { r with state := .finishing, recorded := some (r.recorded.getD reason.result) }) stops record
        (fun k hk => (jobAt_putJob_ne _ _ hk).trans (h.jobAt k)) (putJob_jobs_rising _ (h.rising sound))
        ((h.entryAt i).trans he) h.now rfl (by rw [Job.kind, Job.kind, hb]; rfl) rfl rfl hi holder

end Sys2Proof.Machine

/-! ## Proofs: DATA at its receiver

SUPPORT. The class of a DATA frame (R131), its job's record as it is taken (R135), the STEP that follows (R134), discards. -/

namespace Sys2Proof.Machine

section Classes
variable {v : Receiver} {seq : Nat} {damaged : Bool} {block : List Byte}

/-- The block check agrees (R1, R131). -/
theorem blockGood_iff : blockGood block = true ↔ fieldAt block 16 2 = (crc16 ((block.drop 32).take 480)).toNat := beq_iff_eq

theorem classify_accept (pos : v.knownRun.posOf seq = some v.expected) (owed : v.expected < v.knownRun.total)
    (good : damaged = true ∨ blockGood block = true) : v.classify seq damaged block = .accept := by
  unfold Receiver.classify
  rw [pos]
  refine (if_pos owed).trans ((if_pos rfl).trans (if_pos ?_))
  rw [Bool.or_eq_true]
  exact good.symm

theorem classify_outOfOrder
    (class_ : (∀ p, v.knownRun.posOf seq = some p → p < v.knownRun.total → v.expected < p)
      ∨ v.knownRun.posOf seq = some v.expected ∧ v.expected < v.knownRun.total ∧ damaged = false ∧ ¬ blockGood block = true) :
    v.classify seq damaged block = .outOfOrder := by
  unfold Receiver.classify
  rcases class_ with above | ⟨pos, owed, sound, bad⟩
  · split
    next p pos =>
      by_cases inside : p < v.knownRun.total
      · have := above p pos inside
        rw [if_pos inside, if_neg (by omega), if_pos this]
      · rw [if_neg inside]
    next => rfl
  · rw [pos]
    refine (if_pos owed).trans ((if_pos rfl).trans (if_neg ?_))
    rw [sound, Bool.or_false]
    exact bad

theorem classify_duplicate (class_ : ∃ p, v.knownRun.posOf seq = some p ∧ p < v.knownRun.total ∧ p < v.expected) :
    v.classify seq damaged block = .duplicate := by
  obtain ⟨p, pos, inside, below⟩ := class_
  unfold Receiver.classify
  rw [pos]
  dsimp only
  rw [if_pos inside, if_neg (by omega), if_neg (by omega)]

theorem owed_iff : v.owed = true ↔ v.run = none ∨ v.expected < (v.run.getD headRun).total := by
  rw [Receiver.owed, Receiver.knownRun, Bool.or_eq_true, Option.isNone_iff_eq_none]
  exact or_congr Iff.rfl decide_eq_true_iff

end Classes

section Receiving
variable {s w : State} {f : Frame} {j seq : Nat} {damaged : Bool} {block : List Byte} {job : Job} {v : Receiver}

/-! ### The record a DATA is taken with -/

theorem touchReceiver_eq (now : Nat) (running : Bool) (v : Receiver) :
    touchReceiver now running v = { v with inactivity := if running then some (now + 500) else v.inactivity } := by
  cases running <;> rfl

/-- The first DATA takes a PLAY job out of AWAITING_DATA (R146). -/
def PlayJob.begun (p : PlayJob) : PlayJob :=
  if p.state = .awaitingData then { p with state := .playing, grantWait := none } else p

/-- The first DATA takes a REPAIR job out of AWAITING_DATA (R165). -/
def RepairJob.begun (r : RepairJob) : RepairJob :=
  if r.state = .awaitingData then { r with state := .receiving, grantWait := none } else r

/-- The record of a job with its body and its inactivity timer as a DATA sets them (R135). -/
def Job.touched (body : JobBody) (v : Receiver) (x : Option Nat) (job : Job) : Job :=
  { job with body := body, rcv := some { v with inactivity := x } }

/-- The timer that a DATA starts again while blocks are owed (R135). -/
def Receiver.timer (v : Receiver) (now : Nat) (running : Bool) : Option Nat := if running then some (now + 500) else v.inactivity

theorem exec_dataReceived (heard : s.lif.heard = some (.good f)) (kind : f.payload.kindCode = 7) :
    exec .dataReceived s = .next (settle (useData f (s.taken f))) := takeFrameOf_good useData heard kind

/-- A DATA at the job it is for (R75, R131). -/
def dataTaken (src j seq : Nat) (damaged : Bool) (block : List Byte) (job : Job) (w : State) : State :=
  match job.body with
  | .play p => if p.holder = some src then playData j seq damaged block w else w
  | .repair r => if r.holder = some src then repairData j seq damaged block w else w
  | .receive r => copyData j seq damaged block r w
  | _ => w

theorem useData_found (received : Received s w) (payload : f.payload = .data seq damaged block)
    (found : s.jobFor f = some (j, job)) (hr : job.rcv = some v) :
    useData f w = dataTaken f.src j seq damaged block job w := by
  unfold useData
  rw [payload]
  dsimp only
  rw [received.jobFor f, found]
  dsimp only
  rw [hr]
  rfl

theorem touchOwed_put (hr : job.rcv = some v) : touchOwed j (putJob j job w)
    = putJob j { job with rcv := some { v with inactivity := v.timer w.now v.owed } } w := by
  rw [touchOwed, modRcv_put (v := v) _ (jobAt_putJob_self ..) hr, putJob_putJob, touchReceiver_eq]
  rfl

theorem exec_data_play {p : PlayJob} (heard : s.lif.heard = some (.good f)) (payload : f.payload = .data seq damaged block)
    (found : s.jobFor f = some (j, job)) (hj : s.jobAt j = some job) (hr : job.rcv = some v) (hb : job.body = .play p)
    (holder : p.holder = some f.src) :
    exec .dataReceived s = .next (settle (receiveData j seq damaged block (playAccept j seq damaged block)
      (putJob j (job.touched (.play p.begun) v (v.timer s.now v.owed)) (s.taken f)))) := by
  have received := received_taken f s
  have hw : (s.taken f).jobAt j = some job := (received.jobAt j).trans hj
  rw [exec_dataReceived heard (by rw [payload]; rfl), useData_found received payload found hr, dataTaken, hb]
  dsimp only
  have begins : playData j seq damaged block (s.taken f) = receiveData j seq damaged block (playAccept j seq damaged block)
      (touchOwed j (modPlay j PlayJob.begun (s.taken f))) := rfl
  rw [if_pos holder, begins, modPlay_put PlayJob.begun hw hb, touchOwed_put (job := { job with body := .play p.begun }) hr, received.now]
  rfl

theorem exec_data_repair {r : RepairJob} (heard : s.lif.heard = some (.good f)) (payload : f.payload = .data seq damaged block)
    (found : s.jobFor f = some (j, job)) (hj : s.jobAt j = some job) (hr : job.rcv = some v) (hb : job.body = .repair r)
    (holder : r.holder = some f.src) :
    exec .dataReceived s = .next (settle (receiveData j seq damaged block (repairAccept j seq damaged block)
      (putJob j (job.touched (.repair r.begun) v (v.timer s.now v.owed)) (s.taken f)))) := by
  have received := received_taken f s
  have hw : (s.taken f).jobAt j = some job := (received.jobAt j).trans hj
  rw [exec_dataReceived heard (by rw [payload]; rfl), useData_found received payload found hr, dataTaken, hb]
  dsimp only
  have begins : repairData j seq damaged block (s.taken f) = receiveData j seq damaged block (repairAccept j seq damaged block)
      (touchOwed j (modRepair j RepairJob.begun (s.taken f))) := rfl
  rw [if_pos holder, begins, modRepair_put RepairJob.begun hw hb, touchOwed_put (job := { job with body := .repair r.begun }) hr, received.now]
  rfl

theorem exec_data_receive {r : ReceiveJob} (heard : s.lif.heard = some (.good f)) (payload : f.payload = .data seq damaged block)
    (found : s.jobFor f = some (j, job)) (hj : s.jobAt j = some job) (hr : job.rcv = some v) (hb : job.body = .receive r) :
    exec .dataReceived s = .next (settle (receiveData j seq damaged block (receiveAccept j seq damaged block)
      (putJob j (job.touched job.body v (v.timer s.now r.matched.isNone)) (s.taken f)))) := by
  have received := received_taken f s
  have hw : (s.taken f).jobAt j = some job := (received.jobAt j).trans hj
  rw [exec_dataReceived heard (by rw [payload]; rfl), useData_found received payload found hr, dataTaken, hb]
  dsimp only
  rw [copyData, modRcv_put (v := v) _ hw hr, touchReceiver_eq, received.now, Job.touched, ← hb]
  rfl

/-! ### What a DATA's class makes of it -/

theorem receiveData_accept (accept : State → State) (hr : job.rcv = some v) (class_ : v.classify seq damaged block = .accept) :
    receiveData j seq damaged block accept (putJob j job w) = accept (putJob j job w) := by
  rw [receiveData, jobAt_putJob_self, Option.bind_some, hr]
  dsimp only
  rw [class_]

theorem receiveData_outOfOrder (accept : State → State) (hr : job.rcv = some v)
    (class_ : v.classify seq damaged block = .outOfOrder) :
    receiveData j seq damaged block accept (putJob j job w) = discardData j true (putJob j job w) := by
  rw [receiveData, jobAt_putJob_self, Option.bind_some, hr]
  dsimp only
  rw [class_]

theorem receiveData_duplicate (accept : State → State) (hr : job.rcv = some v)
    (class_ : v.classify seq damaged block = .duplicate) :
    receiveData j seq damaged block accept (putJob j job w) = discardData j false (putJob j job w) := by
  rw [receiveData, jobAt_putJob_self, Option.bind_some, hr]
  dsimp only
  rw [class_]

/-- A discard that gives no STEP (R131, R134). -/
theorem discardData_silent {gap : Bool} (hr : job.rcv = some v)
    (silent : gap = true ∧ v.gapReported = true ∨ gap = false ∧ v.owed = true) :
    discardData j gap (putJob j job w) = putJob j job w := by
  rw [discardData, jobAt_putJob_self, Option.bind_some, hr]
  dsimp only
  rcases silent with ⟨rfl, told⟩ | ⟨rfl, owed⟩
  · rw [if_pos rfl, if_pos told]
  · rw [if_neg (by decide), if_pos owed]

/-- A discard that gives a STEP: the first gap, or a block after the run (R131, R134). -/
theorem discardData_steps {gap : Bool} (hr : job.rcv = some v)
    (steps : gap = true ∧ v.gapReported = false ∨ gap = false ∧ v.owed = false) :
    discardData j gap (putJob j job w)
      = giveStep j (putJob j { job with rcv := some { v with gapReported := gap || v.gapReported } } w) := by
  rw [discardData, jobAt_putJob_self, Option.bind_some, hr]
  dsimp only
  rcases steps with ⟨rfl, fresh⟩ | ⟨rfl, whole⟩
  · rw [if_pos rfl, if_neg (by rw [fresh]; decide), modRcv_put (v := v) _ (jobAt_putJob_self ..) hr, putJob_putJob]
    rfl
  · rw [if_neg (by decide), if_neg (by rw [whole]; decide)]
    have same : job = { job with rcv := some { v with gapReported := false || v.gapReported } } := by
      rw [Bool.false_or, ← hr]
    rw [← same]

/-! ### The STEP after an acceptance -/

/-- The frame of a STEP that a job gives (R133, R134). -/
def State.stepFrame (w : State) (j : Nat) (job : Job) (v : Receiver) : Frame :=
  w.jobFrame job job.stepTo.1 job.stepTo.2 (.step (v.knownRun.seqAt v.expected) (w.credit j job))

/-- What an acceptance causes (R134): with 8 accepted or the run whole a STEP, and the counts start again. -/
theorem stepAfterAccept_put (hr : job.rcv = some v) : ∃ accepted stepTimer outbox queue plain,
    stepAfterAccept j (putJob j job w) = putJob j { job with
        rcv := some { v with accepted := accepted, stepTimer := stepTimer }, outbox := outbox }
        { w with lif.queue := queue, hou.plain := plain }
      ∧ (v.accepted ≠ 8 → v.owed = true → accepted = v.accepted)
      ∧ (v.accepted = 8 ∨ v.owed = false → accepted = 0)
      ∧ (v.owed = false → job.outbox = [] → w.linkStanding = true → w.lif.queue.length < 16 →
          queue = w.lif.queue ++ [{ frame := w.stepFrame j job v, owner := some j }]) := by
  have looks : stepAfterAccept j (putJob j job w)
      = if v.accepted = 8 ∨ v.owed = false then giveStep j (putJob j job w) else putJob j job w := by
    rw [stepAfterAccept, jobAt_putJob_self, Option.bind_some, hr]
  by_cases gives : v.accepted = 8 ∨ v.owed = false
  · let job' : Job := { job with
      rcv := some { v with accepted := 0, stepTimer := if v.owed then some ((putJob j job w).now + 20) else none },
      outbox := job.outbox.filter (fun f => !f.payload.isStep) }
    obtain ⟨outbox, queue, plain, gave, taken⟩ := giveFrame_spec ((putJob j job w).stepFrame j job v) (jobAt_putJob_self j job' w)
    refine ⟨0, if v.owed then some ((putJob j job w).now + 20) else none, outbox, queue, plain, ?_, fun few owed => ?_, fun _ => rfl, fun _ empty standing room => ?_⟩
    · rw [looks, if_pos gives, giveStep_put (jobAt_putJob_self ..) hr, putJob_putJob]
      refine gave.trans ?_
      exact putJob_putJob j job' _ { w with lif.queue := queue, hou.plain := plain }
    · rcases gives with eight | whole
      · exact absurd eight few
      · rw [owed] at whole
        cases whole
    · exact (taken (by show job.outbox.filter _ = []; rw [empty]; rfl) standing room).2
  · refine ⟨v.accepted, v.stepTimer, job.outbox, w.lif.queue, w.hou.plain, ?_, fun _ _ => rfl, fun h => absurd h gives,
      fun whole => absurd (.inr whole) gives⟩
    rw [looks, if_neg gives]
    have same : job = { job with rcv := some { v with accepted := v.accepted, stepTimer := v.stepTimer }, outbox := job.outbox } := by
      rw [← hr]
    rw [← same]

end Receiving

end Sys2Proof.Machine

namespace Sys2Proof.Machine

section Discards
variable {s w : State} {f : Frame} {j seq : Nat} {damaged : Bool} {block : List Byte} {job : Job} {v : Receiver}

/-- A frame of a job that holds none: it joins the queue, or stays with the job (R78). -/
theorem giveFrame_cases (g : Frame) (hj : w.jobAt j = some job) : ∃ outbox queue plain,
    giveFrame j g w = putJob j { job with outbox := outbox } { w with lif.queue := queue, hou.plain := plain }
      ∧ (job.outbox = [] →
        (w.linkStanding = true → w.lif.queue.length < 16 → queue = w.lif.queue ++ [{ frame := g, owner := some j }] ∧ outbox = [])
        ∧ (w.linkStanding = false ∨ 16 ≤ w.lif.queue.length → queue = w.lif.queue ∧ outbox = [g])) := by
  by_cases takes : w.txTakes = true
  · obtain ⟨outbox, queue, plain, gave, taken⟩ := giveFrame_spec g hj
    obtain ⟨stands, space⟩ := txTakes_iff.mp takes
    refine ⟨outbox, queue, plain, gave, fun empty => ⟨fun standing room => (taken empty standing room).symm, fun refused => ?_⟩⟩
    rcases refused with down | full
    · rw [stands] at down
      cases down
    · exact absurd space (Nat.not_lt.mpr full)
  · refine ⟨job.outbox ++ [g], w.lif.queue, w.hou.plain, giveFrame_refused g hj (Bool.eq_false_iff.mpr takes), fun empty =>
      ⟨fun standing room => absurd (txTakes_iff.mpr ⟨standing, room⟩) takes, fun _ => ⟨rfl, by rw [empty]; rfl⟩⟩⟩

/-- The jobs that a DATA can be for (R122, R131): body and timer as it leaves them, and the direction of the job's STEPs. -/
def DataFor (s : State) (f : Frame) (job : Job) (v : Receiver) (body : JobBody) (dir : Direction) (timed : Prop) : Prop :=
  (∃ p, job.body = .play p ∧ p.holder = some f.src ∧ dir = .out
      ∧ (timed ↔ v.run = none ∨ v.expected < (v.run.getD headRun).total) ∧ body = .play p.begun)
    ∨ (∃ r, job.body = .repair r ∧ r.holder = some f.src ∧ dir = .out
      ∧ (timed ↔ v.run = none ∨ v.expected < (v.run.getD headRun).total) ∧ body = .repair r.begun)
    ∨ (∃ r, job.body = .receive r ∧ body = job.body ∧ dir = .back ∧ (timed ↔ r.matched = none))

theorem timer_eq {timed : Prop} {running : Bool} {now : Nat} {x : Option Nat} (same : timed ↔ running = true)
    (on : timed → x = some (now + 500)) (off : ¬ timed → x = v.inactivity) : v.timer now running = x := by
  unfold Receiver.timer
  by_cases h : running = true
  · rw [if_pos h, on (same.mpr h)]
  · rw [if_neg h, off fun t => h (same.mp t)]

/-- A DATA at its job: the record it is taken with, and what takes it further. -/
theorem data_row {body : JobBody} {dir : Direction} {timed : Prop} {x : Option Nat} (heard : s.lif.heard = some (.good f))
    (payload : f.payload = .data seq damaged block) (found : s.jobFor f = some (j, job)) (hj : s.jobAt j = some job)
    (hr : job.rcv = some v) (for_ : DataFor s f job v body dir timed) (on : timed → x = some (s.now + 500))
    (off : ¬ timed → x = v.inactivity) : ∃ accept, exec .dataReceived s
      = .next (settle (receiveData j seq damaged block accept (putJob j (job.touched body v x) (s.taken f)))) := by
  rcases for_ with ⟨p, hb, holder, -, timing, rfl⟩ | ⟨r, hb, holder, -, timing, rfl⟩ | ⟨r, hb, rfl, -, timing⟩
  · rw [← timer_eq (timing.trans owed_iff.symm) on off]
    exact ⟨_, exec_data_play heard payload found hj hr hb holder⟩
  · rw [← timer_eq (timing.trans owed_iff.symm) on off]
    exact ⟨_, exec_data_repair heard payload found hj hr hb holder⟩
  · rw [← timer_eq (timing.trans Option.isNone_iff_eq_none.symm) on off]
    exact ⟨_, exec_data_receive heard payload found hj hr hb⟩

theorem stepTo_receive {r : ReceiveJob} (hb : job.body = .receive r) : job.stepTo = (job.opener, .back) := by
  rw [Job.stepTo, hb]

theorem room_receive {r : ReceiveJob} (hb : job.body = .receive r) : s.room j job = 8 - s.outstanding j job := by
  rw [State.room, hb]

/-- Where the job's STEPs go, and the credit they carry (R122, R133). -/
theorem data_stepTo {body : JobBody} {dir : Direction} {timed : Prop} {x : Option Nat} {rcv : Option Receiver}
    (takes : job.opened s.own f = true ∨ job.answering s.own f = true)
    (for_ : DataFor s f job v body dir timed) (received : Received s w) :
    ({ job.touched body v x with rcv := rcv } : Job).stepTo = (f.src, dir)
      ∧ w.credit j { job.touched body v x with rcv := rcv } = min 8 (s.room j job) := by
  have credit (room : w.room j { job.touched body v x with rcv := rcv } = s.room j job) :
      w.credit j { job.touched body v x with rcv := rcv } = min 8 (s.room j job) := by rw [State.credit, room]
  have outstanding : w.outstanding j { job.touched body v x with rcv := rcv } = s.outstanding j job :=
    received.outstanding j job
  rcases for_ with ⟨p, hb, holder, rfl, -, rfl⟩ | ⟨r, hb, holder, rfl, -, rfl⟩ | ⟨r, hb, rfl, rfl, -⟩
  · have kept : p.begun.holder = p.holder ∧ p.begun.slots = p.slots := by
      unfold PlayJob.begun
      split <;> exact ⟨rfl, rfl⟩
    refine ⟨stepTo_play rfl (kept.1.trans holder), credit ?_⟩
    show 96 - p.begun.slots.length = s.room j job
    rw [kept.2, State.room, hb]
  · have kept : r.begun.holder = r.holder := by
      unfold RepairJob.begun
      split <;> rfl
    refine ⟨stepTo_repair rfl (kept.trans holder), credit ?_⟩
    rw [State.room, State.room, hb, outstanding]
    rfl
  · have opener := opener_of_answering (.inr (by rw [Job.kind, hb]; rfl)) takes
    refine ⟨?_, credit ?_⟩
    · rw [opener]
      exact stepTo_receive hb
    · rw [room_receive (job := { job.touched job.body v x with rcv := rcv }) hb, outstanding]
      exact (room_receive hb).symm

/-- A discard that gives its STEP (R134): the counts start again, the STEP names E. -/
theorem giveStep_touched {g : Bool} {x : Option Nat} {body : JobBody} (received : Received s w) :
    ∃ outbox queue plain, giveStep j (putJob j { job.touched body v x with
        rcv := some { v with inactivity := x, gapReported := g || v.gapReported } } w)
      = putJob j { job.touched body v x with
          outbox := outbox
          rcv := some { v with inactivity := x, gapReported := g || v.gapReported, accepted := 0,
                               stepTimer := if v.owed then some (s.now + 20) else none } }
          { w with lif.queue := queue, hou.plain := plain }
      ∧ ((∀ y ∈ job.outbox, y.payload.isStep = true) → ∀ step, step = w.stepFrame j { job.touched body v x with
            rcv := some { v with inactivity := x, gapReported := g || v.gapReported } } v →
        (s.linkStanding = true → s.lif.queue.length < 16 →
          queue = s.lif.queue ++ [{ frame := step, owner := some j }] ∧ outbox = [])
        ∧ (s.linkStanding = false ∨ 16 ≤ s.lif.queue.length → queue = s.lif.queue ∧ outbox = [step])) := by
  let v₁ : Receiver := { v with inactivity := x, gapReported := g || v.gapReported }
  let job₁ : Job := { job.touched body v x with rcv := some v₁ }
  let job₂ : Job := { job₁ with
    rcv := some { v₁ with accepted := 0, stepTimer := if v.owed then some (w.now + 20) else none },
    outbox := job.outbox.filter (fun f => !f.payload.isStep) }
  obtain ⟨outbox, queue, plain, gave, queued⟩ := giveFrame_cases (w.stepFrame j job₁ v) (jobAt_putJob_self j job₂ w)
  refine ⟨outbox, queue, plain, ?_, fun steps step is => ?_⟩
  · have put : giveStep j (putJob j job₁ w) = giveFrame j (w.stepFrame j job₁ v) (putJob j job₂ w) := by
      rw [giveStep_put (job := job₁) (v := v₁) (jobAt_putJob_self ..) rfl, putJob_putJob]
      rfl
    refine (put.trans gave).trans ?_
    rw [← received.now]
    exact putJob_putJob j job₂ _ { w with lif.queue := queue, hou.plain := plain }
  · have none : job₂.outbox = [] := List.filter_eq_nil_iff.mpr fun y hy => by rw [steps y hy]; decide
    obtain ⟨gives, keeps⟩ := queued none
    rw [show (putJob j job₂ w).linkStanding = s.linkStanding from received.linkStanding,
      show (putJob j job₂ w).lif.queue = s.lif.queue from received.queue, ← is] at gives keeps
    exact ⟨gives, keeps⟩

end Discards

/-- The discards of DATA: with no STEP the job's record alone changes, and with one its counts and its frames (R131, R134). -/
theorem data_discards (s : State) (f : Frame) (seq j : Nat) (damaged : Bool) (block : List Byte) (job : Job) (v : Receiver)
    (body : JobBody) (dir : Direction) (timed : Prop) (sound : s.Sound) (heard : s.lif.heard = some (.good f))
    (payload : f.payload = .data seq damaged block) (found : s.jobFor f = some (j, job)) (hr : job.rcv = some v)
    (for_ : DataFor s f job v body dir timed) (x : Option Nat) (on : timed → x = some (s.now + 500))
    (off : ¬ timed → x = v.inactivity) (outOfOrder duplicate owed : Prop)
    (gap : outOfOrder → v.classify seq damaged block = .outOfOrder)
    (again : duplicate → v.classify seq damaged block = .duplicate) (owes : owed ↔ v.owed = true) (step : Frame)
    (stepIs : step = { src := s.own, dst := f.src, dir := dir, tag := f.tag, take := f.take,
                       payload := .step (v.knownRun.seqAt v.expected) (min 8 (s.room j job)) }) :
    (outOfOrder ∧ v.gapReported = true ∨ duplicate ∧ owed →
      exec .dataReceived s = .next (settle
        { (if f.dst = s.own then reload { s with lif.heard := none } else { s with lif.heard := none }) with
          jt.jobs := smapSet s.jt.jobs j { job with body := body, rcv := some { v with inactivity := x } } }))
    ∧ (outOfOrder ∧ v.gapReported = false ∨ duplicate ∧ ¬ owed →
      ∃ u job' v', exec .dataReceived s = .next (settle u) ∧ u.jobAt j = some job' ∧ job'.rcv = some v'
        ∧ { v' with stepTimer := v.stepTimer } =
            { v with accepted := 0, inactivity := x, gapReported := v'.gapReported }
        ∧ (outOfOrder → v'.gapReported = true) ∧ (duplicate → v'.gapReported = v.gapReported)
        ∧ (owed → v'.stepTimer = some (s.now + 20)) ∧ (¬ owed → v'.stepTimer = none)
        ∧ job'.body = body ∧ job'.reqs = job.reqs ∧ u.cat = s.cat ∧ u.med = s.med ∧ u.port = s.port
        ∧ (∀ k, k ≠ j → u.jobAt k = s.jobAt k)
        ∧ ((∀ y ∈ job.outbox, y.payload.isStep = true) →
          (s.linkStanding = true → s.lif.queue.length < 16 →
            u.lif.queue = s.lif.queue ++ [{ frame := step, owner := some j }] ∧ job'.outbox = [])
          ∧ (s.linkStanding = false ∨ 16 ≤ s.lif.queue.length → u.lif.queue = s.lif.queue ∧ job'.outbox = [step]))) := by
  obtain ⟨hj, tag, take, takes⟩ := jobFor_spec sound found
  have received := received_taken f s
  obtain ⟨accept, row⟩ := data_row heard payload found hj hr for_ on off
  let v₀ : Receiver := { v with inactivity := x }
  have discards (gapped : Bool) (class_ : outOfOrder ∧ gapped = true ∨ duplicate ∧ gapped = false) :
      receiveData j seq damaged block accept (putJob j (job.touched body v x) (s.taken f))
        = discardData j gapped (putJob j (job.touched body v x) (s.taken f)) := by
    rcases class_ with ⟨above, rfl⟩ | ⟨below, rfl⟩
    · exact receiveData_outOfOrder (v := v₀) accept rfl (gap above)
    · exact receiveData_duplicate (v := v₀) accept rfl (again below)
  refine ⟨fun silent => ?_, fun steps => ?_⟩
  · obtain ⟨gapped, class_, quiet⟩ : ∃ gapped, (outOfOrder ∧ gapped = true ∨ duplicate ∧ gapped = false)
        ∧ (gapped = true ∧ v₀.gapReported = true ∨ gapped = false ∧ v₀.owed = true) := by
      rcases silent with ⟨above, told⟩ | ⟨below, owing⟩
      · exact ⟨true, .inl ⟨above, rfl⟩, .inl ⟨rfl, told⟩⟩
      · exact ⟨false, .inr ⟨below, rfl⟩, .inr ⟨rfl, owes.mp owing⟩⟩
    rw [row, discards gapped class_, discardData_silent (v := v₀) rfl quiet]
    have jobs : (s.taken f).jt.jobs = s.jt.jobs := by rw [received.jt]
    unfold putJob
    rw [jobs]
    rfl
  · obtain ⟨gapped, class_, loud, fresh, same⟩ : ∃ gapped, (outOfOrder ∧ gapped = true ∨ duplicate ∧ gapped = false)
        ∧ (gapped = true ∧ v₀.gapReported = false ∨ gapped = false ∧ v₀.owed = false)
        ∧ (outOfOrder → gapped = true) ∧ (duplicate → gapped = false) := by
      have apart (above : outOfOrder) (below : duplicate) : False := by
        have := (gap above).symm.trans (again below)
        cases this
      rcases steps with ⟨above, fresh⟩ | ⟨below, whole⟩
      · exact ⟨true, .inl ⟨above, rfl⟩, .inl ⟨rfl, fresh⟩, fun _ => rfl, fun below => (apart above below).elim⟩
      · exact ⟨false, .inr ⟨below, rfl⟩, .inr ⟨rfl, Bool.eq_false_iff.mpr fun h => whole (owes.mpr h)⟩,
          fun above => (apart above below).elim, fun _ => rfl⟩
    obtain ⟨outbox, queue, plain, gave, queued⟩ := giveStep_touched (j := j) (job := job) (v := v) (g := gapped) (x := x) (body := body) received
    rw [discards gapped class_, discardData_steps (v := v₀) rfl loud,
      show giveStep j _ = _ from gave] at row
    obtain ⟨goes, credit⟩ := data_stepTo (j := j) (x := x) (rcv := some { v with inactivity := x, gapReported := gapped || v.gapReported })
      takes for_ received
    refine ⟨_, _, _, row, jobAt_putJob_self .., rfl, rfl, fun above => ?_, fun below => ?_, fun owing => if_pos (owes.mp owing),
      fun whole => if_neg fun h => whole (owes.mpr h), rfl, rfl, received.cat, received.med, received.port,
      fun k hk => (jobAt_putJob_ne _ _ hk).trans (received.jobAt k), fun all => queued all step ?_⟩
    · rw [fresh above]
      rfl
    · rw [same below]
      rfl
    · rw [State.stepFrame, goes, credit, stepIs, ← received.own]
      exact (jobFrame_eq (s := s.taken f) tag take _ _ _).symm

end Sys2Proof.Machine

namespace Sys2Proof.Machine

section Receive
variable {s w : State} {f : Frame} {j i seq : Nat} {damaged : Bool} {block : List Byte} {job : Job} {v : Receiver} {r : ReceiveJob}
  {e : Entry} {run : Run}

/-! ### A block accepted by a RECEIVE job (R132) -/

/-- An accepted block is queued as an append write, and counts (R132, R134). -/
theorem receiveAppend_put (g : Receiver → Receiver) (hr : job.rcv = some v) : ∃ accepted stepTimer outbox queue plain,
    receiveAppend j block g (putJob j job w) = putJob j { job with
        reqs := job.reqs ++ [.append block], outbox := outbox
        rcv := some { (g v).accepting false with accepted := accepted, stepTimer := stepTimer } }
        { w with lif.queue := queue, hou.plain := plain }
      ∧ ((g v).accepted ≠ 7 → ((g v).accepting false).owed = true → accepted = (g v).accepted + 1)
      ∧ ((g v).accepted = 7 ∨ ((g v).accepting false).owed = false → accepted = 0) := by
  obtain ⟨accepted, stepTimer, outbox, queue, plain, stepped, kept, zero, -⟩ := stepAfterAccept_put (j := j) (w := w)
    (job := { job with reqs := job.reqs ++ [.append block], rcv := some ((g v).accepting false) }) (v := (g v).accepting false) rfl
  refine ⟨accepted, stepTimer, outbox, queue, plain, ?_, fun few owed => kept (fun eight => few (by
    have : (g v).accepted + 1 = 8 := eight
    omega)) owed, fun h => zero ?_⟩
  · rw [receiveAppend, modJob_putJob,
      modRcv_put (job := { job with reqs := job.reqs ++ [.append block] }) (v := v) _ (jobAt_putJob_self ..) hr, putJob_putJob]
    exact stepped
  · rcases h with seven | whole
    · exact .inl (by show (g v).accepted + 1 = 8; omega)
    · exact .inr whole

theorem receiveAccept_appends (hb : job.body = .receive r) (hi : job.entry = some i) (sound : damaged = false) (ne : seq ≠ 0) :
    receiveAccept j seq damaged block (putJob j job w)
      = receiveAppend j block (fun v => { v with check := crc32On v.check (filledBytes r.format block) }) (putJob j job w) := by
  unfold receiveAccept Job.receiveOf
  rw [jobAt_putJob_self]
  dsimp only
  rw [hb, hi]
  dsimp only
  rw [if_neg (by rw [sound]; decide), if_neg ne]

theorem receiveAccept_head {h : HeadInfo} (hb : job.body = .receive r) (hi : job.entry = some i) (sound : damaged = false)
    (decodes : headOfPayload (blockPayload block) = some h) (fits : some h.take = job.take ∧ h.storedBlocks = r.storedBlocks) :
    receiveAccept j 0 damaged block (putJob j job w)
      = receiveAppend j block id (changeEntry i (Entry.described h) (putJob j job w)) := by
  unfold receiveAccept Job.receiveOf
  rw [jobAt_putJob_self]
  dsimp only
  rw [hb, hi]
  dsimp only
  rw [if_neg (by rw [sound]; decide), if_pos rfl, decodes]
  exact if_pos fits

theorem receiveAccept_fails (hb : job.body = .receive r) (hi : job.entry = some i)
    (bad : damaged = true ∨ seq = 0 ∧ ∃ h, headOfPayload (blockPayload block) = some h
      ∧ ¬ (some h.take = job.take ∧ h.storedBlocks = r.storedBlocks)) :
    receiveAccept j seq damaged block (putJob j job w) = failReceive j .checkFailed .checkFailed (putJob j job w) := by
  unfold receiveAccept Job.receiveOf
  rw [jobAt_putJob_self]
  dsimp only
  rw [hb, hi]
  dsimp only
  rcases bad with hurt | ⟨zero, h, decodes, misfit⟩
  · exact if_pos hurt
  · by_cases hurt : damaged = true
    · exact if_pos hurt
    · rw [if_neg hurt, if_pos zero, decodes]
      exact if_neg misfit

/-- A block that a RECEIVE job does not take ends it CHECK_FAILED, its entry freed (R132, R138). -/
theorem data_receive_fails (sound : s.Sound) (received : Received s w) (hb : job.body = .receive r) (hi : job.entry = some i)
    (row : exec .dataReceived s = .next (settle (failReceive j .checkFailed .checkFailed (putJob j job w)))) :
    ∃ u x, exec .dataReceived s = .next (settle u) ∧ u.jobAt j = none ∧ u.entryAt i = none
      ∧ u = raise (.doneJob job.tag .receive .checkFailed job.take 0 0 0) x := by
  have record : (putJob j job w).jobAt j = some job := jobAt_putJob_self ..
  have rising := putJob_jobs_rising (j := j) job (received.rising sound)
  rw [failReceive_eq .checkFailed .checkFailed record] at row
  obtain ⟨x, ended⟩ := endJob_receive .checkFailed
    (some ((putJob j job w).jobFrame job job.opener .back (.abandon .checkFailed))) record hb
  exact ⟨_, x, row, (endJob_jobAt _ _ rising record j).trans (if_pos rfl),
    endJob_receive_frees _ (received.entries sound) record hb hi (by decide), ended⟩

/-- The row of a block at E of a RECEIVE job. -/
theorem data_receive_row (sound : s.Sound) (heard : s.lif.heard = some (.good f)) (payload : f.payload = .data seq damaged block)
    (found : s.jobFor f = some (j, job)) (hr : job.rcv = some v) (hrun : v.run = some run) (owed : v.expected < run.total)
    (hb : job.body = .receive r) (unmatched : r.matched = none) (head : run.head = false) (first : run.first = 0)
    (at_ : seq = v.expected) (good : damaged = true ∨ blockGood block = true) :
    exec .dataReceived s = .next (settle (receiveAccept j seq damaged block
      (putJob j (job.touched job.body v (some (s.now + 500))) (s.taken f)))) := by
  obtain ⟨hj, -⟩ := jobFor_spec sound found
  let v₀ : Receiver := { v with inactivity := some (s.now + 500) }
  have known : v₀.knownRun = run := by rw [Receiver.knownRun, show v₀.run = some run from hrun]; rfl
  have total : run.total = run.count := by rw [Run.total, head]; rfl
  have pos : run.posOf seq = some v.expected := by
    rw [Run.posOf, head, first, at_]
    exact (if_neg (by decide)).trans (if_pos ⟨Nat.zero_le _, by omega⟩)
  have row := exec_data_receive heard payload found hj hr hb
  rw [Receiver.timer, unmatched, Option.isNone_none, if_pos rfl,
    receiveData_accept (v := v₀) _ rfl (classify_accept (by rw [known]; exact pos) (by rw [known]; exact owed) good)] at row
  exact row

/-- A sound block at E of a RECEIVE job (R132, R134). -/
theorem data_receive_sound (sound : s.Sound) (heard : s.lif.heard = some (.good f)) (payload : f.payload = .data seq damaged block)
    (found : s.jobFor f = some (j, job)) (hr : job.rcv = some v) (hrun : v.run = some run) (owed : v.expected < run.total)
    (hb : job.body = .receive r) (unmatched : r.matched = none) (hi : job.entry = some i) (head : run.head = false)
    (first : run.first = 0) (whole : damaged = false) (at_ : seq = v.expected) (ne : seq ≠ 0) (good : blockGood block = true) :
    ∃ u job' v', exec .dataReceived s = .next (settle u) ∧ u.jobAt j = some job' ∧ job'.rcv = some v'
      ∧ v'.expected = v.expected + 1 ∧ v'.gapReported = false ∧ v'.inactivity = some (s.now + 500)
      ∧ v'.check = crc32On v.check (filledBytes r.format block) ∧ job'.reqs = job.reqs ++ [.append block]
      ∧ job'.body = job.body ∧ (v.accepted < 7 → v.expected + 1 < run.count → v'.accepted = v.accepted + 1)
      ∧ (v.accepted = 7 ∨ v.expected + 1 = run.count → v'.accepted = 0)
      ∧ u.cat = s.cat ∧ u.med = s.med ∧ (∀ k, k ≠ j → u.jobAt k = s.jobAt k) := by
  have received := received_taken f s
  have row := data_receive_row sound heard payload found hr hrun owed hb unmatched head first at_ (.inr good)
  let g : Receiver → Receiver := fun v => { v with check := crc32On v.check (filledBytes r.format block) }
  let v₀ : Receiver := { v with inactivity := some (s.now + 500) }
  obtain ⟨accepted, stepTimer, outbox, queue, plain, appended, kept, zero⟩ := receiveAppend_put (j := j) (w := s.taken f)
    (block := block) (job := job.touched job.body v (some (s.now + 500))) (v := v₀) g rfl
  have more : ((g v₀).accepting false).owed = true ↔ v.expected + 1 < run.count := by
    rw [owed_iff, show ((g v₀).accepting false).run = some run from hrun, Option.getD_some, Run.total, head]
    exact or_iff_right (by simp)
  rw [receiveAccept_appends (job := job.touched job.body v (some (s.now + 500))) hb hi whole ne, show receiveAppend j block _ _ = _ from appended] at row
  refine ⟨_, _, _, row, jobAt_putJob_self .., rfl, rfl, rfl, rfl, rfl, rfl, rfl, fun few owes => kept (Nat.ne_of_lt few) (more.mpr owes),
    fun h => zero ?_, received.cat, received.med, fun k hk => (jobAt_putJob_ne _ _ hk).trans (received.jobAt k)⟩
  rcases h with seven | last
  · exact .inl seven
  · exact .inr (Bool.eq_false_iff.mpr fun h => by
      have := more.mp h
      omega)

/-- A head block that fits at E of a RECEIVE job (R132). -/
theorem data_receive_head {h : HeadInfo} (sound : s.Sound) (heard : s.lif.heard = some (.good f))
    (payload : f.payload = .data seq damaged block)
    (found : s.jobFor f = some (j, job)) (hr : job.rcv = some v) (hrun : v.run = some run) (owed : v.expected < run.total)
    (hb : job.body = .receive r) (unmatched : r.matched = none) (hi : job.entry = some i) (he : s.entryAt i = some e)
    (head : run.head = false) (first : run.first = 0) (whole : damaged = false) (zero : seq = 0) (start : v.expected = 0)
    (good : blockGood block = true) (decodes : headOfPayload (blockPayload block) = some h)
    (fits : some h.take = job.take ∧ h.storedBlocks = r.storedBlocks) :
    ∃ u job' v', exec .dataReceived s = .next (settle u) ∧ u.jobAt j = some job' ∧ job'.rcv = some v'
      ∧ v'.expected = 1 ∧ v'.check = v.check ∧ job'.reqs = job.reqs ++ [.append block]
      ∧ u.entryAt i = some { e with timelineLength := h.timelineLength, storedFrames := h.storedFrames, gaps := h.gaps,
                                    clips := h.clips, endCause := some h.endCause, label := h.label }
      ∧ .entry i ∈ u.cat.wt ∧ (∀ k, k ≠ i → u.entryAt k = s.entryAt k) ∧ u.med = s.med := by
  have received := received_taken f s
  have row := data_receive_row sound heard payload found hr hrun owed hb unmatched head first (zero.trans start.symm) (.inr good)
  obtain ⟨wt, changed, waits⟩ := changeEntry_eq
    (s := putJob j (job.touched job.body v (some (s.now + 500))) (s.taken f)) (i := i) (e := e) (Entry.described h)
    ((received.entryAt i).trans he)
  obtain ⟨accepted, stepTimer, outbox, queue, plain, appended, -, -⟩ := receiveAppend_put (j := j)
    (w := { s.taken f with cat.entries := smapSet (s.taken f).cat.entries i (e.described h), cat.wt := wt })
    (block := block) (job := job.touched job.body v (some (s.now + 500))) (v := { v with inactivity := some (s.now + 500) }) id rfl
  rw [zero, receiveAccept_head (job := job.touched job.body v (some (s.now + 500))) hb hi whole decodes fits, changed] at row
  replace row := row.trans (congrArg (fun u => Host.Outcome.next (settle u)) appended)
  refine ⟨_, _, _, row, jobAt_putJob_self .., rfl, congrArg (· + 1) start, rfl, rfl, smapGet_smapSet_self .., waits, fun k hk => ?_,
    received.med⟩
  exact (smapGet_smapSet_ne _ _ hk).trans (received.entryAt k)

end Receive

section Play
variable {s w : State} {f : Frame} {j seq : Nat} {damaged : Bool} {block : List Byte} {job : Job} {v : Receiver} {p : PlayJob}
  {run : Run}

/-! ### A block accepted by a PLAY job (R151) -/

theorem drainIfWhole_owed (hr : job.rcv = some v) (owed : v.owed = true) : drainIfWhole j (putJob j job w) = putJob j job w := by
  rw [drainIfWhole, jobAt_putJob_self, Option.bind_some, hr]
  exact if_pos owed

/-- With the last position the job is DRAINING, and its inactivity timer stops (R135, R151). -/
theorem drainIfWhole_whole (hr : job.rcv = some v) (hb : job.body = .play p) (whole : v.owed = false) :
    drainIfWhole j (putJob j job w) = putJob j { job with
      rcv := some { v with inactivity := none }, body := .play { p with state := .draining } } w := by
  rw [drainIfWhole, jobAt_putJob_self, Option.bind_some, hr]
  refine (if_neg (by rw [whole]; decide)).trans ?_
  rw [modRcv_put (job := job) (v := v) _ (jobAt_putJob_self ..) hr, putJob_putJob,
    modPlay_put (job := { job with rcv := some { v with inactivity := none } }) _ (jobAt_putJob_self ..) hb, putJob_putJob]

/-- The slot an accepted sound block takes (R151). -/
def PlayJob.withSlot (seq : Nat) (damaged : Bool) (block : List Byte) (p : PlayJob) : PlayJob :=
  { p with slots := p.slots ++ [{ seq := seq, ready := true, damaged := damaged, bytes := block }] }

theorem playAccept_sound (hr : job.rcv = some v) (hb : job.body = .play p) (ne : seq ≠ 0) :
    playAccept j seq damaged block (putJob j job w) = drainIfWhole j (stepAfterAccept j (putJob j { job with
      body := .play (p.withSlot seq damaged block), rcv := some (v.accepting damaged) } w)) := by
  have put : modRcv j (Receiver.accepting damaged) (modPlay j (PlayJob.withSlot seq damaged block) (putJob j job w))
      = putJob j { job with body := .play (p.withSlot seq damaged block), rcv := some (v.accepting damaged) } w := by
    rw [modPlay_put (job := job) _ (jobAt_putJob_self ..) hb, putJob_putJob,
      modRcv_put (job := { job with body := .play (p.withSlot seq damaged block) }) (v := v) _ (jobAt_putJob_self ..) hr, putJob_putJob]
  rw [← put]
  unfold playAccept Job.playOf
  rw [jobAt_putJob_self]
  dsimp only
  rw [hb]
  exact if_neg ne

/-- A sound block at E of a PLAY job (R131, R151). -/
theorem data_play_sound (sound : s.Sound) (heard : s.lif.heard = some (.good f)) (payload : f.payload = .data seq damaged block)
    (found : s.jobFor f = some (j, job)) (hr : job.rcv = some v) (hrun : v.run = some run) (owed : v.expected < run.total)
    (hb : job.body = .play p) (holder : p.holder = some f.src) (state : p.state = .playing)
    (pos : run.posOf seq = some v.expected) (ne : seq ≠ 0) (good : damaged = true ∨ blockGood block = true) :
    ∃ u job' p' v', exec .dataReceived s = .next (settle u) ∧ u.jobAt j = some job' ∧ job'.body = .play p'
      ∧ p'.slots = p.slots ++ [{ seq := seq, ready := true, damaged := damaged, bytes := block }]
      ∧ p'.cursor = p.cursor ∧ job'.rcv = some v' ∧ v'.expected = v.expected + 1
      ∧ (v.expected + 1 < run.total → p'.state = .playing ∧ v'.inactivity = some (s.now + 500))
      ∧ (v.expected + 1 = run.total → p'.state = .draining ∧ v'.inactivity = none)
      ∧ u.cat = s.cat ∧ u.med = s.med ∧ (∀ k, k ≠ j → u.jobAt k = s.jobAt k) := by
  obtain ⟨hj, -⟩ := jobFor_spec sound found
  have received := received_taken f s
  have owes : v.owed = true := owed_iff.mpr (.inr (by rw [hrun]; exact owed))
  have begun : p.begun = p := if_neg (by rw [state]; decide)
  let v₀ : Receiver := { v with inactivity := some (s.now + 500) }
  have known : v₀.knownRun = run := by rw [Receiver.knownRun, show v₀.run = some run from hrun]; rfl
  have row := exec_data_play heard payload found hj hr hb holder
  rw [Receiver.timer, if_pos owes, begun,
    receiveData_accept (v := v₀) _ rfl (classify_accept (by rw [known]; exact pos) (by rw [known]; exact owed) good),
    playAccept_sound (job := job.touched (.play p) v (some (s.now + 500))) (v := v₀) rfl rfl ne] at row
  obtain ⟨accepted, stepTimer, outbox, queue, plain, stepped, -, -, -⟩ := stepAfterAccept_put (j := j) (w := s.taken f)
    (job := { job.touched (.play p) v (some (s.now + 500)) with
              body := .play (p.withSlot seq damaged block), rcv := some (v₀.accepting damaged) }) (v := v₀.accepting damaged) rfl
  rw [stepped] at row
  let v₁ : Receiver := { v₀.accepting damaged with accepted := accepted, stepTimer := stepTimer }
  let job₁ : Job := { job.touched (.play p) v (some (s.now + 500)) with
    body := .play (p.withSlot seq damaged block), rcv := some v₁, outbox := outbox }
  have more : v₁.owed = true ↔ v.expected + 1 < run.total := by
    rw [owed_iff, show v₁.run = some run from hrun, Option.getD_some]
    exact or_iff_right (by simp)
  have rest (k : Nat) (hk : k ≠ j) : (s.taken f).jobAt k = s.jobAt k := received.jobAt k
  by_cases last : v.expected + 1 = run.total
  · have whole : v₁.owed = false := Bool.eq_false_iff.mpr fun h => by
      have := more.mp h
      omega
    rw [drainIfWhole_whole (job := job₁) (v := v₁) rfl rfl whole] at row
    exact ⟨_, _, _, _, row, jobAt_putJob_self .., rfl, rfl, rfl, rfl, rfl, fun h => absurd last (Nat.ne_of_lt h),
      fun _ => ⟨rfl, rfl⟩, received.cat, received.med, fun k hk => (jobAt_putJob_ne _ _ hk).trans (rest k hk)⟩
  · rw [drainIfWhole_owed (job := job₁) (v := v₁) rfl (more.mpr (by omega))] at row
    exact ⟨_, _, _, _, row, jobAt_putJob_self .., rfl, rfl, rfl, rfl, rfl, fun _ => ⟨state, rfl⟩,
      fun h => absurd h last, received.cat, received.med, fun k hk => (jobAt_putJob_ne _ _ hk).trans (rest k hk)⟩

end Play

end Sys2Proof.Machine

namespace Sys2Proof.Machine

section Repair
variable {s w : State} {f : Frame} {j i seq : Nat} {damaged : Bool} {block : List Byte} {job : Job} {v : Receiver} {r : RepairJob}
  {e : Entry} {run : Run}

/-! ### A block accepted by a REPAIR job (R132, R167) -/

/-- The block is written in place: it is good, and its sequence is listed or the overflow flag set (R132). -/
def repairWrites (e : Entry) (seq : Nat) (damaged : Bool) : Bool := !damaged && (e.damaged.contains seq || e.overflow)

/-- The writes of a repair's block (R132). -/
def repairRequest (e : Entry) (seq : Nat) (damaged : Bool) (block : List Byte) : List JobReq :=
  if repairWrites e seq damaged then [.inPlace seq block] else []

/-- An accepted block counts, and is written in place where the entry asks for it (R132, R134). -/
theorem repairAccept_put (hr : job.rcv = some v) (hi : job.entry = some i) (he : w.entryAt i = some e) :
    ∃ accepted stepTimer outbox queue plain job₁ v₁,
      v₁ = { v.accepting damaged with accepted := accepted, stepTimer := stepTimer }
      ∧ job₁ = { job with reqs := job.reqs ++ repairRequest e seq damaged block, rcv := some v₁, outbox := outbox }
      ∧ repairAccept j seq damaged block (putJob j job w)
        = if v₁.owed then putJob j job₁ { w with lif.queue := queue, hou.plain := plain }
          else finishRepair j (modRepair j (fun r => { r with state := .finishing })
            (putJob j { job₁ with rcv := some { v₁ with inactivity := none } } { w with lif.queue := queue, hou.plain := plain })) := by
  let job₀ : Job := { job with reqs := job.reqs ++ repairRequest e seq damaged block }
  have queued : (if repairWrites e seq damaged = true then modJob j (fun job => { job with reqs := job.reqs ++ [.inPlace seq block] })
      (putJob j job w) else putJob j job w) = putJob j job₀ w := by
    by_cases writes : repairWrites e seq damaged = true
    · have request : repairRequest e seq damaged block = [.inPlace seq block] := if_pos writes
      rw [if_pos writes, modJob_putJob]
      show _ = putJob j { job with reqs := job.reqs ++ repairRequest e seq damaged block } w
      rw [request]
    · have request : repairRequest e seq damaged block = [] := if_neg writes
      rw [if_neg writes]
      show _ = putJob j { job with reqs := job.reqs ++ repairRequest e seq damaged block } w
      rw [request, List.append_nil]
  obtain ⟨accepted, stepTimer, outbox, queue, plain, stepped, -, -, -⟩ := stepAfterAccept_put (j := j) (w := w)
    (job := { job₀ with rcv := some (v.accepting damaged) }) (v := v.accepting damaged) rfl
  have counted : modRcv j (Receiver.accepting damaged) (putJob j job₀ w)
      = putJob j { job₀ with rcv := some (v.accepting damaged) } w := by
    rw [modRcv_put (job := job₀) (v := v) _ (jobAt_putJob_self ..) hr, putJob_putJob]
  let v₁ : Receiver := { v.accepting damaged with accepted := accepted, stepTimer := stepTimer }
  let job₁ : Job := { job₀ with rcv := some v₁, outbox := outbox }
  refine ⟨accepted, stepTimer, outbox, queue, plain, job₁, v₁, rfl, rfl, ?_⟩
  have entry : (((putJob j job w).jobAt j).bind (·.entry)).bind (putJob j job w).entryAt = some e := by
    rw [jobAt_putJob_self, Option.bind_some, hi]
    exact he
  unfold repairAccept
  rw [entry]
  dsimp only
  rw [show (if (!damaged && (e.damaged.contains seq || e.overflow)) = true then _ else putJob j job w) = _ from queued, counted,
    stepped, jobAt_putJob_self, Option.bind_some]
  dsimp only
  split
  · rfl
  · rw [modRcv_put (job := job₁) (v := v₁) _ (jobAt_putJob_self ..) rfl, putJob_putJob]

theorem modRepair_putJob (g : RepairJob → RepairJob) (hb : job.body = .repair r) :
    modRepair j g (putJob j job w) = putJob j { job with body := .repair (g r) } w := by
  rw [modRepair_put (job := job) g (jobAt_putJob_self ..) hb, putJob_putJob]

/-- The row of a block at E of a REPAIR job, and its record as it is accepted. -/
theorem data_repair_row (sound : s.Sound) (heard : s.lif.heard = some (.good f)) (payload : f.payload = .data seq damaged block)
    (found : s.jobFor f = some (j, job)) (hr : job.rcv = some v) (hrun : v.run = some run) (owed : v.expected < run.total)
    (hb : job.body = .repair r) (holder : r.holder = some f.src) (pos : run.posOf seq = some v.expected)
    (good : damaged = true ∨ blockGood block = true) :
    exec .dataReceived s = .next (settle (repairAccept j seq damaged block
      (putJob j (job.touched (.repair r.begun) v (some (s.now + 500))) (s.taken f)))) := by
  obtain ⟨hj, -⟩ := jobFor_spec sound found
  have owes : v.owed = true := owed_iff.mpr (.inr (by rw [hrun]; exact owed))
  let v₀ : Receiver := { v with inactivity := some (s.now + 500) }
  have known : v₀.knownRun = run := by rw [Receiver.knownRun, show v₀.run = some run from hrun]; rfl
  have row := exec_data_repair heard payload found hj hr hb holder
  rw [Receiver.timer, if_pos owes,
    receiveData_accept (v := v₀) _ rfl (classify_accept (by rw [known]; exact pos) (by rw [known]; exact owed) good)] at row
  exact row

theorem repairWrites_eq : repairWrites e seq damaged = (!damaged && (decide (seq ∈ e.damaged) || e.overflow)) := by
  rw [repairWrites, List.contains_eq_mem]

/-- A block at E of a REPAIR job (R132, R165, R167). -/
theorem data_repair (sound : s.Sound) (heard : s.lif.heard = some (.good f)) (payload : f.payload = .data seq damaged block)
    (found : s.jobFor f = some (j, job)) (hr : job.rcv = some v) (hrun : v.run = some run) (owed : v.expected < run.total)
    (hb : job.body = .repair r) (holder : r.holder = some f.src) (hi : job.entry = some i) (he : s.entryAt i = some e)
    (pos : run.posOf seq = some v.expected) (good : damaged = true ∨ blockGood block = true) :
    (v.expected + 1 < run.total →
      ∃ u job' v', exec .dataReceived s = .next (settle u) ∧ u.jobAt j = some job' ∧ job'.rcv = some v'
      ∧ v'.expected = v.expected + 1 ∧ v'.inactivity = some (s.now + 500)
      ∧ (damaged = false → seq ∈ e.damaged ∨ e.overflow = true → job'.reqs = job.reqs ++ [.inPlace seq block])
      ∧ (damaged = true ∨ seq ∉ e.damaged ∧ e.overflow = false → job'.reqs = job.reqs)
      ∧ job'.body = .repair r.begun ∧ u.cat = s.cat ∧ u.med = s.med)
    ∧ (v.expected + 1 = run.total →
      let writes := !damaged && (decide (seq ∈ e.damaged) || e.overflow)
      (writes = true ∨ job.reqs ≠ [] ∨ s.issuedBy j = true →
        ∃ u job' r' v', exec .dataReceived s = .next (settle u) ∧ u.jobAt j = some job' ∧ job'.body = .repair r'
          ∧ r'.state = .finishing ∧ r'.recorded = r.recorded ∧ r'.cleared = r.cleared ∧ job'.rcv = some v'
          ∧ v'.expected = run.total ∧ v'.inactivity = none
          ∧ job'.reqs = job.reqs ++ (if writes then [.inPlace seq block] else []) ∧ u.cat = s.cat ∧ u.med = s.med)
      ∧ (writes = false → job.reqs = [] → s.issuedBy j = false →
        ∃ u w, exec .dataReceived s = .next (settle u) ∧ u.jobAt j = none
          ∧ u = raise (.doneJob job.tag .repair (r.recorded.getD .ok) job.take f.src r.cleared e.damaged.length) w)) := by
  have received := received_taken f s
  have row := data_repair_row sound heard payload found hr hrun owed hb holder pos good
  obtain ⟨accepted, stepTimer, outbox, queue, plain, job₁, v₁, v₁Is, job₁Is, accepts⟩ := repairAccept_put (j := j) (w := s.taken f)
    (seq := seq) (damaged := damaged) (block := block) (job := job.touched (.repair r.begun) v (some (s.now + 500)))
    (v := { v with inactivity := some (s.now + 500) }) rfl hi ((received.entryAt i).trans he)
  rw [accepts] at row
  have rcv : job₁.rcv = some v₁ := by rw [job₁Is]
  have body : job₁.body = .repair r.begun := by rw [job₁Is]; rfl
  have reqs : job₁.reqs = job.reqs ++ repairRequest e seq damaged block := by rw [job₁Is]; rfl
  have expected : v₁.expected = v.expected + 1 := by rw [v₁Is]; rfl
  have more : v₁.owed = true ↔ v.expected + 1 < run.total := by
    rw [owed_iff, show v₁.run = some run by rw [v₁Is]; exact hrun, Option.getD_some, expected]
    exact or_iff_right (by simp)
  have kept : r.begun.recorded = r.recorded ∧ r.begun.cleared = r.cleared ∧ r.begun.holder = r.holder := by
    unfold RepairJob.begun
    split <;> exact ⟨rfl, rfl, rfl⟩
  obtain ⟨recorded, cleared, holds⟩ := kept
  refine ⟨fun owes => ?_, fun last => ?_⟩
  · rw [if_pos (more.mpr owes)] at row
    refine ⟨_, _, v₁, row, jobAt_putJob_self .., rcv, expected, by rw [v₁Is]; rfl, fun whole wanted => ?_, fun unwanted => ?_,
      body, received.cat, received.med⟩
    · have writes : repairWrites e seq damaged = true := by
        rw [repairWrites_eq, whole]
        simpa using wanted
      rw [reqs, repairRequest, if_pos writes]
    · have writes : ¬ repairWrites e seq damaged = true := by
        rw [repairWrites_eq]
        rcases unwanted with hurt | ⟨absent, clear⟩
        · rw [hurt]
          simp
        · simp [absent, clear]
      rw [reqs, repairRequest, if_neg writes, List.append_nil]
  · intro writes
    have request : repairRequest e seq damaged block = if writes then [.inPlace seq block] else [] := by
      rw [repairRequest, repairWrites_eq]
    let u : State := { s.taken f with lif.queue := queue, hou.plain := plain }
    let r₂ : RepairJob := { r.begun with state := .finishing }
    let job₂ : Job := { job₁ with rcv := some { v₁ with inactivity := none }, body := .repair r₂ }
    have record : (putJob j job₂ u).jobAt j = some job₂ := jobAt_putJob_self ..
    have outstanding : (putJob j job₂ u).outstanding j job₂
        = (job.reqs ++ repairRequest e seq damaged block).length + if s.issuedBy j then 1 else 0 := by
      rw [State.outstanding, show job₂.reqs = _ from reqs, State.issuedBy, State.issuedBy,
        show (putJob j job₂ u).med = s.med from received.med]
    rw [if_neg fun h => absurd (more.mp h) (by omega),
      modRepair_putJob (job := { job₁ with rcv := some { v₁ with inactivity := none } }) (r := r.begun) _ body] at row
    refine ⟨fun left => ?_, fun none bare idle => ?_⟩
    · have some_ : (putJob j job₂ u).outstanding j job₂ ≠ 0 := by
        rw [outstanding, request, List.length_append]
        rcases left with writing | waiting | issued
        · rw [if_pos writing, List.length_singleton]
          omega
        · have := List.length_pos_iff.mpr waiting
          omega
        · rw [if_pos issued]
          omega
      rw [finishRepair_waits (r := r₂) record rfl some_] at row
      exact ⟨_, _, r₂, _, row, record, rfl, rfl, recorded, cleared, rfl, expected.trans last, rfl,
        (by rw [← request]; exact reqs), received.cat, received.med⟩
    · have zero : (putJob j job₂ u).outstanding j job₂ = 0 := by
        rw [outstanding, request, bare, if_neg (by rw [none]; decide), idle]
        rfl
      have entry : job₂.entry = some i := by
        show job₁.entry = _
        rw [job₁Is]
        exact hi
      obtain ⟨x, ended, -⟩ := endJob_repair (w := putJob j job₂ u) (r := r₂) (r.recorded.getD .ok) record rfl entry
        ((received.entryAt i).trans he)
      have risen : smapRising u.jt.jobs = true := received.rising sound
      have gone := endJob_jobAt (r.recorded.getD .ok) Option.none (putJob_jobs_rising (s := u) (j := j) job₂ risen) record j
      rw [finishRepair_ends (r := r₂) record rfl rfl (by rw [show r₂.recorded = _ from recorded]) zero] at row
      refine ⟨_, x, row, gone.trans (if_pos rfl), ended.trans ?_⟩
      have same : job₂.tag = job.tag ∧ job₂.take = job.take := by
        show job₁.tag = _ ∧ job₁.take = _
        rw [job₁Is]
        exact ⟨rfl, rfl⟩
      rw [same.1, same.2, show r₂.holder = _ from holds.trans holder, show r₂.cleared = _ from cleared]
      rfl

end Repair

section Head
variable {s w : State} {f : Frame} {j : Nat} {damaged : Bool} {block : List Byte} {job : Job} {v : Receiver} {p : PlayJob}

/-! ### The head block of a PLAY job (R132, R151) -/

theorem headFits_iff {take : Option TakeNo} {h : HeadInfo} : p.headFits take h = true
    ↔ some h.take = take ∧ p.grantedBlocks = some h.storedBlocks ∧ p.start < h.timelineLength := by
  simp only [PlayJob.headFits, Bool.and_eq_true, beq_iff_eq, decide_eq_true_eq, and_assoc]
  exact and_congr_left' eq_comm

theorem playAccept_head {h : HeadInfo} (hr : job.rcv = some v) (hb : job.body = .play p) (whole : damaged = false)
    (decodes : headOfPayload (blockPayload block) = some h) (fits : p.headFits job.take h = true) :
    playAccept j 0 damaged block (putJob j job w) = drainIfWhole j (stepAfterAccept j (putJob j { job with
      body := .play (p.withShape h.shape)
      rcv := some { v.accepting false with run := some (h.shape.run p.start p.frames) } } w)) := by
  have put : modRcv j (fun r => { r.accepting false with run := some (h.shape.run p.start p.frames) })
      (modPlay j (PlayJob.withShape h.shape) (putJob j job w)) = putJob j { job with
        body := .play (p.withShape h.shape)
        rcv := some { v.accepting false with run := some (h.shape.run p.start p.frames) } } w := by
    rw [modPlay_put (job := job) _ (jobAt_putJob_self ..) hb, putJob_putJob,
      modRcv_put (job := { job with body := .play (p.withShape h.shape) }) (v := v) _ (jobAt_putJob_self ..) hr, putJob_putJob]
  rw [← put]
  unfold playAccept Job.playOf
  rw [jobAt_putJob_self]
  dsimp only
  rw [hb]
  dsimp only
  rw [if_pos rfl, decodes]
  exact if_neg (by rw [whole, fits]; decide)

theorem playAccept_fails (hb : job.body = .play p)
    (bad : damaged = true ∨ ∀ h, headOfPayload (blockPayload block) = some h → ¬ p.headFits job.take h = true) :
    playAccept j 0 damaged block (putJob j job w) = endJob j .checkFailed
      (some ((putJob j job w).jobFrame job job.stepTo.1 .out (.abandon .checkFailed))) (putJob j job w) := by
  have fails : playCheckFailed j (putJob j job w) = endJob j .checkFailed
      (some ((putJob j job w).jobFrame job job.stepTo.1 .out (.abandon .checkFailed))) (putJob j job w) := by
    rw [playCheckFailed, jobAt_putJob_self]
  rw [← fails]
  unfold playAccept Job.playOf
  rw [jobAt_putJob_self]
  dsimp only
  rw [hb]
  dsimp only
  rw [if_pos rfl]
  cases decodes : headOfPayload (blockPayload block) with
  | none => rfl
  | some h =>
    refine if_pos ?_
    rw [Bool.or_eq_true, Bool.not_eq_true']
    rcases bad with hurt | misfit
    · exact .inl hurt
    · exact .inr (Bool.eq_false_iff.mpr (misfit h decodes))

/-- The row of the block at position 0 of a PLAY job that has no head block yet. -/
theorem data_head_row (sound : s.Sound) (heard : s.lif.heard = some (.good f)) (payload : f.payload = .data 0 damaged block)
    (found : s.jobFor f = some (j, job)) (hb : job.body = .play p) (holder : p.holder = some f.src) (hr : job.rcv = some v)
    (hrun : v.run = none) (start : v.expected = 0) (good : damaged = true ∨ blockGood block = true) :
    exec .dataReceived s = .next (settle (playAccept j 0 damaged block
      (putJob j (job.touched (.play p.begun) v (some (s.now + 500))) (s.taken f)))) := by
  obtain ⟨hj, -⟩ := jobFor_spec sound found
  have owes : v.owed = true := owed_iff.mpr (.inl hrun)
  let v₀ : Receiver := { v with inactivity := some (s.now + 500) }
  have known : v₀.knownRun = headRun := by rw [Receiver.knownRun, show v₀.run = none from hrun]; rfl
  have row := exec_data_play heard payload found hj hr hb holder
  rw [Receiver.timer, if_pos owes, receiveData_accept (v := v₀) _ rfl (classify_accept
    (by rw [known, show v₀.expected = 0 from start]; rfl) (by rw [known, show v₀.expected = 0 from start]; decide) good)] at row
  exact row

end Head

end Sys2Proof.Machine

namespace Sys2Proof.Machine

section Head
variable {s w : State} {f : Frame} {j : Nat} {damaged : Bool} {block : List Byte} {job : Job} {v : Receiver} {p : PlayJob}

theorem begun_playing (state : p.state = .awaitingData ∨ p.state = .playing) : p.begun.state = .playing := by
  unfold PlayJob.begun
  split
  · rfl
  next h => exact state.resolve_left h

theorem begun_kept : p.begun.slots = p.slots ∧ p.begun.cursor = p.cursor ∧ p.begun.start = p.start ∧ p.begun.frames = p.frames
    ∧ p.begun.holder = p.holder ∧ p.begun.underruns = p.underruns ∧ p.begun.grantedBlocks = p.grantedBlocks
    ∧ (p.state = .awaitingData → p.begun.grantWait = none) := by
  unfold PlayJob.begun
  split
  · exact ⟨rfl, rfl, rfl, rfl, rfl, rfl, rfl, fun _ => rfl⟩
  next h => exact ⟨rfl, rfl, rfl, rfl, rfl, rfl, rfl, fun state => absurd state h⟩

/-- A queue that holds no frame of the job is the same after the job's end (R78). -/
theorem afterEnd_others {queue : List TxFrame} (none : ∀ x ∈ queue, x.owner ≠ some j) :
    queue.filterMap (TxFrame.afterEnd j) = queue := by
  refine (List.filterMap_congr (g := some) fun x hx => ?_).trans List.filterMap_some
  exact if_neg (none x hx)

/-- A PLAY job that a head block ends: its JOB_DONE, its port and its ABANDON (R48, R132, R138). -/
theorem data_head_fails (sound : s.Sound) (received : Received s w) (g : Frame)
    (row : exec .dataReceived s = .next (settle (endJob j .checkFailed (some g) (putJob j job w))))
    (hb : job.body = .play p) (holder : p.holder = some f.src) (state : p.state = .playing) :
    ∃ u x, exec .dataReceived s = .next (settle u) ∧ u.jobAt j = none ∧ (∀ k, k ≠ j → u.jobAt k = s.jobAt k)
      ∧ u = raise (.doneJob job.tag .play .checkFailed job.take f.src p.underruns 0) x
      ∧ (s.port.owner = some j → u.port.owner = none ∧ u.port.line = .released)
      ∧ (s.linkStanding = true → (∀ x ∈ s.lif.queue, x.owner ≠ some j) → s.lif.queue.length < 16 →
          u.lif.queue = s.lif.queue ++ [{ frame := g, owner := none }]) := by
  have record : (putJob j job w).jobAt j = some job := jobAt_putJob_self ..
  have rising := putJob_jobs_rising (j := j) job (received.rising sound)
  have items : (putJob j job w).doneItems job = (f.src, p.underruns, 0) := by
    rw [State.doneItems, hb]
    dsimp only
    rw [State.playSource, state, holder]
    rfl
  have kind : job.kind = .play := by rw [Job.kind, hb]; rfl
  have ended := endJob_eq (result := .checkFailed) (parting := some g) record
  rw [items, kind] at ended
  obtain ⟨x, a, b, c, spec, gone, others, port, queue⟩ := endJob_spec .checkFailed (some g) rising record
  refine ⟨_, _, row, ?_, fun k hk => ?_, ended, fun owner => ?_, fun standing foreign room => ?_⟩
  · rw [spec, jobAt_raise, gone]
  · rw [spec, jobAt_raise, others k hk, jobAt_putJob_ne _ _ hk, received.jobAt k]
  · rw [spec, raise_port, port, show (putJob j job w).port = s.port from received.port, owner]
    exact ⟨if_pos rfl, if_pos rfl⟩
  · have closed : (closeJob j (putJob j job w)).lif.queue = s.lif.queue := by
      rw [closeJob_queue record, show (putJob j job w).lif.queue = s.lif.queue from received.queue, afterEnd_others foreign]
    have stands : (closeJob j (putJob j job w)).linkStanding = true :=
      (closeJob_linkStanding record).trans (received.linkStanding.trans standing)
    rw [spec, raise_lif, queue, partWith_some, giveParting_queue g stands (by rw [closed]; exact room), closed]

/-- A head block that fits: the job knows its take, and is PLAYING, or DRAINING with no block to come (R151). -/
theorem data_head_fits {h : HeadInfo} (sound : s.Sound) (heard : s.lif.heard = some (.good f))
    (payload : f.payload = .data 0 damaged block) (found : s.jobFor f = some (j, job)) (hb : job.body = .play p)
    (holder : p.holder = some f.src) (state : p.state = .awaitingData ∨ p.state = .playing) (hr : job.rcv = some v)
    (hrun : v.run = none) (start : v.expected = 0) (whole : damaged = false) (good : blockGood block = true)
    (decodes : headOfPayload (blockPayload block) = some h) (fits : p.headFits job.take h = true) (stop : Nat)
    (stopIs : stop = stretchEnd h.timelineLength p.start p.frames) (blocks : Nat × Nat)
    (blocksIs : blocks = stretchBlocks h.format h.gaps p.start stop) :
    ∃ u job' p' v', exec .dataReceived s = .next (settle u) ∧ u.jobAt j = some job' ∧ job'.body = .play p'
      ∧ job'.rcv = some v'
      ∧ p'.shape = some { format := h.format, timelineLength := h.timelineLength, storedFrames := h.storedFrames, gaps := h.gaps }
      ∧ p'.endOffset = stop ∧ p'.firstBlock = blocks.1 ∧ p'.blockCount = blocks.2 ∧ p'.slots = p.slots ∧ p'.cursor = p.cursor
      ∧ (p.state = .awaitingData → p'.grantWait = none)
      ∧ v'.run = some { head := true, first := blocks.1, count := blocks.2 } ∧ v'.expected = 1
      ∧ (0 < blocks.2 → p'.state = .playing ∧ v'.inactivity = some (s.now + 500))
      ∧ (blocks.2 = 0 → p'.state = .draining ∧ v'.inactivity = none
          ∧ (s.linkStanding = true → s.lif.queue.length < 16 → job.outbox = [] →
              u.lif.queue = s.lif.queue ++
                [{ frame := { src := s.own, dst := f.src, dir := .out, tag := f.tag, take := f.take,
                              payload := .step blocks.1 (min 8 (96 - p.slots.length)) }, owner := some j }]))
      ∧ u.cat = s.cat ∧ u.med = s.med ∧ u.port = s.port ∧ ∀ k, k ≠ j → u.jobAt k = s.jobAt k := by
  obtain ⟨hj, tag, take, -⟩ := jobFor_spec sound found
  have received := received_taken f s
  have row := data_head_row sound heard payload found hb holder hr hrun start (.inr good)
  obtain ⟨slots, cursor, from_, frames, holds, -, granted, grantWait⟩ := begun_kept (p := p)
  let v₀ : Receiver := { v with inactivity := some (s.now + 500) }
  let v₁ : Receiver := { v₀.accepting false with run := some (h.shape.run p.begun.start p.begun.frames) }
  let q : PlayJob := p.begun.withShape h.shape
  have runIs : h.shape.run p.begun.start p.begun.frames = { head := true, first := blocks.1, count := blocks.2 } := by
    rw [from_, frames, blocksIs, stopIs]
    rfl
  have fits' : p.begun.headFits job.take h = true := by
    rw [PlayJob.headFits, granted, from_]
    exact fits
  rw [playAccept_head (job := job.touched (.play p.begun) v (some (s.now + 500))) (v := v₀) rfl rfl whole decodes fits'] at row
  let job₁ : Job := { job.touched (.play p.begun) v (some (s.now + 500)) with body := .play q, rcv := some v₁ }
  obtain ⟨accepted, stepTimer, outbox, queue, plain, stepped, -, -, sent⟩ :=
    stepAfterAccept_put (j := j) (w := s.taken f) (job := job₁) (v := v₁) rfl
  rw [stepped] at row
  let v₂ : Receiver := { v₁ with accepted := accepted, stepTimer := stepTimer }
  let job₂ : Job := { job₁ with rcv := some v₂, outbox := outbox }
  have expected : v₁.expected = 1 := congrArg (· + 1) start
  have total : v₁.owed = true ↔ 0 < blocks.2 := by
    rw [owed_iff, show v₁.run = some (h.shape.run p.begun.start p.begun.frames) from rfl, Option.getD_some, runIs, expected]
    refine (or_iff_right (by simp)).trans ?_
    show 1 < blocks.2 + 1 ↔ _
    omega
  have endIs : q.endOffset = stop := by
    rw [stopIs, ← from_, ← frames]
    rfl
  have run₁ : v₁.run = some { head := true, first := blocks.1, count := blocks.2 } := congrArg some runIs
  have first : q.firstBlock = blocks.1 := congrArg Run.first runIs
  have count : q.blockCount = blocks.2 := congrArg Run.count runIs
  have rest (k : Nat) (hk : k ≠ j) : (s.taken f).jobAt k = s.jobAt k := received.jobAt k
  by_cases none : blocks.2 = 0
  · have finished : v₁.owed = false := Bool.eq_false_iff.mpr fun h => absurd (total.mp h) (by omega)
    rw [drainIfWhole_whole (job := job₂) (v := v₂) (p := q) rfl rfl finished] at row
    refine ⟨_, _, _, _, row, jobAt_putJob_self .., rfl, rfl, rfl, endIs, first, count, slots, cursor, grantWait, run₁, expected,
      fun many => absurd none (Nat.ne_of_gt many), fun _ => ⟨rfl, rfl, fun standing room empty => ?_⟩, received.cat, received.med,
      received.port, fun k hk => (jobAt_putJob_ne _ _ hk).trans (rest k hk)⟩
    have goes : job₁.stepTo = (f.src, .out) := stepTo_play rfl (holds.trans holder)
    have credit : (s.taken f).credit j job₁ = min 8 (96 - p.slots.length) := by
      show min 8 (96 - p.begun.slots.length) = _
      rw [slots]
    have next : v₁.knownRun.seqAt v₁.expected = blocks.1 := by
      rw [Receiver.knownRun, run₁, expected]
      rfl
    refine (sent finished empty (received.linkStanding.trans standing) (by rw [received.queue]; exact room)).trans ?_
    rw [State.stepFrame, goes, credit, next, received.queue, jobFrame_eq (job := job₁) tag take, received.own]
  · have some_ : 0 < blocks.2 := by omega
    rw [drainIfWhole_owed (job := job₂) (v := v₂) rfl (total.mpr some_)] at row
    exact ⟨_, _, _, _, row, jobAt_putJob_self .., rfl, rfl, rfl, endIs, first, count, slots, cursor, grantWait, run₁, expected,
      fun _ => ⟨begun_playing state, rfl⟩, fun zero => absurd zero none, received.cat, received.med, received.port,
      fun k hk => (jobAt_putJob_ne _ _ hk).trans (rest k hk)⟩

end Head

/-- Settles O49: the class of the block, then what its kind of job makes of an accepted one, or the discard. -/
theorem dataIsAcceptedInOrder : Obligations.DataIsAcceptedInOrder := by
  refine ⟨fun s f seq j i damaged block job e v run sound heard payload found hr hrun owed => ⟨fun r hb unmatched hi he head first =>
      ⟨fun whole at_ ne good => ?sound, fun h whole zero start good decodes => ⟨fun take stored => ?head, fun misfit => ?misfit⟩,
        fun hurt at_ => ?hurt⟩,
      fun p hb holder state pos ne good => data_play_sound sound heard payload found hr hrun owed hb holder state pos ne
        (good.imp_right blockGood_iff.mpr),
      fun r hb holder state hi he pos good => data_repair sound heard payload found hr hrun owed hb holder hi he pos
        (good.imp_right blockGood_iff.mpr)⟩,
    fun s f seq j damaged block job v body dir timed sound heard payload found hr => ?discard,
    fun s f j damaged block job p v sound heard payload found hb holder state hr hrun start => ?play⟩
  case sound =>
    exact data_receive_sound sound heard payload found hr hrun owed hb unmatched hi head first whole at_ ne (blockGood_iff.mpr good)
  case head =>
    exact data_receive_head sound heard payload found hr hrun owed hb unmatched hi he head first whole zero start
      (blockGood_iff.mpr good) decodes ⟨take, stored⟩
  case misfit =>
    have row := data_receive_row sound heard payload found hr hrun owed hb unmatched head first (zero.trans start.symm)
      (.inr (blockGood_iff.mpr good))
    rw [receiveAccept_fails (job := job.touched job.body v (some (s.now + 500))) (r := r) hb hi (.inr ⟨zero, h, decodes, fun both => by
      rcases misfit with other | other
      · exact other both.1
      · exact other both.2⟩)] at row
    exact data_receive_fails (job := job.touched job.body v (some (s.now + 500))) sound (received_taken f s) hb hi row
  case hurt =>
    have row := data_receive_row sound heard payload found hr hrun owed hb unmatched head first at_ (.inl hurt)
    rw [receiveAccept_fails (job := job.touched job.body v (some (s.now + 500))) (r := r) hb hi (.inl hurt)] at row
    exact data_receive_fails (job := job.touched job.body v (some (s.now + 500))) sound (received_taken f s) hb hi row
  case discard =>
    intro run owed for_ x on off outOfOrder duplicate step
    refine data_discards s f seq j damaged block job v body dir timed sound heard payload found hr for_ x on off outOfOrder duplicate
      owed (fun above => classify_outOfOrder (above.imp_right ?_)) classify_duplicate owed_iff.symm step rfl
    rintro ⟨pos, inside, intact, bad⟩
    exact ⟨pos, inside, intact, fun good => bad (blockGood_iff.mp good)⟩
  case play =>
    intro whole fits give
    refine ⟨fun h intact good decodes fit => ?fits, fun bad => ?fails⟩
    case fits =>
      intro stop blocks
      exact data_head_fits sound heard payload found hb holder state hr hrun start intact (blockGood_iff.mpr good) decodes
        (headFits_iff.mpr fit) stop rfl blocks rfl
    case fails =>
      obtain ⟨-, tag, take, -⟩ := jobFor_spec sound found
      have received := received_taken f s
      have good : damaged = true ∨ blockGood block = true := bad.imp_right fun h => blockGood_iff.mpr h.1
      have row := data_head_row sound heard payload found hb holder hr hrun start good
      let job₁ : Job := job.touched (.play p.begun) v (some (s.now + 500))
      obtain ⟨-, -, from_, -, holds, underruns, granted, -⟩ := begun_kept (p := p)
      have same (h : HeadInfo) : p.begun.headFits job₁.take h = p.headFits job.take h := by
        rw [PlayJob.headFits, granted, from_]
        rfl
      rw [playAccept_fails (job := job₁) (p := p.begun) rfl (bad.imp_right fun misfit h decodes fit =>
        misfit.2 h decodes (headFits_iff.mp ((same h).symm.trans fit)))] at row
      have told : (putJob j job₁ (s.taken f)).jobFrame job₁ job₁.stepTo.1 .out (.abandon .checkFailed)
          = { src := s.own, dst := f.src, dir := .out, tag := f.tag, take := f.take, payload := .abandon .checkFailed } := by
        rw [stepTo_play (job := job₁) rfl (holds.trans holder), jobFrame_eq (job := job₁) tag take]
        rw [show (putJob j job₁ (s.taken f)).own = s.own from received.own]
      rw [told] at row
      have failed := data_head_fails (f := f) sound received _ row rfl (holds.trans holder) (begun_playing state)
      rw [underruns] at failed
      exact failed

end Sys2Proof.Machine

/-! ## Proofs: the arbiter

SUPPORT. What the arbiter chooses (R38, R39), and where what it issues goes and which bytes it carries (R33 to R37, R55, R65). -/

namespace Sys2Proof.Machine

section Arbiter
variable {s : State} {i j n l x : Nat} {job : Job} {e : Entry}

/-! ### The bytes of a block -/

/-- The bytes R193 gives a head block. -/
def headPayload (take : TakeNo) (f : Format) (cause : EndCause) (length frames blocks : Nat) (check : Check) (clips copies : Nat)
    (label : Option (List Byte)) (gaps : List Gap) : List Byte :=
  beBytes 4 (takeValue (some take)) ++ [f.byte] ++ beBytes 1 cause.code ++ beBytes 4 length
    ++ beBytes 4 frames ++ beBytes 4 blocks ++ beBytes 4 check.toNat ++ beBytes 2 clips ++ beBytes 1 copies
    ++ beBytes 1 (if label.isSome then 1 else 0) ++ fitBytes 64 (label.getD []) ++ beBytes 1 gaps.length
    ++ fitBytes 128 (gaps.flatMap fun g => beBytes 4 g.start ++ beBytes 4 g.length)

theorem headInfo_payload (h : HeadInfo) : h.payload = headPayload h.take h.format h.endCause h.timelineLength h.storedFrames
    h.storedBlocks h.check h.clips h.copiesWanted h.label h.gaps := by
  simp only [HeadInfo.payload, headPayload, labelBytes, gapBytes, List.append_assoc]
  rfl

theorem headInfo_block (h : HeadInfo) : h.block = makeBlock (some h.take) 0 0 0 2 h.format.byte
    (headPayload h.take h.format h.endCause h.timelineLength h.storedFrames h.storedBlocks h.check h.clips h.copiesWanted h.label
      h.gaps) := by
  rw [HeadInfo.block, headInfo_payload]

/-- The sequence stands in bytes 4 to 7 of the block's header (R37). -/
theorem withSequence_eq (b : List Byte) (seq : Nat) : withSequence b seq = b.take 4 ++ beBytes 4 seq ++ b.drop 8 := by
  rw [withSequence, patch, length_beBytes]

/-! ### The look around a request -/

/-- With nothing to issue the look changes ACT alone (R38, R45). -/
theorem settle_act_alone (still : s.portState ≠ .idle ∨ s.chosen = none) : { settle s with act := s.act } = s := by
  obtain ⟨a, wakes, stays, idles⟩ := wakeForWork_act s
  have still' : (wakeForWork s).portState ≠ .idle ∨ (wakeForWork s).chosen = none := by
    by_cases idle : s.portState = .idle
    · rw [idles idle]
      exact still
    · exact .inl (stays idle)
  obtain ⟨b, follows⟩ := followConditions_act (wakeForWork s)
  obtain ⟨c, dozes⟩ := dozeIfDrained_act (followConditions (wakeForWork s))
  rw [settle_eq, arbitrate_still still', dozes, follows, wakes]

/-- A request that is issued is what the look does, beyond ACT. -/
theorem settle_issued_alone {r : Requester} {op : Issued} (idle : s.portState = .idle) (chosen : s.chosen = some r)
    (issued : (issue r s).med.issued = some op) : { settle s with act := s.act } = { issue r s with act := s.act } := by
  obtain ⟨a, is⟩ := settle_issues idle chosen issued
  rw [is]

/-- A request that leaves its list and is issued: the look is the list without it, the operation, and ACT. -/
theorem settle_takes {r : Requester} {op : Issued} {w : State} (idle : s.portState = .idle) (chosen : s.chosen = some r)
    (taken : issue r s = issueOp op w) : ∃ a, settle s = { w with med.issued := some op, act := a } := by
  obtain ⟨a, is⟩ := settle_issues (op := op) idle chosen (congrArg (·.med.issued) taken)
  exact ⟨a, is.trans (congrArg (fun u : State => { u with act := a }) taken)⟩

/-! ### Requests that leave their lists -/

theorem takeRequest_wt (w : WtItem) (n : Nat) (s : State) : ∃ wt wtRetry,
    takeRequest (.wt w n) s = { s with cat.wt := wt, cat.wtRetry := wtRetry } := by
  unfold takeRequest
  dsimp only
  split
  · exact ⟨s.cat.wt, none, rfl⟩
  · exact ⟨s.cat.wt.tail, s.cat.wtRetry, rfl⟩

theorem takeRequest_map (b n : Nat) (s : State) : ∃ mapList mapRetry,
    takeRequest (.map b n) s = { s with med.mapList := mapList, med.mapRetry := mapRetry } := by
  unfold takeRequest
  dsimp only
  split
  · exact ⟨s.med.mapList, none, rfl⟩
  · exact ⟨s.med.mapList.tail, s.med.mapRetry, rfl⟩

/-- A job's request other than a capture's leaves its list, and the record is kept for the rotation (R39). -/
theorem takeRequest_job {req : JobReq} (hj : s.jobAt j = some job) (sound : req ≠ .sound) (head : req ≠ .head) :
    takeRequest (.job j req) s = { putJob j { job with reqs := job.reqs.tail } s with med.rrLast := j } := by
  have pops := modJob_put (fun job => { job with reqs := job.reqs.tail }) hj
  cases req with
  | sound => exact absurd rfl sound
  | head => exact absurd rfl head
  | _ =>
    show { modJob j (fun job => { job with reqs := job.reqs.tail }) s with med.rrLast := j } = _
    rw [pops]

/-! ### Choosing -/

theorem chosen_capture {r : Requester} (up : s.complete = true) (asks : s.captureRequest = some r) : s.chosen = some r := by
  rw [State.chosen, if_pos up, asks]
  rfl

theorem chosen_writeThrough {r : Requester} (up : s.complete = true) (quiet : s.captureRequest = none)
    (waits : s.writeThrough = some r) : s.chosen = some r := by
  rw [State.chosen, if_pos up, quiet, waits]
  rfl

theorem chosen_job (up : s.complete = true) (quiet : s.captureRequest = none) (written : s.writeThrough = none) :
    s.chosen = s.jobRequest := by
  rw [State.chosen, if_pos up, quiet, written]
  rfl

theorem writeThrough_map {b : Nat} {rest : List Nat} (retry : s.med.mapRetry = none) (list : s.med.mapList = b :: rest) :
    s.writeThrough = some (.map b 0) := by
  rw [State.writeThrough, retry, list]

theorem writeThrough_wt {w : WtItem} {rest : List WtItem} (retry : s.med.mapRetry = none) (list : s.med.mapList = [])
    (again : s.cat.wtRetry = none) (queue : s.cat.wt = w :: rest) : s.writeThrough = some (.wt w 0) := by
  rw [State.writeThrough, retry, list, again, queue]

/-- The jobs of tier 3 that ask (R39). -/
def State.waitingJobs (s : State) : SMap Job := s.jt.jobs.filter (fun p => p.2.kind != .capture && p.2.hasRequest)

theorem nextJob_eq (s : State) : s.nextJob
    = match s.waitingJobs.find? (fun p => s.med.rrLast < p.1) with
      | some p => some p
      | none => s.waitingJobs.head? := rfl

theorem mem_waitingJobs {k : Nat} (there : smapGet s.jt.jobs k = some job) (kind : job.kind ≠ .capture) (asks : job.reqs ≠ []) :
    (k, job) ∈ s.waitingJobs := by
  refine List.mem_filter.mpr ⟨smapGet_some_mem there, ?_⟩
  unfold Job.hasRequest
  unfold Job.kind at kind ⊢
  cases body : job.body <;> simp_all [JobBody.kind]

/-- The first of a rising table that passes a test is the lowest. -/
theorem find?_least {α : Type} {m : SMap α} {P : Nat × α → Bool} {p q : Nat × α} (rising : smapRising m = true)
    (found : m.find? P = some p) (mem : q ∈ m) (passes : P q = true) : p.1 ≤ q.1 := by
  obtain ⟨_, before, after, split, fail⟩ := List.find?_eq_some_iff_append.mp found
  have order := (smapRising_iff m).mp rising
  rw [split] at order mem
  obtain inBefore | inRest := List.mem_append.mp mem
  · have := fail q inBefore
    rw [passes] at this
    cases this
  · obtain rfl | inAfter := List.mem_cons.mp inRest
    · exact le_rfl
    · exact ((List.pairwise_cons.mp (List.pairwise_append.mp order).2.1).1 q inAfter).le

/-- The rotation (R39): the lowest record behind the one last served, or, with none behind it, the lowest of all. -/
theorem nextJob_rotates (rising : smapRising s.jt.jobs = true) (next : s.nextJob = some (j, job)) {k : Nat} {other : Job}
    (asks : (k, other) ∈ s.waitingJobs) :
    (s.med.rrLast < j → s.med.rrLast < k → j ≤ k) ∧ (j ≤ s.med.rrLast → k ≤ s.med.rrLast ∧ j ≤ k) := by
  have order : smapRising s.waitingJobs = true := smapRising_sublist List.filter_sublist rising
  rw [nextJob_eq] at next
  cases behind : s.waitingJobs.find? (fun p => s.med.rrLast < p.1) with
  | some p =>
    rw [behind] at next
    cases next
    have later : s.med.rrLast < j := by simpa using List.find?_some behind
    exact ⟨fun _ after => find?_least order behind asks (by simpa using after), fun before => absurd later (not_lt.mpr before)⟩
  | none =>
    rw [behind] at next
    have none_behind := List.find?_eq_none.mp behind
    have mem : (j, job) ∈ s.waitingJobs := List.mem_of_head? next
    have early : ¬ s.med.rrLast < j := by simpa using none_behind _ mem
    have first : s.waitingJobs.find? (fun _ => true) = some (j, job) := by
      cases list : s.waitingJobs with
      | nil => rw [list] at next; cases next
      | cons p rest =>
        rw [list] at next
        cases next
        rfl
    exact ⟨fun later => absurd later early,
      fun _ => ⟨by simpa using none_behind _ asks, find?_least order first asks rfl⟩⟩

end Arbiter

end Sys2Proof.Machine

/-! ## Proofs: what the arbiter issues

SUPPORT. The place and the bytes of appends, in-place writes and head blocks (R33 to R37, R55, R65, R68). -/

namespace Sys2Proof.Machine

section Placing
variable {s : State} {i j n l x : Nat} {job : Job} {e : Entry}

/-! ### A chunk that joins a chain -/

theorem setChunk_eq (c : Nat) (ch : Chunk) (s : State) : ∃ mapList, setChunk c ch s
      = { s with med.chunks := chunkMapSet s.med.chunks c ch, med.mapList := mapList }
    ∧ c / 80 ∈ mapList ∧ s.med.mapList ⊆ mapList := by
  refine ⟨(setChunk c ch s).med.mapList, ?_, mem_mapList_setChunk c ch, mapList_subset_setChunk c ch⟩
  unfold setChunk queueMap
  split <;> rfl

/-- The entry as a chunk has joined its chain: the count rises unless it is CAPTURING (R33). -/
def Entry.grown (e : Entry) : Entry :=
  { e with chunkCount := if e.state = .capturing then e.chunkCount else e.chunkCount + 1 }

/-- What a chunk that joins a chain changes: the map, the free count and the map-write list, and the entry (R33, R44). -/
theorem appendChunk_eq (he : s.entryAt i = some e) (last : (s.chain e).getLast? = some l) : ∃ chunks mapList entries,
    appendChunk i x s = { s with med.chunks := chunks, med.free := s.med.free - 1, med.mapList := mapList,
                                 cat.entries := entries }
      ∧ x / 80 ∈ mapList ∧ l / 80 ∈ mapList ∧ smapGet entries i = some e.grown
      ∧ ∀ k, k ≠ i → smapGet entries k = s.entryAt k := by
  obtain ⟨taken, take, taken_x, _⟩ := setChunk_eq x { owner := .entry i, next := none, used := 0 } { s with med.free := s.med.free - 1 }
  obtain ⟨linked, link, linked_l, grows⟩ := setChunk_eq l { (takeChunk x i 0 s).chunkAt l with next := some x } (takeChunk x i 0 s)
  have taken_eq : takeChunk x i 0 s = _ := take
  have joins : appendChunk i x s = (if e.state = .capturing then
        setChunk l { (takeChunk x i 0 s).chunkAt l with next := some x } (takeChunk x i 0 s)
      else modEntry i (fun e => { e with chunkCount := e.chunkCount + 1 })
        (setChunk l { (takeChunk x i 0 s).chunkAt l with next := some x } (takeChunk x i 0 s))) := by
    unfold appendChunk
    rw [he]
    dsimp only
    rw [last]
  have x_linked : x / 80 ∈ linked := grows (by rw [taken_eq]; exact taken_x)
  rw [joins, link]
  by_cases capturing : e.state = .capturing
  · rw [if_pos capturing, taken_eq]
    refine ⟨_, linked, s.cat.entries, rfl, x_linked, linked_l, ?_, fun _ _ => rfl⟩
    rw [Entry.grown, if_pos capturing]
    exact he
  · rw [if_neg capturing, modEntry_eq _ (e := e) (by rw [taken_eq]; exact he), taken_eq]
    refine ⟨_, linked, _, rfl, x_linked, linked_l, ?_, fun k other => smapGet_smapSet_ne _ _ other⟩
    rw [Entry.grown, if_neg capturing]
    exact smapGet_smapSet_self ..

/-! ### The pledge of an append -/

/-- What a job's allocation can take from its own pledge (R34). -/
def Job.pledgeLeft (job : Job) : Nat :=
  match job.body with
  | .receive r => r.pledge
  | _ => 0

/-- The job's record as `spent` chunks of its pledge are used (R34). -/
def Job.spent (job : Job) (spent : Nat) : Job :=
  match job.body with
  | .receive r => { job with body := .receive { r with pledge := r.pledge - spent } }
  | _ => job

theorem spent_zero (job : Job) : job.spent 0 = job := by
  unfold Job.spent
  split
  · rename_i r body
    rw [Nat.sub_zero]
    show { job with body := .receive r } = job
    rw [← body]
  · rfl

/-- An allocation takes the lowest FREE chunk, against the pledge or from the unpledged ones (R33, R34). -/
theorem appendSource_eq (hj : s.jobAt j = some job) (may : 0 < job.pledgeLeft ∨ s.med.pledged < s.med.free)
    (lowest : s.lowestFree = some x) : s.appendSource j = some x := by
  have unpledged : s.med.pledged < s.med.free → 0 < s.unpledged := by
    unfold State.unpledged
    omega
  unfold State.appendSource
  rw [hj, Option.bind_some]
  unfold Job.pledgeLeft at may
  unfold Job.receiveOf
  cases body : job.body with
  | receive r =>
    rw [body] at may
    exact (if_pos (may.imp_right unpledged)).trans lowest
  | _ =>
    rw [body] at may
    exact (if_pos (unpledged (may.resolve_left (lt_irrefl 0)))).trans lowest

/-- An allocation of a RECEIVE job lowers its pledge and the pledged count by one while the pledge lasts (R34). -/
theorem spendPledge_eq (hj : s.jobAt j = some job) : ∃ jobs, spendPledge j s
      = { s with jt.jobs := jobs, med.pledged := s.med.pledged - min 1 job.pledgeLeft }
    ∧ smapGet jobs j = some (job.spent (min 1 job.pledgeLeft)) ∧ ∀ k, k ≠ j → smapGet jobs k = s.jobAt k := by
  have unspent : job.pledgeLeft = 0 → spendPledge j s = s → ∃ jobs, spendPledge j s
        = { s with jt.jobs := jobs, med.pledged := s.med.pledged - min 1 job.pledgeLeft }
      ∧ smapGet jobs j = some (job.spent (min 1 job.pledgeLeft)) ∧ ∀ k, k ≠ j → smapGet jobs k = s.jobAt k := by
    intro zero same
    rw [zero, Nat.min_zero, spent_zero, same]
    exact ⟨s.jt.jobs, rfl, hj, fun _ _ => rfl⟩
  cases body : job.body with
  | receive r =>
    have spends : spendPledge j s
        = if 0 < r.pledge then releasePledge 1 (modReceive j (fun r => { r with pledge := r.pledge - 1 }) s) else s := by
      unfold spendPledge Job.receiveOf
      rw [hj, Option.bind_some, body]
    have left : job.pledgeLeft = r.pledge := by rw [Job.pledgeLeft, body]
    by_cases pledge : 0 < r.pledge
    · have one : min 1 r.pledge = 1 := by omega
      rw [spends, if_pos pledge, modReceive_put _ hj body, left, one, Job.spent, body]
      exact ⟨_, rfl, smapGet_smapSet_self .., fun k other => smapGet_smapSet_ne _ _ other⟩
    · exact unspent (by omega) (spends.trans (if_neg pledge))
  | _ =>
    refine unspent (by rw [Job.pledgeLeft, body]) ?_
    unfold spendPledge Job.receiveOf
    rw [hj, Option.bind_some, body]

end Placing

end Sys2Proof.Machine

/-! ## Proofs: what the arbiter issues, by request -/

namespace Sys2Proof.Machine

section Issuing
variable {s w : State} {i j n l x offset : Nat} {job : Job} {e : Entry}

/-! ### Appends -/

/-- The state as an append of job `j` is placed: its request has left the list, which a capture's stays in (R38, R39). -/
structure Requested (s w : State) (j : Nat) (job : Job) (req : JobReq) (asked : Job) : Prop where
  frame : ∃ jobs rrLast, w = { s with jt.jobs := jobs, med.rrLast := rrLast }
  own : w.jobAt j = some asked
  others : ∀ k, k ≠ j → w.jobAt k = s.jobAt k
  pledge : asked.pledgeLeft = job.pledgeLeft
  sound : req = .sound → ∀ n, asked.spent n = job
  receive : ∀ r n, job.body = .receive r →
    asked.spent n = { job with body := .receive { r with pledge := r.pledge - n }, reqs := job.reqs.tail }

/-- A received block's append (R37): the request leaves the job's list. -/
theorem issue_append (b : List Byte) (hj : s.jobAt j = some job) (hi : job.entry = some i) (he : s.entryAt i = some e) :
    ∃ w asked, issue (.job j (.append b)) s = issueAppend j i e (.append b) (withSequence b) w
      ∧ Requested s w j job (.append b) asked := by
  let asked : Job := { job with reqs := job.reqs.tail }
  let w : State := { putJob j asked s with med.rrLast := j }
  have own : w.jobAt j = some asked := jobAt_putJob_self ..
  have takes : takeRequest (.job j (.append b)) s = w := takeRequest_job hj (by simp) (by simp)
  have entry : w.jobEntry j = some (i, e) := jobEntry_some own hi he
  refine ⟨w, asked, ?_, ⟨⟨_, _, rfl⟩, own, fun k other => jobAt_putJob_ne _ s other, rfl, fun is => ?_, fun r n body => ?_⟩⟩
  · show issueJob j (.append b) (takeRequest (.job j (.append b)) s) = _
    rw [takes, issueJob, own, entry]
  · cases is
  · have body' : asked.body = .receive r := body
    rw [Job.spent, body']

/-- A capture's append (R55): its oldest closed block. -/
theorem issue_sound {c : CaptureJob} {b : SoundBlock} {rest : List SoundBlock} (hj : s.jobAt j = some job)
    (hi : job.entry = some i) (he : s.entryAt i = some e) (body : job.body = .capture c) (closed : c.closed = b :: rest) :
    issue (.job j .sound) s = issueAppend j i e .sound (b.stored e.take e.format) s ∧ Requested s s j job .sound job := by
  refine ⟨?_, ⟨⟨_, _, rfl⟩, hj, fun _ _ => rfl, rfl, fun _ n => by rw [Job.spent, body], fun r n is => ?_⟩⟩
  · show issueJob j .sound s = _
    have blocks : (job.captureOf.map (·.closed)).getD [] = b :: rest := by
      rw [Job.captureOf, body]
      exact closed
    rw [issueJob, hj, jobEntry_some hj hi he]
    dsimp only
    rw [blocks]
  · rw [body] at is
    cases is

/-- Behind the chain's last block (R37). -/
theorem issueAppend_room (req : JobReq) (block : Nat → List Byte) (last : (s.chain e).getLast? = some l)
    (good : (s.chunkAt l).owner ≠ .bad) (room : (s.chunkAt l).used < 4096) : issueAppend j i e req block s
      = issueOp (chainOp (.job j req) true (l, (s.chunkAt l).used) (block (s.nextSequence e)) s.now) s := by
  unfold issueAppend
  rw [placeAppend_room j i last good room]

/-- Into a chunk that joins the chain (R33). -/
theorem issueAppend_allocates (req : JobReq) (block : Nat → List Byte) (rising : smapRising s.med.chunks = true)
    (last : (s.chain e).getLast? = some l) (full : (s.chunkAt l).owner = .bad ∨ 4096 ≤ (s.chunkAt l).used)
    (nodup : (s.chain e).Nodup) (short : (s.chain e).length < s.med.total) (fresh : x ∉ s.chain e)
    (source : s.appendSource j = some x) (he : s.entryAt i = some e) : issueAppend j i e req block s
      = issueOp (chainOp (.job j req) true (x, 0) (block (s.nextSequence e)) s.now) (spendPledge j (appendChunk i x s)) := by
  unfold issueAppend
  rw [placeAppend_allocates rising last full nodup short fresh source he]

/-! ### At a place in the chain -/

/-- A write to a sequence the chain holds goes to its place (R36). -/
theorem issueAt_place {req : JobReq} {write : Bool} {seq : Nat} (data : List Byte) (place : s.locate e seq = some (x, offset)) :
    issueAt j i e req write seq data s = issueOp (chainOp (.job j req) write (x, offset) data s.now) s := by
  unfold issueAt
  rw [place]

/-- A job's request other than a capture's, at a place its entry's chain holds (R36). -/
theorem issue_at {req : JobReq} {write : Bool} {seq : Nat} {data : List Byte} (hj : s.jobAt j = some job)
    (hi : job.entry = some i) (he : s.entryAt i = some e) (place : s.locate e seq = some (x, offset))
    (is : req = .read seq ∧ write = false ∧ data = []
      ∨ ∃ b, req = .inPlace seq b ∧ write = true ∧ data = b.take 4 ++ beBytes 4 seq ++ b.drop 8) :
    issue (.job j req) s = issueOp (chainOp (.job j req) write (x, offset) data s.now)
      { putJob j { job with reqs := job.reqs.tail } s with med.rrLast := j } := by
  let w : State := { putJob j { job with reqs := job.reqs.tail } s with med.rrLast := j }
  have own : w.jobAt j = some { job with reqs := job.reqs.tail } := jobAt_putJob_self ..
  have entry : w.jobEntry j = some (i, e) := jobEntry_some own hi he
  have place' : w.locate e seq = some (x, offset) := place
  obtain ⟨rfl, rfl, rfl⟩ | ⟨b, rfl, rfl, rfl⟩ := is
  · show issueJob j (.read seq) (takeRequest (.job j (.read seq)) s) = _
    rw [takeRequest_job hj (by simp) (by simp), issueJob, own, entry]
    exact issueAt_place [] place'
  · show issueJob j (.inPlace seq b) (takeRequest (.job j (.inPlace seq b)) s) = _
    rw [takeRequest_job hj (by simp) (by simp), issueJob, own, entry, ← withSequence_eq]
    exact issueAt_place _ place'

/-- A capture's head block goes to sequence 0 (R65, R68). -/
theorem issue_captureHead {c : CaptureJob} (hj : s.jobAt j = some job) (hi : job.entry = some i) (he : s.entryAt i = some e)
    (body : job.body = .capture c) (place : s.locate e 0 = some (x, offset)) :
    issue (.job j .head) s = issueOp (chainOp (.job j .head) true (x, offset)
        (if c.ending = none then (c.headInfo e.take s.sul.cfg.copiesWanted e.label).block else (e.headInfo e.label).block) s.now)
      (putJob j { job with body := .capture { c with head := .issued } } s) := by
  let w : State := putJob j { job with body := .capture { c with head := .issued } } s
  have own : w.jobAt j = some { job with body := .capture { c with head := .issued } } := jobAt_putJob_self ..
  have entry : w.jobEntry j = some (i, e) := jobEntry_some own hi he
  have place' : w.locate e 0 = some (x, offset) := place
  have takes : takeRequest (.job j .head) s = w := modCapture_eq _ hj body
  show issueJob j .head (takeRequest (.job j .head) s) = _
  rw [takes, issueJob, own, entry]
  exact issueAt_place _ place'

/-- A head block rewritten for a label (R19). -/
theorem issue_wtHead (label : Option (List Byte)) (n : Nat) (he : s.entryAt i = some e)
    (place : s.locate e 0 = some (x, offset)) : ∃ wt wtRetry, issue (.wt (.head i label) n) s
      = issueOp (chainOp (.wt (.head i label) n) true (x, offset) (e.headInfo label).block s.now)
          { s with cat.wt := wt, cat.wtRetry := wtRetry } := by
  obtain ⟨wt, wtRetry, takes⟩ := takeRequest_wt (.head i label) n s
  have he' : ({ s with cat.wt := wt, cat.wtRetry := wtRetry } : State).entryAt i = some e := he
  have place' : ({ s with cat.wt := wt, cat.wtRetry := wtRetry } : State).locate e 0 = some (x, offset) := place
  refine ⟨wt, wtRetry, ?_⟩
  show issueWt (.head i label) n (takeRequest (.wt (.head i label) n) s) = _
  rw [takes, issueWt, he']
  dsimp only
  rw [place']
  rfl

/-- A head block SUL writes (R189). -/
theorem issue_sulHead (n : Nat) (he : s.entryAt i = some e) (place : s.locate e 0 = some (x, offset)) :
    issue (.sul (.head i n)) s
      = issueOp (chainOp (.sul (.head i n)) true (x, offset) (e.headInfo e.label).block s.now) s := by
  show issueSul (.head i n) s = _
  rw [issueSul, he]
  dsimp only
  rw [place]

/-- The bytes of an entry's head block (R193), NORMAL where it has no end cause. -/
theorem entryHead_block (e : Entry) (label : Option (List Byte)) : (e.headInfo label).block
    = makeBlock (some e.take) 0 0 0 2 e.format.byte (headPayload e.take e.format (e.endCause.getD .normal) e.timelineLength
        e.storedFrames e.storedBlocks e.check e.clips e.copiesWanted label e.gaps) := headInfo_block _

/-- The bytes of the head block of a take about to be sealed (R65). -/
theorem captureHead_block (c : CaptureJob) (take : TakeNo) (copies : Nat) (label : Option (List Byte)) :
    (c.headInfo take copies label).block = makeBlock (some take) 0 0 0 2 c.format.byte
      (headPayload take c.format ((c.cut.map (·.2)).getD .normal) ((c.cut.map (·.1)).getD c.offset) c.storedFrames
        (c.soundBlocks + 1) c.check c.clips copies label c.gaps) := headInfo_block _

/-! ### An append as a whole -/

/-- What an append leaves in the job records (R34): `spent` chunks of the pledge are used. -/
def appendJobs (s : State) (j : Nat) (job : Job) (req : JobReq) (spent : Nat) (u : State) : Prop :=
  (∀ k, k ≠ j → u.jobAt k = s.jobAt k) ∧ (req = .sound → u.jobAt j = some job)
    ∧ ∀ r, job.body = .receive r →
        u.jobAt j = some { job with body := .receive { r with pledge := r.pledge - spent }, reqs := job.reqs.tail }

/-- The write an append issues. -/
def appendOp (s : State) (j : Nat) (req : JobReq) (x offset : Nat) (data : List Byte) : Issued :=
  { who := .job j req, write := true, addr := 4096 * x + offset, data := data, chunk := some x, offset := offset,
    since := s.now, wanted := true }

theorem append_room {req : JobReq} {block : Nat → List Byte} {asked : Job}
    (issues : issue (.job j req) s = issueAppend j i e req block w) (is : Requested s w j job req asked)
    (last : (s.chain e).getLast? = some l) (good : (s.chunkAt l).owner ≠ .bad) (room : (s.chunkAt l).used < 4096) :
    ∃ u, u = issue (.job j req) s
      ∧ u.med.issued = some (appendOp s j req l (s.chunkAt l).used (block (s.blocksUsed (s.chain e))))
      ∧ appendJobs s j job req 0 u ∧ u.med.chunks = s.med.chunks ∧ u.med.free = s.med.free ∧ u.med.pledged = s.med.pledged
      ∧ u.med.mapList = s.med.mapList ∧ u.cat = s.cat ∧ u.cpe = s.cpe := by
  obtain ⟨jobs, rrLast, frame⟩ := is.frame
  have own := is.own
  rw [← spent_zero asked] at own
  have at_ := issueAppend_room (j := j) (i := i) req block (s := w) (e := e) (l := l) (by rw [frame]; exact last)
    (by rw [frame]; exact good) (by rw [frame]; exact room)
  refine ⟨_, rfl, ?_⟩
  rw [issues, at_]
  refine ⟨?_, ⟨is.others, fun sound => own.trans (congrArg some (is.sound sound 0)),
    fun r body => own.trans (congrArg some (is.receive r 0 body))⟩, ?_⟩
  · rw [frame]
    rfl
  · rw [frame]
    exact ⟨rfl, rfl, rfl, rfl, rfl, rfl⟩

theorem append_allocates {req : JobReq} {block : Nat → List Byte} {asked : Job}
    (issues : issue (.job j req) s = issueAppend j i e req block w) (is : Requested s w j job req asked)
    (he : s.entryAt i = some e) (rising : smapRising s.med.chunks = true)
    (last : (s.chain e).getLast? = some l) (full : (s.chunkAt l).owner = .bad ∨ 4096 ≤ (s.chunkAt l).used)
    (nodup : (s.chain e).Nodup) (short : (s.chain e).length < s.med.total) (fresh : x ∉ s.chain e)
    (lowest : s.lowestFree = some x) (may : 0 < job.pledgeLeft ∨ s.med.pledged < s.med.free) :
    ∃ u, u = issue (.job j req) s
      ∧ u.med.issued = some (appendOp s j req x 0 (block (s.blocksUsed (s.chain e))))
      ∧ appendJobs s j job req (min 1 job.pledgeLeft) u
      ∧ u.chunkAt x = { owner := .entry i, next := none, used := 0 }
      ∧ u.chunkAt l = { s.chunkAt l with next := some x } ∧ (∀ y, y ≠ x → y ≠ l → u.chunkAt y = s.chunkAt y)
      ∧ u.med.free = s.med.free - 1 ∧ u.med.pledged = s.med.pledged - min 1 job.pledgeLeft
      ∧ x / 80 ∈ u.med.mapList ∧ l / 80 ∈ u.med.mapList ∧ u.entryAt i = some e.grown
      ∧ (∀ k, k ≠ i → u.entryAt k = s.entryAt k) ∧ u.cpe = s.cpe := by
  obtain ⟨jobs, rrLast, frame⟩ := is.frame
  have he' : w.entryAt i = some e := by rw [frame]; exact he
  have rising' : smapRising w.med.chunks = true := by rw [frame]; exact rising
  have last' : (w.chain e).getLast? = some l := by rw [frame]; exact last
  have x_ne_l : l ≠ x := fun is => fresh (is ▸ List.mem_of_getLast? last)
  have source : w.appendSource j = some x :=
    appendSource_eq is.own (by rw [is.pledge, frame]; exact may) (by rw [frame]; exact lowest)
  have at_ := issueAppend_allocates (j := j) (i := i) req block rising' last'
    (by rw [frame]; exact full) (by rw [frame]; exact nodup) (by rw [frame]; exact short) (by rw [frame]; exact fresh) source he'
  have chunks := appendChunk_chunkAt (x := x) rising' last' x_ne_l he'
  obtain ⟨chunkMap, mapList, entries, grows, x_waits, l_waits, entry, entriesElse⟩ := appendChunk_eq (x := x) he' last'
  have own : (appendChunk i x w).jobAt j = some asked := by rw [grows]; exact is.own
  obtain ⟨jobs', spends, own', others⟩ := spendPledge_eq own
  rw [is.pledge] at spends own'
  have chunkAt_w : ∀ y, w.chunkAt y = s.chunkAt y := fun y => by rw [frame]; rfl
  have grown_others : ∀ k, (appendChunk i x w).jobAt k = w.jobAt k := fun k => by rw [grows]; rfl
  have same : ∀ y, (spendPledge j (appendChunk i x w)).chunkAt y = (appendChunk i x w).chunkAt y := fun y => by
    rw [State.chunkAt, spendPledge_chunks]
    rfl
  have jobs_are : (spendPledge j (appendChunk i x w)).jt.jobs = jobs' := by rw [spends]
  refine ⟨_, rfl, ?_⟩
  rw [issues, at_]
  refine ⟨?_, ⟨fun k other => ?_, fun sound => ?_, fun r body => ?_⟩, ?_, ?_, fun y other behind => ?_, ?_⟩
  · rw [frame]
    rfl
  · show smapGet (spendPledge j (appendChunk i x w)).jt.jobs k = _
    rw [jobs_are, others k other, grown_others, is.others k other]
  · show smapGet (spendPledge j (appendChunk i x w)).jt.jobs j = _
    rw [jobs_are, own', is.sound sound]
  · show smapGet (spendPledge j (appendChunk i x w)).jt.jobs j = _
    rw [jobs_are, own', is.receive r _ body]
  · exact (same x).trans ((chunks x).trans ((if_neg (Ne.symm x_ne_l)).trans (if_pos rfl)))
  · exact (same l).trans ((chunks l).trans ((if_pos rfl).trans (by rw [chunkAt_w])))
  · exact (same y).trans ((chunks y).trans ((if_neg behind).trans ((if_neg other).trans (chunkAt_w y))))
  · rw [spends, grows]
    refine ⟨?_, ?_, x_waits, l_waits, entry, fun k other => (entriesElse k other).trans ?_, ?_⟩ <;> rw [frame] <;> rfl

end Issuing

end Sys2Proof.Machine

/-! ## Proofs: O9 -/

namespace Sys2Proof.Machine

section Look
variable {s : State}

/-- A write-through item other than a head block (R26): its block of the reserved chunk, and ACT. -/
theorem settle_wt {w : WtItem} {n : Nat} (idle : s.portState = .idle) (chosen : s.chosen = some (.wt w n))
    (noHead : ∀ i label, w ≠ .head i label) :
    ∃ op, (settle s).med.issued = some op ∧ op.who = .wt w n ∧ op.write = true
      ∧ (∀ i, w = .entry i → op.addr = 1 + i ∧ op.data = recordBlock i (s.entryAt i))
      ∧ (w = .counter → op.addr = 0 ∧ op.data = counterBlock s.cat.counter)
      ∧ { settle s with act := s.act, med.issued := s.med.issued, cat.wt := s.cat.wt, cat.wtRetry := s.cat.wtRetry } = s := by
  obtain ⟨wt, wtRetry, takes⟩ := takeRequest_wt w n s
  have issues : issue (.wt w n) s = issueWt w n { s with cat.wt := wt, cat.wtRetry := wtRetry } := by
    show issueWt w n (takeRequest (.wt w n) s) = _
    rw [takes]
  cases w with
  | head i label => exact absurd rfl (noHead i label)
  | entry i =>
    obtain ⟨a, looks⟩ := settle_takes idle chosen issues
    rw [looks]
    exact ⟨_, rfl, rfl, rfl, fun k is => by cases is; exact ⟨rfl, rfl⟩, fun is => by (cases is), rfl⟩
  | emptied i =>
    obtain ⟨a, looks⟩ := settle_takes idle chosen issues
    rw [looks]
    exact ⟨_, rfl, rfl, rfl, fun k is => by (cases is), fun is => by (cases is), rfl⟩
  | counter =>
    obtain ⟨a, looks⟩ := settle_takes idle chosen issues
    rw [looks]
    exact ⟨_, rfl, rfl, rfl, fun k is => by (cases is), fun _ => ⟨rfl, rfl⟩, rfl⟩

/-- A map item (R44): its block of the reserved chunk, and ACT. -/
theorem settle_map {b n : Nat} (idle : s.portState = .idle) (chosen : s.chosen = some (.map b n)) :
    ∃ op, (settle s).med.issued = some op ∧ op.who = .map b n ∧ op.write = true ∧ op.addr = 2049 + b ∧ op.data = s.mapBlock b
      ∧ { settle s with act := s.act, med.issued := s.med.issued, med.mapList := s.med.mapList, med.mapRetry := s.med.mapRetry }
          = s := by
  obtain ⟨mapList, mapRetry, takes⟩ := takeRequest_map b n s
  have issues : issue (.map b n) s = issueOp (reservedOp (.map b n) true (2049 + b) (s.mapBlock b) s.now)
      { s with med.mapList := mapList, med.mapRetry := mapRetry } := by
    show issueOp (reservedOp (.map b n) true (2049 + b) ((takeRequest (.map b n) s).mapBlock b) (takeRequest (.map b n) s).now)
      (takeRequest (.map b n) s) = _
    rw [takes]
    rfl
  obtain ⟨a, looks⟩ := settle_takes idle chosen issues
  rw [looks]
  exact ⟨_, rfl, rfl, rfl, rfl, rfl, rfl⟩

/-- A job's read of a block present (R36): its place, the rotation and ACT. -/
theorem settle_read {j q i c o : Nat} {job : Job} {e : Entry} (idle : s.portState = .idle)
    (chosen : s.chosen = some (.job j (.read q))) (hj : s.jobAt j = some job) (hi : job.entry = some i)
    (he : s.entryAt i = some e) (place : s.locate e q = some (c, o)) :
    ∃ op, (settle s).med.issued = some op ∧ op.who = .job j (.read q) ∧ op.write = false ∧ op.addr = 4096 * c + o
      ∧ (settle s).med.rrLast = j
      ∧ { settle s with act := s.act, med.issued := s.med.issued, med.rrLast := s.med.rrLast,
                        jt.jobs := smapSet (settle s).jt.jobs j job } = { s with jt.jobs := smapSet s.jt.jobs j job } := by
  obtain ⟨a, looks⟩ := settle_takes idle chosen (issue_at hj hi he place (.inl ⟨rfl, rfl, rfl⟩))
  have jobs : (settle s).jt.jobs = smapSet s.jt.jobs j { job with reqs := job.reqs.tail } := by rw [looks]; rfl
  rw [jobs, smapSet_smapSet, looks]
  exact ⟨_, rfl, rfl, rfl, rfl, rfl, rfl⟩

/-- The tiers once start-up has completed (R38, R39). -/
theorem tiers (up : s.complete = true) :
    (∀ op, s.med.issued = some op → (∀ fuel, arbitrate fuel s = s) ∧ (settle s).med.issued = some op)
    ∧ (∀ r, s.captureRequest = some r → s.chosen = some r)
    ∧ (s.captureRequest = none → s.med.mapRetry = none → ∀ b rest, s.med.mapList = b :: rest → s.chosen = some (.map b 0))
    ∧ (s.captureRequest = none → s.med.mapRetry = none → s.med.mapList = [] → s.cat.wtRetry = none →
        ∀ w rest, s.cat.wt = w :: rest → s.chosen = some (.wt w 0))
    ∧ (jobsOk s.jt.jobs → s.captureRequest = none → s.writeThrough = none → ∀ j job, s.nextJob = some (j, job) →
        s.chosen = job.reqs.head?.map (.job j ·)
          ∧ ∀ k other, smapGet s.jt.jobs k = some other → other.kind ≠ .capture → other.reqs ≠ [] →
              (s.med.rrLast < j → s.med.rrLast < k → j ≤ k) ∧ (j ≤ s.med.rrLast → k ≤ s.med.rrLast ∧ j ≤ k)) := by
  refine ⟨fun op issued => ⟨arbitrate_still (.inl (busy_of_issued issued)), ?_⟩, fun r => chosen_capture up,
    fun quiet retry b rest list => chosen_writeThrough up quiet (writeThrough_map retry list),
    fun quiet retry list again w rest queue => chosen_writeThrough up quiet (writeThrough_wt retry list again queue),
    fun sound quiet written j job next => ⟨?_, fun k other there kind asks =>
      nextJob_rotates sound.1 next (mem_waitingJobs there kind asks)⟩⟩
  · have alone := congrArg (·.med.issued) (settle_act_alone (.inl (busy_of_issued issued)))
    exact alone.trans issued
  · rw [chosen_job up quiet written, State.jobRequest, next]

end Look

/-- Settles O9: the tiers of `chosen`, and the place and bytes of each kind of request. -/
theorem arbiterServesTiersInOrder : Obligations.ArbiterServesTiersInOrder := by
  unfold Obligations.ArbiterServesTiersInOrder
  intro stored head headOf issued
  refine ⟨fun s => ⟨settle_act_alone, fun w n => settle_wt, fun b n => settle_map, fun j job q i e c o => settle_read,
      fun up => tiers up⟩, fun s r op => settle_issued_alone, fun s i n x offset e label he place => ⟨?_, ?_⟩,
    fun s j i job e sound hj hi he => ?_⟩
  · obtain ⟨wt, wtRetry, issues⟩ := issue_wtHead label n he place
    rw [entryHead_block] at issues
    exact ⟨_, ⟨rfl, congrArg (·.med.issued) issues⟩⟩
  · have issues := issue_sulHead n he place
    rw [entryHead_block] at issues
    refine ⟨_, ⟨rfl, congrArg (·.med.issued) issues⟩, ?_⟩
    rw [issues]
    rfl
  have rising : smapRising s.med.chunks = true := sound.2.1.2.1
  refine ⟨fun req block is => ?_, fun q b x offset place => ?_, fun c x offset body place => ?_⟩
  · have issues : ∃ w asked block', issue (.job j req) s = issueAppend j i e req block' w ∧ Requested s w j job req asked
        ∧ ∀ seq, block' seq = block seq := by
      obtain ⟨b, rfl, bytes⟩ | ⟨c, b, rest, rfl, body, closed, bytes⟩ := is
      · obtain ⟨w, asked, issues, request⟩ := issue_append b hj hi he
        exact ⟨w, asked, _, issues, request, fun seq => (withSequence_eq b seq).trans (bytes seq).symm⟩
      · obtain ⟨issues, request⟩ := issue_sound hj hi he body closed
        exact ⟨s, job, _, issues, request, fun seq => (bytes seq).symm⟩
    obtain ⟨w, asked, block', issues, request, bytes⟩ := issues
    obtain rfl : block' = block := funext bytes
    intro seq pledge requested
    refine ⟨fun l last good room => ?_, fun l x last full nodup short fresh above below free least may => ?_⟩
    · obtain ⟨u, is, op, rest⟩ := append_room issues request last good room
      exact ⟨u, ⟨is, op⟩, rest⟩
    · obtain ⟨u, is, op, rest⟩ := append_allocates issues request he rising last full nodup short fresh
        (lowestFree_eq rising above below free least) may
      exact ⟨u, ⟨is, op⟩, rest⟩
  · have issues := issue_at hj hi he place (req := .inPlace q b) (.inr ⟨b, rfl, rfl, rfl⟩)
    refine ⟨_, ⟨rfl, congrArg (·.med.issued) issues⟩, ?_⟩
    rw [issues]
    exact ⟨jobAt_putJob_self .., rfl, rfl⟩
  · have issues := issue_captureHead hj hi he body place
    rw [captureHead_block, entryHead_block] at issues
    refine ⟨_, ⟨rfl, congrArg (·.med.issued) issues⟩, ?_⟩
    rw [issues]
    exact ⟨jobAt_putJob_self .., rfl, rfl⟩

end Sys2Proof.Machine

/-! ## Proofs: the reads of a repair

SUPPORT. How VERIFYING goes on after a read has ended (R163, R164, R165). -/

namespace Sys2Proof.Machine

section Range

theorem foldl_min_spec (rest : List Nat) (a : Nat) :
    rest.foldl min a ∈ a :: rest ∧ ∀ x ∈ a :: rest, rest.foldl min a ≤ x := by
  induction rest generalizing a with
  | nil => simp
  | cons b rest ih =>
    obtain ⟨mem, least⟩ := ih (min a b)
    rw [List.foldl_cons]
    have below : rest.foldl min (min a b) ≤ min a b := least _ (by simp)
    refine ⟨?_, fun x hx => ?_⟩
    · obtain is | inRest := List.mem_cons.mp mem
      · rw [is]
        rcases Nat.le_total a b with le | le <;> simp [le]
      · simp [inRest]
    · obtain rfl | rfl | inRest : x = a ∨ x = b ∨ x ∈ rest := by simpa using hx
      · exact below.trans (Nat.min_le_left ..)
      · exact below.trans (Nat.min_le_right ..)
      · exact least x (List.mem_cons_of_mem _ inRest)

theorem foldl_max_spec (l : List Nat) (a : Nat) :
    (l.foldl max a = a ∨ l.foldl max a ∈ l) ∧ a ≤ l.foldl max a ∧ ∀ x ∈ l, x ≤ l.foldl max a := by
  induction l generalizing a with
  | nil => simp
  | cons b rest ih =>
    obtain ⟨mem, start, greatest⟩ := ih (max a b)
    rw [List.foldl_cons]
    refine ⟨?_, (Nat.le_max_left ..).trans start, fun x hx => ?_⟩
    · obtain is | inRest := mem
      · rw [is]
        rcases Nat.le_total a b with le | le <;> simp [le]
      · exact .inr (List.mem_cons_of_mem _ inRest)
    · obtain rfl | inRest := List.mem_cons.mp hx
      · exact (Nat.le_max_right ..).trans start
      · exact greatest x inRest

/-- The repair range (R165): from the lowest listed sequence to the highest not above it plus 63. -/
theorem repairRange_spec {l : List Nat} (listed : l ≠ []) : (repairRange l).1 ∈ l ∧ (∀ x ∈ l, (repairRange l).1 ≤ x)
    ∧ 1 ≤ (repairRange l).2 ∧ (repairRange l).2 ≤ 64 ∧ (repairRange l).1 + (repairRange l).2 - 1 ∈ l
    ∧ ∀ x ∈ l, x ≤ (repairRange l).1 + 63 → x ≤ (repairRange l).1 + (repairRange l).2 - 1 := by
  cases l with
  | nil => exact absurd rfl listed
  | cons a rest =>
    obtain ⟨mem, least⟩ := foldl_min_spec rest a
    let first := rest.foldl min a
    let near := (a :: rest).filter (· ≤ first + 63)
    obtain ⟨last_mem, last_ge, greatest⟩ := foldl_max_spec near first
    have last_le : near.foldl max first ≤ first + 63 := by
      obtain is | inNear := last_mem
      · omega
      · simpa using List.of_mem_filter inNear
    have last_in : near.foldl max first ∈ a :: rest := by
      obtain is | inNear := last_mem
      · rw [is]
        exact mem
      · exact List.mem_of_mem_filter inNear
    show first ∈ a :: rest ∧ (∀ x ∈ a :: rest, first ≤ x) ∧ 1 ≤ near.foldl max first - first + 1
      ∧ near.foldl max first - first + 1 ≤ 64 ∧ first + (near.foldl max first - first + 1) - 1 ∈ a :: rest
      ∧ ∀ x ∈ a :: rest, x ≤ first + 63 → x ≤ first + (near.foldl max first - first + 1) - 1
    have at_last : first + (near.foldl max first - first + 1) - 1 = near.foldl max first := by omega
    rw [at_last]
    exact ⟨mem, least, by omega, by omega, last_in, fun x hx within => greatest x (List.mem_filter.mpr ⟨hx, by simpa using within⟩)⟩

theorem soundDamage_all {e : Entry} (unlisted : 0 ∉ e.damaged) : soundDamage e = e.damaged :=
  List.filter_eq_self.mpr fun x hx => by
    have : x ≠ 0 := fun is => unlisted (is ▸ hx)
    simpa using this

end Range

section Verifying
variable {s w : State} {i j q : Nat} {job : Job} {r : RepairJob} {e : Entry}

/-! ### The end of a repair with nothing left listed -/

theorem closeJob_idle (hj : s.jobAt j = some job) (idle : s.med.issued = none) : (closeJob j s).med.issued = none := by
  obtain ⟨sending, hou, removed⟩ := txRemoveJob_eq j s
  obtain ⟨hou', answers⟩ := removeAnswers_hou (fun r => r.owner == some j) (txRemoveJob j s)
  have quiet : unwant j (removeAnswers (fun r => r.owner == some j) (txRemoveJob j s))
      = removeAnswers (fun r => r.owner == some j) (txRemoveJob j s) := by
    rw [answers, removed]
    unfold unwant
    rw [show ({ s with lif.queue := _, lif.sending := _, hou := _ } : State).med.issued = none from idle]
  unfold closeJob
  rw [hj]
  dsimp only
  rw [quiet, releaseSpace_eq, answers, removed]
  cases job.entry with
  | none => exact idle
  | some i =>
    dsimp only
    rw [dropRef_eq (s := s) i (by rfl)]
    exact idle

/-- A REPAIR job whose entry lists nothing ends OK and holds nothing back (R163, R168). -/
theorem endJob_repaired (rising : smapRising s.jt.jobs = true) (hj : s.jobAt j = some job) (hb : job.body = .repair r)
    (hi : job.entry = some i) (he : s.entryAt i = some e) (clean : e.damaged = []) (idle : s.med.issued = none) :
    ∃ v, endJob j .ok none s = raise (.doneJob job.tag .repair .ok job.take (r.holder.getD 0xFF) r.cleared 0) v
      ∧ (endJob j .ok none s).entryAt i = some { e with jobRefs := e.jobRefs - 1 }
      ∧ (endJob j .ok none s).med.issued = none := by
  obtain ⟨v, ended, -⟩ := endJob_repair .ok hj hb hi he
  have entry : (closeJob j s).entryAt i = some { e with jobRefs := e.jobRefs - 1 } := by
    obtain ⟨sending, hou, issued, closed⟩ := closeJob_eq hj
    rw [closed]
    exact (entriesWithout_get hi he).1
  have stands : settleEntry job .ok (closeJob j s) = closeJob j s := by
    rw [settleEntry, hi, hb]
    show holdRepair i r .ok (closeJob j s) = closeJob j s
    unfold holdRepair
    rw [entry]
    refine if_neg ?_
    rw [clean]
    simp
  have ends := endJob_eq (result := .ok) (parting := none) hj
  rw [partWith_none, stands] at ends
  refine ⟨v, ?_, ?_, ?_⟩
  · rw [ended, clean, Job.kind, hb]
    rfl
  · rw [ends, entryAt_raise]
    exact entry
  · rw [ends, raise_med]
    exact closeJob_idle hj idle

/-! ### The scan's findings -/

/-- What a scan's last read leaves in the entry (R163). -/
theorem closeScan_spec (he : s.entryAt i = some e) : ∃ cat, closeScan i r s = { s with cat := cat }
    ∧ (closeScan i r s).entryAt i = some (if r.scan then e.scanned r.tally else e) := by
  unfold closeScan
  rw [he]
  dsimp only
  by_cases changes : (r.scan && decide (e.scanned r.tally ≠ e)) = true
  · obtain ⟨wt, changed, -⟩ := changeEntryMarked_eq (Entry.scanned r.tally) he
    have scan : r.scan = true := (Bool.and_eq_true_iff.mp changes).1
    rw [if_pos changes, changed, if_pos scan]
    exact ⟨_, rfl, smapGet_smapSet_self ..⟩
  · rw [if_neg changes]
    refine ⟨s.cat, rfl, he.trans (congrArg some ?_)⟩
    by_cases scan : r.scan = true
    · rw [if_pos scan]
      by_contra other
      exact changes (by simp [scan, Ne.symm other])
    · rw [if_neg scan]

/-! ### After the last read -/

theorem verified_head (hj : s.jobAt j = some job) (hb : job.body = .repair r) (hi : job.entry = some i)
    (he : (closeScan i r s).entryAt i = some e) (frame : (closeScan i r s).jobAt j = some job) (listed : 0 ∈ e.damaged) :
    verified j s = putJob j { job with body := .repair { r with state := .head },
                                       reqs := [.inPlace 0 (e.headInfo e.label).block] } (closeScan i r s) := by
  unfold verified Job.repairOf
  rw [hj]
  dsimp only
  rw [hb, hi]
  dsimp only
  rw [he]
  dsimp only
  rw [if_pos (by simpa using listed), modRepair_put _ frame hb, modJob_putJob]
  dsimp only
  rw [hi]

/-- The record of a REPAIR job that seeks (R165). -/
def RepairJob.seeking (e : Entry) (r : RepairJob) : RepairJob :=
  { r with state := .seeking, first := (repairRange (soundDamage e)).1, count := (repairRange (soundDamage e)).2 }

/-- The SEEK of a REPAIR job (R165). -/
def State.repairSeekFrame (s : State) (job : Job) (e : Entry) : Frame :=
  { src := s.own, dst := 63, dir := .out, tag := s.nextJobTag, take := job.take.getD { node := 0, seq := 0 },
    payload := .seek 0 0 .repair (repairRange (soundDamage e)).1 (repairRange (soundDamage e)).2 [] }

/-- SEEKING: the range and a new exchange tag, and the SEEK offered (R165). -/
theorem repairSeek_offers (rising : smapRising s.jt.jobs = true) (hj : s.jobAt j = some job) (hb : job.body = .repair r)
    (standing : s.linkStanding = true) : ∃ nextTag, repairSeek j e s = giveFrame j (s.repairSeekFrame job e)
      (putJob j { job with body := .repair (r.seeking e), exTag := some s.nextJobTag } { s with jt.nextTag := nextTag }) := by
  let job₁ : Job := { job with body := .repair (r.seeking e) }
  let job₂ : Job := { job₁ with exTag := some s.nextJobTag }
  let w : State := putJob j job₂ { s with jt.nextTag := (s.nextJobTag + 1) % 256 }
  have sets : modRepair j (fun r => { r with state := .seeking, first := (repairRange (soundDamage e)).1,
                                             count := (repairRange (soundDamage e)).2 }) s = putJob j job₁ s :=
    modRepair_put _ hj hb
  have tag : (putJob j job₁ s).nextJobTag = s.nextJobTag := nextJobTag_putJob rising hj rfl rfl
  have draws : drawExchange j (putJob j job₁ s) = w := by
    rw [drawExchange_put (jobAt_putJob_self ..), tag]
    exact putJob_putJob j job₁ job₂ { s with jt.nextTag := (s.nextJobTag + 1) % 256 }
  have own : w.jobAt j = some job₂ := jobAt_putJob_self ..
  have stands : w.linkStanding = true := standing
  refine ⟨_, show repairSeek j e s = giveFrame j (s.repairSeekFrame job e) w from ?_⟩
  unfold repairSeek
  dsimp only
  rw [sets, draws, own]
  dsimp only
  rw [if_pos stands]
  rfl

/-- SEEKING with nothing kept back (R165, R78). -/
theorem repairSeek_gives (rising : smapRising s.jt.jobs = true) (hj : s.jobAt j = some job) (hb : job.body = .repair r)
    (standing : s.linkStanding = true) (empty : job.outbox = []) : ∃ jobs queue plain nextTag job',
    repairSeek j e s = { s with jt.jobs := jobs, jt.nextTag := nextTag, lif.queue := queue, hou.plain := plain }
      ∧ smapGet jobs j = some job' ∧ (∀ k, k ≠ j → smapGet jobs k = s.jobAt k) ∧ job'.body = .repair (r.seeking e)
      ∧ (s.lif.queue.length < 16 → queue = s.lif.queue ++ [{ frame := s.repairSeekFrame job e, owner := some j }])
      ∧ (16 ≤ s.lif.queue.length → job'.outbox = [s.repairSeekFrame job e]) := by
  obtain ⟨nextTag, offers⟩ := repairSeek_offers (e := e) rising hj hb standing
  let job₂ : Job := { job with body := .repair (r.seeking e), exTag := some s.nextJobTag }
  have own : (putJob j job₂ { s with jt.nextTag := nextTag }).jobAt j = some job₂ := jobAt_putJob_self ..
  obtain ⟨outbox, queue, plain, gave, offered⟩ := giveFrame_cases (s.repairSeekFrame job e) own
  obtain ⟨takes, refuses⟩ := offered empty
  refine ⟨_, queue, plain, nextTag, { job₂ with outbox := outbox }, offers.trans gave, smapGet_smapSet_self .., fun k other => ?_, rfl,
    fun room => (takes standing room).1, fun full => (refuses (.inr full)).2⟩
  rw [smapGet_smapSet_ne _ _ other]
  exact jobAt_putJob_ne _ _ other

end Verifying

end Sys2Proof.Machine

/-! ## Proofs: VERIFYING as a whole -/

namespace Sys2Proof.Machine

section Verifying
variable {s w : State} {i j : Nat} {job : Job} {r : RepairJob} {read : Entry} {cleared tally : Nat} {reqs : List JobReq}
  {more last : State → Prop}

/-- How a REPAIR job in VERIFYING goes on once a read has ended (R163 to R165), as O35 states it: `more` while it reads on, `last` as
it leaves VERIFYING. -/
def RepairGoesOn (s : State) (j i : Nat) (job : Job) (r : RepairJob) (read : Entry) (cleared tally : Nat) (reqs : List JobReq)
    (more last : State → Prop) : Prop :=
  let room := 8 - reqs.length
  let next := if r.scan then List.range' r.scanNext (min room (r.scanEnd - r.scanNext)) else r.todo.take room
  let scanned := if r.scan then { read with damagedCount := min 255 (read.damaged.length + tally),
                                            overflow := decide (0 < tally) } else read
  ((if r.scan then r.scanNext < r.scanEnd else r.todo ≠ []) →
    ∃ u r', more u ∧ u.entryAt i = some read
      ∧ u.jobAt j = some { job with body := .repair r', reqs := reqs ++ next.map .read }
      ∧ r'.state = .verifying ∧ r'.cleared = cleared ∧ r'.tally = tally)
  ∧ ((if r.scan then r.scanEnd ≤ r.scanNext else r.todo = []) → reqs = [] →
      (0 ∈ scanned.damaged → ∃ u r', last u ∧ u.entryAt i = some scanned
        ∧ u.jobAt j = some { job with body := .repair r', reqs := [.inPlace 0 (scanned.headInfo scanned.label).block] }
        ∧ r'.state = .head ∧ r'.cleared = cleared)
      ∧ (0 ∉ scanned.damaged → scanned.damaged ≠ [] → s.linkStanding = true → job.outbox = [] →
          ∃ u r' job' seek, last u ∧ u.entryAt i = some scanned ∧ u.jobAt j = some job' ∧ job'.body = .repair r'
            ∧ r'.state = .seeking ∧ r'.cleared = cleared ∧ r'.first ∈ scanned.damaged
            ∧ (∀ x ∈ scanned.damaged, r'.first ≤ x) ∧ 1 ≤ r'.count ∧ r'.count ≤ 64
            ∧ r'.first + r'.count - 1 ∈ scanned.damaged
            ∧ (∀ x ∈ scanned.damaged, x ≤ r'.first + 63 → x ≤ r'.first + r'.count - 1)
            ∧ seek = { src := s.own, dst := 63, dir := .out, tag := s.nextJobTag,
                       take := job.take.getD { node := 0, seq := 0 },
                       payload := .seek 0 0 .repair r'.first r'.count [] }
            ∧ (s.lif.queue.length < 16 → u.lif.queue = s.lif.queue ++ [{ frame := seek, owner := some j }])
            ∧ (16 ≤ s.lif.queue.length → job'.outbox = [seek]))
      ∧ (scanned.damaged = [] → ∃ u v, last u ∧ u.jobAt j = none
          ∧ u.entryAt i = some { scanned with jobRefs := scanned.jobRefs - 1 }
          ∧ u = raise (.doneJob job.tag .repair .ok job.take (r.holder.getD 0xFF) cleared 0) v))

/-- The reads a request asks for (R163). -/
theorem request_list (n : Nat) (r : RepairJob) : (r.request n).1
    = if r.scan then List.range' r.scanNext (min n (r.scanEnd - r.scanNext)) else r.todo.take n := by
  unfold RepairJob.request
  split <;> rfl

/-- A request moves the place in the list or the scan alone. -/
theorem request_keeps (n : Nat) (r : RepairJob) : ∃ todo scanNext, (r.request n).2 = { r with todo := todo, scanNext := scanNext } := by
  unfold RepairJob.request
  split
  · exact ⟨r.todo, _, rfl⟩
  · exact ⟨_, r.scanNext, rfl⟩

/-- VERIFYING with something under way or left to read (R163). -/
theorem verify_asks (hj : w.jobAt j = some job) (hb : job.body = .repair r) (state : r.state = .verifying)
    (busy : ¬ (w.outstanding j job = 0 ∧ (r.request (8 - w.outstanding j job)).1 = [])) :
    verify j w = putJob j { job with body := .repair (r.request (8 - w.outstanding j job)).2,
                                     reqs := job.reqs ++ (r.request (8 - w.outstanding j job)).1.map .read } w := by
  unfold verify Job.repairOf
  rw [hj]
  dsimp only
  rw [hb]
  dsimp only
  rw [if_neg (not_not.mpr state), if_neg busy, modJob_put _ hj]

/-- With nothing issued a job's requests are those of its list. -/
theorem outstanding_idle (idle : w.med.issued = none) (job : Job) : w.outstanding j job = job.reqs.length := by
  unfold State.outstanding State.issuedBy
  rw [idle]
  simp

/-- What leaving VERIFYING leaves as it was. -/
def LeftVerifying (j : Nat) (w u : State) : Prop :=
  u.med.issued = none ∧ u.clock = w.clock ∧ ∀ k, k ≠ j → u.jobAt k = w.jobAt k

/-- VERIFYING goes on as R163 to R165 state. -/
theorem verify_goesOn (rising : smapRising w.jt.jobs = true)
    (hj : w.jobAt j = some { job with body := .repair { r with cleared := cleared, tally := tally }, reqs := reqs })
    (hi : job.entry = some i) (he : w.entryAt i = some read) (state : r.state = .verifying) (idle : w.med.issued = none)
    (own : w.own = s.own) (standing : w.linkStanding = s.linkStanding) (queue : w.lif.queue = s.lif.queue)
    (tag : w.nextJobTag = s.nextJobTag) (readsOn : (∃ x, verify j w = putJob j x w) → more (verify j w))
    (leaves : LeftVerifying j w (verify j w) → last (verify j w)) :
    RepairGoesOn s j i job r read cleared tally reqs more last := by
  let r₁ : RepairJob := { r with cleared := cleared, tally := tally }
  let job₁ : Job := { job with body := .repair r₁, reqs := reqs }
  have hj₁ : w.jobAt j = some job₁ := hj
  have hb₁ : job₁.body = .repair r₁ := rfl
  have hi₁ : job₁.entry = some i := hi
  have state₁ : r₁.state = .verifying := state
  have waiting : w.outstanding j job₁ = reqs.length := outstanding_idle idle job₁
  unfold RepairGoesOn
  intro room next scanned
  refine ⟨fun left => ?_, fun none_ empty => ?_⟩
  · have list : (r₁.request room).1 = next := request_list room r₁
    have busy : ¬ (w.outstanding j job₁ = 0 ∧ (r₁.request (8 - w.outstanding j job₁)).1 = []) := by
      rw [waiting, list]
      rintro ⟨zero, nothing⟩
      have all : room = 8 := by simp only [room]; omega
      by_cases scan : r.scan = true
      · rw [if_pos scan] at left
        simp only [next, if_pos scan, List.range'_eq_nil_iff] at nothing
        omega
      · rw [if_neg scan] at left
        simp only [next, if_neg scan, List.take_eq_nil_iff] at nothing
        exact nothing.elim (by omega) left
    have asks := verify_asks hj₁ hb₁ state₁ busy
    rw [waiting, list] at asks
    obtain ⟨todo, scanNext, moved⟩ := request_keeps (8 - reqs.length) r₁
    refine ⟨verify j w, (r₁.request room).2, readsOn ⟨_, asks⟩, ?_, ?_, ?_, ?_, ?_⟩
    · rw [asks]
      exact he
    · rw [asks]
      exact jobAt_putJob_self ..
    · rw [moved]
      exact state
    all_goals rw [moved]
  have nothing : (r₁.request 8).1 = [] := by
    rw [request_list]
    by_cases scan : r.scan = true
    · rw [if_pos scan] at none_
      rw [if_pos scan, show r₁.scanEnd - r₁.scanNext = 0 from Nat.sub_eq_zero_of_le none_]
      rfl
    · rw [if_neg scan] at none_
      rw [if_neg scan, show r₁.todo = [] from none_]
      rfl
  have done : verify j w = verified j w := verify_done hj₁ hb₁ state₁ (by rw [waiting, empty]; rfl) nothing
  obtain ⟨cat, closed, entry⟩ := closeScan_spec (r := r₁) he
  have entry : (closeScan i r₁ w).entryAt i = some scanned := entry
  have frame : (closeScan i r₁ w).jobAt j = some job₁ := by rw [closed]; exact hj₁
  refine ⟨fun listed => ?_, fun unlisted some_ up quiet => ?_, fun clean => ?_⟩
  · have heads := done.trans (verified_head hj₁ hb₁ hi₁ entry frame listed)
    refine ⟨verify j w, { r₁ with state := .head }, leaves ⟨?_, ?_, fun k other => ?_⟩, ?_, ?_, rfl, rfl⟩
    · rw [heads, closed]
      exact idle
    · rw [heads, closed]
      rfl
    · rw [heads, jobAt_putJob_ne _ _ other, closed]
      rfl
    · rw [heads]
      exact entry
    · rw [heads]
      exact jobAt_putJob_self ..
  · have seeks : verify j w = repairSeek j scanned (closeScan i r₁ w) := by
      rw [done, verified_goesOn hj₁ hb₁ hi₁ entry (by simpa using unlisted), repairGoOn_eq frame hi₁ entry,
        if_neg (by rw [soundDamage_all unlisted]; simpa using some_)]
    obtain ⟨jobs, queue', plain, nextTag, job', gives, own', others, body, taken, kept⟩ :=
      repairSeek_gives (e := scanned) (s := closeScan i r₁ w) (by rw [closed]; exact rising) frame hb₁
        (by rw [closed]; exact standing.trans up) quiet
    obtain ⟨lowest, least, one, most, highest, greatest⟩ := repairRange_spec (l := soundDamage scanned)
      (by rw [soundDamage_all unlisted]; exact some_)
    rw [soundDamage_all unlisted] at lowest least highest greatest
    have tag' : (closeScan i r₁ w).nextJobTag = s.nextJobTag := by
      rw [← tag, closed]
      exact nextJobTag_congr rfl
    have own₁ : (closeScan i r₁ w).own = s.own := by rw [← own, closed]; rfl
    have queue₁ : (closeScan i r₁ w).lif.queue = s.lif.queue := by rw [← queue, closed]
    have seek : (closeScan i r₁ w).repairSeekFrame job₁ scanned = s.repairSeekFrame job scanned := by
      rw [State.repairSeekFrame, own₁, tag', State.repairSeekFrame]
    rw [queue₁, seek] at taken kept
    rw [gives] at seeks
    refine ⟨verify j w, r₁.seeking scanned, job', _, leaves ⟨?_, ?_, fun k other => ?_⟩, ?_, ?_, body, rfl, rfl, ?_, ?_, one, most,
      ?_, ?_, rfl, fun space => ?_, kept⟩
    · rw [seeks, closed]
      exact idle
    · rw [seeks, closed]
    · rw [seeks]
      refine (others k other).trans ?_
      rw [closed]
      rfl
    · rw [seeks]
      exact entry
    · rw [seeks]
      exact own'
    · show (repairRange (soundDamage scanned)).1 ∈ _
      rw [soundDamage_all unlisted]
      exact lowest
    · show ∀ x ∈ _, (repairRange (soundDamage scanned)).1 ≤ x
      rw [soundDamage_all unlisted]
      exact least
    · show (repairRange (soundDamage scanned)).1 + (repairRange (soundDamage scanned)).2 - 1 ∈ _
      rw [soundDamage_all unlisted]
      exact highest
    · show ∀ x ∈ _, x ≤ (repairRange (soundDamage scanned)).1 + 63
        → x ≤ (repairRange (soundDamage scanned)).1 + (repairRange (soundDamage scanned)).2 - 1
      rw [soundDamage_all unlisted]
      exact greatest
    · rw [seeks]
      exact taken space
  · have rising' : smapRising (closeScan i r₁ w).jt.jobs = true := by rw [closed]; exact rising
    have ends : verify j w = endJob j .ok none (closeScan i r₁ w) := by
      rw [done, verified_goesOn hj₁ hb₁ hi₁ entry (by rw [clean]; rfl), repairGoOn_eq frame hi₁ entry,
        if_pos (by rw [soundDamage, clean]; rfl)]
    obtain ⟨v, raised, entry', idle'⟩ := endJob_repaired rising' frame hb₁ hi₁ entry clean (by rw [closed]; exact idle)
    have jobs := endJob_jobAt (result := .ok) (parting := none) rising' frame
    refine ⟨verify j w, v, leaves ⟨?_, ?_, fun k other => ?_⟩, ?_, ?_, ?_⟩
    · rw [ends]
      exact idle'
    · rw [ends, (endJob_endFrame j .ok none _).clock, closed]
    · rw [ends, jobs k, if_neg other, closed]
      rfl
    · rw [ends, jobs j, if_pos rfl]
    · rw [ends]
      exact entry'
    · rw [ends]
      exact raised

end Verifying

end Sys2Proof.Machine

/-! ## Proofs: O35

SUPPORT. How a read's end reaches its job (R41, R125, R152, R160, R163), and a read the chain does not hold (R36). -/

namespace Sys2Proof.Machine

section Reads
variable {s w : State} {i j q : Nat} {job : Job} {e : Entry} {op : Issued} {b : List Byte} {good : Bool}

/-! ### Damage found -/

/-- The entry as block `q` is found damaged (R13, R160). -/
def Entry.found (q : Nat) (e : Entry) : Entry :=
  if q ∈ e.damaged then e
  else { e with damaged := if e.damaged.length < 8 then insertSorted q e.damaged else e.damaged,
                overflow := e.overflow || decide (8 ≤ e.damaged.length), damagedCount := min 255 (e.damagedCount + 1) }

theorem withDamage_eq (unlisted : q ∉ e.damaged) : e.withDamage q = e.found q := by
  unfold Entry.withDamage Entry.found satAdd
  rw [if_neg unlisted]
  by_cases room : e.damaged.length < 8
  · have below : decide (8 ≤ e.damaged.length) = false := by simpa using room
    rw [if_pos room, if_pos room, below, Bool.or_false]
  · have full : decide (8 ≤ e.damaged.length) = true := by simpa using room
    rw [if_neg room, if_neg room, full, Bool.or_true]

/-- What a state that has heard of damaged block `q` shows of it (R160). -/
def Recorded (s : State) (i q : Nat) (e : Entry) (finder : JobKind) (u : State) : Prop :=
  u.entryAt i = some (e.found q) ∧ (∀ k, k ≠ i → u.entryAt k = s.entryAt k) ∧ (q ∈ e.damaged → u.cat = s.cat ∧ u.cpe = s.cpe)
    ∧ (q ∉ e.damaged → .entry i ∈ u.cat.wt ∧ u.cat.mark = true
        ∧ u.cpe = (raise (.damageFound e.take q (e.found q).damagedCount (e.found q).overflow (some finder)) s).cpe)

theorem Recorded.congr {finder : JobKind} {u v : State} (h : Recorded s i q e finder u) (cat : v.cat = u.cat) (cpe : v.cpe = u.cpe) :
    Recorded s i q e finder v := by
  unfold Recorded State.entryAt at *
  rw [cat, cpe]
  exact h

theorem Recorded.of_base {finder : JobKind} {u : State} (is : Recorded w i q e finder u) (cat : w.cat = s.cat)
    (cpe : w.cpe = s.cpe) (sul : w.sul = s.sul) : Recorded s i q e finder u := by
  obtain ⟨entry, others, listed, unlisted⟩ := is
  refine ⟨entry, fun k other => (others k other).trans (by rw [State.entryAt, cat, State.entryAt]), fun is => ?_, fun un => ?_⟩
  · rw [← cat, ← cpe]
    exact listed is
  · obtain ⟨waits, mark, raised⟩ := unlisted un
    exact ⟨waits, mark, raised.trans (raise_cpe_congr _ cpe (by rw [sul]))⟩

/-- CAT hears of a damaged block (R160). -/
theorem recordDamage_spec (finder : JobKind) (he : s.entryAt i = some e) : ∃ cat cpe,
    recordDamage i q (some finder) s = { s with cat := cat, cpe := cpe }
      ∧ Recorded s i q e finder (recordDamage i q (some finder) s) := by
  by_cases listed : q ∈ e.damaged
  · have same : recordDamage i q (some finder) s = s := by
      unfold recordDamage
      rw [he]
      exact if_pos (by simpa using listed)
    have entry : e.found q = e := if_pos listed
    rw [same]
    exact ⟨s.cat, s.cpe, rfl, by rw [entry]; exact he, fun _ _ => rfl, fun _ => ⟨rfl, rfl⟩, fun un => absurd listed un⟩
  · obtain ⟨wt, changed, waits⟩ := changeEntryMarked_eq (fun _ => e.found q) he
    have records : recordDamage i q (some finder) s
        = raise (.damageFound e.take q (e.found q).damagedCount (e.found q).overflow (some finder))
            { s with cat.entries := smapSet s.cat.entries i (e.found q), cat.wt := wt, cat.mark := true } := by
      unfold recordDamage
      rw [he]
      dsimp only
      rw [if_neg (by simpa using listed), withDamage_eq listed, changed]
    obtain ⟨seen, events, lost, raised⟩ := raise_eq
      (.damageFound e.take q (e.found q).damagedCount (e.found q).overflow (some finder))
      { s with cat.entries := smapSet s.cat.entries i (e.found q), cat.wt := wt, cat.mark := true }
    refine ⟨_, _, records.trans raised, ?_, fun k other => ?_, fun is => absurd is listed, fun _ => ⟨?_, ?_, ?_⟩⟩
    · rw [records, entryAt_raise]
      exact smapGet_smapSet_self ..
    · rw [records, entryAt_raise]
      exact smapGet_smapSet_ne _ _ other
    · rw [records, raise_cat]
      exact waits
    · rw [records, raise_cat]
    · rw [records]
      exact raise_cpe_congr _ rfl rfl

/-! ### The end of a read -/

/-- The state a read's outcome is handed over in: the operation is gone, and time may have passed (R41). -/
structure ReadOff (s w : State) : Prop where
  issued : w.med.issued = none
  jt : w.jt = s.jt
  cat : w.cat = s.cat
  cpe : w.cpe = s.cpe
  sul : w.sul = s.sul
  queue : w.lif.queue = s.lif.queue
  standing : w.linkStanding = s.linkStanding

theorem ReadOff.jobAt (h : ReadOff s w) (k : Nat) : w.jobAt k = s.jobAt k := by rw [State.jobAt, h.jt, State.jobAt]

theorem ReadOff.entryAt (h : ReadOff s w) (k : Nat) : w.entryAt k = s.entryAt k := by rw [State.entryAt, h.cat, State.entryAt]

theorem ReadOff.own (h : ReadOff s w) : w.own = s.own := by rw [State.own, h.sul, State.own]

theorem ReadOff.recorded (h : ReadOff s w) {finder : JobKind} {u : State} (is : Recorded w i q e finder u) :
    Recorded s i q e finder u := is.of_base h.cat h.cpe h.sul

/-- The end of a read, and the state its outcome is handed over in (R41). -/
theorem read_row {c : Instr} (hop : s.med.issued = some op) (read : op.write = false)
    (ends : (∃ ready, c = .mediaReadComplete ready (.bytes b) ∧ b.length = 512
        ∧ good = (ready && decide (fieldAt b 16 2 = (crc16 ((b.drop 32).take 480)).toNat)))
      ∨ (c = .mediaReadTimeout ∧ b = List.replicate 512 0 ∧ good = false)) :
    ∃ w, exec c s = .next (settle (readEnded op (if good then .ok else .uncorrectable) b w)) ∧ ReadOff s w
      ∧ w.clock = (if c = .mediaReadTimeout then max s.clock ((op.since + 250) * 8000) else s.clock) := by
  rcases ends with ⟨ready, rfl, length, rfl⟩ | ⟨rfl, rfl, rfl⟩
  · refine ⟨{ s with med.issued := none }, ?_, ⟨rfl, rfl, rfl, rfl, rfl, rfl, rfl⟩, rfl⟩
    have whole : s.replyBytes op.addr (.bytes b) = b := by
      show fitBytes 512 b = b
      unfold fitBytes
      simp [length]
    have check : blockGood b = decide (fieldAt b 16 2 = (crc16 ((b.drop 32).take 480)).toNat) := by
      rw [Bool.eq_iff_iff, blockGood_iff, decide_eq_true_iff]
    show execMediaReadComplete ready (.bytes b) s = _
    rw [execMediaReadComplete, hop]
    dsimp only
    rw [if_neg (by rw [read]; decide), whole, check]
    rfl
  · have later := later_passTo (op.since + 250) s
    refine ⟨{ passTo (op.since + 250) s with med.issued := none },
      ?_, ⟨rfl, later.jt, later.cat, later.cpe, later.sul, later.queue, later.linkStanding⟩, later.clock⟩
    show execMediaReadTimeout s = _
    rw [execMediaReadTimeout, hop]
    dsimp only
    rw [if_neg (by rw [read]; decide)]
    rfl

/-! ### To each kind of job -/

theorem readEnded_play {p : PlayJob} {outcome : ReadEnd} (wanted : op.wanted = true) (who : op.who = .job j (.read q))
    (hj : w.jobAt j = some job) (hi : job.entry = some i) (he : w.entryAt i = some e) (hb : job.body = .play p) :
    readEnded op outcome b w = playRead j i q outcome b w := by
  unfold readEnded
  rw [who]
  dsimp only
  rw [wanted, hj, jobEntry_some hj hi he, Option.map_some, hb]

theorem readEnded_repair {r : RepairJob} {outcome : ReadEnd} (wanted : op.wanted = true) (who : op.who = .job j (.read q))
    (hj : w.jobAt j = some job) (hi : job.entry = some i) (he : w.entryAt i = some e) (hb : job.body = .repair r) :
    readEnded op outcome b w = repairRead j i q outcome w := by
  unfold readEnded
  rw [who]
  dsimp only
  rw [wanted, hj, jobEntry_some hj hi he, Option.map_some, hb]

theorem readEnded_sender {outcome : ReadEnd} (wanted : op.wanted = true) (who : op.who = .job j (.read q))
    (hj : w.jobAt j = some job) (hi : job.entry = some i) (he : w.entryAt i = some e)
    (sends : (∃ v, job.body = .serve v) ∨ ∃ r, job.body = .replicate r) :
    readEnded op outcome b w = sendRead j i q outcome b w := by
  unfold readEnded
  rw [who]
  dsimp only
  obtain ⟨v, hb⟩ | ⟨r, hb⟩ := sends
  · rw [wanted, hj, jobEntry_some hj hi he, Option.map_some, hb]
  · rw [wanted, hj, jobEntry_some hj hi he, Option.map_some, hb]

/-- The slots a PLAY job has stay among them as it requests its next reads (R152). -/
theorem requestReads_slots {p : PlayJob} (hj : s.jobAt j = some job) (hb : job.body = .play p) : ∃ reqs nextRead added,
    (requestReads j s).jobAt j
      = some { job with reqs := reqs, body := .play { p with nextRead := nextRead, slots := p.slots ++ added } } := by
  have same : job = { job with body := .play p } := by rw [← hb]
  unfold requestReads Job.playOf
  rw [hj]
  dsimp only
  rw [hb]
  dsimp only
  split
  · refine ⟨job.reqs, p.nextRead, [], ?_⟩
    rw [List.append_nil, ← same]
    exact hj
  · rw [modJob_modPlay _ _ hj hb]
    exact ⟨_, _, _, smapGet_smapSet_self ..⟩

/-- A block read for a PLAY job: its slot is ready, and damage is recorded (R152, R160). -/
theorem playRead_spec {p : PlayJob} (hj : w.jobAt j = some job) (hb : job.body = .play p) (he : w.entryAt i = some e) :
    ∃ u job' p', playRead j i q (if good then .ok else .uncorrectable) b w = u ∧ u.med = w.med ∧ u.clock = w.clock
      ∧ (∀ k, k ≠ j → u.jobAt k = w.jobAt k) ∧ u.jobAt j = some job' ∧ job'.body = .play p'
      ∧ (∀ x ∈ p.slots, x.seq = q → ∃ y ∈ p'.slots, y.seq = q ∧ y.ready = true ∧ y.bytes = b ∧ y.damaged = !good)
      ∧ (good = true → u.cat = w.cat ∧ u.cpe = w.cpe) ∧ (good = false → Recorded w i q e .play u) := by
  let filled : Slot → Slot := fun x => if x.seq = q then { x with ready := true, damaged := !good, bytes := b } else x
  have reads : ∃ v, playRead j i q (if good then .ok else .uncorrectable) b w
        = requestReads j (modPlay j (fun p => { p with slots := p.slots.map filled }) v)
      ∧ (∃ cat cpe, v = { w with cat := cat, cpe := cpe }) ∧ (good = true → v = w) ∧ (good = false → Recorded w i q e .play v) := by
    cases good with
    | true => exact ⟨w, rfl, ⟨w.cat, w.cpe, rfl⟩, fun _ => rfl, fun is => by cases is⟩
    | false =>
      obtain ⟨cat, cpe, records, recorded⟩ := recordDamage_spec (q := q) .play he
      exact ⟨_, rfl, ⟨cat, cpe, records⟩, fun is => by (cases is), fun _ => recorded⟩
  obtain ⟨v, is, ⟨cat, cpe, frame⟩, clean, damaged⟩ := reads
  have hv : v.jobAt j = some job := by rw [frame]; exact hj
  have sets := modPlay_put (fun p => { p with slots := p.slots.map filled }) hv hb
  rw [sets] at is
  let job₁ : Job := { job with body := .play { p with slots := p.slots.map filled } }
  have own : (putJob j job₁ v).jobAt j = some job₁ := jobAt_putJob_self ..
  obtain ⟨jobs, reqs, nextRead, slots, asks, -, others, -⟩ := requestReads_eq own rfl
  obtain ⟨reqs', nextRead', added, record⟩ := requestReads_slots own rfl
  refine ⟨_, _, _, is, ?_, ?_, fun k other => ?_, record, rfl, fun x mem seq => ?_, fun ok => ?_, fun bad => ?_⟩
  · rw [asks, frame]
    rfl
  · rw [asks, frame]
    rfl
  · rw [asks]
    refine (others k other).trans ((jobAt_putJob_ne _ _ other).trans ?_)
    rw [frame]
    rfl
  · exact ⟨filled x, List.mem_append_left _ (List.mem_map_of_mem mem), by simp only [filled, if_pos seq]; exact seq,
      by simp [filled, seq]⟩
  · rw [asks, clean ok]
    exact ⟨rfl, rfl⟩
  · rw [asks]
    exact (damaged bad).congr rfl rfl

/-- A job that sends blocks, and who its frames go to (R111, R149). -/
def Job.sends (job : Job) (dst : Nat) (dir : Direction) : Prop :=
  ((∃ v, job.body = .serve v) ∧ dst = job.opener ∧ dir = .back) ∨ ((∃ r, job.body = .replicate r) ∧ dst = 63 ∧ dir = .out)

theorem dataTo_eq {dst : Nat} {dir : Direction} (sends : job.sends dst dir) : job.dataTo = (dst, dir) := by
  obtain ⟨⟨v, hb⟩, rfl, rfl⟩ | ⟨⟨r, hb⟩, rfl, rfl⟩ := sends <;> rw [Job.dataTo, hb]

/-- A block read for a sender goes to the queue or is kept, and damage is recorded (R125, R126, R160). -/
theorem sendRead_spec {dst : Nat} {dir : Direction} (hj : w.jobAt j = some job) (sends : job.sends dst dir)
    (empty : job.outbox = []) (he : w.entryAt i = some e) : ∃ u, sendRead j i q (if good then .ok else .uncorrectable) b w = u
      ∧ u.med = w.med ∧ u.clock = w.clock ∧ (∀ k, k ≠ j → u.jobAt k = w.jobAt k)
      ∧ (good = true → u.cat = w.cat ∧ u.cpe = w.cpe) ∧ (good = false → Recorded w i q e job.kind u)
      ∧ (w.linkStanding = true → w.lif.queue.length < 16 →
          u.lif.queue = w.lif.queue ++ [{ frame := w.jobFrame job dst dir (.data q (!good) b), owner := some j }]
            ∧ u.jobAt j = some job)
      ∧ (w.linkStanding = false ∨ 16 ≤ w.lif.queue.length →
          u.lif.queue = w.lif.queue ∧ u.jobAt j = some { job with outbox := [w.jobFrame job dst dir (.data q (!good) b)] }) := by
  have reads : ∃ v, sendRead j i q (if good then .ok else .uncorrectable) b w = giveData j q (!good) b v
      ∧ (∃ cat cpe, v = { w with cat := cat, cpe := cpe }) ∧ (good = true → v = w)
      ∧ (good = false → Recorded w i q e job.kind v) := by
    unfold sendRead
    rw [hj]
    cases good with
    | true => exact ⟨w, rfl, ⟨w.cat, w.cpe, rfl⟩, fun _ => rfl, fun is => by cases is⟩
    | false =>
      obtain ⟨cat, cpe, records, recorded⟩ := recordDamage_spec (q := q) job.kind he
      exact ⟨_, rfl, ⟨cat, cpe, records⟩, fun is => by (cases is), fun _ => recorded⟩
  obtain ⟨v, is, ⟨cat, cpe, frame⟩, clean, damaged⟩ := reads
  have hv : v.jobAt j = some job := by rw [frame]; exact hj
  have same : v.jobFrame job dst dir (.data q (!good) b) = w.jobFrame job dst dir (.data q (!good) b) := by
    rw [frame]
    rfl
  have gives : giveData j q (!good) b v = giveFrame j (w.jobFrame job dst dir (.data q (!good) b)) v := by
    unfold giveData
    rw [hv]
    dsimp only
    rw [dataTo_eq sends, same]
  obtain ⟨outbox, queue, plain, gave, offered⟩ := giveFrame_cases (w.jobFrame job dst dir (.data q (!good) b)) hv
  obtain ⟨takes, refuses⟩ := offered empty
  rw [gives, gave] at is
  have queue_v : v.lif.queue = w.lif.queue := by rw [frame]
  have standing_v : v.linkStanding = w.linkStanding := by rw [frame]; rfl
  rw [queue_v, standing_v] at takes refuses
  refine ⟨_, is, ?_, ?_, fun k other => (jobAt_putJob_ne _ _ other).trans ?_, fun ok => ?_, fun bad => ?_, fun up room => ?_,
    fun down => ?_⟩
  · rw [frame]
    rfl
  · rw [frame]
    rfl
  · rw [frame]
    rfl
  · rw [clean ok]
    exact ⟨rfl, rfl⟩
  · exact (damaged bad).congr rfl rfl
  · obtain ⟨queued, gone⟩ := takes up room
    refine ⟨queued, (jobAt_putJob_self ..).trans ?_⟩
    rw [gone, ← empty]
  · obtain ⟨stays, kept⟩ := refuses down
    refine ⟨stays, (jobAt_putJob_self ..).trans ?_⟩
    rw [kept]

end Reads

end Sys2Proof.Machine

namespace Sys2Proof.Machine

section Reads
variable {s w v : State} {i j q : Nat} {job : Job} {r : RepairJob} {e read : Entry} {cleared tally : Nat} {good : Bool}

/-! ### The reads of a repair -/

/-- What a read's outcome makes of the state, before VERIFYING goes on (R163): the job's counts and the entry. -/
structure RepairRead (w v : State) (j i : Nat) (job : Job) (r : RepairJob) (read : Entry) (cleared tally : Nat) : Prop where
  frame : ∃ jobs cat cpe, v = { w with jt.jobs := jobs, cat := cat, cpe := cpe }
  own : v.jobAt j = some { job with body := .repair { r with cleared := cleared, tally := tally } }
  others : ∀ k, k ≠ j → v.jobAt k = w.jobAt k
  entry : v.entryAt i = some read
  rising : smapRising v.jt.jobs = true
  tag : v.nextJobTag = w.nextJobTag

/-- A read after which the counts and the entry stand. -/
theorem RepairRead.same (rising : smapRising w.jt.jobs = true) (hj : w.jobAt j = some job) (hb : job.body = .repair r)
    (he : w.entryAt i = some e) : RepairRead w w j i job r e r.cleared r.tally where
  frame := ⟨_, _, _, rfl⟩
  own := by
    rw [hj]
    show some job = some { job with body := .repair r }
    rw [← hb]
  others := fun _ _ => rfl
  entry := he
  rising := rising
  tag := rfl

/-- The counts change. -/
theorem RepairRead.counts (cleared tally : Nat) (rising : smapRising w.jt.jobs = true) (hj : w.jobAt j = some job)
    (he : w.entryAt i = some e) :
    RepairRead w (putJob j { job with body := .repair { r with cleared := cleared, tally := tally } } w) j i job r e cleared tally where
  frame := ⟨_, _, _, rfl⟩
  own := jobAt_putJob_self ..
  others := fun _ other => jobAt_putJob_ne _ _ other
  entry := he
  rising := putJob_jobs_rising _ rising
  tag := nextJobTag_putJob rising hj rfl rfl

/-- The entry changes as well. -/
theorem RepairRead.thenCat {x : State} (h : RepairRead w v j i job r e cleared tally)
    (frame : ∃ cat cpe, x = { v with cat := cat, cpe := cpe }) (entry : x.entryAt i = some read) :
    RepairRead w x j i job r read cleared tally := by
  obtain ⟨cat, cpe, rfl⟩ := frame
  obtain ⟨jobs, cat', cpe', is⟩ := h.frame
  have tag : ({ v with cat := cat, cpe := cpe } : State).nextJobTag = v.nextJobTag := nextJobTag_congr rfl
  exact ⟨⟨jobs, cat, cpe, congrArg (fun u : State => { u with cat := cat, cpe := cpe }) is⟩, h.own, h.others, entry, h.rising, tag.trans h.tag⟩

theorem RepairRead.stands (h : RepairRead w v j i job r read cleared tally) : v.med = w.med ∧ v.clock = w.clock := by
  obtain ⟨jobs, cat, cpe, is⟩ := h.frame
  rw [is]
  exact ⟨rfl, rfl⟩

theorem clearDamage_eq (he : s.entryAt i = some e) : ∃ cat, clearDamage i q s = { s with cat := cat }
    ∧ (clearDamage i q s).entryAt i = some (e.cleared q) := by
  obtain ⟨wt, changed, -⟩ := changeEntryMarked_eq (Entry.cleared q) he
  rw [clearDamage, changed]
  exact ⟨_, rfl, smapGet_smapSet_self ..⟩

/-- A good block that was listed is listed no more, and counts (R163). -/
theorem repairRead_ok (rising : smapRising w.jt.jobs = true) (hj : w.jobAt j = some job) (hb : job.body = .repair r)
    (he : w.entryAt i = some e) : ∃ v, repairRead j i q .ok w = verify j v
      ∧ RepairRead w v j i job r (if q ∈ e.damaged then e.cleared q else e)
          (if q ∈ e.damaged then r.cleared + 1 else r.cleared) r.tally := by
  unfold repairRead
  rw [he]
  dsimp only
  by_cases listed : q ∈ e.damaged
  · obtain ⟨cat, clears, entry⟩ := clearDamage_eq (q := q) he
    rw [if_pos (by simpa using listed), if_pos listed, if_pos listed,
      modRepair_put (job := job) (r := r) _ (by rw [clears]; exact hj) hb]
    refine ⟨_, rfl, (RepairRead.counts (r.cleared + 1) r.tally rising hj he).thenCat ⟨cat, w.cpe, ?_⟩ entry⟩
    rw [clears]
    rfl
  · rw [if_neg (by simpa using listed), if_neg listed, if_neg listed]
    exact ⟨w, rfl, .same rising hj hb he⟩

/-- A block that cannot be read is recorded, and counts for the scan where the list is full (R160, R163). -/
theorem repairRead_bad (rising : smapRising w.jt.jobs = true) (hj : w.jobAt j = some job) (hb : job.body = .repair r)
    (he : w.entryAt i = some e) : ∃ v, repairRead j i q .uncorrectable w = verify j v
      ∧ RepairRead w v j i job r (e.found q) r.cleared
          (if r.scan = true ∧ q ∉ e.damaged ∧ 8 ≤ e.damaged.length then r.tally + 1 else r.tally)
      ∧ Recorded w i q e .repair v := by
  let tally := if r.scan = true ∧ q ∉ e.damaged ∧ 8 ≤ e.damaged.length then r.tally + 1 else r.tally
  let job₁ : Job := { job with body := .repair { r with tally := tally } }
  have counts : modRepair j (fun r => { r with
        tally := if r.scan && !e.damaged.contains q && 8 ≤ e.damaged.length then r.tally + 1 else r.tally }) w = putJob j job₁ w := by
    rw [modRepair_put (r := r) _ hj hb]
    simp [job₁, tally, and_assoc]
  have he₁ : (putJob j job₁ w).entryAt i = some e := he
  obtain ⟨cat, cpe, records, recorded⟩ := recordDamage_spec (q := q) .repair he₁
  unfold repairRead
  rw [he]
  dsimp only
  rw [counts]
  exact ⟨_, rfl, (RepairRead.counts r.cleared tally rising hj he).thenCat ⟨cat, cpe, records⟩ recorded.1,
    recorded.of_base rfl rfl rfl⟩

/-- A block the chain does not hold is listed no more, and does not count (R163). -/
theorem repairRead_absent (rising : smapRising w.jt.jobs = true) (hj : w.jobAt j = some job) (hb : job.body = .repair r)
    (he : w.entryAt i = some e) : ∃ v, repairRead j i q .notPresent w = verify j v
      ∧ RepairRead w v j i job r (if q ∈ e.damaged then e.cleared q else e) r.cleared r.tally := by
  unfold repairRead
  rw [he]
  dsimp only
  by_cases listed : q ∈ e.damaged
  · obtain ⟨cat, clears, entry⟩ := clearDamage_eq (q := q) he
    rw [if_pos (by simpa using listed), if_pos listed]
    exact ⟨_, rfl, (RepairRead.same rising hj hb he).thenCat ⟨cat, w.cpe, clears⟩ entry⟩
  · rw [if_neg (by simpa using listed), if_neg listed]
    exact ⟨w, rfl, .same rising hj hb he⟩

/-- VERIFYING after a read (R163). -/
theorem RepairRead.goesOn {reqs : List JobReq} {job₀ : Job} {more last : State → Prop} (h : RepairRead w v j i job r read cleared tally)
    (asked : job = { job₀ with reqs := reqs }) (hi : job.entry = some i) (state : r.state = .verifying)
    (idle : w.med.issued = none) (own : w.own = s.own) (standing : w.linkStanding = s.linkStanding)
    (queue : w.lif.queue = s.lif.queue) (tag : w.nextJobTag = s.nextJobTag)
    (readsOn : (∃ x, verify j v = putJob j x v) → more (verify j v))
    (leaves : (verify j v).med.issued = none → (verify j v).clock = w.clock
      → (∀ k, k ≠ j → (verify j v).jobAt k = w.jobAt k) → last (verify j v)) :
    RepairGoesOn s j i job₀ r read cleared tally reqs more last := by
  obtain ⟨jobs, cat, cpe, frame⟩ := h.frame
  subst asked
  refine verify_goesOn h.rising h.own hi h.entry state ?_ ?_ ?_ ?_ (h.tag.trans tag) readsOn fun ⟨gone, clock, others⟩ =>
    leaves gone ?_ fun k other => (others k other).trans (h.others k other)
  · rw [frame]
    exact idle
  · rw [frame, ← own]
    rfl
  · rw [frame, ← standing]
    rfl
  · rw [frame, ← queue]
  · rw [clock, frame]

/-! ### A read the chain does not hold -/

/-- The state as a read that the chain does not hold ends (R36). -/
def State.unread (s : State) (j : Nat) (job : Job) (rest : List JobReq) : State :=
  { putJob j { job with reqs := rest } s with med.rrLast := j }

/-- A read whose sequence the chain does not hold ends NOT_PRESENT as it is issued (R36). -/
theorem issue_unread {rest : List JobReq} (hj : s.jobAt j = some job) (reqs : job.reqs = .read q :: rest) (hi : job.entry = some i)
    (he : s.entryAt i = some e) (absent : s.locate e q = none) :
    issue (.job j (.read q)) s = notPresent j i (.read q) (s.unread j job rest) := by
  have takes : takeRequest (.job j (.read q)) s = s.unread j job rest := by
    rw [takeRequest_job hj (by simp) (by simp), reqs]
    rfl
  have own : (s.unread j job rest).jobAt j = some { job with reqs := rest } := jobAt_putJob_self ..
  have absent' : (s.unread j job rest).locate e q = none := absent
  show issueJob j (.read q) (takeRequest (.job j (.read q)) s) = _
  rw [takes, issueJob, own, jobEntry_some own hi he]
  dsimp only
  rw [issueAt, absent']

theorem notPresent_play {p : PlayJob} (hj : w.jobAt j = some job) (hb : job.body = .play p) : notPresent j i (.read q) w
    = putJob j { job with body := .play { p with slots := p.slots.filter (fun x => x.seq ≠ q),
                                                 pendingResult := some (p.pendingResult.getD .mediaFault) } } w := by
  unfold notPresent
  rw [hj, Option.map_some, hb]
  exact modPlay_put _ hj hb

theorem notPresent_repair (hj : w.jobAt j = some job) (hb : job.body = .repair r) :
    notPresent j i (.read q) w = repairRead j i q .notPresent w := by
  unfold notPresent
  rw [hj, Option.map_some, hb]

theorem notPresent_sender {dst : Nat} {dir : Direction} (hj : w.jobAt j = some job) (sends : job.sends dst dir) :
    notPresent j i (.read q) w = endJob j .mediaFault (some (w.jobFrame job dst dir (.abandon .mediaFault))) w := by
  have ends : sendRead j i q .notPresent [] w
      = endJob j .mediaFault (some (w.jobFrame job dst dir (.abandon .mediaFault))) w := by
    unfold sendRead
    rw [hj]
    dsimp only
    rw [dataTo_eq sends]
  rw [← ends]
  unfold notPresent
  rw [hj, Option.map_some]
  obtain ⟨⟨v, hb⟩, -, -⟩ | ⟨⟨r, hb⟩, -, -⟩ := sends <;> rw [hb]

/-- A sender that ends for want of a block (R125). -/
theorem endJob_sender {dst : Nat} {dir : Direction} (f : Frame) (rising : smapRising w.jt.jobs = true) (hj : w.jobAt j = some job)
    (sends : job.sends dst dir) (hi : job.entry = some i) (he : w.entryAt i = some e) :
    ∃ v x y, endJob j .mediaFault (some f) w = raise (.doneJob job.tag job.kind .mediaFault job.take x y 0) v
      ∧ (endJob j .mediaFault (some f) w).jobAt j = none
      ∧ (∀ k, k ≠ j → (endJob j .mediaFault (some f) w).jobAt k = w.jobAt k)
      ∧ (w.linkStanding = true → w.lif.queue.length < 16 →
          { frame := f, owner := none } ∈ (endJob j .mediaFault (some f) w).lif.queue)
      ∧ ((∃ v, job.body = .serve v) → x = 0 ∧ y = 0
          ∧ (endJob j .mediaFault (some f) w).entryAt i = some { e with jobRefs := e.jobRefs - 1 }) := by
  have last : (w.doneItems job).2.2 = 0 := by
    obtain ⟨⟨v, hb⟩, -, -⟩ | ⟨⟨r, hb⟩, -, -⟩ := sends <;> rw [State.doneItems, hb]
  have ended := endJob_eq (result := .mediaFault) (parting := some f) hj
  rw [last] at ended
  have gone := endJob_jobAt .mediaFault (some f) rising hj
  refine ⟨_, _, _, ended, (gone j).trans (if_pos rfl), fun k other => (gone k).trans (if_neg other), fun up room =>
    List.mem_of_getLast? (endJob_parting_last .mediaFault f hj up room), fun ⟨v, hb⟩ => ?_⟩
  have stands : ∀ u, settleEntry job .mediaFault u = u := fun u => by rw [settleEntry, hi, hb]
  have cat := endJob_cat (parting := some f) hj stands
  refine ⟨by rw [State.doneItems, hb], by rw [State.doneItems, hb], ?_⟩
  rw [State.entryAt, cat]
  exact (entriesWithout_get hi he).1

end Reads

/-- Settles O35: each kind of job from the state its read's outcome is handed over in. -/
theorem localReadFillsItsSlot : Obligations.LocalReadFillsItsSlot := by
  unfold Obligations.LocalReadFillsItsSlot
  intro goesOn
  refine ⟨fun s op j q i job e c b good hop read wanted who hj hi he ends => ?_,
    fun s j q i job e rest sound idle hj reqs hi he absent => ?_⟩
  · intro found recorded replied
    obtain ⟨w, row, off, clock⟩ := read_row hop read ends
    have hw : w.jobAt j = some job := (off.jobAt j).trans hj
    have hwe : w.entryAt i = some e := (off.entryAt i).trans he
    have reply : ∀ u, readEnded op (if good then .ok else .uncorrectable) b w = u → u.med.issued = none → u.clock = w.clock →
        (∀ k, k ≠ j → u.jobAt k = w.jobAt k) → replied u := fun u is gone at_ others =>
      ⟨by rw [row, is], gone, at_.trans clock, fun k other => (others k other).trans (off.jobAt k)⟩
    refine ⟨fun p hb state => ?_, fun dst dir sends empty => ?_, fun r sound hb state => ?_⟩
    · obtain ⟨u, job', p', is, med, at_, others, own, body, slots, clean, damaged⟩ := playRead_spec (q := q) (b := b) hw hb hwe
      refine ⟨u, job', p', reply u ((readEnded_play wanted who hw hi hwe hb).trans is) (by rw [med]; exact off.issued) at_ others,
        own, body, slots, fun ok => ?_, fun bad => ?_⟩
      · rw [← off.cat, ← off.cpe]
        exact clean ok
      · have kind : job.kind = .play := by rw [Job.kind, hb]; rfl
        have is := off.recorded (damaged bad)
        rw [← kind] at is
        exact is
    · intro data
      obtain ⟨u, is, med, at_, others, clean, damaged, takes, refuses⟩ := sendRead_spec (q := q) (b := b) hw sends empty hwe
      have frame : w.jobFrame job dst dir (.data q (!good) b) = data := by
        rw [State.jobFrame, off.own]
      rw [off.standing, off.queue, frame] at takes refuses
      refine ⟨u, reply u ((readEnded_sender wanted who hw hi hwe (sends.imp And.left And.left)).trans is)
        (by rw [med]; exact off.issued) at_ others, fun ok => ?_, fun bad => off.recorded (damaged bad), takes, refuses⟩
      rw [← off.cat, ← off.cpe]
      exact clean ok
    · intro read'
      have rising : smapRising w.jt.jobs = true := by rw [off.jt]; exact sound.1.1
      have kind : job.kind = .repair := by rw [Job.kind, hb]; rfl
      have whole : ∃ v, readEnded op (if good then .ok else .uncorrectable) b w = verify j v
          ∧ RepairRead w v j i job r read' (if good = true ∧ q ∈ e.damaged then r.cleared + 1 else r.cleared)
            (if good = false ∧ r.scan = true ∧ q ∉ e.damaged ∧ 8 ≤ e.damaged.length then r.tally + 1 else r.tally)
          ∧ (good = false → Recorded w i q e .repair v) := by
        rw [readEnded_repair wanted who hw hi hwe hb]
        cases good with
        | true =>
          obtain ⟨v, is, ends⟩ := repairRead_ok (q := q) rising hw hb hwe
          refine ⟨v, is, ?_, fun is => by cases is⟩
          simpa [read', Entry.cleared] using ends
        | false =>
          obtain ⟨v, is, ends, damaged⟩ := repairRead_bad (q := q) rising hw hb hwe
          refine ⟨v, is, ?_, fun _ => damaged⟩
          simpa [read', found, Entry.found] using ends
      obtain ⟨v, is, ended, damaged⟩ := whole
      obtain ⟨med, clock'⟩ := ended.stands
      refine ended.goesOn rfl hi state off.issued off.own off.standing off.queue (nextJobTag_congr off.jt) (fun ⟨x, asks⟩ => ?_)
        fun gone at_ others => reply _ is gone at_ others
      refine ⟨reply _ is ?_ ?_ fun k other => ?_, fun bad => ?_⟩
      · rw [asks]
        exact (congrArg Med.issued med).trans off.issued
      · rw [asks]
        exact clock'
      · rw [asks, jobAt_putJob_ne _ _ other]
        exact ended.others k other
      · have is := off.recorded ((damaged bad).congr (v := verify j v) (by rw [asks]; rfl) (by rw [asks]; rfl))
        rw [← kind] at is
        exact is
  · intro reached
    have row := issue_unread hj reqs hi he absent
    let job₁ : Job := { job with reqs := rest }
    have hw : (s.unread j job rest).jobAt j = some job₁ := jobAt_putJob_self ..
    have hwe : (s.unread j job rest).entryAt i = some e := he
    have rising : smapRising (s.unread j job rest).jt.jobs = true := putJob_jobs_rising _ sound.1.1
    have others₀ : ∀ k, k ≠ j → (s.unread j job rest).jobAt k = s.jobAt k := fun k other => jobAt_putJob_ne _ s other
    refine ⟨fun p hb => ?_, fun dst dir sends => ?_, fun r hb state => ?_⟩
    · have is := row.trans (notPresent_play (job := job₁) hw hb)
      refine ⟨_, ⟨is.symm, fun k other => (jobAt_putJob_ne _ _ other).trans (others₀ k other)⟩, rfl, rfl, rfl, rfl,
        jobAt_putJob_self ..⟩
    · intro abandon
      have is := row.trans (notPresent_sender (job := job₁) hw sends)
      obtain ⟨v, x, y, ended, gone, others, told, serve⟩ := endJob_sender (job := job₁) abandon rising hw sends hi hwe
      exact ⟨_, v, x, y, ⟨is.symm, fun k other => (others k other).trans (others₀ k other)⟩, gone, ended, told, serve⟩
    · obtain ⟨v, is, ended⟩ := repairRead_absent (q := q) (job := job₁) rising hw hb hwe
      have reach := row.trans ((notPresent_repair (job := job₁) hw hb).trans is)
      refine ended.goesOn (job₀ := job) rfl hi state idle rfl rfl rfl ?_ (fun ⟨x, asks⟩ => ?_) fun gone at_ others =>
        ⟨reach.symm, fun k other => (others k other).trans (others₀ k other)⟩
      · have tag : (s.unread j job rest).nextJobTag = (putJob j job₁ s).nextJobTag := nextJobTag_congr rfl
        exact tag.trans (nextJobTag_putJob (job' := job₁) sound.1.1 hj rfl rfl)
      · refine ⟨reach.symm, fun k other => ?_⟩
        rw [asks, jobAt_putJob_ne _ _ other]
        exact (ended.others k other).trans (others₀ k other)

end Sys2Proof.Machine

/-! ## Proofs: the end of a write

SUPPORT. The row of a write's end, and what it makes of the store, the chunk map and the write-through lists (R28, R42, R43, R44). -/

namespace Sys2Proof.Machine

section Writes
variable {s w : State} {op : Issued} {ok : Bool} {c : Instr} {x : Nat}

/-! ### The row -/

/-- The state once an issued write has ended: its operation is gone, and the store has its new contents. -/
def State.written (s : State) (freeIx : Nat) (store : SMap (List Byte)) : State :=
  { s with freeIx := freeIx, med.issued := none, med.store := store }

theorem storeAfter_eq (op : Issued) (ok : Bool) (s : State) : storeAfter op ok { s with med.issued := none }
    = s.written (if ok then s.freeIx else s.freeIx + 1)
        (smapSet s.med.store op.addr (if ok then op.data else fitBytes 512 (Config.blockAfterFault s.freeIx))) := by
  cases ok <;> rfl

/-- What follows the store's change (R42, R43). -/
def afterWrite (op : Issued) (ok : Bool) (s : State) : State :=
  writeEnded op ok (s.turnsBad op ok) (countAppend op ok (markFault op ok s))

/-- The end of a write, reported or given up after 250 ms: the store has the new block, and little else has moved (R42). -/
theorem write_row (hop : s.med.issued = some op) (write : op.write = true)
    (ends : c = .mediaWriteComplete ok ∨ c = .mediaWriteTimeout ∧ ok = false) :
    ∃ v, exec c s = .next (settle (afterWrite op ok
        (v.written (if ok then s.freeIx else s.freeIx + 1)
          (smapSet s.med.store op.addr (if ok then op.data else fitBytes 512 (Config.blockAfterFault s.freeIx))))))
      ∧ (c = .mediaWriteComplete ok → v = s) ∧ (c = .mediaWriteTimeout → v = passTo (op.since + 250) s) := by
  rcases ends with rfl | ⟨rfl, rfl⟩
  · refine ⟨s, ?_, fun _ => rfl, fun is => by cases is⟩
    show execMediaWriteComplete ok s = _
    rw [execMediaWriteComplete, hop]
    dsimp only
    rw [if_pos write, finishWrite, storeAfter_eq]
    rfl
  · refine ⟨passTo (op.since + 250) s, ?_, fun is => by (cases is), fun _ => rfl⟩
    show execMediaWriteTimeout s = _
    rw [execMediaWriteTimeout, hop]
    dsimp only
    rw [if_pos write, finishWrite, storeAfter_eq, (later_passTo (op.since + 250) s).med, passTo_freeIx]
    rfl

/-- The end of a write the store reports (R42). -/
theorem exec_writeComplete (ok : Bool) (hop : s.med.issued = some op) (write : op.write = true) : ∃ freeIx store,
    exec (.mediaWriteComplete ok) s = .next (settle (afterWrite op ok (s.written freeIx store))) := by
  obtain ⟨v, row, is, -⟩ := write_row (c := .mediaWriteComplete ok) hop write (.inl rfl)
  rw [is rfl] at row
  exact ⟨_, _, row⟩

theorem written_store_eq (freeIx : Nat) (store : SMap (List Byte)) : (s.written freeIx store).med.store = store := rfl

/-- What follows a write's end leaves the store, the free values and the clock (R42). -/
theorem settled_write (op : Issued) (ok : Bool) (s : State) : (settle (afterWrite op ok s)).med.store = s.med.store
    ∧ (settle (afterWrite op ok s)).freeIx = s.freeIx ∧ (settle (afterWrite op ok s)).clock = s.clock := by
  have kept : Keeps s (settle (afterWrite op ok s)) :=
    settle_keeps (writeEnded_keeps (countAppend_keeps (markFault_keeps (Keeps.refl _) op ok) op ok) op ok _)
  obtain ⟨-, clock, freeIx, -, -, -, store, -⟩ := kept.1
  exact ⟨store, freeIx, clock⟩

/-- The store after a write's end: its block as the write leaves it, every other as before (R42). -/
theorem written_store (hop : s.med.issued = some op) (write : op.write = true)
    (ends : c = .mediaWriteComplete ok ∨ c = .mediaWriteTimeout ∧ ok = false) :
    ∃ t, exec c s = .next t ∧ t.freeIx = (if ok then s.freeIx else s.freeIx + 1)
      ∧ t.storeBlock op.addr = (if ok then op.data else fitBytes 512 (Config.blockAfterFault s.freeIx))
      ∧ t.clock = (if c = .mediaWriteTimeout then max s.clock ((op.since + 250) * 8000) else s.clock)
      ∧ ∀ a, a ≠ op.addr → t.storeBlock a = s.storeBlock a := by
  obtain ⟨v, row, completes, expires⟩ := write_row hop write ends
  obtain ⟨store, freeIx, clock⟩ := settled_write op ok (v.written (if ok then s.freeIx else s.freeIx + 1)
    (smapSet s.med.store op.addr (if ok then op.data else fitBytes 512 (Config.blockAfterFault s.freeIx))))
  refine ⟨_, row, freeIx, ?_, ?_, fun a other => ?_⟩
  · rw [State.storeBlock, store, written_store_eq, smapGet_smapSet_self]
    rfl
  · rw [clock]
    rcases ends with rfl | ⟨rfl, rfl⟩
    · rw [completes rfl]
      rfl
    · rw [expires rfl]
      exact (later_passTo _ s).clock
  · rw [State.storeBlock, store, written_store_eq, smapGet_smapSet_ne _ _ other]
    rfl

/-! ### The chunk written -/

theorem markFault_ok (op : Issued) (s : State) : markFault op true s = s := rfl

theorem markFault_none (chunk : op.chunk = none) : markFault op ok s = s := by
  unfold markFault
  rw [chunk]
  cases ok <;> rfl

theorem markFault_some (chunk : op.chunk = some x) : markFault op false s = markBad x s := by
  unfold markFault
  rw [chunk]

/-- A fault in a chunk of a take turns it BAD (R43). -/
theorem markBad_owned {i : Nat} (owned : (s.chunkAt x).owner = .entry i) : ∃ mapList, markBad x s
      = { s with med.chunks := chunkMapSet s.med.chunks x { s.chunkAt x with owner := .bad }, med.bad := s.med.bad + 1,
                 med.mapList := mapList } ∧ x / 80 ∈ mapList := by
  obtain ⟨mapList, sets, waits, -⟩ := setChunk_eq x { s.chunkAt x with owner := .bad } { s with med.bad := s.med.bad + 1 }
  refine ⟨mapList, ?_, waits⟩
  unfold markBad
  dsimp only
  rw [owned]
  exact sets

/-- Writes that are no append leave the blocks used. -/
theorem countAppend_other (other : ∀ j req, op.who = .job j req → req ≠ .sound ∧ ∀ b, req ≠ .append b) :
    countAppend op ok s = s := by
  unfold countAppend
  cases who : op.who with
  | job j req =>
    obtain ⟨noSound, noAppend⟩ := other j req who
    cases req with
    | sound => exact absurd rfl noSound
    | append b => exact absurd rfl (noAppend b)
    | _ => rfl
  | _ => rfl

/-- A failed append leaves the blocks used. -/
theorem countAppend_fault (op : Issued) (s : State) : countAppend op false s = s := by
  unfold countAppend
  simp

/-- An append written OK raises the blocks used of its chunk (R37). -/
theorem countAppend_append {j : Nat} {req : JobReq} (who : op.who = .job j req) (append : req = .sound ∨ ∃ b, req = .append b)
    (wanted : op.wanted = true) (chunk : op.chunk = some x) :
    countAppend op true s = { s with med.chunks := chunkMapSet s.med.chunks x { s.chunkAt x with used := (s.chunkAt x).used + 1 } } := by
  unfold countAppend
  obtain rfl | ⟨b, rfl⟩ := append <;> rw [who, wanted, chunk] <;> rfl

/-! ### Write-through items and map items (R28, R44) -/

/-- Items of the lists that are issued again after a fault. -/
def Requester.listed (who : Requester) (n : Nat) : Prop :=
  (∃ w, who = .wt w n ∧ ∀ i label, w ≠ .head i label) ∨ ∃ b, who = .map b n

theorem captureRequest_congr (jt : w.jt = s.jt) : w.captureRequest = s.captureRequest := by
  unfold State.captureRequest State.captureJob State.findKind State.findJob
  rw [jt]

/-- The lists after a fault that is not an item's third (R28, R44). -/
theorem listed_again {n : Nat} (chunk : op.chunk = none) (listed : op.who.listed n) (few : n < 2) :
    (∃ w, op.who = .wt w n ∧ afterWrite op false s = { s with cat.wtRetry := some (w, n + 1) })
      ∨ ∃ b, op.who = .map b n ∧ afterWrite op false s = { s with med.mapRetry := some (b, n + 1) } := by
  have other : ∀ j req, op.who = .job j req → req ≠ .sound ∧ ∀ b, req ≠ .append b := fun j req is => by
    obtain ⟨w, who, -⟩ | ⟨b, who⟩ := listed <;> rw [who] at is <;> cases is
  have many : ¬ 2 ≤ n := by omega
  have clears : afterWrite op false s = writeEnded op false (s.turnsBad op false) s := by
    rw [afterWrite, markFault_none chunk, countAppend_other other]
  rw [clears]
  unfold writeEnded
  obtain ⟨w, who, noHead⟩ | ⟨b, who⟩ := listed
  · refine .inl ⟨w, who, ?_⟩
    rw [who]
    show wtFaulted w n s = _
    unfold wtFaulted
    cases w with
    | head i label => exact absurd rfl (noHead i label)
    | _ => exact if_neg many
  · refine .inr ⟨b, who, ?_⟩
    rw [who]
    exact if_neg many

/-- The third fault in a row of an item (R28, R44). -/
theorem listed_dropped {n : Nat} (chunk : op.chunk = none) (listed : op.who.listed n) (many : 2 ≤ n) :
    afterWrite op false s = catalogueFault s := by
  have other : ∀ j req, op.who = .job j req → req ≠ .sound ∧ ∀ b, req ≠ .append b := fun j req is => by
    obtain ⟨w, who, -⟩ | ⟨b, who⟩ := listed <;> rw [who] at is <;> cases is
  rw [afterWrite, markFault_none chunk, countAppend_other other]
  unfold writeEnded
  obtain ⟨w, who, noHead⟩ | ⟨b, who⟩ := listed
  · rw [who]
    show wtFaulted w n s = _
    unfold wtFaulted
    cases w with
    | head i label => exact absurd rfl (noHead i label)
    | _ => exact if_pos many
  · rw [who]
    exact if_pos many

/-- Without a START that waits the flag alone is set (R28). -/
theorem catalogueFault_flag (free : ∀ tag take, s.cpe.current ≠ some (.start tag take)) :
    catalogueFault s = { s with cat.fault := true } := by
  unfold catalogueFault
  dsimp only
  split
  · rename_i tag take is
    exact absurd is (free tag take)
  · rfl

/-- The state as a START that waits is answered MEDIA_FAULT (R6, R28). -/
def State.startFaulted (s : State) : State := respond .mediaFault 4 0 [] { s with cat.fault := true }

/-- A START that waits after its capture has ended is answered alone (R6). -/
theorem catalogueFault_answers {tag : Nat} {take : TakeNo} (waits : s.cpe.current = some (.start tag take))
    (ended : s.captureJob = none) : catalogueFault s = s.startFaulted := by
  unfold catalogueFault
  dsimp only
  rw [show (setFault s).cpe.current = _ from waits]
  dsimp only
  rw [show (respond .mediaFault 4 0 [] (setFault s)).captureJob = none from ended]
  rfl

/-- A START that waits is answered MEDIA_FAULT, and its capture ends as ABORT ends it (R6, R67). -/
theorem catalogueFault_aborts {tag j : Nat} {take : TakeNo} {job : Job} {c : CaptureJob}
    (waits : s.cpe.current = some (.start tag take)) (capture : s.captureJob = some (j, job, c)) :
    catalogueFault s = abortCapture j s.startFaulted := by
  unfold catalogueFault
  dsimp only
  rw [show (setFault s).cpe.current = _ from waits]
  dsimp only
  rw [show (respond .mediaFault 4 0 [] (setFault s)).captureJob = some (j, job, c) from capture]
  rfl

end Writes

end Sys2Proof.Machine

namespace Sys2Proof.Machine

section Listed
variable {s w : State} {op : Issued} {c : Instr} {n j i : Nat} {job : Job} {d : CaptureJob} {e : Entry}

/-- The state a write's outcome is handed over in: the operation is gone, the store has changed, and time may have passed (R42). -/
structure WriteOff (s w : State) : Prop where
  med : w.med = { s.med with issued := none, store := w.med.store }
  jt : w.jt = s.jt
  cat : w.cat = s.cat
  cpe : w.cpe = s.cpe
  sul : w.sul = s.sul
  port : w.port = s.port

theorem WriteOff.issued (h : WriteOff s w) : w.med.issued = none := by
  rw [h.med]

theorem WriteOff.chunks (h : WriteOff s w) : w.med.chunks = s.med.chunks := by
  rw [h.med]

theorem WriteOff.chunkAt (h : WriteOff s w) (y : Nat) : w.chunkAt y = s.chunkAt y := by
  rw [State.chunkAt, h.chunks, State.chunkAt]

theorem WriteOff.lists (h : WriteOff s w) : w.med.mapList = s.med.mapList ∧ w.med.mapRetry = s.med.mapRetry := by
  rw [h.med]
  exact ⟨rfl, rfl⟩

theorem WriteOff.chain (h : WriteOff s w) (e : Entry) : w.chain e = s.chain e := by
  rw [State.chain, h.med, State.chain]

theorem written_med (freeIx : Nat) (store : SMap (List Byte)) :
    (s.written freeIx store).med = { s.med with issued := none, store := store } := rfl

/-- The row of a write's end, from the state its outcome is handed over in (R42). -/
theorem write_off {ok : Bool} (hop : s.med.issued = some op) (write : op.write = true)
    (ends : c = .mediaWriteComplete ok ∨ c = .mediaWriteTimeout ∧ ok = false) :
    ∃ w, exec c s = .next (settle (afterWrite op ok w)) ∧ WriteOff s w := by
  obtain ⟨v, row, completes, expires⟩ := write_row hop write ends
  refine ⟨_, row, ?_⟩
  rcases ends with rfl | ⟨rfl, rfl⟩
  · rw [completes rfl]
    exact ⟨rfl, rfl, rfl, rfl, rfl, rfl⟩
  · rw [expires rfl]
    have later := later_passTo (op.since + 250) s
    refine ⟨?_, later.jt, later.cat, later.cpe, later.sul, later.port⟩
    rw [written_med, later.med]

/-! ### An item issued again -/

/-- A faulted item is the next of its list to be issued (R28, R44). -/
theorem listed_again_spec (hop : s.med.issued = some op) (write : op.write = true) (chunk : op.chunk = none)
    (ends : c = .mediaWriteComplete false ∨ c = .mediaWriteTimeout) (listed : op.who.listed n) (few : n < 2) :
    ∃ u, exec c s = .next (settle u) ∧ u.cpe = s.cpe ∧ u.jt = s.jt ∧ u.med.chunks = s.med.chunks
      ∧ u.med.mapList = s.med.mapList
      ∧ (∀ w, op.who = .wt w n → u.cat = { s.cat with wtRetry := some (w, n + 1) } ∧ u.med.mapRetry = s.med.mapRetry
          ∧ (s.complete = true → s.captureRequest = none → s.med.mapRetry = none → s.med.mapList = [] →
              u.chosen = some (.wt w (n + 1))))
      ∧ (∀ b, op.who = .map b n → u.cat = s.cat ∧ u.med.mapRetry = some (b, n + 1)
          ∧ (s.complete = true → s.captureRequest = none → u.chosen = some (.map b (n + 1)))) := by
  obtain ⟨w, row, off⟩ := write_off hop write (ok := false) (ends.imp_right fun is => ⟨is, rfl⟩)
  obtain ⟨mapList, mapRetry⟩ := off.lists
  have up : s.complete = true → w.complete = true := fun up => by rw [State.complete, off.sul]; exact up
  have quiet : s.captureRequest = none → w.captureRequest = none := fun quiet => (captureRequest_congr off.jt).trans quiet
  obtain ⟨item, who, is⟩ | ⟨b, who, is⟩ := listed_again (s := w) chunk listed few
  · refine ⟨_, row, ?_⟩
    rw [is]
    refine ⟨off.cpe, off.jt, off.chunks, mapList, fun item' who' => ?_, fun b who' => ?_⟩
    · rw [who] at who'
      cases who'
      refine ⟨by rw [← off.cat], mapRetry, fun complete free noRetry empty => ?_⟩
      refine chosen_writeThrough (up complete) (quiet free) ?_
      rw [State.writeThrough, show w.med.mapRetry = none from mapRetry.trans noRetry,
        show w.med.mapList = [] from mapList.trans empty]
    · rw [who] at who'
      cases who'
  · refine ⟨_, row, ?_⟩
    rw [is]
    refine ⟨off.cpe, off.jt, off.chunks, mapList, fun item who' => ?_, fun b' who' => ?_⟩
    · rw [who] at who'
      cases who'
    · rw [who] at who'
      cases who'
      exact ⟨off.cat, rfl, fun complete free => chosen_writeThrough (up complete) (quiet free) rfl⟩

/-! ### An item dropped -/

/-- What the end of an aborted take leaves: the fault flag, the items to be issued again. -/
def RetriesKept (s t : State) : Prop :=
  t.cat.fault = s.cat.fault ∧ t.cat.wtRetry = s.cat.wtRetry ∧ t.med.mapRetry = s.med.mapRetry

theorem freeEntry_retriesKept (i : Nat) (s : State) : RetriesKept s (freeEntry i s) := by
  cases he : s.entryAt i with
  | none =>
    rw [freeEntry, he]
    exact ⟨rfl, rfl, rfl⟩
  | some e =>
    obtain ⟨hou, notes, freed⟩ := freeEntry_of_entryAt he
    obtain ⟨chunks, mapList, free, frame⟩ := freeChunks_frame i (s.chain e) s
    rw [freed, frame]
    exact ⟨rfl, rfl, rfl⟩

theorem endJob_capture_retriesKept (hj : s.jobAt j = some job) (hb : job.body = .capture d) (result : Result) :
    RetriesKept s (endJob j result none s) := by
  obtain ⟨sending, hou, issued, closed⟩ := closeJob_eq hj
  have stands : settleEntry job result (closeJob j s) = closeJob j s := by
    rw [settleEntry, hb]
    cases job.entry <;> rfl
  rw [RetriesKept, endJob_eq hj, partWith_none, stands, raise_cat, raise_med, closed]
  exact ⟨rfl, rfl, rfl⟩

theorem answerEnding_retriesKept (s : State) : RetriesKept s (answerEnding s) := by
  unfold answerEnding
  split <;> exact ⟨rfl, rfl, rfl⟩

theorem RetriesKept.trans {t v : State} (h : RetriesKept s t) (g : RetriesKept t v) : RetriesKept s v := by
  obtain ⟨fault, wtRetry, mapRetry⟩ := h
  obtain ⟨fault', wtRetry', mapRetry'⟩ := g
  exact ⟨fault'.trans fault, wtRetry'.trans wtRetry, mapRetry'.trans mapRetry⟩

theorem abortCapture_retriesKept (hj : s.jobAt j = some job) (hb : job.body = .capture d) (idle : s.issuedBy j = false) :
    RetriesKept s (abortCapture j s) := by
  let job' : Job := { job with body := .capture (d.emptied false .abort) }
  let t : State := putJob j job' s
  have hj' : t.jobAt j = some job' := jobAt_putJob_self ..
  rw [abortCapture_ends hj hb idle]
  show RetriesKept t (finishAbort j t)
  unfold finishAbort
  rw [hj', Option.bind_some]
  cases job'.entry with
  | none => exact (endJob_capture_retriesKept hj' rfl .cancelled).trans (answerEnding_retriesKept _)
  | some i =>
    have freed : (freeEntry i t).jobAt j = some job' := by rw [State.jobAt, freeEntry_jt]; exact hj'
    exact ((freeEntry_retriesKept i t).trans (endJob_capture_retriesKept freed rfl .cancelled)).trans
      (answerEnding_retriesKept _)

/-- A capture that ends as ABORT ends it, with no write issued and no command waiting for it (R67). -/
theorem abortCapture_frees (jobs : jobsOk s.jt.jobs) (entries : smapRising s.cat.entries = true)
    (chunks : smapRising s.med.chunks = true) (capture : s.captureJob = some (j, job, d)) (idle : s.med.issued = none)
    (hi : job.entry = some i) (he : s.entryAt i = some e) (current : s.cpe.current = none) :
    ∃ u, abortCapture j s = u ∧ u.jobAt j = none ∧ (∀ k, k ≠ j → u.jobAt k = s.jobAt k) ∧ u.entryAt i = none
      ∧ (∀ k, k ≠ i → u.entryAt k = s.entryAt k) ∧ u.port.owner ≠ some j ∧ u.cat.mark = true
      ∧ (∀ y ∈ s.chain e, (s.chunkAt y).owner = .entry i → u.chunkAt y = freeChunk)
      ∧ u.cpe = (raise (.doneJob job.tag .capture .cancelled job.take 0 0 0) s).cpe := by
  obtain ⟨hj, hb⟩ := jobAt_of_captureJob jobs capture
  have unissued : s.issuedBy j = false := by rw [State.issuedBy, idle]
  let job' : Job := { job with body := .capture (d.emptied false .abort) }
  let t : State := putJob j job' s
  have hj' : t.jobAt j = some job' := jobAt_putJob_self ..
  have jobs' : jobsOk t.jt.jobs := ⟨putJob_jobs_rising job' jobs.1, fun p hp => by
    obtain rfl | hp := mem_smapSet hp
    · exact jobs.2 (j, job) (smapGet_some_mem hj)
    · exact jobs.2 _ hp⟩
  obtain ⟨v, ends, gone, others, entry, apart, freed, port, counter, mark, cpe⟩ :=
    endJob_freed (s := t) jobs' entries chunks hj' rfl hi he
  have frame : EndFrame t (endJob j .cancelled none (freeEntry i t)) :=
    (freeEntry_endFrame i t).trans (endJob_endFrame j .cancelled none _)
  have sul : v.sul = s.sul := by
    have := frame.sul
    rw [ends, raise_sul] at this
    exact this
  have done : abortCapture j s = raise (.doneJob job.tag .capture .cancelled job.take 0 0 0) v := by
    rw [abortCapture_ends hj hb unissued]
    show finishAbort j t = _
    rw [finishAbort_eq hj' hi, ends]
    unfold answerEnding
    rw [raise_current, cpe, show t.cpe.current = none from current]
  refine ⟨_, done, ?_, fun k other => ?_, ?_, fun k other => ?_, ?_, ?_, fun y mem owned => ?_, ?_⟩
  · rw [jobAt_raise]; exact gone
  · rw [jobAt_raise, others k other]; exact jobAt_putJob_ne _ _ other
  · rw [entryAt_raise]; exact entry
  · rw [entryAt_raise]; exact apart k other
  · rw [raise_port]; exact port
  · rw [raise_cat]; exact mark
  · rw [State.chunkAt, raise_med]; exact freed y mem owned
  · exact raise_cpe_congr _ cpe (by rw [sul])

end Listed

end Sys2Proof.Machine

namespace Sys2Proof.Machine

section Dropped
variable {s w : State} {op : Issued} {c : Instr} {n : Nat}

theorem captureJob_congr (jt : w.jt = s.jt) : w.captureJob = s.captureJob := by
  unfold State.captureJob State.findKind State.findJob
  rw [jt]

/-- The third fault in a row drops the item and sets the catalogue fault flag; a START that waits is answered (R6, R28, R44). -/
theorem listed_dropped_spec (sound : s.Sound) (hop : s.med.issued = some op) (write : op.write = true) (chunk : op.chunk = none)
    (ends : c = .mediaWriteComplete false ∨ c = .mediaWriteTimeout) (listed : op.who.listed n) (many : 2 ≤ n) :
    ∃ u, exec c s = .next (settle u) ∧ u.cat.fault = true ∧ u.cat.wtRetry = s.cat.wtRetry
      ∧ u.med.mapRetry = s.med.mapRetry
      ∧ ((∀ tag take, s.cpe.current ≠ some (.start tag take)) → u.cat = { s.cat with fault := true } ∧ u.cpe = s.cpe
          ∧ u.jt = s.jt ∧ u.med.chunks = s.med.chunks ∧ u.med.mapList = s.med.mapList)
      ∧ (∀ tag take, s.cpe.current = some (.start tag take) →
          (s.captureJob = none → u.cat = { s.cat with fault := true } ∧ u.jt = s.jt ∧ u.med.chunks = s.med.chunks
            ∧ u.cpe = (respond .mediaFault 4 0 [] s).cpe)
          ∧ (∀ j job d i e, s.captureJob = some (j, job, d) → job.entry = some i → s.entryAt i = some e →
              u.jobAt j = none ∧ (∀ k, k ≠ j → u.jobAt k = s.jobAt k) ∧ u.entryAt i = none
              ∧ (∀ k, k ≠ i → u.entryAt k = s.entryAt k) ∧ u.port.owner ≠ some j ∧ u.cat.mark = true
              ∧ (∀ y ∈ s.chain e, (s.chunkAt y).owner = .entry i →
                  u.chunkAt y = { owner := .free, next := none, used := 0 })
              ∧ u.cpe = (raise (.doneJob job.tag .capture .cancelled job.take 0 0 0) (respond .mediaFault 4 0 [] s)).cpe)) := by
  obtain ⟨w, row, off⟩ := write_off hop write (ok := false) (ends.imp_right fun is => ⟨is, rfl⟩)
  obtain ⟨mapList, mapRetry⟩ := off.lists
  rw [listed_dropped (s := w) chunk listed many] at row
  have cat : ({ w.cat with fault := true } : Cat) = { s.cat with fault := true } := by rw [off.cat]
  have retry_w : w.cat.wtRetry = s.cat.wtRetry := by rw [off.cat]
  have entries_w : w.cat.entries = s.cat.entries := by rw [off.cat]
  have answered : w.startFaulted.cpe = (respond .mediaFault 4 0 [] s).cpe := by
    unfold State.startFaulted respond
    dsimp only
    rw [off.cpe]
  by_cases waits : ∃ tag take, s.cpe.current = some (.start tag take)
  · obtain ⟨tag, take, current⟩ := waits
    have current_w : w.cpe.current = some (.start tag take) := by rw [off.cpe]; exact current
    cases capture : s.captureJob with
    | none =>
      rw [catalogueFault_answers current_w ((captureJob_congr off.jt).trans capture)] at row
      refine ⟨_, row, rfl, ?_, mapRetry, fun free => absurd current (free tag take), fun _ _ _ =>
        ⟨fun _ => ⟨cat, off.jt, off.chunks, answered⟩, fun j job d i e is => by cases is⟩⟩
      exact retry_w
    | some found =>
      obtain ⟨j, job, d⟩ := found
      have capture_w : w.startFaulted.captureJob = some (j, job, d) := (captureJob_congr (s := s) off.jt).trans capture
      rw [catalogueFault_aborts current_w ((captureJob_congr off.jt).trans capture)] at row
      have jobs_w : jobsOk w.startFaulted.jt.jobs := by
        rw [show w.startFaulted.jt = s.jt from off.jt]
        exact sound.1
      obtain ⟨hj, hb⟩ := jobAt_of_captureJob jobs_w capture_w
      have idle : w.startFaulted.med.issued = none := off.issued
      obtain ⟨fault, wtRetry, retry⟩ := abortCapture_retriesKept hj hb (by rw [State.issuedBy, idle])
      refine ⟨_, row, fault, wtRetry.trans (retry_w), retry.trans mapRetry,
        fun free => absurd current (free tag take), fun _ _ _ => ⟨fun is => (by cases is), fun j' job' d' i e is hi he => ?_⟩⟩
      cases is
      have he_w : w.startFaulted.entryAt i = some e := by
        rw [show w.startFaulted.entryAt i = w.entryAt i from rfl, State.entryAt, off.cat]
        exact he
      have rising_w : smapRising w.startFaulted.cat.entries = true := by
        rw [show w.startFaulted.cat.entries = s.cat.entries from entries_w]
        exact sound.2.1.1
      have chunks_w : smapRising w.startFaulted.med.chunks = true := by
        rw [show w.startFaulted.med.chunks = s.med.chunks from off.chunks]
        exact sound.2.1.2.1
      obtain ⟨u, is, gone, others, entry, apart, port, mark, freed, cpe⟩ :=
        abortCapture_frees jobs_w rising_w chunks_w capture_w idle hi he_w rfl
      rw [is]
      refine ⟨gone, fun k other => (others k other).trans ?_, entry, fun k other => (apart k other).trans ?_, port, mark,
        fun y mem owned => ?_, ?_⟩
      · rw [State.jobAt, show w.startFaulted.jt = s.jt from off.jt, State.jobAt]
      · rw [show w.startFaulted.entryAt k = w.entryAt k from rfl, State.entryAt, off.cat, State.entryAt]
      · refine freed y ?_ ?_
        · rw [show w.startFaulted.chain e = w.chain e from rfl, off.chain]
          exact mem
        · rw [show w.startFaulted.chunkAt y = w.chunkAt y from rfl, off.chunkAt]
          exact owned
      · rw [cpe]
        exact raise_cpe_congr _ answered (congrArg (fun x : Sul => x.cfg.eventMask) off.sul)
  · have free : ∀ tag take, s.cpe.current ≠ some (.start tag take) := fun tag take is => waits ⟨tag, take, is⟩
    rw [catalogueFault_flag (by rw [off.cpe]; exact free)] at row
    refine ⟨_, row, rfl, ?_, mapRetry, fun _ => ⟨cat, off.cpe, off.jt, off.chunks, mapList⟩,
      fun tag take is => absurd is (free tag take)⟩
    exact retry_w

end Dropped

end Sys2Proof.Machine

/-! ## Proofs: the writes of a copy

SUPPORT. A RECEIVE job's append written, faulted, or without a chunk to go to (R37, R43, R132, R137, R138). -/

namespace Sys2Proof.Machine

section Copies
variable {s w : State} {op : Issued} {i j x : Nat} {job : Job} {r : ReceiveJob} {e : Entry} {b : List Byte} {ok turned : Bool}
  {check : Check} {result : Result} {parting : Option Frame}

/-! ### The end of a RECEIVE job -/

/-- The events a RECEIVE job's end leaves (R113, R184). -/
theorem endJob_receive_cpe (result : Result) (parting : Option Frame) (hj : s.jobAt j = some job) (hb : job.body = .receive r) :
    (endJob j result parting s).cpe = (raise (.doneJob job.tag .receive result job.take 0 0 0) s).cpe := by
  obtain ⟨queue, plain, parted⟩ := partWith_frame parting (closeJob j s)
  obtain ⟨sending, hou, issued, closed⟩ := closeJob_eq hj
  have settled : ∀ u, (settleEntry job result u).cpe = u.cpe ∧ (settleEntry job result u).sul = u.sul := fun u => by
    unfold settleEntry
    rw [hb]
    split
    · exact ⟨rfl, rfl⟩
    · rename_i i _
      dsimp only
      split
      · exact ⟨rfl, rfl⟩
      · obtain ⟨cat, chunks, mapList, free, hou, notes, freed⟩ := freeEntry_frame i u
        rw [freed]
        exact ⟨rfl, rfl⟩
  obtain ⟨cpe, sul⟩ := settled (partWith parting (closeJob j s))
  have base : (partWith parting (closeJob j s)).cpe = s.cpe ∧ (partWith parting (closeJob j s)).sul = s.sul := by
    rw [parted, closed]
    exact ⟨rfl, rfl⟩
  rw [endJob_eq hj, State.doneItems, Job.kind, hb]
  exact raise_cpe_congr _ (cpe.trans base.1) (by rw [sul, base.2])

/-- A copy that ends OK leaves the chunk map. -/
theorem endJob_receive_chunkAt (parting : Option Frame) (hj : s.jobAt j = some job) (hb : job.body = .receive r)
    (hi : job.entry = some i) (y : Nat) : (endJob j .ok parting s).chunkAt y = s.chunkAt y := by
  obtain ⟨queue, plain, parted⟩ := partWith_frame parting (closeJob j s)
  obtain ⟨sending, hou, issued, closed⟩ := closeJob_eq hj
  have stands : settleEntry job .ok (partWith parting (closeJob j s)) = partWith parting (closeJob j s) := by
    rw [settleEntry, hi, hb]
    exact if_pos rfl
  rw [State.chunkAt, endJob_eq hj, raise_med, stands, parted, closed]
  rfl

/-! ### A matched copy -/

theorem finishReceive_unmatched (hj : s.jobAt j = some job) (hb : job.body = .receive r) (unmatched : r.matched = none) :
    finishReceive j s = s := by
  unfold finishReceive Job.receiveOf
  rw [hj]
  dsimp only
  rw [hb]
  cases job.entry with
  | none => rfl
  | some i =>
    dsimp only
    rw [unmatched]

/-- A matched copy whose writes are done becomes HELD, and its job ends OK with a NOTICE HOLDS (R9, R137). -/
theorem finishReceive_holds (hj : s.jobAt j = some job) (hb : job.body = .receive r) (hi : job.entry = some i)
    (he : s.entryAt i = some e) (matched : r.matched = some check) (done : s.outstanding j job = 0) :
    ∃ wt, .entry i ∈ wt ∧ finishReceive j s = endJob j .ok (some (s.jobFrame job 63 .out (.notice .holds)))
      { s with cat.entries := smapSet s.cat.entries i (e.copied s.own r check), cat.wt := wt, cat.mark := true } := by
  obtain ⟨wt, changed, waits⟩ := changeEntryMarked_eq (Entry.copied s.own r check) he
  refine ⟨wt, waits, ?_⟩
  unfold finishReceive Job.receiveOf
  rw [hj]
  dsimp only
  rw [hb, hi]
  dsimp only
  rw [matched]
  refine (if_pos done).trans ?_
  show endJob j .ok (some ((changeEntryMarked i (Entry.copied s.own r check) s).jobFrame job 63 .out (.notice .holds)))
    (changeEntryMarked i (Entry.copied s.own r check) s) = _
  rw [changed]
  rfl

/-- What the end of a matched copy leaves (R9, R137). -/
theorem finishReceive_spec (rising : smapRising s.jt.jobs = true) (hj : s.jobAt j = some job) (hb : job.body = .receive r)
    (hi : job.entry = some i) (he : s.entryAt i = some e) (matched : r.matched = some check) (done : s.outstanding j job = 0) :
    ∃ u, finishReceive j s = u ∧ u.jobAt j = none ∧ u.cat.mark = true ∧ .entry i ∈ u.cat.wt
      ∧ u.entryAt i = some { e.copied s.own r check with jobRefs := e.jobRefs - 1 } ∧ (∀ y, u.chunkAt y = s.chunkAt y)
      ∧ u.cpe = (raise (.doneJob job.tag .receive .ok job.take 0 0 0) s).cpe
      ∧ (s.linkStanding = true → s.lif.queue.length < 16 →
          u.lif.queue.getLast? = some { frame := s.jobFrame job 63 .out (.notice .holds), owner := none }) := by
  obtain ⟨wt, waits, held⟩ := finishReceive_holds hj hb hi he matched done
  let f : Frame := s.jobFrame job 63 .out (.notice .holds)
  let v : State := { s with cat.entries := smapSet s.cat.entries i (e.copied s.own r check), cat.wt := wt, cat.mark := true }
  have hv : v.jobAt j = some job := hj
  have stands : ∀ u, settleEntry job .ok u = u := fun u => by
    rw [settleEntry, hi, hb]
    exact if_pos rfl
  have cat := endJob_cat (s := v) (parting := some f) hv stands
  have hve : v.entryAt i = some (e.copied s.own r check) := smapGet_smapSet_self ..
  obtain ⟨entry, -⟩ := entriesWithout_get hi hve
  have cpe := endJob_receive_cpe (s := v) .ok (some f) hv hb
  refine ⟨endJob j .ok (some f) v, held, ?_, ?_, ?_, ?_, fun y => endJob_receive_chunkAt (s := v) (some f) hv hb hi y, ?_,
    endJob_parting_last (s := v) .ok f hv⟩
  · exact (endJob_jobAt (s := v) .ok (some f) rising hv j).trans (if_pos rfl)
  · rw [cat]
  · rw [cat]
    exact waits
  · rw [State.entryAt, cat]
    exact entry
  · rw [cpe]
    exact raise_cpe_congr _ rfl rfl

/-! ### The row -/

theorem writeEnded_receive (wanted : op.wanted = true) (who : op.who = .job j (.append b)) (hj : w.jobAt j = some job)
    (hb : job.body = .receive r) : writeEnded op ok turned w
      = if ok then finishReceive j w else putJob j { job with reqs := .append b :: job.reqs } w := by
  have ends : writeEnded op ok turned w
      = if ok then finishReceive j w else modJob j (fun job => { job with reqs := .append b :: job.reqs }) w := by
    unfold writeEnded
    rw [who]
    dsimp only
    rw [if_pos wanted]
    unfold jobWritten
    rw [hj, Option.map_some, hb]
  rw [ends, modJob_put _ hj]

theorem chunkAt_mapSet (rising : smapRising s.med.chunks = true) (ch : Chunk) (y : Nat) :
    ({ s with med.chunks := chunkMapSet s.med.chunks x ch } : State).chunkAt y = if y = x then ch else s.chunkAt y :=
  chunkIn_chunkMapSet rising x y ch

theorem markBad_chunkAt (rising : smapRising s.med.chunks = true) (owned : (s.chunkAt x).owner = .entry i) (y : Nat) :
    (markBad x s).chunkAt y = if y = x then { s.chunkAt x with owner := .bad } else s.chunkAt y := by
  obtain ⟨mapList, marks, -⟩ := markBad_owned owned
  rw [marks]
  exact chunkIn_chunkMapSet rising x y { s.chunkAt x with owner := .bad }

theorem issuedBy_of_issued {req : JobReq} (hop : s.med.issued = some op) (who : op.who = .job j req) (wanted : op.wanted = true) :
    s.issuedBy j = true := by
  unfold State.issuedBy
  rw [hop]
  cases op
  cases who
  cases wanted
  simp

/-- A copy's append with no chunk to go to ends its job MEDIA_FULL (R132, R138). -/
theorem issue_append_full {rest : List JobReq} (hj : s.jobAt j = some job) (hb : job.body = .receive r) (hi : job.entry = some i)
    (he : s.entryAt i = some e) (reqs : job.reqs = .append b :: rest) (full : s.lastIsFull e = true) (none_ : s.receiveChunk r = none) :
    issue (.job j (.append b)) s = endJob j .mediaFull (some (s.jobFrame job job.opener .back (.abandon .mediaFull)))
      { putJob j { job with reqs := rest } s with med.rrLast := j } := by
  let w : State := { putJob j { job with reqs := rest } s with med.rrLast := j }
  have own : w.jobAt j = some { job with reqs := rest } := jobAt_putJob_self ..
  have takes : takeRequest (.job j (.append b)) s = w := by
    rw [takeRequest_job hj (by simp) (by simp), reqs]
    rfl
  have source : w.appendSource j = none := by
    unfold State.appendSource Job.receiveOf
    rw [own, Option.bind_some, hb]
    exact none_
  have placed : (placeAppend j i e w).1 = none := by
    unfold placeAppend
    rw [show w.lastIsFull e = true from full, if_pos rfl, source]
  show issueJob j (.append b) (takeRequest (.job j (.append b)) s) = _
  rw [takes, issueJob, own, jobEntry_some own hi he]
  dsimp only
  unfold issueAppend
  dsimp only
  rw [placed]
  show failReceive j .mediaFull .mediaFull w = _
  rw [failReceive_eq .mediaFull .mediaFull own]
  rfl

end Copies

section Obligation
variable {s : State} {op : Issued} {i j x : Nat} {job : Job} {r : ReceiveJob} {e : Entry} {b : List Byte}

/-- A copy's append written OK (R37, R133, R137). -/
theorem append_written (sound : s.Sound) (hop : s.med.issued = some op) (write : op.write = true) (wanted : op.wanted = true)
    (who : op.who = .job j (.append b)) (chunk : op.chunk = some x) (hj : s.jobAt j = some job) (hb : job.body = .receive r)
    (hi : job.entry = some i) (he : s.entryAt i = some e) :
    ∃ u, exec (.mediaWriteComplete true) s = .next (settle u)
      ∧ u.chunkAt x = { s.chunkAt x with used := (s.chunkAt x).used + 1 } ∧ (∀ y, y ≠ x → u.chunkAt y = s.chunkAt y)
      ∧ (r.matched = none ∨ job.reqs ≠ [] → u.jt = s.jt ∧ u.cat = s.cat ∧ u.cpe = s.cpe
          ∧ s.room j job = 8 - (job.reqs.length + 1) ∧ u.room j job = 8 - job.reqs.length)
      ∧ (∀ check, r.matched = some check → job.reqs = [] → u.jobAt j = none ∧ u.cat.mark = true ∧ .entry i ∈ u.cat.wt
          ∧ u.entryAt i = some { e with state := .held, check := check, storedBlocks := r.storedBlocks,
                                        holders := copyHolders s.own r.exclusion r.assigned, jobRefs := e.jobRefs - 1 }
          ∧ u.cpe = (raise (.doneJob job.tag .receive .ok job.take 0 0 0) s).cpe
          ∧ (∀ tag take, job.exTag = some tag → job.take = some take → s.linkStanding = true → s.lif.queue.length < 16 →
              u.lif.queue.getLast? = some { frame := { src := s.own, dst := 63, dir := .out, tag := tag, take := take,
                                                       payload := .notice .holds }, owner := none })) := by
  obtain ⟨freeIx, store, row⟩ := exec_writeComplete true hop write
  let w : State := { s.written freeIx store with
    med.chunks := chunkMapSet s.med.chunks x { s.chunkAt x with used := (s.chunkAt x).used + 1 } }
  have hw : w.jobAt j = some job := hj
  have after : afterWrite op true (s.written freeIx store) = finishReceive j w := by
    rw [afterWrite, markFault_ok, countAppend_append who (.inr ⟨b, rfl⟩) wanted chunk]
    exact (writeEnded_receive (w := w) wanted who hw hb).trans (if_pos rfl)
  rw [after] at row
  have chunks : ∀ y, w.chunkAt y = if y = x then { s.chunkAt x with used := (s.chunkAt x).used + 1 } else s.chunkAt y := fun y =>
    chunkAt_mapSet (s := s.written freeIx store) sound.2.1.2.1 _ y
  have waiting : w.outstanding j job = job.reqs.length := outstanding_idle (by rfl) job
  by_cases done : ∃ check, r.matched = some check ∧ job.reqs = []
  · obtain ⟨check, matched, empty⟩ := done
    obtain ⟨u, ended, gone, mark, waits, entry, chunks', cpe, told⟩ :=
      finishReceive_spec (s := w) sound.1.1 hw hb hi he matched (by rw [waiting, empty]; rfl)
    rw [ended] at row
    refine ⟨u, row, (chunks' x).trans ((chunks x).trans (if_pos rfl)), fun y other => (chunks' y).trans ((chunks y).trans (if_neg other)),
      fun is => ?_, fun check' matched' _ => ?_⟩
    · rcases is with unmatched | left
      · rw [matched] at unmatched
        cases unmatched
      · exact absurd empty left
    · rw [matched] at matched'
      cases matched'
      refine ⟨gone, mark, waits, entry, cpe.trans (raise_cpe_congr _ rfl rfl), fun tag take htag ht up room => ?_⟩
      rw [← jobFrame_eq htag ht 63 .out (.notice .holds)]
      exact told up room
  · have stays : finishReceive j w = w := by
      cases matched : r.matched with
      | none => exact finishReceive_unmatched hw hb matched
      | some check =>
        refine finishReceive_waits hw ?_
        rw [waiting]
        exact fun zero => done ⟨check, matched, List.length_eq_zero_iff.mp zero⟩
    rw [stays] at row
    refine ⟨w, row, (chunks x).trans (if_pos rfl), fun y other => (chunks y).trans (if_neg other),
      fun _ => ⟨rfl, rfl, rfl, ?_, ?_⟩, fun check matched empty => absurd ⟨check, matched, empty⟩ done⟩
    · rw [State.room, hb]
      dsimp only
      rw [State.outstanding, issuedBy_of_issued hop who wanted]
      rfl
    · rw [State.room, hb]
      dsimp only
      rw [waiting]

/-- A copy's append that faulted stands at the front of its list again, its chunk BAD (R43). -/
theorem append_faulted (sound : s.Sound) (hop : s.med.issued = some op) (write : op.write = true) (wanted : op.wanted = true)
    (who : op.who = .job j (.append b)) (chunk : op.chunk = some x) (hj : s.jobAt j = some job) (hb : job.body = .receive r)
    (owned : (s.chunkAt x).owner = .entry i) :
    ∃ u, exec (.mediaWriteComplete false) s = .next (settle u)
      ∧ u.jobAt j = some { job with reqs := .append b :: job.reqs } ∧ (∀ k, k ≠ j → u.jobAt k = s.jobAt k)
      ∧ u.chunkAt x = { s.chunkAt x with owner := .bad } ∧ u.med.bad = s.med.bad + 1 ∧ x / 80 ∈ u.med.mapList
      ∧ (∀ y, y ≠ x → u.chunkAt y = s.chunkAt y) ∧ u.cat = s.cat ∧ u.cpe = s.cpe := by
  obtain ⟨freeIx, store, row⟩ := exec_writeComplete false hop write
  obtain ⟨mapList, marks, waits⟩ := markBad_owned (s := s.written freeIx store) (x := x) owned
  have hw : (markBad x (s.written freeIx store)).jobAt j = some job := by rw [marks]; exact hj
  rw [afterWrite, markFault_some chunk, countAppend_fault, writeEnded_receive wanted who hw hb, if_neg (by decide)] at row
  have chunks : ∀ y, (markBad x (s.written freeIx store)).chunkAt y
      = if y = x then { s.chunkAt x with owner := .bad } else s.chunkAt y :=
    markBad_chunkAt (s := s.written freeIx store) sound.2.1.2.1 owned
  refine ⟨_, row, jobAt_putJob_self .., fun k other => (jobAt_putJob_ne _ _ other).trans ?_, (chunks x).trans (if_pos rfl), ?_, ?_,
    fun y other => (chunks y).trans (if_neg other), ?_, ?_⟩
  · rw [marks]
    rfl
  · rw [marks]
    rfl
  · rw [marks]
    exact waits
  · rw [marks]
    rfl
  · rw [marks]
    rfl

/-- A copy's append with no chunk to go to: its job ends MEDIA_FULL and its entry is freed (R132, R138). -/
theorem append_full {rest : List JobReq} (sound : s.Sound) (hj : s.jobAt j = some job) (hb : job.body = .receive r)
    (hi : job.entry = some i) (he : s.entryAt i = some e) (reqs : job.reqs = .append b :: rest) (full : s.lastIsFull e = true)
    (none_ : s.receiveChunk r = none) :
    ∃ u, u = issue (.job j (.append b)) s ∧ u.jobAt j = none ∧ u.entryAt i = none
      ∧ u.cpe = (raise (.doneJob job.tag .receive .mediaFull job.take 0 0 0) s).cpe
      ∧ (s.linkStanding = true → s.lif.queue.length < 16 →
          { frame := s.jobFrame job job.opener .back (.abandon .mediaFull), owner := none } ∈ u.lif.queue) := by
  let w : State := { putJob j { job with reqs := rest } s with med.rrLast := j }
  have hw : w.jobAt j = some { job with reqs := rest } := jobAt_putJob_self ..
  have rising : smapRising w.jt.jobs = true := putJob_jobs_rising _ sound.1.1
  refine ⟨_, rfl, ?_⟩
  rw [issue_append_full hj hb hi he reqs full none_]
  refine ⟨(endJob_jobAt .mediaFull _ rising hw j).trans (if_pos rfl), ?_, ?_, fun up room => ?_⟩
  · exact endJob_receive_frees (r := r) _ sound.2.1.1 hw hb hi (by decide)
  · exact (endJob_receive_cpe (r := r) .mediaFull _ hw hb).trans (raise_cpe_congr _ rfl rfl)
  · exact List.mem_of_getLast? (endJob_parting_last .mediaFull _ hw up room)

end Obligation

end Sys2Proof.Machine

/-! ## Proofs: the writes of a repair

SUPPORT. An in-place write of a REPAIR job has ended (R164, R167, R168). -/

namespace Sys2Proof.Machine

section Repairs
variable {s v w : State} {op : Issued} {i j q x : Nat} {job : Job} {r : RepairJob} {e : Entry} {b : List Byte}
  {ok turned : Bool} {result : Result}

/-! ### The end of a REPAIR job -/

/-- R168's condition, in the words of O36. -/
theorem holds_iff (r : RepairJob) (e : Entry) (result : Result) :
    (result ≠ .ok ∨ e.damaged.any (fun q => q == 0 || (r.first ≤ q && q < r.first + r.count)) = true)
      ↔ (result ≠ .ok ∨ ∃ y ∈ e.damaged, y = 0 ∨ (r.first ≤ y ∧ y < r.first + r.count)) := by
  simp [List.any_eq_true]

/-- The entry a REPAIR job leaves (R15, R168). -/
def Entry.repairedBy (r : RepairJob) (result : Result) (now : Nat) (e : Entry) : Entry :=
  { e with
    jobRefs := e.jobRefs - 1,
    repairHold := if result ≠ .ok ∨ ∃ y ∈ e.damaged, y = 0 ∨ (r.first ≤ y ∧ y < r.first + r.count)
      then some (now + 60000) else e.repairHold }

/-- The end of a REPAIR job without a parting frame (R113, R168). -/
theorem endJob_repair_spec (result : Result) (rising : smapRising s.jt.jobs = true) (hj : s.jobAt j = some job)
    (hb : job.body = .repair r) (hi : job.entry = some i) (he : s.entryAt i = some e) :
    ∃ u v, endJob j result none s = u ∧ u.jobAt j = none ∧ u.med.chunks = s.med.chunks ∧ u.med.bad = s.med.bad
      ∧ u = raise (.doneJob job.tag .repair result job.take (r.holder.getD 0xFF) r.cleared e.damaged.length) v
      ∧ u.entryAt i = some (e.repairedBy r result s.now) := by
  obtain ⟨v, ended, -⟩ := endJob_repair result hj hb hi he
  obtain ⟨sending, hou, issued, closed⟩ := closeJob_eq hj
  have entry : (closeJob j s).entryAt i = some { e with jobRefs := e.jobRefs - 1 } := by
    rw [closed]
    exact (entriesWithout_get hi he).1
  have now : (closeJob j s).now = s.now := by
    rw [closed]
    rfl
  have settles : settleEntry job result (closeJob j s) = holdRepair i r result (closeJob j s) := by rw [settleEntry, hi, hb]
  have ends := endJob_eq (result := result) (parting := none) hj
  rw [partWith_none, settles] at ends
  have held : ∃ entries, holdRepair i r result (closeJob j s) = { closeJob j s with cat.entries := entries }
      ∧ smapGet entries i = some (e.repairedBy r result s.now) := by
    unfold holdRepair Entry.repairedBy
    rw [entry]
    dsimp only
    by_cases holds : result ≠ .ok ∨ ∃ y ∈ e.damaged, y = 0 ∨ (r.first ≤ y ∧ y < r.first + r.count)
    · rw [if_pos ((holds_iff r e result).mpr holds), if_pos holds, modEntry_eq _ entry, now]
      exact ⟨_, rfl, smapGet_smapSet_self ..⟩
    · rw [if_neg (fun h => holds ((holds_iff r e result).mp h)), if_neg holds]
      exact ⟨(closeJob j s).cat.entries, rfl, entry⟩
  obtain ⟨entries, is, own⟩ := held
  have kind : job.kind = .repair := by rw [Job.kind, hb]; rfl
  rw [kind] at ended
  refine ⟨_, v, rfl, (endJob_jobAt result none rising hj j).trans (if_pos rfl), ?_, ?_, ended, ?_⟩
  · rw [ends, raise_med, is, closed]
  · rw [ends, raise_med, is, closed]
  · rw [ends, entryAt_raise, is]
    exact own

/-! ### The write's outcome -/

/-- The entry after a write of block `q` (R164, R167). -/
def Entry.rewritten (ok : Bool) (q : Nat) (e : Entry) : Entry :=
  if ok && e.damaged.contains q then { e with damaged := e.damaged.filter (· ≠ q), damagedCount := e.damagedCount - 1 } else e

/-- A write leaves the references and the hold of the entry. -/
theorem repairedBy_rewritten (now : Nat) : (e.rewritten ok q).repairedBy r result now
    = { e.rewritten ok q with
        jobRefs := e.jobRefs - 1,
        repairHold := if result ≠ .ok ∨ ∃ y ∈ (e.rewritten ok q).damaged, y = 0 ∨ (r.first ≤ y ∧ y < r.first + r.count)
          then some (now + 60000) else e.repairHold } := by
  have kept : (e.rewritten ok q).jobRefs = e.jobRefs ∧ (e.rewritten ok q).repairHold = e.repairHold := by
    unfold Entry.rewritten
    split <;> exact ⟨rfl, rfl⟩
  rw [Entry.repairedBy, kept.1, kept.2]

/-- The count of cleared blocks after a write of block `q`. -/
def RepairJob.clearedBy (ok : Bool) (q : Nat) (e : Entry) (r : RepairJob) : Nat :=
  if ok && e.damaged.contains q then r.cleared + 1 else r.cleared

theorem writeEnded_repair (wanted : op.wanted = true) (who : op.who = .job j (.inPlace q b)) (hj : w.jobAt j = some job)
    (hb : job.body = .repair r) (hi : job.entry = some i) (he : w.entryAt i = some e) :
    writeEnded op ok turned w = repairWritten j i q ok w := by
  unfold writeEnded
  rw [who]
  dsimp only
  rw [if_pos wanted]
  unfold jobWritten
  rw [hj, Option.map_some, hb]
  dsimp only
  rw [jobEntry_some hj hi he]

/-- A write counts and clears its listed block; then the job goes on by its state (R164, R167). -/
theorem repairWritten_spec (rising : smapRising w.jt.jobs = true) (hj : w.jobAt j = some job) (hb : job.body = .repair r)
    (he : w.entryAt i = some e) : ∃ v, RepairRead w v j i job r (e.rewritten ok q) (r.clearedBy ok q e) r.tally
      ∧ (ok && e.damaged.contains q → v.cat.mark = true ∧ .entry i ∈ v.cat.wt)
      ∧ (r.state = .head → repairWritten j i q ok w = repairGoOn j v)
      ∧ (r.state ≠ .head → repairWritten j i q ok w = finishRepair j v) := by
  have counts : ∃ v, RepairRead w v j i job r (e.rewritten ok q) (r.clearedBy ok q e) r.tally
      ∧ (ok && e.damaged.contains q → v.cat.mark = true ∧ .entry i ∈ v.cat.wt)
      ∧ (if ok && e.damaged.contains q then modRepair j (fun r => { r with cleared := r.cleared + 1 }) (clearDamage i q w)
         else w) = v := by
    unfold Entry.rewritten RepairJob.clearedBy
    by_cases clears : (ok && e.damaged.contains q) = true
    · obtain ⟨wt, changed, waits⟩ := changeEntryMarked_eq (Entry.cleared q) he
      have cleared : clearDamage i q w = _ := changed
      have own : (clearDamage i q w).jobAt j = some job := by
        rw [cleared]
        exact hj
      have entry : (clearDamage i q w).entryAt i = some (e.cleared q) := by
        rw [cleared]
        exact smapGet_smapSet_self ..
      rw [if_pos clears, if_pos clears, if_pos clears, modRepair_put (job := job) (r := r) _ own hb]
      refine ⟨putJob j { job with body := .repair { r with cleared := r.cleared + 1 } } (clearDamage i q w),
        (RepairRead.counts (r.cleared + 1) r.tally rising hj he).thenCat
        ⟨(clearDamage i q w).cat, w.cpe, ?_⟩ entry, fun _ => ?_, rfl⟩
      · rw [cleared]
        rfl
      · rw [cleared]
        exact ⟨rfl, waits⟩
    · rw [if_neg clears, if_neg clears, if_neg clears]
      exact ⟨w, .same rising hj hb he, fun is => absurd is clears, rfl⟩
  obtain ⟨v, after, marks, is⟩ := counts
  have written : repairWritten j i q ok w = if r.state = .head then repairGoOn j v else finishRepair j v := by
    unfold repairWritten
    rw [he]
    dsimp only
    rw [is, after.own, Option.bind_some]
    show (match some r.state with
      | some .head => repairGoOn j v
      | _ => finishRepair j v) = _
    cases r.state <;> rfl
  exact ⟨v, after, marks, fun head => written.trans (if_pos head), fun other => written.trans (if_neg other)⟩

theorem finishRepair_stays (hj : s.jobAt j = some job) (hb : job.body = .repair r)
    (stays : r.state ≠ .finishing ∨ s.outstanding j job ≠ 0) : finishRepair j s = s := by
  unfold finishRepair Job.repairOf
  rw [hj]
  dsimp only
  rw [hb]
  exact if_neg fun ⟨finishing, zero⟩ => stays.elim (fun other => other finishing) (fun some_ => some_ zero)

/-- The chunk map after a repair's write (R43, R164). -/
def RepairedChunks (s : State) (i x : Nat) (ok : Bool) (u : State) : Prop :=
  (ok = true → ∀ y, u.chunkAt y = s.chunkAt y)
    ∧ (ok = false → (s.chunkAt x).owner = .entry i → u.chunkAt x = { s.chunkAt x with owner := .bad }
        ∧ u.med.bad = s.med.bad + 1 ∧ ∀ y, y ≠ x → u.chunkAt y = s.chunkAt y)

theorem RepairedChunks.of_med (h : RepairedChunks s i x ok v) (chunks : w.med.chunks = v.med.chunks)
    (bad : w.med.bad = v.med.bad) : RepairedChunks s i x ok w := by
  have same : ∀ y, w.chunkAt y = v.chunkAt y := fun y => by rw [State.chunkAt, chunks, State.chunkAt]
  obtain ⟨good, faulted⟩ := h
  refine ⟨fun is y => (same y).trans (good is y), fun is owned => ?_⟩
  obtain ⟨turned, count, others⟩ := faulted is owned
  exact ⟨(same x).trans turned, bad.trans count, fun y other => (same y).trans (others y other)⟩

/-- The state a repair's write is handed over in: the operation is gone, the store has changed, a fault has turned the chunk (R43). -/
structure RepairOff (s w : State) (i x : Nat) (ok : Bool) : Prop where
  issued : w.med.issued = none
  jt : w.jt = s.jt
  cat : w.cat = s.cat
  now : w.now = s.now
  standing : w.linkStanding = s.linkStanding
  chunks : RepairedChunks s i x ok w

theorem markBad_frame (x : Nat) (s : State) : ∃ chunks mapList bad free, markBad x s
    = { s with med.chunks := chunks, med.mapList := mapList, med.bad := bad, med.free := free } := by
  rcases markBad_cases x s with ⟨i, -, eq⟩ | ⟨-, eq⟩ | ⟨-, eq⟩
  · obtain ⟨mapList, sets, -⟩ := setChunk_eq x { s.chunkAt x with owner := .bad } { s with med.bad := s.med.bad + 1 }
    exact ⟨_, mapList, _, s.med.free, eq.trans sets⟩
  · obtain ⟨mapList, sets, -⟩ := setChunk_eq x lostChunk { s with med.bad := s.med.bad + 1, med.free := s.med.free - 1 }
    exact ⟨_, mapList, _, _, eq.trans sets⟩
  · exact ⟨s.med.chunks, s.med.mapList, s.med.bad, s.med.free, eq⟩

/-- The row of a repair's write (R164). -/
theorem repair_row (sound : s.Sound) (hop : s.med.issued = some op) (write : op.write = true) (wanted : op.wanted = true)
    (who : op.who = .job j (.inPlace q b)) (chunk : op.chunk = some x) (hj : s.jobAt j = some job) (hb : job.body = .repair r)
    (hi : job.entry = some i) (he : s.entryAt i = some e) :
    ∃ w, exec (.mediaWriteComplete ok) s = .next (settle (repairWritten j i q ok w)) ∧ RepairOff s w i x ok := by
  obtain ⟨freeIx, store, row⟩ := exec_writeComplete ok hop write
  have other : ∀ j' req, op.who = .job j' req → req ≠ .sound ∧ ∀ b, req ≠ .append b := fun j' req is => by
    rw [who] at is
    cases is
    simp
  let w : State := markFault op ok (s.written freeIx store)
  have off : RepairOff s w i x ok := by
    cases ok with
    | true => exact ⟨rfl, rfl, rfl, rfl, rfl, fun _ _ => rfl, fun is => by cases is⟩
    | false =>
      have marks : w = markBad x (s.written freeIx store) := markFault_some chunk
      obtain ⟨chunks, mapList, bad, free, frame⟩ := markBad_frame x (s.written freeIx store)
      refine ⟨?_, ?_, ?_, ?_, ?_, fun is => (by cases is), fun _ owned => ?_⟩
      · rw [marks, frame]; rfl
      · rw [marks, frame]; rfl
      · rw [marks, frame]; rfl
      · rw [marks, frame]; rfl
      · rw [marks, frame]; rfl
      · have chunkAt := markBad_chunkAt (s := s.written freeIx store) sound.2.1.2.1 owned
        obtain ⟨mapList, turned, -⟩ := markBad_owned (s := s.written freeIx store) (x := x) owned
        rw [marks]
        refine ⟨(chunkAt x).trans (if_pos rfl), ?_, fun y other => (chunkAt y).trans (if_neg other)⟩
        rw [turned]
        rfl
  have hw : w.jobAt j = some job := by rw [State.jobAt, off.jt]; exact hj
  have hwe : w.entryAt i = some e := by rw [State.entryAt, off.cat]; exact he
  refine ⟨w, ?_, off⟩
  rw [row, afterWrite, countAppend_other other]
  exact congrArg (fun u => Host.Outcome.next (settle u)) (writeEnded_repair wanted who hw hb hi hwe)

/-- What a repair's write leaves of its job, its entry and the chunk map, by the job's state (R164, R167, R168). -/
theorem repairWritten_cases (sound : s.Sound) (off : RepairOff s w i x ok) (hj : s.jobAt j = some job) (hb : job.body = .repair r)
    (hi : job.entry = some i) (he : s.entryAt i = some e) :
    let written := e.rewritten ok q
    let ends := fun (result : Result) (u : State) => u.jobAt j = none ∧ RepairedChunks s i x ok u
      ∧ (∃ v, u = raise (.doneJob job.tag .repair result job.take (r.holder.getD 0xFF) (r.clearedBy ok q e) written.damaged.length) v)
      ∧ u.entryAt i = some (written.repairedBy r result s.now)
    (r.state ≠ .head → r.state ≠ .finishing ∨ job.reqs ≠ [] → ∃ u, repairWritten j i q ok w = u ∧ RepairedChunks s i x ok u
        ∧ u.entryAt i = some written ∧ u.jobAt j = some { job with body := .repair { r with cleared := r.clearedBy ok q e } }
        ∧ (ok && e.damaged.contains q → u.cat.mark = true ∧ .entry i ∈ u.cat.wt))
      ∧ (r.state = .finishing → job.reqs = [] → ends (r.recorded.getD .ok) (repairWritten j i q ok w))
      ∧ (r.state = .head → (∀ y ∈ written.damaged, y = 0) → ends .ok (repairWritten j i q ok w))
      ∧ (r.state = .head → (∃ y ∈ written.damaged, y ≠ 0) → s.linkStanding = true →
          ∃ u job' r', repairWritten j i q ok w = u ∧ RepairedChunks s i x ok u ∧ u.entryAt i = some written
            ∧ u.jobAt j = some job' ∧ job'.body = .repair r' ∧ r'.state = .seeking ∧ r'.cleared = r.clearedBy ok q e
            ∧ job'.exTag = some s.nextJobTag) := by
  intro written ends
  have hw : w.jobAt j = some job := by rw [State.jobAt, off.jt]; exact hj
  have hwe : w.entryAt i = some e := by rw [State.entryAt, off.cat]; exact he
  have rising : smapRising w.jt.jobs = true := by rw [off.jt]; exact sound.1.1
  obtain ⟨v, after, marks, head, rest⟩ := repairWritten_spec (ok := ok) (q := q) rising hw hb hwe
  let r₁ : RepairJob := { r with cleared := r.clearedBy ok q e }
  let job₁ : Job := { job with body := .repair r₁ }
  have own : v.jobAt j = some job₁ := after.own
  have body₁ : job₁.body = .repair r₁ := rfl
  have entry₁ : job₁.entry = some i := hi
  have med := after.stands.1
  have chunks : RepairedChunks s i x ok v := off.chunks.of_med (by rw [med]) (by rw [med])
  have waiting : v.outstanding j job₁ = job.reqs.length := outstanding_idle (by rw [med]; exact off.issued) job₁
  obtain ⟨jobs, cat, cpe, frame⟩ := after.frame
  have now : v.now = s.now := by
    rw [← off.now, frame]
    rfl
  have ended : ∀ result, ends result (endJob j result none v) := fun result => by
    obtain ⟨u, x', is, gone, chunkMap, bad, raised, entry⟩ := endJob_repair_spec result after.rising own body₁ entry₁ after.entry
    rw [is]
    rw [now] at entry
    exact ⟨gone, chunks.of_med chunkMap bad, ⟨x', raised⟩, entry⟩
  refine ⟨fun notHead goes => ?_, fun finishing empty => ?_, fun isHead clean => ?_, fun isHead ⟨y, mem, sounds⟩ up => ?_⟩
  · have stays : finishRepair j v = v := finishRepair_stays own body₁ (goes.imp_right fun some_ => by
      rw [waiting]
      exact fun zero => some_ (List.length_eq_zero_iff.mp zero))
    exact ⟨v, (rest notHead).trans stays, chunks, after.entry, own, marks⟩
  · have notHead : r.state ≠ .head := by rw [finishing]; decide
    rw [rest notHead, finishRepair_ends own body₁ finishing (by rfl) (by rw [waiting, empty]; rfl)]
    exact ended _
  · have empty : (soundDamage written).isEmpty = true := by
      rw [List.isEmpty_iff, soundDamage, List.filter_eq_nil_iff]
      intro y mem
      simp [clean y mem]
    rw [head isHead, repairGoOn_eq own entry₁ after.entry, if_pos empty]
    exact ended .ok
  · have some_ : ¬ (soundDamage written).isEmpty = true := by
      rw [List.isEmpty_iff, soundDamage, List.filter_eq_nil_iff]
      exact fun none_ => none_ y mem (by simpa using sounds)
    have standing : v.linkStanding = true := by
      rw [← up, ← off.standing, frame]
      rfl
    have tag : v.nextJobTag = s.nextJobTag := after.tag.trans (nextJobTag_congr off.jt)
    obtain ⟨nextTag, offers⟩ := repairSeek_offers (e := written) after.rising own body₁ standing
    let job₂ : Job := { job₁ with body := .repair (r₁.seeking written), exTag := some v.nextJobTag }
    have own₂ : (putJob j job₂ { v with jt.nextTag := nextTag }).jobAt j = some job₂ := jobAt_putJob_self ..
    obtain ⟨outbox, queue, plain, gave, -⟩ := giveFrame_spec (v.repairSeekFrame job₁ written) own₂
    have is : repairWritten j i q ok w = _ :=
      (head isHead).trans ((repairGoOn_eq own entry₁ after.entry).trans ((if_neg some_).trans (offers.trans gave)))
    refine ⟨_, { job₂ with outbox := outbox }, r₁.seeking written, is, chunks.of_med (by rfl) (by rfl), after.entry,
      jobAt_putJob_self .., rfl, rfl, rfl, ?_⟩
    rw [← tag]

end Repairs

/-- Settles O36: the store from the row of a write's end, and each kind of requester from what its outcome makes of it. -/
theorem writesReachTheStore : Obligations.WritesReachTheStore := by
  unfold Obligations.WritesReachTheStore
  refine ⟨fun s op hop write => ⟨?_, ?_, ?_, rfl⟩, fun s op c n sound hop write chunk ends listed => ?_,
    fun s op j i x job r e b sound hop write wanted who chunk hj hb hi he owned => ?_,
    fun s j i job r e b rest sound hj hb hi he reqs full none_ => append_full sound hj hb hi he reqs full none_,
    fun s op j i x q job r e b ok sound hop write wanted who chunk hj hb hi he => ?_⟩
  · obtain ⟨t, row, freeIx, block, clock, others⟩ := written_store (ok := true) hop write (.inl rfl)
    exact ⟨t, row, block, freeIx, clock, others⟩
  · obtain ⟨t, row, freeIx, block, clock, others⟩ := written_store (ok := false) hop write (.inl rfl)
    exact ⟨t, row, freeIx, block, clock, others⟩
  · obtain ⟨t, row, freeIx, block, clock, others⟩ := written_store (ok := false) hop write (.inr ⟨rfl, rfl⟩)
    exact ⟨t, row, freeIx, block, clock, others⟩
  · exact ⟨listed_again_spec hop write chunk ends listed, listed_dropped_spec sound hop write chunk ends listed⟩
  · exact ⟨append_written sound hop write wanted who chunk hj hb hi he,
      append_faulted sound hop write wanted who chunk hj hb owned⟩
  · intro clears written cleared chunks ends
    obtain ⟨w, row, off⟩ := repair_row (ok := ok) sound hop write wanted who chunk hj hb hi he
    obtain ⟨goesOn, finishes, heads, seeks⟩ := repairWritten_cases (q := q) sound off hj hb hi he
    refine ⟨fun notHead left => ?_, fun finishing empty => ?_, fun isHead clean => ?_, fun isHead some_ up => ?_⟩
    · obtain ⟨u, is, rest⟩ := goesOn notHead left
      exact ⟨u, row.trans (by rw [is]), rest⟩
    · obtain ⟨gone, map, raised, entry⟩ := finishes finishing empty
      exact ⟨_, row, gone, map, raised, entry.trans (congrArg some (repairedBy_rewritten s.now))⟩
    · obtain ⟨gone, map, raised, entry⟩ := heads isHead clean
      exact ⟨_, row, gone, map, raised, entry.trans (congrArg some (repairedBy_rewritten s.now))⟩
    · obtain ⟨u, job', r', is, rest⟩ := seeks isHead some_ up
      exact ⟨u, job', r', row.trans (by rw [is]), rest⟩

end Sys2Proof.Machine

/-! ## Refutation: the seal of a take whose chunk the map does not give it

SUPPORT and O37. The last part of O37 counts the chain before the write ends (`(s.chain e).length`) and does not ask that the
chunk of the faulted head block be the entry's own; the model counts it after the fault. -/

namespace Sys2Proof.Machine

section Looks
variable {s : State}

/-- The look leaves an ACTIVE node ACTIVE, or in DOZE. -/
theorem settle_active (active : s.act.state = .active) : (settle s).act.state = .active ∨ (settle s).act.state = .doze := by
  have issues (n : Nat) : ∀ t : State, (arbitrate n t).act.state = t.act.state := by
    induction n with
    | zero => exact fun _ => rfl
    | succ n ih =>
      intro t
      unfold arbitrate
      split
      · split
        · exact (ih _).trans (issue_actState _ _)
        · rfl
      · rfl
  have follows := (followConditions_actState (arbitrate s.workBound s)).trans ((issues s.workBound s).trans active)
  rw [settle_eq, wakeForWork_stays (.inl active)]
  unfold dozeIfDrained
  split
  · exact .inr rfl
  · exact .inl follows

/-- What the look leaves WAKING it has left as it was, but for ACT. -/
theorem settle_waking (waking : (settle s).act.state = .waking) : { settle s with act := s.act } = s := by
  refine settle_act_alone (.inl fun idle => ?_)
  rcases settle_active (active_of_idle idle) with active | doze
  · cases waking.symm.trans active
  · cases waking.symm.trans doze

end Looks

/-- The entry of the take being sealed: two chunks, the first of them chunk 1. -/
def strayEntry : Entry :=
  { take := { node := 3, seq := 7 }, role := .origin, state := .capturing,
    format := { width := .w16, channels := .stereo, rate := .r48 }, timelineLength := 0, storedFrames := 0, storedBlocks := 1,
    check := 0, gaps := [], clips := 0, endCause := none, label := none, holders := [], copiesWanted := 2,
    placement := .notNeeded, attempts := 0, damaged := [], damagedCount := 0, overflow := false, firstChunk := 1,
    chunkCount := 2, jobRefs := 1, repairHold := none }

/-- A capture whose take is cut with NORMAL before its first frame and whose drain is complete. Its head block has faulted twice. -/
def strayCapture : CaptureJob :=
  { state := .draining, format := strayEntry.format, preRoll := 0, ring := [], filling := none, closed := [], offset := 0,
    discard := none, gaps := [], storedFrames := 0, soundBlocks := 0, check := 0, clips := 0, lastEnd := 0,
    cut := some (0, .normal), head := .issued, headFaults := 2, headAgain := false, ending := none }

/-- The job record of that capture. -/
def strayJob : Job :=
  { tag := 5, opener := 31, exTag := none, take := some strayEntry.take, entry := some 0, body := .capture strayCapture,
    reqs := [], outbox := [], snd := none, rcv := none }

/-- The third write of the head block, issued in chunk 1. -/
def strayWrite : Issued :=
  { who := .job 0 .head, write := true, addr := 4096, data := [], chunk := some 1, offset := 0, since := 0, wanted := true }

/-- The node at that write. The entry names chunk 1 first, and chunk 1 names chunk 2, which is the entry's; but the map has
chunk 1 FREE. -/
def sealingStray : State :=
  { State.reset with
    cpe.port := .ready, sul.phase := .complete, act.state := .waking, lif.listening := true, med.capacity := 32768,
    med.total := 8, med.free := 6, med.issued := some strayWrite, jt.jobs := [(0, strayJob)], cat.entries := [(0, strayEntry)],
    med.chunks := [(1, { owner := .free, next := some 2, used := 0 }), (2, { owner := .entry 0, next := none, used := 1 })] }

theorem sealingStray_sound : sealingStray.Sound := by
  refine ⟨⟨rfl, by decide⟩, ⟨rfl, rfl, rfl⟩, ⟨by decide, by decide⟩, ⟨?_, ?_, ?_, rfl, by decide⟩, ?_, ?_, ?_⟩
  all_goals exact Nat.zero_le _

/-- The state a run's outcome leaves, where it leaves one. -/
def stateAfter : Host.Outcome State Fault Refusal → Option State
  | .next s => some s
  | _ => none

/-- The fault turns chunk 1 BAD and takes its link, and the take is sealed with one chunk: the chain had two. -/
theorem sealingStray_sealed :
    (stateAfter (exec (.mediaWriteComplete false) sealingStray)).map (·.act.state) = some .waking
      ∧ ((stateAfter (exec (.mediaWriteComplete false) sealingStray)).bind (State.entryAt · 0)).map (·.chunkCount) = some 1
      ∧ (sealingStray.chain strayEntry).length = 2 := by
  refine ⟨?_, ?_, ?_⟩ <;> decide

/-- Refutes O37: a take is sealed MEDIA_FAULT with the chunks its chain holds after the fault, which are fewer than before it
where the map has the head block's chunk FREE, a case the statement admits. -/
theorem not_waitingCommandsAreAnswered : ¬ Obligations.WaitingCommandsAreAnswered := by
  unfold Obligations.WaitingCommandsAreAnswered
  intro h
  obtain ⟨-, -, -, -, -, sealing⟩ := h
  obtain ⟨-, -, faulted, -⟩ := sealing sealingStray strayWrite 0 0 1 0 .normal strayJob strayCapture strayEntry
    sealingStray_sound rfl rfl rfl rfl rfl rfl rfl rfl rfl rfl rfl rfl
  obtain ⟨u, e', run, ⟨-, -, -, -, entry, -, -, -, -, -, -, -, -, -, count, -⟩, -, -⟩ :=
    faulted (by decide) (by decide) (by decide)
  obtain ⟨waking, one, two⟩ := sealingStray_sealed
  have left : stateAfter (exec (.mediaWriteComplete false) sealingStray) = some (settle u) := congrArg stateAfter run
  rw [left] at waking one
  have stands : { settle u with act := u.act } = u := settle_waking (Option.some.inj waking)
  have same : (settle u).entryAt 0 = u.entryAt 0 := by
    change ({ settle u with act := u.act } : State).entryAt 0 = _
    rw [stands]
  have counted : ((settle u).entryAt 0).map (·.chunkCount) = some 1 := one
  rw [same, entry] at counted
  have short : e'.chunkCount = 1 := Option.some.inj counted
  omega

end Sys2Proof.Machine

/-! ## Proofs: start-up's operations

SUPPORT. The rows of SUL's reads and writes, what each phase makes of them, and what completion leaves (R187, R189). -/

namespace Sys2Proof.Machine

section StartUp
variable {s v : State} {op : Issued} {so : SulOp} {b : List Byte} {ok readable : Bool} {i faults offset : Nat} {rest : List Nat}

/-! ### Issuing -/

/-- While the node starts up the arbiter has SUL's operations alone (R38). -/
theorem chosen_startUp (starting : s.sul.phase ≠ .complete) : s.chosen = s.sulWants.map .sul := by
  rw [State.chosen, State.complete, if_neg (by simpa using starting)]

/-- STORE_READY while the node starts up (R187). -/
theorem exec_storeReady (starting : s.sul.phase ≠ .complete) (waking : s.act.state = .waking) :
    exec .storeReady s = .next (settle { s with act.state := .active }) := by
  have incomplete : s.complete = false := by
    rw [State.complete]
    simpa using starting
  exact if_pos ⟨incomplete, waking⟩

/-- The look issues SUL's next operation on the reserved chunk at once, and the node stays ACTIVE (R187). -/
theorem settle_sul {write : Bool} {data : List Byte} (idle : s.portState = .idle) (starting : s.sul.phase ≠ .complete)
    (wants : s.sulWants = some so) (takes : issue (.sul so) s = issueOp (reservedOp (.sul so) write offset data s.now) s) :
    ∃ a, settle s = { s with med.issued := some (reservedOp (.sul so) write offset data s.now), act := a } ∧ a.state = .active := by
  have chosen : s.chosen = some (.sul so) := by
    rw [chosen_startUp starting, wants]
    rfl
  obtain ⟨a, is⟩ := settle_takes idle chosen takes
  refine ⟨a, is, ?_⟩
  have issued : (issue (.sul so) s).med.issued = some (reservedOp (.sul so) write offset data s.now) := by
    rw [takes]
    rfl
  have active : (issue (.sul so) s).act.state = .active := (issue_actState (.sul so) s).trans (active_of_idle idle)
  have looks := settle_still (.inl active) (.inl (busy_of_issued issued))
  obtain ⟨a', follows⟩ := followConditions_act (issue (.sul so) s)
  have works : (followConditions (issue (.sul so) s)).mediaWork = true := by
    rw [follows, mediaWork_iff]
    exact .inl (by simp [issued])
  rw [dozeIfDrained_stays (.inr works)] at looks
  have state := congrArg (·.act.state) ((settle_issue idle chosen issued).trans looks)
  rw [is] at state
  exact state.trans ((followConditions_actState _).trans active)

/-! ### The rows -/

/-- The end of a read of SUL's (R41, R187). -/
theorem exec_sulRead (hop : s.med.issued = some op) (read : op.write = false) (who : op.who = .sul so) (length : b.length = 512) :
    exec (.mediaReadComplete readable (.bytes b)) s
      = .next (settle (sulReadDone (readable && blockGood b) b { s with med.issued := none })) := by
  have whole : s.replyBytes op.addr (.bytes b) = b := by
    show fitBytes 512 b = b
    unfold fitBytes
    simp [length]
  show execMediaReadComplete readable (.bytes b) s = _
  rw [execMediaReadComplete, hop]
  dsimp only
  rw [if_neg (by rw [read]; decide), whole, finishRead, readEnded, who]
  cases readable && blockGood b <;> rfl

/-- A read of SUL's that is not answered in 250 ms is one that cannot be read (R41). -/
theorem exec_sulRead_timeout (hop : s.med.issued = some op) (read : op.write = false) (who : op.who = .sul so) :
    exec .mediaReadTimeout s
      = .next (settle (sulReadDone false (List.replicate 512 0) { passTo (op.since + 250) s with med.issued := none })) := by
  show execMediaReadTimeout s = _
  rw [execMediaReadTimeout, hop]
  dsimp only
  rw [if_neg (by rw [read]; decide), finishRead, readEnded, who]
  rfl

/-- The end of a write of SUL's: a fault in a chain's chunk may turn the chunk BAD, and nothing else but the store has moved
when SUL hears of it (R42, R43). -/
theorem exec_sulWrite (ok : Bool) (hop : s.med.issued = some op) (write : op.write = true) (who : op.who = .sul so) :
    ∃ v, exec (.mediaWriteComplete ok) s = .next (settle (sulWriteDone ok v))
      ∧ (∃ freeIx med, v = { s with freeIx := freeIx, med := med } ∧ med.total = s.med.total)
      ∧ (op.chunk = none → v.med.chunks = s.med.chunks ∧ v.med.total = s.med.total) := by
  obtain ⟨freeIx, store, row⟩ := exec_writeComplete ok hop write
  have other : ∀ j req, op.who = .job j req → req ≠ .sound ∧ ∀ b, req ≠ .append b := fun j req is => by
    rw [who] at is
    cases is
  have ends : afterWrite op ok (s.written freeIx store) = sulWriteDone ok (markFault op ok (s.written freeIx store)) := by
    rw [afterWrite, countAppend_other other, writeEnded, who]
  rw [ends] at row
  refine ⟨_, row, ?_, fun chunk => ?_⟩
  · unfold markFault
    split
    · obtain ⟨chunks, mapList, bad, free, marks⟩ := markBad_frame ‹Nat› (s.written freeIx store)
      rw [marks]
      exact ⟨freeIx, _, rfl, rfl⟩
    · exact ⟨freeIx, _, rfl, rfl⟩
  · rw [markFault_none chunk]
    exact ⟨rfl, rfl⟩

/-! ### Completion (R189) -/

/-- What completion makes of the state. -/
structure CompletesFrom (s u : State) : Prop where
  phase : u.sul.phase = .complete
  port : u.cpe.port = .ready
  listening : u.lif.listening = true
  tag : u.jt.nextTag = 0
  cat : u.cat = { s.cat with
    mark := true, queue := (s.cat.entries.filter (fun p => p.2.placement = .queued)).map (fun p => (p.1, s.now)) }
  med : u.med = s.med
  events : s.sul.cfg.eventMask.getLsbD 6 = true → s.cpe.events.length < 32 → u.cpe.events = s.cpe.events ++
    [.startupDone s.cat.entries.length s.sul.madeIncomplete s.sul.freed s.sul.prepared s.cat.fault]

/-- The state completion tells of, before it follows the timer's conditions. -/
def State.completed (s : State) : State :=
  { s with
    cat.mark := true
    sul.phase := .complete
    cat.queue := (s.cat.entries.filter (fun p => p.2.placement = .queued)).map (fun p => (p.1, s.now))
    jt.nextTag := 0
    cpe.port := .ready
    cpe.current := none
    cpe.response := none
    lif.listening := true
    lif.medium := if s.lif.carrier then .busy else .settling
    lif.absent := 0
    lif.rxOpen := false }

theorem completeStartUp_eq (s : State) : ∃ a, completeStartUp s
    = raise (.startupDone s.cat.entries.length s.sul.madeIncomplete s.sul.freed s.sul.prepared s.cat.fault)
        { s.completed with act := a } := by
  obtain ⟨a, follows⟩ := followConditions_act s.completed
  exact ⟨a, congrArg (raise _) follows⟩

theorem completeStartUp_spec (s : State) : CompletesFrom s (completeStartUp s) := by
  obtain ⟨a, completes⟩ := completeStartUp_eq s
  obtain ⟨seen, events, lost, raised⟩ := raise_eq
    (.startupDone s.cat.entries.length s.sul.madeIncomplete s.sul.freed s.sul.prepared s.cat.fault) { s.completed with act := a }
  have is := completes.trans raised
  refine ⟨?_, ?_, ?_, ?_, ?_, ?_, fun enabled room => ?_⟩
  any_goals rw [is]; rfl
  rw [completes]
  exact events_raise enabled room

/-! ### The counter block (R187) -/

theorem sulReadDone_counter (phase : s.sul.phase = .counter) (mark : (blockPayload b).take 4 = formatMark) :
    sulReadDone true b s = { s with cat.counter := fieldAt (blockPayload b) 4 4, sul.phase := .records 0 } := by
  unfold sulReadDone
  dsimp only
  rw [phase]
  dsimp only
  rw [if_neg (by decide), if_pos mark]
  rfl

theorem sulReadDone_blank (phase : s.sul.phase = .counter) (mark : (blockPayload b).take 4 ≠ formatMark) :
    sulReadDone true b s = { s with cat.counter := 0, sul.phase := .prepare 0 0, sul.prepared := true } := by
  unfold sulReadDone
  dsimp only
  rw [phase]
  dsimp only
  rw [if_neg (by decide), if_neg mark]
  unfold sulSettle sulAdvance
  dsimp only
  rw [if_pos (by omega)]

theorem sulReadDone_noCounter (phase : s.sul.phase = .counter) :
    sulReadDone false b s = { s with cat.counter := 134217727, cat.fault := true, sul.phase := .records 0 } := by
  unfold sulReadDone
  dsimp only
  rw [phase]
  dsimp only
  rw [if_pos (by decide)]
  rfl

/-! ### Writes of SUL's (R187, R188) -/

/-- One attempt at the write of a blank store's block. -/
def State.prepared (s : State) (offset faults : Nat) (fault : Bool) : State :=
  { s with sul.phase := .prepare offset faults, cat.fault := s.cat.fault || fault }

theorem sulWriteDone_prepare (ok : Bool) (phase : s.sul.phase = .prepare offset faults) : sulWriteDone ok s
    = sulSettle (if ok = true ∨ 2 ≤ faults then s.prepared (offset + 1) 0 (!ok) else s.prepared offset (faults + 1) false) := by
  unfold sulWriteDone
  rw [phase]
  dsimp only
  cases ok with
  | true => simp [State.prepared]
  | false =>
    by_cases many : 2 ≤ faults
    · simp [State.prepared, many, setFault]
    · simp [State.prepared, many]

/-- Preparation goes on while a block of the reserved chunk is left. -/
theorem sulSettle_prepare (phase : s.sul.phase = .prepare offset faults) (left : offset < 2049 + (s.med.total + 79) / 80) :
    sulSettle s = s := by
  have stays : sulAdvance s = s := by
    unfold sulAdvance
    rw [phase]
    exact if_pos left
  unfold sulSettle
  rw [stays]
  dsimp only
  rw [phase]

theorem sulSettle_heads (phase : s.sul.phase = .heads rest faults) :
    sulSettle s = if rest = [] then completeStartUp s else s := by
  have stays : sulAdvance s = s := by
    unfold sulAdvance
    rw [phase]
  unfold sulSettle
  rw [stays]
  dsimp only
  rw [phase]
  cases rest <;> rfl

/-- A head block written OK: the next, or completion. -/
theorem sulWriteDone_head (phase : s.sul.phase = .heads (i :: rest) faults) : sulWriteDone true s
    = if rest = [] then completeStartUp { s with sul.phase := .heads rest 0 } else { s with sul.phase := .heads rest 0 } := by
  unfold sulWriteDone
  rw [phase]
  dsimp only
  rw [if_pos rfl]
  exact sulSettle_heads rfl

/-- The third fault of a head block: sequence 0 is damage found, and the next is written. -/
theorem sulWriteDone_head_lost (phase : s.sul.phase = .heads (i :: rest) faults) (many : 2 ≤ faults) (more : rest ≠ []) :
    sulWriteDone false s = { recordDamage i 0 none s with sul.phase := .heads rest 0 } := by
  unfold sulWriteDone
  rw [phase]
  dsimp only
  rw [if_neg (by decide), if_pos many]
  exact (sulSettle_heads rfl).trans (if_neg more)

/-- An earlier fault of a head block: it is written again. -/
theorem sulWriteDone_head_again (phase : s.sul.phase = .heads (i :: rest) faults) (few : faults < 2) :
    sulWriteDone false s = { s with sul.phase := .heads (i :: rest) (faults + 1) } := by
  unfold sulWriteDone
  rw [phase]
  dsimp only
  rw [if_neg (by decide), if_neg (by omega)]
  exact (sulSettle_heads rfl).trans (if_neg (by simp))

/-- Sequence 0 goes to the front of a damaged list that lacks it. -/
theorem insertSorted_zero {l : List Nat} (lacks : 0 ∉ l) : insertSorted 0 l = 0 :: l := by
  cases l with
  | nil => rfl
  | cons a t => exact if_pos (Nat.pos_of_ne_zero fun zero => lacks (by simp [zero]))

/-- A head block found damaged joins the front of a list with room (R160). -/
theorem recordDamage_head {e : Entry} (finder : Option JobKind) (he : s.entryAt i = some e) (lacks : 0 ∉ e.damaged)
    (room : e.damaged.length < 8) : (recordDamage i 0 finder s).entryAt i
      = some { e with damaged := 0 :: e.damaged, damagedCount := min 255 (e.damagedCount + 1) } := by
  have found : e.withDamage 0 = { e with damaged := 0 :: e.damaged, damagedCount := min 255 (e.damagedCount + 1) } := by
    rw [Entry.withDamage, if_pos room, insertSorted_zero lacks, satAdd]
  obtain ⟨wt, changed, -⟩ := changeEntryMarked_eq (fun _ => e.withDamage 0) he
  unfold recordDamage
  rw [he]
  dsimp only
  rw [if_neg (by simpa using lacks), entryAt_raise, changed, found]
  exact smapGet_smapSet_self ..

end StartUp

end Sys2Proof.Machine

/-! ## Proofs: the records start-up loads

SUPPORT. What a catalogue record read OK gives (R187, R193), field by field, and what SUL makes of it. -/

namespace Sys2Proof.Machine

section Records
variable {s : State} {b p : List Byte} {i : Nat}

/-! ### Lists in a record -/

theorem fieldAt_drop (l : List Byte) (n k w : Nat) : fieldAt (l.drop n) k w = fieldAt l (n + k) w := by
  rw [fieldAt, fieldAt, List.drop_drop]

/-- A list of 4-byte values, by place. -/
theorem wordsFrom_eq (n : Nat) (l : List Byte) : wordsFrom n l = (List.range n).map fun q => fieldAt l (4 * q) 4 := by
  induction n generalizing l with
  | zero => rfl
  | succ n ih =>
    rw [wordsFrom, ih, List.range_succ_eq_map, List.map_cons, List.map_map]
    refine congrArg _ (List.map_congr_left fun q _ => ?_)
    rw [fieldAt_drop, Function.comp_apply, Nat.mul_succ, Nat.add_comm]

/-- A gap list, by place. -/
theorem gapsFrom_eq (n : Nat) (l : List Byte) : gapsFrom n l
    = (List.range n).map fun g => { start := fieldAt l (8 * g) 4, length := fieldAt l (8 * g + 4) 4 } := by
  induction n generalizing l with
  | zero => rfl
  | succ n ih =>
    rw [gapsFrom, ih, List.range_succ_eq_map, List.map_cons, List.map_map]
    refine congrArg _ (List.map_congr_left fun g _ => ?_)
    rw [fieldAt_drop, fieldAt_drop, Function.comp_apply, Nat.mul_succ, Nat.add_comm 8, ← Nat.add_assoc, Nat.add_comm 8, Nat.add_right_comm]

/-- Gaps in order: none is empty, and none reaches the next (R12). -/
theorem gapsOk_iff (l : List Gap) : gapsOk l = true
    ↔ (∀ g ∈ l, 1 ≤ g.length) ∧ l.IsChain (fun g h => g.start + g.length < h.start) := by
  induction l with
  | nil => simp [gapsOk]
  | cons g t ih =>
    cases t with
    | nil => simp [gapsOk]
    | cons h t =>
      rw [gapsOk, Bool.and_eq_true, Bool.and_eq_true, ih, decide_eq_true_iff, decide_eq_true_iff, List.isChain_cons_cons]
      simp only [List.forall_mem_cons]
      tauto

/-- A gap list by place is out of order exactly where a gap is empty or reaches the next. -/
theorem gapsOk_range (n : Nat) (start length : Nat → Nat) :
    gapsOk ((List.range n).map fun g => { start := start g, length := length g }) = false
      ↔ (∃ g < n, length g = 0) ∨ ∃ g, g + 1 < n ∧ start (g + 1) ≤ start g + length g := by
  have chain : ((List.range n).map fun g => ({ start := start g, length := length g } : Gap)).IsChain
        (fun g h => g.start + g.length < h.start)
      ↔ ∀ g, g + 1 < n → start g + length g < start (g + 1) := by
    rw [List.isChain_map]
    cases n with
    | zero => simp
    | succ n => simp [List.isChain_range]
  rw [← Bool.not_eq_true, gapsOk_iff, chain, not_and_or]
  simp only [List.forall_mem_map, List.mem_range]
  push Not
  simp only [Nat.lt_one_iff]

/-! ### Codes -/

theorem entryStateOfCode_eq {n : Nat} (low : n ≠ 0) (high : ¬ 4 < n) : entryStateOfCode n
    = some (if n = 1 then .capturing else if n = 2 then .held else if n = 3 then .receiving else .incomplete) := by
  obtain rfl | rfl | rfl | rfl : n = 1 ∨ n = 2 ∨ n = 3 ∨ n = 4 := by omega
  all_goals rfl

theorem entryStateOfCode_none {n : Nat} (high : 4 < n) : entryStateOfCode n = none := by
  obtain ⟨k, rfl⟩ := Nat.exists_eq_add_of_lt high
  rw [Nat.add_right_comm, Nat.add_comm]
  rfl

theorem roleOfCode_eq {n : Nat} (high : ¬ 1 < n) : roleOfCode n = some (if n = 0 then .origin else .copy) := by
  obtain rfl | rfl : n = 0 ∨ n = 1 := by omega
  all_goals rfl

theorem roleOfCode_none {n : Nat} (high : 1 < n) : roleOfCode n = none := by
  obtain ⟨k, rfl⟩ := Nat.exists_eq_add_of_lt high
  rw [Nat.add_right_comm, Nat.add_comm]
  rfl

theorem rateOfCode_eq {n : Nat} (high : ¬ 4 < n) : rateOfCode n
    = some (if n = 0 then .unstated else if n = 1 then .r44 else if n = 2 then .r48 else if n = 3 then .r88 else .r96) := by
  obtain rfl | rfl | rfl | rfl | rfl : n = 0 ∨ n = 1 ∨ n = 2 ∨ n = 3 ∨ n = 4 := by omega
  all_goals rfl

theorem rateOfCode_none {n : Nat} (high : 4 < n) : rateOfCode n = none := by
  obtain ⟨k, rfl⟩ := Nat.exists_eq_add_of_lt high
  rw [Nat.add_right_comm, Nat.add_comm]
  rfl

theorem endCauseOfCode_eq {n : Nat} (high : ¬ 5 < n) : endCauseOfCode n
    = if n = 0 then none else if n = 1 then some .normal else if n = 2 then some .overrun
      else if n = 3 then some .mediaFull else if n = 4 then some .mediaFault else some .reset := by
  obtain rfl | rfl | rfl | rfl | rfl | rfl : n = 0 ∨ n = 1 ∨ n = 2 ∨ n = 3 ∨ n = 4 ∨ n = 5 := by omega
  all_goals rfl

theorem placementOfCode_eq {n : Nat} (high : n < 4) : placementOfCode n
    = if n = 0 then .notNeeded else if n = 1 then .queued else if n = 2 then .inProgress else .satisfied := by
  obtain rfl | rfl | rfl | rfl : n = 0 ∨ n = 1 ∨ n = 2 ∨ n = 3 := by omega
  all_goals rfl

/-! ### The record -/

/-- What R193 rejects in a record that is not empty. -/
def recordBroken (p : List Byte) : Prop :=
  4 < (byteAt p 0).toNat ∨ 1 < (byteAt p 1).toNat ∨ 4 < (byteAt p 6).toNat / 16 % 8 ∨ 5 < (byteAt p 7).toNat
    ∨ 8 < (byteAt p 21).toNat % 16 ∨ 16 < (byteAt p 58).toNat
    ∨ fieldAt p 8 4 < ((List.range (byteAt p 58).toNat).map fun g => fieldAt p (63 + 8 * g) 4).sum
    ∨ (∃ g < (byteAt p 58).toNat, fieldAt p (63 + 8 * g) 4 = 0)
    ∨ ∃ g, g + 1 < (byteAt p 58).toNat ∧ fieldAt p (59 + 8 * (g + 1)) 4 ≤ fieldAt p (59 + 8 * g) 4 + fieldAt p (63 + 8 * g) 4

/-- The gap list of a record. -/
def recordGaps (p : List Byte) : List Gap :=
  (List.range (byteAt p 58).toNat).map fun g => { start := fieldAt p (59 + 8 * g) 4, length := fieldAt p (63 + 8 * g) 4 }

/-- The format of a record whose rate code is in its list. -/
def recordFormat (p : List Byte) : Format :=
  let rate := (byteAt p 6).toNat / 16 % 8
  { width := if (byteAt p 6).getLsbD 0 = true then .w24 else .w16,
    channels := if (byteAt p 6).getLsbD 1 = true then .stereo else .mono,
    rate := if rate = 0 then .unstated else if rate = 1 then .r44 else if rate = 2 then .r48 else if rate = 3 then .r88 else .r96 }

theorem gapsFrom_record (p : List Byte) : gapsFrom (byteAt p 58).toNat (p.drop 59) = recordGaps p := by
  rw [gapsFrom_eq, recordGaps]
  refine List.map_congr_left fun g _ => ?_
  rw [fieldAt_drop, fieldAt_drop, ← Nat.add_assoc, Nat.add_right_comm]

theorem gapTotal_record (p : List Byte) : gapTotal (recordGaps p)
    = ((List.range (byteAt p 58).toNat).map fun g => fieldAt p (63 + 8 * g) 4).sum := by
  rw [gapTotal, recordGaps, List.map_map]
  rfl

theorem perBlock_record (p : List Byte) : (recordFormat p).perBlock
    = 480 / ((if (byteAt p 6).getLsbD 0 = true then 3 else 2) * (if (byteAt p 6).getLsbD 1 = true then 2 else 1)) := by
  unfold Format.perBlock Format.frameBytes recordFormat
  dsimp only
  congr 2
  · split <;> rfl
  · split <;> rfl

theorem formatOfByte_eq (high : ¬ 4 < (byteAt p 6).toNat / 16 % 8) : formatOfByte (byteAt p 6) = some (recordFormat p) := by
  rw [formatOfByte, rateOfCode_eq high]
  rfl

theorem formatOfByte_none (high : 4 < (byteAt p 6).toNat / 16 % 8) : formatOfByte (byteAt p 6) = none := by
  rw [formatOfByte, rateOfCode_none high]
  rfl

/-- The tests of a record's lists, its end cause and its count of stored frames. -/
theorem recordTests (p : List Byte) :
    (5 < (byteAt p 7).toNat || 8 < (byteAt p 21).toNat % 16 || 16 < (byteAt p 58).toNat
        || fieldAt p 8 4 < gapTotal (recordGaps p) || !gapsOk (recordGaps p)) = true
      ↔ 5 < (byteAt p 7).toNat ∨ 8 < (byteAt p 21).toNat % 16 ∨ 16 < (byteAt p 58).toNat
        ∨ fieldAt p 8 4 < ((List.range (byteAt p 58).toNat).map fun g => fieldAt p (63 + 8 * g) 4).sum
        ∨ (∃ g < (byteAt p 58).toNat, fieldAt p (63 + 8 * g) 4 = 0)
        ∨ ∃ g, g + 1 < (byteAt p 58).toNat
          ∧ fieldAt p (59 + 8 * (g + 1)) 4 ≤ fieldAt p (59 + 8 * g) 4 + fieldAt p (63 + 8 * g) 4 := by
  have order := gapsOk_range (byteAt p 58).toNat (fun g => fieldAt p (59 + 8 * g) 4) (fun g => fieldAt p (63 + 8 * g) 4)
  rw [gapTotal_record]
  simp only [Bool.or_eq_true, decide_eq_true_eq, Bool.not_eq_true', or_assoc]
  rw [show gapsOk (recordGaps p) = false ↔ _ from order]

theorem entryOfRecord_empty (empty : (byteAt p 0).toNat = 0) : entryOfRecord p = .empty := by
  unfold entryOfRecord
  dsimp only
  rw [if_pos empty]

/-- A record R193 rejects. -/
theorem entryOfRecord_invalid (live : (byteAt p 0).toNat ≠ 0) (broken : recordBroken p) : entryOfRecord p = .invalid := by
  unfold entryOfRecord
  dsimp only
  rw [if_neg live, gapsFrom_record]
  by_cases state : 4 < (byteAt p 0).toNat
  · rw [entryStateOfCode_none state]
  by_cases role : 1 < (byteAt p 1).toNat
  · rw [entryStateOfCode_eq live state, roleOfCode_none role]
  by_cases rate : 4 < (byteAt p 6).toNat / 16 % 8
  · rw [entryStateOfCode_eq live state, roleOfCode_eq role, formatOfByte_none rate]
  rw [entryStateOfCode_eq live state, roleOfCode_eq role, formatOfByte_eq rate]
  exact if_pos ((recordTests p).mpr (((broken.resolve_left state).resolve_left role).resolve_left rate))

/-- The entry of a record that R193 takes, field by field. -/
def recordEntry (p : List Byte) : Entry :=
  let state := (byteAt p 0).toNat
  let cause := (byteAt p 7).toNat
  let placement := (byteAt p 18).toNat / 16 % 4
  let stored := fieldAt p 8 4 - ((List.range (byteAt p 58).toNat).map fun g => fieldAt p (63 + 8 * g) 4).sum
  let perBlock := 480 / ((if (byteAt p 6).getLsbD 0 = true then 3 else 2) * (if (byteAt p 6).getLsbD 1 = true then 2 else 1))
  { take := { node := fieldAt p 2 4 / 134217728, seq := fieldAt p 2 4 % 134217728 },
    role := if (byteAt p 1).toNat = 0 then .origin else .copy,
    state := if state = 1 then .capturing else if state = 2 then .held else if state = 3 then .receiving else .incomplete,
    format := recordFormat p, timelineLength := fieldAt p 8 4, storedFrames := stored,
    storedBlocks := (stored + perBlock - 1) / perBlock + 1, check := BitVec.ofNat 32 (fieldAt p 12 4),
    gaps := recordGaps p, clips := fieldAt p 16 2,
    endCause := if cause = 0 then none else if cause = 1 then some .normal else if cause = 2 then some .overrun
                else if cause = 3 then some .mediaFull else if cause = 4 then some .mediaFault else some .reset,
    label := if (byteAt p 191).toNat = 0 then none else some ((p.drop 192).take 64),
    holders := (((p.drop 54).take 4).filter (· ≠ 0xFF)).map (·.toNat),
    copiesWanted := (byteAt p 18).toNat % 8,
    placement := if placement = 0 then .notNeeded else if placement = 1 then .queued
                 else if placement = 2 then .inProgress else .satisfied,
    attempts := (byteAt p 19).toNat,
    damaged := (List.range ((byteAt p 21).toNat % 16)).map fun q => fieldAt p (22 + 4 * q) 4,
    damagedCount := (byteAt p 20).toNat, overflow := (byteAt p 21).getLsbD 7, firstChunk := fieldAt p 187 2,
    chunkCount := fieldAt p 189 2, jobRefs := 0, repairHold := none }

theorem entryOfRecord_live (live : (byteAt p 0).toNat ≠ 0) (sound : ¬ recordBroken p) : entryOfRecord p = .live (recordEntry p) := by
  unfold recordBroken at sound
  rw [not_or, not_or, not_or] at sound
  obtain ⟨state, role, rate, tests⟩ := sound
  have cause : ¬ 5 < (byteAt p 7).toNat := fun high => tests (.inl high)
  have words : wordsFrom ((byteAt p 21).toNat % 16) (p.drop 22)
      = (List.range ((byteAt p 21).toNat % 16)).map fun q => fieldAt p (22 + 4 * q) 4 := by
    rw [wordsFrom_eq]
    exact List.map_congr_left fun q _ => fieldAt_drop ..
  unfold entryOfRecord
  dsimp only
  rw [if_neg live, gapsFrom_record, entryStateOfCode_eq live state, roleOfCode_eq role, formatOfByte_eq rate]
  refine (if_neg (mt (recordTests p).mp tests)).trans ?_
  rw [endCauseOfCode_eq cause, placementOfCode_eq (Nat.mod_lt _ (by omega)), words, gapTotal_record, perBlock_record]
  rfl

/-! ### What SUL makes of it (R187) -/

/-- A record has been read: what it gives is loaded, and SUL goes on to the next, or to the map. -/
theorem sulReadDone_record (ok : Bool) (phase : s.sul.phase = .records i) (place : i < 2048) :
    sulReadDone ok b s = { (if ok then loadRecord i (blockPayload b) s else setFault s) with
      sul.phase := if i = 2047 then .maps 0 else .records (i + 1) } := by
  unfold sulReadDone
  dsimp only
  rw [phase]
  dsimp only
  unfold sulSettle sulAdvance
  by_cases last : i = 2047
  · subst last
    rfl
  · have next : i + 1 < 2048 := by omega
    dsimp only
    rw [if_pos next, if_neg last]

/-- A record changes the catalogue alone, and no other entry. -/
theorem loadRecord_eq (i : Nat) (p : List Byte) (s : State) : ∃ cat, loadRecord i p s = { s with cat := cat }
    ∧ ∀ k, k ≠ i → (loadRecord i p s).entryAt k = s.entryAt k := by
  unfold loadRecord
  cases entryOfRecord p with
  | empty => exact ⟨s.cat, rfl, fun _ _ => rfl⟩
  | live e => exact ⟨_, rfl, fun k other => smapGet_smapSet_ne _ _ other⟩
  | invalid => exact ⟨_, rfl, fun _ _ => rfl⟩

theorem loadRecord_empty (empty : (byteAt p 0).toNat = 0) : loadRecord i p s = s := by
  rw [loadRecord, entryOfRecord_empty empty]

theorem loadRecord_invalid (live : (byteAt p 0).toNat ≠ 0) (broken : recordBroken p) : loadRecord i p s = setFault s := by
  rw [loadRecord, entryOfRecord_invalid live broken]

theorem loadRecord_live (live : (byteAt p 0).toNat ≠ 0) (sound : ¬ recordBroken p) :
    loadRecord i p s = { s with cat.entries := smapSet s.cat.entries i (recordEntry p) } := by
  rw [loadRecord, entryOfRecord_live live sound]

end Records

end Sys2Proof.Machine

/-! ## Proofs: the map blocks start-up loads

SUPPORT. What a map block read OK, or lost, makes of its 80 chunk entries (R187). -/

namespace Sys2Proof.Machine

section Maps
variable {s : State} {b p q : List Byte} {k c total : Nat} {ch : Chunk}

/-! ### A chunk entry -/

/-- Bytes that are read as a number are written back as they were. -/
theorem beBytes_beNat (l : List Byte) : beBytes l.length (beNat l) = l := by
  induction l using List.reverseRecOn with
  | nil => rfl
  | append_singleton t x ih =>
    have low : x.toNat < 256 := x.isLt
    have shift : (beNat t * 256 + x.toNat) / 256 = beNat t := by omega
    have last : BitVec.ofNat 8 (beNat t * 256 + x.toNat) = x := by
      apply BitVec.eq_of_toNat_eq
      rw [BitVec.toNat_ofNat]
      omega
    rw [List.length_append, List.length_singleton, beNat_append_singleton, beBytes, shift, ih, last]

theorem beBytes_fieldAt {l : List Byte} {i w : Nat} (inside : i + w ≤ l.length) : beBytes w (fieldAt l i w) = (l.drop i).take w := by
  have length : ((l.drop i).take w).length = w := by
    rw [List.length_take, List.length_drop]
    omega
  have back := beBytes_beNat ((l.drop i).take w)
  rwa [length] at back

theorem fieldAt_lt {l : List Byte} {i w : Nat} (inside : i + w ≤ l.length) : fieldAt l i w < 256 ^ w := by
  have length : ((l.drop i).take w).length = w := by
    rw [List.length_take, List.length_drop]
    omega
  have own := beNat_beBytes w (beNat ((l.drop i).take w))
  have back := beBytes_beNat ((l.drop i).take w)
  rw [length] at back
  rw [back] at own
  rw [fieldAt, own]
  exact Nat.mod_lt _ (Nat.pow_pos (by omega))

/-- What R187 rejects in a chunk entry. -/
def chunkRejected (total number : Nat) (q : List Byte) : Prop :=
  (2048 ≤ fieldAt q 0 2 ∧ fieldAt q 0 2 ≤ 0xFFFC) ∨ (fieldAt q 0 2 = 0xFFFE ∧ number ≠ 0)
    ∨ (fieldAt q 2 2 ≠ 0xFFFF ∧ total ≤ fieldAt q 2 2)

theorem chunkOfBytes_rejected {number : Nat} : chunkOfBytes total number q = none ↔ chunkRejected total number q := by
  unfold chunkOfBytes chunkRejected
  dsimp only
  simp only [ite_eq_left_iff, reduceCtorEq, imp_false, not_not, Bool.or_eq_true, Bool.and_eq_true, decide_eq_true_eq, or_assoc]

/-- A chunk entry that is taken is written back as its bytes. -/
theorem bytes_chunkOfBytes {number : Nat} (whole : q.length = 6) (takes : chunkOfBytes total number q = some ch) : ch.bytes = q := by
  have parts : q = (q.drop 0).take 2 ++ (q.drop 2).take 2 ++ (q.drop 4).take 2 := by
    have last : (q.drop 4).take 2 = q.drop 4 := List.take_of_length_le (by rw [List.length_drop]; omega)
    rw [last, List.drop_zero, ← List.take_add, List.take_append_drop]
  have kept : ¬ chunkRejected total number q := fun rejected => by
    rw [chunkOfBytes_rejected.mpr rejected] at takes
    cases takes
  have small := fieldAt_lt (l := q) (i := 0) (w := 2) (by omega)
  have is : ch = { owner := if fieldAt q 0 2 = 0xFFFF then .free else if fieldAt q 0 2 = 0xFFFE then .reserved
                            else if fieldAt q 0 2 = 0xFFFD then .bad else .entry (fieldAt q 0 2),
                   next := if fieldAt q 2 2 = 0xFFFF then none else some (fieldAt q 2 2), used := fieldAt q 4 2 } := by
    unfold chunkOfBytes at takes
    dsimp only at takes
    split at takes
    · cases takes
    · exact (Option.some.inj takes).symm
  have owner : ch.owner.code = fieldAt q 0 2 := by
    rw [is]
    dsimp only
    split
    · exact (‹fieldAt q 0 2 = 0xFFFF›).symm
    · split
      · exact (‹fieldAt q 0 2 = 0xFFFE›).symm
      · split
        · exact (‹fieldAt q 0 2 = 0xFFFD›).symm
        · rfl
  have next : ch.next.getD 0xFFFF = fieldAt q 2 2 := by
    rw [is]
    dsimp only
    split
    · exact (‹fieldAt q 2 2 = 0xFFFF›).symm
    · rfl
  have used : ch.used = fieldAt q 4 2 := by rw [is]
  rw [Chunk.bytes, owner, next, used, beBytes_fieldAt (by omega), beBytes_fieldAt (by omega), beBytes_fieldAt (by omega)]
  exact parts.symm

/-! ### A map block -/

/-- The bytes of chunk `c`'s entry in its map block (R31). -/
def mapEntry (p : List Byte) (c : Nat) : List Byte := (p.drop (6 * (c % 80))).take 6

theorem length_mapEntry (whole : p.length = 480) (c : Nat) : (mapEntry p c).length = 6 := by
  have place : c % 80 < 80 := Nat.mod_lt _ (by omega)
  rw [mapEntry, List.length_take, List.length_drop]
  omega

/-- The chunks of map block `k` that the store has. -/
theorem inBlock_iff (c k total : Nat) : 80 * k ≤ c ∧ c < 80 * k + min 80 (total - 80 * k) ↔ c / 80 = k ∧ c < total := by
  omega

/-- The first `n` chunk entries of a block that is read. -/
theorem loadChunks_spec (k n : Nat) (p : List Byte) (rising : smapRising s.med.chunks = true) : ∃ chunks fault,
    (List.range n).foldl (fun s k' => loadChunk s.med.total (80 * k + k') ((p.drop (6 * k')).take 6) s) s
        = { s with cat.fault := fault, med.chunks := chunks }
      ∧ smapRising chunks = true
      ∧ (∀ c, chunkIn chunks c = if 80 * k ≤ c ∧ c < 80 * k + n
          then (chunkOfBytes s.med.total c ((p.drop (6 * (c - 80 * k))).take 6)).getD lostChunk else s.chunkAt c)
      ∧ (fault = true ↔ s.cat.fault = true
          ∨ ∃ c, (80 * k ≤ c ∧ c < 80 * k + n) ∧ chunkOfBytes s.med.total c ((p.drop (6 * (c - 80 * k))).take 6) = none) := by
  induction n with
  | zero =>
    refine ⟨s.med.chunks, s.cat.fault, rfl, rising, fun c => ?_, ?_⟩
    · rw [if_neg (by omega)]
      rfl
    · refine ⟨.inl, fun is => is.resolve_right ?_⟩
      rintro ⟨c, inside, -⟩
      omega
  | succ n ih =>
    obtain ⟨chunks, fault, folds, rising', reads, flag⟩ := ih
    rw [List.range_succ, List.foldl_append, folds, List.foldl_cons, List.foldl_nil]
    have place : 80 * k + n - 80 * k = n := by omega
    have sets (ch' : Chunk) (c : Nat) : chunkIn (chunkMapSet chunks (80 * k + n) ch') c
        = if c = 80 * k + n then ch' else if 80 * k ≤ c ∧ c < 80 * k + n
          then (chunkOfBytes s.med.total c ((p.drop (6 * (c - 80 * k))).take 6)).getD lostChunk else s.chunkAt c := by
      rw [chunkIn_chunkMapSet rising', reads]
    have joins (ch' : Chunk) (is : (chunkOfBytes s.med.total (80 * k + n) ((p.drop (6 * n)).take 6)).getD lostChunk = ch') (c : Nat) :
        chunkIn (chunkMapSet chunks (80 * k + n) ch') c = if 80 * k ≤ c ∧ c < 80 * k + (n + 1)
          then (chunkOfBytes s.med.total c ((p.drop (6 * (c - 80 * k))).take 6)).getD lostChunk else s.chunkAt c := by
      rw [sets]
      by_cases last : c = 80 * k + n
      · rw [if_pos last, if_pos (by omega), last, place, is]
      · rw [if_neg last]
        exact if_congr (by omega) rfl rfl
    unfold loadChunk
    cases takes : chunkOfBytes s.med.total (80 * k + n) ((p.drop (6 * n)).take 6) with
    | none =>
      refine ⟨_, true, rfl, smapRising_chunkMapSet _ _ rising', joins lostChunk (by rw [takes]; rfl), ?_⟩
      exact ⟨fun _ => .inr ⟨80 * k + n, by omega, by rw [place]; exact takes⟩, fun _ => rfl⟩
    | some ch' =>
      refine ⟨_, fault, rfl, smapRising_chunkMapSet _ _ rising', joins ch' (by rw [takes]; rfl), flag.trans ?_⟩
      refine or_congr_right ⟨?_, ?_⟩
      · rintro ⟨c, inside, rejected⟩
        exact ⟨c, by omega, rejected⟩
      · rintro ⟨c, inside, rejected⟩
        refine ⟨c, ⟨inside.1, ?_⟩, rejected⟩
        by_contra last
        have is : c = 80 * k + n := by omega
        rw [is, place, takes] at rejected
        cases rejected

/-- A map block read OK: its chunk entries as they stand, those R187 rejects BAD with the flag. -/
theorem loadMap_spec (p : List Byte) (k : Nat) (rising : smapRising s.med.chunks = true) : ∃ chunks fault,
    loadMap p k s = { s with cat.fault := fault, med.chunks := chunks } ∧ smapRising chunks = true
      ∧ (∀ c, chunkIn chunks c = if c / 80 = k ∧ c < s.med.total
          then (chunkOfBytes s.med.total c (mapEntry p c)).getD lostChunk else s.chunkAt c)
      ∧ (fault = true ↔ s.cat.fault = true
          ∨ ∃ c, (c / 80 = k ∧ c < s.med.total) ∧ chunkRejected s.med.total c (mapEntry p c)) := by
  obtain ⟨chunks, fault, folds, rising', reads, flag⟩ :=
    loadChunks_spec k (min 80 (s.med.total - 80 * k)) p rising
  have place {c : Nat} (inside : c / 80 = k ∧ c < s.med.total) : (p.drop (6 * (c - 80 * k))).take 6 = mapEntry p c := by
    rw [mapEntry, show c - 80 * k = c % 80 by omega]
  refine ⟨chunks, fault, folds, rising', fun c => ?_, flag.trans (or_congr_right (exists_congr fun c => ?_))⟩
  · rw [reads, if_congr (inBlock_iff c k s.med.total) rfl rfl]
    by_cases inside : c / 80 = k ∧ c < s.med.total
    · rw [if_pos inside, if_pos inside, place inside]
    · rw [if_neg inside, if_neg inside]
  · rw [inBlock_iff, chunkOfBytes_rejected]
    exact and_congr_right fun inside => by rw [place inside]

/-- The first `n` chunk entries of a block that cannot be read. -/
theorem loseChunks_spec (k n : Nat) (rising : smapRising s.med.chunks = true) : ∃ chunks,
    (List.range n).foldl (fun s k' => if 80 * k + k' = 0 then s
        else { s with med.chunks := chunkMapSet s.med.chunks (80 * k + k') lostChunk }) s = { s with med.chunks := chunks }
      ∧ smapRising chunks = true
      ∧ ∀ c, chunkIn chunks c = if (80 * k ≤ c ∧ c < 80 * k + n) ∧ c ≠ 0 then lostChunk else s.chunkAt c := by
  induction n with
  | zero =>
    refine ⟨s.med.chunks, rfl, rising, fun c => ?_⟩
    rw [if_neg (by omega)]
    rfl
  | succ n ih =>
    obtain ⟨chunks, folds, rising', reads⟩ := ih
    rw [List.range_succ, List.foldl_append, folds, List.foldl_cons, List.foldl_nil]
    by_cases first : 80 * k + n = 0
    · refine ⟨chunks, if_pos first, rising', fun c => (reads c).trans (if_congr ?_ rfl rfl)⟩
      omega
    · refine ⟨_, if_neg first, smapRising_chunkMapSet _ _ rising', fun c => ?_⟩
      rw [chunkIn_chunkMapSet rising', reads]
      by_cases last : c = 80 * k + n
      · rw [if_pos last, if_pos (by omega)]
      · rw [if_neg last]
        exact if_congr (by omega) rfl rfl

/-- A map block that cannot be read: its chunk entries are BAD, chunk 0 apart. -/
theorem loseMap_spec (k : Nat) (rising : smapRising s.med.chunks = true) : ∃ chunks,
    loseMap k s = { s with cat.fault := true, med.chunks := chunks } ∧ smapRising chunks = true
      ∧ ∀ c, chunkIn chunks c = if (c / 80 = k ∧ c < s.med.total) ∧ c ≠ 0 then lostChunk else s.chunkAt c := by
  obtain ⟨chunks, folds, rising', reads⟩ := loseChunks_spec k (min 80 (s.med.total - 80 * k)) rising
  refine ⟨chunks, congrArg setFault folds, rising', fun c => (reads c).trans (if_congr ?_ rfl rfl)⟩
  rw [inBlock_iff]

/-! ### What SUL makes of it -/

/-- The state a map block leaves, read OK or not. -/
def mapRead (ok : Bool) (b : List Byte) (k : Nat) (s : State) : State :=
  if ok then loadMap (blockPayload b) k s else loseMap k s

/-- A map block changes the map and the catalogue fault flag alone: how, where it is read and where it is not. -/
theorem mapRead_spec (ok : Bool) (b : List Byte) (k : Nat) (rising : smapRising s.med.chunks = true) : ∃ chunks fault,
    mapRead ok b k s = { s with cat.fault := fault, med.chunks := chunks } ∧ smapRising chunks = true
      ∧ (∀ c, c / 80 ≠ k → chunkIn chunks c = s.chunkAt c)
      ∧ (ok = true → (∀ c, c / 80 = k → c < s.med.total →
            chunkIn chunks c = (chunkOfBytes s.med.total c (mapEntry (blockPayload b) c)).getD lostChunk)
          ∧ (fault = true ↔ s.cat.fault = true
              ∨ ∃ c, (c / 80 = k ∧ c < s.med.total) ∧ chunkRejected s.med.total c (mapEntry (blockPayload b) c)))
      ∧ (ok = false → fault = true
          ∧ ∀ c, c / 80 = k → c < s.med.total → chunkIn chunks c = if c = 0 then s.chunkAt 0 else lostChunk) := by
  cases ok with
  | true =>
    obtain ⟨chunks, fault, loads, rising', reads, flag⟩ := loadMap_spec (blockPayload b) k rising
    exact ⟨chunks, fault, loads, rising', fun c other => (reads c).trans (if_neg (by omega)),
      fun _ => ⟨fun c block inside => (reads c).trans (if_pos ⟨block, inside⟩), flag⟩, fun is => by (cases is)⟩
  | false =>
    obtain ⟨chunks, loses, rising', reads⟩ := loseMap_spec k rising
    refine ⟨chunks, true, loses, rising', fun c other => (reads c).trans (if_neg (by omega)), fun is => by (cases is),
      fun _ => ⟨rfl, fun c block inside => (reads c).trans ?_⟩⟩
    by_cases first : c = 0
    · rw [if_pos first, if_neg (by omega), first]
    · rw [if_neg first, if_pos ⟨⟨block, inside⟩, first⟩]

theorem sulReadDone_map (ok : Bool) (phase : s.sul.phase = .maps k) :
    sulReadDone ok b s = sulSettle { mapRead ok b k s with sul.phase := .maps (k + 1) } := by
  unfold sulReadDone mapRead
  dsimp only
  rw [phase]

/-- While a map block is left to be read, SUL reads on. -/
theorem sulSettle_map (phase : s.sul.phase = .maps k) (left : k < (s.med.total + 79) / 80) : sulSettle s = s := by
  have stays : sulAdvance s = s := by
    unfold sulAdvance
    rw [phase]
    exact if_pos left
  unfold sulSettle
  rw [stays]
  dsimp only
  rw [phase]

end Maps

end Sys2Proof.Machine

/-! ## Proofs: the chain walks of reconciliation

SUPPORT. Where the walk of an entry gets to (R188, step 2), given which chunks earlier walks have reached. -/

namespace Sys2Proof.Machine

section Walks
variable {m : SMap Chunk} {total i k c : Nat} {e : Entry} {es : SMap Entry} {l R : List Nat} {start : Option Nat}

/-! ### A chain of chunks -/

/-- The chunk is in the store, and the entry's or BAD. -/
def Mine (m : SMap Chunk) (total i c : Nat) : Prop := c < total ∧ ((chunkIn m c).owner = .entry i ∨ (chunkIn m c).owner = .bad)

/-- The chunks of `l` follow one another in the map, from `start` on. -/
def Linked (m : SMap Chunk) : Option Nat → List Nat → Prop
  | _, [] => True
  | start, c :: t => start = some c ∧ Linked m (chunkIn m c).next t

/-- The place behind the chunks of `l`. -/
def behind (m : SMap Chunk) : Option Nat → List Nat → Option Nat
  | start, [] => start
  | _, c :: t => behind m (chunkIn m c).next t

theorem behind_last (m : SMap Chunk) (start : Option Nat) (l : List Nat) :
    behind m start l = l.getLast?.elim start fun d => (chunkIn m d).next := by
  induction l generalizing start with
  | nil => rfl
  | cons c t ih =>
    rw [behind, ih]
    cases t with
    | nil => rfl
    | cons d t => rw [List.getLast?_cons_cons, List.getLast?_cons, Option.elim_some, Option.elim_some]

/-- A list each of whose chunks is the next of the one before it. -/
theorem linked_of_steps {m : SMap Chunk} {l : List Nat} {first : Nat} (heads : ∀ c, l[0]? = some c → c = first)
    (steps : ∀ n c, l[n + 1]? = some c → (chunkIn m (l.getD n 0)).next = some c) : Linked m (some first) l := by
  have rest : ∀ (l : List Nat) (start : Option Nat), (∀ c, l[0]? = some c → start = some c) →
      (∀ n c, l[n + 1]? = some c → (chunkIn m (l.getD n 0)).next = some c) → Linked m start l := by
    intro l
    induction l with
    | nil => exact fun _ _ _ => trivial
    | cons c t ih => exact fun start heads steps => ⟨heads c rfl, ih _ (fun d is => steps 0 d is) (fun n d is => steps (n + 1) d is)⟩
  exact rest l (some first) (fun c is => congrArg some (heads c is).symm) steps

/-! ### One walk -/

theorem reached_subset_walkChain (m : SMap Chunk) (total i count : Nat) (start : Option Nat) (R : List Nat) :
    R ⊆ (walkChain m total i count start R).2 := by
  induction count generalizing start R with
  | zero => exact List.Subset.refl R
  | succ n ih =>
    cases start with
    | none => exact List.Subset.refl R
    | some c =>
      simp only [walkChain]
      split
      · exact List.Subset.refl R
      · exact List.Subset.trans (List.subset_cons_self c R) (ih _ _)

/-- A chain that is walked has not been reached before, and has been now. -/
theorem walkChain_some {count : Nat} (walks : (walkChain m total i count start R).1 = some l) :
    (∀ c ∈ l, c ∉ R) ∧ l ⊆ (walkChain m total i count start R).2 := by
  induction count generalizing start R l with
  | zero =>
    simp only [walkChain, Option.some.injEq] at walks
    simp [← walks]
  | succ n ih =>
    cases start with
    | none => simp [walkChain] at walks
    | some c =>
      simp only [walkChain] at walks ⊢
      split at walks
      · cases walks
      · next goes =>
        rw [if_neg goes]
        simp only [Option.map_eq_some_iff] at walks
        obtain ⟨t, walked, rfl⟩ := walks
        obtain ⟨fresh, reached⟩ := ih walked
        have own : c ∉ R := fun mem => goes (.inr (.inl (by simpa using mem)))
        refine ⟨fun d mem => ?_, fun d mem => ?_⟩
        · rcases List.mem_cons.mp mem with rfl | mem
          · exact own
          · exact fun old => fresh d mem (List.mem_cons_of_mem _ old)
        · rcases List.mem_cons.mp mem with rfl | mem
          · exact reached_subset_walkChain _ _ _ _ _ _ List.mem_cons_self
          · exact reached mem

/-- The walk passes along chunks that follow one another, are the entry's or BAD, and have not been reached. -/
theorem walkChain_along {count : Nat} (linked : Linked m start l) (distinct : l.Nodup) (own : ∀ c ∈ l, Mine m total i c)
    (fresh : ∀ c ∈ l, c ∉ R) (room : l.length ≤ count) : ∃ R', (∀ c, c ∈ R' ↔ c ∈ l ∨ c ∈ R)
      ∧ walkChain m total i count start R
        = ((walkChain m total i (count - l.length) (behind m start l) R').1.map (l ++ ·),
           (walkChain m total i (count - l.length) (behind m start l) R').2) := by
  induction l generalizing start R count with
  | nil => exact ⟨R, by simp, by simp [behind]⟩
  | cons c t ih =>
    obtain ⟨rfl, linked⟩ := linked
    obtain ⟨n, rfl⟩ : ∃ n, count = n + 1 := ⟨count - 1, by simp at room; omega⟩
    obtain ⟨off, distinct⟩ := List.nodup_cons.mp distinct
    obtain ⟨inside, owner⟩ := own c List.mem_cons_self
    have goes : ¬ (total ≤ c ∨ R.contains c = true ∨ ¬ ((chunkIn m c).owner = .entry i ∨ (chunkIn m c).owner = .bad)) := by
      have new : ¬ R.contains c = true := by simpa using fresh c List.mem_cons_self
      rintro (out | old | other)
      · omega
      · exact new old
      · exact other owner
    have next : ∀ d ∈ t, d ∉ c :: R := fun d mem old => by
      rcases List.mem_cons.mp old with rfl | old
      · exact off mem
      · exact fresh d (List.mem_cons_of_mem _ mem) old
    obtain ⟨R', reached, walks⟩ := ih (R := c :: R) (count := n) linked distinct (fun d mem => own d (List.mem_cons_of_mem _ mem)) next
      (by simpa using room)
    refine ⟨R', fun d => ?_, ?_⟩
    · rw [reached, List.mem_cons, List.mem_cons]
      tauto
    · rw [walkChain]
      dsimp only
      rw [if_neg goes, walks, List.length_cons, Nat.add_sub_add_right, behind, Option.map_map]
      rfl

/-- A walk that its count lets go on ends at a place that is no chunk of the entry's or has been reached. -/
theorem walkChain_stops {count : Nat} (left : 0 < count) (stops : ∀ c, start = some c → c ∈ R ∨ ¬ Mine m total i c) :
    walkChain m total i count start R = (none, R) := by
  obtain ⟨n, rfl⟩ : ∃ n, count = n + 1 := ⟨count - 1, by omega⟩
  cases start with
  | none => rfl
  | some c =>
    rw [walkChain]
    refine if_pos ?_
    rcases stops c rfl with old | other
    · exact .inr (.inl (by simpa using old))
    · by_cases inside : total ≤ c
      · exact .inl inside
      · exact .inr (.inr fun owner => other ⟨by omega, owner⟩)

/-! ### The walks of all entries -/

/-- An entry as step 1 leaves it. -/
def Entry.stepOne (e : Entry) : Entry := if e.state = .capturing then e.cutShort else e

theorem stepOne_fields (e : Entry) : e.stepOne.firstChunk = e.firstChunk ∧ e.stepOne.chunkCount = e.chunkCount
    ∧ e.stepOne.storedBlocks = e.storedBlocks := by
  unfold Entry.stepOne
  split <;> exact ⟨rfl, rfl, rfl⟩

/-- The chunks reached once the entries have been walked. -/
def reachedBy (m : SMap Chunk) (total : Nat) : SMap Entry → List Nat → List Nat
  | [], R => R
  | (i, e) :: rest, R =>
    if e.state = .receiving then reachedBy m total rest R else reachedBy m total rest (walkEntry m total i e.stepOne R).2

theorem walkAll_cons (i : Nat) (e : Entry) (live : e.state ≠ .receiving) : walkAll m total ((i, e) :: es) R
    = (i, e.stepOne, (walkEntry m total i e.stepOne R).1) :: walkAll m total es (walkEntry m total i e.stepOne R).2 := by
  rw [walkAll, if_neg live]
  rfl

theorem walkAll_append (a b : SMap Entry) (R : List Nat) :
    walkAll m total (a ++ b) R = walkAll m total a R ++ walkAll m total b (reachedBy m total a R) := by
  induction a generalizing R with
  | nil => rfl
  | cons p a ih =>
    obtain ⟨i, e⟩ := p
    by_cases live : e.state = .receiving
    · rw [List.cons_append, walkAll, if_pos live, walkAll, if_pos live, reachedBy, if_pos live, ih]
    · rw [List.cons_append, walkAll_cons i e live, walkAll_cons i e live, reachedBy, if_neg live, ih]
      rfl

theorem reachedBy_append (a b : SMap Entry) (R : List Nat) :
    reachedBy m total (a ++ b) R = reachedBy m total b (reachedBy m total a R) := by
  induction a generalizing R with
  | nil => rfl
  | cons p a ih =>
    rw [List.cons_append, reachedBy, reachedBy]
    split <;> exact ih _

theorem subset_walkEntry (m : SMap Chunk) (total i : Nat) (e : Entry) (R : List Nat) : R ⊆ (walkEntry m total i e R).2 := by
  unfold walkEntry
  split
  · exact List.Subset.refl R
  · exact reached_subset_walkChain ..

theorem subset_reachedBy (m : SMap Chunk) (total : Nat) (es : SMap Entry) (R : List Nat) : R ⊆ reachedBy m total es R := by
  induction es generalizing R with
  | nil => exact List.Subset.refl R
  | cons p es ih =>
    rw [reachedBy]
    split
    · exact ih R
    · exact List.Subset.trans (subset_walkEntry ..) (ih _)

theorem walkEntry_some (walks : (walkEntry m total i e R).1 = some l) :
    (∀ c ∈ l, c ∉ R) ∧ l ⊆ (walkEntry m total i e R).2 := by
  unfold walkEntry at walks ⊢
  split at walks
  · cases walks
  · next chained =>
    rw [if_neg chained]
    exact walkChain_some walks

/-- The chains walked are not reached before, and reached then. -/
theorem walkAll_reached (mem : (k, e, some l) ∈ walkAll m total es R) : (∀ c ∈ l, c ∉ R) ∧ l ⊆ reachedBy m total es R := by
  induction es generalizing R with
  | nil => simp [walkAll] at mem
  | cons p es ih =>
    obtain ⟨i, e₀⟩ := p
    by_cases live : e₀.state = .receiving
    · rw [walkAll, if_pos live] at mem
      rw [reachedBy, if_pos live]
      exact ih mem
    · rw [walkAll_cons i e₀ live] at mem
      rw [reachedBy, if_neg live]
      rcases List.mem_cons.mp mem with own | mem
      · obtain ⟨-, -, walks⟩ : k = i ∧ e = e₀.stepOne ∧ some l = (walkEntry m total i e₀.stepOne R).1 := by simpa using own
        obtain ⟨fresh, reached⟩ := walkEntry_some walks.symm
        exact ⟨fresh, List.Subset.trans reached (subset_reachedBy ..)⟩
      · obtain ⟨fresh, reached⟩ := ih mem
        exact ⟨fun c at_ old => fresh c at_ (subset_walkEntry _ _ _ _ _ old), reached⟩

/-! ### A chain no earlier walk reaches -/

/-- `l` is a chain of entry `i` which no entry before it leads into. -/
def Walked (m : SMap Chunk) (total : Nat) (es : SMap Entry) (i : Nat) (e : Entry) (l : List Nat) : Prop :=
  l.Nodup ∧ (∀ c, l[0]? = some c → c = e.firstChunk) ∧ (∀ n c, l[n + 1]? = some c → (chunkIn m (l.getD n 0)).next = some c)
    ∧ ∀ c ∈ l, Mine m total i c ∧ ((chunkIn m c).owner = .bad →
        (∀ d, (chunkIn m d).next = some c → d ∈ l ∨ ∀ i', i' < i → ¬ Mine m total i' d)
          ∧ ∀ i' e', i' < i → smapGet es i' = some e' → e'.state ≠ .receiving → e'.firstChunk ≠ c)

theorem Walked.linked (h : Walked m total es i e l) : Linked m (some e.firstChunk) l := linked_of_steps h.2.1 h.2.2.1

/-- A walk of another entry, which neither starts in the chain nor has reached it, does not reach it. -/
theorem walkChain_avoids {count : Nat} (earlier : k < i) (chain : Walked m total es i e l)
    (starts : ∀ c, start = some c → Mine m total k c → c ∉ l) (fresh : ∀ c ∈ l, c ∉ R) :
    ∀ c ∈ l, c ∉ (walkChain m total k count start R).2 := by
  obtain ⟨-, -, -, own⟩ := chain
  induction count generalizing start R with
  | zero => exact fresh
  | succ n ih =>
    cases start with
    | none => exact fresh
    | some d =>
      simp only [walkChain]
      split
      · exact fresh
      · next goes =>
        rw [not_or, not_or, not_not] at goes
        have mine : Mine m total k d := ⟨Nat.lt_of_not_le goes.1, goes.2.2⟩
        have off : d ∉ l := starts d rfl mine
        refine ih (fun c next minec mem => ?_) (fun c mem old => ?_)
        · obtain ⟨⟨-, owner⟩, leads⟩ := own c mem
          rcases owner with owner | bad
          · rcases minec.2 with other | bad
            · rw [owner] at other
              cases other
              omega
            · rw [owner] at bad
              cases bad
          · rcases (leads bad).1 d next with within | none_
            · exact off within
            · exact none_ k earlier mine
        · rcases List.mem_cons.mp old with rfl | old
          · exact off mem
          · exact fresh c mem old

/-- The entries before `i` reach no chunk of a chain that none of them leads into. -/
theorem reachedBy_avoids {before : SMap Entry} (chain : Walked m total es i e l)
    (earlier : ∀ p ∈ before, p.1 < i ∧ smapGet es p.1 = some p.2) (fresh : ∀ c ∈ l, c ∉ R) :
    ∀ c ∈ l, c ∉ reachedBy m total before R := by
  induction before generalizing R with
  | nil => exact fresh
  | cons p rest ih =>
    obtain ⟨k, e'⟩ := p
    obtain ⟨low, is⟩ := earlier (k, e') List.mem_cons_self
    have others : ∀ p ∈ rest, p.1 < i ∧ smapGet es p.1 = some p.2 := fun p mem => earlier p (List.mem_cons_of_mem _ mem)
    rw [reachedBy]
    split
    · exact ih others fresh
    · next live =>
      refine ih others ?_
      unfold walkEntry
      split
      · exact fresh
      · refine walkChain_avoids low chain (fun c first mine mem => ?_) fresh
        have first' : e'.firstChunk = c := (stepOne_fields e').1.symm.trans (Option.some.inj first)
        obtain ⟨⟨-, owner⟩, leads⟩ := chain.2.2.2 c mem
        rcases owner with owner | bad
        · rcases mine.2 with other | bad
          · rw [owner] at other
            cases other
            omega
          · rw [owner] at bad
            cases bad
        · exact (leads bad).2 k e' low is live first'

end Walks

end Sys2Proof.Machine

/-! ## Proofs: what reconciliation keeps

SUPPORT. The entries and chunks reconciliation keeps and frees, along a chain that no earlier entry leads into (R188, steps 2 to 4). -/

namespace Sys2Proof.Machine

section Kept
variable {m : SMap Chunk} {total i k c : Nat} {e e' : Entry} {es : SMap Entry} {l l' R : List Nat} {used : List (Nat × Nat)}
  {chains : List (List (Nat × Nat))} {ch : Chunk}

/-! ### The walk along a chain -/

/-- An entry divides the catalogue into those before it and those behind it. -/
theorem smap_split (rising : smapRising es = true) (he : smapGet es i = some e) : ∃ before later, es = before ++ (i, e) :: later
    ∧ (∀ p ∈ before, p.1 < i ∧ smapGet es p.1 = some p.2) ∧ ∀ p ∈ later, i < p.1 := by
  obtain ⟨before, later, is⟩ := List.append_of_mem (smapGet_some_mem he)
  have order := (smapRising_iff es).mp rising
  rw [is] at order
  obtain ⟨-, behind_, across⟩ := List.pairwise_append.mp order
  refine ⟨before, later, is, fun p mem => ⟨across p mem (i, e) List.mem_cons_self, smapGet_of_mem rising ?_⟩,
    fun p mem => (List.pairwise_cons.mp behind_).1 p mem⟩
  rw [is]
  exact List.mem_append_left _ mem

/-- The walk of an entry goes along its chain, as far as its count lets it. -/
theorem walkEntry_along (chain : Walked m total es i e l) (first : e.firstChunk ≠ 0) (counted : e.chunkCount ≠ 0)
    (room : l.length ≤ e.chunkCount) (fresh : ∀ c ∈ l, c ∉ R) : ∃ R', (∀ c, c ∈ R' ↔ c ∈ l ∨ c ∈ R)
      ∧ walkEntry m total i e.stepOne R
        = ((walkChain m total i (e.chunkCount - l.length) (behind m (some e.firstChunk) l) R').1.map (l ++ ·),
           (walkChain m total i (e.chunkCount - l.length) (behind m (some e.firstChunk) l) R').2) := by
  obtain ⟨firsts, counts, -⟩ := stepOne_fields e
  have chained : ¬ (e.stepOne.firstChunk = 0 ∨ e.stepOne.chunkCount = 0) := by
    rw [firsts, counts]
    exact not_or.mpr ⟨first, counted⟩
  obtain ⟨R', reached, walks⟩ := walkChain_along chain.linked chain.1 (fun c mem => (chain.2.2.2 c mem).1) fresh room
  refine ⟨R', reached, ?_⟩
  rw [walkEntry, if_neg chained, firsts, counts]
  exact walks

/-- What the walks make of an entry whose chain no earlier entry leads into: the walk goes on behind the chain from what has
been reached, no other entry walks a chunk of it, and the chains of earlier entries are reached. -/
theorem walkAll_chain (rising : smapRising es = true) (he : smapGet es i = some e) (live : e.state ≠ .receiving)
    (chain : Walked m total es i e l) (first : e.firstChunk ≠ 0) (counted : e.chunkCount ≠ 0) (room : l.length ≤ e.chunkCount) :
    ∃ R walk, (∀ c ∈ l, c ∈ R)
      ∧ walk = (walkChain m total i (e.chunkCount - l.length) (behind m (some e.firstChunk) l) R).1.map (l ++ ·)
      ∧ (i, e.stepOne, walk) ∈ walkAll m total es []
      ∧ (∀ k e' l', (k, e', some l') ∈ walkAll m total es [] → k = i ∨ (∃ c ∈ l, c ∈ l') →
          k = i ∧ e' = e.stepOne ∧ walk = some l')
      ∧ ∀ k e' l', k < i → smapGet es k = some e' → e'.state ≠ .receiving → e'.firstChunk ≠ 0 →
          Walked m total es k e' l' → l'.length ≤ e'.chunkCount → ∀ c ∈ l', c ∈ R := by
  obtain ⟨before, later, is, earlier, afterwards⟩ := smap_split rising he
  have fresh : ∀ c ∈ l, c ∉ reachedBy m total before [] := reachedBy_avoids chain earlier (fun _ _ => List.not_mem_nil)
  obtain ⟨R, reached, walks⟩ := walkEntry_along chain first counted room fresh
  have all : walkAll m total es [] = walkAll m total before []
      ++ (i, e.stepOne, (walkEntry m total i e.stepOne (reachedBy m total before [])).1)
        :: walkAll m total later (walkEntry m total i e.stepOne (reachedBy m total before [])).2 := by
    rw [is, walkAll_append, walkAll_cons i e live]
  have known : l ⊆ (walkEntry m total i e.stepOne (reachedBy m total before [])).2 := by
    rw [walks]
    exact fun c mem => reached_subset_walkChain _ _ _ _ _ _ ((reached c).mpr (.inl mem))
  refine ⟨R, _, fun c mem => (reached c).mpr (.inl mem), rfl, ?_, fun k e' l' mem meets => ?_, fun k e' l' low he' live' first' chain' room' => ?_⟩
  · rw [all, walks]
    exact List.mem_append_right _ List.mem_cons_self
  · rw [all] at mem
    rcases List.mem_append.mp mem with mem | mem
    · exfalso
      obtain ⟨-, inside⟩ := walkAll_reached mem
      obtain ⟨e₀, at_, -⟩ := mem_walkAll mem
      rcases meets with same | ⟨c, own, other⟩
      · exact absurd ((earlier _ at_).1) (by simp [same])
      · exact fresh c own (inside other)
    rcases List.mem_cons.mp mem with own | mem
    · rw [Prod.mk.injEq, Prod.mk.injEq, walks] at own
      obtain ⟨same, entry, walk⟩ := own
      exact ⟨same, entry, walk.symm⟩
    · exfalso
      obtain ⟨new, -⟩ := walkAll_reached mem
      obtain ⟨e₀, at_, -⟩ := mem_walkAll mem
      rcases meets with same | ⟨c, own, other⟩
      · exact absurd (afterwards _ at_) (by simp [same])
      · exact new c other (known own)
  · intro c mem
    have at_ : (k, e') ∈ before := by
      have within := smapGet_some_mem he'
      rw [is] at within
      rcases List.mem_append.mp within with within | within
      · exact within
      · rcases List.mem_cons.mp within with own | within
        · cases own
          omega
        · have := afterwards _ within
          omega
    have counted' : e'.chunkCount ≠ 0 := by
      have := List.length_pos_of_mem mem
      omega
    obtain ⟨b, d, splits⟩ := List.append_of_mem at_
    have ordered := (smapRising_iff es).mp rising
    rw [is, splits, List.append_assoc, List.cons_append] at ordered
    have below : ∀ p ∈ b, p.1 < k ∧ smapGet es p.1 = some p.2 := fun p mem =>
      ⟨(List.pairwise_append.mp ordered).2.2 p mem (k, e') List.mem_cons_self,
        (earlier p (by rw [splits]; exact List.mem_append_left _ mem)).2⟩
    obtain ⟨R₁, reached₁, walks₁⟩ := walkEntry_along chain' first' counted' room'
      (reachedBy_avoids (R := []) chain' below (fun _ _ => List.not_mem_nil))
    refine (reached c).mpr (.inr ?_)
    rw [splits, reachedBy_append, reachedBy, if_neg live', walks₁]
    exact subset_reachedBy _ _ _ _ (reached_subset_walkChain _ _ _ _ _ _ ((reached₁ c).mpr (.inl mem)))

/-! ### The chains that are kept (step 3) -/

/-- The entries that are kept through steps 2 and 3, each with the blocks used along its chain. -/
def keptChains (m : SMap Chunk) (total : Nat) (es : SMap Entry) : List (Nat × Entry × List (Nat × Nat)) :=
  (walkAll m total es []).filterMap fun (i, e, chain) =>
    (chain.bind fun l => chainUsed m e.storedBlocks l 0).map fun used => (i, e, used)

theorem reconciled_entries_eq (m : SMap Chunk) (total : Nat) (es : SMap Entry) : (reconciled m total es).entries
    = (keptChains m total es).map fun p =>
        (p.1, if p.2.1.placement = .inProgress then { p.2.1 with placement := .queued } else p.2.1) := rfl

theorem reconciled_chunks_eq (m : SMap Chunk) (total : Nat) (es : SMap Entry) : (reconciled m total es).chunks
    = (m.map fun p => (p.1, settledChunk ((keptChains m total es).map (·.2.2)) p.1 p.2)).filter (fun p => p.2 ≠ freeChunk) := rfl

theorem mem_keptChains : (k, e', used) ∈ keptChains m total es
    ↔ ∃ l', (k, e', some l') ∈ walkAll m total es [] ∧ chainUsed m e'.storedBlocks l' 0 = some used := by
  simp only [keptChains, List.mem_filterMap, Option.map_eq_some_iff, Option.bind_eq_some_iff]
  constructor
  · rintro ⟨⟨k', e₁, walk⟩, mem, used', ⟨l', is, uses⟩, same⟩
    cases same
    exact ⟨l', is ▸ mem, uses⟩
  · rintro ⟨l', mem, uses⟩
    exact ⟨_, mem, used, ⟨l', rfl, uses⟩, rfl⟩

/-- An entry is kept where its chain is. -/
theorem reconciled_entry_kept (rising : smapRising es = true) (chunks : smapRising m = true) :
    smapGet (reconciled m total es).entries i ≠ none ↔ ∃ e' used, (i, e', used) ∈ keptChains m total es := by
  rw [← Option.isSome_iff_ne_none, Option.isSome_iff_exists]
  constructor
  · rintro ⟨e₁, is⟩
    have mem := smapGet_some_mem is
    rw [reconciled_entries_eq] at mem
    obtain ⟨⟨k', e', used⟩, kept, same⟩ := List.mem_map.mp mem
    cases same
    exact ⟨e', used, kept⟩
  · rintro ⟨e', used, mem⟩
    refine ⟨if e'.placement = .inProgress then { e' with placement := .queued } else e',
      smapGet_of_mem (reconciled_rising m total es chunks rising).1 ?_⟩
    rw [reconciled_entries_eq]
    exact List.mem_map.mpr ⟨_, mem, rfl⟩

/-! ### The blocks used along a chain -/

/-- The blocks a chunk before the last of a chain holds. -/
def usedAlong (m : SMap Chunk) (c : Nat) : Nat := if (chunkIn m c).owner = .bad then (chunkIn m c).used else 4096

/-- The stored blocks end in the last chunk of a chain, `before` blocks standing in the chunks before it. -/
def ChainFits (m : SMap Chunk) (stored before last : Nat) : Prop :=
  if (chunkIn m last).owner = .bad then before + (chunkIn m last).used = stored else before < stored ∧ stored ≤ before + 4096

/-- What step 3 makes of a chain with its last chunk. -/
def chainUses (m : SMap Chunk) (stored before : Nat) (front : List Nat) (last : Nat) : List (Nat × Nat) :=
  front.map (fun c => (c, usedAlong m c)) ++ [(last, stored - (before + (front.map (usedAlong m)).sum))]

theorem chainUsed_single (m : SMap Chunk) (stored before last : Nat) :
    (ChainFits m stored before last → chainUsed m stored [last] before = some [(last, stored - before)])
      ∧ (¬ ChainFits m stored before last → chainUsed m stored [last] before = none) := by
  unfold ChainFits
  simp only [chainUsed]
  by_cases bad : (chunkIn m last).owner = .bad
  · rw [if_pos bad, if_pos bad]
    refine ⟨fun fits => ?_, fun misfit => if_neg misfit⟩
    rw [if_pos fits, ← fits, Nat.add_sub_cancel_left]
  · rw [if_neg bad, if_neg bad]
    exact ⟨fun fits => if_pos fits, fun misfit => if_neg misfit⟩

theorem chainUsed_cons (m : SMap Chunk) (stored before c : Nat) (front : List Nat) (last : Nat) :
    chainUsed m stored (c :: (front ++ [last])) before
      = (chainUsed m stored (front ++ [last]) (before + usedAlong m c)).map ((c, usedAlong m c) :: ·) := by
  cases front <;> rfl

/-- Step 3 of a chain whose last chunk is `last`. -/
theorem chainUsed_chain (m : SMap Chunk) (stored before : Nat) (front : List Nat) (last : Nat) :
    (ChainFits m stored (before + (front.map (usedAlong m)).sum) last →
        chainUsed m stored (front ++ [last]) before = some (chainUses m stored before front last))
      ∧ (¬ ChainFits m stored (before + (front.map (usedAlong m)).sum) last → chainUsed m stored (front ++ [last]) before = none) := by
  induction front generalizing before with
  | nil => exact chainUsed_single m stored before last
  | cons c front ih =>
    obtain ⟨fits, misfits⟩ := ih (before + usedAlong m c)
    rw [List.cons_append, chainUsed_cons, List.map_cons, List.sum_cons, ← Nat.add_assoc]
    refine ⟨fun is => ?_, fun isnt => ?_⟩
    · rw [fits is, chainUses, chainUses, List.map_cons, List.map_cons, List.sum_cons, ← Nat.add_assoc]
      rfl
    · rw [misfits isnt]
      rfl

theorem chainUses_fst (m : SMap Chunk) (stored before : Nat) (front : List Nat) (last : Nat) :
    (chainUses m stored before front last).map (·.1) = front ++ [last] := by
  simp [chainUses, List.map_map, Function.comp_def]

/-! ### The chunks (steps 3 and 4) -/

/-- A chunk on no chain that is kept. -/
theorem settledChunk_off (off : ∀ used ∈ chains, c ∉ used.map (·.1)) :
    (ch.owner = .bad → settledChunk chains c ch = lostChunk) ∧ ∀ i, ch.owner = .entry i → settledChunk chains c ch = freeChunk := by
  have none_ : chains.find? (fun l => l.any (fun p => p.1 == c)) = none := by
    rw [List.find?_eq_none]
    intro used mem any
    rw [List.any_eq_true] at any
    obtain ⟨p, at_, is⟩ := any
    exact off used mem (List.mem_map.mpr ⟨p, at_, by simpa using is⟩)
  unfold settledChunk
  rw [none_]
  exact ⟨fun bad => by rw [bad], fun i owner => by rw [owner]⟩

/-- A chunk on one chain that is kept. -/
theorem settledChunk_on {n : Nat} (mem : used ∈ chains) (alone : ∀ other ∈ chains, c ∈ other.map (·.1) → other = used)
    (holds : (c, n) ∈ used) (distinct : (used.map (·.1)).Nodup) : settledChunk chains c ch
      = { ch with used := n, next := if used.getLast?.map (·.1) = some c then none else ch.next } := by
  have found : chains.find? (fun l => l.any (fun p => p.1 == c)) = some used := by
    cases is : chains.find? (fun l => l.any (fun p => p.1 == c)) with
    | none =>
      have none_ := List.find?_eq_none.mp is used mem
      exact absurd (List.any_eq_true.mpr ⟨(c, n), holds, by simp⟩) none_
    | some other =>
      have any := List.find?_some is
      rw [List.any_eq_true] at any
      obtain ⟨p, at_, same⟩ := any
      rw [alone other (List.mem_of_find?_eq_some is) (List.mem_map.mpr ⟨p, at_, by simpa using same⟩)]
  have place : used.find? (fun p => p.1 == c) = some (c, n) := by
    cases is : used.find? (fun p => p.1 == c) with
    | none => exact absurd (List.find?_eq_none.mp is (c, n) holds) (by simp)
    | some p =>
      have same : p.1 = c := by simpa using List.find?_some is
      have eq := List.inj_on_of_nodup_map distinct (List.mem_of_find?_eq_some is) holds same
      rw [eq]
  unfold settledChunk
  rw [found]
  dsimp only
  rw [place]

/-- A chunk that is listed reads as steps 3 and 4 leave it. -/
theorem reconciled_chunkIn (entries : smapRising es = true) (rising : smapRising m = true) (listed : smapGet m c = some ch) :
    chunkIn (reconciled m total es).chunks c = settledChunk ((keptChains m total es).map (·.2.2)) c ch := by
  have order := (reconciled_rising m total es rising entries).2
  have mem : (c, settledChunk ((keptChains m total es).map (·.2.2)) c ch)
      ∈ m.map fun p => (p.1, settledChunk ((keptChains m total es).map (·.2.2)) p.1 p.2) :=
    List.mem_map.mpr ⟨(c, ch), smapGet_some_mem listed, rfl⟩
  by_cases free : settledChunk ((keptChains m total es).map (·.2.2)) c ch = freeChunk
  · rw [free, chunkIn]
    cases is : smapGet (reconciled m total es).chunks c with
    | none => rfl
    | some ch' =>
      have at_ := smapGet_some_mem is
      rw [reconciled_chunks_eq] at at_
      obtain ⟨at_, kept⟩ := List.mem_filter.mp at_
      obtain ⟨⟨c', ch₀⟩, mem₀, same⟩ := List.mem_map.mp at_
      cases same
      have own := (smapGet_of_mem rising mem₀).symm.trans listed
      cases own
      exact absurd free (by simpa using kept)
  · rw [chunkIn, smapGet_of_mem order (a := settledChunk ((keptChains m total es).map (·.2.2)) c ch)]
    · rfl
    · rw [reconciled_chunks_eq]
      exact List.mem_filter.mpr ⟨mem, by simpa using free⟩

/-- A chunk of an entry's or BAD is listed. -/
theorem listed_of_mine (mine : Mine m total i c) : smapGet m c = some (chunkIn m c) := by
  unfold Mine chunkIn at mine
  unfold chunkIn
  cases is : smapGet m c with
  | none =>
    rw [is] at mine
    rcases mine.2 with own | bad
    · cases own
    · cases bad
  | some ch => rfl

/-! ### Kept or freed -/

/-- What reconciliation makes of an entry it frees, and of the chunks walked for it. -/
def Freed (m : SMap Chunk) (total : Nat) (es : SMap Entry) (i : Nat) (l : List Nat) : Prop :=
  smapGet (reconciled m total es).entries i = none
    ∧ ∀ c ∈ l, chunkIn (reconciled m total es).chunks c = if (chunkIn m c).owner = .bad then lostChunk else freeChunk

/-- An entry without a kept chain, none of whose chunks is on another, is freed. -/
theorem freed_of_unkept (rising : smapRising es = true) (chunks : smapRising m = true) (own : ∀ c ∈ l, Mine m total i c)
    (unkept : ∀ k e' used, (k, e', used) ∈ keptChains m total es → k ≠ i ∧ ∀ c ∈ l, c ∉ used.map (·.1)) : Freed m total es i l := by
  refine ⟨?_, fun c mem => ?_⟩
  · by_contra kept
    obtain ⟨e', used, mem⟩ := (reconciled_entry_kept rising chunks).mp kept
    exact (unkept i e' used mem).1 rfl
  · have off : ∀ used ∈ (keptChains m total es).map (·.2.2), c ∉ used.map (·.1) := fun used at_ => by
      obtain ⟨⟨k, e', used'⟩, kept, rfl⟩ := List.mem_map.mp at_
      exact (unkept k e' used' kept).2 c mem
    obtain ⟨bad, owned⟩ := settledChunk_off (ch := chunkIn m c) off
    rw [reconciled_chunkIn rising chunks (listed_of_mine (own c mem))]
    by_cases lost : (chunkIn m c).owner = .bad
    · rw [if_pos lost, bad lost]
    · rw [if_neg lost]
      exact owned i ((own c mem).2.resolve_right lost)

/-- A chain that breaks before its count is reached frees the entry (step 2). -/
theorem freed_of_break (rising : smapRising es = true) (chunks : smapRising m = true) (he : smapGet es i = some e)
    (live : e.state ≠ .receiving) (chain : Walked m total es i e l) (first : e.firstChunk ≠ 0) (short : l.length < e.chunkCount)
    (stops : ∀ c, behind m (some e.firstChunk) l = some c → c ∈ l ∨ ¬ Mine m total i c
      ∨ ∃ i' e' l', i' < i ∧ smapGet es i' = some e' ∧ e'.state ≠ .receiving ∧ e'.firstChunk ≠ 0
        ∧ Walked m total es i' e' l' ∧ l'.length ≤ e'.chunkCount ∧ c ∈ l') : Freed m total es i l := by
  obtain ⟨R, walk, own, walks, -, alone, earlier⟩ := walkAll_chain rising he live chain first (by omega) (Nat.le_of_lt short)
  have breaks := walkChain_stops (m := m) (total := total) (i := i) (R := R) (start := behind m (some e.firstChunk) l)
    (count := e.chunkCount - l.length) (by omega) fun c next => by
      rcases stops c next with mem | other | ⟨i', e', l', low, he', live', first', chain', room', mem⟩
      · exact .inl (own c mem)
      · exact .inr other
      · exact .inl (earlier i' e' l' low he' live' first' chain' room' c mem)
  rw [breaks] at walks
  refine freed_of_unkept rising chunks (fun c mem => (chain.2.2.2 c mem).1) fun k e' used mem => ?_
  obtain ⟨l', walked, uses⟩ := mem_keptChains.mp mem
  have none_ : ¬ (k = i ∨ ∃ c ∈ l, c ∈ l') := fun meets => by
    have is := (alone k e' l' walked meets).2.2
    rw [walks] at is
    cases is
  rw [fst_of_chainUsed uses]
  exact ⟨fun same => none_ (.inl same), fun c mem at_ => none_ (.inr ⟨c, mem, at_⟩)⟩

/-- A whole chain is kept where the stored blocks end in its last chunk, and frees the entry where they do not (step 3). -/
theorem kept_of_whole {last : Nat} {front : List Nat} (rising : smapRising es = true) (chunks : smapRising m = true)
    (he : smapGet es i = some e) (live : e.state ≠ .receiving) (chain : Walked m total es i e (front ++ [last]))
    (first : e.firstChunk ≠ 0) (whole : (front ++ [last]).length = e.chunkCount) :
    (ChainFits m e.storedBlocks ((front.map (usedAlong m)).sum) last →
        smapGet (reconciled m total es).entries i ≠ none
          ∧ (∀ c ∈ front, chunkIn (reconciled m total es).chunks c = { chunkIn m c with used := usedAlong m c })
          ∧ chunkIn (reconciled m total es).chunks last
            = { chunkIn m last with next := none, used := e.storedBlocks - (front.map (usedAlong m)).sum })
      ∧ (¬ ChainFits m e.storedBlocks ((front.map (usedAlong m)).sum) last → Freed m total es i (front ++ [last])) := by
  have counted : e.chunkCount ≠ 0 := by
    rw [← whole]
    simp
  obtain ⟨R, walk, -, walks, mem, alone, -⟩ := walkAll_chain rising he live chain first counted (Nat.le_of_eq whole)
  have own (c : Nat) (at_ : c ∈ front ++ [last]) : Mine m total i c := (chain.2.2.2 c at_).1
  rw [whole, Nat.sub_self, walkChain, Option.map_some, List.append_nil] at walks
  rw [walks] at mem alone
  obtain ⟨fits, misfits⟩ := chainUsed_chain m e.stepOne.storedBlocks 0 front last
  rw [(stepOne_fields e).2.2, Nat.zero_add] at fits misfits
  refine ⟨fun is => ?_, fun isnt => ?_⟩
  · have kept : (i, e.stepOne, chainUses m e.storedBlocks 0 front last) ∈ keptChains m total es :=
      mem_keptChains.mpr ⟨_, mem, by rw [(stepOne_fields e).2.2]; exact fits is⟩
    have sole : ∀ c ∈ front ++ [last], ∀ other ∈ (keptChains m total es).map (·.2.2), c ∈ other.map (·.1) →
        other = chainUses m e.storedBlocks 0 front last := by
      intro c at_ other mem' on
      obtain ⟨⟨k, e', used⟩, kept', rfl⟩ := List.mem_map.mp mem'
      obtain ⟨l', walked, uses⟩ := mem_keptChains.mp kept'
      rw [fst_of_chainUsed uses] at on
      obtain ⟨-, entry, same⟩ := alone k e' l' walked (.inr ⟨c, at_, on⟩)
      cases same
      rw [entry, (stepOne_fields e).2.2, fits is] at uses
      exact (Option.some.inj uses).symm
    have distinct : ((chainUses m e.storedBlocks 0 front last).map (·.1)).Nodup := by
      rw [chainUses_fst]
      exact chain.1
    have ends : (chainUses m e.storedBlocks 0 front last).getLast?.map (·.1) = some last := by
      rw [chainUses, List.getLast?_append, List.getLast?_singleton]
      rfl
    have settles {n : Nat} (c : Nat) (at_ : c ∈ front ++ [last]) (holds : (c, n) ∈ chainUses m e.storedBlocks 0 front last) :
        chunkIn (reconciled m total es).chunks c
          = { chunkIn m c with used := n, next := if last = c then none else (chunkIn m c).next } := by
      rw [reconciled_chunkIn rising chunks (listed_of_mine (own c at_)),
        settledChunk_on (List.mem_map.mpr ⟨_, kept, rfl⟩) (sole c at_) holds distinct, ends]
      simp only [Option.some.injEq]
    refine ⟨(reconciled_entry_kept rising chunks).mpr ⟨_, _, kept⟩, fun c at_ => ?_, ?_⟩
    · have other : last ≠ c := fun same =>
        (List.nodup_append.mp chain.1).2.2 c at_ last (List.mem_singleton.mpr rfl) same.symm
      rw [settles c (List.mem_append_left _ at_) (List.mem_append_left _ (List.mem_map.mpr ⟨c, at_, rfl⟩)), if_neg other]
    · rw [settles (n := e.storedBlocks - (front.map (usedAlong m)).sum) last (List.mem_append_right _ (List.mem_singleton.mpr rfl))
        (List.mem_append_right _ (List.mem_singleton.mpr (by rw [Nat.zero_add]))), if_pos rfl]
  · refine freed_of_unkept rising chunks own fun k e' used mem' => ?_
    obtain ⟨l', walked, uses⟩ := mem_keptChains.mp mem'
    have none_ : ¬ (k = i ∨ ∃ c ∈ front ++ [last], c ∈ l') := fun meets => by
      obtain ⟨-, entry, same⟩ := alone k e' l' walked meets
      cases same
      rw [entry, (stepOne_fields e).2.2, misfits isnt] at uses
      cases uses
    rw [fst_of_chainUsed uses]
    exact ⟨fun same => none_ (.inl same), fun c at_ on => none_ (.inr ⟨c, at_, on⟩)⟩

end Kept

end Sys2Proof.Machine

/-! ## Proofs: the last map block and reconciliation

SUPPORT. What SUL leaves once the whole map is read (R188). -/

namespace Sys2Proof.Machine

section Reconciling
variable {s u w : State} {i k c : Nat} {e e' : Entry} {l : List Nat}

/-- The state reconciliation leaves, before completion or with it. -/
structure Reconciles (w u : State) : Prop where
  entries : u.cat.entries = (reconciled w.med.chunks w.med.total w.cat.entries).entries
  wt : u.cat.wt
    = (changedKeys w.cat.entries (reconciled w.med.chunks w.med.total w.cat.entries).entries).map WtItem.entry
  fault : u.cat.fault
    = (w.cat.fault || anyBroken w.cat.entries (reconciled w.med.chunks w.med.total w.cat.entries).entries)
  reserved : u.cat.reserved = 0
  chunks : u.med.chunks = (reconciled w.med.chunks w.med.total w.cat.entries).chunks
  free : u.med.free = w.med.total - (takenChunks (reconciled w.med.chunks w.med.total w.cat.entries).chunks).length
  bad : u.med.bad = (reconciled w.med.chunks w.med.total w.cat.entries).chunks.countP (fun p => p.2.owner == .bad)
  pledged : u.med.pledged = 0
  phase : u.sul.phase = .complete ∧ (reconciled w.med.chunks w.med.total w.cat.entries).made = []
    ∨ u.sul.phase = .heads (reconciled w.med.chunks w.med.total w.cat.entries).made 0
      ∧ (reconciled w.med.chunks w.med.total w.cat.entries).made ≠ []

/-- Reconciliation goes on to completion where no head block is to be written. -/
theorem sulSettle_reconcile (advances : sulAdvance w = reconcile w) : sulSettle w
    = if (reconciled w.med.chunks w.med.total w.cat.entries).made = [] then completeStartUp (reconcile w) else reconcile w := by
  unfold sulSettle
  rw [advances]
  dsimp only
  cases made : (reconciled w.med.chunks w.med.total w.cat.entries).made with
  | nil =>
    have phase : (reconcile w).sul.phase = .heads [] 0 := congrArg (SulPhase.heads · 0) made
    rw [phase, if_pos rfl]
  | cons i rest =>
    have phase : (reconcile w).sul.phase = .heads (i :: rest) 0 := congrArg (SulPhase.heads · 0) made
    rw [phase, if_neg (by simp)]

theorem sulSettle_reconciles (advances : sulAdvance w = reconcile w) : Reconciles w (sulSettle w) := by
  rw [sulSettle_reconcile advances]
  by_cases made : (reconciled w.med.chunks w.med.total w.cat.entries).made = []
  · rw [if_pos made]
    have completes := completeStartUp_spec (reconcile w)
    refine ⟨?_, ?_, ?_, ?_, ?_, ?_, ?_, ?_, .inl ⟨completes.phase, made⟩⟩
    · rw [completes.cat]; rfl
    · rw [completes.cat]; rfl
    · rw [completes.cat]; rfl
    · rw [completes.cat]; rfl
    · rw [completes.med]; rfl
    · rw [completes.med]; rfl
    · rw [completes.med]; rfl
    · rw [completes.med]; rfl
  · rw [if_neg made]
    exact ⟨rfl, rfl, rfl, rfl, rfl, rfl, rfl, rfl, .inr ⟨rfl, made⟩⟩

theorem sulAdvance_map (phase : w.sul.phase = .maps k) (done : (w.med.total + 79) / 80 ≤ k) : sulAdvance w = reconcile w := by
  unfold sulAdvance
  rw [phase]
  exact if_neg (Nat.not_lt.mpr done)

theorem sulAdvance_prepare {offset faults : Nat} (phase : w.sul.phase = .prepare offset faults)
    (done : 2049 + (w.med.total + 79) / 80 ≤ offset) : sulAdvance w = reconcile w := by
  unfold sulAdvance
  rw [phase]
  exact if_neg (Nat.not_lt.mpr done)

/-! ### What the catalogue holds then -/

/-- Steps 1 and 5 of an entry that is kept. -/
theorem reconciled_fields (e : Entry) : e.reconciled
    = { (if e.state = .capturing then { e with state := .incomplete, endCause := some .reset } else e) with
        placement := if e.placement = .inProgress then .queued else e.placement } := by
  unfold Entry.reconciled Entry.cutShort
  by_cases capturing : e.state = .capturing
  · simp only [if_pos capturing]
    split <;> rfl
  · simp only [if_neg capturing]
    split <;> rfl

/-- An entry whose walk breaks or which does not fit its chain sets the catalogue fault flag. -/
theorem anyBroken_of_freed {before after_ : SMap Entry} (he : smapGet before i = some e) (live : e.state ≠ .receiving)
    (gone : smapGet after_ i = none) (rising : smapRising after_ = true) : anyBroken before after_ = true := by
  rw [anyBroken, List.any_eq_true]
  refine ⟨(i, e), smapGet_some_mem he, ?_⟩
  rw [Bool.and_eq_true, bne_iff_ne, Bool.not_eq_true', List.any_eq_false]
  refine ⟨live, fun p mem same => ?_⟩
  have own : p.1 = i := by simpa using same
  have is := smapGet_of_mem rising (show (i, p.2) ∈ after_ by rw [← own]; exact mem)
  rw [gone] at is
  cases is

/-- What waits to be written is what has changed. -/
theorem mem_changedKeys {before after_ : SMap Entry} (new : smapGet before i = none → smapGet after_ i = none) :
    WtItem.entry i ∈ (changedKeys before after_).map WtItem.entry ↔ smapGet after_ i ≠ smapGet before i := by
  have keys : smapGet before i ≠ none → i ∈ smapKeys before := fun some_ => by
    obtain ⟨e, is⟩ := Option.ne_none_iff_exists'.mp some_
    exact List.mem_map.mpr ⟨(i, e), smapGet_some_mem is, rfl⟩
  rw [List.mem_map]
  constructor
  · rintro ⟨k, mem, same⟩
    cases same
    exact of_decide_eq_true (List.mem_filter.mp mem).2
  · intro changed
    refine ⟨i, List.mem_filter.mpr ⟨keys fun none_ => changed ?_, decide_eq_true changed⟩, rfl⟩
    rw [none_, new none_]

/-- The first entry whose head block is written is an INCOMPLETE one that is kept. -/
theorem made_incomplete {m : SMap Chunk} {total : Nat} {es : SMap Entry} {rest : List Nat} (rising : smapRising es = true)
    (chunks : smapRising m = true) (made : (reconciled m total es).made = i :: rest) :
    ∃ e', smapGet (reconciled m total es).entries i = some e' ∧ e'.state = .incomplete := by
  have mem : i ∈ (reconciled m total es).made := made ▸ List.mem_cons_self
  obtain ⟨⟨i', e⟩, at_, is⟩ := List.mem_filterMap.mp (show i ∈ es.filterMap fun p =>
    if p.2.state = .capturing && (keptChains m total es).any (fun k => k.1 == p.1) then some p.1 else none from mem)
  dsimp only at is
  split at is
  · next holds =>
    cases is
    obtain ⟨capturing, kept⟩ := (Bool.and_eq_true_iff).mp holds
    obtain ⟨⟨k, e₁, used⟩, mem', same⟩ := List.any_eq_true.mp kept
    have own : k = i := by simpa using same
    subst own
    obtain ⟨e', get⟩ := Option.ne_none_iff_exists'.mp ((reconciled_entry_kept rising chunks).mpr ⟨e₁, used, mem'⟩)
    refine ⟨e', get, ?_⟩
    obtain ⟨e₂, get₂, -, -, -, rfl⟩ := reconciled_entry rising get
    rw [smapGet_of_mem rising at_] at get₂
    cases get₂
    rw [reconciled_fields, if_pos (of_decide_eq_true capturing)]
  · cases is

/-! ### The last map block -/

/-- Where the chain of an entry goes on behind `l`, told by its last chunk. -/
theorem behind_eq (v : State) (e : Entry) (l : List Nat) : behind v.med.chunks (some e.firstChunk) l
    = l.getLast?.elim (some e.firstChunk) fun d => (v.chunkAt d).next := behind_last ..

variable {b : List Byte} {ok : Bool}

/-- The last map block has been read: what is loaded is reconciled. -/
theorem lastMap_reconciles (phase : s.sul.phase = .maps k) (last : k + 1 = (s.med.total + 79) / 80)
    (rising : smapRising s.med.chunks = true) (ok : Bool) :
    Reconciles (mapRead ok b k s) (sulReadDone ok b s) := by
  obtain ⟨chunks, fault, reads, -⟩ := mapRead_spec ok b k rising
  have total : (mapRead ok b k s).med.total = s.med.total := by rw [reads]
  rw [sulReadDone_map ok phase]
  have reconciles := sulSettle_reconciles (w := { mapRead ok b k s with sul.phase := .maps (k + 1) })
    (sulAdvance_map rfl (by show ((mapRead ok b k s).med.total + 79) / 80 ≤ k + 1; rw [total]; omega))
  exact ⟨reconciles.entries, reconciles.wt, reconciles.fault, reconciles.reserved, reconciles.chunks, reconciles.free,
    reconciles.bad, reconciles.pledged, reconciles.phase⟩

theorem Reconciles.entryAt (h : Reconciles w u) (i : Nat) :
    u.entryAt i = smapGet (reconciled w.med.chunks w.med.total w.cat.entries).entries i := by
  rw [State.entryAt, h.entries]

theorem Reconciles.chunkAt (h : Reconciles w u) (c : Nat) :
    u.chunkAt c = chunkIn (reconciled w.med.chunks w.med.total w.cat.entries).chunks c := by
  rw [State.chunkAt, h.chunks]

/-- A freed entry is empty with the flag, its chunks FREE or BAD. -/
theorem Reconciles.freed (h : Reconciles w u) (entries : smapRising w.cat.entries = true) (chunks : smapRising w.med.chunks = true)
    (he : w.entryAt i = some e) (live : e.state ≠ .receiving) (freed : Freed w.med.chunks w.med.total w.cat.entries i l) :
    u.entryAt i = none ∧ u.cat.fault = true
      ∧ ∀ c ∈ l, u.chunkAt c = if (w.chunkAt c).owner = .bad then lostChunk else freeChunk := by
  obtain ⟨gone, frees⟩ := freed
  refine ⟨(h.entryAt i).trans gone, ?_, fun c mem => (h.chunkAt c).trans (frees c mem)⟩
  rw [h.fault, anyBroken_of_freed he live gone (reconciled_rising _ _ _ chunks entries).1, Bool.or_true]

/-- What reconciliation makes of the entries and the counts, whatever their chains are. -/
theorem Reconciles.catalogue (h : Reconciles w u) (entries : smapRising w.cat.entries = true)
    (chunks : smapRising w.med.chunks = true) :
    (∀ i e, w.entryAt i = some e → e.state = .receiving ∨ e.firstChunk = 0 ∨ e.chunkCount = 0 → u.entryAt i = none)
      ∧ (∀ i e', u.entryAt i = some e' → ∃ e, w.entryAt i = some e ∧ e' = e.reconciled)
      ∧ (∀ i e, w.entryAt i = some e → e.state ≠ .receiving → u.entryAt i = none → u.cat.fault = true)
      ∧ (∀ i, .entry i ∈ u.cat.wt ↔ u.entryAt i ≠ w.entryAt i)
      ∧ (∀ c i, (u.chunkAt c).owner = .entry i → u.entryAt i ≠ none)
      ∧ (u.sul.phase = .complete
          ∨ ∃ i rest e, u.sul.phase = .heads (i :: rest) 0 ∧ u.entryAt i = some e ∧ e.state = .incomplete) := by
  have loaded (i : Nat) (e' : Entry) (is : u.entryAt i = some e') := reconciled_entry entries ((h.entryAt i).symm.trans is)
  have order := (reconciled_rising w.med.chunks w.med.total w.cat.entries chunks entries).1
  refine ⟨fun i e he unfit => ?_, fun i e' is => ?_, fun i e he live gone => ?_, fun i => ?_, fun c i owner => ?_, ?_⟩
  · by_contra kept
    obtain ⟨e', is⟩ := Option.ne_none_iff_exists'.mp kept
    obtain ⟨e₀, he₀, live, first, counted, -⟩ := loaded i e' is
    cases he.symm.trans he₀
    tauto
  · obtain ⟨e, he, -, -, -, eq⟩ := loaded i e' is
    exact ⟨e, he, eq⟩
  · rw [h.fault, anyBroken_of_freed he live ((h.entryAt i).symm.trans gone) order, Bool.or_true]
  · rw [h.wt, h.entryAt]
    refine mem_changedKeys fun none_ => ?_
    by_contra kept
    obtain ⟨e', is⟩ := Option.ne_none_iff_exists'.mp kept
    obtain ⟨e₀, he₀, -⟩ := reconciled_entry entries is
    rw [none_] at he₀
    cases he₀
  · rw [h.entryAt]
    exact reconciled_owner chunks entries ((congrArg Chunk.owner (h.chunkAt c)).symm.trans owner)
  · rcases h.phase with ⟨complete, -⟩ | ⟨heads, made⟩
    · exact .inl complete
    · obtain ⟨i, rest, is⟩ := List.exists_cons_of_ne_nil made
      obtain ⟨e', get, incomplete⟩ := made_incomplete entries chunks is
      exact .inr ⟨i, rest, e', heads.trans (congrArg (SulPhase.heads · 0) is), (h.entryAt i).trans get, incomplete⟩

/-- The counts are those of the map as it stands (R32). -/
theorem Reconciles.counts (h : Reconciles w u) : u.cat.reserved = 0 ∧ u.med.pledged = 0
    ∧ u.med.bad = u.med.chunks.countP (fun p => p.2.owner == .bad)
    ∧ u.med.free = w.med.total - u.med.chunks.countP (fun p => p.2.owner != .free) := by
  refine ⟨h.reserved, h.pledged, ?_, ?_⟩
  · rw [h.bad, h.chunks]
  · rw [h.free, h.chunks, takenChunks, List.countP_eq_length_filter]

end Reconciling

end Sys2Proof.Machine

/-! ## Proofs: start-up

SUPPORT and O34. Each stage of start-up as the statement has it (R187 to R189). -/

namespace Sys2Proof.Machine

section Stages
variable {s : State} {op : Issued} {so : SulOp} {b : List Byte} {i k offset faults : Nat} {rest : List Nat} {e : Entry}
  {readable ok : Bool} {u v : State}

/-! ### Records -/

/-- The block read is whole and its check agrees (R41). -/
theorem read_good (good : readable = true ∧ fieldAt b 16 2 = (crc16 ((b.drop 32).take 480)).toNat) :
    (readable && blockGood b) = true := by
  rw [Bool.and_eq_true, blockGood_iff]
  exact good

theorem read_bad (bad : ¬ (readable = true ∧ fieldAt b 16 2 = (crc16 ((b.drop 32).take 480)).toNat)) :
    (readable && blockGood b) = false := by
  rw [← Bool.not_eq_true, Bool.and_eq_true, blockGood_iff]
  exact bad

theorem not_whole (bad : readable = false ∨ fieldAt b 16 2 ≠ (crc16 ((b.drop 32).take 480)).toNat) :
    ¬ (readable = true ∧ fieldAt b 16 2 = (crc16 ((b.drop 32).take 480)).toNat) := by
  rintro ⟨is, agrees⟩
  rcases bad with not_ | differs
  · rw [is] at not_
    cases not_
  · exact differs agrees

/-- The end of the read of a record (R187). -/
theorem record_read (phase : s.sul.phase = .records i) (place : i < 2048) (hop : s.med.issued = some op) (read : op.write = false)
    (who : op.who = .sul so) (length : b.length = 512) : ∃ u, exec (.mediaReadComplete readable (.bytes b)) s = .next (settle u)
      ∧ u.med = { s.med with issued := none } ∧ u.sul.phase = (if i = 2047 then .maps 0 else .records (i + 1))
      ∧ (∀ k, k ≠ i → u.entryAt k = s.entryAt k)
      ∧ ((readable && blockGood b) = true → ((byteAt (blockPayload b) 0).toNat = 0 → u.cat = s.cat)
          ∧ ((byteAt (blockPayload b) 0).toNat ≠ 0 → recordBroken (blockPayload b) → u.cat = { s.cat with fault := true })
          ∧ ((byteAt (blockPayload b) 0).toNat ≠ 0 → ¬ recordBroken (blockPayload b) →
              u.cat.fault = s.cat.fault ∧ u.entryAt i = some (recordEntry (blockPayload b))))
      ∧ ((readable && blockGood b) = false → u.cat = { s.cat with fault := true }) := by
  have row := exec_sulRead (readable := readable) hop read who length
  have done := sulReadDone_record (s := { s with med.issued := none }) (b := b) (readable && blockGood b) phase place
  rw [done] at row
  refine ⟨_, row, ?_⟩
  cases readable && blockGood b with
  | false => exact ⟨rfl, rfl, fun _ _ => rfl, fun is => by (cases is), fun _ => rfl⟩
  | true =>
    obtain ⟨cat, loads, others⟩ := loadRecord_eq i (blockPayload b) { s with med.issued := none }
    refine ⟨?_, rfl, others, fun _ => ⟨fun empty => ?_, fun live broken => ?_, fun live sound => ?_⟩, fun is => by cases is⟩
    · rw [if_pos rfl, loads]
    · rw [if_pos rfl, loadRecord_empty empty]
    · rw [if_pos rfl, loadRecord_invalid live broken]
      rfl
    · rw [if_pos rfl, loadRecord_live live sound]
      exact ⟨rfl, smapGet_smapSet_self ..⟩

/-! ### Map blocks -/

/-- A map block that is not the last is loaded, and the next is read. -/
theorem map_read (sound : s.Sound) (phase : s.sul.phase = .maps k) (more : k + 1 < (s.med.total + 79) / 80)
    (hop : s.med.issued = some op) (read : op.write = false) (who : op.who = .sul so) (length : b.length = 512) :
    ∃ u chunks fault, exec (.mediaReadComplete readable (.bytes b)) s = .next (settle u) ∧ u.sul.phase = .maps (k + 1)
      ∧ u.cat = { s.cat with fault := fault } ∧ u.med.chunks = chunks
      ∧ (∀ c, c / 80 ≠ k → chunkIn chunks c = s.chunkAt c)
      ∧ ((readable && blockGood b) = true → (∀ c, c / 80 = k → c < s.med.total →
            chunkIn chunks c = (chunkOfBytes s.med.total c (mapEntry (blockPayload b) c)).getD lostChunk)
          ∧ (fault = true ↔ s.cat.fault = true
              ∨ ∃ c, (c / 80 = k ∧ c < s.med.total) ∧ chunkRejected s.med.total c (mapEntry (blockPayload b) c)))
      ∧ ((readable && blockGood b) = false → fault = true
          ∧ ∀ c, c / 80 = k → c < s.med.total → chunkIn chunks c = if c = 0 then s.chunkAt 0 else lostChunk) := by
  obtain ⟨-, ⟨-, chunks, -⟩, -⟩ := sound
  obtain ⟨chunks', fault, reads, -, others, good, bad⟩ :=
    mapRead_spec (s := { s with med.issued := none }) (readable && blockGood b) b k chunks
  have row := exec_sulRead (readable := readable) hop read who length
  have done : sulReadDone (readable && blockGood b) b { s with med.issued := none }
      = { s with med.issued := none, cat.fault := fault, med.chunks := chunks', sul.phase := .maps (k + 1) } := by
    rw [sulReadDone_map (s := { s with med.issued := none }) _ phase, reads]
    exact sulSettle_map rfl more
  rw [done] at row
  exact ⟨_, chunks', fault, row, rfl, rfl, rfl, others, good, bad⟩

/-- A chunk entry that is taken stands as its bytes, one that is rejected is BAD. -/
theorem loaded_chunk {total c : Nat} {ch : Chunk} {p : List Byte} (whole : p.length = 480)
    (is : ch = (chunkOfBytes total c (mapEntry p c)).getD lostChunk) :
    (chunkRejected total c (mapEntry p c) → ch = lostChunk) ∧ (¬ chunkRejected total c (mapEntry p c) → ch.bytes = mapEntry p c) := by
  refine ⟨fun rejected => ?_, fun taken => ?_⟩
  · rw [is, chunkOfBytes_rejected.mpr rejected]
    rfl
  · obtain ⟨ch', takes⟩ := Option.ne_none_iff_exists'.mp (mt chunkOfBytes_rejected.mp taken)
    rw [is, takes]
    exact bytes_chunkOfBytes (length_mapEntry whole c) takes

theorem length_blockPayload (length : b.length = 512) : (blockPayload b).length = 480 := by
  rw [blockPayload, List.length_take, List.length_drop, length]
  rfl

/-! ### Writes -/

/-- The end of the last head block completes start-up (R189). -/
theorem heads_complete (phase : s.sul.phase = .heads [i] faults) (hop : s.med.issued = some op) (write : op.write = true)
    (who : op.who = .sul so) : ∃ u, exec (.mediaWriteComplete true) s = .next (settle u) ∧ u.sul.phase = .complete
      ∧ u.cpe.port = .ready ∧ u.lif.listening = true ∧ u.cat.mark = true ∧ u.jt.nextTag = 0 ∧ u.cat.entries = s.cat.entries
      ∧ u.cat.queue = (s.cat.entries.filter (fun p => p.2.placement = .queued)).map (fun p => (p.1, s.now))
      ∧ (s.sul.cfg.eventMask.getLsbD 6 = true → s.cpe.events.length < 32 → u.cpe.events = s.cpe.events ++
          [.startupDone s.cat.entries.length s.sul.madeIncomplete s.sul.freed s.sul.prepared s.cat.fault]) := by
  obtain ⟨v, row, ⟨freeIx, med, rfl, -⟩, -⟩ := exec_sulWrite true hop write who
  rw [sulWriteDone_head (s := { s with freeIx := freeIx, med := med }) phase, if_pos rfl] at row
  have completes := completeStartUp_spec { s with freeIx := freeIx, med := med, sul.phase := .heads [] 0 }
  refine ⟨_, row, completes.phase, completes.port, completes.listening, ?_, completes.tag, ?_, ?_, completes.events⟩
  · rw [completes.cat]
  · rw [completes.cat]
  · rw [completes.cat]
    rfl

/-- A payload of zeros behind `p`, filled up with zeros. -/
theorem fitBytes_zeros {p : List Byte} {n : Nat} (room : p.length + n ≤ 480) :
    fitBytes 480 (p ++ List.replicate n 0) = p ++ List.replicate (480 - p.length) 0 := by
  have length : (p ++ List.replicate n (0 : Byte)).length = p.length + n := by
    rw [List.length_append, List.length_replicate]
  rw [fitBytes, List.take_of_length_le (by rw [length]; exact room), length, List.append_assoc, List.replicate_append_replicate]
  exact congrArg (p ++ List.replicate · 0) (by omega)

theorem makeBlock_congr {p p' : List Byte} (take : Option TakeNo) (sequence offset frames type : Nat) (format : Byte)
    (same : fitBytes 480 p = fitBytes 480 p') :
    makeBlock take sequence offset frames type format p = makeBlock take sequence offset frames type format p' := by
  unfold makeBlock
  rw [same]

/-- The bytes of a block of a blank store (R187, R193). -/
theorem blankBlock_eq (map : s.med.chunks = [(0, { owner := .reserved, next := none, used := 4096 })]) (offset : Nat) :
    s.blankBlock offset = makeBlock none offset 0 0 (if offset = 0 then 3 else if offset < 2049 then 4 else 5) 0
      (if offset = 0 then [0xA5, 0x5A, 0xC3, 0x3C] ++ List.replicate 476 0
       else if offset < 2049 then List.replicate 480 0
       else (List.range (min 80 (s.med.total - 80 * (offset - 2049)))).flatMap fun k =>
          if offset = 2049 ∧ k = 0 then [0xFF, 0xFE, 0xFF, 0xFF, 0x10, 0x00] else [0xFF, 0xFF, 0xFF, 0xFF, 0x00, 0x00]) := by
  have reads (c : Nat) : (s.chunkAt c).bytes = if c = 0 then [0xFF, 0xFE, 0xFF, 0xFF, 0x10, 0x00] else [0xFF, 0xFF, 0xFF, 0xFF, 0x00, 0x00] := by
    rw [State.chunkAt, map]
    by_cases first : c = 0
    · subst first
      rfl
    · have unlisted : smapGet [(0, ({ owner := .reserved, next := none, used := 4096 } : Chunk))] c = none := by
        simp [smapGet, first]
      rw [if_neg first, chunkIn, unlisted]
      rfl
  unfold State.blankBlock
  by_cases first : offset = 0
  · subst first
    exact makeBlock_congr none 0 0 0 3 0 ((fitBytes_zeros (p := formatMark) (n := 4) (by decide)).trans
      (fitBytes_zeros (p := formatMark) (n := 476) (by decide)).symm)
  rw [if_neg first, if_neg first, if_neg first]
  by_cases record : offset < 2049
  · rw [if_pos record, if_pos record, if_pos record, recordBlock, show 1 + (offset - 1) = offset by omega]
    exact makeBlock_congr none offset 0 0 4 0 ((fitBytes_zeros (p := []) (n := 256) (by decide)).trans
      (fitBytes_zeros (p := []) (n := 480) (by decide)).symm)
  · rw [if_neg record, if_neg record, if_neg record, State.mapBlock, show 2049 + (offset - 2049) = offset by omega]
    refine congrArg (makeBlock none offset 0 0 5 0) (List.flatMap_congr fun k _ => ?_)
    rw [reads]
    exact if_congr (by omega) rfl rfl

/-- The last block of a blank store, written or given up, completes start-up with an empty catalogue (R187, R189). -/
theorem prepare_complete (phase : s.sul.phase = .prepare offset faults) (last : offset + 1 = 2049 + (s.med.total + 79) / 80)
    (hop : s.med.issued = some op) (write : op.write = true) (who : op.who = .sul so) (chunk : op.chunk = none)
    (map : s.med.chunks = [(0, { owner := .reserved, next := none, used := 4096 })]) (empty : s.cat.entries = [])
    (ends : ok = true ∨ 2 ≤ faults) : ∃ u, exec (.mediaWriteComplete ok) s = .next (settle u) ∧ u.sul.phase = .complete
      ∧ u.cat.entries = [] ∧ u.cat.wt = [] ∧ u.cat.queue = [] ∧ u.cat.reserved = 0 ∧ u.cat.counter = s.cat.counter
      ∧ u.cat.fault = (s.cat.fault || !ok) ∧ u.cat.mark = true ∧ u.med.chunks = s.med.chunks ∧ u.med.mapList = []
      ∧ u.med.free = s.med.total - 1 ∧ u.med.bad = 0 ∧ u.med.pledged = 0 ∧ u.cpe.port = .ready ∧ u.lif.listening = true
      ∧ u.jt.nextTag = 0
      ∧ (s.sul.cfg.eventMask.getLsbD 6 = true → s.cpe.events.length < 32 → u.cpe.events = s.cpe.events ++
          [.startupDone 0 0 0 s.sul.prepared (s.cat.fault || !ok)]) := by
  obtain ⟨w, row, ⟨freeIx, med, is, total⟩, stands⟩ := exec_sulWrite ok hop write who
  have chunks : w.med.chunks = [(0, reservedChunk)] := (stands chunk).1.trans map
  have entries : w.cat.entries = [] := by
    rw [is]
    exact empty
  have totals : w.med.total = s.med.total := (stands chunk).2
  have phase' : w.sul.phase = .prepare offset faults := by
    rw [is]
    exact phase
  rw [sulWriteDone_prepare ok phase', if_pos ends] at row
  let t : State := w.prepared (offset + 1) 0 (!ok)
  have advances : sulAdvance t = reconcile t :=
    sulAdvance_prepare (w := t) rfl (by show 2049 + (w.med.total + 79) / 80 ≤ offset + 1; rw [totals]; omega)
  have nothing : reconciled t.med.chunks t.med.total t.cat.entries = { entries := [], chunks := [(0, reservedChunk)], made := [] } := by
    show reconciled w.med.chunks w.med.total w.cat.entries = _
    rw [chunks, entries]
    rfl
  have settles : sulSettle t = completeStartUp (reconcile t) := by
    rw [sulSettle_reconcile advances, nothing]
    exact if_pos rfl
  rw [show sulSettle (w.prepared (offset + 1) 0 (!ok)) = completeStartUp (reconcile t) from settles] at row
  have completes := completeStartUp_spec (reconcile t)
  have none_ : (reconcile t).cat.entries = [] := by
    show (reconciled t.med.chunks t.med.total t.cat.entries).entries = _
    rw [nothing]
  have flag : (reconcile t).cat.fault = (s.cat.fault || !ok) := by
    show ((w.cat.fault || !ok) || anyBroken w.cat.entries _) = _
    rw [entries, anyBroken, List.any_nil, Bool.or_false, is]
  refine ⟨_, row, completes.phase, ?_, ?_, ?_, ?_, ?_, ?_, ?_, ?_, ?_, ?_, ?_, ?_, completes.port, completes.listening,
    completes.tag, fun enabled room => ?_⟩
  · rw [completes.cat]
    exact none_
  · rw [completes.cat]
    show (changedKeys w.cat.entries _).map WtItem.entry = []
    rw [entries]
    rfl
  · rw [completes.cat]
    show ((reconcile t).cat.entries.filter _).map _ = []
    rw [none_]
    rfl
  · rw [completes.cat]
    rfl
  · rw [completes.cat]
    show w.cat.counter = _
    rw [is]
  · rw [completes.cat]
    exact flag
  · rw [completes.cat]
  · rw [completes.med, map]
    show (reconciled t.med.chunks t.med.total t.cat.entries).chunks = _
    rw [nothing]
    rfl
  · rw [completes.med]
    show ((changedKeys w.med.chunks (reconciled t.med.chunks t.med.total t.cat.entries).chunks).map (· / 80)).eraseDups = []
    rw [nothing, chunks]
    rfl
  · rw [completes.med]
    show w.med.total - (takenChunks (reconciled t.med.chunks t.med.total t.cat.entries).chunks).length = _
    rw [nothing, totals]
    rfl
  · rw [completes.med]
    show (reconciled t.med.chunks t.med.total t.cat.entries).chunks.countP _ = 0
    rw [nothing]
    rfl
  · rw [completes.med]
    rfl
  · have config : (reconcile t).sul.cfg = s.sul.cfg := by
      show w.sul.cfg = _
      rw [is]
    have events : (reconcile t).cpe.events = s.cpe.events := by
      show w.cpe.events = _
      rw [is]
    have told := completes.events (by rw [config]; exact enabled) (by rw [events]; exact room)
    have made : (reconcile t).sul.madeIncomplete = 0 := by
      show (reconciled t.med.chunks t.med.total t.cat.entries).made.length = 0
      rw [nothing]
      rfl
    have freed : (reconcile t).sul.freed = 0 := by
      show w.cat.entries.length - _ = 0
      rw [entries, List.length_nil, Nat.zero_sub]
    have prepared : (reconcile t).sul.prepared = s.sul.prepared := by
      show w.sul.prepared = _
      rw [is]
    rw [told, events, none_, made, freed, prepared, flag]
    rfl

end Stages

end Sys2Proof.Machine

/-! ## Proofs: start-up as a whole

O34, clause by clause. -/

namespace Sys2Proof.Machine

section Clauses
variable {s u v : State} {op : Issued} {so : SulOp} {b : List Byte} {k offset faults : Nat} {readable : Bool}

/-- A loaded state agrees with the map block read, whether it was read or not. -/
theorem mapRead_loaded (rising : smapRising s.med.chunks = true) (length : b.length = 512) (ok : Bool) :
    (mapRead ok b k s).cat.entries = s.cat.entries ∧ (∀ c, c / 80 ≠ k → (mapRead ok b k s).chunkAt c = s.chunkAt c)
      ∧ (ok = true → ∀ c, c / 80 = k → c < s.med.total →
          (chunkRejected s.med.total c (mapEntry (blockPayload b) c) → (mapRead ok b k s).chunkAt c = lostChunk)
            ∧ (¬ chunkRejected s.med.total c (mapEntry (blockPayload b) c) →
                ((mapRead ok b k s).chunkAt c).bytes = mapEntry (blockPayload b) c))
      ∧ (ok = false → ∀ c, c / 80 = k → c < s.med.total →
          (mapRead ok b k s).chunkAt c = if c = 0 then s.chunkAt 0 else lostChunk)
      ∧ (mapRead ok b k s).med.total = s.med.total ∧ smapRising (mapRead ok b k s).med.chunks = true := by
  obtain ⟨chunks, fault, reads, rising', others, good, bad⟩ := mapRead_spec ok b k rising
  rw [reads]
  exact ⟨rfl, others, fun is c block inside => loaded_chunk (length_blockPayload length) ((good is).1 c block inside),
    fun is => (bad is).2, rfl, rising'⟩

/-- The write of a blank store's block, but for the last. -/
theorem prepare_next (ok : Bool) (phase : s.sul.phase = .prepare offset faults)
    (more : offset + 1 < 2049 + (s.med.total + 79) / 80) (hop : s.med.issued = some op) (write : op.write = true)
    (who : op.who = .sul so) : ∃ u, exec (.mediaWriteComplete ok) s = .next (settle u)
      ∧ u.sul.phase = (if ok = true ∨ 2 ≤ faults then .prepare (offset + 1) 0 else .prepare offset (faults + 1))
      ∧ u.cat = { s.cat with fault := s.cat.fault || (!ok && decide (2 ≤ faults)) } := by
  obtain ⟨w, row, ⟨freeIx, med, is, total⟩, -⟩ := exec_sulWrite ok hop write who
  subst is
  rw [sulWriteDone_prepare (s := { s with freeIx := freeIx, med := med }) ok phase] at row
  by_cases ends : ok = true ∨ 2 ≤ faults
  · rw [if_pos ends, sulSettle_prepare (offset := offset + 1) (faults := 0) rfl (by show _ < 2049 + (med.total + 79) / 80; rw [total]; exact more)]
      at row
    refine ⟨_, row, (if_pos ends).symm, ?_⟩
    have flag : (!ok && decide (2 ≤ faults)) = !ok := by
      rcases ends with is | many
      · rw [is]
        rfl
      · rw [decide_eq_true many, Bool.and_true]
    rw [flag]
    rfl
  · rw [if_neg ends, sulSettle_prepare (offset := offset) (faults := faults + 1) rfl
      (by show _ < 2049 + (med.total + 79) / 80; rw [total]; omega)] at row
    refine ⟨_, row, (if_neg ends).symm, ?_⟩
    rw [decide_eq_false (fun many => ends (.inr many)), Bool.and_false]
    rfl

/-- A block of the reserved chunk, byte by byte (R192). -/
theorem makeBlock_plain {p : List Byte} (offset type : Nat) (whole : fitBytes 480 p = p) : makeBlock none offset 0 0 type 0 p
    = beBytes 4 0 ++ beBytes 4 offset ++ beBytes 4 0 ++ beBytes 2 0 ++ beBytes 1 type ++ [0]
      ++ beBytes 2 (crc16 p).toNat ++ List.replicate 14 0 ++ p := by
  unfold makeBlock
  rw [whole]
  rfl

end Clauses

/-- Settles O34: SUL's reads load the counter, the records and the map, the walks of reconciliation go along the chains
that no earlier entry leads into, and its writes prepare a blank store or the head blocks of the entries cut short. -/
theorem storeReadyThenTheCounter : Obligations.StoreReadyThenTheCounter := by
  unfold Obligations.StoreReadyThenTheCounter
  refine ⟨fun s starting waking => ⟨exec_storeReady starting waking, fun phase idle => ?_⟩,
    fun s op b phase hop read who length => ⟨fun check mark => ?_, fun check mark => ?_, ?_, ?_⟩,
    fun s op so b i readable sound phase place hop read who length => ?_,
    fun s op so b k readable sound phase more hop read who length => ?_,
    fun s op so b k readable sound phase last hop read who length => ?_,
    fun s op so i rest faults phase hop write who => ⟨fun none_ => ?_, fun more => ?_, fun few => ?_, fun e many more he lacks room => ?_⟩,
    fun s offset faults phase idle map inside => ?_,
    fun s op so offset faults ok phase last hop write who chunk map empty => ⟨fun ends => ?_, fun bad few => ?_⟩,
    fun s op so offset faults phase more hop write who => ⟨?_, ?_⟩⟩
  · -- STORE_READY with the capacity known: the counter block is asked for
    have port : ({ s with act.state := .active } : State).portState = .idle := by
      show (if s.med.issued.isSome = true then MediaPort.busy else .idle) = .idle
      rw [idle]
      rfl
    have wants : ({ s with act.state := .active } : State).sulWants = some (.readBlock 0) := by
      unfold State.sulWants
      dsimp only
      rw [phase]
    obtain ⟨a, issues, active⟩ := settle_sul (offset := 0) (write := false) (data := []) port starting wants rfl
    exact ⟨_, _, (exec_storeReady starting waking).trans (congrArg Host.Outcome.next issues), rfl, rfl, rfl, rfl, rfl, active⟩
  · -- the counter block with its format mark
    have row := exec_sulRead (readable := true) hop read who length
    rw [read_good ⟨rfl, check⟩] at row
    exact row.trans (congrArg (fun u => Host.Outcome.next (settle u)) (sulReadDone_counter phase mark))
  · -- a counter block without the mark: a blank store
    have row := exec_sulRead (readable := true) hop read who length
    rw [read_good ⟨rfl, check⟩] at row
    exact row.trans (congrArg (fun u => Host.Outcome.next (settle u)) (sulReadDone_blank phase mark))
  · -- a counter block that cannot be read
    have row := exec_sulRead (readable := false) hop read who length
    rw [Bool.false_and] at row
    exact row.trans (congrArg (fun u => Host.Outcome.next (settle u)) (sulReadDone_noCounter phase))
  · -- a counter block that is not answered
    have later := later_passTo (op.since + 250) s
    have row := exec_sulRead_timeout hop read who
    rw [sulReadDone_noCounter (by rw [later.sul]; exact phase)] at row
    exact ⟨_, row, rfl, rfl, rfl, later.clock⟩
  · -- a catalogue record
    obtain ⟨u, row, med, phase', others, good, bad⟩ := record_read (readable := readable) phase place hop read who length
    exact ⟨u, row, med, phase', others, fun is check => good (read_good ⟨is, check⟩), fun is => bad (read_bad (not_whole is))⟩
  · -- a map block that is not the last
    obtain ⟨u, chunks, fault, row, phase', cat, map, others, good, bad⟩ :=
      map_read (readable := readable) sound phase more hop read who length
    have at_ (c : Nat) : u.chunkAt c = chunkIn chunks c := by rw [State.chunkAt, map]
    have inside {c : Nat} (block : c / 80 = k) : c < s.med.total := by omega
    refine ⟨u, row, phase', by rw [cat], fun c other => (at_ c).trans (others c other), fun is check => ?_, fun is => ?_⟩
    · obtain ⟨loads, flag⟩ := good (read_good ⟨is, check⟩)
      have stands (c : Nat) (block : c / 80 = k) :=
        loaded_chunk (length_blockPayload length) ((at_ c).trans (loads c block (inside block)))
      refine ⟨fun c block rejected => ⟨(stands c block).1 rejected, ?_⟩, fun c block taken => (stands c block).2 taken, fun taken => ?_⟩
      · rw [cat]
        exact flag.mpr (.inr ⟨c, ⟨block, inside block⟩, rejected⟩)
      · have same : fault = s.cat.fault := by
          rw [Bool.eq_iff_iff, flag]
          refine ⟨fun is => is.resolve_right ?_, .inl⟩
          rintro ⟨c, ⟨block, -⟩, rejected⟩
          exact taken c block rejected
        rw [cat, same]
    · obtain ⟨flag, lost⟩ := bad (read_bad (not_whole is))
      refine ⟨by rw [cat, flag], ?_, fun c other block => ?_⟩
      · by_cases block : 0 / 80 = k
        · exact (at_ 0).trans ((lost 0 block (inside block)).trans (if_pos rfl))
        · exact (at_ 0).trans (others 0 block)
      · exact (at_ c).trans ((lost c block (inside block)).trans (if_neg other))
  · -- the last map block, and reconciliation
    intro q rejected whole lost loaded bad mine walked
    obtain ⟨-, ⟨entries, chunks, -⟩, -⟩ := sound
    have row := exec_sulRead (readable := readable) hop read who length
    let v : State := mapRead (readable && blockGood b) b k { s with med.issued := none }
    obtain ⟨sameEntries, others, good, lose, total, rising⟩ : v.cat.entries = s.cat.entries ∧ _ :=
      mapRead_loaded (s := { s with med.issued := none }) (k := k) chunks length (readable && blockGood b)
    have reconciles : Reconciles v (sulReadDone (readable && blockGood b) b { s with med.issued := none }) :=
      lastMap_reconciles (s := { s with med.issued := none }) phase last chunks (readable && blockGood b)
    have entriesOf : smapRising v.cat.entries = true := by
      rw [sameEntries]
      exact entries
    have entry (i : Nat) : v.entryAt i = s.entryAt i := by rw [State.entryAt, sameEntries, State.entryAt]
    have walks {i : Nat} {e : Entry} {l : List Nat} (is : walked v i e l) :
        Walked v.med.chunks v.med.total v.cat.entries i e l := by
      rw [total, sameEntries]
      exact is
    obtain ⟨unfit, kept, flag, changed, owned, goes⟩ := reconciles.catalogue entriesOf rising
    obtain ⟨reserved, pledged, badCount, free⟩ := reconciles.counts
    simp only [entry] at unfit kept flag changed
    rw [total] at free
    refine ⟨_, v, row, ⟨sameEntries, others, fun is => good (read_good is), fun isnt => lose (read_bad isnt)⟩,
      fun i e l he live first chain => ?_, reserved, pledged, badCount, free, unfit,
      fun i e he live single first inside elsewhere own low high => ?_, fun i e' is => ?_, flag, changed, owned, goes⟩
    · have heV : v.entryAt i = some e := (entry i).trans he
      refine ⟨fun short stops => ?_, fun d whole' ends => ?_⟩
      · refine reconciles.freed entriesOf rising heV live
          (freed_of_break entriesOf rising heV live (walks chain) first short fun c next => ?_)
        have leads : (match l.getLast? with
            | some d => (v.chunkAt d).next
            | none => some e.firstChunk) = some c := by
          rw [behind_eq] at next
          cases is : l.getLast? <;> rw [is] at next <;> exact next
        rw [total, sameEntries]
        exact stops c leads
      · have split : l.dropLast ++ [d] = l := List.dropLast_append_getLast? d ends
        have chain' := walks chain
        rw [← split] at chain'
        obtain ⟨fit, misfit⟩ := kept_of_whole entriesOf rising heV live chain' first (by rw [split]; exact whole')
        refine ⟨fun fits => ?_, fun misfits => ?_⟩
        · obtain ⟨some_, front, lastOne⟩ := fit fits
          exact ⟨by rw [reconciles.entryAt]; exact some_, fun c mem => (reconciles.chunkAt c).trans (front c mem),
            (reconciles.chunkAt d).trans lastOne⟩
        · have freed := misfit misfits
          rw [split] at freed
          exact reconciles.freed entriesOf rising heV live freed
    · have owner : (chunkIn v.med.chunks e.firstChunk).owner = .entry i :=
        (congrArg Chunk.owner (others e.firstChunk elsewhere)).trans own
      obtain ⟨some_, chunk⟩ := reconciled_single (total := v.med.total) rising entriesOf ((entry i).trans he) live single first
        (by rw [total]; exact inside) owner low high
      exact ⟨by rw [reconciles.entryAt]; exact some_, (reconciles.chunkAt e.firstChunk).trans chunk⟩
    · obtain ⟨e, he, rfl⟩ := kept i e' is
      exact ⟨e, he, reconciled_fields e⟩
  · -- the last head block, written OK
    subst none_
    exact heads_complete phase hop write who
  · -- a head block written OK, more to come
    obtain ⟨v, row, ⟨freeIx, med, rfl, -⟩, -⟩ := exec_sulWrite true hop write who
    rw [sulWriteDone_head (s := { s with freeIx := freeIx, med := med }) phase, if_neg more] at row
    exact ⟨_, row, rfl, rfl⟩
  · -- a head block's first or second fault
    obtain ⟨v, row, ⟨freeIx, med, rfl, -⟩, -⟩ := exec_sulWrite false hop write who
    rw [sulWriteDone_head_again (s := { s with freeIx := freeIx, med := med }) phase few] at row
    exact ⟨_, row, rfl, rfl⟩
  · -- a head block's third fault
    obtain ⟨v, row, ⟨freeIx, med, rfl, -⟩, -⟩ := exec_sulWrite false hop write who
    rw [sulWriteDone_head_lost (s := { s with freeIx := freeIx, med := med }) phase many more] at row
    exact ⟨_, _, row, rfl, recordDamage_head (s := { s with freeIx := freeIx, med := med }) none he lacks room, rfl, rfl⟩
  · -- the next block of a blank store is issued
    intro header block
    have starting : s.sul.phase ≠ .complete := by
      rw [phase]
      simp
    have wants : s.sulWants = some (.prepare offset faults) := by rw [State.sulWants, phase]
    obtain ⟨a, issues, -⟩ := settle_sul (offset := offset) (write := true) (data := s.blankBlock offset) idle starting wants rfl
    have bytes : s.blankBlock offset = block := by
      rw [blankBlock_eq map]
      simp only [block, header]
      by_cases first : offset = 0
      · simp only [if_pos first]
        exact makeBlock_plain offset 3 (fitBytes_zeros (p := formatMark) (n := 476) (by decide))
      by_cases record : offset < 2049
      · simp only [if_neg first, if_pos record]
        exact makeBlock_plain offset 4 (fitBytes_zeros (p := []) (n := 480) (by decide))
      · simp only [if_neg first, if_neg record]
        rfl
    rw [issues, bytes]
    rfl
  · -- the last block of a blank store, written or given up
    exact prepare_complete phase last hop write who chunk map empty ends
  · -- its first or second fault
    subst bad
    obtain ⟨w, row, ⟨freeIx, med, rfl, -⟩, stands⟩ := exec_sulWrite false hop write who
    have many : ¬ (false = true ∨ 2 ≤ faults) := by
      rintro (is | is)
      · cases is
      · omega
    rw [sulWriteDone_prepare (s := { s with freeIx := freeIx, med := med }) false phase, if_neg many,
      sulSettle_prepare (offset := offset) (faults := faults + 1) rfl
        (by show _ < 2049 + (med.total + 79) / 80; rw [show med.total = s.med.total from (stands chunk).2]; omega)] at row
    refine ⟨_, row, rfl, ?_, (stands chunk).1⟩
    show ({ s.cat with fault := s.cat.fault || false } : Cat) = s.cat
    rw [Bool.or_false]
  · -- a block of a blank store written OK
    obtain ⟨u, row, phase', cat⟩ := prepare_next true phase more hop write who
    exact ⟨u, row, phase'.trans (if_pos (.inl rfl)), by rw [cat, Bool.not_true, Bool.false_and, Bool.or_false]⟩
  · -- a block of a blank store that faults
    obtain ⟨u, row, phase', cat⟩ := prepare_next false phase more hop write who
    refine ⟨u, row, phase'.trans ?_, cat⟩
    by_cases few : faults < 2
    · rw [if_pos few]
      exact if_neg (by simp; omega)
    · rw [if_neg few]
      exact if_pos (.inr (by omega))

end Sys2Proof.Machine
